-- ==== Sys2Proof/Word.lean ====
section
/-!
DEFINITION. The word types of the machine and their plainest arithmetic (spec/00_scope.md R4, R5).
-/
namespace Sys2Proof

/-- A doubleword (R5). -/
abbrev Word := BitVec 64
/-- An instruction word (R5). -/
abbrev Word32 := BitVec 32
/-- A byte (R5). -/
abbrev Byte := BitVec 8
/-- The number of an x, f or v register (R285). -/
abbrev Reg := BitVec 5

end Sys2Proof
end

