-- ==== Sys2Proof/Config.lean ====
section
/-!
DEFINITION. What an implementation fixes and the spec leaves open. A constant with no body is a free value:
nothing in the model or in a proof can see what it is (log 16).
-/
namespace Sys2Proof

/-- The monitor vector, fixed by the firmware image (R248). DESIGN CHOICE (log 4): no number is given. Unsafe. -/
def Config.monitorVector : Word := 0x2000

/-- The entries of a directory slice. DESIGN CHOICE (log 96): the spec gives no size; as many as the L2 portions of an
island have lines. Safe: nothing a program can read depends on it. -/
def Config.directoryLines : Nat := 1015808

/-- SERIAL, burned into fuses (R272). Free value. -/
opaque Config.serial : Word
/-- FWVER (R272): at 0 of the image the module is made with, at 1 with no image in force. Free values. -/
opaque Config.fwVer : Nat → Word
/-- The version of the placement code in force after so many reloads (R247, R272). Free value. -/
opaque Config.codeVer : Nat → BitVec 16
/-- A measured value (POWER, COOLANT) at a reading (R272). Free value. -/
opaque Config.measured : Nat → Word
/-- HBMTRAIN of the stacks that have not failed, two bits each (R272). Free value. -/
opaque Config.hbmTrain : Word
/-- Where the placement code's image starts its steward harts (R263). Free value. -/
opaque Config.stewardEntry : Nat → Word
/-- The mode the placement code's image starts its steward harts in (R263). Free value. -/
opaque Config.stewardMode : Nat → BitVec 2
/-- The SHA-256 of the owner's public key in a page of 4,096 bytes (R274). Free value. -/
opaque Config.keyHash : List Byte → BitVec 256
/-- Which of n entries a full cache, TLB or directory replaces at a cycle, for a line or page (R143, R148, R175). Free
value. -/
opaque Config.victim : Nat → Nat → Nat
/-- A value that the spec does not state, at each place one is needed (log 37). Free value. -/
opaque Config.openValue : Nat → Nat

end Sys2Proof
end

