-- ==== Sys2Proof/Syntax.lean ====
section
/-!
DEFINITION. The steps of the machine: one constructor of `Instr` per row of spec/opcode_table.json.
The first 151 are the 32-bit instructions (R286), the next 60 the 64-bit instructions (R290), the
rest are the events of the module's agents, which have no encoding.
-/
namespace Sys2Proof

/-- The type codes of R289, in the order of their codes. -/
inductive Ty where
  | b | h | w | d | bu | hu | wu | du
  | df | sf | hf | bf | e4 | e5 | f6a | f6b
  | f4 | i4 | mx8e4 | mx8e5 | mx6a | mx6b | mx4
  deriving DecidableEq, Repr

/-- The scopes of R188, in the order of their codes (R289). -/
inductive Scope where
  | hart | core | island | device | system
  deriving DecidableEq, Repr

/-- The width W of a scalar load or store (R286). -/
inductive MemW where
  | b | h | w | d | bu | hu | wu
  deriving DecidableEq, Repr

/-- The size W2 of format A (R286); also an index width of SUB[1:0] (R319) and EW of SETVL. -/
inductive Size where
  | b | h | w | d
  deriving DecidableEq, Repr

/-- The direction of a FENCE (R359). -/
inductive Dir where
  | sv | vs | vv | all
  deriving DecidableEq, Repr

/-- A branch condition (R288). -/
inductive Cond where
  | eq | ne | lt | ge | ltu | geu
  deriving DecidableEq, Repr

/-- The condition of VCMP (R413). -/
inductive VCond where
  | eq | ne | lt | ge
  deriving DecidableEq, Repr

/-- The condition of VFCMP (R415). -/
inductive FCond where
  | eq | ne | lt | le | un
  deriving DecidableEq, Repr

/-- The special function of VSF (R417). -/
inductive SfFn where
  | rcp | rsqrt | exp2 | log2 | tanh
  deriving DecidableEq, Repr

/-- The form of VFMA (R321). -/
inductive FmaForm where
  | plain | s | n | ns
  deriving DecidableEq, Repr

/-- The convoy bit and the mask selection of a 64-bit instruction (R290). -/
structure VHdr where
  cv : Bool
  km : BitVec 3
  deriving DecidableEq, Repr

/-- The second source of a 64-bit instruction: the register b, or IMM32 (R291). -/
inductive VSrc where
  | reg (b : Reg)
  | imm (i : Word32)
  deriving DecidableEq, Repr

/-- The key under which the signature of an image verifies (R273): Brynkan's, an owner's key by its SHA-256, or none. -/
inductive Signer where
  | brynkan
  | owner (hash : BitVec 256)
  | unsigned
  deriving DecidableEq, Repr

/-- Who makes an MMIO access or a register write: a hart by its key, a virtual function of the host,
or the host's physical function (R265). -/
inductive Who where
  | hart (h : Nat)
  | vf (v : Nat)
  deriving DecidableEq, Repr

/-- The kind of an access for translation and permission (R172). -/
inductive AccKind where
  | load | store | fetch
  deriving DecidableEq, Repr

/-- A link of the module: the CXL link to the host, or an Asash port's peer module (R269, R270). -/
inductive Link where
  | cxl
  | peer (m : Nat)
  deriving DecidableEq, Repr

/-- A request from outside into the physical address space: a read of n bytes, or a write of bytes. -/
inductive ExtReq where
  | read (pa n : Nat)
  | write (pa : Nat) (bytes : List Byte)
  deriving DecidableEq, Repr

/-- What a register write names: a system register by its number, or an MMIO address. -/
inductive RegAddr where
  | sr (n : BitVec 12)
  | mmio (pa : Nat)
  deriving DecidableEq, Repr

/-- What the network answered to one command entry (R271). -/
inductive NetAnswer where
  | done | keyAbsent | transportError
  deriving DecidableEq, Repr

/-- The steps of the machine. -/
inductive Instr where
  -- majors 1 and 2: integer immediates (R309)
  | addImm (d a : Reg) (i : BitVec 16)
  | andImm (d a : Reg) (i : BitVec 12)
  | orImm (d a : Reg) (i : BitVec 12)
  | xorImm (d a : Reg) (i : BitVec 12)
  | sltImm (d a : Reg) (i : BitVec 12)
  | sltuImm (d a : Reg) (i : BitVec 12)
  | shlImm (d a : Reg) (i : BitVec 6)
  | shrImm (d a : Reg) (i : BitVec 6)
  | sarImm (d a : Reg) (i : BitVec 6)
  | rolImm (d a : Reg) (i : BitVec 6)
  | rorImm (d a : Reg) (i : BitVec 6)
  | minImm (d a : Reg) (i : BitVec 12)
  | minuImm (d a : Reg) (i : BitVec 12)
  | maxImm (d a : Reg) (i : BitVec 12)
  | maxuImm (d a : Reg) (i : BitVec 12)
  -- major 3: integer registers (R310)
  | add (d a b : Reg)
  | sub (d a b : Reg)
  | and (d a b : Reg)
  | or (d a b : Reg)
  | xor (d a b : Reg)
  | shl (d a b : Reg)
  | shr (d a b : Reg)
  | sar (d a b : Reg)
  | rol (d a b : Reg)
  | ror (d a b : Reg)
  | slt (d a b : Reg)
  | sltu (d a b : Reg)
  | min (d a b : Reg)
  | minu (d a b : Reg)
  | max (d a b : Reg)
  | maxu (d a b : Reg)
  | mul (d a b : Reg)
  | mulh (d a b : Reg)
  | mulhu (d a b : Reg)
  | div (d a b : Reg)
  | divu (d a b : Reg)
  | rem (d a b : Reg)
  | remu (d a b : Reg)
  | clz (d a : Reg)
  | ctz (d a : Reg)
  | popc (d a : Reg)
  | exts (d a : Reg) (q : Ty)
  | extz (d a : Reg) (q : Ty)
  | select (d a b : Reg)
  | bswap (d a : Reg) (q : Ty)
  -- majors 4 and 5
  | ldhi (d : Reg) (i : BitVec 21)
  | addpc (d : Reg) (i : BitVec 21)
  -- majors 6 and 7: scalar floating point (R312, R313)
  | fadd (d a b : Reg) (t : Ty)
  | fsub (d a b : Reg) (t : Ty)
  | fmul (d a b : Reg) (t : Ty)
  | fdiv (d a b : Reg) (t : Ty)
  | fsqrt (d a : Reg) (t : Ty)
  | fmin (d a b : Reg) (t : Ty)
  | fmax (d a b : Reg) (t : Ty)
  | fcmpEq (d a b : Reg) (t : Ty)
  | fcmpLt (d a b : Reg) (t : Ty)
  | fcmpLe (d a b : Reg) (t : Ty)
  | fclass (d a : Reg) (t : Ty)
  | fsgnJ (d a b : Reg) (t : Ty)
  | fsgnN (d a b : Reg) (t : Ty)
  | fsgnX (d a b : Reg) (t : Ty)
  | fmovxToX (d a : Reg)
  | fmovxToF (d a : Reg)
  | fcvtToFloat (d a : Reg) (dst src : Ty)
  | fcvtToInteger (d a : Reg) (dst src : Ty)
  | fma (d a b c : Reg) (t : Ty)
  | fmaS (d a b c : Reg) (t : Ty)
  | fmaN (d a b c : Reg) (t : Ty)
  | fmaNs (d a b c : Reg) (t : Ty)
  -- majors 8 to 12: scalar memory (R314, R315)
  | ld (d a : Reg) (wd : MemW) (off : BitVec 13)
  | st (d a : Reg) (wd : Size) (off : BitVec 13)
  | pref (a : Reg) (off : BitVec 13)
  | ldAq (d a : Reg) (wd : Size) (sc : Scope)
  | stRl (a b : Reg) (wd : Size) (sc : Scope)
  | amoSwap (d a b : Reg) (aq rl dw : Bool) (sc : Scope)
  | amoAdd (d a b : Reg) (aq rl dw : Bool) (sc : Scope)
  | amoAnd (d a b : Reg) (aq rl dw : Bool) (sc : Scope)
  | amoOr (d a b : Reg) (aq rl dw : Bool) (sc : Scope)
  | amoXor (d a b : Reg) (aq rl dw : Bool) (sc : Scope)
  | amoMin (d a b : Reg) (aq rl dw : Bool) (sc : Scope)
  | amoMax (d a b : Reg) (aq rl dw : Bool) (sc : Scope)
  | amoMinu (d a b : Reg) (aq rl dw : Bool) (sc : Scope)
  | amoMaxu (d a b : Reg) (aq rl dw : Bool) (sc : Scope)
  | cas (d a b : Reg) (aq rl dw : Bool) (sc : Scope)
  | fence (dir : Dir) (sc : Scope)
  | ldb (d a : Reg) (wm1 : BitVec 4) (sx : Bool)
  | stb (a b : Reg) (wm1 : BitVec 4)
  -- majors 13 to 17: control
  | br (a b : Reg) (c : Cond) (disp : BitVec 13)
  | jal (d : Reg) (disp : BitVec 21)
  | jalr (d a : Reg) (i : BitVec 16)
  | loop (a : Reg) (i : BitVec 16)
  | lend
  -- majors 18 to 22 (R316)
  | send (d a b : Reg) (u : Bool)
  | recv (d a b : Reg) (u : Bool)
  | gbar (d : Reg)
  | setwm (a b : Reg) (sc : Scope)
  | waitwm (a b : Reg) (sc : Scope)
  | waitt (a : Reg)
  | tspawn (a b : Reg) (n : BitVec 2)
  | tdone
  | tirrev
  | tabort
  | tdomainOpen (d a : Reg)
  | tdomainEnter (d : Reg)
  | tdomainClose (d : Reg)
  | scopy (d a : Reg)
  | smap (d a : Reg)
  | sput (d a : Reg)
  | swait (a : Reg)
  | syscall (i : BitVec 12)
  | brk (i : BitVec 12)
  | getsr (d : Reg) (sr : BitVec 12)
  | setsr (a : Reg) (sr : BitVec 12)
  | swapsr (d a : Reg) (sr : BitVec 12)
  | tret
  | idle
  | tlbinvPage (a b : Reg) (sc : Scope)
  | tlbinvAsid (b : Reg) (sc : Scope)
  | tlbinvAll (sc : Scope)
  | cacheopIl (a : Reg)
  | cacheopIa
  | cacheopWb (a : Reg)
  | cacheopWbi (a : Reg)
  -- majors 23 to 25 (R317)
  | kand (d a b : BitVec 3)
  | kor (d a b : BitVec 3)
  | kxor (d a b : BitVec 3)
  | knot (d a : BitVec 3)
  | kpopc (d : Reg) (a : BitVec 3)
  | kfirst (d : Reg) (a : BitVec 3)
  | kset (d : BitVec 3) (a : Reg)
  | setvl (d a : Reg) (regs : BitVec 2) (ew : Size)
  | vsave (a : Reg)
  | vrest (a : Reg)
  -- major 26: matrix (R318)
  | mshape (d a b : Reg)
  | mzero (c : BitVec 3)
  | mlda (d : BitVec 2) (a b : Reg)
  | mldaScale (d : BitVec 2) (a b : Reg) (q : Ty)
  | mldaff (d : BitVec 2) (a b : Reg)
  | mldb (d a b : Reg)
  | mldbScale (d a b : Reg) (q : Ty)
  | mldw (d : BitVec 2) (a b : Reg) (m : BitVec 2)
  | mtmap (d : BitVec 2) (a : Reg)
  | mma (c : BitVec 3) (a : BitVec 2) (b : Reg) (f : Ty)
  | mstc (c : BitVec 3) (a b : Reg) (f : Ty)
  | mmovcToVector (d : Reg) (c : BitVec 3) (b : Reg) (k : BitVec 3)
  | mmovcToTile (c : BitVec 3) (a b : Reg) (k : BitVec 3)
  | mcastTile (d : Reg) (a : BitVec 2)
  | mcastRows (d a : Reg)
  | mwait
  | msave (a : Reg)
  | mrest (a : Reg)
  -- major 56: vector memory (R319)
  | vld (h : VHdr) (d a : Reg) (t : Ty)
  | vlds (h : VHdr) (d a : Reg) (b : VSrc) (t : Ty)
  | vldx (h : VHdr) (d a b : Reg) (t : Ty) (iw : Size)
  | vldff (h : VHdr) (d a : Reg) (t : Ty)
  | vst (h : VHdr) (d a : Reg) (t : Ty)
  | vsts (h : VHdr) (d a : Reg) (b : VSrc) (t : Ty)
  | vstx (h : VHdr) (d a b : Reg) (t : Ty) (iw : Size)
  -- major 57: bit-plane
  | vbpld (cv : Bool) (d a : Reg) (wm1 : BitVec 4)
  | vbpst (cv : Bool) (d a : Reg) (wm1 : BitVec 4)
  | vbpdot (cv : Bool) (d a b : Reg) (t : Ty) (wam1 wbm1 : BitVec 4)
  | vbpcvtToplanes (cv : Bool) (d a : Reg) (t : Ty) (wm1 : BitVec 4)
  | vbpcvtTopacked (cv : Bool) (d a : Reg) (t : Ty) (wm1 : BitVec 4)
  -- major 58: vector integer (R320)
  | vadd (h : VHdr) (d a : Reg) (b : VSrc) (t : Ty)
  | vsub (h : VHdr) (d a : Reg) (b : VSrc) (t : Ty)
  | vmul (h : VHdr) (d a : Reg) (b : VSrc) (t : Ty)
  | vmulh (h : VHdr) (d a b : Reg) (t : Ty)
  | vmadd (h : VHdr) (d a b c : Reg) (t : Ty)
  | vmin (h : VHdr) (d a : Reg) (b : VSrc) (t : Ty)
  | vmax (h : VHdr) (d a : Reg) (b : VSrc) (t : Ty)
  | vand (h : VHdr) (d a : Reg) (b : VSrc) (t : Ty)
  | vor (h : VHdr) (d a : Reg) (b : VSrc) (t : Ty)
  | vxor (h : VHdr) (d a : Reg) (b : VSrc) (t : Ty)
  | vshl (h : VHdr) (d a : Reg) (b : VSrc) (t : Ty)
  | vshr (h : VHdr) (d a : Reg) (b : VSrc) (t : Ty)
  | vsar (h : VHdr) (d a : Reg) (b : VSrc) (t : Ty)
  | vadds (h : VHdr) (d a : Reg) (b : VSrc) (t : Ty)
  | vsubs (h : VHdr) (d a : Reg) (b : VSrc) (t : Ty)
  | vabsd (h : VHdr) (d a b : Reg) (t : Ty)
  | vwiden (h : VHdr) (d a : Reg) (t t2 : Ty)
  | vnarrow (h : VHdr) (d a : Reg) (t t2 : Ty) (sat : Bool)
  | vcmp (h : VHdr) (d : BitVec 3) (a : Reg) (b : VSrc) (t : Ty) (c : VCond)
  -- major 59: vector floating point (R321)
  | vfadd (h : VHdr) (d a : Reg) (b : VSrc) (t : Ty)
  | vfsub (h : VHdr) (d a : Reg) (b : VSrc) (t : Ty)
  | vfmul (h : VHdr) (d a : Reg) (b : VSrc) (t : Ty)
  | vfma (h : VHdr) (d a b c : Reg) (t : Ty) (form : FmaForm)
  | vfdiv (h : VHdr) (d a b : Reg) (t : Ty)
  | vfsqrt (h : VHdr) (d a : Reg) (t : Ty)
  | vfmin (h : VHdr) (d a : Reg) (b : VSrc) (t : Ty)
  | vfmax (h : VHdr) (d a : Reg) (b : VSrc) (t : Ty)
  | vfcmp (h : VHdr) (d : BitVec 3) (a : Reg) (b : VSrc) (t : Ty) (c : FCond)
  | vfcvt (h : VHdr) (d a : Reg) (t t2 : Ty)
  | vsf (h : VHdr) (d a : Reg) (t : Ty) (fn : SfFn)
  -- major 60: reductions and scans (R322)
  | vredsum (h : VHdr) (d a : Reg) (t : Ty)
  | vredmin (h : VHdr) (d a : Reg) (t : Ty)
  | vredmax (h : VHdr) (d a : Reg) (t : Ty)
  | vfredsum (h : VHdr) (d a : Reg) (t t2 : Ty)
  | vfredmin (h : VHdr) (d a : Reg) (t t2 : Ty)
  | vfredmax (h : VHdr) (d a : Reg) (t t2 : Ty)
  | vscan (h : VHdr) (d a c : Reg) (t t2 : Ty)
  -- major 61: permutes and moves (R323)
  | vslideup (h : VHdr) (d a : Reg) (b : VSrc) (t : Ty)
  | vslidedn (h : VHdr) (d a : Reg) (b : VSrc) (t : Ty)
  | vgather (h : VHdr) (d a b : Reg) (t : Ty) (iw : Size)
  | vcompress (h : VHdr) (d a : Reg) (t : Ty)
  | vexpand (h : VHdr) (d a : Reg) (t : Ty)
  | vmerge (h : VHdr) (d a : Reg) (b : VSrc) (t : Ty)
  | vbcast (h : VHdr) (d : Reg) (a : VSrc) (t : Ty)
  | vmvx (h : VHdr) (d a : Reg) (t : Ty)
  | vmvs (h : VHdr) (d a : Reg) (b : VSrc) (t : Ty)
  | vmov (h : VHdr) (d a : Reg) (t : Ty)
  | viota (h : VHdr) (d : Reg) (t : Ty)
  -- major 62: block quantisation (R324)
  | vbq (h : VHdr) (d a c : Reg) (t t2 : Ty)
  | vbdq (h : VHdr) (d a : Reg) (t t2 : Ty)
  -- events: reset, control registers and firmware
  | powerOnReset
  | hartctlStart (v : Word)
  | hartctlStop (v : Word)
  | hartStop (h : Nat)
  | monhartWrite (v : Word)
  | freezeMaster (v : Word)
  | freezeRelease (v : Word)
  | fwctlWriteImage (v : Word)
  | fwctlReloadPlacement (v : Word)
  | imageVerifyDone (signer : Signer) (version : Word32) (security : Word32)
  | keyctlEnrol (v : Word)
  | keyctlRevoke (v : Word)
  | registerWrite (who : Who) (r : RegAddr) (v : Word)
  | localsplitResize (h : Nat)
  | laneGrant (h : Nat)
  -- events: interrupts and pre-emption
  | interruptTake (h : Nat)
  | timecmpMatch (h : Nat)
  | swisetWrite (who : Who) (island : Nat) (v : Word)
  | doorbellWrite (who : Who) (f : Nat) (v : Word)
  | hostirqWrite (who : Who) (f : Nat) (v : Word)
  | externalInterrupt (f : Nat) (line : BitVec 3)
  | preemptionTake (h : Nat)
  | lateVectorFault (h : Nat)
  -- events: queues and engines
  | convoyIssue (h : Nat)
  | convoyDrain (h : Nat)
  | scalarDestinationWrite (h : Nat)
  | matrixExecute (h : Nat)
  | mcastDelivery (core : Nat)
  | mwaitComplete (h : Nat)
  | streamCommandStart (core : Nat)
  | streamCommandEnd (core : Nat)
  | swaitCheck (h : Nat)
  | pageWalk (h : Nat) (va : Word) (k : AccKind)
  | migrationRecheck (h : Nat)
  | sendDeposit (h : Nat)
  | recvTake (h : Nat)
  | gbarRelease (island entry : Nat)
  | idleWake (h : Nat)
  | waittExpire (h : Nat)
  | waitwmSatisfied (h : Nat)
  | watermarkStore (h : Nat)
  | fenceComplete (h : Nat)
  -- events: tasks
  | taskFinish (h : Nat)
  | taskDispatch (island : Nat)
  | frontierExchange (f : Nat)
  | frontierApply (f : Nat)
  | commitBatch (f dom : Nat)
  | taskSpill (island : Nat)
  | taskRefill (island dom : Nat)
  | hartReclaim (f dom : Nat)
  -- events: the steward
  | notifyWrite (who : Who) (island slot : Nat)
  | slotMap (who : Who) (island slot : Nat)
  | slotUnmap (who : Who) (island slot : Nat) (retire : Bool)
  | packetParse (island slot : Nat)
  | schedcfgWrite (who : Who) (island : Nat) (v : Word)
  | roundBoundary (island : Nat) (ranking hot cool : List Nat)
  | gangPreemptSave (island entry : Nat)
  | gexit (who : Who) (island : Nat) (v : Word)
  -- events: containment, errors and reset
  | monitorCodeTake
  | meshWriteLost (h : Nat) (engine : Bool)
  | directoryError (pa : Nat)
  | taskUnitError (f dom : Nat)
  | correctedError (f : Nat)
  | linkDown (l : Link)
  | hbmStackFailure (stack : BitVec 4)
  | thermalTrip
  | powerRailFault
  | functionLevelReset (f : Nat)
  | flrctlWrite (who : Who) (f : Nat) (v : Word)
  | flrDrainDone (f : Nat)
  | flrDrainTimeout (f : Nat)
  | flrScrubDone (f : Nat)
  | flrQueuesDone (f : Nat)
  -- events: host, network, election, debug
  | hostRequest (f : Nat) (r : ExtReq)
  | nqwrDoorbell (who : Who) (f : Nat) (v : Word)
  | networkStore (f : Nat) (ans : NetAnswer)
  | networkRetrieve (f : Nat) (ans : NetAnswer) (value : List Byte)
  | networkDelete (f : Nat) (ans : NetAnswer)
  | networkExist (f : Nat) (ans : NetAnswer)
  | networkCompletion (f : Nat)
  | helloSend
  | helloReceive (serial : Word) (term : Nat) (claims : Bool)
  | electionTimeout
  | leaderSilenceTimeout
  | imageBlockReceive
  | imageBlockTimeout
  | recoveryImage (signer : Signer) (version : Word32) (security : Word32)
  | debugFreeze (who : Who) (island : Nat) (v : Word)
  | debugRelease (who : Who) (island : Nat) (v : Word)
  | trtailWrite (who : Who) (core : Nat) (v : Word)
  | notAnInstruction (w : Word32) (cause : Byte)
  | instructionFetchFault (cause : Byte) (addr : Word)
  | linkTrained (l : Link)
  | peerModuleRequest (m : Nat) (r : ExtReq)
  | performanceCounterOverflow (h : Nat)
  deriving DecidableEq, Repr

end Sys2Proof
end

