-- ==== Sys2Proof/WellFormed.lean ====
section
/-!
DEFINITION. Which instructions the encoding admits (spec/15_opcode_map.md): the type and scope codes each
mnemonic accepts, and the ranges of the numbers an event names.
-/
namespace Sys2Proof

/-- The code of a type (R289). -/
def Ty.code : Ty → Nat
  | .b => 0 | .h => 1 | .w => 2 | .d => 3 | .bu => 4 | .hu => 5 | .wu => 6 | .du => 7
  | .df => 8 | .sf => 9 | .hf => 10 | .bf => 11 | .e4 => 12 | .e5 => 13 | .f6a => 14 | .f6b => 15
  | .f4 => 16 | .i4 => 17 | .mx8e4 => 18 | .mx8e5 => 19 | .mx6a => 20 | .mx6b => 21 | .mx4 => 22

/-- The element width of a type in bits (R5, R70, R92); a block-scaled type has its element's width. -/
def Ty.bits : Ty → Nat
  | .b | .bu => 8
  | .h | .hu => 16
  | .w | .wu => 32
  | .d | .du => 64
  | .df => 64 | .sf => 32 | .hf | .bf => 16
  | .e4 | .e5 | .mx8e4 | .mx8e5 => 8
  | .f6a | .f6b | .mx6a | .mx6b => 6
  | .f4 | .i4 | .mx4 => 4

/-- The integer codes .b to .du. -/
def Ty.isInt : Ty → Bool
  | .b | .h | .w | .d | .bu | .hu | .wu | .du => true
  | _ => false

/-- The signed integer types, `.i4` among them. -/
def Ty.isSigned : Ty → Bool
  | .b | .h | .w | .d | .i4 => true
  | _ => false

/-- The floating-point codes of 16 bits and wider. -/
def Ty.isFp : Ty → Bool
  | .df | .sf | .hf | .bf => true
  | _ => false

/-- Every floating-point code, the narrow ones too. -/
def Ty.isAnyFp : Ty → Bool
  | .df | .sf | .hf | .bf | .e4 | .e5 | .f6a | .f6b | .f4 => true
  | _ => false

/-- The block-scaled codes (R92). -/
def Ty.isMx : Ty → Bool
  | .mx8e4 | .mx8e5 | .mx6a | .mx6b | .mx4 => true
  | _ => false

/-- Codes 0b00000 to 0b10001: every code that is not block-scaled. -/
def Ty.isPlain (t : Ty) : Bool := !t.isMx

/-- The types MMA accepts (R318). -/
def Ty.isMma : Ty → Bool
  | .bf | .hf | .e4 | .e5 | .f6a | .f6b | .f4 | .b | .i4 => true
  | t => t.isMx

/-- The types MSTC accepts (R318). -/
def Ty.isMstc : Ty → Bool
  | .sf | .w | .bf | .hf => true
  | _ => false

/-- The types of 8 bits and wider that strided and indexed accesses take (R403). -/
def Ty.isWhole (t : Ty) : Bool := t.isPlain && t != .f4 && t != .i4

/-- The accumulator types of a floating-point reduction (R418): the element type, or one into which it
converts exactly. -/
def accTyOk : Ty → Ty → Bool
  | .df, .df | .sf, .sf | .sf, .df | .hf, .hf | .hf, .sf | .hf, .df | .bf, .bf | .bf, .sf | .bf, .df => true
  | _, _ => false

/-- The w registers from r onward stay within v0 to v31 (R407). -/
def planesOk (r : Reg) (wm1 : BitVec 4) : Bool := decide (r.toNat + wm1.toNat + 1 ≤ 32)

/-- Register d stands outside the w registers from r onward (R407). -/
def outsidePlanes (d r : Reg) (wm1 : BitVec 4) : Bool :=
  decide (d.toNat < r.toNat) || decide (r.toNat + wm1.toNat < d.toNat)

/-- AMO and CAS hold scope 0 when neither ordering bit is set (R315). -/
def amoScopeOk (aq rl : Bool) (sc : Scope) : Bool := aq || rl || sc == .hart

/-- The number of hart keys: 5,120 compute harts and 40 steward harts (R17, R21). -/
def numHarts : Nat := 5160
/-- The number of core keys: 1,280 compute cores and 20 steward cores (R17, R21). -/
def numCores : Nat := 1300
/-- The number of islands (R17). -/
def numIslands : Nat := 20
/-- The number of partitions, that is of virtual functions (R266). -/
def numPartitions : Nat := 4
/-- The number of slots of a steward block (R226). -/
def numSlots : Nat := 64
/-- The number of domains of a partition (R203). -/
def numDomains : Nat := 16

/-- Whether a row of the table is an event, which has no encoding. -/
def Instr.isEvent : Instr → Bool
  | .powerOnReset | .hartctlStart _ | .hartctlStop _ | .hartStop _ | .monhartWrite _ | .freezeMaster _
  | .freezeRelease _ | .fwctlWriteImage _ | .fwctlReloadPlacement _ | .imageVerifyDone _ _ _
  | .keyctlEnrol _ | .keyctlRevoke _ | .registerWrite _ _ _ | .localsplitResize _ | .laneGrant _
  | .interruptTake _ | .timecmpMatch _ | .swisetWrite _ _ _ | .doorbellWrite _ _ _ | .hostirqWrite _ _ _
  | .externalInterrupt _ _ | .preemptionTake _ | .lateVectorFault _ | .convoyIssue _ | .convoyDrain _
  | .scalarDestinationWrite _ | .matrixExecute _ | .mcastDelivery _ | .mwaitComplete _
  | .streamCommandStart _ | .streamCommandEnd _ | .swaitCheck _ | .pageWalk _ _ _ | .migrationRecheck _
  | .sendDeposit _ | .recvTake _ | .gbarRelease _ _ | .idleWake _ | .waittExpire _ | .waitwmSatisfied _
  | .watermarkStore _ | .fenceComplete _ | .taskFinish _ | .taskDispatch _ | .frontierExchange _
  | .frontierApply _ | .commitBatch _ _ | .taskSpill _ | .taskRefill _ _ | .hartReclaim _ _
  | .notifyWrite _ _ _ | .slotMap _ _ _ | .slotUnmap _ _ _ _ | .packetParse _ _ | .schedcfgWrite _ _ _
  | .roundBoundary _ _ _ _ | .gangPreemptSave _ _ | .gexit _ _ _ | .monitorCodeTake | .meshWriteLost _ _
  | .directoryError _ | .taskUnitError _ _ | .correctedError _ | .linkDown _ | .hbmStackFailure _
  | .thermalTrip | .powerRailFault | .functionLevelReset _ | .flrctlWrite _ _ _ | .flrDrainDone _
  | .flrDrainTimeout _ | .flrScrubDone _ | .flrQueuesDone _ | .hostRequest _ _ | .nqwrDoorbell _ _ _
  | .networkStore _ _ | .networkRetrieve _ _ _ | .networkDelete _ _ | .networkExist _ _
  | .networkCompletion _ | .helloSend | .helloReceive _ _ _ | .electionTimeout | .leaderSilenceTimeout
  | .imageBlockReceive | .imageBlockTimeout | .recoveryImage _ _ _ | .debugFreeze _ _ _
  | .debugRelease _ _ _ | .trtailWrite _ _ _ | .notAnInstruction _ _ | .instructionFetchFault _ _
  | .linkTrained _ | .peerModuleRequest _ _ | .performanceCounterOverflow _ => true
  | _ => false

/-- The encoding admits the instruction's operands (R308 to R324). -/
def Instr.wf : Instr → Bool
  | .exts _ _ q | .extz _ _ q => q == .b || q == .h || q == .w
  | .bswap _ _ q => q == .h || q == .w || q == .d
  | .fadd _ _ _ t | .fsub _ _ _ t | .fmul _ _ _ t | .fdiv _ _ _ t | .fsqrt _ _ t | .fmin _ _ _ t
  | .fmax _ _ _ t | .fcmpEq _ _ _ t | .fcmpLt _ _ _ t | .fcmpLe _ _ _ t | .fclass _ _ t
  | .fsgnJ _ _ _ t | .fsgnN _ _ _ t | .fsgnX _ _ _ t => t.isFp
  | .fma _ _ _ _ t | .fmaS _ _ _ _ t | .fmaN _ _ _ _ t | .fmaNs _ _ _ _ t => t.isFp
  | .fcvtToFloat _ _ dst src => dst.isFp && (src.isFp || src.isInt) && src != dst
  | .fcvtToInteger _ _ dst src => dst.isInt && src.isFp
  | .amoSwap _ _ _ aq rl _ sc | .amoAdd _ _ _ aq rl _ sc | .amoAnd _ _ _ aq rl _ sc
  | .amoOr _ _ _ aq rl _ sc | .amoXor _ _ _ aq rl _ sc | .amoMin _ _ _ aq rl _ sc
  | .amoMax _ _ _ aq rl _ sc | .amoMinu _ _ _ aq rl _ sc | .amoMaxu _ _ _ aq rl _ sc
  | .cas _ _ _ aq rl _ sc => amoScopeOk aq rl sc
  | .loop _ i => i != 0
  | .tlbinvPage _ _ sc | .tlbinvAsid _ sc | .tlbinvAll sc => sc != .hart
  | .mldaScale _ _ _ q | .mldbScale _ _ _ q => q.isMx
  | .mma _ _ _ f => f.isMma
  | .mstc _ _ _ f => f.isMstc
  | .vld _ _ _ t | .vldff _ _ _ t | .vst _ _ _ t => t.isPlain
  | .vlds _ _ _ _ t | .vldx _ _ _ _ t _ | .vsts _ _ _ _ t | .vstx _ _ _ _ t _ => t.isWhole
  | .vbpld _ d _ n | .vbpst _ d _ n => planesOk d n
  | .vbpdot _ d a b t m n => (t == .w || t == .wu || t == .d || t == .du)
      && planesOk a m && planesOk b n && outsidePlanes d a m && outsidePlanes d b n
  | .vbpcvtToplanes _ d a t n => t.isInt && planesOk d n && outsidePlanes a d n
  | .vbpcvtTopacked _ d a t n => t.isInt && planesOk a n && outsidePlanes d a n
  | .vadd _ _ _ _ t | .vsub _ _ _ _ t | .vmul _ _ _ _ t | .vmulh _ _ _ _ t | .vmadd _ _ _ _ _ t
  | .vmin _ _ _ _ t | .vmax _ _ _ _ t | .vand _ _ _ _ t | .vor _ _ _ _ t | .vxor _ _ _ _ t
  | .vshl _ _ _ _ t | .vshr _ _ _ _ t | .vsar _ _ _ _ t | .vadds _ _ _ _ t | .vsubs _ _ _ _ t
  | .vabsd _ _ _ _ t | .vcmp _ _ _ _ t _ => t.isInt
  | .vwiden _ _ _ t t2 => t.isInt && t2.isInt && decide (t.bits < t2.bits)
  | .vnarrow _ _ _ t t2 _ => t.isInt && t2.isInt && decide (t2.bits < t.bits)
  | .vfadd _ _ _ _ t | .vfsub _ _ _ _ t | .vfmul _ _ _ _ t | .vfma _ _ _ _ _ t _ | .vfdiv _ _ _ _ t
  | .vfsqrt _ _ _ t | .vfmin _ _ _ _ t | .vfmax _ _ _ _ t | .vfcmp _ _ _ _ t _ => t.isFp
  | .vfcvt _ _ _ t t2 => t.isPlain && t2.isPlain && t != t2 && (t.isAnyFp || t2.isAnyFp)
  | .vsf _ _ _ t _ => t == .sf || t == .bf
  | .vredsum _ _ _ t | .vredmin _ _ _ t | .vredmax _ _ _ t => t.isInt
  | .vfredsum _ _ _ t t2 | .vfredmin _ _ _ t t2 | .vfredmax _ _ _ t t2 =>
      accTyOk t t2
  | .vscan _ _ _ _ t t2 => (t.isInt && t2 == .b) || accTyOk t t2
  | .vslideup _ _ _ _ t | .vslidedn _ _ _ _ t | .vgather _ _ _ _ t _ | .vcompress _ _ _ t
  | .vexpand _ _ _ t | .vmerge _ _ _ _ t | .vbcast _ _ _ t | .vmvx _ _ _ t | .vmvs _ _ _ _ t
  | .vmov _ _ _ t | .viota _ _ t => t.isPlain
  | .vbq _ d _ c t t2 => (t == .sf || t == .bf) && t2.isMx && d != c
  | .vbdq _ _ _ t t2 => t.isMx && (t2 == .sf || t2 == .bf)
  | .hartStop h | .localsplitResize h | .laneGrant h | .interruptTake h | .timecmpMatch h
  | .preemptionTake h | .lateVectorFault h | .convoyIssue h | .convoyDrain h | .scalarDestinationWrite h
  | .matrixExecute h | .mwaitComplete h | .swaitCheck h | .pageWalk h _ _ | .migrationRecheck h
  | .sendDeposit h | .recvTake h | .idleWake h | .waittExpire h | .waitwmSatisfied h | .watermarkStore h
  | .fenceComplete h | .taskFinish h | .meshWriteLost h _ | .performanceCounterOverflow h =>
      decide (h < numHarts)
  | .mcastDelivery c | .streamCommandStart c | .streamCommandEnd c | .trtailWrite _ c _ =>
      decide (c < numCores)
  | .taskDispatch n | .taskSpill n | .gbarRelease n _ | .gangPreemptSave n _ | .roundBoundary n _ _ _
  | .swisetWrite _ n _ | .schedcfgWrite _ n _ | .gexit _ n _ | .debugFreeze _ n _ | .debugRelease _ n _ =>
      decide (n < numIslands)
  | .notifyWrite _ n s | .slotMap _ n s | .slotUnmap _ n s _ | .packetParse n s =>
      decide (n < numIslands) && decide (s < numSlots)
  | .frontierExchange f | .frontierApply f | .correctedError f | .functionLevelReset f
  | .flrctlWrite _ f _ | .flrDrainDone f | .flrDrainTimeout f | .flrScrubDone f | .flrQueuesDone f
  | .hostRequest f _ | .nqwrDoorbell _ f _ | .networkStore f _ | .networkRetrieve f _ _
  | .networkDelete f _ | .networkExist f _ | .networkCompletion f | .doorbellWrite _ f _
  | .hostirqWrite _ f _ | .externalInterrupt f _ => decide (f < numPartitions)
  | .commitBatch f dom | .hartReclaim f dom | .taskUnitError f dom =>
      decide (f < numPartitions) && decide (dom < numDomains)
  | .taskRefill n dom => decide (n < numIslands) && decide (dom < numDomains)
  | _ => true

end Sys2Proof
end

