-- ==== Sys2Proof/Decode.lean ====
section
/-!
DEFINITION. The decoder and the encoder (spec/14_encoding.md R282 to R295, spec/15_opcode_map.md R308 to R324).
Fields are natural numbers cut out of the words by `fld`; a field keeps its place in every format (R286, R290).
-/
namespace Sys2Proof

/-- Why the words are not an instruction (R294): cause 0x00 or cause 0x01. -/
inductive DecodeRefusal where
  | unassignedOpcode
  | reservedEncoding
  deriving DecidableEq, Repr

/-- Bits [lo + n − 1 : lo] of a word. -/
def fld (w lo n : Nat) : Nat := w / 2 ^ lo % 2 ^ n

/-- The fields of a leading word (R285, R286). -/
structure LeadFields where
  op : Nat
  d : Nat
  a : Nat
  b : Nat
  q : Nat
  fn : Nat
  deriving DecidableEq, Repr

/-- Cut a leading word into its fields. -/
def leadFields (w : Nat) : LeadFields :=
  ⟨fld w 26 6, fld w 21 5, fld w 16 5, fld w 11 5, fld w 6 5, fld w 0 6⟩

/-- Put a leading word together. -/
def leadWordOf (op d a b q fn : Nat) : Nat :=
  op * 2 ^ 26 + d * 2 ^ 21 + a * 2 ^ 16 + b * 2 ^ 11 + q * 2 ^ 6 + fn

/-- The fields of a second word (R290). -/
structure SecondFields where
  cv : Nat
  km : Nat
  c : Nat
  t2 : Nat
  tw : Nat
  sub : Nat
  z : Nat
  deriving DecidableEq, Repr

/-- Cut a second word into its fields. -/
def secondFields (w : Nat) : SecondFields :=
  ⟨fld w 31 1, fld w 28 3, fld w 23 5, fld w 18 5, fld w 17 1, fld w 8 9, fld w 0 8⟩

/-- Put a second word together. -/
def secondWordOf (cv km c t2 tw sub : Nat) : Nat :=
  cv * 2 ^ 31 + km * 2 ^ 28 + c * 2 ^ 23 + t2 * 2 ^ 18 + tw * 2 ^ 17 + sub * 2 ^ 8

/-- The length in bytes that the leading and the second word fix (R282). -/
def lengthOf (w0 w1 : Nat) : Nat :=
  if fld w0 26 6 < 56 then 4 else if fld w1 17 1 = 0 then 8 else 12

/-- A 64-bit instruction by its major (R282, R295). -/
def isVectorWord (w0 : Nat) : Bool := decide (56 ≤ fld w0 26 6)

/-- The type of a code (R289). -/
def tyOfCode : Nat → Option Ty
  | 0 => some .b | 1 => some .h | 2 => some .w | 3 => some .d
  | 4 => some .bu | 5 => some .hu | 6 => some .wu | 7 => some .du
  | 8 => some .df | 9 => some .sf | 10 => some .hf | 11 => some .bf
  | 12 => some .e4 | 13 => some .e5 | 14 => some .f6a | 15 => some .f6b
  | 16 => some .f4 | 17 => some .i4 | 18 => some .mx8e4 | 19 => some .mx8e5
  | 20 => some .mx6a | 21 => some .mx6b | 22 => some .mx4
  | _ => none

/-- The scope of a code (R289). -/
def scopeOfCode : Nat → Option Scope
  | 0 => some .hart | 1 => some .core | 2 => some .island | 3 => some .device | 4 => some .system
  | _ => none
/-- The code of a scope (R289). -/
def Scope.code : Scope → Nat
  | .hart => 0 | .core => 1 | .island => 2 | .device => 3 | .system => 4

/-- The width of a scalar load (R286). -/
def memWOfCode : Nat → Option MemW
  | 0 => some .b | 1 => some .h | 2 => some .w | 3 => some .d
  | 4 => some .bu | 5 => some .hu | 6 => some .wu
  | _ => none
/-- The code of a load width (R286). -/
def MemW.code : MemW → Nat
  | .b => 0 | .h => 1 | .w => 2 | .d => 3 | .bu => 4 | .hu => 5 | .wu => 6

/-- The size of a code (R286). -/
def sizeOfCode : Nat → Option Size
  | 0 => some .b | 1 => some .h | 2 => some .w | 3 => some .d
  | _ => none
/-- The code of a size (R286). -/
def Size.code : Size → Nat
  | .b => 0 | .h => 1 | .w => 2 | .d => 3

/-- The direction of a FENCE (R286). -/
def dirOfCode : Nat → Option Dir
  | 0 => some .sv | 1 => some .vs | 2 => some .vv | 3 => some .all
  | _ => none
/-- The code of a direction (R286). -/
def Dir.code : Dir → Nat
  | .sv => 0 | .vs => 1 | .vv => 2 | .all => 3

/-- The branch condition of a code (R288). -/
def condOfCode : Nat → Option Cond
  | 0 => some .eq | 1 => some .ne | 2 => some .lt | 3 => some .ge | 4 => some .ltu | 5 => some .geu
  | _ => none
/-- The code of a branch condition (R288). -/
def Cond.code : Cond → Nat
  | .eq => 0 | .ne => 1 | .lt => 2 | .ge => 3 | .ltu => 4 | .geu => 5

/-- The condition of VCMP (R320). -/
def vcondOfCode : Nat → Option VCond
  | 0 => some .eq | 1 => some .ne | 2 => some .lt | 3 => some .ge
  | _ => none
/-- The code of a VCMP condition (R320). -/
def VCond.code : VCond → Nat
  | .eq => 0 | .ne => 1 | .lt => 2 | .ge => 3

/-- The condition of VFCMP (R321). -/
def fcondOfCode : Nat → Option FCond
  | 0 => some .eq | 1 => some .ne | 2 => some .lt | 3 => some .le | 4 => some .un
  | _ => none
/-- The code of a VFCMP condition (R321). -/
def FCond.code : FCond → Nat
  | .eq => 0 | .ne => 1 | .lt => 2 | .le => 3 | .un => 4

/-- The special function of a code (R321). -/
def sfFnOfCode : Nat → Option SfFn
  | 0 => some .rcp | 1 => some .rsqrt | 2 => some .exp2 | 3 => some .log2 | 4 => some .tanh
  | _ => none
/-- The code of a special function (R321). -/
def SfFn.code : SfFn → Nat
  | .rcp => 0 | .rsqrt => 1 | .exp2 => 2 | .log2 => 3 | .tanh => 4

/-- The form of VFMA (R321). -/
def fmaFormOfCode : Nat → Option FmaForm
  | 0 => some .plain | 1 => some .s | 2 => some .n | 3 => some .ns
  | _ => none
/-- The code of a VFMA form (R321). -/
def FmaForm.code : FmaForm → Nat
  | .plain => 0 | .s => 1 | .n => 2 | .ns => 3

/-- The floating-point type of the field FT (R286). -/
def ftOfCode : Nat → Option Ty
  | 0 => some .df | 1 => some .sf | 2 => some .hf | 3 => some .bf
  | _ => none
/-- The code of a floating-point type in FT, and in the function numbers of FCVT (R286, R312). -/
def Ty.ft : Ty → Nat
  | .sf => 1 | .hf => 2 | .bf => 3
  | _ => 0

/-- An x, f or v register of a field. -/
def rg (n : Nat) : Reg := BitVec.ofNat 5 n

/-- The instruction, when the encoding's condition holds. -/
def req (c : Bool) (i : Instr) : Option Instr := bif c then some i else none

/-- The instruction of a type code, when the mnemonic accepts the type and the condition holds. -/
def reqTy (code : Nat) (c : Bool) (acc : Ty → Bool) (f : Ty → Instr) : Option Instr :=
  match tyOfCode code with
  | some t => req (c && acc t) (f t)
  | none => none

/-- Major 2 (R309): FN4 [15:12] and IMM12 [11:0]; a shift amount has bits [11:6] zero (R287). -/
def decodeImm (w d a : Nat) : Option Instr :=
  let i := fld w 0 12
  match fld w 12 4 with
  | 0 => some (.andImm (rg d) (rg a) (BitVec.ofNat 12 i))
  | 1 => some (.orImm (rg d) (rg a) (BitVec.ofNat 12 i))
  | 2 => some (.xorImm (rg d) (rg a) (BitVec.ofNat 12 i))
  | 3 => some (.sltImm (rg d) (rg a) (BitVec.ofNat 12 i))
  | 4 => some (.sltuImm (rg d) (rg a) (BitVec.ofNat 12 i))
  | 5 => req (i < 64) (.shlImm (rg d) (rg a) (BitVec.ofNat 6 i))
  | 6 => req (i < 64) (.shrImm (rg d) (rg a) (BitVec.ofNat 6 i))
  | 7 => req (i < 64) (.sarImm (rg d) (rg a) (BitVec.ofNat 6 i))
  | 8 => req (i < 64) (.rolImm (rg d) (rg a) (BitVec.ofNat 6 i))
  | 9 => req (i < 64) (.rorImm (rg d) (rg a) (BitVec.ofNat 6 i))
  | 10 => some (.minImm (rg d) (rg a) (BitVec.ofNat 12 i))
  | 11 => some (.minuImm (rg d) (rg a) (BitVec.ofNat 12 i))
  | 12 => some (.maxImm (rg d) (rg a) (BitVec.ofNat 12 i))
  | 13 => some (.maxuImm (rg d) (rg a) (BitVec.ofNat 12 i))
  | _ => none

/-- Major 3 (R310). -/
def decodeInt (f : LeadFields) : Option Instr :=
  match f.fn with
  | 0 => req (f.q == 0) (.add (rg f.d) (rg f.a) (rg f.b))
  | 1 => req (f.q == 0) (.sub (rg f.d) (rg f.a) (rg f.b))
  | 2 => req (f.q == 0) (.and (rg f.d) (rg f.a) (rg f.b))
  | 3 => req (f.q == 0) (.or (rg f.d) (rg f.a) (rg f.b))
  | 4 => req (f.q == 0) (.xor (rg f.d) (rg f.a) (rg f.b))
  | 5 => req (f.q == 0) (.shl (rg f.d) (rg f.a) (rg f.b))
  | 6 => req (f.q == 0) (.shr (rg f.d) (rg f.a) (rg f.b))
  | 7 => req (f.q == 0) (.sar (rg f.d) (rg f.a) (rg f.b))
  | 8 => req (f.q == 0) (.rol (rg f.d) (rg f.a) (rg f.b))
  | 9 => req (f.q == 0) (.ror (rg f.d) (rg f.a) (rg f.b))
  | 10 => req (f.q == 0) (.slt (rg f.d) (rg f.a) (rg f.b))
  | 11 => req (f.q == 0) (.sltu (rg f.d) (rg f.a) (rg f.b))
  | 12 => req (f.q == 0) (.min (rg f.d) (rg f.a) (rg f.b))
  | 13 => req (f.q == 0) (.minu (rg f.d) (rg f.a) (rg f.b))
  | 14 => req (f.q == 0) (.max (rg f.d) (rg f.a) (rg f.b))
  | 15 => req (f.q == 0) (.maxu (rg f.d) (rg f.a) (rg f.b))
  | 16 => req (f.q == 0) (.mul (rg f.d) (rg f.a) (rg f.b))
  | 17 => req (f.q == 0) (.mulh (rg f.d) (rg f.a) (rg f.b))
  | 18 => req (f.q == 0) (.mulhu (rg f.d) (rg f.a) (rg f.b))
  | 19 => req (f.q == 0) (.div (rg f.d) (rg f.a) (rg f.b))
  | 20 => req (f.q == 0) (.divu (rg f.d) (rg f.a) (rg f.b))
  | 21 => req (f.q == 0) (.rem (rg f.d) (rg f.a) (rg f.b))
  | 22 => req (f.q == 0) (.remu (rg f.d) (rg f.a) (rg f.b))
  | 23 => req (f.b == 0 && f.q == 0) (.clz (rg f.d) (rg f.a))
  | 24 => req (f.b == 0 && f.q == 0) (.ctz (rg f.d) (rg f.a))
  | 25 => req (f.b == 0 && f.q == 0) (.popc (rg f.d) (rg f.a))
  | 26 => reqTy f.q (f.b == 0) (fun t => t == .b || t == .h || t == .w) (.exts (rg f.d) (rg f.a))
  | 27 => reqTy f.q (f.b == 0) (fun t => t == .b || t == .h || t == .w) (.extz (rg f.d) (rg f.a))
  | 28 => req (f.q == 0) (.select (rg f.d) (rg f.a) (rg f.b))
  | 29 => reqTy f.q (f.b == 0) (fun t => t == .h || t == .w || t == .d) (.bswap (rg f.d) (rg f.a))
  | _ => none

/-- A conversion to the floating-point type `dst` (R312, FN 16 to 19). -/
def decodeFcvtToFloat (f : LeadFields) (dst : Ty) : Option Instr :=
  reqTy f.q (f.b == 0) (fun t => (t.isFp || t.isInt) && t != dst) (.fcvtToFloat (rg f.d) (rg f.a) dst)

/-- A conversion of the floating-point type `src` to an integer (R312, FN 20 to 23). -/
def decodeFcvtToInteger (f : LeadFields) (src : Ty) : Option Instr :=
  reqTy f.q (f.b == 0) Ty.isInt (fun t => .fcvtToInteger (rg f.d) (rg f.a) t src)

/-- Major 6 (R312). -/
def decodeFp (f : LeadFields) : Option Instr :=
  match f.fn with
  | 0 => reqTy f.q true Ty.isFp (.fadd (rg f.d) (rg f.a) (rg f.b))
  | 1 => reqTy f.q true Ty.isFp (.fsub (rg f.d) (rg f.a) (rg f.b))
  | 2 => reqTy f.q true Ty.isFp (.fmul (rg f.d) (rg f.a) (rg f.b))
  | 3 => reqTy f.q true Ty.isFp (.fdiv (rg f.d) (rg f.a) (rg f.b))
  | 5 => reqTy f.q true Ty.isFp (.fmin (rg f.d) (rg f.a) (rg f.b))
  | 6 => reqTy f.q true Ty.isFp (.fmax (rg f.d) (rg f.a) (rg f.b))
  | 7 => reqTy f.q true Ty.isFp (.fcmpEq (rg f.d) (rg f.a) (rg f.b))
  | 8 => reqTy f.q true Ty.isFp (.fcmpLt (rg f.d) (rg f.a) (rg f.b))
  | 9 => reqTy f.q true Ty.isFp (.fcmpLe (rg f.d) (rg f.a) (rg f.b))
  | 11 => reqTy f.q true Ty.isFp (.fsgnJ (rg f.d) (rg f.a) (rg f.b))
  | 12 => reqTy f.q true Ty.isFp (.fsgnN (rg f.d) (rg f.a) (rg f.b))
  | 13 => reqTy f.q true Ty.isFp (.fsgnX (rg f.d) (rg f.a) (rg f.b))
  | 4 => reqTy f.q (f.b == 0) Ty.isFp (.fsqrt (rg f.d) (rg f.a))
  | 10 => reqTy f.q (f.b == 0) Ty.isFp (.fclass (rg f.d) (rg f.a))
  | 14 => req (f.b == 0 && f.q == 0) (.fmovxToX (rg f.d) (rg f.a))
  | 15 => req (f.b == 0 && f.q == 0) (.fmovxToF (rg f.d) (rg f.a))
  | 16 => decodeFcvtToFloat f .df
  | 17 => decodeFcvtToFloat f .sf
  | 18 => decodeFcvtToFloat f .hf
  | 19 => decodeFcvtToFloat f .bf
  | 20 => decodeFcvtToInteger f .df
  | 21 => decodeFcvtToInteger f .sf
  | 22 => decodeFcvtToInteger f .hf
  | 23 => decodeFcvtToInteger f .bf
  | _ => none

/-- Major 7 (R313): C [10:6], FT [5:4], FN4 [3:0]. -/
def decodeFma (w : Nat) (f : LeadFields) : Option Instr :=
  match ftOfCode (fld w 4 2), fld w 0 4 with
  | some t, 0 => some (.fma (rg f.d) (rg f.a) (rg f.b) (rg f.q) t)
  | some t, 1 => some (.fmaS (rg f.d) (rg f.a) (rg f.b) (rg f.q) t)
  | some t, 2 => some (.fmaN (rg f.d) (rg f.a) (rg f.b) (rg f.q) t)
  | some t, 3 => some (.fmaNs (rg f.d) (rg f.a) (rg f.b) (rg f.q) t)
  | _, _ => none

/-- Majors 8, 9 and 10 (R314): W [15:13], OFF13 [12:0]. -/
def decodeLd (w d a : Nat) : Option Instr :=
  match memWOfCode (fld w 13 3) with
  | some x => some (.ld (rg d) (rg a) x (BitVec.ofNat 13 (fld w 0 13)))
  | none => none
def decodeSt (w d a : Nat) : Option Instr :=
  match sizeOfCode (fld w 13 3) with
  | some x => some (.st (rg d) (rg a) x (BitVec.ofNat 13 (fld w 0 13)))
  | none => none
def decodePref (w d a : Nat) : Option Instr :=
  req (d == 0 && fld w 13 3 == 0) (.pref (rg a) (BitVec.ofNat 13 (fld w 0 13)))

/-- An AMO or a CAS (R315): W2 .w or .d, scope 0 unless AQ or RL is set. -/
def reqAmo (aq rl : Nat) (w2 : Nat) (sc : Option Scope) (f : Bool → Bool → Bool → Scope → Instr) :
    Option Instr :=
  match sc with
  | some s => req ((w2 == 2 || w2 == 3) && amoScopeOk (aq == 1) (rl == 1) s)
      (f (aq == 1) (rl == 1) (w2 == 3) s)
  | none => none

/-- Major 11 (R315): AQ [10], RL [9], SC [8:6], W2 [5:4], FN4 [3:0]. -/
def decodeOrdered (w : Nat) (f : LeadFields) : Option Instr :=
  let aq := fld w 10 1
  let rl := fld w 9 1
  let sc := scopeOfCode (fld w 6 3)
  let w2 := fld w 4 2
  match fld w 0 4 with
  | 0 => match sc, sizeOfCode w2 with
    | some s, some z => req (aq == 1 && rl == 0 && f.b == 0) (.ldAq (rg f.d) (rg f.a) z s)
    | _, _ => none
  | 1 => match sc, sizeOfCode w2 with
    | some s, some z => req (aq == 0 && rl == 1 && f.d == 0) (.stRl (rg f.a) (rg f.b) z s)
    | _, _ => none
  | 2 => reqAmo aq rl w2 sc (.amoSwap (rg f.d) (rg f.a) (rg f.b))
  | 3 => reqAmo aq rl w2 sc (.amoAdd (rg f.d) (rg f.a) (rg f.b))
  | 4 => reqAmo aq rl w2 sc (.amoAnd (rg f.d) (rg f.a) (rg f.b))
  | 5 => reqAmo aq rl w2 sc (.amoOr (rg f.d) (rg f.a) (rg f.b))
  | 6 => reqAmo aq rl w2 sc (.amoXor (rg f.d) (rg f.a) (rg f.b))
  | 7 => reqAmo aq rl w2 sc (.amoMin (rg f.d) (rg f.a) (rg f.b))
  | 8 => reqAmo aq rl w2 sc (.amoMax (rg f.d) (rg f.a) (rg f.b))
  | 9 => reqAmo aq rl w2 sc (.amoMinu (rg f.d) (rg f.a) (rg f.b))
  | 10 => reqAmo aq rl w2 sc (.amoMaxu (rg f.d) (rg f.a) (rg f.b))
  | 11 => reqAmo aq rl w2 sc (.cas (rg f.d) (rg f.a) (rg f.b))
  | 12 => match sc, dirOfCode w2 with
    | some s, some z => req (aq == 0 && rl == 0 && f.d == 0 && f.a == 0 && f.b == 0) (.fence z s)
    | _, _ => none
  | _ => none

/-- Major 12 (R314): WM1 [10:7], SX [6], FN [5:0]. -/
def decodeBits (w : Nat) (f : LeadFields) : Option Instr :=
  match f.fn with
  | 0 => req (f.b == 0) (.ldb (rg f.d) (rg f.a) (BitVec.ofNat 4 (fld w 7 4)) (fld w 6 1 == 1))
  | 1 => req (f.d == 0 && fld w 6 1 == 0) (.stb (rg f.a) (rg f.b) (BitVec.ofNat 4 (fld w 7 4)))
  | _ => none

/-- Major 13 (R288): CC [15:13], DISP13 [12:0]. -/
def decodeBr (w d a : Nat) : Option Instr :=
  match condOfCode (fld w 13 3) with
  | some c => some (.br (rg d) (rg a) c (BitVec.ofNat 13 (fld w 0 13)))
  | none => none

/-- Major 16 (R287): a distance of 0 is reserved; the field d is not used. -/
def decodeLoop (w d a : Nat) : Option Instr :=
  req (d == 0 && fld w 0 16 != 0) (.loop (rg a) (BitVec.ofNat 16 (fld w 0 16)))

/-- A function of two address registers and a scope (R316). -/
def reqScope (q : Nat) (c : Bool) (f : Scope → Instr) : Option Instr :=
  match scopeOfCode q with
  | some s => req c (f s)
  | none => none

/-- Major 18 (R316). -/
def decodeSync (f : LeadFields) : Option Instr :=
  match f.fn with
  | 0 => req (f.q < 2) (.send (rg f.d) (rg f.a) (rg f.b) (f.q == 1))
  | 1 => req (f.q < 2) (.recv (rg f.d) (rg f.a) (rg f.b) (f.q == 1))
  | 2 => req (f.a == 0 && f.b == 0 && f.q == 0) (.gbar (rg f.d))
  | 3 => reqScope f.q (f.d == 0) (.setwm (rg f.a) (rg f.b))
  | 4 => reqScope f.q (f.d == 0) (.waitwm (rg f.a) (rg f.b))
  | 5 => req (f.d == 0 && f.b == 0 && f.q == 0) (.waitt (rg f.a))
  | _ => none

/-- Major 19 (R316). -/
def decodeTask (f : LeadFields) : Option Instr :=
  match f.fn with
  | 0 => req (f.d == 0 && f.q < 4) (.tspawn (rg f.a) (rg f.b) (BitVec.ofNat 2 f.q))
  | 1 => req (f.d == 0 && f.a == 0 && f.b == 0 && f.q == 0) .tdone
  | 2 => req (f.d == 0 && f.a == 0 && f.b == 0 && f.q == 0) .tirrev
  | 3 => req (f.d == 0 && f.a == 0 && f.b == 0 && f.q == 0) .tabort
  | 4 => match f.q with
    | 0 => req (f.b == 0) (.tdomainOpen (rg f.d) (rg f.a))
    | 1 => req (f.a == 0 && f.b == 0) (.tdomainEnter (rg f.d))
    | 2 => req (f.a == 0 && f.b == 0) (.tdomainClose (rg f.d))
    | _ => none
  | _ => none

/-- Major 20 (R316). -/
def decodeStream (f : LeadFields) : Option Instr :=
  match f.fn with
  | 0 => req (f.b == 0 && f.q == 0) (.scopy (rg f.d) (rg f.a))
  | 1 => req (f.b == 0 && f.q == 0) (.smap (rg f.d) (rg f.a))
  | 2 => req (f.b == 0 && f.q == 0) (.sput (rg f.d) (rg f.a))
  | 3 => req (f.d == 0 && f.b == 0 && f.q == 0) (.swait (rg f.a))
  | _ => none

/-- Major 21 (R316): SR12 [15:4], FN4 [3:0]. -/
def decodeSysReg (w d a : Nat) : Option Instr :=
  let sr : BitVec 12 := BitVec.ofNat 12 (fld w 4 12)
  match fld w 0 4 with
  | 0 => req (d == 0 && a == 0) (.syscall sr)
  | 1 => req (d == 0 && a == 0) (.brk sr)
  | 2 => req (a == 0) (.getsr (rg d) sr)
  | 3 => req (d == 0) (.setsr (rg a) sr)
  | 4 => some (.swapsr (rg d) (rg a) sr)
  | _ => none

/-- Major 22 (R316); the qualifier of TLBINV holds the kind [4:3] and the scope [2:0] (R289). -/
def decodeSystem (f : LeadFields) : Option Instr :=
  match f.fn with
  | 0 => req (f.d == 0 && f.a == 0 && f.b == 0 && f.q == 0) .tret
  | 1 => req (f.d == 0 && f.a == 0 && f.b == 0 && f.q == 0) .idle
  | 2 => match scopeOfCode (f.q % 8), f.q / 8 with
    | some s, 0 => req (f.d == 0 && s != .hart) (.tlbinvPage (rg f.a) (rg f.b) s)
    | some s, 1 => req (f.d == 0 && f.a == 0 && s != .hart) (.tlbinvAsid (rg f.b) s)
    | some s, 2 => req (f.d == 0 && f.a == 0 && f.b == 0 && s != .hart) (.tlbinvAll s)
    | _, _ => none
  | 3 => req (f.d == 0 && f.b == 0 && f.q == 0) (.cacheopIl (rg f.a))
  | 4 => req (f.d == 0 && f.a == 0 && f.b == 0 && f.q == 0) .cacheopIa
  | 5 => req (f.d == 0 && f.b == 0 && f.q == 0) (.cacheopWb (rg f.a))
  | 6 => req (f.d == 0 && f.b == 0 && f.q == 0) (.cacheopWbi (rg f.a))
  | _ => none

/-- A k register or a C tile of a field. -/
def r3 (n : Nat) : BitVec 3 := BitVec.ofNat 3 n
/-- An A tile or a tensor map of a field. -/
def r2 (n : Nat) : BitVec 2 := BitVec.ofNat 2 n

/-- Major 23 (R317). -/
def decodeMask (f : LeadFields) : Option Instr :=
  match f.fn with
  | 0 => req (f.d < 8 && f.a < 8 && f.b < 8 && f.q == 0) (.kand (r3 f.d) (r3 f.a) (r3 f.b))
  | 1 => req (f.d < 8 && f.a < 8 && f.b < 8 && f.q == 0) (.kor (r3 f.d) (r3 f.a) (r3 f.b))
  | 2 => req (f.d < 8 && f.a < 8 && f.b < 8 && f.q == 0) (.kxor (r3 f.d) (r3 f.a) (r3 f.b))
  | 3 => req (f.d < 8 && f.a < 8 && f.b == 0 && f.q == 0) (.knot (r3 f.d) (r3 f.a))
  | 4 => req (f.a < 8 && f.b == 0 && f.q == 0) (.kpopc (rg f.d) (r3 f.a))
  | 5 => req (f.a < 8 && f.b == 0 && f.q == 0) (.kfirst (rg f.d) (r3 f.a))
  | 6 => req (f.d < 8 && f.b == 0 && f.q == 0) (.kset (r3 f.d) (rg f.a))
  | _ => none

/-- Major 24 (R286): REGS [5:4], EW [1:0]. -/
def decodeSetvl (w d a : Nat) : Option Instr :=
  match sizeOfCode (fld w 0 2) with
  | some e => req (fld w 6 10 == 0 && fld w 2 2 == 0) (.setvl (rg d) (rg a) (r2 (fld w 4 2)) e)
  | none => none

/-- Major 25 (R317). -/
def decodeImage (f : LeadFields) : Option Instr :=
  match f.fn with
  | 0 => req (f.d == 0 && f.b == 0 && f.q == 0) (.vsave (rg f.a))
  | 1 => req (f.d == 0 && f.b == 0 && f.q == 0) (.vrest (rg f.a))
  | _ => none

/-- Major 26 (R318); the code 0b00000 of MLDA and MLDB names no suffix. -/
def decodeMatrix (f : LeadFields) : Option Instr :=
  match f.fn with
  | 0 => req (f.q == 0) (.mshape (rg f.d) (rg f.a) (rg f.b))
  | 1 => req (f.d < 8 && f.a == 0 && f.b == 0 && f.q == 0) (.mzero (r3 f.d))
  | 2 => bif f.q == 0 then req (f.d < 4) (.mlda (r2 f.d) (rg f.a) (rg f.b))
      else reqTy f.q (f.d < 4) Ty.isMx (.mldaScale (r2 f.d) (rg f.a) (rg f.b))
  | 3 => req (f.d < 4 && f.q == 0) (.mldaff (r2 f.d) (rg f.a) (rg f.b))
  | 4 => bif f.q == 0 then some (.mldb (rg f.d) (rg f.a) (rg f.b))
      else reqTy f.q true Ty.isMx (.mldbScale (rg f.d) (rg f.a) (rg f.b))
  | 5 => req (f.d < 4 && f.q < 4) (.mldw (r2 f.d) (rg f.a) (rg f.b) (r2 f.q))
  | 6 => req (f.d < 4 && f.b == 0 && f.q == 0) (.mtmap (r2 f.d) (rg f.a))
  | 7 => reqTy f.q (f.d < 8 && f.a < 4) Ty.isMma (.mma (r3 f.d) (r2 f.a) (rg f.b))
  | 8 => reqTy f.q (f.d < 8) Ty.isMstc (.mstc (r3 f.d) (rg f.a) (rg f.b))
  | 9 => req (f.a < 8 && f.q < 8) (.mmovcToVector (rg f.d) (r3 f.a) (rg f.b) (r3 f.q))
  | 10 => req (f.d < 8 && f.q < 8) (.mmovcToTile (r3 f.d) (rg f.a) (rg f.b) (r3 f.q))
  | 11 => req (f.a < 4 && f.b == 0 && f.q == 0) (.mcastTile (rg f.d) (r2 f.a))
  | 12 => req (f.b == 0 && f.q == 0) (.mcastRows (rg f.d) (rg f.a))
  | 13 => req (f.d == 0 && f.a == 0 && f.b == 0 && f.q == 0) .mwait
  | 14 => req (f.d == 0 && f.b == 0 && f.q == 0) (.msave (rg f.a))
  | 15 => req (f.d == 0 && f.b == 0 && f.q == 0) (.mrest (rg f.a))
  | _ => none

/-- What a function of a vector major does with the fields b, C, T2, SUB and TW (R290, R308): the field's
must-be-zero rule holds unless the flag says that the function uses it. -/
structure VUse where
  b : Bool := true
  c : Bool := false
  t2 : Bool := false
  imm : Bool := false
  /-- The first value of SUB that is reserved. -/
  subEnd : Nat := 1

/-- The field rules of format V that a function shares with every other (R290, R291). -/
def vFieldsOk (u : VUse) (f : LeadFields) (s : SecondFields) : Bool :=
  s.z == 0 && (u.c || s.c == 0) && (u.t2 || s.t2 == 0) && s.sub < u.subEnd
    && (s.tw == 0 || u.imm) && (u.b || f.b == 0) && (s.tw == 0 || f.b == 0)

/-- The convoy bit and the mask selection (R290). -/
def vHdr (s : SecondFields) : VHdr := ⟨s.cv == 1, r3 s.km⟩

/-- The second source: the register b, or IMM32 (R291). -/
def vSrc (f : LeadFields) (s : SecondFields) (w2 : Nat) : VSrc :=
  bif s.tw == 1 then .imm (BitVec.ofNat 32 w2) else .reg (rg f.b)

/-- Major 56 (R319). -/
def decodeVMem (f : LeadFields) (s : SecondFields) (w2 : Nat) : Option Instr :=
  let h := vHdr s
  let d := rg f.d
  let a := rg f.a
  let iw := (sizeOfCode (s.sub % 4)).getD .b
  match f.fn with
  | 0 => reqTy f.q (vFieldsOk { b := false } f s) Ty.isPlain (.vld h d a)
  | 1 => reqTy f.q (vFieldsOk { imm := true } f s) Ty.isWhole (.vlds h d a (vSrc f s w2))
  | 2 => reqTy f.q (vFieldsOk { subEnd := 4 } f s) Ty.isWhole (fun t => .vldx h d a (rg f.b) t iw)
  | 3 => reqTy f.q (vFieldsOk { b := false } f s) Ty.isPlain (.vldff h d a)
  | 4 => reqTy f.q (vFieldsOk { b := false } f s) Ty.isPlain (.vst h d a)
  | 5 => reqTy f.q (vFieldsOk { imm := true } f s) Ty.isWhole (.vsts h d a (vSrc f s w2))
  | 6 => reqTy f.q (vFieldsOk { subEnd := 4 } f s) Ty.isWhole (fun t => .vstx h d a (rg f.b) t iw)
  | _ => none

/-- Major 57 (R319): maskless, without IMM32. -/
def decodeVPlane (f : LeadFields) (s : SecondFields) : Option Instr :=
  let cv := s.cv == 1
  let d := rg f.d
  let a := rg f.a
  let lo : BitVec 4 := BitVec.ofNat 4 (s.sub % 16)
  match f.fn with
  | 0 => req (vFieldsOk { b := false, subEnd := 16 } f s && s.km == 0 && f.q == 0 && planesOk d lo) (.vbpld cv d a lo)
  | 1 => req (vFieldsOk { b := false, subEnd := 16 } f s && s.km == 0 && f.q == 0 && planesOk d lo) (.vbpst cv d a lo)
  | 2 =>
    let hi : BitVec 4 := BitVec.ofNat 4 (s.sub / 16)
    reqTy f.q (vFieldsOk { subEnd := 256 } f s && s.km == 0 && planesOk a hi && planesOk (rg f.b) lo
        && outsidePlanes d a hi && outsidePlanes d (rg f.b) lo)
      (fun t => t == .w || t == .wu || t == .d || t == .du)
      (fun t => .vbpdot cv d a (rg f.b) t hi lo)
  | 3 => bif s.sub / 256 == 0
      then reqTy f.q (vFieldsOk { b := false, subEnd := 16 } f s && s.km == 0 && planesOk d lo && outsidePlanes a d lo) Ty.isInt
        (fun t => .vbpcvtToplanes cv d a t lo)
      else reqTy f.q (vFieldsOk { b := false, subEnd := 272 } f s && s.km == 0 && planesOk a lo && outsidePlanes d a lo)
        Ty.isInt
        (fun t => .vbpcvtTopacked cv d a t lo)
  | _ => none

/-- Major 58 (R320). -/
def decodeVInt (f : LeadFields) (s : SecondFields) (w2 : Nat) : Option Instr :=
  let h := vHdr s
  let d := rg f.d
  let a := rg f.a
  let v := vSrc f s w2
  match f.fn with
  | 0 => reqTy f.q (vFieldsOk { imm := true } f s) Ty.isInt (.vadd h d a v)
  | 1 => reqTy f.q (vFieldsOk { imm := true } f s) Ty.isInt (.vsub h d a v)
  | 2 => reqTy f.q (vFieldsOk { imm := true } f s) Ty.isInt (.vmul h d a v)
  | 5 => reqTy f.q (vFieldsOk { imm := true } f s) Ty.isInt (.vmin h d a v)
  | 6 => reqTy f.q (vFieldsOk { imm := true } f s) Ty.isInt (.vmax h d a v)
  | 7 => reqTy f.q (vFieldsOk { imm := true } f s) Ty.isInt (.vand h d a v)
  | 8 => reqTy f.q (vFieldsOk { imm := true } f s) Ty.isInt (.vor h d a v)
  | 9 => reqTy f.q (vFieldsOk { imm := true } f s) Ty.isInt (.vxor h d a v)
  | 10 => reqTy f.q (vFieldsOk { imm := true } f s) Ty.isInt (.vshl h d a v)
  | 11 => reqTy f.q (vFieldsOk { imm := true } f s) Ty.isInt (.vshr h d a v)
  | 12 => reqTy f.q (vFieldsOk { imm := true } f s) Ty.isInt (.vsar h d a v)
  | 13 => reqTy f.q (vFieldsOk { imm := true } f s) Ty.isInt (.vadds h d a v)
  | 14 => reqTy f.q (vFieldsOk { imm := true } f s) Ty.isInt (.vsubs h d a v)
  | 3 => reqTy f.q (vFieldsOk {} f s) Ty.isInt (.vmulh h d a (rg f.b))
  | 15 => reqTy f.q (vFieldsOk {} f s) Ty.isInt (.vabsd h d a (rg f.b))
  | 4 => reqTy f.q (vFieldsOk { c := true } f s) Ty.isInt (.vmadd h d a (rg f.b) (rg s.c))
  | 16 => match tyOfCode s.t2 with
    | some t2 => reqTy f.q (vFieldsOk { b := false, t2 := true } f s)
        (fun t => t.isInt && t2.isInt && decide (t.bits < t2.bits)) (fun t => .vwiden h d a t t2)
    | none => none
  | 17 => match tyOfCode s.t2 with
    | some t2 => reqTy f.q (vFieldsOk { b := false, t2 := true, subEnd := 2 } f s)
        (fun t => t.isInt && t2.isInt && decide (t2.bits < t.bits))
        (fun t => .vnarrow h d a t t2 (s.sub == 1))
    | none => none
  | 18 => match vcondOfCode s.sub with
    | some c => reqTy f.q (vFieldsOk { imm := true, subEnd := 4 } f s && f.d < 8) Ty.isInt
        (fun t => .vcmp h (r3 f.d) a v t c)
    | none => none
  | _ => none

/-- Major 59 (R321). -/
def decodeVFp (f : LeadFields) (s : SecondFields) (w2 : Nat) : Option Instr :=
  let h := vHdr s
  let d := rg f.d
  let a := rg f.a
  let v := vSrc f s w2
  match f.fn with
  | 0 => reqTy f.q (vFieldsOk { imm := true } f s) Ty.isFp (.vfadd h d a v)
  | 1 => reqTy f.q (vFieldsOk { imm := true } f s) Ty.isFp (.vfsub h d a v)
  | 2 => reqTy f.q (vFieldsOk { imm := true } f s) Ty.isFp (.vfmul h d a v)
  | 6 => reqTy f.q (vFieldsOk { imm := true } f s) Ty.isFp (.vfmin h d a v)
  | 7 => reqTy f.q (vFieldsOk { imm := true } f s) Ty.isFp (.vfmax h d a v)
  | 3 => match fmaFormOfCode s.sub with
    | some m => reqTy f.q (vFieldsOk { c := true, subEnd := 4 } f s) Ty.isFp
        (fun t => .vfma h d a (rg f.b) (rg s.c) t m)
    | none => none
  | 4 => reqTy f.q (vFieldsOk {} f s) Ty.isFp (.vfdiv h d a (rg f.b))
  | 5 => reqTy f.q (vFieldsOk { b := false } f s) Ty.isFp (.vfsqrt h d a)
  | 8 => match fcondOfCode s.sub with
    | some c => reqTy f.q (vFieldsOk { imm := true, subEnd := 5 } f s && f.d < 8) Ty.isFp
        (fun t => .vfcmp h (r3 f.d) a v t c)
    | none => none
  | 9 => match tyOfCode s.t2 with
    | some t2 => reqTy f.q (vFieldsOk { b := false, t2 := true } f s)
        (fun t => t.isPlain && t2.isPlain && t != t2 && (t.isAnyFp || t2.isAnyFp))
        (fun t => .vfcvt h d a t t2)
    | none => none
  | 10 => match sfFnOfCode s.sub with
    | some g => reqTy f.q (vFieldsOk { b := false, subEnd := 5 } f s) (fun t => t == .sf || t == .bf)
        (fun t => .vsf h d a t g)
    | none => none
  | _ => none

/-- Major 60 (R322). -/
def decodeVRed (f : LeadFields) (s : SecondFields) : Option Instr :=
  let h := vHdr s
  let d := rg f.d
  let a := rg f.a
  match f.fn with
  | 0 => reqTy f.q (vFieldsOk { b := false } f s) Ty.isInt (.vredsum h d a)
  | 1 => reqTy f.q (vFieldsOk { b := false } f s) Ty.isInt (.vredmin h d a)
  | 2 => reqTy f.q (vFieldsOk { b := false } f s) Ty.isInt (.vredmax h d a)
  | 3 => match tyOfCode s.t2 with
    | some t2 => reqTy f.q (vFieldsOk { b := false, t2 := true } f s)
        (fun t => accTyOk t t2) (fun t => .vfredsum h d a t t2)
    | none => none
  | 4 => match tyOfCode s.t2 with
    | some t2 => reqTy f.q (vFieldsOk { b := false, t2 := true } f s)
        (fun t => accTyOk t t2) (fun t => .vfredmin h d a t t2)
    | none => none
  | 5 => match tyOfCode s.t2 with
    | some t2 => reqTy f.q (vFieldsOk { b := false, t2 := true } f s)
        (fun t => accTyOk t t2) (fun t => .vfredmax h d a t t2)
    | none => none
  | 6 => match tyOfCode s.t2 with
    | some t2 => reqTy f.q (vFieldsOk { b := false, c := true, t2 := true } f s)
        (fun t => (t.isInt && t2 == .b) || accTyOk t t2)
        (fun t => .vscan h d a (rg s.c) t t2)
    | none => none
  | _ => none

/-- Major 61 (R323); VBCAST takes its source from a, or IMM32 with a zero. -/
def decodeVMove (f : LeadFields) (s : SecondFields) (w2 : Nat) : Option Instr :=
  let h := vHdr s
  let d := rg f.d
  let a := rg f.a
  let v := vSrc f s w2
  match f.fn with
  | 0 => reqTy f.q (vFieldsOk { imm := true } f s) Ty.isPlain (.vslideup h d a v)
  | 1 => reqTy f.q (vFieldsOk { imm := true } f s) Ty.isPlain (.vslidedn h d a v)
  | 2 => reqTy f.q (vFieldsOk { subEnd := 4 } f s) Ty.isPlain
      (fun t => .vgather h d a (rg f.b) t ((sizeOfCode (s.sub % 4)).getD .b))
  | 3 => reqTy f.q (vFieldsOk { b := false } f s) Ty.isPlain (.vcompress h d a)
  | 4 => reqTy f.q (vFieldsOk { b := false } f s) Ty.isPlain (.vexpand h d a)
  | 5 => reqTy f.q (vFieldsOk { imm := true } f s) Ty.isPlain (.vmerge h d a v)
  | 6 => reqTy f.q (vFieldsOk { b := false, imm := true } f s && (s.tw == 0 || f.a == 0)) Ty.isPlain
      (.vbcast h d (bif s.tw == 1 then .imm (BitVec.ofNat 32 w2) else .reg a))
  | 7 => reqTy f.q (vFieldsOk { b := false } f s) Ty.isPlain (.vmvx h d a)
  | 8 => reqTy f.q (vFieldsOk { imm := true } f s) Ty.isPlain (.vmvs h d a v)
  | 9 => reqTy f.q (vFieldsOk { b := false } f s) Ty.isPlain (.vmov h d a)
  | 10 => reqTy f.q (vFieldsOk { b := false } f s && f.a == 0) Ty.isPlain (.viota h d)
  | _ => none

/-- Major 62 (R324). -/
def decodeVQuant (f : LeadFields) (s : SecondFields) : Option Instr :=
  let h := vHdr s
  let d := rg f.d
  let a := rg f.a
  match tyOfCode s.t2, f.fn with
  | some t2, 0 => reqTy f.q (vFieldsOk { b := false, c := true, t2 := true } f s && t2.isMx && d != rg s.c)
      (fun t => t == .sf || t == .bf) (fun t => .vbq h d a (rg s.c) t t2)
  | some t2, 1 => reqTy f.q (vFieldsOk { b := false, t2 := true } f s && (t2 == .sf || t2 == .bf)) Ty.isMx
      (fun t => .vbdq h d a t t2)
  | _, _ => none

/-- The instruction of a leading word of a 4-byte major, second and immediate words of a 64-bit one
(R293); `none` is a reserved encoding. -/
def decodeAssigned (w0 w1 w2 : Nat) : Option Instr :=
  let f := leadFields w0
  let s := secondFields w1
  match f.op with
  | 1 => some (.addImm (rg f.d) (rg f.a) (BitVec.ofNat 16 (fld w0 0 16)))
  | 2 => decodeImm w0 f.d f.a
  | 3 => decodeInt f
  | 4 => some (.ldhi (rg f.d) (BitVec.ofNat 21 (fld w0 0 21)))
  | 5 => some (.addpc (rg f.d) (BitVec.ofNat 21 (fld w0 0 21)))
  | 6 => decodeFp f
  | 7 => decodeFma w0 f
  | 8 => decodeLd w0 f.d f.a
  | 9 => decodeSt w0 f.d f.a
  | 10 => decodePref w0 f.d f.a
  | 11 => decodeOrdered w0 f
  | 12 => decodeBits w0 f
  | 13 => decodeBr w0 f.d f.a
  | 14 => some (.jal (rg f.d) (BitVec.ofNat 21 (fld w0 0 21)))
  | 15 => some (.jalr (rg f.d) (rg f.a) (BitVec.ofNat 16 (fld w0 0 16)))
  | 16 => decodeLoop w0 f.d f.a
  | 17 => req (fld w0 0 26 == 0) .lend
  | 18 => decodeSync f
  | 19 => decodeTask f
  | 20 => decodeStream f
  | 21 => decodeSysReg w0 f.d f.a
  | 22 => decodeSystem f
  | 23 => decodeMask f
  | 24 => decodeSetvl w0 f.d f.a
  | 25 => decodeImage f
  | 26 => decodeMatrix f
  | 56 => decodeVMem f s w2
  | 57 => decodeVPlane f s
  | 58 => decodeVInt f s w2
  | 59 => decodeVFp f s w2
  | 60 => decodeVRed f s
  | 61 => decodeVMove f s w2
  | 62 => decodeVQuant f s
  | _ => none

/-- Whether a major has functions (R293). -/
def majorAssigned (op : Nat) : Bool := (1 ≤ op && op ≤ 26) || (56 ≤ op && op ≤ 62)

/-- The decoder: the instruction of three words, or the reason there is none (R294). The second and third
words count only where the length of R282 has them. -/
def decode (w0 w1 w2 : Nat) : Except DecodeRefusal Instr :=
  bif majorAssigned (fld w0 26 6) then
    match decodeAssigned w0 w1 w2 with
    | some i => .ok i
    | none => .error .reservedEncoding
  else .error .unassignedOpcode

/-- The cause of R294 for an encoding that is not an instruction. -/
def DecodeRefusal.cause : DecodeRefusal → Byte
  | .unassignedOpcode => 0x00
  | .reservedEncoding => 0x01

/-- The number of the little-endian bytes of a list (R4). -/
def natOfBytes : List Byte → Nat
  | [] => 0
  | b :: bs => b.toNat + 256 * natOfBytes bs

/-- The n little-endian bytes of a number (R4). -/
def bytesOfNat : Nat → Nat → List Byte
  | 0, _ => []
  | n + 1, v => BitVec.ofNat 8 (v % 256) :: bytesOfNat n (v / 256)

/-- The decoder on bytes: the words little-endian from the first (R283); missing bytes count as zero. -/
def decodeBytes (bs : List Byte) : Except DecodeRefusal Instr :=
  decode (natOfBytes (bs.take 4)) (natOfBytes ((bs.drop 4).take 4)) (natOfBytes ((bs.drop 8).take 4))

/-- The decoder on a word numbered as the opcode table numbers its bits. -/
def decodeTableWord (_nbits w : Nat) : Option Instr :=
  match decodeBytes (bytesOfNat 12 w) with
  | .ok i => some i
  | .error _ => none

/-- One 32-bit word as a list of words. -/
def encR (op d a b q fn : Nat) : List Nat := [leadWordOf op d a b q fn]

/-- A word of format I, II, M, B: d, a and the low 16 bits (R286). -/
def encI (op d a low : Nat) : List Nat := [op * 2 ^ 26 + d * 2 ^ 21 + a * 2 ^ 16 + low]

/-- A word of format J or U: d and the low 21 bits (R286). -/
def encU (op d low : Nat) : List Nat := [op * 2 ^ 26 + d * 2 ^ 21 + low]

/-- A word of format A (R286). -/
def encA (fn d a b : Nat) (aq rl : Bool) (sc : Scope) (w2 : Nat) : List Nat :=
  [11 * 2 ^ 26 + d * 2 ^ 21 + a * 2 ^ 16 + b * 2 ^ 11 + aq.toNat * 2 ^ 10 + rl.toNat * 2 ^ 9
    + sc.code * 2 ^ 6 + w2 * 2 ^ 4 + fn]

/-- The W2 of an AMO: .w or .d (R315). -/
def dwCode (dw : Bool) : Nat := bif dw then 3 else 2

/-- The fields of a format V instruction that its words are built from (R290). -/
structure VEnc where
  op : Nat
  fn : Nat
  t : Ty
  cv : Bool
  km : Nat := 0
  d : Nat := 0
  a : Nat := 0
  b : Nat := 0
  c : Nat := 0
  t2 : Nat := 0
  sub : Nat := 0
  imm : Option Word32 := none

/-- The words of format V (R290, R291). -/
def encV (e : VEnc) : List Nat :=
  match e.imm with
  | none => [leadWordOf e.op e.d e.a e.b e.t.code e.fn, secondWordOf e.cv.toNat e.km e.c e.t2 0 e.sub]
  | some i => [leadWordOf e.op e.d e.a e.b e.t.code e.fn, secondWordOf e.cv.toNat e.km e.c e.t2 1 e.sub, i.toNat]

/-- The b field of a second source (R291). -/
def VSrc.field : VSrc → Nat
  | .reg b => b.toNat
  | .imm _ => 0
/-- The trailing word of a second source (R291). -/
def VSrc.word : VSrc → Option Word32
  | .reg _ => none
  | .imm i => some i

/-- The words of an instruction, the leading one first; an event has none. -/
def encode : Instr → List Nat
  | .addImm d a i => encI 1 d.toNat a.toNat i.toNat
  | .andImm d a i => encI 2 d.toNat a.toNat (0 * 2 ^ 12 + i.toNat)
  | .orImm d a i => encI 2 d.toNat a.toNat (1 * 2 ^ 12 + i.toNat)
  | .xorImm d a i => encI 2 d.toNat a.toNat (2 * 2 ^ 12 + i.toNat)
  | .sltImm d a i => encI 2 d.toNat a.toNat (3 * 2 ^ 12 + i.toNat)
  | .sltuImm d a i => encI 2 d.toNat a.toNat (4 * 2 ^ 12 + i.toNat)
  | .shlImm d a i => encI 2 d.toNat a.toNat (5 * 2 ^ 12 + i.toNat)
  | .shrImm d a i => encI 2 d.toNat a.toNat (6 * 2 ^ 12 + i.toNat)
  | .sarImm d a i => encI 2 d.toNat a.toNat (7 * 2 ^ 12 + i.toNat)
  | .rolImm d a i => encI 2 d.toNat a.toNat (8 * 2 ^ 12 + i.toNat)
  | .rorImm d a i => encI 2 d.toNat a.toNat (9 * 2 ^ 12 + i.toNat)
  | .minImm d a i => encI 2 d.toNat a.toNat (10 * 2 ^ 12 + i.toNat)
  | .minuImm d a i => encI 2 d.toNat a.toNat (11 * 2 ^ 12 + i.toNat)
  | .maxImm d a i => encI 2 d.toNat a.toNat (12 * 2 ^ 12 + i.toNat)
  | .maxuImm d a i => encI 2 d.toNat a.toNat (13 * 2 ^ 12 + i.toNat)
  | .add d a b => encR 3 d.toNat a.toNat b.toNat 0 0
  | .sub d a b => encR 3 d.toNat a.toNat b.toNat 0 1
  | .and d a b => encR 3 d.toNat a.toNat b.toNat 0 2
  | .or d a b => encR 3 d.toNat a.toNat b.toNat 0 3
  | .xor d a b => encR 3 d.toNat a.toNat b.toNat 0 4
  | .shl d a b => encR 3 d.toNat a.toNat b.toNat 0 5
  | .shr d a b => encR 3 d.toNat a.toNat b.toNat 0 6
  | .sar d a b => encR 3 d.toNat a.toNat b.toNat 0 7
  | .rol d a b => encR 3 d.toNat a.toNat b.toNat 0 8
  | .ror d a b => encR 3 d.toNat a.toNat b.toNat 0 9
  | .slt d a b => encR 3 d.toNat a.toNat b.toNat 0 10
  | .sltu d a b => encR 3 d.toNat a.toNat b.toNat 0 11
  | .min d a b => encR 3 d.toNat a.toNat b.toNat 0 12
  | .minu d a b => encR 3 d.toNat a.toNat b.toNat 0 13
  | .max d a b => encR 3 d.toNat a.toNat b.toNat 0 14
  | .maxu d a b => encR 3 d.toNat a.toNat b.toNat 0 15
  | .mul d a b => encR 3 d.toNat a.toNat b.toNat 0 16
  | .mulh d a b => encR 3 d.toNat a.toNat b.toNat 0 17
  | .mulhu d a b => encR 3 d.toNat a.toNat b.toNat 0 18
  | .div d a b => encR 3 d.toNat a.toNat b.toNat 0 19
  | .divu d a b => encR 3 d.toNat a.toNat b.toNat 0 20
  | .rem d a b => encR 3 d.toNat a.toNat b.toNat 0 21
  | .remu d a b => encR 3 d.toNat a.toNat b.toNat 0 22
  | .clz d a => encR 3 d.toNat a.toNat 0 0 23
  | .ctz d a => encR 3 d.toNat a.toNat 0 0 24
  | .popc d a => encR 3 d.toNat a.toNat 0 0 25
  | .exts d a q => encR 3 d.toNat a.toNat 0 q.code 26
  | .extz d a q => encR 3 d.toNat a.toNat 0 q.code 27
  | .bswap d a q => encR 3 d.toNat a.toNat 0 q.code 29
  | .select d a b => encR 3 d.toNat a.toNat b.toNat 0 28
  | .ldhi d i => encU 4 d.toNat i.toNat
  | .addpc d i => encU 5 d.toNat i.toNat
  | .fadd d a b t => encR 6 d.toNat a.toNat b.toNat t.code 0
  | .fsub d a b t => encR 6 d.toNat a.toNat b.toNat t.code 1
  | .fmul d a b t => encR 6 d.toNat a.toNat b.toNat t.code 2
  | .fdiv d a b t => encR 6 d.toNat a.toNat b.toNat t.code 3
  | .fmin d a b t => encR 6 d.toNat a.toNat b.toNat t.code 5
  | .fmax d a b t => encR 6 d.toNat a.toNat b.toNat t.code 6
  | .fcmpEq d a b t => encR 6 d.toNat a.toNat b.toNat t.code 7
  | .fcmpLt d a b t => encR 6 d.toNat a.toNat b.toNat t.code 8
  | .fcmpLe d a b t => encR 6 d.toNat a.toNat b.toNat t.code 9
  | .fsgnJ d a b t => encR 6 d.toNat a.toNat b.toNat t.code 11
  | .fsgnN d a b t => encR 6 d.toNat a.toNat b.toNat t.code 12
  | .fsgnX d a b t => encR 6 d.toNat a.toNat b.toNat t.code 13
  | .fsqrt d a t => encR 6 d.toNat a.toNat 0 t.code 4
  | .fclass d a t => encR 6 d.toNat a.toNat 0 t.code 10
  | .fmovxToX d a => encR 6 d.toNat a.toNat 0 0 14
  | .fmovxToF d a => encR 6 d.toNat a.toNat 0 0 15
  | .fcvtToFloat d a dst src => encR 6 d.toNat a.toNat 0 src.code (16 + dst.ft)
  | .fcvtToInteger d a dst src => encR 6 d.toNat a.toNat 0 dst.code (20 + src.ft)
  | .fma d a b c t => encR 7 d.toNat a.toNat b.toNat c.toNat (t.ft * 16 + 0)
  | .fmaS d a b c t => encR 7 d.toNat a.toNat b.toNat c.toNat (t.ft * 16 + 1)
  | .fmaN d a b c t => encR 7 d.toNat a.toNat b.toNat c.toNat (t.ft * 16 + 2)
  | .fmaNs d a b c t => encR 7 d.toNat a.toNat b.toNat c.toNat (t.ft * 16 + 3)
  | .ld d a x i => encI 8 d.toNat a.toNat (x.code * 2 ^ 13 + i.toNat)
  | .st d a x i => encI 9 d.toNat a.toNat (x.code * 2 ^ 13 + i.toNat)
  | .pref a i => encI 10 0 a.toNat i.toNat
  | .ldAq d a x sc => encA 0 d.toNat a.toNat 0 true false sc x.code
  | .stRl a b x sc => encA 1 0 a.toNat b.toNat false true sc x.code
  | .amoSwap d a b aq rl dw sc => encA 2 d.toNat a.toNat b.toNat aq rl sc (dwCode dw)
  | .amoAdd d a b aq rl dw sc => encA 3 d.toNat a.toNat b.toNat aq rl sc (dwCode dw)
  | .amoAnd d a b aq rl dw sc => encA 4 d.toNat a.toNat b.toNat aq rl sc (dwCode dw)
  | .amoOr d a b aq rl dw sc => encA 5 d.toNat a.toNat b.toNat aq rl sc (dwCode dw)
  | .amoXor d a b aq rl dw sc => encA 6 d.toNat a.toNat b.toNat aq rl sc (dwCode dw)
  | .amoMin d a b aq rl dw sc => encA 7 d.toNat a.toNat b.toNat aq rl sc (dwCode dw)
  | .amoMax d a b aq rl dw sc => encA 8 d.toNat a.toNat b.toNat aq rl sc (dwCode dw)
  | .amoMinu d a b aq rl dw sc => encA 9 d.toNat a.toNat b.toNat aq rl sc (dwCode dw)
  | .amoMaxu d a b aq rl dw sc => encA 10 d.toNat a.toNat b.toNat aq rl sc (dwCode dw)
  | .cas d a b aq rl dw sc => encA 11 d.toNat a.toNat b.toNat aq rl sc (dwCode dw)
  | .fence x sc => encA 12 0 0 0 false false sc x.code
  | .ldb d a n sx => [12 * 2 ^ 26 + d.toNat * 2 ^ 21 + a.toNat * 2 ^ 16 + n.toNat * 2 ^ 7 + sx.toNat * 2 ^ 6]
  | .stb a b n => [12 * 2 ^ 26 + a.toNat * 2 ^ 16 + b.toNat * 2 ^ 11 + n.toNat * 2 ^ 7 + 1]
  | .br a b c i => encI 13 a.toNat b.toNat (c.code * 2 ^ 13 + i.toNat)
  | .jal d i => encU 14 d.toNat i.toNat
  | .jalr d a i => encI 15 d.toNat a.toNat i.toNat
  | .loop a i => encI 16 0 a.toNat i.toNat
  | .lend => encR 17 0 0 0 0 0
  | .send d a b u => encR 18 d.toNat a.toNat b.toNat u.toNat 0
  | .recv d a b u => encR 18 d.toNat a.toNat b.toNat u.toNat 1
  | .gbar d => encR 18 d.toNat 0 0 0 2
  | .setwm a b sc => encR 18 0 a.toNat b.toNat sc.code 3
  | .waitwm a b sc => encR 18 0 a.toNat b.toNat sc.code 4
  | .waitt a => encR 18 0 a.toNat 0 0 5
  | .tspawn a b n => encR 19 0 a.toNat b.toNat n.toNat 0
  | .tdone => encR 19 0 0 0 0 1
  | .tirrev => encR 19 0 0 0 0 2
  | .tabort => encR 19 0 0 0 0 3
  | .tdomainOpen d a => encR 19 d.toNat a.toNat 0 0 4
  | .tdomainEnter d => encR 19 d.toNat 0 0 1 4
  | .tdomainClose d => encR 19 d.toNat 0 0 2 4
  | .scopy d a => encR 20 d.toNat a.toNat 0 0 0
  | .smap d a => encR 20 d.toNat a.toNat 0 0 1
  | .sput d a => encR 20 d.toNat a.toNat 0 0 2
  | .swait a => encR 20 0 a.toNat 0 0 3
  | .syscall i => encI 21 0 0 (i.toNat * 16)
  | .brk i => encI 21 0 0 (i.toNat * 16 + 1)
  | .getsr d i => encI 21 d.toNat 0 (i.toNat * 16 + 2)
  | .setsr a i => encI 21 0 a.toNat (i.toNat * 16 + 3)
  | .swapsr d a i => encI 21 d.toNat a.toNat (i.toNat * 16 + 4)
  | .tret => encR 22 0 0 0 0 0
  | .idle => encR 22 0 0 0 0 1
  | .tlbinvPage a b sc => encR 22 0 a.toNat b.toNat sc.code 2
  | .tlbinvAsid b sc => encR 22 0 0 b.toNat (8 + sc.code) 2
  | .tlbinvAll sc => encR 22 0 0 0 (16 + sc.code) 2
  | .cacheopIl a => encR 22 0 a.toNat 0 0 3
  | .cacheopIa => encR 22 0 0 0 0 4
  | .cacheopWb a => encR 22 0 a.toNat 0 0 5
  | .cacheopWbi a => encR 22 0 a.toNat 0 0 6
  | .kand d a b => encR 23 d.toNat a.toNat b.toNat 0 0
  | .kor d a b => encR 23 d.toNat a.toNat b.toNat 0 1
  | .kxor d a b => encR 23 d.toNat a.toNat b.toNat 0 2
  | .knot d a => encR 23 d.toNat a.toNat 0 0 3
  | .kpopc d a => encR 23 d.toNat a.toNat 0 0 4
  | .kfirst d a => encR 23 d.toNat a.toNat 0 0 5
  | .kset d a => encR 23 d.toNat a.toNat 0 0 6
  | .setvl d a r x => encI 24 d.toNat a.toNat (r.toNat * 16 + x.code)
  | .vsave a => encR 25 0 a.toNat 0 0 0
  | .vrest a => encR 25 0 a.toNat 0 0 1
  | .mshape d a b => encR 26 d.toNat a.toNat b.toNat 0 0
  | .mzero c => encR 26 c.toNat 0 0 0 1
  | .mlda d a b => encR 26 d.toNat a.toNat b.toNat 0 2
  | .mldaScale d a b q => encR 26 d.toNat a.toNat b.toNat q.code 2
  | .mldaff d a b => encR 26 d.toNat a.toNat b.toNat 0 3
  | .mldb d a b => encR 26 d.toNat a.toNat b.toNat 0 4
  | .mldbScale d a b q => encR 26 d.toNat a.toNat b.toNat q.code 4
  | .mldw d a b m => encR 26 d.toNat a.toNat b.toNat m.toNat 5
  | .mtmap d a => encR 26 d.toNat a.toNat 0 0 6
  | .mma c a b f => encR 26 c.toNat a.toNat b.toNat f.code 7
  | .mstc c a b f => encR 26 c.toNat a.toNat b.toNat f.code 8
  | .mmovcToVector d c b k => encR 26 d.toNat c.toNat b.toNat k.toNat 9
  | .mmovcToTile c a b k => encR 26 c.toNat a.toNat b.toNat k.toNat 10
  | .mcastTile d a => encR 26 d.toNat a.toNat 0 0 11
  | .mcastRows d a => encR 26 d.toNat a.toNat 0 0 12
  | .mwait => encR 26 0 0 0 0 13
  | .msave a => encR 26 0 a.toNat 0 0 14
  | .mrest a => encR 26 0 a.toNat 0 0 15
  | .vld h d a t => encV { op := 56, fn := 0, t := t, cv := h.cv, km := h.km.toNat, d := d.toNat, a := a.toNat }
  | .vlds h d a b t => encV { op := 56, fn := 1, t := t, cv := h.cv, km := h.km.toNat, d := d.toNat, a := a.toNat, b := b.field, imm := b.word }
  | .vldx h d a b t x => encV { op := 56, fn := 2, t := t, cv := h.cv, km := h.km.toNat, d := d.toNat, a := a.toNat, b := b.toNat, sub := x.code }
  | .vldff h d a t => encV { op := 56, fn := 3, t := t, cv := h.cv, km := h.km.toNat, d := d.toNat, a := a.toNat }
  | .vst h d a t => encV { op := 56, fn := 4, t := t, cv := h.cv, km := h.km.toNat, d := d.toNat, a := a.toNat }
  | .vsts h d a b t => encV { op := 56, fn := 5, t := t, cv := h.cv, km := h.km.toNat, d := d.toNat, a := a.toNat, b := b.field, imm := b.word }
  | .vstx h d a b t x => encV { op := 56, fn := 6, t := t, cv := h.cv, km := h.km.toNat, d := d.toNat, a := a.toNat, b := b.toNat, sub := x.code }
  | .vbpld cv d a n => encV { op := 57, fn := 0, t := .b, cv := cv, d := d.toNat, a := a.toNat, sub := n.toNat }
  | .vbpst cv d a n => encV { op := 57, fn := 1, t := .b, cv := cv, d := d.toNat, a := a.toNat, sub := n.toNat }
  | .vbpdot cv d a b t m n => encV { op := 57, fn := 2, t := t, cv := cv, d := d.toNat, a := a.toNat, b := b.toNat, sub := m.toNat * 16 + n.toNat }
  | .vbpcvtToplanes cv d a t n => encV { op := 57, fn := 3, t := t, cv := cv, d := d.toNat, a := a.toNat, sub := n.toNat }
  | .vbpcvtTopacked cv d a t n => encV { op := 57, fn := 3, t := t, cv := cv, d := d.toNat, a := a.toNat, sub := 256 + n.toNat }
  | .vadd h d a b t => encV { op := 58, fn := 0, t := t, cv := h.cv, km := h.km.toNat, d := d.toNat, a := a.toNat, b := b.field, imm := b.word }
  | .vsub h d a b t => encV { op := 58, fn := 1, t := t, cv := h.cv, km := h.km.toNat, d := d.toNat, a := a.toNat, b := b.field, imm := b.word }
  | .vmul h d a b t => encV { op := 58, fn := 2, t := t, cv := h.cv, km := h.km.toNat, d := d.toNat, a := a.toNat, b := b.field, imm := b.word }
  | .vmin h d a b t => encV { op := 58, fn := 5, t := t, cv := h.cv, km := h.km.toNat, d := d.toNat, a := a.toNat, b := b.field, imm := b.word }
  | .vmax h d a b t => encV { op := 58, fn := 6, t := t, cv := h.cv, km := h.km.toNat, d := d.toNat, a := a.toNat, b := b.field, imm := b.word }
  | .vand h d a b t => encV { op := 58, fn := 7, t := t, cv := h.cv, km := h.km.toNat, d := d.toNat, a := a.toNat, b := b.field, imm := b.word }
  | .vor h d a b t => encV { op := 58, fn := 8, t := t, cv := h.cv, km := h.km.toNat, d := d.toNat, a := a.toNat, b := b.field, imm := b.word }
  | .vxor h d a b t => encV { op := 58, fn := 9, t := t, cv := h.cv, km := h.km.toNat, d := d.toNat, a := a.toNat, b := b.field, imm := b.word }
  | .vshl h d a b t => encV { op := 58, fn := 10, t := t, cv := h.cv, km := h.km.toNat, d := d.toNat, a := a.toNat, b := b.field, imm := b.word }
  | .vshr h d a b t => encV { op := 58, fn := 11, t := t, cv := h.cv, km := h.km.toNat, d := d.toNat, a := a.toNat, b := b.field, imm := b.word }
  | .vsar h d a b t => encV { op := 58, fn := 12, t := t, cv := h.cv, km := h.km.toNat, d := d.toNat, a := a.toNat, b := b.field, imm := b.word }
  | .vadds h d a b t => encV { op := 58, fn := 13, t := t, cv := h.cv, km := h.km.toNat, d := d.toNat, a := a.toNat, b := b.field, imm := b.word }
  | .vsubs h d a b t => encV { op := 58, fn := 14, t := t, cv := h.cv, km := h.km.toNat, d := d.toNat, a := a.toNat, b := b.field, imm := b.word }
  | .vmulh h d a b t => encV { op := 58, fn := 3, t := t, cv := h.cv, km := h.km.toNat, d := d.toNat, a := a.toNat, b := b.toNat }
  | .vabsd h d a b t => encV { op := 58, fn := 15, t := t, cv := h.cv, km := h.km.toNat, d := d.toNat, a := a.toNat, b := b.toNat }
  | .vmadd h d a b c t => encV { op := 58, fn := 4, t := t, cv := h.cv, km := h.km.toNat, d := d.toNat, a := a.toNat, b := b.toNat, c := c.toNat }
  | .vwiden h d a t t2 => encV { op := 58, fn := 16, t := t, cv := h.cv, km := h.km.toNat, d := d.toNat, a := a.toNat, t2 := t2.code }
  | .vnarrow h d a t t2 sat => encV { op := 58, fn := 17, t := t, cv := h.cv, km := h.km.toNat, d := d.toNat, a := a.toNat, t2 := t2.code, sub := sat.toNat }
  | .vcmp h d a b t c => encV { op := 58, fn := 18, t := t, cv := h.cv, km := h.km.toNat, d := d.toNat, a := a.toNat, b := b.field, imm := b.word, sub := c.code }
  | .vfadd h d a b t => encV { op := 59, fn := 0, t := t, cv := h.cv, km := h.km.toNat, d := d.toNat, a := a.toNat, b := b.field, imm := b.word }
  | .vfsub h d a b t => encV { op := 59, fn := 1, t := t, cv := h.cv, km := h.km.toNat, d := d.toNat, a := a.toNat, b := b.field, imm := b.word }
  | .vfmul h d a b t => encV { op := 59, fn := 2, t := t, cv := h.cv, km := h.km.toNat, d := d.toNat, a := a.toNat, b := b.field, imm := b.word }
  | .vfmin h d a b t => encV { op := 59, fn := 6, t := t, cv := h.cv, km := h.km.toNat, d := d.toNat, a := a.toNat, b := b.field, imm := b.word }
  | .vfmax h d a b t => encV { op := 59, fn := 7, t := t, cv := h.cv, km := h.km.toNat, d := d.toNat, a := a.toNat, b := b.field, imm := b.word }
  | .vfma h d a b c t m => encV { op := 59, fn := 3, t := t, cv := h.cv, km := h.km.toNat, d := d.toNat, a := a.toNat, b := b.toNat, c := c.toNat, sub := m.code }
  | .vfdiv h d a b t => encV { op := 59, fn := 4, t := t, cv := h.cv, km := h.km.toNat, d := d.toNat, a := a.toNat, b := b.toNat }
  | .vfsqrt h d a t => encV { op := 59, fn := 5, t := t, cv := h.cv, km := h.km.toNat, d := d.toNat, a := a.toNat }
  | .vfcmp h d a b t c => encV { op := 59, fn := 8, t := t, cv := h.cv, km := h.km.toNat, d := d.toNat, a := a.toNat, b := b.field, imm := b.word, sub := c.code }
  | .vfcvt h d a t t2 => encV { op := 59, fn := 9, t := t, cv := h.cv, km := h.km.toNat, d := d.toNat, a := a.toNat, t2 := t2.code }
  | .vsf h d a t g => encV { op := 59, fn := 10, t := t, cv := h.cv, km := h.km.toNat, d := d.toNat, a := a.toNat, sub := g.code }
  | .vredsum h d a t => encV { op := 60, fn := 0, t := t, cv := h.cv, km := h.km.toNat, d := d.toNat, a := a.toNat }
  | .vredmin h d a t => encV { op := 60, fn := 1, t := t, cv := h.cv, km := h.km.toNat, d := d.toNat, a := a.toNat }
  | .vredmax h d a t => encV { op := 60, fn := 2, t := t, cv := h.cv, km := h.km.toNat, d := d.toNat, a := a.toNat }
  | .vfredsum h d a t t2 => encV { op := 60, fn := 3, t := t, cv := h.cv, km := h.km.toNat, d := d.toNat, a := a.toNat, t2 := t2.code }
  | .vfredmin h d a t t2 => encV { op := 60, fn := 4, t := t, cv := h.cv, km := h.km.toNat, d := d.toNat, a := a.toNat, t2 := t2.code }
  | .vfredmax h d a t t2 => encV { op := 60, fn := 5, t := t, cv := h.cv, km := h.km.toNat, d := d.toNat, a := a.toNat, t2 := t2.code }
  | .vscan h d a c t t2 => encV { op := 60, fn := 6, t := t, cv := h.cv, km := h.km.toNat, d := d.toNat, a := a.toNat, c := c.toNat, t2 := t2.code }
  | .vslideup h d a b t => encV { op := 61, fn := 0, t := t, cv := h.cv, km := h.km.toNat, d := d.toNat, a := a.toNat, b := b.field, imm := b.word }
  | .vslidedn h d a b t => encV { op := 61, fn := 1, t := t, cv := h.cv, km := h.km.toNat, d := d.toNat, a := a.toNat, b := b.field, imm := b.word }
  | .vgather h d a b t x => encV { op := 61, fn := 2, t := t, cv := h.cv, km := h.km.toNat, d := d.toNat, a := a.toNat, b := b.toNat, sub := x.code }
  | .vcompress h d a t => encV { op := 61, fn := 3, t := t, cv := h.cv, km := h.km.toNat, d := d.toNat, a := a.toNat }
  | .vexpand h d a t => encV { op := 61, fn := 4, t := t, cv := h.cv, km := h.km.toNat, d := d.toNat, a := a.toNat }
  | .vmerge h d a b t => encV { op := 61, fn := 5, t := t, cv := h.cv, km := h.km.toNat, d := d.toNat, a := a.toNat, b := b.field, imm := b.word }
  | .vbcast h d a t => encV { op := 61, fn := 6, t := t, cv := h.cv, km := h.km.toNat, d := d.toNat, a := a.field, imm := a.word }
  | .vmvx h d a t => encV { op := 61, fn := 7, t := t, cv := h.cv, km := h.km.toNat, d := d.toNat, a := a.toNat }
  | .vmvs h d a b t => encV { op := 61, fn := 8, t := t, cv := h.cv, km := h.km.toNat, d := d.toNat, a := a.toNat, b := b.field, imm := b.word }
  | .vmov h d a t => encV { op := 61, fn := 9, t := t, cv := h.cv, km := h.km.toNat, d := d.toNat, a := a.toNat }
  | .viota h d t => encV { op := 61, fn := 10, t := t, cv := h.cv, km := h.km.toNat, d := d.toNat }
  | .vbq h d a c t t2 => encV { op := 62, fn := 0, t := t, cv := h.cv, km := h.km.toNat, d := d.toNat, a := a.toNat, c := c.toNat, t2 := t2.code }
  | .vbdq h d a t t2 => encV { op := 62, fn := 1, t := t, cv := h.cv, km := h.km.toNat, d := d.toNat, a := a.toNat, t2 := t2.code }
  | _ => []

/-- The leading word of an instruction, the word R249 leaves in TVAL. -/
def leadWord (i : Instr) : Word := BitVec.ofNat 64 ((encode i).headD 0)

/-- The length in bytes of an instruction (R282). -/
def Instr.length (i : Instr) : Nat := 4 * (encode i).length

/-- Decode what the encoder wrote. -/
def decodeWords (ws : List Nat) : Except DecodeRefusal Instr :=
  decode (ws.headD 0) ((ws.drop 1).headD 0) ((ws.drop 2).headD 0)

/-- The bytes of an instruction in memory (R283). -/
def encodeBytes (i : Instr) : List Byte := (encode i).flatMap (bytesOfNat 4)

end Sys2Proof
end

