-- ==== Sys2Proof/Machine/State.lean ====
section
/-!
DEFINITION. The state of the machine as plain data, the reasons a step stops, and the state after reset
(spec/02_state.md R35 to R63 and the rules named at each field; INVENTORY.md lists every piece).
Harts, cores, islands, partitions and the like are kept in lists of (number, content); a number that is not
listed has the default content, which is the content after power-on reset.
-/
namespace Sys2Proof.Machine

/-- Why the machine stops with a fault. -/
inductive Fault where
  /-- The clock has stopped (a thermal trip 0xDD or a power-rail fault 0xDE, R257, R272): raised by `step` alone, while
  `State.clockStopped` holds and no power-on reset arrives. Safe: nothing runs after it. -/
  | clockStopped
  deriving DecidableEq, Repr

/-- Why the model has no meaning to give. -/
inductive Refusal where
  /-- The instruction has no meaning in the model; raised by an arm of `exec`. Safe. -/
  | notModelled (mnemonic : String)
  deriving DecidableEq, Repr

/-- The modes of R36. -/
inductive Mode where
  | user | supervisor | monitor
  deriving DecidableEq, Repr

/-- A key of a task (R208): a timestamp with an identifier, or pending with the parent's key and child index. -/
inductive Key where
  | ident (ts id : Nat)
  | pending (ts : Nat) (parent : Key) (child : Nat)
  deriving DecidableEq, Repr

/-- The states of a task entry (R214); a free entry is not listed. -/
inductive TState where
  | ready | running | waiting | held | irrev | finished
  deriving DecidableEq, Repr

/-- A fault held in a task entry (R209, R223). -/
structure HeldFault where
  cause : Byte
  tval : Word
  pc : Word
  deriving DecidableEq, Repr

/-- A unit of conflict tracking (R215): the line at `base`, or the 8-byte word on a page with FG set. -/
structure TUnit where
  base : Nat
  word : Bool
  deriving DecidableEq, Repr

/-- A pinned translation (R177): the virtual and the physical 4 KiB page, FG, and the leaf's size, ASID and G, by which
an invalidation names it (R179, R182); an untranslated page has no ASID. -/
structure Pin where
  vpage : Nat
  ppage : Nat
  fg : Bool
  log2 : Nat
  asid : Option (BitVec 12)
  global : Bool
  deriving DecidableEq, Repr

/-- A task entry (R209, R214, R215). -/
structure TaskEntry where
  /-- The model's own name of the entry. -/
  uid : Nat
  part : Nat
  dom : Nat
  /-- The island whose task unit or spill region holds it. -/
  island : Nat
  spilled : Bool
  key : Key
  fn : Word
  args : List Word
  st : TState
  /-- WAITING entered from IRREV (R214). -/
  wasIrrev : Bool
  hart : Option Nat
  parent : Option Nat
  children : Nat
  fault : Option HeldFault
  flags : BitVec 6
  /-- The buffered bytes by physical address (R215). -/
  buf : List Host.Cell
  /-- The lines of the core's pool its buffered bytes occupy. -/
  rows : List Nat
  rowCore : Nat
  reads : List TUnit
  writes : List TUnit
  /-- Lines written directly at their home by an overflow while irrevocable (R222). -/
  homeLines : List Nat
  /-- The translations its buffered bytes were written under (R181). -/
  pins : List Pin
  deriving DecidableEq, Repr

/-- What ENTER captured (R204, R394). -/
structure EnterCtx where
  d : Reg
  x2 : Word
  x3 : Word
  rm : BitVec 3
  nbv : BitVec 8
  srseed : Word
  mode : Mode
  pc : Word
  dom : Nat
  deriving DecidableEq, Repr

/-- A stream command in the queue (R156, R157): descriptor fields, the kicking hart's translation and slot, and its
promise. -/
structure StreamCmd where
  op : Nat
  mbx : Bool
  cnt1 : Nat
  cnt2 : Nat
  len : Nat
  src : Word
  dst : Word
  mbxa : Word
  sstr1 : Word32
  dstr1 : Word32
  sstr2 : Word32
  dstr2 : Word32
  descAddr : Word
  ptbase : Word
  mode : Mode
  hart : Nat
  promise : Word
  irrev : Bool
  deriving DecidableEq, Repr

/-- Why a hart is not ready (R20), with what the completing event needs. -/
inductive Wait where
  /-- Until the vector queue has room (R19). -/
  | vqRoom
  /-- Until the matrix queue has room (R19). -/
  | mqRoom
  /-- Until both queues are empty (R39). -/
  | queues
  | vqEmpty
  | mqEmpty
  /-- Until the exposed convoy has entered the memory pipeline (R178). -/
  | exposed
  /-- A vector or matrix memory instruction behind a FENCE.VV, until the older accesses of the vector side have been
  performed (R192 case 9, R196). -/
  | vvFence
  /-- Until the scalar destination of a vector instruction or an MCAST mask is written (R115, R140). -/
  | dest
  /-- Until the core's engine queue has room (R159): the destination, the checked command, the instruction's word. -/
  | engineRoom (d : Reg) (k : StreamCmd) (w : Word)
  /-- Until the cycle after the instruction's destination was written (R115). -/
  | written (at_ : Nat)
  /-- A hart without a task, until the protected tasks in its way have committed or aborted (R217); a TSPAWN that found no
  room, until its task is the earliest (R210). -/
  | conflict
  /-- A TSPAWN, until the steward has spilled an entry (R184, R210). -/
  | unitRoom
  /-- Until the queued instructions up to a place in the order of both queues have completed: one of them still writes a
  register or a line that the checks of the waiting instruction read (R114, R138, R139). -/
  | older (seq : Nat)
  /-- Until the mask of an MCAST that the instruction reads or overwrites is written (R140). -/
  | castMask
  /-- An invalidation, until accesses under a pinned translation have been performed; when it looks again (R181). -/
  | shootdown (recheck : Nat)
  /-- A stalled access to a page under migration, and when its leaf is read again (R184). -/
  | migration (va : Word) (kind : AccKind) (recheck : Nat)
  | swait (t : Word)
  | send (dest : Nat) (cls : Bool) (addr : Word) (len : Nat)
  /-- A RECV, with its leading word for the TVAL of a receive cycle (R249). -/
  | recv (d : Reg) (addr filter : Word) (cls : Bool) (w : Word)
  | gbar (d : Reg)
  | idle
  | waitt (t : Word)
  | waitwm (addr bound : Word)
  | fence (dir : Dir)
  | mwait
  | lane (d : Reg) (avl : Word) (regs : BitVec 2) (ew : Size) (groups : BitVec 4)
  | localsplit (d : Reg) (v : Word)
  | tdone
  deriving DecidableEq, Repr

/-- Why and whether a hart or an engine is frozen or halted (R255, R256, R259). -/
structure Freeze where
  /-- Frozen for a violation (0xD0), with the cause and TVAL it takes on release. -/
  violation : Option (Byte × Word) := none
  /-- Frozen by a FREEZE write or by function-level reset. -/
  byFreeze : Bool := false
  /-- Frozen because a write was lost (0xD6). -/
  lost : Bool := false
  /-- Halted by uncorrectable data (0xD1, 0xD3). -/
  halted : Bool := false
  deriving DecidableEq, Repr

/-- Monitor mode's own trap registers (R248, R398). -/
structure MonTrap where
  /-- The causes of the monitor traps being handled, the innermost first: each from the trap that enters monitor mode until
  the TRET that returns from it (R398). -/
  traps : List Byte := []
  pc : Word := 0
  cause : Byte := 0
  tval : Word := 0
  mode : Mode := .user
  ie : Bool := false
  deriving DecidableEq, Repr

/-- A monitor trap is being handled (R398). -/
def MonTrap.handling (m : MonTrap) : Bool := !m.traps.isEmpty

/-- A message in an inbox (R241, R242): its bytes, the sender's position and member index, and whether the sender is
a member of the receiver's own gang. -/
structure Message where
  bytes : List Byte
  sender : Nat
  member : Option Nat
  own : Bool
  deriving DecidableEq, Repr

/-- GANGCTL (R61). -/
structure GangCtl where
  valid : Bool := false
  gang : BitVec 16 := 0
  size : BitVec 6 := 0
  member : BitVec 6 := 0
  deriving DecidableEq, Repr

/-- The integer operation of a vector element (R411). -/
inductive IntFn where
  | add | sub | mul | mulh | min | max | and | or | xor | shl | shr | sar | adds | subs | absd
  deriving DecidableEq, Repr

/-- The floating-point operation of a vector element (R414). -/
inductive FpFn where
  | add | sub | mul | div | sqrt | min | max
  deriving DecidableEq, Repr

/-- The logic operation of a mask instruction (R363). -/
inductive KFn where
  | and | or | xor
  deriving DecidableEq, Repr

/-- The selection of a minimum or maximum reduction, or a sum (R418). -/
inductive RedFn where
  | sum | min | max
  deriving DecidableEq, Repr

/-- A second operand of a queued instruction: a v register, a captured scalar, or IMM32 (R291). -/
inductive VArg where
  | vreg (r : Reg)
  | scalar (v : Word)
  | imm (i : Word32)
  deriving DecidableEq, Repr

/-- How a memory member forms the address of element i (R403, R408). -/
inductive VAddr where
  | unit (base : Word)
  | strided (base stride : Word)
  | indexed (base : Word) (r : Reg) (iw : Size)
  deriving DecidableEq, Repr

/-- What a queued vector instruction does, with the scalar operands it captured. -/
inductive VAct where
  | load (d : Reg) (t : Ty) (ad : VAddr)
  | loadFF (d : Reg) (t : Ty) (ad : VAddr)
  | store (s : Reg) (t : Ty) (ad : VAddr)
  | planeLoad (d : Reg) (base : Word) (wd : Nat)
  | planeStore (s : Reg) (base : Word) (wd : Nat)
  | planeDot (d a b : Reg) (t : Ty) (wa wb : Nat)
  | toPlanes (d a : Reg) (t : Ty) (wd : Nat)
  | toPacked (d a : Reg) (t : Ty) (wd : Nat)
  | int (fn : IntFn) (d a : Reg) (b : VArg) (t : Ty)
  | madd (d a b c : Reg) (t : Ty)
  | widen (d a : Reg) (t t2 : Ty)
  | narrow (d a : Reg) (t t2 : Ty) (sat : Bool)
  | cmp (d : BitVec 3) (a : Reg) (b : VArg) (t : Ty) (c : VCond)
  | fp (fn : FpFn) (d a : Reg) (b : VArg) (t : Ty)
  | fma (d a b c : Reg) (t : Ty) (form : FmaForm)
  | fcmp (d : BitVec 3) (a : Reg) (b : VArg) (t : Ty) (c : FCond)
  | fcvt (d a : Reg) (t t2 : Ty)
  | sf (d a : Reg) (t : Ty) (fn : SfFn)
  | red (fn : RedFn) (d a : Reg) (t : Ty) (acc : Word)
  | fred (fn : RedFn) (d a : Reg) (t t2 : Ty) (acc : Word)
  | scan (d a c : Reg) (t t2 : Ty) (acc : Word)
  | slideUp (d a : Reg) (amount : Word) (t : Ty)
  | slideDn (d a : Reg) (amount : Word) (t : Ty)
  | gather (d a b : Reg) (t : Ty) (iw : Size)
  | compress (d a : Reg) (t : Ty)
  | expand (d a : Reg) (t : Ty)
  | merge (d a : Reg) (b : VArg) (t : Ty)
  | bcast (d : Reg) (v : VArg) (t : Ty)
  | moveX (d : Reg) (v : Word) (t : Ty)
  | moveS (d a : Reg) (index : Word) (t : Ty)
  | move (d a : Reg) (t : Ty)
  | iota (d : Reg) (t : Ty)
  | quant (d a c : Reg) (t t2 : Ty)
  | dequant (d a : Reg) (t t2 : Ty)
  | kop (fn : KFn) (d a b : BitVec 3)
  | knot (d a : BitVec 3)
  | kset (d : BitVec 3) (n : Word)
  | kpopc (d : Reg) (a : BitVec 3)
  | kfirst (d : Reg) (a : BitVec 3)
  | save (base : Word)
  | restore (base : Word)
  | setwm (addr value : Word) (sc : Scope)
  deriving DecidableEq, Repr

/-- The pipes of R111 and the ports a trace record names (R281). -/
inductive Pipe where
  | ls | alu | mf | px | none
  deriving DecidableEq, Repr

/-- What a vector or matrix instruction captures when it enters its queue (R39, R400). -/
structure Captured where
  vl : Nat := 0
  /-- Which setting of VL it comes from (R108). -/
  vlSeq : Nat := 0
  vstart : Nat := 0
  lanes : Nat := 0
  regs : BitVec 2 := 0
  ew : BitVec 2 := 0
  nbv : BitVec 8 := 0
  rm : BitVec 3 := 0
  seed : Word := 0
  /-- Which setting of SRSEED it comes from (R76). -/
  seedSeq : Nat := 0
  /-- TSHAPE and SHORT, for a matrix instruction (R127), and which write of TSHAPE they come from (R130). -/
  kb : Nat := 0
  n : Nat := 0
  m : Nat := 0
  short : Bool := false
  shapeSeq : Nat := 0
  /-- The mode and PTBASE its addresses are translated under. -/
  mode : Mode := .user
  ptbase : Word := 0
  deriving DecidableEq, Repr

/-- A member of a queued convoy. -/
structure VMember where
  act : VAct
  km : BitVec 3
  cap : Captured
  deriving DecidableEq, Repr

/-- What a convoy that has been performed in part began with: the registers that its elements read, all of which are read
before any is written (R328), its first element, and the elements it has loaded. -/
structure Begun where
  v : Vector (BitVec 65536) 32
  k : Vector (BitVec 8192) 8
  lo : Nat
  got : List (Nat × List Byte)
  deriving DecidableEq, Repr

/-- A queued convoy (R110): its members, the PC of its head, the pinned translations of its LS member (R177), and its
place in the order of both queues: the hart's count of queued instructions before it, whose low bits are its TAG
(R281). Accesses before the place `after` precede its own: those before the last FENCE.VV (R196). -/
structure Convoy where
  pc : Word
  members : List VMember
  pins : List Pin
  seq : Nat
  after : Nat
  /-- Whether it touches memory. -/
  mem : Bool
  /-- Whether it is exposed to a shootdown (R178). -/
  exposed : Bool
  /-- The first element not yet performed (R179). -/
  start : Nat
  /-- When its elements from `start` on are probed again, before it issues (R179, R180, R184). -/
  reprobe : Option Nat
  /-- A first-fault load loads the elements below it (R108); no other convoy is limited. -/
  limit : Nat := 16384
  /-- Set once elements have been performed ahead of the others, at a shootdown (R179). -/
  begun : Option Begun := none
  deriving DecidableEq, Repr

/-- The scalar destination of a vector instruction (R115). -/
structure ScalarDest where
  isF : Bool
  reg : Reg
  value : Option Word
  at_ : Nat
  /-- A pre-emption that arrives meanwhile has the instruction run again (KPOPC, KFIRST: R362). -/
  redo : Bool
  /-- It is a reduction or a scan, which an abort lets complete (R218). -/
  folds : Bool
  deriving DecidableEq, Repr

/-- A trace record waiting for its cycle (R280, R281). -/
structure TraceEvent where
  at_ : Nat
  pipe : Nat
  slot : Nat
  kind : Nat
  member : Nat
  tag : Nat
  deriving DecidableEq, Repr

/-- The convoy in flight (R113): when it issued, when its LS member starts, when it drains. -/
structure Flight where
  convoy : Convoy
  issued : Nat
  lsStart : Nat
  lsBeats : Nat
  drains : Nat
  /-- The elements of a store not yet performed, once its drain has begun: the others waited for nothing (R217). -/
  todo : Option (List Nat)
  /-- The scalar destination of a member, with its value and when it is written (R115). -/
  dest : Option ScalarDest
  /-- The trace records its pipes have still to emit (R280). -/
  trace : List TraceEvent := []
  deriving DecidableEq, Repr

/-- What a queued matrix instruction does (R121). -/
inductive MAct where
  | zero (c : BitVec 3)
  | lda (d : BitVec 2) (base stride : Word) (rows : Nat)
  | ldaFF (d : BitVec 2) (base stride : Word) (rows : Nat)
  | ldaScale (d : BitVec 2) (base stride : Word) (q : Ty)
  | ldb (row : Nat) (base stride : Word)
  | ldbScale (row : Nat) (base stride : Word) (q : Ty)
  | ldw (d : BitVec 2) (m0 kb0 : Word) (tm : BitVec 2)
  | tmap (d : BitVec 2) (image : BitVec 512)
  | mma (c : BitVec 3) (a : BitVec 2) (row : Nat) (f : Ty)
  | stc (c : BitVec 3) (base stride : Word) (f : Ty)
  | toVector (d : Reg) (c : BitVec 3) (row0 : Nat) (k : BitVec 3)
  | toTile (c : BitVec 3) (a : Reg) (row0 : Nat) (k : BitVec 3)
  | castTile (d : Reg) (a : BitVec 2)
  | castRows (d : Reg) (row : Nat)
  | save (base : Word)
  /-- MREST, with the tensor maps that its checks have read (R381). -/
  | restore (base : Word) (maps : List (BitVec 512))
  deriving DecidableEq, Repr

/-- An entry of the matrix queue (R138, R139); pins, seq and after as in a convoy. -/
structure MEntry where
  pc : Word
  act : MAct
  cap : Captured
  pins : List Pin
  seq : Nat
  after : Nat
  mem : Bool
  /-- The last cycle of an instruction the engine has started (R135). -/
  ends : Option Nat
  /-- The rows of a store not yet performed, once it has begun (R217). -/
  todo : Option (List Nat)
  /-- When an MLDAFF is probed again, before it starts (R130, R184). -/
  reprobe : Option Nat := none
  deriving DecidableEq, Repr

/-- A late vector fault waiting for the scalar boundary (R179). -/
structure LateFault where
  cause : Byte
  tval : Word
  start : Nat
  pc : Word
  deriving DecidableEq, Repr

/-- The loop buffer of a hart (R116): the captured body, its instructions by their addresses with the line each begins and
ends in, and whether an invalidation of the instruction cache has reached it, so that it is released at the next
iteration (R358). -/
structure LoopBody where
  start : Word
  end_ : Word
  code : List (Word × List Nat)
  lines : List Nat
  released : Bool
  deriving DecidableEq, Repr

/-- A hart (R35, R40 to R63). -/
structure Hart where
  x : Vector Word 32 := Vector.replicate 32 0
  f : Vector Word 32 := Vector.replicate 32 0
  pc : Word := 0
  mode : Mode := .user
  started : Bool := false
  /-- Stopped by HARTCTL with its registers kept (R63). -/
  stopped : Bool := false
  wait : Option Wait := none
  freeze : Freeze := {}
  vl : BitVec 14 := 0
  vstart : BitVec 14 := 0
  vlmax : BitVec 14 := 0
  /-- How often VL has been set by anything but a first-fault load (R108). -/
  vlSeq : Nat := 0
  lanes : BitVec 5 := 0
  regs : BitVec 2 := 0
  ew : BitVec 2 := 0
  /-- FPCTL [10:5]: SAT, NV, DZ, OF, UF, NX from bit 5 down (R47). -/
  flags : BitVec 6 := 0
  rm : BitVec 3 := 0
  nbv : BitVec 8 := 3
  srseed : Word := 0
  /-- How often SRSEED has been set by anything but the advance of a draw (R76, R108). -/
  seedSeq : Nat := 0
  lc : BitVec 32 := 0
  /-- The loop records, newest first: (start, end) (R374). -/
  loops : List (Word × Word) := []
  /-- The captured loop body (R116). -/
  body : Option LoopBody := none
  instret : Word := 0
  tmode : Bool := false
  dom : BitVec 4 := 0
  cfrid : Option Word32 := none
  enter : Option EnterCtx := none
  /-- The task entry the hart holds (R212). -/
  task : Option Nat := none
  /-- The PC and mode of a hart that took a trap of class 0xC0 to 0xFF while its task waits or is held: its handler
  runs, and the entry's state is left unchanged (R223). -/
  aside : Option (Word × Mode) := none
  late : Bool := false
  ms : BitVec 2 := 0
  vs : BitVec 2 := 0
  pmode : BitVec 2 := 0
  pie : Bool := false
  ie : Bool := false
  tvec : Word := 0
  epc : Word := 0
  causeCode : Byte := 0
  causeOrig : Byte := 0
  tval : Word := 0
  vepc : Word := 0
  scratch : Word := 0
  ptbase : Word := 0
  gang : GangCtl := {}
  prio : BitVec 2 := 0
  mon : MonTrap := {}
  /-- The lane groups held under the hart's grant (R59). -/
  groups : BitVec 4 := 0
  ipend : Word := 0
  imask : Word := 0
  timecmp : Word := BitVec.allOnes 64
  inbox0 : List Message := []
  inbox1 : List Message := []
  /-- Arrived at its gang's barrier (R31, R245). -/
  arrived : Bool := false
  /-- The barriers its gang had completed when it arrived (the second doubleword of barrier state, R238). -/
  barrierCount : Word := 0
  /-- The promises of this slot's failed stream commands that no SWAIT has reported (R163). -/
  failed : List Word := []
  /-- The hart's TSPAWNs outside task mode since the domain was last empty, by domain (R395). -/
  seeded : List (Nat × Nat) := []
  /-- Pending events for the hart's boundary: pre-emption, stop, a trap of a debug release (0xF2), a late vector
  fault. -/
  preemptReq : Bool := false
  stopReq : Bool := false
  boundaryTrap : Option Byte := none
  lateFault : Option LateFault := none
  /-- The PC and INSTRET of the instruction at which a trigger of ACTION 2 froze the island: the hart passes the trigger
  there once released (R278). -/
  passed : Option (Word × Word) := none
  /-- Stopped by the context port for a pre-emption (R254). -/
  preempted : Bool := false
  /-- Has written GEXIT and is unloaded at its IDLE (R235). -/
  exitAsked : Bool := false
  v : Vector (BitVec 65536) 32 := Vector.replicate 32 0
  k : Vector (BitVec 8192) 8 := Vector.replicate 8 0
  vq : List Convoy := []
  flight : Option Flight := none
  /-- When the last convoy drained; the next issues in the cycle after it (R113). -/
  lastDrain : Nat := 0
  sdest : Option ScalarDest := none
  /-- The convoy of a late vector fault (R180). -/
  heldConvoy : Option Convoy := none
  /-- How far SRSEED stood past the seed of the held convoy when the fault was taken: what its own draws and those of
  younger instructions had advanced it by (R76). -/
  heldAdvance : Word := 0
  mq : List MEntry := []
  /-- The hart's count of queued vector and matrix instructions (R281). -/
  queued : Nat := 0
  /-- That count at the last FENCE.VV (R196). -/
  vvFence : Nat := 0
  /-- An MCAST of this hart whose mask is not yet written: the register (R140). -/
  castMask : Option (Reg × Word) := none
  /-- The x, f and v registers that hold uncorrectable data (R258, R259). -/
  badX : BitVec 32 := 0
  badF : BitVec 32 := 0
  badV : BitVec 32 := 0
  deriving DecidableEq, Repr

/-- One cached translation (R175): the page and its size exponent, its tag, and the leaf's fields. -/
structure TlbEntry where
  vpage : Nat
  log2 : Nat
  ppage : Nat
  asid : BitVec 12
  global : Bool
  r : Bool
  w : Bool
  x : Bool
  u : Bool
  d : Bool
  fg : Bool
  deriving DecidableEq, Repr

/-- The structures of R175 in front of a core's shared TLB, each entry of which names the one it stands in: the micro-TLB
of a hart slot, a bank of the gather TLB of a lane group, the unit-stride register of a lane group; `shared` stands for
an agent that asks the shared TLB itself. -/
inductive TlbPort where
  | slot (n : Nat)
  | gather (group bank : Nat)
  | unit (group : Nat)
  | shared
  deriving DecidableEq, Repr

/-- A line of an instruction cache, which is not kept coherent (R143, R197): its number, PA div 64, and its bytes. -/
structure CodeLine where
  line : Nat
  bytes : List Byte
  deriving DecidableEq, Repr

/-- The states of a line in its directory (R148); a line with no entry is invalid everywhere. -/
inductive Mesi where
  | modified | exclusive | shared
  deriving DecidableEq, Repr

/-- Who may hold a copy of a line (R148): the L2 portion of a core, the L1D of a core that has no L2 portion, an I/O
gateway, a peer module. -/
inductive Sharer where
  | l2 (c : Nat)
  | l1d (c : Nat)
  | gateway
  | peer (m : Nat)
  deriving DecidableEq, Repr

/-- A directory entry (R148). -/
structure DirEntry where
  line : Nat
  state : Mesi
  sharers : List Sharer
  deriving DecidableEq, Repr

/-- The lines a core's data caches hold (R143, R145): in its L1D, and in its L2 portion with the scalar-presence bit. -/
structure CoreCache where
  l1d : List Nat := []
  l2 : List (Nat × Bool) := []
  deriving DecidableEq, Repr

/-- The lines that an island's LLC slice holds, each with whether it is dirty, and its directory slice (R25, R148). -/
structure HomeCache where
  llc : List (Nat × Bool) := []
  dir : List DirEntry := []
  deriving DecidableEq, Repr

/-- Where copies of cacheable lines stand (R145, R148), by core and by island. They are coherent, so every byte has the
one value that `State.mem` gives. -/
structure Caches where
  cores : List (Nat × CoreCache) := []
  homes : List (Nat × HomeCache) := []
  deriving DecidableEq, Repr

/-- How a command ended, waiting for its mailbox (R160, R165). -/
inductive StreamEnd where
  | complete | pageFault | uncorrectable (pa : Nat) | violation (pa : Nat)
  deriving DecidableEq, Repr

/-- The command in progress: how it will end, the destination words written, and when (R161). -/
structure StreamRun where
  cmd : StreamCmd
  result : StreamEnd
  words : Nat
  ends : Nat
  deriving DecidableEq, Repr

/-- A stream engine (R156, R255). -/
structure Engine where
  queue : List StreamCmd := []
  running : Option StreamRun := none
  /-- The promise of the command kicked last (R161). -/
  lastPromise : Word := 0
  freeze : Freeze := {}
  /-- A violating command ends without its mailbox on release (R160). -/
  violating : Option StreamRun := none
  /-- When an access that stalls at a page under migration is tried again (R184). -/
  recheck : Nat := 0
  /-- The engine's buffers hold a parity error, which the next command consumes (R258). -/
  badBuffer : Bool := false
  deriving DecidableEq, Repr

/-- An MCAST delivery in flight to a member core (R140). -/
structure Delivery where
  sender : Nat
  target : Nat
  member : Nat
  /-- A tile with its sidecar, or the bytes of rows by their offset in the window, and of their sidecars. -/
  tile : Option (BitVec 2 × BitVec 32768 × BitVec 2048)
  cells : List Host.Cell
  sides : List Host.Cell
  deriving DecidableEq, Repr

/-- The trace unit of a core (R280, R281). -/
structure Trace where
  ctl : Word := 0
  base : Word := 0
  size : Word := 0
  head : Nat := 0
  tail : Word := 0
  truncated : Bool := false
  lost : Nat := 0
  lastAt : Nat := 0
  pending : List TraceEvent := []
  deriving DecidableEq, Repr

/-- A core (R35, R43, R50, R59, R60, R124). -/
structure Core where
  lanepart : BitVec 16 := 0
  split : BitVec 3 := 0
  cycleBase : Nat := 0
  a : Vector (BitVec 32768) 4 := Vector.replicate 4 0
  asc : Vector (BitVec 2048) 4 := Vector.replicate 4 0
  c : Vector (BitVec 32768) 8 := Vector.replicate 8 0
  tm : Vector (BitVec 512) 4 := Vector.replicate 4 0
  kb : BitVec 8 := 0
  n : BitVec 6 := 0
  m : BitVec 6 := 0
  short : Bool := false
  /-- How often TSHAPE has been written anew, by MSHAPE, MREST or a write of it (R130). -/
  shapeSeq : Nat := 0
  /-- The B-store sidecars: byte 0x2000 × slice + 2 × row + half (R124), listed where not zero. -/
  bsc : List Host.Cell := []
  engine : Engine := {}
  deliveries : List Delivery := []
  /-- The shared TLB (R175). -/
  tlb : List TlbEntry := []
  /-- The structures in front of it (R175). -/
  small : List (TlbPort × TlbEntry) := []
  /-- The L1I (R143). -/
  l1i : List CodeLine := []
  lastSlot : Option Nat := none
  disabled : List Nat := []
  clockLowered : Bool := false
  arrayFree : Nat := 0
  loadFree : Nat := 0
  portFree : Nat := 0
  /-- When each C tile written by an MMA can be read (R135). -/
  tileReady : List (Nat × Nat) := []
  /-- The rows of tiles and sidecars that hold uncorrectable data: A tiles 0 to 3, A sidecars 4 to 7, C tiles 8 to 15,
  with the row (R258, R259). -/
  badTiles : List (Nat × Nat) := []
  /-- The 8-byte words of the B-store sidecars that hold uncorrectable data, by the number of their first byte (R258). -/
  badSides : List Nat := []
  /-- A beat on the core's causeway has a parity error, which the next memory instruction consumes (R258). -/
  badBeat : Bool := false
  trace : Trace := {}
  deriving DecidableEq, Repr

/-- A launch packet (R229). -/
structure Packet where
  level : Nat
  size : Nat
  lgroups : Nat
  hpc : Nat
  tileharts : Nat
  srows : Nat
  brows : Nat
  pc : Word
  arg0 : Word
  arg1 : Word
  save : Word
  cookie : Word
  stack : Word
  deriving DecidableEq, Repr

/-- Where a gang stands. -/
inductive GangPhase where
  | waiting | running | stopping
  deriving DecidableEq, Repr

/-- A completion record that waits for a page under migration (R184, R230): the slot and the block of its queue, and
the fields of the record. -/
structure Completion where
  slot : Nat
  qcb : Nat
  cookie : Word
  status : Nat
  code : Nat
  gang : Nat
  preempts : Nat
  migrates : Nat
  deriving DecidableEq, Repr

/-- A gang-table entry (R234, R236, R238). -/
structure Gang where
  packet : Packet
  slot : Nat
  qcb : Nat
  ringIndex : Nat
  ptroot : Word
  phase : GangPhase
  admitted : Nat
  waited : Nat
  ran : Nat
  /-- The harts of the launch that are loaded: (p + 64c, hart key). -/
  harts : List (Nat × Nat)
  /-- The places reserved by a placement that stalls at a page under migration: member, companion, hart, LANEPART field
  (R184, R234). -/
  reserved : List (Nat × Nat × Nat × Nat) := []
  saved : Bool
  /-- What a saved hart keeps beside its region, by p + 64c: ENTER's state, its task, its mode with monitor mode's trap
  registers, its held convoy, a GEXIT it has written, its inboxes (R180, R235, R394). -/
  shells : List (Nat × Hart) := []
  /-- The saved harts, by p + 64c, whose task was aborted or discarded meanwhile: they are idle once resumed (R218). -/
  dropped : List Nat := []
  /-- The round's end by which a pre-emption must have stopped every hart (R166, R238). -/
  budget : Nat
  reason : Nat
  barriers : Word
  /-- A member has exited while others wait, so its barriers are broken (R245). -/
  broken : Bool
  preempts : Nat
  migrates : Nat
  deriving DecidableEq, Repr

/-- An unmapping in progress (R231): the old block, whether its packets are rejected, and the WRIDX it was read with. -/
structure Closing where
  block : Nat
  retire : Bool
  upTo : Option Nat
  deriving DecidableEq, Repr

/-- A queue slot of a steward block (R226, R227). -/
structure Slot where
  qcbpa : Word := 0
  err : Bool := false
  drop : Bool := false
  pend : Bool := false
  mapped : Bool := false
  /-- The steward is about to read the block (R228, R231). -/
  look : Bool := false
  /-- The cycle of the last write that cleared MAPPED: a notify of that cycle still pends (R231). -/
  clearedAt : Option Nat := none
  /-- The unmappings in progress, oldest first (R231). -/
  closing : List Closing := []
  deriving DecidableEq, Repr

/-- A trigger (R278). -/
structure Trigger where
  addr : Word := 0
  mask : Word := 0
  ctl : Word := 0
  deriving DecidableEq, Repr

/-- An island: its clock copy, steward block, task unit and debug block (R226, R237, R247, R277 to R279). -/
structure Island where
  /-- How far this island's copy of TIME runs ahead (R26). -/
  timeAhead : BitVec 1 := 0
  quantum : BitVec 8 := 8
  age : BitVec 8 := 8
  roundLog2 : BitVec 4 := 14
  newCfg : Option (BitVec 8 × BitVec 8 × BitVec 4) := none
  nextRound : Nat := 16384
  /-- When the steward's access that stalls at a page under migration is tried again (R184). -/
  recheck : Nat := 0
  logBase : Word := 0
  logSize : Word := 0
  logHead : Word := 0
  logTail : Word := 0
  lost : Word := 0
  gap : Bool := false
  cntPlace : Word := 0
  cntPreempt : Word := 0
  cntMigrate : Word := 0
  cntReject : Word := 0
  cntResume : Word := 0
  slots : List (Nat × Slot) := []
  gangs : List (Nat × Gang) := []
  /-- The HEAD for which gangs are being pre-empted: it is placed before any other gang (R236 step 4). -/
  head : Option Nat := none
  /-- The completion records still to be written, oldest first (R184). -/
  completions : List Completion := []
  /-- The harts that were blocked in RECV at the previous round boundary and have been since (R244). -/
  blocked : List Nat := []
  /-- The placement code in force here, as the number of reloads accepted when it took over (R232). -/
  codeSeq : Nat := 0
  /-- The domain dispatch served last (R212). -/
  served : Option Nat := none
  /-- The cycle of the last dispatch: one is made per cycle (R212). -/
  dispatchedAt : Option Nat := none
  freezeBit : Bool := false
  trapRel : Bool := false
  triggers : List (Nat × Trigger) := []
  deriving DecidableEq, Repr

/-- A domain of a partition (R203, R204, R219). -/
structure Domain where
  active : Bool := false
  nextId : Nat := 0
  topTs : Nat := 0
  seeding : Bool := false
  commits : Word := 0
  aborts : Word := 0
  discards : Word := 0
  flags : BitVec 6 := 0
  /-- The frontier; `none` reads all ones. -/
  frontier : Option Key := none
  /-- The least key of the last exchange, not yet applied: when it applies, the key, and the next name of an entry
  at the exchange (R219). -/
  sent : Option (Nat × Option Key × Nat) := none
  /-- The next name of an entry at the exchange whose frontier is applied. -/
  applied : Nat := 0
  /-- A frontier was applied and its batch has not been looked for yet (R220). -/
  commitDue : Bool := false
  desc : Word := 0
  ptbase : Word := 0
  qbase : Word := 0
  qcap : Nat := 0
  stopped : Bool := false
  /-- The earliest entry, READY when a hart was reclaimed for it: nothing is dispatched before it (R212). -/
  holdFor : Option Nat := none
  deriving DecidableEq, Repr

/-- The steps of function-level reset (R263); the numbers are those of FLRSTAT (R260). -/
inductive FlrStep where
  | idle | drain | scrub | queues | done | exceeded
  deriving DecidableEq, Repr

/-- A partition, that is a virtual function (R203, R260, R267, R271). -/
structure Part where
  domains : List (Nat × Domain) := []
  /-- TIME of the frontier exchange that comes next (R219). -/
  nextExchange : Nat := 128
  hbmBase : Word := 0
  hbmSize : Word := 0x3B80000000
  linkGrant : BitVec 16 := 1
  irqRoute : Vector Word 8 := Vector.replicate 8 0
  errBase : Word := 0
  errSize : Word := 0
  errHead : Word := 0
  errTail : Word := 0
  errLost : Word := 0
  notify : Word := 0
  ceCount : Word := 0
  ceLimit : Word := 0
  flr : FlrStep := .idle
  flrCycles : Nat := 0
  trafficFrozen : Bool := false
  nqBase : Word := 0
  nqLog2 : BitVec 4 := 0
  nqWr : Word := 0
  nqRd : Word := 0
  /-- A network command whose answer is known and whose completion word is not yet written (R271). -/
  nqDone : Option (Nat × Nat) := none
  /-- The MSI-X vectors sent to the host (R267, R268). -/
  msix : List Nat := []
  deriving DecidableEq, Repr

/-- An agent that writes memory and is no hart: the steward of an island, the stream engine of a core, the writer of a
function's error records, the trace unit of a core, a virtual function, a peer module, a network engine. -/
inductive Agent where
  | steward (n : Nat)
  | engine (c : Nat)
  | contain (v : Nat)
  | trace (c : Nat)
  | host (v : Nat)
  | peer (m : Nat)
  | network (v : Nat)
  deriving DecidableEq, Repr

/-- What moves on once a write has been performed: ERRHEAD (R261), LOGHEAD (R247), TRHEAD (R281). -/
inductive Bump where
  | errHead (v : Nat)
  | logHead (n : Nat)
  | traceHead (c : Nat)
  deriving DecidableEq, Repr

/-- A write of an agent that waits for protected tasks (R217). -/
structure PendingWrite where
  agent : Agent
  pa : Nat
  bytes : List Byte
  bump : Option Bump
  /-- It follows every earlier write of its agent. -/
  last : Bool := false
  /-- The translations it is made under, for which an invalidation waits (R182). -/
  pins : List Pin := []
  deriving DecidableEq, Repr

/-- A module image, by the two versions FWVER shows of it (R272, R273): the one the module is made with, whose FWVER is
a free value; one that was verified here, with its version and security version; or none in force. -/
inductive Firmware where
  | factory
  | image (version security : Word32)
  | none
  deriving DecidableEq, Repr

/-- The place of this module in the election (R276). -/
inductive Election where
  | electing | leader | follower | waitsForHost
  deriving DecidableEq, Repr

/-- The state of the machine. The monitor registers (MONHART, HARTCTL, HARTPC, FREEZE, KEYCTL, FWCTL) stand here once for
the module, while R35 names the partition as their owner and gives no number of copies; PARTTAG stands once for each
island (DESIGN CHOICE, log 98). -/
structure State where
  harts : List (Nat × Hart)
  cores : List (Nat × Core)
  islands : List (Nat × Island)
  parts : List (Nat × Part)
  /-- PARTTAG.TAG of each island (R266). -/
  tags : Vector (BitVec 3) 20
  tasks : List TaskEntry
  /-- The next name of a task entry (the model's own). -/
  nextUid : Nat
  /-- Physical memory: HBM, the scratchpad and B-store windows, host and peer windows (R168). -/
  mem : List Host.Cell
  /-- The data caches and directories. -/
  caches : Caches
  /-- The uncorrectable 8-byte words, each with its source of R253. -/
  poison : List (Nat × Nat)
  /-- The lines recorded as lost (R258, R259). -/
  lostLines : List Nat
  freezeKind : BitVec 3
  freezeTarget : BitVec 13
  keyState : BitVec 2
  keyAddr : BitVec 40
  /-- The hash of the owner key that enrolment burned into the fuses (R274). -/
  keyHash : BitVec 256
  fwState : BitVec 2
  fwAddr : BitVec 40
  /-- The operation FWCTL is verifying: 1 a module image, 2 a placement image. -/
  fwOp : Nat
  securityCounter : Word32
  /-- The module image in force. -/
  firmware : Firmware
  /-- The module image in flash, which the boot ROM verifies at power-on (R273). -/
  flash : Firmware
  /-- Accepted placement images since power-on; CODEVER is a free value of it (R272). -/
  placements : Nat
  monhart : BitVec 6
  /-- A MONHART write that takes effect when the monitor handler then running returns: the hart that runs it, how many
  monitor traps it was handling, and the number (R63). -/
  newMonhart : Option (Nat × Nat × BitVec 6)
  hartctlMode : BitVec 2
  hartctlSteward : Bool
  hartctlNum : BitVec 13
  hartpc : Word
  /-- The containment codes waiting for the monitor hart, oldest first (R257). -/
  codes : List Byte
  cxlUp : Bool
  /-- Links to peer modules by their number, as they were last reported: up, or down (R270). A member module whose
  link was not reported has it up: its HELLO was heard. -/
  peers : List (Nat × Bool)
  failedStacks : BitVec 16
  term : Nat
  election : Election
  /-- Claims heard: (serial, term, whether it claims leadership) (R276). -/
  heard : List (Word × Nat × Bool)
  reElections : Nat
  gotBlock : Bool
  /-- An image that was streamed to this module has been verified (R275, R276). -/
  imageWhole : Bool
  lastHello : Nat
  lastBlock : Nat
  electionStart : Nat
  /-- The millisecond at which the next HELLO is due (R276). -/
  hellosSent : Nat
  /-- The HELLO last sent on every trained port: serial, term, whether it claims leadership (R276). -/
  helloOut : Option (Word × Nat × Bool)
  /-- The followers, by serial number, to which this module streams its image as their leader (R276). -/
  streamTo : List Word
  clockStopped : Bool
  /-- Writes of agents other than harts that wait for protected tasks (R217), each agent's in its order. -/
  pendingWrites : List PendingWrite
  /-- The model's own: the cycle count, the hart that acts, the place in the cycle (0 while events are looked for,
  then one more than the next core to issue), the cores whose TABORT has acted before them in this cycle (R393), the events
  from outside that wait, and the counter of free values. -/
  time : Nat
  cur : Nat
  scan : Nat
  early : List Nat
  inputs : List Instr
  free : Nat
  deriving DecidableEq, Repr

/-- The boot hart: steward hart 1 of the boot island, island 0 (R36). -/
def bootHart : Nat := 5121

/-- The boot ROM entry. DESIGN CHOICE (log 1): the spec names the entry and gives no address. Unsafe. -/
def bootEntry : Word := 0x1000

/-- The hart that power-on reset starts: in monitor mode at the boot ROM's entry (R36). -/
def Hart.boot : Hart := { mode := .monitor, pc := bootEntry, started := true }

/-- The machine right after power-on reset (R36; the reset columns of R45 to R63, R226, R260, R266, R267). -/
def State.reset : State where
  harts := [(bootHart, Hart.boot)]
  cores := []
  islands := []
  parts := [(1, { hbmBase := 0x3B80000000 }), (2, { hbmBase := 0x7700000000 }), (3, { hbmBase := 0xB280000000 })]
  tags := #v[0, 0, 0, 0, 0, 1, 1, 1, 1, 1, 2, 2, 2, 2, 2, 3, 3, 3, 3, 3]
  tasks := []
  nextUid := 0
  mem := []
  caches := {}
  poison := []
  lostLines := []
  freezeKind := 0
  freezeTarget := 0
  keyState := 0
  keyAddr := 0
  keyHash := 0
  fwState := 0
  fwAddr := 0
  fwOp := 0
  securityCounter := 0
  firmware := .factory
  flash := .factory
  placements := 0
  monhart := 1
  newMonhart := none
  hartctlMode := 2
  hartctlSteward := false
  hartctlNum := 0
  hartpc := 0
  codes := []
  cxlUp := true
  peers := []
  failedStacks := 0
  term := 1
  election := .leader
  heard := []
  reElections := 0
  gotBlock := false
  imageWhole := false
  lastHello := 0
  lastBlock := 0
  electionStart := 0
  hellosSent := 0
  helloOut := none
  streamTo := []
  clockStopped := false
  pendingWrites := []
  time := 0
  cur := bootHart
  scan := 0
  early := []
  inputs := []
  free := 0

end Sys2Proof.Machine
end

