-- ==== Sys2Proof/Machine/Ops.lean ====
section
/-!
DEFINITION. The named operations every meaning is built from: the numbered tables, the registers, the bytes of
physical memory, taking a trap and returning from one (spec/12_traps.md R248, R249; spec/19 R398), and retiring.
-/
namespace Sys2Proof.Machine

/-- The outcome of a step of this machine. -/
abbrev Out := Host.Outcome State Fault Refusal

/-! ### Numbered tables -/

/-- The content of a number, if it is listed. -/
def tabGet {α : Type} : List (Nat × α) → Nat → Option α
  | [], _ => none
  | (k, v) :: t, n => if k = n then some v else tabGet t n

/-- Set the content of a number; the list stays rising. -/
def tabSet {α : Type} : List (Nat × α) → Nat → α → List (Nat × α)
  | [], n, x => [(n, x)]
  | (k, v) :: t, n, x =>
    if k = n then (n, x) :: t else if n < k then (n, x) :: (k, v) :: t else (k, v) :: tabSet t n x

/-- Remove a number from a table. -/
def tabDel {α : Type} (l : List (Nat × α)) (n : Nat) : List (Nat × α) := l.filter (fun p => p.1 != n)

/-- The hart of a key. -/
def hart (s : State) (h : Nat) : Hart := (tabGet s.harts h).getD {}
/-- The core of a key. -/
def core (s : State) (c : Nat) : Core := (tabGet s.cores c).getD {}
/-- The island of a number. -/
def island (s : State) (n : Nat) : Island := (tabGet s.islands n).getD {}
/-- The partition of a function. -/
def part (s : State) (v : Nat) : Part := (tabGet s.parts v).getD {}
/-- The domain of a partition. -/
def domain (s : State) (v d : Nat) : Domain := (tabGet (part s v).domains d).getD {}
/-- The slot of a steward block. -/
def slot (s : State) (n q : Nat) : Slot := (tabGet (island s n).slots q).getD {}

/-- Change one hart. -/
def onHart (s : State) (h : Nat) (f : Hart → Hart) : State := { s with harts := tabSet s.harts h (f (hart s h)) }
/-- Change one core. -/
def onCore (s : State) (c : Nat) (f : Core → Core) : State := { s with cores := tabSet s.cores c (f (core s c)) }
/-- Change one island. -/
def onIsland (s : State) (n : Nat) (f : Island → Island) : State :=
  { s with islands := tabSet s.islands n (f (island s n)) }
/-- Change one partition. -/
def onPart (s : State) (v : Nat) (f : Part → Part) : State := { s with parts := tabSet s.parts v (f (part s v)) }
/-- Change one domain. -/
def onDomain (s : State) (v d : Nat) (f : Domain → Domain) : State :=
  onPart s v fun p => { p with domains := tabSet p.domains d (f (domain s v d)) }
/-- Change one slot. -/
def onSlot (s : State) (n q : Nat) (f : Slot → Slot) : State :=
  onIsland s n fun i => { i with slots := tabSet i.slots q (f (slot s n q)) }

/-! ### Places (R17, R21) -/

/-- The core of a hart. -/
def coreOf (h : Nat) : Nat := if h < 5120 then h / 4 else 1280 + (h - 5120) / 2
/-- The slot of a hart on its core. -/
def slotOf (h : Nat) : Nat := if h < 5120 then h % 4 else (h - 5120) % 2
/-- The island of a core. -/
def islandOfCore (c : Nat) : Nat := if c < 1280 then c / 64 else c - 1280
/-- The island of a hart. -/
def islandOf (h : Nat) : Nat := islandOfCore (coreOf h)
/-- A steward hart. -/
def isSteward (h : Nat) : Bool := decide (5120 ≤ h)
/-- The hart in a slot of a core. -/
def hartAt (c sl : Nat) : Nat := if c < 1280 then 4 * c + sl else 5120 + 2 * (c - 1280) + sl
/-- The number R17 gives a hart among the compute harts or the steward harts. -/
def hartNumber (h : Nat) : Nat := if h < 5120 then h else h - 5120
/-- The number R17 gives a core among the compute cores or the steward cores. -/
def coreNumber (c : Nat) : Nat := if c < 1280 then c else c - 1280
/-- The slots of a core. -/
def slotsOf (c : Nat) : List Nat := if c < 1280 then [0, 1, 2, 3] else [0, 1]
/-- The harts of a core, by slot. -/
def hartsOn (c : Nat) : List Nat := (slotsOf c).map (hartAt c)
/-- The number a hart's position has within its island: 4 × core + slot (R241). -/
def position (h : Nat) : Nat := h % 256
/-- The compute hart of an island at a position. -/
def hartAtPosition (n p : Nat) : Nat := 256 * n + p
/-- The function that an island's tag names; `none` is unassigned (R266). -/
def partOfIsland (s : State) (n : Nat) : Option Nat :=
  if h : n < 20 then let t := s.tags[n].toNat; if t < 4 then some t else none else none
/-- The partition of a hart. -/
def partOf (s : State) (h : Nat) : Option Nat := partOfIsland s (islandOf h)
/-- The islands of a partition. -/
def islandsOf (s : State) (v : Nat) : List Nat :=
  (List.range 20).filter fun n => partOfIsland s n == some v
/-- The cores of an island, its steward core last. -/
def coresOfIsland (n : Nat) : List Nat := (List.range 64).map (64 * n + ·) ++ [1280 + n]
/-- The harts of an island, its steward harts last. -/
def hartsOfIsland (n : Nat) : List Nat := (coresOfIsland n).flatMap hartsOn
/-- TIME of an island: one per cycle, each copy within 2 ticks (R26). -/
def timeOf (s : State) (n : Nat) : Nat := s.time + (island s n).timeAhead.toNat

/-! ### Registers -/

/-- The hart that acts. -/
def me (s : State) : Hart := hart s s.cur
/-- The core of the hart that acts. -/
def myCore (s : State) : Core := core s (coreOf s.cur)
/-- Change the hart that acts. -/
def onMe (s : State) (f : Hart → Hart) : State := onHart s s.cur f

/-- x0 reads zero (R40). -/
def getX (h : Hart) (r : Reg) : Word := if r = 0 then 0 else h.x[r.toNat]
/-- A write of x0 is discarded (R40). -/
def setX (h : Hart) (r : Reg) (v : Word) : Hart := if r = 0 then h else { h with x := h.x.set r.toNat v }
/-- The 64 bits of an f register (R41). -/
def getF (h : Hart) (r : Reg) : Word := h.f[r.toNat]
/-- Write the 64 bits of an f register. -/
def setF (h : Hart) (r : Reg) (v : Word) : Hart := { h with f := h.f.set r.toNat v }
/-- The 65,536 bits that hold a v register. -/
def getV (h : Hart) (r : Reg) : BitVec 65536 := h.v[r.toNat]
/-- Write a v register; the vector state becomes dirty (R55). -/
def setV (h : Hart) (r : Reg) (v : BitVec 65536) : Hart := { h with v := h.v.set r.toNat v, vs := 2 }
/-- k0 reads all-true (R42). -/
def getK (h : Hart) (r : BitVec 3) : BitVec 8192 := if r = 0 then BitVec.allOnes 8192 else h.k[r.toNat]
/-- A write of k0 is discarded and changes no state field (R42, R362). -/
def setK (h : Hart) (r : BitVec 3) (v : BitVec 8192) : Hart :=
  if r = 0 then h else { h with k := h.k.set r.toNat v, vs := 2 }

/-- x of the hart that acts. -/
def rx (s : State) (r : Reg) : Word := getX (me s) r
/-- f of the hart that acts. -/
def rf (s : State) (r : Reg) : Word := getF (me s) r
/-- Write x of the hart that acts. -/
def wx (s : State) (r : Reg) (v : Word) : State := onMe s (setX · r v)
/-- Write f of the hart that acts. -/
def wf (s : State) (r : Reg) (v : Word) : State := onMe s (setF · r v)

/-- The next instruction, one retired (R51). -/
def retireHart (len : Nat) (h : Hart) : Hart :=
  { h with pc := h.pc + BitVec.ofNat 64 len, instret := h.instret + 1, wait := none }
/-- The instruction of the acting hart retires and the next one follows it. -/
def retire (s : State) : State := onMe s (retireHart 4)
/-- A captured loop body holds an address (R116). -/
def LoopBody.holds (b : LoopBody) (pc : Word) : Bool := decide (b.start.toNat ≤ pc.toNat) && decide (pc.toNat ≤ b.end_.toNat)
/-- The instruction retires and the hart goes on at `pc`; out of its captured body, the loop is left (R116). -/
def retireTo (pc : Word) (s : State) : State :=
  onMe s fun h => { h with pc := pc, instret := h.instret + 1, wait := none, body := h.body.filter (·.holds pc) }
/-- Write x and retire: the shape of every register instruction. -/
def retireX (d : Reg) (v : Word) (s : State) : State := retire (wx s d v)
/-- Write x and retire, as a step. -/
def outX (d : Reg) (v : Word) (s : State) : Out := .next (retireX d v s)
/-- The hart waits; its instruction has done nothing (R20). -/
def waitOn (w : Wait) (s : State) : State := onMe s fun h => { h with wait := some w }
/-- The members of the convoy that a late vector fault holds: they trapped, and have not completed (R51, R179). -/
def heldMembers (h : Hart) : Word := BitVec.ofNat 64 (h.heldConvoy.elim 0 (·.members.length))
/-- LATE is cleared and the convoy it stood for discarded, with VSTART zero (R180); its members leave INSTRET (R51). -/
def dropHeld (h : Hart) : Hart :=
  { h with late := false, heldConvoy := none, heldAdvance := 0, vstart := 0, vepc := 0, instret := h.instret - heldMembers h }

/-! ### Physical memory -/

/-- A byte of physical memory; an unlisted byte reads zero. DESIGN CHOICE (log 2). Unsafe. -/
def memRead : List Host.Cell → Nat → Byte
  | [], _ => 0
  | (b, v) :: t, a => if a = b then v else if a < b then 0 else memRead t a

/-- Write a byte of physical memory; the list keeps its canonical form. -/
def memWrite : List Host.Cell → Nat → Byte → List Host.Cell
  | [], a, v => if v = 0 then [] else [(a, v)]
  | (b, w) :: t, a, v =>
    if a = b then (if v = 0 then t else (a, v) :: t)
    else if a < b then (if v = 0 then (b, w) :: t else (a, v) :: (b, w) :: t)
    else (b, w) :: memWrite t a v

/-- Every listed address lies above `lo`, rising, with no zero byte. -/
def memSorted : Option Nat → List Host.Cell → Bool
  | _, [] => true
  | none, (a, v) :: t => v != 0 && memSorted (some a) t
  | some lo, (a, v) :: t => decide (lo < a) && v != 0 && memSorted (some a) t

/-- The canonical form of memory: addresses strictly rising, no entry that reads as an unlisted address. -/
def Memory.wf (m : List Host.Cell) : Bool := memSorted none m

/-- Write bytes from an address on. -/
def memWriteBytes (m : List Host.Cell) (a : Nat) : List Byte → List Host.Cell
  | [] => m
  | b :: bs => memWriteBytes (memWrite m a b) (a + 1) bs

/-- Read n bytes from an address on. -/
def memReadBytes (m : List Host.Cell) (a n : Nat) : List Byte := (List.range n).map fun i => memRead m (a + i)

/-- Make the bytes from `a` to `a + n − 1` read zero. -/
def memClear (m : List Host.Cell) (a n : Nat) : List Host.Cell := m.filter fun c => c.1 < a || a + n ≤ c.1

/-- The little-endian number of n bytes (R4). -/
def memReadNat (m : List Host.Cell) (a n : Nat) : Nat := natOfBytes (memReadBytes m a n)
/-- Write n little-endian bytes of a number (R4). -/
def memWriteNat (m : List Host.Cell) (a n v : Nat) : List Host.Cell := memWriteBytes m a (bytesOfNat n v)

/-- The doubleword at a physical address. -/
def readD (s : State) (a : Nat) : Word := BitVec.ofNat 64 (memReadNat s.mem a 8)

/-! ### Traps -/

/-- Whether a trap enters monitor mode (R248 step 1). -/
def entersMonitor (m : Mode) (code : Byte) : Bool :=
  m == .monitor || code == 0x06 || code == 0x07 || (0xD0 ≤ code && code ≤ 0xDF)

/-- The number of a mode (R36). -/
def Mode.code : Mode → BitVec 2
  | .user => 0 | .supervisor => 1 | .monitor => 2

/-- The handler's address that TVEC gives for a cause (R57). -/
def trapTarget (tvec : Word) (code : Byte) : Word :=
  let base := tvec &&& ~~~3#64
  if tvec &&& 3#64 = 1 then base + 64 * (code >>> 5).setWidth 64 else base

/-- What takes a hart that is idle in ENTER away leaves it before the ENTER, which runs again (R248, R394). -/
def leaveEnter (h : Hart) : Hart :=
  if h.enter.isSome && h.task.isNone then { h with enter := none, tmode := false } else h

/-- A hart takes a trap (R248): into supervisor mode through the registers of R54 and R57, or into monitor mode
through monitor's own registers, which leave those of R57 and STATUS.PIE and PMODE as they stand (DEDUCED, log 5). -/
def trapHart (code orig : Byte) (tval epc : Word) (x : Hart) : Hart :=
  let h := leaveEnter x
  if entersMonitor h.mode code then
    { h with
      mon := { traps := code :: h.mon.traps, pc := epc, cause := code, tval := tval, mode := h.mode, ie := h.ie }
      mode := .monitor, ie := false, pc := Config.monitorVector, wait := none, loops := [], body := none }
  else
    { h with
      epc := epc &&& ~~~3#64, causeCode := code, causeOrig := orig, tval := tval
      pie := h.ie, pmode := h.mode.code, ie := false
      mode := .supervisor, pc := trapTarget h.tvec code, wait := none, loops := [], body := none }

/-- The trap of the acting hart at its own PC. -/
def takeTrap (code orig : Byte) (tval : Word) (s : State) : State :=
  onMe s fun h => trapHart code orig tval h.pc h

/-- The task entry of a name. -/
def taskOf (s : State) (uid : Nat) : Option TaskEntry := s.tasks.find? (·.uid == uid)
/-- Change a task entry. -/
def onTask (s : State) (uid : Nat) (f : TaskEntry → TaskEntry) : State :=
  { s with tasks := s.tasks.map fun e => if e.uid = uid then f e else e }
/-- The entry of the task a hart holds. -/
def taskAt (s : State) (h : Nat) : Option TaskEntry :=
  match (hart s h).task with
  | some u => taskOf s u
  | none => none
/-- The timestamp of a key. -/
def Key.ts : Key → Nat
  | .ident t _ => t
  | .pending t _ _ => t

/-- The order of keys (R208). -/
def Key.lt : Key → Key → Bool
  | .ident t i, .ident u j => decide (t < u) || (t == u && decide (i < j))
  | .ident t _, .pending u _ _ => decide (t ≤ u)
  | .pending t _ _, .ident u _ => decide (t < u)
  | .pending t p c, .pending u q d => decide (t < u) || (t == u && (p.lt q || (p == q && decide (c < d))))

/-- The bytes of a unit. -/
def TUnit.len (u : TUnit) : Nat := if u.word then 8 else 64
/-- Two units share a byte. -/
def TUnit.meets (a b : TUnit) : Bool := decide (a.base < b.base + b.len) && decide (b.base < a.base + a.len)
/-- The acting hart runs a task that is still speculative (R339). -/
def speculative (s : State) : Bool :=
  match taskAt s s.cur with
  | some e => e.st != .irrev
  | none => false

/-- Trap(code, tval) of R339: a speculative task holds a fault of a class below 0xC0, every other hart takes the
trap of R248. -/
def raise (code : Byte) (tval : Word) (s : State) : State :=
  match taskAt s s.cur with
  | some e =>
    if e.st != .irrev && code < 0xC0 then
      let pc := (me s).pc
      onTask (onMe s fun h => { h with aside := none }) e.uid fun e => { e with fault := some ⟨code, tval, pc⟩, st := .held }
    else takeTrap code 0 tval s
  | none => takeTrap code 0 tval s

/-- The trap of an instruction, as a step. -/
def outTrap (code : Byte) (tval : Word) (s : State) : Out := .next (raise code tval s)

/-- The mode of a number; 0b11 is no mode and never stored. -/
def modeOfCode (m : BitVec 2) : Mode := if m = 0 then .user else if m = 2 then .monitor else .supervisor

/-- The return from a trap (R398), after its checks: from monitor mode through monitor's own registers, otherwise
through STATUS and EPC; supervisor mode cannot return to monitor mode. -/
def returnHart (h : Hart) : Hart :=
  if h.mode == .monitor then
    { h with mode := h.mon.mode, ie := h.mon.ie, pc := h.mon.pc, mon := { h.mon with traps := h.mon.traps.tail }
             instret := h.instret + 1, wait := none, body := none }
  else
    let m := modeOfCode h.pmode
    { h with mode := if m == .monitor then .supervisor else m, ie := h.pie, pie := true, pmode := 0, pc := h.epc
             instret := h.instret + 1, wait := none, body := none }

/-! ### Bit fields -/

/-- Bits [hi:lo] of a doubleword as a number. -/
def bits (v : Word) (hi lo : Nat) : Nat := v.toNat / 2 ^ lo % 2 ^ (hi - lo + 1)
/-- A bit of a doubleword. -/
def bit (v : Word) (i : Nat) : Bool := v.toNat.testBit i
/-- A doubleword of a number. -/
def w64 (n : Nat) : Word := BitVec.ofNat 64 n
/-- A flag as a doubleword. -/
def wBool (b : Bool) : Word := if b then 1 else 0
/-- Replace `n` bits from `lo` of a wide value. -/
def putBits {w : Nat} (r : BitVec w) (lo n v : Nat) : BitVec w :=
  let m : BitVec w := BitVec.ofNat w ((2 ^ n - 1) * 2 ^ lo)
  (r &&& ~~~m) ||| BitVec.ofNat w (v % 2 ^ n * 2 ^ lo)
/-- `n` bits from `lo` of a wide value. -/
def getBits {w : Nat} (r : BitVec w) (lo n : Nat) : Nat := r.toNat / 2 ^ lo % 2 ^ n

end Sys2Proof.Machine
end

