-- ==== Sys2Proof/Machine/Flags.lean ====
section
/-!
DEFINITION. The arithmetic flags of FPCTL (spec/02_state.md R47; spec/03_numbers.md R82). Which operation raises
which flag is computed beside the operation, in Num, Special, Sum and Vector.
-/
namespace Sys2Proof.Machine

/-- SAT. -/
def fSAT : BitVec 6 := 32
/-- NV. -/
def fNV : BitVec 6 := 16
/-- DZ. -/
def fDZ : BitVec 6 := 8
/-- OF. -/
def fOF : BitVec 6 := 4
/-- UF. -/
def fUF : BitVec 6 := 2
/-- NX. -/
def fNX : BitVec 6 := 1

/-- A flag when a condition holds. -/
def flagIf (c : Bool) (f : BitVec 6) : BitVec 6 := if c then f else 0

/-- Merge flags into FPCTL (R82). -/
def mergeFlags (f : BitVec 6) (h : Hart) : Hart := { h with flags := h.flags ||| f }

/-- The flags of the acting hart. -/
def raiseFlags (f : BitVec 6) (s : State) : State := onMe s (mergeFlags f)

end Sys2Proof.Machine
end

