-- ==== Sys2Proof/Machine/Num.lean ====
section
/-!
DEFINITION. The number formats, rounding, conversions and the element operations on floating-point values
(spec/03_numbers.md R65 to R82; spec/17 R345 to R347).
A finite value is (−1)^neg × m × 2^e. A value known only to lie strictly between two dyadics is carried as the odd
dyadic between them, far below any rounding position, so that it rounds and compares as the value itself.
-/
namespace Sys2Proof.Machine

/-! ### Formats (R65, R67) -/

/-- Which special encodings a format has. -/
inductive FmtKind where
  | ieee | nanOnly | finite
  deriving DecidableEq, Repr

/-- A binary floating-point format (R65). -/
structure Fmt where
  ebits : Nat
  mbits : Nat
  bias : Nat
  kind : FmtKind
  deriving DecidableEq, Repr

/-- FP64 (R65). -/
def fmtDf : Fmt := ⟨11, 52, 1023, .ieee⟩
/-- FP32 (R65). -/
def fmtSf : Fmt := ⟨8, 23, 127, .ieee⟩

/-- The format of a floating-point type, or of the elements of a block-scaled type (R65, R70). -/
def fmtOf : Ty → Fmt
  | .sf => fmtSf
  | .hf => ⟨5, 10, 15, .ieee⟩
  | .bf => ⟨8, 7, 127, .ieee⟩
  | .e5 | .mx8e5 => ⟨5, 2, 15, .ieee⟩
  | .e4 | .mx8e4 => ⟨4, 3, 7, .nanOnly⟩
  | .f6a | .mx6a => ⟨2, 3, 1, .finite⟩
  | .f6b | .mx6b => ⟨3, 2, 3, .finite⟩
  | .f4 | .mx4 => ⟨2, 1, 1, .finite⟩
  | _ => fmtDf

/-- The width of an encoding. -/
def Fmt.width (f : Fmt) : Nat := 1 + f.ebits + f.mbits
/-- The sign bit's weight. -/
def Fmt.signBit (f : Fmt) : Nat := 2 ^ (f.ebits + f.mbits)
/-- The encoding of +∞ in a format that has it; one above the largest finite encoding. -/
def Fmt.infEnc (f : Fmt) : Nat := (2 ^ f.ebits - 1) * 2 ^ f.mbits
/-- The encoding of the largest finite magnitude (R65). -/
def Fmt.maxEnc (f : Fmt) : Nat :=
  match f.kind with
  | .ieee => f.infEnc - 1
  | .nanOnly => 2 ^ (f.ebits + f.mbits) - 2
  | .finite => 2 ^ (f.ebits + f.mbits) - 1
/-- The canonical NaN (R68). -/
def Fmt.nanEnc (f : Fmt) : Nat :=
  match f.kind with
  | .ieee => f.infEnc + 2 ^ (f.mbits - 1)
  | _ => 2 ^ (f.ebits + f.mbits) - 1
/-- The exponent of the smallest subnormal. -/
def Fmt.qmin (f : Fmt) : Int := 1 - (f.bias : Int) - (f.mbits : Int)
/-- The exponent of the smallest normal. -/
def Fmt.emin (f : Fmt) : Int := 1 - (f.bias : Int)

/-- The bits an element of a type occupies in a register (R67). -/
def elemBits (t : Ty) : Nat := if t.bits = 6 then 8 else t.bits
/-- The width of a type for VDECL.EW: 4-bit and 6-bit types count as 8 bits (R67, R102). -/
def declBits (t : Ty) : Nat := max 8 (elemBits t)

/-! ### Values -/

/-- An exact value (R326, R333): finite, an infinity, a quiet or a signalling NaN. -/
inductive FVal where
  | fin (neg : Bool) (m : Nat) (e : Int)
  | inf (neg : Bool)
  | nan (signalling : Bool)
  deriving DecidableEq, Repr

/-- Value(e, fmt) for a floating-point format (R66, R68, R333). -/
def valueF (f : Fmt) (enc : Nat) : FVal :=
  let neg := enc / f.signBit % 2 == 1
  let mag := enc % f.signBit
  let m := mag % 2 ^ f.mbits
  let e := mag / 2 ^ f.mbits
  if f.kind == .ieee && e == 2 ^ f.ebits - 1 then
    if m == 0 then .inf neg else .nan (m < 2 ^ (f.mbits - 1))
  else if f.kind == .nanOnly && mag == 2 ^ (f.ebits + f.mbits) - 1 then .nan false
  else if e == 0 then .fin neg m f.qmin
  else .fin neg (m + 2 ^ f.mbits) (f.qmin + e - 1)

/-- A signed integer as an exact value. -/
def valueInt (i : Int) : FVal := .fin (decide (i < 0)) i.natAbs 0

/-- The integer an encoding of an integer type stands for (R71). -/
def intOf (t : Ty) (enc : Nat) : Int :=
  let w := t.bits
  let u := enc % 2 ^ w
  if t.isSigned && 2 ^ (w - 1) ≤ u then (u : Int) - 2 ^ w else u

/-- The low w bits of an integer. -/
def wrapInt (w : Nat) (i : Int) : Nat := (i % (2 : Int) ^ w).toNat

/-- The range of an integer type (R71). -/
def intMin (t : Ty) : Int := if t.isSigned then -(2 : Int) ^ (t.bits - 1) else 0
/-- The range of an integer type (R71). -/
def intMax (t : Ty) : Int := if t.isSigned then (2 : Int) ^ (t.bits - 1) - 1 else (2 : Int) ^ t.bits - 1

/-! ### Rounding (R73 to R75) -/

/-- An encoding with the flags its computation raised. -/
structure FRes where
  enc : Nat
  fl : BitVec 6 := 0
  deriving DecidableEq, Repr

/-- SRHash (R75, R334): the 32-bit draw of an element. -/
def srHash (seed : Word) (i : Nat) : Nat :=
  let x := seed + BitVec.ofNat 64 i
  let x := x ^^^ (x >>> 33)
  let x := x * 0xFF51AFD7ED558CCD#64
  let x := x ^^^ (x >>> 33)
  let x := x * 0xC4CEB9FE1A85EC53#64
  let x := x ^^^ (x >>> 33)
  x.toNat % 2 ^ 32

/-- Whether a magnitude n + r ÷ 2^k, with 0 < r < 2^k, rounds up in magnitude (R73, R75). A draw is present only
for a conversion under 0b101; without one 0b101 rounds as 0b000. -/
def roundsUp (rm : BitVec 3) (draw : Option Nat) (neg : Bool) (n r k : Nat) : Bool :=
  match rm.toNat with
  | 1 => false
  | 2 => neg
  | 3 => !neg
  | 4 => decide (2 ^ k ≤ 2 * r)
  | _ =>
    match draw with
    | some h => decide (h < r * 2 ^ 32 / 2 ^ k)
    | none => decide (2 ^ k < 2 * r) || (2 * r == 2 ^ k && n % 2 == 1)

/-- Round m × 2^e to a multiple of 2^q: the multiple and whether it is inexact. -/
def roundAt (rm : BitVec 3) (draw : Option Nat) (neg : Bool) (m : Nat) (e q : Int) : Nat × Bool :=
  if q ≤ e then (m * 2 ^ (e - q).toNat, false)
  else
    let k := (q - e).toNat
    let n := m / 2 ^ k
    let r := m % 2 ^ k
    if r = 0 then (n, false) else (if roundsUp rm draw neg n r k then n + 1 else n, true)

/-- floor(log2 of m × 2^e) for m ≠ 0. -/
def topExp (m : Nat) (e : Int) : Int := (Nat.log2 m : Int) + e

/-- The encoding, without sign and range check, of n × 2^q at the format's grid. -/
def encMag (f : Fmt) (n : Nat) (q : Int) : Nat :=
  if n < 2 ^ f.mbits then n else (q - f.qmin + 1).toNat * 2 ^ f.mbits + (n - 2 ^ f.mbits)

/-- The result of an overflow of a finite value (R78): `sat` clamps a format that has an infinity too (R83). -/
def overflowEnc (f : Fmt) (rm : BitVec 3) (sat neg : Bool) : FRes :=
  if f.kind == .ieee && !sat then
    let toMax := match rm.toNat with
      | 1 => true
      | 2 => !neg
      | 3 => neg
      | _ => false
    ⟨if toMax then f.maxEnc else f.infEnc, fOF ||| fNX⟩
  else ⟨f.maxEnc, fOF ||| fNX ||| fSAT⟩

/-- Add the sign to a magnitude's encoding. -/
def withSign (f : Fmt) (neg : Bool) (enc : Nat) : Nat := if neg then enc + f.signBit else enc

/-- The result of rounding m × 2^e is tiny (R74). -/
def isTiny (f : Fmt) (rm : BitVec 3) (draw : Option Nat) (neg : Bool) (m : Nat) (e : Int) : Bool :=
  let q := topExp m e - f.mbits
  decide (topExp (max 1 (roundAt rm draw neg m e q).1) q < f.emin)

/-- Round a finite value into a format (R73, R74, R75, R78). -/
def roundFin (f : Fmt) (rm : BitVec 3) (draw : Option Nat) (sat neg : Bool) (m : Nat) (e : Int) : FRes :=
  if m = 0 then ⟨withSign f neg 0, 0⟩
  else
    let q := max (topExp m e - f.mbits) f.qmin
    let beyond (d : Option Nat) : Bool := decide (f.maxEnc < encMag f (roundAt rm d neg m e q).1 q)
    let exceeds :=
      let t := roundAt 1 none false m e q
      decide (f.maxEnc < encMag f t.1 q) || (encMag f t.1 q == f.maxEnc && t.2)
    let draw := if exceeds then none else draw
    if beyond draw then
      let o := overflowEnc f rm sat neg
      ⟨withSign f neg o.enc, o.fl⟩
    else
      let r := roundAt rm draw neg m e q
      ⟨withSign f neg (encMag f r.1 q), flagIf r.2 fNX ||| flagIf (r.2 && isTiny f rm draw neg m e) fUF⟩

/-- RoundTo(v, fmt, rm, i) with a floating-point destination (R68, R77, R78, R333). -/
def roundF (f : Fmt) (rm : BitVec 3) (draw : Option Nat) (sat : Bool) : FVal → FRes
  | .fin neg m e => roundFin f rm draw sat neg m e
  | .inf neg =>
    match f.kind with
    | .ieee => ⟨withSign f neg f.infEnc, 0⟩
    | _ => ⟨withSign f neg f.maxEnc, fSAT⟩
  | .nan sig =>
    match f.kind with
    | .finite => ⟨0, fNV⟩
    | _ => ⟨f.nanEnc, flagIf sig fNV⟩

/-- Conversion to an integer type (R79). -/
def toIntTy (t : Ty) (rm : BitVec 3) : FVal → FRes
  | .fin neg m e =>
    let r := roundAt rm none neg m e 0
    let i : Int := if neg then -(r.1 : Int) else r.1
    if i < intMin t then ⟨wrapInt t.bits (intMin t), fNV ||| fSAT⟩
    else if intMax t < i then ⟨wrapInt t.bits (intMax t), fNV ||| fSAT⟩
    else ⟨wrapInt t.bits i, flagIf r.2 fNX⟩
  | .inf neg => ⟨wrapInt t.bits (if neg then intMin t else intMax t), fNV ||| fSAT⟩
  | .nan _ => ⟨0, fNV ||| fSAT⟩

/-! ### Exact operations on values -/

/-- The numerator of a finite value at exponent e' ≤ e, with its sign. -/
def scaled (neg : Bool) (m : Nat) (e e' : Int) : Int :=
  let k : Int := (m * 2 ^ (e - e').toNat : Nat)
  if neg then -k else k

/-- The sign of an exact zero sum (IEEE 754-2019, R345): that of both terms where they agree, else by RM. -/
def zeroSign (rm : BitVec 3) (a b : Bool) : Bool := if a == b then a else rm == 2

/-- Exact sum, with the flag of an invalid operation (R345). -/
def addV (rm : BitVec 3) : FVal → FVal → FVal × BitVec 6
  | .nan s, .nan t => (.nan false, flagIf (s || t) fNV)
  | .nan s, _ => (.nan false, flagIf s fNV)
  | _, .nan t => (.nan false, flagIf t fNV)
  | .inf a, .inf b => if a == b then (.inf a, 0) else (.nan false, fNV)
  | .inf a, _ => (.inf a, 0)
  | _, .inf b => (.inf b, 0)
  | .fin a m e, .fin b n g =>
    let lo := min e g
    let i := scaled a m e lo + scaled b n g lo
    if m = 0 ∧ n = 0 then (.fin (zeroSign rm a b) 0 0, 0)
    else if i = 0 then (.fin (rm == 2) 0 0, 0)
    else (.fin (decide (i < 0)) i.natAbs lo, 0)

/-- The value with its sign turned. -/
def negV : FVal → FVal
  | .fin a m e => .fin (!a) m e
  | .inf a => .inf (!a)
  | .nan s => .nan s

/-- Exact product, with the flag of an invalid operation. -/
def mulV : FVal → FVal → FVal × BitVec 6
  | .nan s, .nan t => (.nan false, flagIf (s || t) fNV)
  | .nan s, _ => (.nan false, flagIf s fNV)
  | _, .nan t => (.nan false, flagIf t fNV)
  | .inf a, .inf b => (.inf (a != b), 0)
  | .inf a, .fin b n _ => if n = 0 then (.nan false, fNV) else (.inf (a != b), 0)
  | .fin a m _, .inf b => if m = 0 then (.nan false, fNV) else (.inf (a != b), 0)
  | .fin a m e, .fin b n g => (.fin (a != b) (m * n) (e + g), 0)

/-- A quotient of positive integers times 2^e, to 2^140 of its own size or finer; odd where it is not exact. -/
def ratio (neg : Bool) (m n : Nat) (e : Int) : FVal :=
  let k := Nat.log2 n + 140
  let q := m * 2 ^ k / n
  if m * 2 ^ k % n = 0 then .fin neg q (e - k) else .fin neg (2 * q + 1) (e - k - 1)

/-- Quotient (R345). -/
def divV : FVal → FVal → FVal × BitVec 6
  | .nan s, .nan t => (.nan false, flagIf (s || t) fNV)
  | .nan s, _ => (.nan false, flagIf s fNV)
  | _, .nan t => (.nan false, flagIf t fNV)
  | .inf _, .inf _ => (.nan false, fNV)
  | .inf a, .fin b _ _ => (.inf (a != b), 0)
  | .fin a _ _, .inf b => (.fin (a != b) 0 0, 0)
  | .fin a m e, .fin b n g =>
    if n = 0 then (if m = 0 then (.nan false, fNV) else (.inf (a != b), fDZ))
    else if m = 0 then (.fin (a != b) 0 0, 0)
    else (ratio (a != b) m n (e - g), 0)

/-- One bit of an integer square root: the root r of the top bits so far. -/
def isqrtFrom (n : Nat) : Nat → Nat → Nat
  | 0, r => r
  | b + 1, r =>
    let r' := r + 2 ^ b
    isqrtFrom n b (if r' * r' ≤ n then r' else r)

/-- The integer square root. -/
def isqrt (n : Nat) : Nat := isqrtFrom n (Nat.log2 n / 2 + 1) 0

/-- The square root of m × 2^e for m ≠ 0, odd where it is not exact. -/
def sqrtFin (m : Nat) (e : Int) : FVal :=
  let m1 := if e % 2 = 0 then m else 2 * m
  let e1 := if e % 2 = 0 then e else e - 1
  let n := m1 * 2 ^ 256
  let r := isqrt n
  if r * r = n then .fin false r (e1 / 2 - 128) else .fin false (2 * r + 1) (e1 / 2 - 129)

/-- Square root (R345). -/
def sqrtV : FVal → FVal × BitVec 6
  | .nan s => (.nan false, flagIf s fNV)
  | .inf a => if a then (.nan false, fNV) else (.inf false, 0)
  | .fin a m e => if m = 0 then (.fin a 0 0, 0) else if a then (.nan false, fNV) else (sqrtFin m e, 0)

/-- The order of two values that are no NaN; −0 equals +0. -/
def cmpV : FVal → FVal → Option Ordering
  | .nan _, _ => none
  | _, .nan _ => none
  | .inf a, .inf b => some (if a == b then .eq else if a then .lt else .gt)
  | .inf a, _ => some (if a then .lt else .gt)
  | _, .inf b => some (if b then .gt else .lt)
  | .fin a m e, .fin b n g =>
    let lo := min e g
    some (compare (scaled a m e lo) (scaled b n g lo))

/-- The sign of a value that is no NaN. -/
def FVal.neg : FVal → Bool
  | .fin a _ _ => a
  | .inf a => a
  | .nan _ => false

/-- A NaN. -/
def FVal.isNan : FVal → Bool
  | .nan _ => true
  | _ => false

/-- A signalling NaN. -/
def FVal.isSnan : FVal → Bool
  | .nan s => s
  | _ => false

/-- Strictly below, with −0 below +0 (R95, R345); NaNs are not compared here. -/
def belowV (a b : FVal) : Bool :=
  match cmpV a b with
  | some .lt => true
  | some .eq => a.neg && !b.neg
  | _ => false

/-! ### Element operations on encodings (R344 to R347, R414, R415) -/

/-- Round a value computed with flags. -/
def finish (f : Fmt) (rm : BitVec 3) (v : FVal × BitVec 6) : FRes :=
  let r := roundF f rm none false v.1
  ⟨r.enc, r.fl ||| v.2⟩

/-- FADD (R345). -/
def fpAdd (f : Fmt) (rm : BitVec 3) (a b : Nat) : FRes := finish f rm (addV rm (valueF f a) (valueF f b))
/-- FSUB (R345). -/
def fpSub (f : Fmt) (rm : BitVec 3) (a b : Nat) : FRes := finish f rm (addV rm (valueF f a) (negV (valueF f b)))
/-- FMUL (R345). -/
def fpMul (f : Fmt) (rm : BitVec 3) (a b : Nat) : FRes := finish f rm (mulV (valueF f a) (valueF f b))
/-- FDIV (R345). -/
def fpDiv (f : Fmt) (rm : BitVec 3) (a b : Nat) : FRes := finish f rm (divV (valueF f a) (valueF f b))
/-- FSQRT (R345). -/
def fpSqrt (f : Fmt) (rm : BitVec 3) (a : Nat) : FRes := finish f rm (sqrtV (valueF f a))

/-- FMIN and FMAX (R345). -/
def fpMinMax (f : Fmt) (isMax : Bool) (a b : Nat) : FRes :=
  let x := valueF f a
  let y := valueF f b
  let fl := flagIf (x.isSnan || y.isSnan) fNV
  if x.isNan && y.isNan then ⟨f.nanEnc, fl⟩
  else if x.isNan then ⟨b, fl⟩
  else if y.isNan then ⟨a, fl⟩
  else if (if isMax then belowV x y else belowV y x) then ⟨b, fl⟩
  else ⟨a, fl⟩

/-- FMA in its four forms (R347). -/
def fpFma (f : Fmt) (rm : BitVec 3) (form : FmaForm) (a b c : Nat) : FRes :=
  let p := mulV (valueF f a) (valueF f b)
  let pv := if form = .n ∨ form = .ns then negV p.1 else p.1
  let cv := if form = .s ∨ form = .ns then negV (valueF f c) else valueF f c
  let s := addV rm pv cv
  finish f rm (s.1, s.2 ||| p.2)

/-- A comparison: its truth and its flag (R345, R415). -/
def fpCmp (f : Fmt) (c : FCond) (a b : Nat) : Bool × BitVec 6 :=
  let x := valueF f a
  let y := valueF f b
  let o := cmpV x y
  let quiet := flagIf (x.isSnan || y.isSnan) fNV
  let loud := flagIf (x.isNan || y.isNan) fNV
  match c with
  | .eq => (o == some .eq, quiet)
  | .ne => (o != some .eq, quiet)
  | .lt => (o == some .lt, loud)
  | .le => (o == some .lt || o == some .eq, loud)
  | .un => (o == none, quiet)

/-- FCLASS's kind (R345). -/
def fpKind (f : Fmt) (a : Nat) : Nat :=
  match valueF f a with
  | .fin _ m _ => if m = 0 then 0 else if a % f.signBit < 2 ^ f.mbits then 1 else 2
  | .inf _ => 3
  | .nan s => if s then 5 else 4

/-- Conversion of an encoding between two types, at least one of them floating point (R77 to R80). -/
def convert (dst src : Ty) (rm : BitVec 3) (draw : Option Nat) (enc : Nat) : FRes :=
  let v := if src.isAnyFp then valueF (fmtOf src) enc else valueInt (intOf src enc)
  if dst.isAnyFp then roundF (fmtOf dst) rm draw false v else toIntTy dst rm v

end Sys2Proof.Machine
end

