-- ==== Sys2Proof/Machine/Special.lean ====
section
/-!
DEFINITION. The special functions RCP, RSQRT, EXP2, LOG2 and TANH (spec/03_numbers.md R84, R85).
Irrational values are computed to 400 fraction bits, far below any rounding position, and carried as the odd dyadic
just above the computed floor. UNVERIFIED (log 19): that no FP32 or BF16 operand has its value within that error of
a rounding boundary.
-/
namespace Sys2Proof.Machine

/-- The unit of the fixed-point numbers: 2^400. -/
def fixOne : Nat := 2 ^ 400
/-- ln 2 in fixed point. -/
def fixLn2 : Nat :=
  1789879222497203190815761498240779176894896805856420935579692301363062920687047601279850318367644315849030039181347319086
/-- e^t in fixed point for t below 2^(−8): sixty terms of the series. -/
def expSmall (t : Nat) : Nat :=
  (List.range 60).foldl (fun acc j => fixOne + t * acc / ((60 - j) * fixOne)) fixOne
/-- Square a fixed-point number so many times. -/
def sqTimes : Nat → Nat → Nat
  | 0, x => x
  | n + 1, x => sqTimes n (x * x / fixOne)
/-- e^y in fixed point for y from 0 to 64. -/
def expFix (y : Nat) : Nat := sqTimes 14 (expSmall (y / 2 ^ 14))
/-- ln((1 + z) ÷ (1 − z)) ÷ 2 in fixed point for z up to 1/3: the odd series. -/
def atanhFix (z : Nat) : Nat :=
  let z2 := z * z / fixOne
  z * (List.range 140).foldl (fun acc j => fixOne / (2 * (139 - j) + 1) + z2 * acc / fixOne) 0 / fixOne

/-- A number known to lie just above n × 2^(−400) × 2^e. -/
def fixVal (neg : Bool) (n : Nat) (e : Int) : FVal := .fin neg (2 * n + 1) (e - 401)

/-- 1 ÷ √(m × 2^e) for m ≠ 0. -/
def rsqrtFin (m : Nat) (e : Int) : FVal :=
  let m1 := if e % 2 = 0 then m else 2 * m
  let e1 := if e % 2 = 0 then e else e - 1
  let r := isqrt (2 ^ 512 / m1)
  if r * r * m1 = 2 ^ 512 then .fin false r (-256 - e1 / 2) else .fin false (2 * r + 1) (-257 - e1 / 2)

/-- 2^x for x = ±m × 2^e. -/
def exp2Fin (neg : Bool) (m : Nat) (e : Int) : FVal :=
  let x := scaled neg m e (min e (-400))
  let one : Int := (2 : Int) ^ (max (-e) 400).toNat
  let n := x / one
  let c := max (-2000) (min 2000 n)
  if x % one = 0 then .fin false 1 c
  else if n < -2000 ∨ 2000 < n then .fin false 3 c
  else fixVal false (expFix ((x % one).toNat * fixLn2 / one.toNat)) c

/-- log2 of m × 2^e for m ≠ 0. -/
def log2Fin (m : Nat) (e : Int) : FVal :=
  let p := Nat.log2 m
  if m = 2 ^ p then valueInt (p + e)
  else
    let l := 2 * atanhFix ((m - 2 ^ p) * fixOne / (m + 2 ^ p)) * fixOne / fixLn2
    let t : Int := 2 * (((p : Int) + e) * fixOne + l) + 1
    .fin (decide (t < 0)) t.natAbs (-401)

/-- tanh of m × 2^e for m ≠ 0. -/
def tanhFin (neg : Bool) (m : Nat) (e : Int) : FVal :=
  let p := topExp m e
  if p < -60 then .fin neg (m * 2 ^ 64 - 1) (e - 64)
  else if 5 ≤ p then .fin neg (2 ^ 64 - 1) (-64)
  else
    let x := expFix (m * 2 ^ (e + 401).toNat)
    fixVal neg ((x - fixOne) * fixOne / (x + fixOne)) 0

/-- The exact value of a special function, with NV or DZ (R84, R85). -/
def specialV (fn : SfFn) : FVal → FVal × BitVec 6
  | .nan s => (.nan false, flagIf s fNV)
  | .inf neg =>
    match fn with
    | .rcp => (.fin neg 0 0, 0)
    | .rsqrt => if neg then (.nan false, fNV) else (.fin false 0 0, 0)
    | .exp2 => if neg then (.fin false 0 0, 0) else (.inf false, 0)
    | .log2 => if neg then (.nan false, fNV) else (.inf false, 0)
    | .tanh => (.fin neg 1 0, 0)
  | .fin neg m e =>
    if m = 0 then
      match fn with
      | .rcp | .rsqrt => (.inf neg, fDZ)
      | .exp2 => (.fin false 1 0, 0)
      | .log2 => (.inf true, fDZ)
      | .tanh => (.fin neg 0 0, 0)
    else
      match fn with
      | .rcp => (ratio neg 1 m (-e), 0)
      | .rsqrt => if neg then (.nan false, fNV) else (rsqrtFin m e, 0)
      | .exp2 => (exp2Fin neg m e, 0)
      | .log2 => if neg then (.nan false, fNV) else (log2Fin m e, 0)
      | .tanh => (tanhFin neg m e, 0)

/-- VSF of an element (R84, R85, R417). -/
def special (fn : SfFn) (f : Fmt) (rm : BitVec 3) (a : Nat) : FRes := finish f rm (specialV fn (valueF f a))

end Sys2Proof.Machine
end

