-- ==== Sys2Proof/Machine/Sum.lean ====
section
/-!
DEFINITION. Sums under the numeric behaviour versions: dot products, reductions and scans
(spec/04_numeric_versions.md R86 to R96; spec/16_pseudocode.md R335 to R337).
-/
namespace Sys2Proof.Machine

/-- A finite term i × 2^e. -/
abbrev Term := Int × Int

/-- The finite term of a value; a special value has none. -/
def termOf : FVal → Term
  | .fin neg m e => (scaled neg m e e, e)
  | _ => (0, 0)

/-- The exact sum of terms. -/
def exactSum (ts : List Term) : Term :=
  let lo := ts.foldl (fun acc t => min acc t.2) 0
  (ts.foldl (fun acc t => acc + t.1 * (2 : Int) ^ (t.2 - lo).toNat) 0, lo)

/-- A term truncated toward zero to a multiple of 2^q (R89). -/
def truncTerm (q : Int) (t : Term) : Int :=
  let m := if q ≤ t.2 then t.1.natAbs * 2 ^ (t.2 - q).toNat else t.1.natAbs / 2 ^ (q - t.2).toNat
  if t.1 < 0 then -(m : Int) else m

/-- WindowSum (R89, R335). -/
def windowSum (fbits : Nat) (ts : List Term) : Term :=
  match (ts.filter fun t => t.1 != 0).map (fun t => topExp t.1.natAbs t.2) with
  | [] => (0, 0)
  | x :: xs =>
    let q := xs.foldl max x - fbits
    (ts.foldl (fun acc t => acc + truncTerm q t) 0, q)

/-- A term as a value; an exact zero is +0. -/
def valTerm (t : Term) : FVal := .fin (decide (t.1 < 0)) t.1.natAbs t.2

/-- Steps 1 and 2 of R88 over the terms of a group: the special sum, if there is one, and whether opposing
infinities raise NV. -/
def specialSum (vs : List FVal) : Option FVal × BitVec 6 :=
  let pos := vs.any (· == .inf false)
  let neg := vs.any (· == .inf true)
  let fl := flagIf (pos && neg) fNV
  if vs.any FVal.isNan || (pos && neg) then (some (.nan false), fl)
  else if pos then (some (.inf false), fl)
  else if neg then (some (.inf true), fl)
  else (none, fl)

/-- Round the window sum v where the exact sum is x: truncation below the window counts as inexact
(R90, R93, R74). -/
def roundWindow (f : Fmt) (rm : BitVec 3) (v x : FVal) : FRes :=
  match v with
  | .fin neg m e =>
    let r := roundFin f rm none false neg m e
    let inexact := cmpV (valueF f r.enc) x != some .eq
    ⟨r.enc, (r.fl &&& fOF) ||| flagIf inexact fNX ||| flagIf (inexact && m != 0 && isTiny f rm none neg m e) fUF⟩
  | _ => roundF f rm none false v

/-! ### Dot products (R88 to R91, R336) -/

/-- Positions of a group and the fraction bits of its window (R89). -/
def groupOf (nbv : BitVec 8) : Nat × Nat := if nbv = 1 then (4, 28) else if nbv = 2 then (16, 34) else (32, 49)

/-- Split a list into groups of g. -/
def groups {α : Type} (g : Nat) : Nat → List α → List (List α)
  | 0, _ => []
  | n + 1, l => if l.isEmpty then [] else l.take g :: groups g n (l.drop g)

/-- Fold one group's products into the accumulator (R88, R90). -/
def foldGroup (nbv : BitVec 8) (rm : BitVec 3) (c : Nat) (ps : List (FVal × BitVec 6)) : FRes :=
  let fl := ps.foldl (fun acc p => acc ||| p.2) 0
  let vs := ps.map (·.1)
  let acc := valueF fmtSf c
  match specialSum vs with
  | (some g, fl2) =>
    let r := finish fmtSf rm (addV rm acc g)
    ⟨r.enc, r.fl ||| fl ||| fl2⟩
  | (none, _) =>
    let ts := vs.map termOf
    let s := windowSum (groupOf nbv).2 ts
    if s.1 = 0 then ⟨c, 0⟩
    else
      let v := addV rm acc (valTerm s)
      let r := match acc with
        | .fin _ _ _ => roundWindow fmtSf rm v.1 (valTerm (exactSum (termOf acc :: ts)))
        | _ => finish fmtSf rm v
      let mag := r.enc % fmtSf.signBit
      if nbv = 1 ∧ mag ≠ 0 ∧ mag < 2 ^ 23 then ⟨r.enc - mag, r.fl ||| fUF ||| fNX⟩ else r

/-- NBDot for the floating-point and block-scaled formats (R336): the products of a K step in order. -/
def nbDot (nbv : BitVec 8) (rm : BitVec 3) (c : Nat) (ps : List (FVal × BitVec 6)) : FRes :=
  (groups (groupOf nbv).1 ps.length ps).foldl
    (fun acc g => let r := foldGroup nbv rm acc.enc g; ⟨r.enc, acc.fl ||| r.fl⟩) ⟨c, 0⟩

/-- IntDot (R91, R336). -/
def intDot (c : Nat) (ps : List Int) : FRes :=
  let s := ps.foldl (· + ·) (intOf .w c)
  if s < intMin .w then ⟨wrapInt 32 (intMin .w), fSAT⟩
  else if intMax .w < s then ⟨wrapInt 32 (intMax .w), fSAT⟩
  else ⟨wrapInt 32 s, 0⟩

/-! ### Reductions and scans (R92 to R95, R337) -/

/-- One rounded addition of R93. -/
def addRound (f : Fmt) (rm : BitVec 3) (a b : FVal) : FVal × BitVec 6 :=
  let r := finish f rm (addV rm a b)
  (valueF f r.enc, r.fl)

/-- Combine two places of the tree of R93. -/
def treePair (f : Fmt) (rm : BitVec 3) : Option FVal × BitVec 6 → Option FVal × BitVec 6 → Option FVal × BitVec 6
  | (none, p), (y, q) => (y, p ||| q)
  | (x, p), (none, q) => (x, p ||| q)
  | (some x, p), (some y, q) => let r := addRound f rm x y; (some r.1, p ||| q ||| r.2)

/-- One level of the tree of R93. -/
def treeLevel (f : Fmt) (rm : BitVec 3) : List (Option FVal × BitVec 6) → List (Option FVal × BitVec 6)
  | a :: b :: t => treePair f rm a b :: treeLevel f rm t
  | l => l

/-- The fraction bits of the reduction window (R89). -/
def redFrac (f : Fmt) : Nat := if f = fmtDf then 106 else 42

/-- The update of the accumulator by a block of eight, absent elements `none` (R93). -/
def blockSum (nbv : BitVec 8) (f : Fmt) (rm : BitVec 3) (acc : Nat) (xs : List (Option FVal)) : FRes :=
  let present := xs.filterMap id
  if present.isEmpty then ⟨acc, 0⟩
  else if nbv = 1 then
    present.foldl (fun a x => let r := finish f rm (addV rm (valueF f a.enc) x); ⟨r.enc, a.fl ||| r.fl⟩) ⟨acc, 0⟩
  else if nbv = 2 then
    let l := treeLevel f rm (treeLevel f rm (treeLevel f rm (xs.map fun x => (x, 0))))
    match l with
    | (some t, fl) :: _ =>
      let r := finish f rm (addV rm (valueF f acc) t)
      ⟨r.enc, r.fl ||| fl⟩
    | _ => ⟨acc, 0⟩
  else
    let vs := valueF f acc :: present
    let sn := flagIf (vs.any FVal.isSnan) fNV
    match specialSum vs with
    | (some g, fl) => let r := roundF f rm none false g; ⟨r.enc, r.fl ||| fl ||| sn⟩
    | (none, _) =>
      let ts := vs.map termOf
      let s := windowSum (redFrac f) ts
      let allNeg := vs.all fun v => match v with | .fin true 0 _ => true | _ => false
      let v : FVal := if s.1 = 0 then .fin (allNeg || rm == 2) 0 0 else valTerm s
      roundWindow f rm v (valTerm (exactSum ts))

/-- The eight places of block b. -/
def blockAt (e : Nat → Option FVal) (b : Nat) : List (Option FVal) := (List.range 8).map fun j => e (8 * b + j)

/-- NBReduce (R92, R93, R337) over n elements. -/
def nbReduce (nbv : BitVec 8) (f : Fmt) (rm : BitVec 3) (acc n : Nat) (e : Nat → Option FVal) : FRes :=
  (List.range ((n + 7) / 8)).foldl
    (fun a b => let r := blockSum nbv f rm a.enc (blockAt e b); ⟨r.enc, a.fl ||| r.fl⟩) ⟨acc, 0⟩

/-- NBScan (R94, R337) over n elements: the written elements (index, encoding), the accumulator and the flags. -/
def nbScan (nbv : BitVec 8) (f : Fmt) (rm : BitVec 3) (acc n : Nat) (e : Nat → Option FVal) :
    List (Nat × Nat) × FRes :=
  (List.range ((n + 7) / 8)).foldl
    (fun st b =>
      let xs := blockAt e b
      let accB := st.2.enc
      (List.range 8).foldl
        (fun st j =>
          if (xs.getD j none).isSome then
            let r := blockSum nbv f rm accB (xs.take (j + 1) ++ List.replicate (7 - j) none)
            ((8 * b + j, r.enc) :: st.1, ⟨r.enc, st.2.fl ||| r.fl⟩)
          else st) st)
    ([], ⟨acc, 0⟩)

/-- VFREDMIN and VFREDMAX (R95): the least or greatest of the values, in the format f. -/
def selectV (isMax : Bool) (f : Fmt) (vs : List FVal) : FRes :=
  let fl := flagIf (vs.any FVal.isSnan) fNV
  match vs.filter (fun v => !v.isNan) with
  | [] => ⟨f.nanEnc, fl⟩
  | x :: xs =>
    let m := xs.foldl (fun a b => if (if isMax then belowV a b else belowV b a) then b else a) x
    ⟨(roundF f 0 none false m).enc, fl⟩

end Sys2Proof.Machine
end

