-- ==== Sys2Proof/Machine/Cache.lean ====
section
/-!
DEFINITION. The data caches of the cores, the LLC slices and the directories: which copies of a line an access brings,
drops and invalidates (spec/01_machine.md R25; spec/07_local_memory.md R143 to R148). Every copy has the value that
`State.mem` gives, since the copies are coherent. Which entry a full set replaces, the set a line has in an LLC bank,
the size of a directory and the path of agents that are no harts are the model's (DESIGN CHOICE, log 96).
-/
namespace Sys2Proof.Machine

/-! ### Places -/

/-- Memory that is cacheable and coherent, so that it is tracked: the HBM window, host memory and the windows of peer
modules (R144, R155, R168). -/
def tracked (pa : Nat) : Bool :=
  decide (pa < 0x10000000000) || (decide (0x40000000000 ≤ pa) && decide (pa < 0x80000000000))
    || (decide (0x100000000000 ≤ pa) && decide (pa < 0x180000000000))

/-- The home island of a line, every island being enabled (R147). -/
def homeOf (pa : Nat) : Nat := pa / 4096 % 20

/-- Scratchpad rows S of a LOCALSPLIT value (R60). -/
def spadRows (split : BitVec 3) : Nat :=
  if split = 0 then 0 else if split = 1 then 512 else if split = 2 then 1024 else if split = 3 then 2048 else 4096

/-- L2 sets of a core (R146). -/
def l2Sets (split : BitVec 3) : Nat := (4096 - spadRows split) * 248 / 1024
/-- A core has an L2 portion (R145). -/
def hasL2 (s : State) (c : Nat) : Bool := l2Sets (core s c).split != 0
/-- The speculative rows in use on a core (R215). -/
def rowsOn (s : State) (c : Nat) : List Nat := s.tasks.flatMap fun e => if e.rowCore = c then e.rows else []
/-- The rows in the L2 set of a line: ways that hold no other line (R215). -/
def rowsInSet (s : State) (c line : Nat) : Nat :=
  ((rowsOn s c).filter fun r => r / 64 % l2Sets (core s c).split == line % l2Sets (core s c).split).length

/-- The caches of a core. -/
def coreCache (s : State) (c : Nat) : CoreCache := (tabGet s.caches.cores c).getD {}
/-- The LLC slice and the directory slice of an island. -/
def homeCache (s : State) (n : Nat) : HomeCache := (tabGet s.caches.homes n).getD {}
/-- Change the caches of a core. -/
def onCoreCache (s : State) (c : Nat) (f : CoreCache → CoreCache) : State :=
  { s with caches := { s.caches with cores := tabSet s.caches.cores c (f (coreCache s c)) } }
/-- Change the slices of a line's home. -/
def onHome (s : State) (line : Nat) (f : HomeCache → HomeCache) : State :=
  let n := homeOf (64 * line)
  { s with caches := { s.caches with homes := tabSet s.caches.homes n (f (homeCache s n)) } }

/-- The entry that makes room for a line where `ways` entries of its set are in use: a free one. -/
def victimOf {α : Type} (s : State) (line ways : Nat) (inSet : α → Bool) (l : List α) : Option α :=
  let m := l.filter inSet
  if m.length < ways then none else m[Config.victim s.time line % m.length]?

/-! ### The home of a line (R25, R148) -/

/-- The LLC slice takes a line: 32 banks of 1,024 sets, 12-way; the line it replaces goes to memory. -/
def fillLlc (s : State) (line : Nat) (dirty : Bool) : State :=
  onHome s line fun h =>
    let room := match victimOf s line 12 (fun x => x.1 % 32768 == line % 32768 && x.1 != line) h.llc with
      | some v => tabDel h.llc v.1
      | none => h.llc
    { h with llc := tabSet room line (dirty || (tabGet h.llc line).getD false) }

/-- The directory's entry of a line. -/
def dirEntryOf (s : State) (line : Nat) : Option DirEntry :=
  (homeCache s (homeOf (64 * line))).dir.find? (·.line == line)

/-- Set the directory's entry of a line; one that no agent shares is gone. -/
def setEntry (s : State) (e : DirEntry) : State :=
  onHome s e.line fun h =>
    let rest := h.dir.filter (·.line != e.line)
    { h with dir := if e.sharers.isEmpty then rest else e :: rest }

/-- An agent's copy of a line is invalid; an L2 line takes its L1D copy along (R145). -/
def dropCopy (line : Nat) (s : State) : Sharer → State
  | .l2 c => onCoreCache s c fun k => { l1d := k.l1d.filter (· != line), l2 := tabDel k.l2 line }
  | .l1d c => onCoreCache s c fun k => { k with l1d := k.l1d.filter (· != line) }
  | .gateway | .peer _ => s

/-- Every copy of a line but one agent's is invalidated, and modified data is taken back. -/
def invalidateLine (s : State) (line : Nat) (keep : Option Sharer) : State :=
  match dirEntryOf s line with
  | none => s
  | some e =>
    let gone := e.sharers.filter (some · != keep)
    let s1 := gone.foldl (dropCopy line) s
    let s2 := if e.state == .modified && !gone.isEmpty then fillLlc s1 line true else s1
    setEntry s2 { e with sharers := e.sharers.filter (some · == keep) }

/-- A line carries the marks of a task, so that its directory entry is not evicted (R215). -/
def isMarked (s : State) (line : Nat) : Bool :=
  s.tasks.any fun e => (e.reads ++ e.writes).any fun u => u.base / 64 == line

/-- Room for a new entry: the directory evicts one, every copy of its line first (R148), of those that carry no marks
(R215). -/
def directoryRoom (s : State) (line : Nat) : State :=
  let dir := (homeCache s (homeOf (64 * line))).dir
  let kept := (dir.filter fun e => isMarked s e.line).length
  match victimOf s line (Config.directoryLines - kept) (fun e => !isMarked s e.line) dir with
  | some v => invalidateLine s v.line none
  | none => s

/-- An agent takes a copy of a line to read it. -/
def shareLine (s : State) (who : Sharer) (line : Nat) : State :=
  match dirEntryOf s line with
  | none => setEntry (fillLlc (directoryRoom s line) line false) ⟨line, .exclusive, [who]⟩
  | some e =>
    if who ∈ e.sharers then s
    else setEntry (fillLlc s line (e.state == .modified)) ⟨line, .shared, e.sharers ++ [who]⟩

/-- An agent takes the only copy of a line, to write it. -/
def ownLine (s : State) (who : Sharer) (line : Nat) : State :=
  let s1 := invalidateLine s line (some who)
  let s2 := if (dirEntryOf s1 line).isSome then s1 else fillLlc (directoryRoom s1 line) line false
  setEntry s2 ⟨line, .modified, [who]⟩

/-- An agent gives its copy of a line up. -/
def leaveLine (s : State) (who : Sharer) (line : Nat) : State :=
  match dirEntryOf s line with
  | none => s
  | some e =>
    let s1 := if e.state == .modified && who ∈ e.sharers then fillLlc s line true else s
    setEntry s1 { e with sharers := e.sharers.filter (· != who) }

/-- A line is read at its home by an agent that keeps no copy. -/
def readHome (s : State) (line : Nat) : State :=
  match dirEntryOf s line with
  | some e => if e.state == .modified then setEntry (fillLlc s line true) { e with state := .shared } else fillLlc s line false
  | none => fillLlc s line false

/-- A line is written at its home: every copy but one is invalidated first. -/
def writeHome (s : State) (line : Nat) (keep : Option Sharer) : State :=
  let s1 := fillLlc (invalidateLine s line keep) line true
  match dirEntryOf s1 line with
  | some e => setEntry s1 { e with state := .shared }
  | none => s1

/-- The line's committed data goes to memory, and every copy stays valid (R357). -/
def cleanLine (s : State) (line : Nat) : State :=
  let s1 := match dirEntryOf s line with
    | some e => if e.state == .modified then setEntry s { e with state := .exclusive } else s
    | none => s
  onHome s1 line fun h => { h with llc := h.llc.map fun x => if x.1 = line then (line, false) else x }

/-- Every cached copy of the line is invalidated, its data being in memory (R357). -/
def purgeLine (s : State) (line : Nat) : State :=
  onHome (invalidateLine s line none) line fun h => { h with llc := tabDel h.llc line }

/-! ### The caches of a core (R145) -/

/-- A line leaves the L2 portion of a core, and its L1D with it. -/
def dropL2 (s : State) (c line : Nat) : State := dropCopy line (leaveLine s (.l2 c) line) (.l2 c)

/-- The L2 portion takes a line. -/
def fillL2 (s : State) (c line : Nat) : State :=
  let sets := l2Sets (core s c).split
  let s1 := match victimOf s line (16 - rowsInSet s c line) (fun x => x.1 % sets == line % sets) (coreCache s c).l2 with
    | some v => dropL2 s c v.1
    | none => s
  onCoreCache s1 c fun k => { k with l2 := tabSet k.l2 line false }

/-- The L2 portion holds a line. -/
def inL2 (s : State) (c line : Nat) : Bool := (tabGet (coreCache s c).l2 line).isSome

/-- A way of the line's L2 set holds no speculative row. -/
def l2Way (s : State) (c line : Nat) : Bool := decide (rowsInSet s c line < 16)

/-- The L2 portion reads a line. -/
def loadL2 (s : State) (c line : Nat) : State :=
  if inL2 s c line then s
  else if l2Way s c line then fillL2 (shareLine s (.l2 c) line) c line
  else readHome s line

/-- The L2 portion writes a line. -/
def storeL2 (s : State) (c line : Nat) : State :=
  if inL2 s c line then ownLine s (.l2 c) line
  else if l2Way s c line then fillL2 (ownLine s (.l2 c) line) c line
  else writeHome s line none

/-- Speculative rows have taken a way of a line's set: a line that stands there goes (R146, R215). -/
def trimL2 (s : State) (c line : Nat) : State :=
  let sets := l2Sets (core s c).split
  match victimOf s line (17 - rowsInSet s c line) (fun x => x.1 % sets == line % sets) (coreCache s c).l2 with
  | some v => dropL2 s c v.1
  | none => s

/-- The L1D takes a line; the scalar-presence bits follow. -/
def fillL1d (s : State) (c line : Nat) : State :=
  let s1 := match victimOf s line 4 (fun x => x % 256 == line % 256) (coreCache s c).l1d with
    | some v =>
      let s1 := if hasL2 s c then s else leaveLine s (.l1d c) v
      onCoreCache s1 c fun k =>
        { l1d := k.l1d.filter (· != v), l2 := if (tabGet k.l2 v).isSome then tabSet k.l2 v false else k.l2 }
    | none => s
  onCoreCache s1 c fun k => { l1d := line :: k.l1d, l2 := if hasL2 s c then tabSet k.l2 line true else k.l2 }

/-- A scalar load of a line. -/
def loadScalarLine (c : Nat) (s : State) (line : Nat) : State :=
  if line ∈ (coreCache s c).l1d then s
  else if hasL2 s c then
    let s1 := loadL2 s c line
    if inL2 s1 c line then fillL1d s1 c line else s1
  else fillL1d (shareLine s (.l1d c) line) c line

/-- A scalar store to a line: it writes through, and the L1D allocates nothing. -/
def storeScalarLine (c : Nat) (s : State) (line : Nat) : State :=
  if hasL2 s c then storeL2 s c line
  else writeHome s line (if line ∈ (coreCache s c).l1d then some (.l1d c) else none)

/-- A vector or matrix load of a line, a fetch that misses the L1I, a table read of a walk: past the L1D. -/
def loadVectorLine (c : Nat) (s : State) (line : Nat) : State :=
  if hasL2 s c then loadL2 s c line else readHome s line

/-- A vector or matrix store to a line: it invalidates the L1D copy first. -/
def storeVectorLine (c : Nat) (s : State) (line : Nat) : State :=
  if hasL2 s c then
    let s1 := if (tabGet (coreCache s c).l2 line).getD false then
        onCoreCache s c fun k => { l1d := k.l1d.filter (· != line), l2 := tabSet k.l2 line false }
      else s
    storeL2 s1 c line
  else writeHome s line none

/-- The line of an address is brought into the L2 portion, or into the LLC (R370). -/
def prefetchLine (c : Nat) (s : State) (line : Nat) : State :=
  if !hasL2 s c then readHome s line else if l2Way s c line then loadL2 s c line else s

/-- A core's L2 portion and L1D are written back and emptied (R60, R263). -/
def flushCore (s : State) (c : Nat) : State :=
  let k := coreCache s c
  let s1 := (k.l2.map (·.1)).foldl (fun s l => dropL2 s c l) s
  k.l1d.foldl (fun s l => dropCopy l (leaveLine s (.l1d c) l) (.l1d c)) s1

/-- The cacheable lines of spans of bytes, each an address and a length, in their order. -/
def linesTouched (l : List (Nat × Nat)) : List Nat :=
  (l.flatMap fun p => if tracked p.1 && p.2 != 0 then (List.range ((p.1 % 64 + p.2 + 63) / 64)).map (p.1 / 64 + ·) else []).eraseDups

/-- Accesses to spans of bytes act on their lines. -/
def touch (f : State → Nat → State) (s : State) (l : List (Nat × Nat)) : State := (linesTouched l).foldl f s

end Sys2Proof.Machine
end

