-- ==== Sys2Proof/Machine/Foreign.lean ====
section
/-!
DEFINITION. Tasks as every write meets them: the order of keys, the units of conflict tracking, aborts, and foreign
writes (spec/10_tasks.md R207, R208, R214, R215, R217, R218).
Entries stand in `State.tasks` in the order of their creation, so a creator stands before its children.
-/
namespace Sys2Proof.Machine

/-! ### Keys (R208) -/

/-- Every place of one key in another, renamed: a task takes its identifier (R207). -/
def Key.rename (k old new : Key) : Key :=
  match k with
  | .ident t i => if Key.ident t i = old then new else .ident t i
  | .pending t p c => if Key.pending t p c = old then new else .pending t (p.rename old new) c

/-- The lower of two keys, all ones above every key (R219). -/
def minKey : Option Key → Key → Option Key
  | none, k => some k
  | some a, k => if k.lt a then some k else some a

/-- The identifier of a key; all ones while it is pending (R213, R219). -/
def Key.id : Key → Nat
  | .ident _ i => i
  | .pending _ _ _ => 0xFFFFFFFF

/-! ### The entries of a domain -/

/-- The entries of a domain. -/
def tasksOf (s : State) (v d : Nat) : List TaskEntry := s.tasks.filter fun e => e.part == v && e.dom == d
/-- An unfinished entry: one counted in the minimum (R214). -/
def TaskEntry.unfinished (e : TaskEntry) : Bool := e.st != .finished
/-- The task is the earliest unfinished one of its domain: its key equals the frontier (R208). -/
def isEarliest (s : State) (e : TaskEntry) : Bool :=
  e.unfinished && (domain s e.part e.dom).frontier == some e.key
/-- A protected task (R217). A FINISHED task whose key the frontier still names was the earliest when it finished. -/
def isProtected (s : State) (e : TaskEntry) : Bool :=
  isEarliest s e ||
  (e.st == .finished && match (domain s e.part e.dom).frontier with
    | some k => e.key.lt k || e.key == k
    | none => !(tasksOf s e.part e.dom).any TaskEntry.unfinished)

/-! ### Units (R215) -/

/-- A unit shares a byte with a list. -/
def meetsAny (us : List TUnit) (vs : List TUnit) : Bool := us.any fun u => vs.any u.meets
/-- The units of a physical range: lines, or 8-byte words on a page with FG set. -/
def unitsOf (pa n : Nat) (fg : Bool) : List TUnit :=
  let g := if fg then 8 else 64
  (List.range ((pa + n + g - 1) / g - pa / g)).map fun i => ⟨(pa / g + i) * g, fg⟩
/-- The lines of a physical range. -/
def linesOf (pa n : Nat) : List Nat := (unitsOf pa n false).map (·.base)
/-- Add what is not yet in a list. -/
def addNew {α : Type} [DecidableEq α] (l m : List α) : List α := m.foldl (fun acc x => if x ∈ acc then acc else acc ++ [x]) l

/-! ### Aborts (R218) -/

/-- The entries of a set with every descendant. -/
def withDescendants (ts : List TaskEntry) (roots : List Nat) : List Nat :=
  ts.foldl (fun acc e => match e.parent with
    | some p => if p ∈ acc then (if e.uid ∈ acc then acc else acc ++ [e.uid]) else acc
    | none => acc) roots

/-- A reduction or a scan. -/
def VAct.folds : VAct → Bool
  | .red _ _ _ _ _ | .fred _ _ _ _ _ _ | .scan _ _ _ _ _ _ => true
  | _ => false

/-- A convoy with a reduction or a scan, which completes once it is in flight (R31, R218). -/
def Convoy.folds (c : Convoy) : Bool := c.members.any (·.act.folds)

/-- A hart whose task is gone: its queued vector instructions are discarded, a reduction or scan in flight completes,
and it is idle (R218). The members of a held convoy had trapped, and leave INSTRET (R51). Nothing is in its matrix queue,
which only an irrevocable task fills: that one is never aborted, and its TABORT waits for the queue (R222, log 107). -/
def idleHart (h : Hart) : Hart :=
  { h with task := none, wait := none, vq := [], flight := h.flight.filter (·.convoy.folds)
           sdest := h.sdest.filter (·.folds), lateFault := none
           heldConvoy := none, heldAdvance := 0, aside := none, late := h.late && h.heldConvoy.isNone, loops := [], body := none
           vepc := if h.heldConvoy.isSome then 0 else h.vepc, instret := h.instret - heldMembers h
           pc := h.enter.elim h.pc (·.pc), mode := h.enter.elim h.mode (·.mode) }

/-- Waiting tasks and harts look again at what they waited for (R214, R216, R217). -/
def wakeConflicts (s : State) : State :=
  { s with
    tasks := s.tasks.map fun e =>
      if e.st == .waiting then { e with st := if e.wasIrrev then .irrev else .running, wasIrrev := false } else e
    harts := s.harts.map fun p => (p.1, if p.2.wait == some .conflict then { p.2 with wait := none } else p.2) }

/-- A saved hart whose task is gone is idle once it is resumed, whatever becomes of the task's name (R218, R239). -/
def dropSaved (uid : Nat) (s : State) : State :=
  let drop (g : Gang) : Gang := { g with
    dropped := g.dropped ++ (g.shells.filter fun q => q.2.task == some uid).map (·.1) }
  { s with islands := s.islands.map fun p => (p.1, { p.2 with gangs := p.2.gangs.map fun g => (g.1, drop g.2) }) }

/-- Take tasks off their harts and count them, as aborted or discarded (R203, R218). -/
def dropTasks (s : State) (uids : List Nat) : State :=
  (s.tasks.filter fun e => e.uid ∈ uids).foldl (fun s e =>
    let s1 := onDomain s e.part e.dom fun d =>
      { d with aborts := d.aborts + 1, discards := d.discards + (if e.fault.isSome then 1 else 0) }
    match e.hart with
    | some h => onHart s1 h idleHart
    | none => dropSaved e.uid s1) s

/-- An entry ready again under its key (R218). -/
def TaskEntry.again (e : TaskEntry) : TaskEntry :=
  { e with st := .ready, wasIrrev := false, hart := none, children := 0, fault := none, flags := 0, buf := []
           rows := [], reads := [], writes := [], homeLines := [], pins := [] }

/-- Abort a task as the root of a cascade (R218). -/
def abortTask (s : State) (uid : Nat) : State :=
  let all := withDescendants s.tasks [uid]
  let s1 := dropTasks s all
  wakeConflicts { s1 with
    tasks := (s1.tasks.filter fun e => !(e.uid ∈ all) || e.uid == uid).map fun e =>
      if e.uid = uid then e.again else e }

/-- TABORT: the task is gone with its descendants (R214). -/
def discardTask (s : State) (uid : Nat) : State :=
  let all := withDescendants s.tasks [uid]
  let s1 := dropTasks s all
  wakeConflicts { s1 with tasks := s1.tasks.filter fun e => !(e.uid ∈ all) }

/-- Abort each of several tasks that is still on its way, creators first, each once. -/
def abortAll (s : State) (uids : List Nat) : State :=
  uids.foldl (fun s u => match taskOf s u with
    | some e => if e.st == .ready then s else abortTask s u
    | none => s) s

/-! ### Foreign writes (R217) -/

/-- Whose write it is: no task, an irrevocable write of a task, or the commit of a domain. -/
structure Writer where
  uid : Option Nat := none
  dom : Option (Nat × Nat) := none
  deriving DecidableEq, Repr

/-- The tasks a foreign write reaches: readers of the units, other than the writer's own. -/
def reachedBy (s : State) (w : Writer) (us : List TUnit) : List TaskEntry :=
  s.tasks.filter fun e => some e.uid != w.uid && some (e.part, e.dom) != w.dom && meetsAny us e.reads

/-- The write waits: a protected task has read a unit. -/
def writeBlocked (s : State) (w : Writer) (us : List TUnit) : Bool := (reachedBy s w us).any (isProtected s)

/-- The readers that are not protected abort. -/
def abortReaders (s : State) (w : Writer) (us : List TUnit) : State :=
  abortAll s (((reachedBy s w us).filter fun e => !isProtected s e).map (·.uid))

/-- Write bytes at their physical addresses. A store over a whole lost line clears its record (R259), and a written
word is no longer uncorrectable. -/
def storeBytes (s : State) (cells : List Host.Cell) : State :=
  let as := cells.map (·.1)
  { s with
    mem := cells.foldl (fun m c => memWrite m c.1 c.2) s.mem
    poison := s.poison.filter fun p => !(List.range 8).all fun i => (p.1 + i) ∈ as
    lostLines := s.lostLines.filter fun l => !(List.range 64).all fun i => (l + i) ∈ as }

/-- The lines of cells that are tracked. -/
def cellUnits (cells : List Host.Cell) : List TUnit :=
  (addNew [] ((cells.filter fun c => tracked c.1).map fun c => c.1 / 8 * 8)).map fun a => ⟨a, true⟩

/-- A foreign write that need not wait: its readers abort and its bytes are written. -/
def foreignStore (s : State) (w : Writer) (cells : List Host.Cell) : State :=
  storeBytes (abortReaders s w (cellUnits cells)) cells

/-- A foreign write that its home performs: the copies of its lines are invalidated first (R148). -/
def homeStore (s : State) (w : Writer) (cells : List Host.Cell) : State :=
  touch (fun s l => writeHome s l none) (foreignStore s w cells) (cells.map fun c => (c.1, 1))

/-- Cells of bytes from an address on. -/
def cellsAt (pa : Nat) (bs : List Byte) : List Host.Cell := bs.mapIdx fun i b => (pa + i, b)

/-- Pend cause 0xE0 + k of a hart (R277). -/
def pendIrq (s : State) (h k : Nat) : State := onHart s h fun x => { x with ipend := x.ipend ||| w64 (2 ^ k) }

/-- Pend cause 0xE0 + k of the compute hart that a register names by its number; past the last there is none (R17). -/
def pendNamed (s : State) (h k : Nat) : State := if h < 5120 then pendIrq s h k else s

/-- What a performed write moves on; an error record notifies (R260, R261). -/
def applyBump (s : State) : Option Bump → State
  | none => s
  | some (.errHead v) =>
    let s1 := onPart s v fun p => { p with errHead := p.errHead + 1 }
    if bit (part s v).notify 63 then pendNamed s1 (bits (part s v).notify 12 0) 4 else s1
  | some (.logHead n) => onIsland s n fun i => { i with logHead := i.logHead + 1 }
  | some (.traceHead c) => onCore s c fun k => { k with trace := { k.trace with head := k.trace.head + 8 } }

/-- The writes still kept that will move a place on. -/
def bumpsDue (s : State) (b : Bump) : Nat := (s.pendingWrites.filter fun p => p.bump == some b).length

/-- A kept write of an agent touches bytes of a later one. -/
def PendingWrite.meets (p : PendingWrite) (pa : Nat) (bs : List Byte) : Bool :=
  decide (p.pa < pa + bs.length) && decide (pa < p.pa + p.bytes.length)

/-- A write of an agent that is no hart: performed, or kept while a protected task is in its way (R217), with the
translations it was made under. Behind a kept write of the same agent it waits only where the two share bytes, or where
it must follow (`last`); a count moves on in the order of the records it counts. -/
def agentStore (s : State) (ag : Agent) (pa : Nat) (bs : List Byte) (bump : Option Bump := none) (last : Bool := false)
    (pins : List Pin := []) : State :=
  let cells := cellsAt pa bs
  let keep (bs : List Byte) (s : State) : State :=
    { s with pendingWrites := s.pendingWrites ++ [⟨ag, pa, bs, bump, last, pins⟩] }
  if writeBlocked s {} (cellUnits cells) || s.pendingWrites.any (fun p => p.agent == ag && (last || p.meets pa bs)) then
    keep bs s
  else
    let s1 := homeStore s {} cells
    if bump.isSome && s.pendingWrites.any (·.bump == bump) then keep [] s1 else applyBump s1 bump

/-- The core whose translations an agent's writes are made under (R165, R182). -/
def Agent.core : Agent → Option Nat
  | .engine c => some c
  | .steward n => some (1280 + n)
  | _ => none

/-- Perform the kept writes that need not wait any more, in their order. -/
def flushPending (s : State) : State :=
  s.pendingWrites.foldl (fun s p => agentStore s p.agent p.pa p.bytes p.bump p.last p.pins) { s with pendingWrites := [] }

/-- A byte as an agent reads it: its own kept write first. -/
def agentByte (s : State) (ag : Agent) (a : Nat) : Byte :=
  match s.pendingWrites.reverse.find? fun p => p.agent == ag && p.pa ≤ a && decide (a < p.pa + p.bytes.length) with
  | some p => p.bytes.getD (a - p.pa) 0
  | none => memRead s.mem a

/-- Bytes from an address on as an agent reads them. -/
def agentBytes (s : State) (ag : Agent) (a n : Nat) : List Byte := (List.range n).map fun i => agentByte s ag (a + i)

/-- The function on whose behalf an agent writes. -/
def Agent.part (s : State) : Agent → Option Nat
  | .steward n => partOfIsland s n
  | .engine c | .trace c => partOfIsland s (islandOfCore c)
  | .contain v | .host v | .network v => some v
  | .peer _ => none

end Sys2Proof.Machine
end

