-- ==== Sys2Proof/Machine/Mmu.lean ====
section
/-!
DEFINITION. Addresses: the physical map, the page-table walk, the cached translations and the checks of an access
(spec/08_translation.md R167 to R185, spec/07 R149 to R151, spec/13 R265 to R270, spec/12 R255).
-/
namespace Sys2Proof.Machine

/-! ### The physical map (R168) -/

/-- The regions of the physical address space. -/
inductive Region where
  | hbm
  | spad (core off : Nat)
  | bstore (core off : Nat)
  | mmio
  | host
  | peer (m : Nat)
  | unassigned
  deriving DecidableEq, Repr

/-- The region of a physical address (R168, R149, R125, R270). -/
def regionOf (pa : Nat) : Region :=
  if pa < 0x10000000000 then .hbm
  else if pa < 0x20000000000 then
    let o := pa - 0x10000000000
    if o / 0x4000000 < 20 then .spad (o / 0x100000) (o % 0x100000) else .unassigned
  else if pa < 0x30000000000 then
    let o := pa - 0x20000000000
    if o / 0x10000000 < 20 then .bstore (o / 0x400000) (o % 0x400000) else .unassigned
  else if pa < 0x40000000000 then .mmio
  else if pa < 0x80000000000 then .host
  else if pa < 0x100000000000 then .unassigned
  else if pa < 0x180000000000 then .peer ((pa - 0x100000000000) / 0x10000000000)
  else .unassigned

/-- The physical base of a core's scratchpad window (R149). -/
def spadBase (c : Nat) : Nat := 0x10000000000 + c * 0x100000
/-- The physical base of a core's B-store window (R125). -/
def bstoreBase (c : Nat) : Nat := 0x20000000000 + c * 0x400000

/-- The valid bytes of a core's scratchpad window (R149). -/
def spadBytes (s : State) (c : Nat) : Nat := 31 * spadRows (core s c).split * 8

/-- An HBM byte is backed by a stack that has not failed (R24, R272). -/
def hbmBacked (s : State) (pa : Nat) : Bool :=
  pa ≤ 0xEE6B27FFFF && !s.failedStacks.toNat.testBit (pa / 4096 % 16)

/-- Why an access fails. -/
inductive Failure where
  | nonCanonical | notPresent | permission | unbacked | walkTable
  | spadRange | spadIsland | mmioAlign | mmioAmo | hostDown | peerDown
  /-- Uncorrectable data in a table read at a physical address (R259). -/
  | walkPoison (pa : Nat)
  deriving DecidableEq, Repr

/-- Which agent makes an access: the side fixes the class of its causes (R187). -/
inductive Side where
  | scalar | vector | engine
  deriving DecidableEq, Repr

/-- The cause of a failed check (R174, R150, R151, R253). -/
def failCause (side : Side) (kind : AccKind) (f : Failure) : Byte :=
  match kind with
  | .fetch => match f with
    | .notPresent => 0x08
    | .permission => 0x09
    | .walkPoison _ => 0xCF
    | .spadRange | .spadIsland | .mmioAlign => 0x0F
    | _ => 0x0A
  | k =>
    let base : Byte := if side == .scalar then 0x20 else 0x40
    let st : Byte := if k == .store then 1 else 0
    match f with
    | .notPresent => base + st
    | .permission => base + 2 + st
    | .nonCanonical => base + 4
    | .unbacked => base + 5
    | .mmioAmo => base + 7
    | .spadRange => base + 8
    | .spadIsland => base + 9
    | .mmioAlign => if side == .scalar then base + 0xA else base + 7
    | .walkTable => base + 0xB
    | .hostDown => base + 0xC
    | .peerDown => base + 0xD
    | .walkPoison _ => 0xC7

/-! ### The walk (R169 to R173) -/

/-- A leaf as the walker returns it: the page, its size exponent, the address of the entry and its fields. -/
structure Leaf where
  log2 : Nat
  ppage : Nat
  entryAt : Nat
  entry : Nat
  deriving DecidableEq, Repr

/-- Bit i of a table entry. -/
def Leaf.bit (l : Leaf) (i : Nat) : Bool := l.entry.testBit i

/-- A table entry breaks R170 or R171 at its level. -/
def malformed (lvl e : Nat) : Bool :=
  let r := e.testBit 1
  let w := e.testBit 2
  let x := e.testBit 3
  let leaf := r || w || x
  let ppn := fld e 12 40
  fld e 60 4 != 0 || fld e 8 2 != 0 || e.testBit 5
    || (leaf && lvl == 4) || (!leaf && lvl == 1) || (w && !r)
    || (e.testBit 11 && !(leaf && lvl == 1))
    || (leaf && ppn % 2 ^ (9 * (lvl - 1)) != 0)

/-- The outcome of a walk. -/
inductive WalkResult where
  | fail (f : Failure)
  /-- A table line is held at its home until a task commits (R222). -/
  | held
  | leaf (l : Leaf)
  deriving DecidableEq, Repr

/-- The address and the source of the uncorrectable data in the bytes, if any holds some (R258, R259). -/
def poisonAt (s : State) (pa n : Nat) : Option (Nat × Nat) :=
  match s.poison.find? (fun p => p.1 < pa + n && pa < p.1 + 8) with
  | some p => some p
  | none => (s.lostLines.find? (fun l => l < pa + n && pa < l + 64)).map fun l => (l, 1)

/-- Whole words of a window read zero and hold good data. -/
def clearRange (s : State) (a n : Nat) : State :=
  { s with mem := memClear s.mem a n, poison := s.poison.filter fun p => p.1 < a || a + n ≤ p.1 }

/-- A line that a task wrote at its home and has not committed holds the walks and fetches of other harts (R222). For a
hart with a task of the domain R216 decides: it waits where an earlier task wrote the unit (DEDUCED, log 81). -/
def lineHeld (s : State) (h pa : Nat) : Bool :=
  s.tasks.any fun e => pa / 64 * 64 ∈ e.homeLines && e.hart != some h && match taskAt s h with
    | some t => !(t.part == e.part && t.dom == e.dom)
      || (e.key.lt t.key && e.writes.any (TUnit.meets ⟨pa / 8 * 8, true⟩))
    | none => true

/-- The walk for a hart from a table at a level (R169, R171); a CH leaf is one 64 KiB translation. -/
def walk (s : State) (h va : Nat) : Nat → Nat → WalkResult
  | 0, _ => .fail .notPresent
  | lvl + 1, table =>
    let ea := table * 4096 + 8 * (va / 2 ^ (12 + 9 * lvl) % 512)
    if !(ea < 0x10000000000 && hbmBacked s ea) then .fail .walkTable
    else if lineHeld s h ea then .held
    else if (poisonAt s ea 8).isSome then .fail (.walkPoison ea)
    else
      let e := memReadNat s.mem ea 8
      if !e.testBit 0 || malformed (lvl + 1) e then .fail .notPresent
      else if e.testBit 1 || e.testBit 2 || e.testBit 3 then
        let ppn := fld e 12 40
        if e.testBit 11 then .leaf ⟨16, ppn / 16, ea, e⟩
        else .leaf ⟨12 + 9 * lvl, ppn / 2 ^ (9 * lvl), ea, e⟩
      else walk s h va lvl (fld e 12 40)

/-- The permission bits of R172. -/
def permitted (mode : Mode) (kind : AccKind) (r w x u : Bool) : Bool :=
  match kind with
  | .load => r && (mode != .user || u)
  | .store => r && w && (mode != .user || u)
  | .fetch => x && (if mode == .user then u else !u)

/-- ASID of a PTBASE value (R58). -/
def asidOf (ptbase : Word) : BitVec 12 := ptbase.extractLsb' 52 12
/-- The level-4 table of a PTBASE value (R58). -/
def rootOf (ptbase : Word) : Nat := bits ptbase 51 12
/-- Whether addresses are translated (R167). -/
def translated (mode : Mode) (ptbase : Word) : Bool := mode != .monitor && bit ptbase 0

/-- Canonical form of a virtual address (R167). -/
def canonical (va : Word) : Bool :=
  let top := va.toNat / 2 ^ 47
  top == 0 || top == 2 ^ 17 - 1

/-- The cached translation that matches (R175). -/
def tlbFind (tlb : List TlbEntry) (asid : BitVec 12) (va : Nat) : Option TlbEntry :=
  tlb.find? fun e => (e.global || e.asid == asid) && va / 2 ^ e.log2 % 2 ^ (48 - e.log2) == e.vpage

/-- The entries that stand in one of the structures in front of a core's shared TLB (R175). -/
def portEntries (k : Core) (p : TlbPort) : List TlbEntry := k.small.filterMap fun e => if e.1 = p then some e.2 else none

/-- How many entries such a structure holds (R175). -/
def TlbPort.entries : TlbPort → Nat
  | .slot _ | .gather _ _ => 16
  | .unit _ => 1
  | .shared => 0

/-- Two entries translate an address both of one address space. -/
def TlbEntry.same (a b : TlbEntry) : Bool :=
  let n := max a.log2 b.log2
  (a.global || b.global || a.asid == b.asid) && a.vpage / 2 ^ (n - a.log2) == b.vpage / 2 ^ (n - b.log2)

/-- The bank of a gather TLB that a page of an address selects (R176). -/
def TlbPort.bankOf (va : Nat) : TlbPort → TlbPort
  | .gather g _ => .gather g (va / 4096 % 4)
  | p => p

/-- The structures that hold an entry a port asked for: a gather TLB holds one of 64 KiB or larger in all four banks
(R176). -/
def TlbPort.places (e : TlbEntry) : TlbPort → List TlbPort
  | .gather g b => if 16 ≤ e.log2 then (List.range 4).map (.gather g) else [.gather g b]
  | .shared => []
  | p => [p]

/-- A structure in front of the shared TLB takes a translation; a full one replaces an entry (R175). -/
def fillPlace (c : Nat) (e : TlbEntry) (s : State) (p : TlbPort) : State :=
  let rest := (core s c).small.filter fun o => !(o.1 == p && o.2.same e)
  let room := match victimOf s e.vpage p.entries (·.1 == p) rest with
    | some v => rest.erase v
    | none => rest
  onCore s c fun k => { k with small := (p, e) :: room }

/-- The structures that a port stands for take a translation (R175, R176). -/
def fillPort (s : State) (c : Nat) (p : TlbPort) (e : TlbEntry) : State := (p.places e).foldl (fillPlace c e) s

/-- The shared TLB takes a translation that was walked: 2,048 entries in sets of 8, by the low bits of the page (R175).
What the walker read last replaces every older entry for the page, wherever one stands (R171). -/
def fillTlb (s : State) (c : Nat) (e : TlbEntry) : State :=
  let rest := (core s c).tlb.filter fun o => !o.same e
  let room := match victimOf s e.vpage 8 (fun o => o.vpage % 256 == e.vpage % 256) rest with
    | some v => rest.erase v
    | none => rest
  onCore s c fun k => { k with tlb := e :: room, small := k.small.filter fun o => !o.2.same e }

/-- The cached translation a port of a core uses: its own, or one of the shared TLB (R175). -/
def cached (k : Core) (p : TlbPort) (asid : BitVec 12) (va : Nat) : Option TlbEntry :=
  (tlbFind (portEntries k p) asid va).or (tlbFind k.tlb asid va)

/-- The table entries a walk reads, by their addresses. -/
def walkReads (s : State) (va : Nat) : Nat → Nat → List Nat
  | 0, _ => []
  | lvl + 1, table =>
    let ea := table * 4096 + 8 * (va / 2 ^ (12 + 9 * lvl) % 512)
    let e := memReadNat s.mem ea 8
    ea :: (if e.testBit 0 && !(e.testBit 1 || e.testBit 2 || e.testBit 3) then walkReads s va lvl (fld e 12 40) else [])

/-- What a translation gives: the physical address of the byte, whether words are tracked (R170 FG), and the leaf's
size, ASID and G; an untranslated address has no ASID. -/
structure Trans where
  pa : Nat
  fg : Bool := false
  log2 : Nat := 12
  asid : Option (BitVec 12) := none
  global : Bool := false
  deriving DecidableEq, Repr

/-- Who makes an access and how. -/
structure Access where
  hart : Nat
  mode : Mode
  ptbase : Word
  side : Side
  kind : AccKind
  amo : Bool := false
  whole : Bool := false
  /-- It is made by a steward or by a core's context port, so that a page under migration stalls a read as well (R184). -/
  context : Bool := false
  /-- It probes an instruction again that stands in a queue, others behind it (R179, R181). -/
  queued : Bool := false
  /-- Which translation structure serves it (R175). -/
  port : TlbPort := .shared
  deriving DecidableEq, Repr

/-- How the translation of one byte ends; where a walk has read the leaf, with the state it leaves. -/
inductive TransResult where
  | fail (s : State) (f : Failure)
  /-- The leaf permits the access and has MIG set (R184). -/
  | migrating (s : State)
  /-- A table line is held until a task commits (R222), or a protected task has read the entry that A or D is to be set in
  (R173, R217). -/
  | held
  | ok (s : State) (t : Trans)

/-- A core forgets the translations that a walk has read anew and does not install: no older one serves their pages (R171). -/
def dropSame (s : State) (c : Nat) (e : TlbEntry) : State :=
  if !((core s c).tlb.any (·.same e) || (core s c).small.any fun o => o.2.same e) then s
  else onCore s c fun k => { k with tlb := k.tlb.filter fun o => !o.same e, small := k.small.filter fun o => !o.2.same e }

/-- The access is made for a speculative task, whose walks set A and D untracked (R173). -/
def Access.forTask (s : State) (a : Access) : Bool :=
  a.side != .engine && !a.context && (taskAt s a.hart).isSome

/-- A walk sets A or D in an entry: for any agent but a task that is a foreign write, which aborts the tasks that have read
the entry, or waits for those that are protected (R173, R217). -/
def setEntryBits (s : State) (a : Access) (at_ e : Nat) : Option State :=
  let us : List TUnit := [⟨at_, true⟩]
  if !a.forTask s && writeBlocked s {} us then none
  else
    let s1 := if a.forTask s then s else abortReaders s {} us
    some (storeVectorLine (coreOf a.hart) { s1 with mem := memWriteNat s1.mem at_ 8 e } (at_ / 64))

/-- Translate the byte at `va` for an access (R167, R172 steps 1 to 3, R173, R175): through a cached translation, or by a walk,
which reads its tables through the L2 portion, sets A and D, and installs the translation unless MIG is set. -/
def translate (s : State) (a : Access) (va : Word) : TransResult :=
  if !translated a.mode a.ptbase then
    if va.toNat < 2 ^ 52 then .ok s { pa := va.toNat } else .fail s .nonCanonical
  else if !canonical va then .fail s .nonCanonical
  else
    let c := coreOf a.hart
    let asid := asidOf a.ptbase
    let v48 := va.toNat % 2 ^ 48
    let hit := match cached (core s c) a.port asid v48 with
      | some e => if a.kind == AccKind.store && !e.d && e.w then none else some e
      | none => none
    match hit with
    | some e =>
      if permitted a.mode a.kind e.r e.w e.x e.u then
        .ok (fillPort s c a.port e) ⟨e.ppage * 2 ^ e.log2 + v48 % 2 ^ e.log2, e.fg, e.log2, some asid, e.global⟩
      else .fail s .permission
    | none =>
      match walk s a.hart v48 4 (rootOf a.ptbase) with
      | .fail f => .fail s f
      | .held => .held
      | .leaf l =>
        let e' := l.entry ||| 64 ||| (if a.kind == AccKind.store then 128 else 0)
        let ent : TlbEntry :=
          { vpage := v48 / 2 ^ l.log2, log2 := l.log2, ppage := l.ppage, asid := asid
            global := l.bit 10, r := l.bit 1, w := l.bit 2, x := l.bit 3, u := l.bit 4
            d := e'.testBit 7, fg := l.bit 59 }
        if !permitted a.mode a.kind (l.bit 1) (l.bit 2) (l.bit 3) (l.bit 4) then .fail (dropSame s c ent) .permission
        else if l.bit 58 && (a.kind == AccKind.store || a.context) then .migrating (dropSame s c ent)
        else
          let s0 := touch (loadVectorLine c) s ((walkReads s v48 4 (rootOf a.ptbase)).map fun p => (p, 8))
          match (if e' = l.entry then some s0 else setEntryBits s0 a l.entryAt e') with
          | none => .held
          | some s1 =>
            let s2 := if l.bit 58 then dropSame s1 c ent else fillPort (fillTlb s1 c ent) c a.port ent
            .ok s2 ⟨l.ppage * 2 ^ l.log2 + v48 % 2 ^ l.log2, l.bit 59, l.log2, some asid, l.bit 10⟩

/-! ### Rights -/

/-- The blocks of the MMIO region (R265). -/
inductive Block where
  | steward (n : Nat)
  | contain (v : Nat)
  | partition (v : Nat)
  | debug (n : Nat)
  | module
  | network (v : Nat)
  deriving DecidableEq, Repr

/-- The block and the offset of an MMIO address (R265). -/
def blockOf (pa : Nat) : Option (Block × Nat) :=
  if pa < 0x30000000000 then none
  else
    let o := pa - 0x30000000000
    if o < 0x2000000 then if o / 0x100000 < 20 then some (.steward (o / 0x100000), o % 0x100000) else none
    else if o < 0x3000000 then
      let o := o - 0x2000000
      if o / 0x1000 < 4 then some (.contain (o / 0x1000), o % 0x1000) else none
    else if o < 0x4000000 then
      let o := o - 0x3000000
      if o / 0x1000 < 4 then some (.partition (o / 0x1000), o % 0x1000) else none
    else if o < 0x5000000 then
      let o := o - 0x4000000
      if o / 0x10000 < 20 then some (.debug (o / 0x10000), o % 0x10000) else none
    else if o < 0x6000000 then
      let o := o - 0x5000000
      if o < 0x1000 then some (.module, o) else none
    else
      let o := o - 0x6000000
      if o / 0x1000 < 4 then some (.network (o / 0x1000), o % 0x1000) else none

/-- The GEXIT doorbell of a steward block and SWISET of a debug block, which any hart of the partition may write
(R226, R235, R277). -/
def openToHarts : Block → Nat → Bool
  | .steward _, o => o == 0x100
  | .debug _, o => o == 0x10
  | _, _ => false

/-- Whether a hart in a mode may reach a register of a block (R265); GEXIT is open to user-mode members, which is how
a launched hart exits (DEDUCED from R229 and R235, log 22). R265 names functions and supervisors for reads of the module
block and monitor mode for its writes; monitor mode may read it here too (DESIGN CHOICE, log 131). -/
def hartMayReach (s : State) (h : Nat) (mode : Mode) (kind : AccKind) (b : Block) (off : Nat) : Bool :=
  let own (v : Option Nat) : Bool := v.isSome && partOf s h == v
  match b with
  | .steward n => own (partOfIsland s n) && (mode == .supervisor || (kind == AccKind.store && openToHarts b off))
  | .debug n => own (partOfIsland s n) && (mode == .supervisor || (kind == AccKind.store && openToHarts b off))
  | .contain _ => mode == .monitor
  | .partition v => mode == .monitor || (mode == .supervisor && own (some v))
  | .module => mode == .monitor || (mode == .supervisor && kind != AccKind.store)
  | .network v => mode == .supervisor && own (some v)

/-- MODNUM: the place of the module's serial number among those of its domain (R270, R272, R276). -/
def modnum (s : State) : Nat :=
  (s.heard.filter fun x => decide (x.1.toNat < Config.serial.toNat)).length

/-- Module m is another member of the coherence domain (R270). -/
def isMember (s : State) (m : Nat) : Bool := decide (m ≤ s.heard.length) && m != modnum s

/-- A peer window is open, or why not (R270). -/
def peerCheck (s : State) (m : Nat) : Option Failure :=
  if !isMember s m then some .unbacked
  else if tabGet s.peers m == some false then some .peerDown else none

/-- Memory that is cacheable and coherent, and answers (R144, R269, R270, R272). -/
def answers (s : State) (pa : Nat) : Bool :=
  match regionOf pa with
  | .hbm => hbmBacked s pa
  | .host => s.cxlUp
  | .peer m => (peerCheck s m).isNone
  | _ => false

/-- A LOCALSPLIT write of a core is in progress, be it that it waits, so accesses to its scratchpad are held (R60, R151). -/
def resizing (s : State) (c : Nat) : Bool :=
  (hartsOn c).any fun h => match (hart s h).wait with
    | some (.localsplit _ _) => true
    | _ => false

/-- An access goes on beside a waiting LOCALSPLIT write of a core, which waits for it: for that core's engine and its tasks,
every task waiting for the earlier ones of its domain (R60), and for what stands in a queue (DESIGN CHOICE, log 106). -/
def passesResize (s : State) (a : Access) (c : Nat) : Bool :=
  (hart s a.hart).task.isSome || (a.side == .engine && coreOf a.hart == c) || a.queued

/-- An access to a physical address is held at a bank (R151). -/
def heldAtBank (s : State) (a : Access) (pa : Nat) : Bool :=
  match regionOf pa with
  | .spad c _ => resizing s c && !passesResize s a c
  | _ => false

/-- The physical checks of a byte's address for a hart (R168, R150, R151, R265, R269, R270); `whole` says that the
access is an aligned doubleword. -/
def physCheck (s : State) (h : Nat) (mode : Mode) (side : Side) (kind : AccKind) (amo whole : Bool) (pa : Nat) :
    Option Failure :=
  match regionOf pa with
  | .hbm => if hbmBacked s pa then none else some .unbacked
  | .spad c off =>
    if kind == .fetch then some .spadRange
    else if spadBytes s c ≤ off then some .spadRange
    else if side != .engine && islandOfCore c != islandOf h then some .spadIsland
    else if islandOfCore c != islandOf h && ((partOf s h).isNone || partOfIsland s (islandOfCore c) != partOf s h) then
      some .spadIsland
    else none
  | .bstore c _ =>
    if kind == .fetch then some .spadRange
    else if side == .engine && (partOf s h).isSome && partOfIsland s (islandOfCore c) == partOf s h then none
    else some .unbacked
  | .mmio =>
    if kind == .fetch then some .mmioAlign
    else if amo then some .mmioAmo
    else if side != .scalar then some .mmioAlign
    else if !whole then some .mmioAlign
    else match blockOf pa with
      | some (b, off) => if hartMayReach s h mode kind b off then none else some .unbacked
      | none => some .unbacked
  | .host => if s.cxlUp then none else some .hostDown
  | .peer m => peerCheck s m
  | .unassigned => some .unbacked

/-- The bytes a function's grant covers (R267). -/
def granted (s : State) (v : Nat) (pa : Nat) : Bool :=
  let p := part s v
  match regionOf pa with
  | .hbm => p.hbmBase.toNat ≤ pa && pa < p.hbmBase.toNat + p.hbmSize.toNat
  | .host => p.linkGrant.toNat.testBit 0
  | .peer m => p.linkGrant.toNat.testBit (8 + m)
  | _ => true

/-- Whether an access outside monitor mode stays inside the partition's grant (R255). -/
def grantOk (s : State) (h : Nat) (mode : Mode) (pa : Nat) : Bool :=
  mode == .monitor ||
  match partOf s h with
  | some v => granted s v pa
  | none => match regionOf pa with
    | .hbm | .host | .peer _ => false
    | _ => true

/-- The monitor hart (R63). -/
def monitorHart (s : State) : Nat := 5120 + s.monhart.toNat

/-- Frozen or halted. -/
def Freeze.isSet (f : Freeze) : Bool := f.violation.isSome || f.byFreeze || f.lost || f.halted

/-- A debug freeze gates the clocks of the hart's island (R279). -/
def hartGated (s : State) (h : Nat) : Bool := (island s (islandOf h)).freezeBit

/-! ### The check of an access -/

/-- A piece of an access that lies in one page, with what its translation gave. -/
structure Piece where
  va : Word
  pa : Nat
  len : Nat
  fg : Bool := false
  log2 : Nat := 12
  asid : Option (BitVec 12) := none
  global : Bool := false
  deriving DecidableEq, Repr

/-- How a checked access fails. -/
inductive Bad where
  /-- A trap with its cause and TVAL. -/
  | trap (code : Byte) (tval : Word)
  /-- Outside the partition's grant (R255): the cause on release, the TVAL and the physical address. -/
  | violation (code : Byte) (tval : Word) (pa : Nat)
  /-- A store to a page under migration (R184). -/
  | migrating (va : Word)
  /-- A line that its home holds until a task commits (R222). -/
  | held
  deriving DecidableEq, Repr

/-- The address of the uncorrectable data that a failed check consumed (R259). -/
def Bad.poison : Bad → Option Nat
  | .trap code tval => if 0xC0 ≤ code then some tval.toNat else none
  | _ => none

/-- TVAL of a failed check (R249, R174): the virtual address, which is the physical one when the access is
untranslated; the physical address of uncorrectable data. -/
def failTval (va : Word) : Failure → Word
  | .walkPoison pa => w64 pa
  | _ => va

/-- Check one piece of an access (R172, R255). Once steps 1 to 3 have passed, an address outside the grant freezes before
the physical checks of step 4 are made. A walk that passes steps 1 to 3 has set A and D, whatever a later check finds
(log 10): a failure comes with the state the walks leave. -/
def checkPiece (s : State) (a : Access) (va : Word) (len : Nat) : Except (State × Bad) (State × Piece) :=
  match translate s { a with port := a.port.bankOf va.toNat } va with
  | .fail s' f => .error (s', .trap (failCause a.side a.kind f) (failTval va f))
  | .migrating s' => .error (s', .migrating va)
  | .held => .error (s, .held)
  | .ok s' t =>
    if heldAtBank s a t.pa then .error (s', .held)
    else if !grantOk s a.hart a.mode t.pa then
      let code := failCause a.side (if a.kind == .fetch then .load else a.kind) .unbacked
      .error (s', if a.hart == monitorHart s then .trap code va else .violation code va t.pa)
    else match physCheck s a.hart a.mode a.side a.kind a.amo a.whole t.pa with
    | some f => .error (s', .trap (failCause a.side a.kind f) va)
    | none => .ok (s', ⟨va, t.pa, len, t.fg, t.log2, t.asid, t.global⟩)

/-- Check an access of n bytes, at most two pages of it (R172: every region and window is a whole number of pages,
so its bytes share their page's checks); the lowest failing byte decides. -/
def checkAccess (s : State) (a : Access) (va : Word) (n : Nat) : Except (State × Bad) (State × List Piece) :=
  let first := 4096 - va.toNat % 4096
  if n ≤ first then
    match checkPiece s a va n with
    | .error e => .error e
    | .ok (s1, p) => .ok (s1, [p])
  else
    match checkPiece s a va first with
    | .error e => .error e
    | .ok (s1, p) =>
      match checkPiece s1 a (va + w64 first) (n - first) with
      | .error e => .error e
      | .ok (s2, q) => .ok (s2, [p, q])

/-- Check a run of bytes of any length, page by page. -/
def checkRun (s : State) (a : Access) : Nat → Word → Nat → Except (State × Bad) (State × List Piece)
  | 0, _, _ => .ok (s, [])
  | fuel + 1, va, n =>
    if n = 0 then .ok (s, [])
    else
      let len := min n (4096 - va.toNat % 4096)
      match checkPiece s a va len with
      | .error e => .error e
      | .ok (s1, p) =>
        match checkRun s1 a fuel (va + w64 len) (n - len) with
        | .error e => .error e
        | .ok (s2, ps) => .ok (s2, p :: ps)

/-- The physical addresses of the bytes of checked pieces, in order. -/
def pieceBytes (ps : List Piece) : List Nat := ps.flatMap fun p => (List.range p.len).map (p.pa + ·)
/-- The spans of checked pieces. -/
def spansOf (ps : List Piece) : List (Nat × Nat) := ps.map fun p => (p.pa, p.len)

/-- The access of a hart's scalar side. -/
def hartAccess (s : State) (h : Nat) (kind : AccKind) : Access :=
  { hart := h, mode := (hart s h).mode, ptbase := (hart s h).ptbase, side := .scalar, kind := kind
    port := .slot (slotOf h) }
/-- The access of the acting hart's scalar side. -/
def scalarAccess (s : State) (kind : AccKind) : Access := hartAccess s s.cur kind

/-- The physical address an address has for a hart, an address-space base and a mode, if it translates. -/
def peek (s : State) (h : Nat) (mode : Mode) (ptbase va : Word) : Option Nat :=
  if !translated mode ptbase then (if va.toNat < 2 ^ 52 then some va.toNat else none)
  else if !canonical va then none
  else
    let v48 := va.toNat % 2 ^ 48
    match cached (core s (coreOf h)) .shared (asidOf ptbase) v48 with
    | some e => some (e.ppage * 2 ^ e.log2 + v48 % 2 ^ e.log2)
    | none => match walk s h v48 4 (rootOf ptbase) with
      | .leaf l => some (l.ppage * 2 ^ l.log2 + v48 % 2 ^ l.log2)
      | _ => none

/-! ### Fetch (R282, R284) -/

/-- The L1I of a core holds this copy of the line of an address (R143). -/
def codeLine (k : Core) (pa : Nat) : Option CodeLine := k.l1i.find? (·.line == pa / 64)

/-- A byte as a core fetches it: a line of its L1I is not kept coherent with memory (R197). -/
def codeByte (s : State) (c pa : Nat) : Byte :=
  match codeLine (core s c) pa with
  | some l => l.bytes.getD (pa % 64) 0
  | none => memRead s.mem pa

/-- The L1I takes the line of an address, which the fetch misses (R143): 64 KiB, 4-way. A line with uncorrectable data is
not kept. -/
def fillCode (s : State) (c pa : Nat) : State :=
  if (codeLine (core s c) pa).isSome || (poisonAt s (pa / 64 * 64) 64).isSome then s
  else
    let s1 := touch (loadVectorLine c) s [(pa, 1)]
    let l := (core s1 c).l1i
    let room := match victimOf s (pa / 64) 4 (fun x => x.line % 256 == pa / 64 % 256) l with
      | some v => l.erase v
      | none => l
    onCore s1 c fun k => { k with l1i := ⟨pa / 64, memReadBytes s.mem (pa / 64 * 64) 64⟩ :: room }

/-- Fetch one instruction word for a hart: its cause and TVAL where it fails. -/
def fetchWord (s : State) (h : Nat) (va : Word) : Except (State × Bad) (State × Nat) :=
  let c := coreOf h
  match checkAccess s (hartAccess s h .fetch) va 4 with
  | .error e => .error e
  | .ok (s1, ps) =>
    let bytes := pieceBytes ps
    let missed := bytes.filter fun a => (codeLine (core s1 c) a).isNone
    if missed.any (lineHeld s1 h) then .error (s1, .held)
    else match missed.findSome? fun a => poisonAt s a 1 with
      | some p => .error (s1, .trap (0xC8 + BitVec.ofNat 8 p.2) (w64 p.1))
      | none => .ok (missed.foldl (fun s a => fillCode s c a) s1, natOfBytes (bytes.map (codeByte s1 c)))

/-- The body that a hart's loop buffer holds serves an address: within it and within no inner loop, which runs from
normal fetch (R116). -/
def bodyWords (h : Hart) (va : Word) : Option (List Nat) :=
  match h.body with
  | none => none
  | some b =>
    let inner := h.loops.any fun r => r != (b.start, b.end_) && decide (b.start.toNat ≤ r.1.toNat)
      && decide (r.2.toNat ≤ b.end_.toNat) && decide (r.1.toNat ≤ va.toNat) && decide (va.toNat ≤ r.2.toNat)
    if inner then none else (b.code.find? (·.1 == va)).map (·.2)

/-- The leading word of the instruction at an address, as `fetchInstr` reads it. -/
def leadingWord (s : State) (h : Nat) (va : Word) : Except (State × Bad) (State × Nat) :=
  match bodyWords (hart s h) va with
  | some ws => .ok (s, ws.headD 0)
  | none => fetchWord s h va

/-- The words of the instruction at an address: one, two or three (R282); those of a captured body come from the loop
buffer (R116). -/
def fetchInstr (s : State) (h : Nat) (va : Word) : Except (State × Bad) (State × List Nat) :=
  match bodyWords (hart s h) va with
  | some ws => .ok (s, ws)
  | none => match fetchWord s h va with
    | .error e => .error e
    | .ok (s1, w0) =>
      if !isVectorWord w0 then .ok (s1, [w0])
      else match fetchWord s1 h (va + 4) with
        | .error e => .error e
        | .ok (s2, w1) =>
          if lengthOf w0 w1 = 8 then .ok (s2, [w0, w1])
          else match fetchWord s2 h (va + 8) with
            | .error e => .error e
            | .ok (s3, w2) => .ok (s3, [w0, w1, w2])

end Sys2Proof.Machine
end

