-- ==== Sys2Proof/Machine/TaskUnit.lean ====
section
/-!
DEFINITION. Tasks: conflict tracking, buffered bytes, the frontier and commit (spec/10_tasks.md R207, R214 to R222).
-/
namespace Sys2Proof.Machine

/-! ### Units and pins of checked accesses (R181, R215) -/

/-- The units of checked pieces. -/
def pieceUnits (ps : List Piece) : List TUnit := ps.flatMap fun p => unitsOf p.pa p.len p.fg

/-- The pins of checked pieces. -/
def pinsOf (ps : List Piece) : List Pin :=
  addNew [] (ps.map fun p => ⟨p.va.toNat / 4096, p.pa / 4096, p.fg, p.log2, p.asid, p.global⟩)

/-! ### Accesses of the acting hart (R215, R216, R222) -/

/-- How a tracked access goes on. -/
inductive Tracked where
  | go (s : State)
  /-- The hart does not go on with its instruction now; its task waits or is held, or it waits without a task. -/
  | stop (s : State)

/-- The task is irrevocable, be it that it waits (R214, R221). -/
def TaskEntry.isIrrev (e : TaskEntry) : Bool := e.st == .irrev || (e.st == .waiting && e.wasIrrev)

/-- The deferred code for the class of an original cause (R225). -/
def deferredCode (orig : Byte) : Byte := 0x88 + BitVec.ofNat 8 (orig.toNat / 32)

/-- The earliest task becomes irrevocable; a fault it holds is delivered (R221, R224). -/
def makeIrrev (s : State) (e : TaskEntry) : State :=
  let s1 := onTask s e.uid fun x => { x with
    st := if x.st == .waiting then .waiting else .irrev, wasIrrev := x.st == .waiting, fault := none }
  match e.hart, e.fault with
  | some h, some f =>
    -- a handler that runs beside the held instruction is left first (R223)
    if (hart s h).aside.isSome then onTask s1 e.uid fun x => { x with fault := some f }
    else onHart s1 h fun x => trapHart (deferredCode f.cause) f.cause f.tval f.pc x
  | _, _ => s1

/-- The acting hart's task, if it holds one, may act irrevocably now: it is irrevocable, or becomes so as the
earliest; otherwise it is held (R221, R222). -/
def irrevocable (s : State) : Tracked :=
  match taskAt s s.cur with
  | none => .go s
  | some e =>
    if e.isIrrev then .go s
    else if isEarliest s e then .go (makeIrrev s e)
    else .stop (onTask s e.uid fun e => { e with st := .held })

/-- The acting task waits for a writer (R214, R216); one that waits already goes on waiting, and a handler that runs
while its task is held waits by itself. -/
def stallTask (s : State) (e : TaskEntry) : State :=
  if e.st == .held then waitOn .conflict s else onTask s e.uid fun e => if e.st == .waiting then e else { e with wasIrrev := e.st == .irrev, st := .waiting }

/-- The lines a task has marks on. -/
def markLines (e : TaskEntry) : List Nat := addNew [] ((e.reads ++ e.writes).map fun u => u.base / 64 * 64)
/-- The marks a directory slice holds (R215). -/
def marksAt (s : State) (n : Nat) : Nat :=
  s.tasks.foldl (fun acc e => acc + ((markLines e).filter fun l => homeOf l == n).length) 0

/-- Abort the latest unprotected task of a partition that holds a mark in a slice, so many times at most, until so many
marks are free (R215). -/
def freeMarks (v n need : Nat) : Nat → State → State
  | 0, s => s
  | fuel + 1, s =>
    if marksAt s n + need ≤ 32768 then s
    else
      let c := s.tasks.filter fun e => e.part == v && !isProtected s e && (markLines e).any fun l => homeOf l == n
      match c with
      | [] => s
      | x :: xs => freeMarks v n need fuel (abortTask s (xs.foldl (fun a b => if a.key.lt b.key then b else a) x).uid)

/-- How many of some lines have their home on an island. -/
def linesAt (n : Nat) (ls : List Nat) : Nat := (ls.filter fun l => homeOf l == n).length

/-- Room for the marks of an access (R215): an overflow holds a task that is not the earliest; for the earliest, the
home frees marks, and the access waits where none can be freed. -/
def markRoom (s : State) (e : TaskEntry) (us : List TUnit) : Tracked :=
  let new := (addNew [] (us.map fun u => u.base / 64 * 64)).filter fun l => !(l ∈ markLines e)
  let homes := addNew [] (new.map homeOf)
  if isEarliest s e || e.isIrrev then
    let s1 := homes.foldl (fun s n => freeMarks e.part n (linesAt n new) s.tasks.length s) s
    if homes.any fun n => decide (32768 < marksAt s1 n + linesAt n new) then .stop (stallTask s1 e) else .go s1
  else if homes.any fun n => decide (31744 < marksAt s n + linesAt n new) then irrevocable s
  else .go s

/-- Lines written at their home that a reader of no task of the domain may not read before the commit (R222); tasks of the
domain read them under R216. `dom` is the reader's domain. -/
def homeHeld (s : State) (dom : Option (Nat × Nat)) (ps : List Piece) : Bool :=
  let ls := ps.flatMap fun p => linesOf p.pa p.len
  s.tasks.any fun e => some (e.part, e.dom) != dom && e.homeLines.any (· ∈ ls)

/-- A read of tracked memory by the acting hart waits: for a line that its home holds (R222), or, in a task, for an earlier
one of the domain that has written a unit of it (R216). -/
def readWaits (s : State) (ps : List Piece) : Option State :=
  match taskAt s s.cur with
  | none => if homeHeld s none ps then some (waitOn .conflict s) else none
  | some e =>
    if homeHeld s (some (e.part, e.dom)) ps || s.tasks.any fun o => o.uid != e.uid && o.part == e.part && o.dom == e.dom
        && o.key.lt e.key && meetsAny (pieceUnits ps) o.writes then some (stallTask s e)
    else none

/-- A read of tracked memory by the acting hart: it proceeds with its marks set, or waits. -/
def trackRead (s : State) (ps : List Piece) : Tracked :=
  match readWaits s ps, taskAt s s.cur with
  | some s1, _ => .stop s1
  | none, none => .go s
  | none, some e =>
    match markRoom s e (pieceUnits ps) with
    | .stop s1 => .stop s1
    | .go s1 => .go (onTask s1 e.uid fun e => { e with reads := addNew e.reads (pieceUnits ps) })

/-- The bytes an access of the acting hart reads: its task's own buffered bytes first (R215). -/
def readCells (s : State) (as : List Nat) : List Byte :=
  match taskAt s s.cur with
  | some e => as.map fun a => (tabGet e.buf a).getD (memRead s.mem a)
  | none => as.map (memRead s.mem)

/-- A new row would overflow the pool or its set (R215). -/
def rowFull (s : State) (c l : Nat) : Bool :=
  let rs := rowsOn s c
  let sets := l2Sets (core s c).split
  decide (256 ≤ rs.length) || sets == 0
    || decide (8 ≤ (rs.filter fun r => r / 64 % sets == l / 64 % sets).length)

/-- A write of tracked memory by the acting hart. -/
def trackWrite (s : State) (ps : List Piece) (cells : List Host.Cell) : Tracked :=
  match taskAt s s.cur with
  | none =>
    if writeBlocked s {} (cellUnits cells) then .stop (waitOn .conflict s) else .go (foreignStore s {} cells)
  | some e =>
    let us := pieceUnits ps
    let later := (s.tasks.filter fun o => o.part == e.part && o.dom == e.dom && e.key.lt o.key && o.st != .ready
      && meetsAny us o.reads).map (·.uid)
    let c := coreOf s.cur
    let lines := (addNew [] (cells.map fun x => x.1 / 64 * 64)).filter fun l => !(l ∈ e.rows)
    -- rows are taken one after another; the first that does not fit decides
    let full := (lines.zipIdx.any fun p =>
      rowFull (onTask s e.uid fun x => { x with rows := x.rows ++ lines.take p.2, rowCore := c }) c p.1)
    let room := if full then irrevocable s else .go s
    -- bytes of lines that have a row go into it; where a row overflows, the others are written at their home
    let home := if full then cells.filter fun x => !(x.1 / 64 * 64 ∈ e.rows) else []
    match room with
    | .stop s1 => .stop s1
    | .go s0 =>
      match markRoom s0 e us with
      | .stop s1 => .stop s1
      | .go s1 =>
        if full && writeBlocked s1 { uid := some e.uid } (cellUnits home) then .stop (stallTask s1 e)
        else
          let s2 := abortAll s1 later
          let s3 := onTask s2 e.uid fun e => { e with writes := addNew e.writes us }
          let s4 := if full then homeStore s3 { uid := some e.uid } home else s3
          let s5 := onTask s4 e.uid fun x => { x with
            buf := (cells.filter fun c => !full || c.1 / 64 * 64 ∈ e.rows).foldl (fun b c => tabSet b c.1 c.2) x.buf
            homeLines := addNew x.homeLines (home.map fun c => c.1 / 64 * 64)
            rows := if full then x.rows else x.rows ++ lines, rowCore := c
            pins := addNew x.pins (pinsOf ps) }
          .go (if full then s5 else lines.foldl (fun s l => trimL2 s c (l / 64)) s5)

/-! ### The frontier and commit (R219, R220) -/

/-- The unfinished entry with the lowest key of a domain. -/
def leastKey (s : State) (v d : Nat) : Option Key :=
  ((tasksOf s v d).filter TaskEntry.unfinished).foldl (fun m e => minKey m e.key) none

/-- Strait latency between two islands, router to router (R23). -/
def straitLatency (a b : Nat) : Nat :=
  let gap (x y : Nat) := max x y - min x y
  if a = b then 0 else 6 * gap (a % 5) (b % 5) + 12 * gap (a / 5) (b / 5) + 14

/-- Lp of a partition (R219); 0 where it has one island (DEDUCED, log 24). -/
def latencyOf (s : State) (v : Nat) : Nat :=
  let is := islandsOf s v
  is.foldl (fun m a => is.foldl (fun m b => max m (straitLatency a b)) m) 0

/-- The entries that the applied frontier commits (R220): finished, below the frontier, and already there at the
exchange it came from (DEDUCED, log 25). -/
def batchOf (s : State) (v d : Nat) : List TaskEntry :=
  let dm := domain s v d
  (tasksOf s v d).filter fun e => e.st == .finished && decide (e.uid < dm.applied) &&
    match dm.frontier with
    | some k => e.key.lt k
    | none => true

/-- Insert by key. -/
def insertByKey (e : TaskEntry) : List TaskEntry → List TaskEntry
  | [] => [e]
  | x :: xs => if e.key.lt x.key then e :: x :: xs else x :: insertByKey e xs

/-- Entries in key order. -/
def byKey (l : List TaskEntry) : List TaskEntry := l.foldl (fun acc e => insertByKey e acc) []

/-- Rename a key in the entries and the frontier of a domain. -/
def renameKey (s : State) (v d : Nat) (old new : Key) : State :=
  let s1 := { s with tasks := s.tasks.map fun e =>
    if e.part = v ∧ e.dom = d then { e with key := e.key.rename old new } else e }
  onDomain s1 v d fun m => { m with frontier := m.frontier.map (·.rename old new)
                                    sent := m.sent.map fun t => (t.1, t.2.1.map (·.rename old new), t.2.2) }

/-- Commit one task: its children take identifiers, its bytes are written to their homes (R207, R220). -/
def commitTask (s : State) (uid : Nat) : State :=
  match taskOf s uid with
  | none => s
  | some e =>
    let id0 := (domain s e.part e.dom).nextId
    let kids := s.tasks.filter fun c => c.parent == some uid
    let s1 := kids.foldl (fun s c => match c.key with
      | .pending t _ i => renameKey s e.part e.dom c.key (.ident t (id0 + i))
      | .ident _ _ => s) s
    let s2 := homeStore s1 { uid := some uid, dom := some (e.part, e.dom) } e.buf
    let s3 := onDomain s2 e.part e.dom fun d =>
      { d with nextId := d.nextId + e.children, commits := d.commits + 1, topTs := max d.topTs e.key.ts
               flags := d.flags ||| e.flags }
    { s3 with tasks := (s3.tasks.filter fun x => x.uid != uid).map fun x =>
        if x.parent = some uid then { x with parent := none } else x }

/-- The batch waits: a write of it meets a protected task of another domain (R220). -/
def batchBlocked (s : State) (v d : Nat) (b : List TaskEntry) : Bool :=
  b.any fun e => writeBlocked s { dom := some (v, d) } (cellUnits e.buf)

end Sys2Proof.Machine
end

