-- ==== Sys2Proof/Machine/Records.lean ====
section
/-!
DEFINITION. What the module reports: interrupts pended, containment codes, error records, decision records, the
freezing of a hart, and trace records (spec/12_traps.md R255 to R262; spec/11_scheduling.md R247; spec/13_edges.md
R277, R280, R281).
-/
namespace Sys2Proof.Machine

/-! ### Interrupts and codes -/

/-- Raise a containment code for the monitor hart; a code that finds 64 waiting is not held (R257). -/
def raiseCode (s : State) (c : Byte) : State := if 64 ≤ s.codes.length then s else { s with codes := s.codes ++ [c] }

/-- A doubleword's bytes (R4). -/
def dwordBytes (v : Nat) : List Byte := bytesOfNat 8 v

/-- The bytes of a record at a place of a ring: none are written where no ordinary memory answers, or outside the grant of
the function it belongs to, so that a ring reaches no window and no other partition's memory (R125, R264). The ring's
head moves on all the same (DESIGN CHOICE, log 117). -/
def ringBytes (s : State) (f : Option Nat) (pa : Nat) (bs : List Byte) : List Byte :=
  if answers s pa && f.all fun v => granted s v pa then bs else []

/-! ### Error records (R261) -/

/-- The fields of an error record. WHERE holds a hart or core by its number of R17, which a steward's shares with another
unit (log 115). -/
structure ErrRec where
  code : Byte
  master : Nat
  place : Nat
  progress : Nat := 0
  addr : Nat := 0
  aux : Nat := 0
  deriving DecidableEq, Repr

/-- Append an error record to a function's ring, or count it in ERRLOST where the ring is full or has no room at all;
ERRHEAD moves on and notifies once the record is written (R260, R261). A detection on an island of no function writes
none. -/
def errorRecord (s : State) (f : Option Nat) (isl : Nat) (r : ErrRec) : State :=
  match f with
  | none => s
  | some v =>
    let p := part s v
    let head := p.errHead + w64 (bumpsDue s (.errHead v))
    if p.errSize = 0 ∨ head - p.errTail = p.errSize then onPart s v fun p => { p with errLost := p.errLost + 1 }
    else
      let at_ := p.errBase.toNat + 32 * (head.toNat % p.errSize.toNat)
      let bytes := dwordBytes (timeOf s isl) ++ [r.code, BitVec.ofNat 8 r.master] ++ bytesOfNat 2 r.place
        ++ bytesOfNat 4 r.progress ++ dwordBytes r.addr ++ dwordBytes r.aux
      agentStore s (.contain v) at_ (ringBytes s f at_ bytes) (some (.errHead v))

/-- Freeze a hart at an access outside its partition's grant (R255): its record, its code, and the cause it takes
on release. `master` is 1 for the scalar side, 2 for the vector side, 3 for the matrix engine. -/
def freezeHart (s : State) (h master : Nat) (code : Byte) (tval : Word) (pa : Nat) : State :=
  let s1 := onHart s h fun x => { x with freeze := { x.freeze with violation := some (code, tval) } }
  raiseCode (errorRecord s1 (partOf s h) (islandOf h)
    { code := 0xD0, master := master, place := hartNumber h, addr := pa, aux := (hart s h).pc.toNat }) 0xD0

/-- Uncorrectable data consumed on the scalar side (R259): a record and the precise trap. -/
def uncorrectable (code : Byte) (pa : Nat) (s : State) : State :=
  raise code (w64 pa) (errorRecord s (partOf s s.cur) (islandOf s.cur)
    { code := code, master := 1, place := hartNumber s.cur, addr := pa, aux := (me s).pc.toNat })

/-- Halt a hart whose vector side or matrix engine consumed uncorrectable data (R259, R262); the monitor hart is never
halted (R257), and goes on behind what it consumed (DESIGN CHOICE, log 103). -/
def haltHart (s : State) (h master progress pa : Nat) (pc : Word) : State :=
  let s1 := if h = monitorHart s then s else onHart s h fun x => { x with freeze := { x.freeze with halted := true } }
  raiseCode (errorRecord s1 (partOf s h) (islandOf h)
    { code := 0xD1, master := master, place := hartNumber h, progress := progress, addr := pa, aux := pc.toNat }) 0xD1

/-! ### Decision records (R247) -/

/-- The fields of a decision record. -/
structure Decision where
  kind : Nat
  eff : Nat := 0
  reason : Nat := 0
  slot : Nat := 0xFFFF
  gang : Nat := 0xFFFF
  place : Nat := 0
  waited : Nat := 0
  deriving DecidableEq, Repr

/-- Append a decision record to an island's log ring, or count it in LOST; LOGHEAD moves on once it is written (R247). -/
def decisionRecord (s : State) (n : Nat) (r : Decision) : State :=
  let i := island s n
  let head := i.logHead + w64 (bumpsDue s (.logHead n))
  if i.logSize = 0 then s
  else if head - i.logTail = i.logSize then onIsland s n fun i => { i with lost := i.lost + 1, gap := true }
  else
    let at_ := i.logBase.toNat + 32 * (head.toNat % i.logSize.toNat)
    let bytes := dwordBytes (timeOf s n)
      ++ [BitVec.ofNat 8 r.kind, if i.gap then 1 else 0, BitVec.ofNat 8 r.eff, BitVec.ofNat 8 r.reason]
      ++ bytesOfNat 2 r.slot ++ bytesOfNat 2 r.gang ++ dwordBytes r.place ++ bytesOfNat 4 r.waited
      ++ bytesOfNat 2 (Config.codeVer i.codeSeq).toNat ++ bytesOfNat 2 (head + i.lost).toNat
    onIsland (agentStore s (.steward n) at_ (ringBytes s (partOfIsland s n) at_ bytes) (some (.logHead n))) n fun i => { i with gap := false }

/-! ### Trace (R280, R281) -/

/-- A trace record's doubleword. -/
def traceWord (kind slot pipe member tag delta : Nat) : Nat :=
  kind * 2 ^ 60 + slot % 4 * 2 ^ 58 + pipe % 8 * 2 ^ 55 + member % 4 * 2 ^ 53 + tag % 4096 * 2 ^ 41 + delta % 2 ^ 32

/-- Where the next doubleword of a core's trace goes, counted as TRHEAD is. -/
def traceNext (s : State) (c : Nat) : Nat := (core s c).trace.head + 8 * bumpsDue s (.traceHead c)

/-- Write doublewords into a core's trace buffer; TRHEAD moves on as each is written. -/
def tracePut (s : State) (c : Nat) (ws : List Nat) : State :=
  ws.foldl (fun s w =>
    let t := (core s c).trace
    let at_ := t.base.toNat + traceNext s c % t.size.toNat
    agentStore s (.trace c) at_ (ringBytes s (partOfIsland s (islandOfCore c)) at_ (dwordBytes w)) (some (.traceHead c))) s

/-- Free bytes of a core's trace buffer. -/
def traceFree (s : State) (c : Nat) : Nat :=
  (core s c).trace.size.toNat - (traceNext s c - (core s c).trace.tail.toNat)

/-- The sync marker: its doubleword with the count of lost records, and TIME (R281). -/
def syncWords (s : State) (c lost : Nat) : List Nat := [traceWord 15 0 0 0 0 lost, timeOf s (islandOfCore c)]

/-- Gap markers for a wait that DELTA cannot hold, and what is left of it below 2^32 (R281). -/
def gapWords : Nat → Nat → List Nat × Nat
  | 0, delta => ([], delta)
  | fuel + 1, delta =>
    if delta < 2 ^ 32 then ([], delta)
    else
      let r := gapWords fuel (delta - (2 ^ 32 - 1))
      (traceWord 3 0 0 0 0 (2 ^ 32 - 1) :: r.1, r.2)

/-- Words from a place of the buffer on, with a sync marker in front of each that would begin a block of 4,096 bytes
(R281); `lost` is the count the first sync marker carries. -/
def withSync (s : State) (c : Nat) : Nat → Nat → List Nat → List Nat
  | _, _, [] => []
  | at_, lost, w :: ws =>
    if at_ % 4096 = 0 then syncWords s c lost ++ w :: withSync s c (at_ + 24) 0 ws
    else w :: withSync s c (at_ + 8) lost ws

/-- The state once a core has written a record, with the sync marker it takes, where the reserved slot stays free behind it
(R281). Where the record ends a block of 4,096 bytes that slot is 24 bytes, since a truncation marker there takes a sync
marker with it (DESIGN CHOICE, log 128). -/
def traceFit (s : State) (c w : Nat) : Option State :=
  let t := (core s c).trace
  let ws := withSync s c (traceNext s c) t.lost [w]
  let spare := if (traceNext s c + 8 * ws.length) % 4096 = 0 then 24 else 8
  if 8 * ws.length + spare ≤ traceFree s c then
    some (onCore (tracePut s c ws) c fun k => { k with trace := { k.trace with
      lastAt := s.time, lost := if 1 < ws.length then 0 else k.trace.lost } })
  else none

/-- Write gap markers as far as they fit; what is left of the wait. -/
def traceGaps (c : Nat) : List Nat → State → Nat → State × Nat
  | [], s, left => (s, left)
  | w :: ws, s, left => match traceFit s c w with
    | some s1 => traceGaps c ws s1 (left - (2 ^ 32 - 1))
    | none => (s, left)

/-- The truncation marker in the reserved slot, with the most of the wait that its DELTA can hold; 0xE6 pends, and the record
counts as lost (R281; log 128). -/
def traceTruncate (s : State) (c slot pipe member tag left : Nat) : State :=
  let t := (core s c).trace
  let ws := withSync s c (traceNext s c) t.lost [traceWord 4 slot pipe member tag (min left (2 ^ 32 - 1))]
  pendNamed (onCore (tracePut s c ws) c fun k => { k with trace := { k.trace with
    lastAt := s.time, truncated := true, lost := (if 1 < ws.length then 0 else k.trace.lost) + 1 } }) (bits t.ctl 12 0) 6

/-- Write a trace record of a core behind the gap markers it takes, or the truncation marker that takes its place (R281). The
first record of a core has no previous one, and counts from TIME 0 (DESIGN CHOICE, log 129). -/
def traceRecord (s : State) (c kind slot pipe member tag : Nat) : State :=
  let t := (core s c).trace
  if !bit t.ctl 63 || t.size = 0 then s
  else if t.truncated then onCore s c fun k => { k with trace := { k.trace with lost := k.trace.lost + 1 } }
  else
    let delta := s.time - t.lastAt
    let r := traceGaps c (gapWords (delta / (2 ^ 32 - 1) + 1) delta).1 s delta
    let put := if r.2 < 2 ^ 32 then traceFit r.1 c (traceWord kind slot pipe member tag r.2) else none
    put.getD (traceTruncate r.1 c slot pipe member tag r.2)

/-- When TRTAIL frees space after a truncation: padding to the next block and a sync marker with the count (R281). The first
word of padding tells the cycles since the truncation marker, behind gap markers, as far as the padding has room, where
DELTA cannot hold them (DESIGN CHOICE, log 128). -/
def traceResume (s : State) (c : Nat) : State :=
  let t := (core s c).trace
  let pad := (4096 - traceNext s c % 4096) % 4096 / 8
  if t.truncated && decide (8 * pad + 24 ≤ traceFree s c) then
    let delta := s.time - t.lastAt
    let gaps := (gapWords (delta / (2 ^ 32 - 1) + 1) delta).1.take (pad - 1)
    let since (i : Nat) : Nat := if i = 0 then min (delta - gaps.length * (2 ^ 32 - 1)) (2 ^ 32 - 1) else 0
    let pads := (List.range (pad - gaps.length)).map fun i => traceWord 5 0 0 0 0 (since i)
    onCore (tracePut s c (gaps ++ pads ++ syncWords s c t.lost)) c fun k => { k with trace := { k.trace with
      truncated := false, lost := 0, lastAt := s.time } }
  else s

/-- The number of a pipe in a trace record (R281); the second ALU pipe is numbered apart. -/
def Pipe.number : Pipe → Nat
  | .ls => 0 | .alu => 1 | .mf => 3 | .px => 4 | .none => 5

/-- Insert a waiting record by pipe, then slot. -/
def insertTrace (e : TraceEvent) : List TraceEvent → List TraceEvent
  | [] => [e]
  | x :: xs => if e.pipe < x.pipe ∨ (e.pipe = x.pipe ∧ e.slot < x.slot) then e :: x :: xs else x :: insertTrace e xs

/-- Have a record written in this cycle, where the trace unit is enabled now. -/
def traceAt (s : State) (h : Nat) (e : TraceEvent) : State :=
  let c := coreOf h
  if bit (core s c).trace.ctl 63 then
    onCore s c fun k => { k with trace := { k.trace with pending := k.trace.pending ++ [e] } }
  else s

/-- The events of a flight that are due: its begins, and the ends of members; while the convoy waits behind the cycle it was to
drain in, those that would end with it have not (R113, R217, R280). -/
def Flight.due (now : Nat) (f : Flight) : List TraceEvent :=
  f.trace.filter fun e => decide (e.at_ ≤ now) && !(e.kind == 2 && decide (f.drains ≤ now))

/-- The events of the convoys in flight that are due join those of the current cycle. -/
def traceFlights (s : State) : State :=
  s.harts.foldl (fun s p => match p.2.flight with
    | none => s
    | some f =>
      if (f.due s.time).isEmpty then s
      else onHart ((f.due s.time).foldl (fun s e => traceAt s p.1 e) s) p.1 fun x => { x with
        flight := some { f with trace := f.trace.filter fun e => !(e ∈ f.due s.time) } }) s

/-- Write the waiting records of the current cycle, in ascending pipe and slot (R280). -/
def traceFlush (s : State) : State :=
  s.cores.foldl (fun s p =>
    if p.2.trace.pending.isEmpty then s
    else
      let due := (p.2.trace.pending.filter fun e => decide (e.at_ ≤ s.time)).foldl (fun l e => insertTrace e l) []
      let s1 := onCore s p.1 fun k => { k with trace := { k.trace with
        pending := k.trace.pending.filter fun e => decide (s.time < e.at_) } }
      due.foldl (fun s e => traceRecord s p.1 e.kind e.slot e.pipe e.member e.tag) s1) s

end Sys2Proof.Machine
end

