-- ==== Sys2Proof/Machine/Access.lean ====
section
/-!
DEFINITION. The accesses of a hart's scalar side: checks, triggers, conflict tracking, reading and writing
(spec/18 R368; spec/08 R172, R184; spec/10 R215 to R222; spec/12 R255, R259; spec/13 R278).
-/
namespace Sys2Proof.Machine

/-! ### Data triggers (R278) -/

/-- The lowest of n byte addresses from `va` that a trigger compares equal. -/
def triggerByte (t : Trigger) (va : Word) (n : Nat) : Option Word :=
  ((List.range n).map fun i => va + w64 i).find? fun a => ((a ^^^ t.addr) &&& ~~~t.mask) == 0

/-- A trigger's filter names the hart: a compute hart by its number (R17), or any hart of the island. -/
def triggerHart (t : Trigger) (h : Nat) : Bool := (decide (h < 5120) && bits t.ctl 12 0 == h) || bits t.ctl 12 0 == 0x1FFF

/-- The data triggers an access hits: number, action and byte. `side` is 1 for the scalar side, 2 for the vector
side. -/
def dataHits (s : State) (h side : Nat) (loads stores : Bool) (va : Word) (n : Nat) : List (Nat × Nat × Word) :=
  (island s (islandOf h)).triggers.filterMap fun p =>
    let k := bits p.2.ctl 21 20
    if 8 ≤ p.1 && triggerHart p.2 h && (bits p.2.ctl 19 18).testBit (side - 1)
        && ((loads && k.testBit 0) || (stores && k.testBit 1)) then
      (triggerByte p.2 va n).map fun a => (p.1, bits p.2.ctl 17 16, a)
    else none

/-- The instruction triggers that instructions of the acting hart match by their addresses (R278): number, action and
TVAL. -/
def pcHits (vas : List Word) (s : State) : List (Nat × Nat × Word) :=
  (island s (islandOf s.cur)).triggers.filterMap fun p =>
    if p.1 < 8 && triggerHart p.2 s.cur then
      (vas.find? fun va => ((va ^^^ p.2.addr) &&& ~~~p.2.mask) == 0).map fun va => (p.1, bits p.2.ctl 17 16, va)
    else none

/-- The triggers that the acting hart's instruction hits act before it takes effect, each given by its number, its action
and TVAL (R278). A debug freeze comes first, at this boundary (R251), and the hart passes it once it is released; then
every marker, and the trap of the lowest trigger of ACTION 1, `base` being the code of trigger 0. -/
def triggersAct (base : Byte) (hits : List (Nat × Nat × Word)) (s : State) : Tracked :=
  let here := some ((me s).pc, (me s).instret)
  if hits.any (·.2.1 == 2) && (me s).passed != here then
    .stop (onMe (onIsland s (islandOf s.cur) fun i => { i with freezeBit := true }) fun h => { h with passed := here })
  else
    let s1 := (hits.filter (·.2.1 == 3)).foldl (fun s _ =>
      traceAt s s.cur ⟨s.time, 0, slotOf s.cur, 6, 0, (me s).queued⟩) s
    match hits.find? (·.2.1 == 1) with
    | some x => .stop (raise (base + BitVec.ofNat 8 (x.1 % 8)) x.2.2 s1)
    | none => .go s1

/-- The instruction triggers act before the instructions at these addresses take effect (R278). -/
def pcTriggers (vas : List Word) (s : State) : Tracked := triggersAct 0xF8 (pcHits vas s) s

/-! ### Checked accesses -/

/-- How a checked access goes on. -/
inductive Acc where
  /-- The instruction ends here: it trapped, its hart is frozen or held, or it waits. -/
  | stop (s : State)
  | go (s : State) (ps : List Piece)

/-- The access ends with a failed check (R174, R184, R255). -/
def badAccess (kind : AccKind) (b : Bad) (s : State) : State :=
  match b with
  | .trap code tval => if code ≥ 0xC0 then uncorrectable code tval.toNat s else raise code tval s
  | .violation code tval pa => freezeHart s s.cur 1 code tval pa
  | .migrating va => waitOn (.migration va kind (s.time + 256)) s
  | .held => waitOn .conflict s

/-- The access is irrevocable in a speculative task (R222). -/
def isIrrevocable (stores : Bool) (ps : List Piece) : Bool :=
  ps.any fun p => match regionOf p.pa with
    | .mmio | .host | .peer _ => true
    | .spad _ _ => stores
    | _ => false

/-- The pieces stand in the MMIO region. -/
def isMmio (ps : List Piece) : Bool :=
  ps.any fun p => regionOf p.pa == .mmio

/-- Open a scalar access of n bytes: the checks of R368 in their order, the data triggers, and the hold of an
irrevocable access. An atomic operation is of the store class (R350). -/
def openScalar (loads stores amo : Bool) (va : Word) (n : Nat) (s : State) : Acc :=
  let kind : AccKind := if stores then .store else .load
  let a : Access := { scalarAccess s kind with amo := amo, whole := n == 8 && va.toNat % 8 == 0 }
  match checkAccess s a va n with
  | .error (s1, b) => .stop (badAccess kind b s1)
  | .ok (s1, ps) =>
    match triggersAct 0x30 (dataHits s s.cur 1 loads stores va n) s1 with
    | .stop s2 => .stop s2
    | .go s2 =>
      if isIrrevocable stores ps then
        match irrevocable s2 with
        | .stop s3 => .stop s3
        | .go s3 => .go s3 ps
      else .go s2 ps

/-- The first byte that consumes uncorrectable data; a task's own buffered bytes do not. -/
def poisonIn (s : State) (as : List Nat) : Option (Nat × Nat) :=
  if s.poison.isEmpty && s.lostLines.isEmpty then none
  else
    let own := match taskAt s s.cur with
      | some e => e.buf
      | none => []
    as.findSome? fun a => if (tabGet own a).isSome then none else poisonAt s a 1

/-- The bytes of a checked access, taken in a state that its tracking has left; an access that consumes uncorrectable data
ends in the state before (R259). -/
def takeBytes (before s : State) (ps : List Piece) : Except State (State × List Byte) :=
  match poisonIn s (pieceBytes ps) with
  | some p => .error (uncorrectable (0xC0 + BitVec.ofNat 8 p.2) p.1 before)
  | none => .ok (touch (loadScalarLine (coreOf s.cur)) s (spansOf ps), readCells s (pieceBytes ps))

/-- Read the bytes of a checked access (R215, R216, R259); an error is where the instruction ends. -/
def readScalar (s : State) (ps : List Piece) : Except State (State × List Byte) :=
  match trackRead s (ps.filter fun p => tracked p.pa) with
  | .stop s1 => .error s1
  | .go s1 => takeBytes s s1 ps

/-- Write bytes of a checked access, those with a value: the others keep theirs. A speculative task's bytes go to its
rows (R215), others to the lines of their side. -/
def writeCells (line : Nat → State → Nat → State) (s : State) (ps : List Piece) (cells : List Host.Cell) : Except State State :=
  match trackWrite s (ps.filter fun p => tracked p.pa) (cells.filter fun c => tracked c.1) with
  | .stop s1 => .error s1
  | .go s1 =>
    let s2 := storeBytes s1 (cells.filter fun c => !tracked c.1)
    .ok (if (taskAt s s.cur).isSome then s2 else touch (line (coreOf s.cur)) s2 (spansOf ps))

/-- Write the bytes of a checked scalar access. -/
def writeScalar (s : State) (ps : List Piece) (bs : List Byte) : Except State State :=
  writeCells storeScalarLine s ps ((pieceBytes ps).zip bs)

/-- Write the bytes of a vector or matrix access. -/
def writeVector (s : State) (ps : List Piece) (bs : List Byte) : Except State State :=
  writeCells storeVectorLine s ps ((pieceBytes ps).zip bs)

end Sys2Proof.Machine
end

