-- ==== Sys2Proof/Machine/Operands.lean ====
section
/-!
DEFINITION. The operand forms: immediates, boxed f registers, IMM32 and the elements of vector and mask registers
(spec/14_encoding.md R287, R291; spec/02_state.md R41, R42; spec/03_numbers.md R67; spec/16_pseudocode.md R330).
-/
namespace Sys2Proof.Machine

/-- A signed immediate (R287). -/
def simm {w : Nat} (i : BitVec w) : Word := i.signExtend 64
/-- An unsigned immediate (R287). -/
def uimm {w : Nat} (i : BitVec w) : Word := i.setWidth 64

/-! ### f registers (R41, R344) -/

/-- The types whose box is checked at a read: FP32, FP16 and BF16 (R41), and the two FP8 formats, which have a NaN too
(DEDUCED, log 23). -/
def isBoxed (t : Ty) : Bool := t == .sf || t == .hf || t == .bf || t == .e4 || t == .e5
/-- Every bit above the value is 1. -/
def boxOk (t : Ty) (v : Word) : Bool :=
  !isBoxed t || v.toNat / 2 ^ t.bits == 2 ^ (64 - t.bits) - 1
/-- The operand of a type in an f register: the canonical NaN where the box check fails (R344). FP6 and
FP4, which have no NaN, are read from the low bits with no check (DEDUCED, log 23). -/
def unboxF (t : Ty) (v : Word) : Nat := if boxOk t v then v.toNat % 2 ^ t.bits else (fmtOf t).nanEnc
/-- A result of a type in an f register: every bit above it is 1 (R344). -/
def boxF (t : Ty) (enc : Nat) : Word :=
  BitVec.ofNat 64 (enc % 2 ^ t.bits + (2 ^ 64 - 2 ^ t.bits))
/-- A value of an integer type in an x register (R346, R420). -/
def extX (t : Ty) (enc : Nat) : Word := BitVec.ofInt 64 (intOf t enc)

/-! ### IMM32 (R291) -/

/-- IMM32 as an element of an integer type: sign-extended and wrapped. -/
def immInt (t : Ty) (i : Word32) : Nat := wrapInt (elemBits t) i.toInt
/-- IMM32 as an element of a floating-point type: FP32 bits rounded to nearest even, with no flag. -/
def immFp (t : Ty) (i : Word32) : Nat := (roundF (fmtOf t) 0 none false (valueF fmtSf i.toNat)).enc
/-- IMM32 as an element (R319). -/
def immElem (t : Ty) (i : Word32) : Nat := if t.isAnyFp then immFp t i else immInt t i

/-! ### Vector and mask registers (R42, R67, R330) -/

/-- Element i of width w (R330). -/
def vElem (r : BitVec 65536) (w i : Nat) : Nat := getBits r (w * i) w
/-- Write element i of width w; the other bits are unchanged (R330). -/
def setVElem (r : BitVec 65536) (w i v : Nat) : BitVec 65536 := putBits r (w * i) w v
/-- Mask bit i; a mask selection of 0 is all-true (R330). -/
def maskBit (k : BitVec 8192) (i : Nat) : Bool := k.toNat.testBit i
/-- Replace the bits of a register below n (R42: tail bits are undisturbed). -/
def putLow {w : Nat} (r : BitVec w) (n v : Nat) : BitVec w := putBits r 0 n v

/-- Bits of a v register under a declaration: LANES × 32,768 ÷ registers (R42). -/
def rlen (lanes : Nat) (regs : BitVec 2) : Nat := lanes * 32768 / (8 * 2 ^ regs.toNat)
/-- The number of declared v registers (R46). -/
def regCount (regs : BitVec 2) : Nat := 8 * 2 ^ regs.toNat

end Sys2Proof.Machine
end

