-- ==== Sys2Proof/Machine/Regs.lean ====
section
/-!
DEFINITION. The layouts of the system registers, the ownership of lanes and of the matrix engine, and the images of
vector and matrix state (spec/02_state.md R45 to R63; spec/05_vectors.md R118; spec/18 R381).
-/
namespace Sys2Proof.Machine

/-! ### Layouts -/

/-- VDECL (R46). -/
def vdeclWord (h : Hart) : Word := w64 (h.lanes.toNat * 256 + h.regs.toNat * 16 + h.ew.toNat)
/-- FPCTL (R47). -/
def fpctlWord (h : Hart) : Word := w64 (h.flags.toNat * 32 + h.rm.toNat)
/-- TSHAPE (R50). -/
def tshapeWord (c : Core) : Word := w64 (c.kb.toNat * 65536 + c.n.toNat * 256 + c.m.toNat)
/-- STATUS (R54). -/
def statusWord (h : Hart) : Word :=
  let unsaved := h.vs == 2 || h.ms == 2
  w64 ((if h.late then 1024 else 0) + (if unsaved then 512 else 0) + h.ms.toNat * 64 + h.vs.toNat * 16
    + h.pmode.toNat * 4 + (if h.pie then 2 else 0) + (if h.ie then 1 else 0))
/-- CAUSE (R57). -/
def causeWord (h : Hart) : Word := w64 (h.causeOrig.toNat * 256 + h.causeCode.toNat)
/-- TDOM (R52). -/
def tdomWord (h : Hart) : Word := w64 ((if h.tmode then 2 ^ 63 else 0) + h.dom.toNat)
/-- GANGCTL (R61). -/
def gangWord (g : GangCtl) : Word :=
  w64 ((if g.valid then 2 ^ 63 else 0) + g.gang.toNat * 65536 + g.size.toNat * 64 + g.member.toNat)
/-- HARTID (R57). -/
def hartIdWord (h : Nat) : Word := if isSteward h then w64 (32768 + (h - 5120)) else w64 h
/-- PTBASE keeps no reserved bit (R58). -/
def ptbaseOf (v : Word) : Word := v &&& 0xFFFFFFFFFFFFF001
/-- TVEC keeps MODE 0 or 1 (R57). -/
def tvecOf (v : Word) : Word := if v &&& 3 = 1 then v else v &&& ~~~3#64
/-- PMODE 0b11 is stored as 0b01 (R54). -/
def pmodeOf (v : BitVec 2) : BitVec 2 := if v = 3 then 1 else v

/-- IPEND as it reads: bit 2 is 1 while TIME ≥ TIMECMP (R277). -/
def ipendOf (s : State) (h : Nat) : Word :=
  let x := hart s h
  if x.timecmp.toNat ≤ timeOf s (islandOf h) % 2 ^ 64 then x.ipend ||| 4 else x.ipend
/-- An interrupt bit is pending and enabled in IMASK (R277). -/
def irqWaiting (s : State) (h : Nat) : Bool := ipendOf s h &&& (hart s h).imask &&& 0xFFFE != 0

/-! ### Lanes and engine (R55, R56, R59) -/

/-- The LANEPART field of a slot. -/
def laneField (lp : BitVec 16) (sl : Nat) : BitVec 4 := BitVec.ofNat 4 (lp.toNat / 16 ^ sl)
/-- The lane groups of a core: four, and one on a steward core (R18, R21). -/
def coreGroups (c : Nat) : BitVec 4 := if c < 1280 then 15 else 1
/-- What a hart's LANEPART field grants at a SETVL: the groups its core has. A field of a steward core may name groups
that the core does not have, and they grant nothing (DESIGN CHOICE, log 86). -/
def grantOf (lp : BitVec 16) (h : Nat) : BitVec 4 := laneField lp (slotOf h) &&& coreGroups (coreOf h)
/-- A legal field (R59). -/
def laneFieldOk (g : Nat) : Bool := g ∈ [0, 1, 2, 4, 8, 3, 12, 15]
/-- A legal LANEPART (R59). -/
def lanepartOk (lp : Nat) : Bool :=
  let f (i : Nat) := lp / 16 ^ i % 16
  (List.range 4).all (fun i => laneFieldOk (f i)) &&
  (List.range 4).all fun i => (List.range 4).all fun j => i == j || f i &&& f j == 0
/-- Set the LANEPART field of a slot. -/
def setLaneField (lp : BitVec 16) (sl g : Nat) : BitVec 16 := putBits lp (4 * sl) 4 g
/-- Lanes of a set of groups (R386). -/
def lanesOf (g : Nat) : Nat := 4 * ((List.range 4).filter fun i => g.testBit i).length
/-- A release of a hart's groups (R59). -/
def releaseGroups (h : Hart) : Hart :=
  { h with groups := 0, lanes := 0, regs := 0, ew := 0, vl := 0, vlmax := 0, vlSeq := h.vlSeq + 1 }
/-- Zero the vector state (R55). -/
def zeroVector (h : Hart) : Hart := { h with v := Vector.replicate 32 0, k := Vector.replicate 8 0, badV := 0 }
/-- Zero the matrix state of a core (R55). -/
def zeroMatrix (c : Core) : Core :=
  { c with a := Vector.replicate 4 0, asc := Vector.replicate 4 0, c := Vector.replicate 8 0
           tm := Vector.replicate 4 0, kb := 0, n := 0, m := 0, short := false, badTiles := [] }
/-- Another hart of the core owns the matrix engine (R56). -/
def engineTaken (s : State) (h : Nat) : Bool :=
  (hartsOn (coreOf h)).any fun o => o != h && (hart s o).ms != 0

/-- The commands of an engine that have not ended. -/
def unended (e : Engine) : List StreamCmd :=
  (e.running.map (·.cmd)).toList ++ (e.violating.map (·.cmd)).toList ++ e.queue

/-- The convoys of a hart that are queued or in flight. -/
def convoysOf (x : Hart) : List Convoy := (x.flight.map (·.convoy)).toList ++ x.vq

/-- A convoy's memory member is a first-fault load. -/
def Convoy.firstFault (c : Convoy) : Bool := c.members.any fun m => match m.act with
  | .loadFF _ _ _ => true
  | _ => false

/-- The pins under which a hart's queued instructions access memory without another check: an exposed convoy that is to be
probed again has nothing behind it, and makes its accesses then (R178, R179). -/
def queuedPins (x : Hart) : List Pin :=
  ((convoysOf x).filter fun c => c.reprobe.isNone || c.firstFault).flatMap (·.pins) ++ x.mq.flatMap (·.pins)

/-- A pin lies in the scratchpad window of a core. -/
def Pin.inSpad (c : Nat) (p : Pin) : Bool := decide (spadBase c / 4096 ≤ p.ppage) && decide (p.ppage < spadBase c / 4096 + 256)

/-- What a change of S waits for has come: an idle engine, no speculative row on the core (R60), and no queued instruction
that was checked against the old S and has still to access the scratchpad, so that it completes there (R33, R139; DESIGN
CHOICE, log 106). -/
def splitFree (s : State) (c : Nat) : Bool :=
  (unended (core s c).engine).isEmpty && (rowsOn s c).isEmpty
    && !s.harts.any fun p => (queuedPins p.2).any (Pin.inSpad c)

/-- Change S of a core: its L2 portion is written back and invalidated, and the scratchpad of the new size reads zero
(R60). -/
def setSplit (s : State) (c : Nat) (v : BitVec 3) : State :=
  clearRange (onCore (flushCore s c) c (fun k => { k with split := v })) (spadBase c) 0x100000

/-! ### Images -/

/-- The low n bytes of a wide value, lowest first. -/
def wideBytes {w : Nat} (v : BitVec w) (n : Nat) : List Byte := bytesOfNat n v.toNat
/-- A wide value of bytes. -/
def wideOf (w : Nat) (bs : List Byte) : BitVec w := BitVec.ofNat w (natOfBytes bs)
/-- Bytes of a list from an offset. -/
def sliceOf (bs : List Byte) (at_ n : Nat) : List Byte := (bs.drop at_).take n

/-- The bytes of a vector image under a declaration (R118). -/
def vectorImageSize (lanes : Nat) : Nat := 64 + lanes * 4096 + 7168
/-- The vector image of a hart (R118). -/
def vectorImage (h : Hart) : List Byte :=
  let r := rlen h.lanes.toNat h.regs
  bytesOfNat 2 3 ++ bytesOfNat 2 (r / 64) ++ bytesOfNat 1 h.regs.toNat ++ List.replicate 59 0
    ++ (h.v.toList.take (regCount h.regs)).flatMap (fun v => wideBytes v (r / 8))
    ++ (h.k.toList.drop 1).flatMap (fun k => wideBytes k 1024)
/-- The header matches the declaration (R119). -/
def vectorHeaderOk (h : Hart) (bs : List Byte) : Bool :=
  natOfBytes (sliceOf bs 0 2) == 3 && natOfBytes (sliceOf bs 2 2) == rlen h.lanes.toNat h.regs / 64
    && natOfBytes (sliceOf bs 4 1) == h.regs.toNat
/-- Load the registers of a vector image (R119). -/
def loadVector (bs : List Byte) (h : Hart) : Hart :=
  let n := rlen h.lanes.toNat h.regs / 8
  let ks := 64 + h.lanes.toNat * 4096
  { h with
    v := Vector.ofFn fun (i : Fin 32) =>
      if i.val < regCount h.regs then wideOf 65536 (sliceOf bs (64 + i.val * n) n) else h.v[i]
    k := Vector.ofFn fun (i : Fin 8) =>
      if i.val = 0 then 0 else wideOf 8192 (sliceOf bs (ks + 1024 * (i.val - 1)) 1024) }

/-- The bytes of a matrix image (R381). -/
def matrixImageSize : Nat := 50496
/-- The matrix image of a core (R381). -/
def matrixImage (c : Core) : List Byte :=
  bytesOfNat 2 0x13 ++ List.replicate 6 0 ++ wideBytes (tshapeWord c) 8 ++ [if c.short then 1 else 0]
    ++ List.replicate 47 0 ++ c.a.toList.flatMap (fun t => wideBytes t 4096)
    ++ c.asc.toList.flatMap (fun t => wideBytes t 256) ++ c.c.toList.flatMap (fun t => wideBytes t 4096)
    ++ c.tm.toList.flatMap (fun t => wideBytes t 64)
/-- A TSHAPE value keeps R50. -/
def tshapeOk (v : Nat) : Bool :=
  decide (v / 65536 % 256 ≤ 128) && decide (v / 256 % 64 ≤ 32) && decide (v % 64 ≤ 32)
/-- Load the matrix state of an image (R381). -/
def loadMatrix (bs : List Byte) (c : Core) : Core :=
  let t := natOfBytes (sliceOf bs 8 8)
  { c with
    kb := BitVec.ofNat 8 (t / 65536), n := BitVec.ofNat 6 (t / 256), m := BitVec.ofNat 6 t
    short := natOfBytes (sliceOf bs 16 1) % 2 == 1
    a := Vector.ofFn fun (i : Fin 4) => wideOf 32768 (sliceOf bs (64 + 4096 * i.val) 4096)
    asc := Vector.ofFn fun (i : Fin 4) => wideOf 2048 (sliceOf bs (16448 + 256 * i.val) 256)
    c := Vector.ofFn fun (i : Fin 8) => wideOf 32768 (sliceOf bs (17472 + 4096 * i.val) 4096)
    tm := Vector.ofFn fun (i : Fin 4) => wideOf 512 (sliceOf bs (50240 + 64 * i.val) 64) }

end Sys2Proof.Machine
end

