-- ==== Sys2Proof/Machine/Sync.lean ====
section
/-!
DEFINITION. Messages, the gang barrier, the waits on TIME and on a watermark, fences, and the events that end a
wait (spec/11_scheduling.md R241 to R245; spec/18 R382; spec/17 R359, R360; spec/19 R427, R428; spec/08 R184).
-/
namespace Sys2Proof.Machine

/-- Hold the instruction as an irrevocable action, or go on with its effect (R222). -/
def irrevocably (s : State) (k : State → State) : State :=
  match irrevocable s with
  | .stop s1 => s1
  | .go s1 => k s1

/-- Check a run of bytes of the acting hart's scalar side: its pieces, or where the instruction ends. -/
def checkBytes (kind : AccKind) (va : Word) (n : Nat) (s : State) : Except State (State × List Piece) :=
  match checkRun s (scalarAccess s kind) (n / 4096 + 2) va n with
  | .error (s1, b) => .error (badAccess kind b s1)
  | .ok (s1, ps) =>
    match triggersAct 0x30 (dataHits s s.cur 1 (kind == .load) (kind == .store) va n) s1 with
    | .stop s2 => .error s2
    | .go s2 => .ok (s2, ps)

/-- A queued vector or matrix memory access of the hart is not yet performed. The convoy that a late vector fault
holds until TRET counts for nothing that its handler waits for (DEDUCED, log 38). -/
def memoryPending (h : Hart) : Bool :=
  h.vq.any (·.mem) || h.flight.any (·.convoy.mem) || h.mq.any (·.mem)

/-- An access of the vector side before the hart's last FENCE.VV is not yet performed: a younger one may not be probed,
since its probe reads tables (R192 case 9, R196). -/
def vvPending (h : Hart) : Bool :=
  h.vq.any (fun c => c.mem && decide (c.seq < h.vvFence))
    || h.flight.any (fun f => f.convoy.mem && decide (f.convoy.seq < h.vvFence))
    || h.mq.any fun e => e.mem && decide (e.seq < h.vvFence)

/-! ### What a boundary allows (R251) -/

/-- The hart stands at a boundary: no instruction of its has issued whose x or f register is still to be written
(R115, R401). -/
def atBoundary (h : Hart) : Bool := h.wait != some .dest

/-- A command of the hart's slot has not ended (R166). -/
def hasCommands (s : State) (h : Nat) : Bool :=
  let e := (core s (coreOf h)).engine
  e.queue.any (·.hart == h) || e.running.any (·.cmd.hart == h) || e.violating.any (·.cmd.hart == h)

/-- The hart runs: it is started, and neither pre-empted, frozen, halted nor gated (R251 items 1 and 2, R255). -/
def hartRuns (s : State) (h : Nat) : Bool :=
  let x := hart s h
  x.started && !x.preempted && !x.freeze.isSet && !hartGated s h

/-- A pre-emption request that is not deferred: no late vector fault, no stream command of the slot (R166, R180). -/
def preemptDue (s : State) (h : Nat) : Bool :=
  let x := hart s h
  x.preemptReq && !x.late && x.lateFault.isNone && !hasCommands s h

/-- The lowest interrupt that is pending and enabled (R251 item 4). -/
def lowestIrq (s : State) (h : Nat) : Option Nat :=
  let w := ipendOf s h &&& (hart s h).imask
  (List.range 16).find? fun k => decide (0 < k) && w.toNat.testBit k

/-- An interrupt is taken at the hart's boundary now: nothing earlier in the order of R251 applies. -/
def interruptDue (s : State) (h : Nat) : Bool :=
  let x := hart s h
  hartRuns s h && x.ie && atBoundary x && !preemptDue s h

/-- A waiting instruction of the hart may go on, or trap: nothing earlier in the order of R251 applies (R251 item 5,
R254 step 1). -/
def waitGoes (s : State) (h : Nat) : Bool :=
  hartRuns s h && !preemptDue s h && !((hart s h).ie && (lowestIrq s h).isSome)

/-! ### Messages (R241 to R243) -/

/-- The gang-table entry of the acting hart's gang. -/
def myGang (s : State) : Option Gang :=
  let g := (me s).gang
  if g.valid then tabGet (island s (islandOf s.cur)).gangs (g.gang.toNat % 256) else none

/-- The hart an operand names on the acting hart's island, if it is loaded (R241). -/
def namedHart (s : State) (v : Word) : Option Nat :=
  let who := bits v 23 16
  let n := islandOf s.cur
  let h := if bit v 24 then
      (if who < 64 then (myGang s).bind fun g => tabGet g.harts who else none)
    else some (hartAtPosition n who)
  h.bind fun h => if (hart s h).started || (hart s h).stopped then some h else none

/-- The inbox of a class. -/
def inboxOf (h : Hart) (cls : Bool) : List Message := if cls then h.inbox1 else h.inbox0
/-- Set the inbox of a class. -/
def setInbox (cls : Bool) (l : List Message) (h : Hart) : Hart :=
  if cls then { h with inbox1 := l } else { h with inbox0 := l }

/-- The message of the acting hart to another: its bytes with the sender's position and member index (R242). -/
def messageOf (s : State) (dest : Nat) (bs : List Byte) : Message :=
  ⟨bs, position s.cur, if (me s).gang.valid then some (me s).gang.member.toNat else none,
    (me s).gang.valid && (hart s dest).gang.valid && (me s).gang.gang == (hart s dest).gang.gang⟩

/-- A SEND whose source is waited for is in progress, as one that waits for room is (R244). -/
def sendWaits (dest : Nat) (cls : Bool) (va : Word) (n : Nat) (s : State) : State :=
  if (me s).wait == some .conflict || (taskAt s s.cur).any (·.st == .waiting) then waitOn (.send dest cls va n) s else s

/-- SEND steps 2 to 4 (R242): the source is checked, the inbox has room, the message is deposited. -/
def sendFrom (dest : Nat) (cls : Bool) (va : Word) (n : Nat) (s : State) : State :=
  match checkBytes .load va n s with
  | .error s1 => sendWaits dest cls va n s1
  | .ok (s1, ps) =>
    if 8 ≤ (inboxOf (hart s dest) cls).length then waitOn (.send dest cls va n) s
    else
      match readScalar s1 ps with
      | .error s2 => sendWaits dest cls va n s2
      | .ok (s2, bs) =>
        retire (onHart s2 dest fun h => setInbox cls (inboxOf h cls ++ [messageOf s2 dest bs]) h)

/-- SEND (R241, R242, R382). -/
def execSend (d a b : Reg) (u : Bool) (s : State) : Out :=
  let w := leadWord (.send d a b u)
  .next (irrevocably s fun s =>
    let dst := rx s d
    match namedHart s dst with
    | none => raise 0xA3 w s
    | some h =>
      if bits dst 63 25 ≠ 0 ∨ bits dst 15 0 ≠ 0 then raise 0xA3 w s
      else if 4096 < (rx s b).toNat then raise 0xA7 w s
      else sendFrom h u (rx s a) (rx s b).toNat s)

/-- A message matches a filter: any sender, a member of the receiver's gang by its index, or a hart of the island by
its position (R241, R243). -/
def matchesFilter (filter : Word) (m : Message) : Bool :=
  bit filter 25 || (if bit filter 24 then m.own && m.member == some (bits filter 23 16) else m.sender == bits filter 23 16)

/-- A filter that RECV takes (R241): its zero fields, and the G form only in a gang and with a member's index. -/
def filterOk (s : State) (f : Word) : Bool :=
  bits f 63 26 == 0 && bits f 15 13 == 0
    && (!bit f 24 || ((myGang s).isSome && (bit f 25 || decide (bits f 23 16 < 64))))

/-- The value RECV writes to xd (R243). -/
def recvWord (m : Message) (len : Nat) : Word :=
  w64 ((if len < m.bytes.length then 2 ^ 63 else 0)
    + (match m.member with | some i => 2 ^ 46 + i % 64 * 2 ^ 40 | none => 0)
    + m.sender % 256 * 2 ^ 32 + m.bytes.length)

/-- Take the first element a test accepts out of a list. -/
def takeFirst {α : Type} (p : α → Bool) : List α → Option (α × List α)
  | [] => none
  | x :: xs => if p x then some (x, xs) else (takeFirst p xs).map fun r => (r.1, x :: r.2)

/-- The acting hart begins to be blocked in RECV: it has not been since the previous round (R244). -/
def beginBlocked (s : State) : State :=
  let n := islandOf s.cur
  if s.cur ∈ (island s n).blocked then
    onIsland s n fun i => { i with blocked := i.blocked.filter (· != s.cur) }
  else s

/-- RECV steps 2 to 4 (R243): the posted bytes are checked, a message is taken, or the hart waits; `w` is its leading
word. -/
def recvInto (d : Reg) (va filter : Word) (cls : Bool) (w : Word) (s : State) : State :=
  let len := bits filter 12 0
  match checkBytes .store va len s with
  | .error s1 => s1
  | .ok (s1, ps) =>
    match takeFirst (matchesFilter filter) (inboxOf (me s) cls) with
    | none => waitOn (.recv d va filter cls w) (beginBlocked s)
    | some (m, rest) =>
      match writeCells storeScalarLine s1 ps ((pieceBytes ps).zip (m.bytes.take len)) with
      | .error s2 => s2
      | .ok s2 => retireX d (recvWord m len) (onMe s2 (setInbox cls rest))

/-- RECV (R241, R243, R382). -/
def execRecv (d a b : Reg) (u : Bool) (s : State) : Out :=
  let w := leadWord (.recv d a b u)
  .next (irrevocably s fun s =>
    let f := rx s b
    if !filterOk s f then raise 0xA3 w s
    else if 4096 < bits f 12 0 then raise 0xA7 w s
    else recvInto d (rx s a) f u w s)

/-- SEND_DEPOSIT: a waiting SEND goes on when the inbox has room (R242), also where its destination was unloaded
meanwhile (log 112). -/
def execSendDeposit (h : Nat) (s : State) : Out :=
  match (hart s h).wait with
  | some (.send dest cls va n) =>
    if (inboxOf (hart s dest) cls).length < 8 then .next (sendFrom dest cls va n { s with cur := h }) else .next s
  | _ => .next s

/-- RECV_TAKE: a waiting RECV takes a matching message (R243). -/
def execRecvTake (h : Nat) (s : State) : Out :=
  match (hart s h).wait with
  | some (.recv d va f cls w) =>
    if (inboxOf (hart s h) cls).any (matchesFilter f) then
      .next (recvInto d va f cls w { s with cur := h })
    else .next s
  | _ => .next s

/-! ### The gang barrier (R245) -/

/-- The hart keys of the members of a gang, companions left out. -/
def membersOf (g : Gang) : List Nat := (g.harts.filter fun p => decide (p.1 < 64)).map (·.2)

/-- The hart has arrived at the barrier that follows so many completed ones. -/
def hasArrived (count : Word) (h : Hart) : Bool := h.arrived && h.barrierCount == count

/-- Every member has arrived; one may have been taken away by an interrupt since (R31). -/
def barrierFull (s : State) (g : Gang) : Bool :=
  decide ((membersOf g).length = g.packet.size) && (membersOf g).all fun h => hasArrived g.barriers (hart s h)

/-- A member is released: xd receives the number of barriers completed before this one. A member that may not go on now
executes its GBAR again, once it may, and finds its barrier completed (R31, R251). -/
def releaseMember (count : Word) (h : Hart) : Hart :=
  match h.wait with
  | some (.gbar d) => retireHart 4 { setX h d count with arrived := false }
  | _ => h

/-- The barrier of a gang-table entry completes if every member has arrived (R245); `own` names the hart whose GBAR this
is, which goes on at once. -/
def releaseBarrier (own : Nat → Bool) (n e : Nat) (s : State) : State :=
  match tabGet (island s n).gangs e with
  | none => s
  | some g =>
    if barrierFull s g then
      let s1 := (membersOf g).foldl (fun t h =>
        if own h || waitGoes s h then onHart t h (releaseMember g.barriers) else t) s
      onIsland s1 n fun i => { i with gangs := tabSet i.gangs e { g with barriers := g.barriers + 1 } }
    else s

/-- The barrier at which a hart waits has completed without releasing it. -/
def barrierPassed (s : State) (h : Nat) : Bool :=
  ((tabGet (island s (islandOf h)).gangs ((hart s h).gang.gang.toNat % 256)).any fun g =>
    (hart s h).arrived && (hart s h).barrierCount != g.barriers)

/-- GBAR (R245, R360). -/
def execGbar (d : Reg) (s : State) : Out :=
  let w := leadWord (.gbar d)
  .next (irrevocably s fun s =>
    match myGang s with
    | none => raise 0xA6 w s
    | some g =>
      -- its barrier completed while an interrupt had taken the member out of its GBAR
      if (me s).arrived ∧ (me s).barrierCount ≠ g.barriers then
        retireX d (me s).barrierCount (onMe s fun h => { h with arrived := false })
      else if g.broken then raise 0xA5 w s
      else if memoryPending (me s) then waitOn .queues s
      else
        let s1 := onMe s fun h =>
          { h with arrived := true, barrierCount := if h.arrived then h.barrierCount else g.barriers
                   wait := some (.gbar d) }
        releaseBarrier (· == s.cur) (islandOf s.cur) ((me s).gang.gang.toNat % 256) s1)

/-- GBAR_RELEASE: the last member has arrived (R245). -/
def execGbarRelease (n e : Nat) (s : State) : Out := .next (releaseBarrier (fun _ => false) n e s)

/-! ### Waits on TIME -/

/-- TIME as the acting hart reads it. -/
def myTime (s : State) : Nat := timeOf s (islandOf s.cur)

/-- WAITT (R427). -/
def execWaitt (a : Reg) (s : State) : Out :=
  .next (irrevocably s fun s =>
    let t := rx s a
    if myTime s + 2 ^ 32 < t.toNat then raise 0xA8 (leadWord (.waitt a)) s
    else if t.toNat ≤ myTime s then retire s
    else waitOn (.waitt t) s)

/-- WAITT_EXPIRE: TIME has reached the target (R427). -/
def execWaittExpire (h : Nat) (s : State) : Out :=
  match (hart s h).wait with
  | some (.waitt t) => .next (if t.toNat ≤ timeOf s (islandOf h) then retire { s with cur := h } else s)
  | _ => .next s

/-! ### Fences (R196, R359) -/

/-- FENCE: scalar accesses being performed when they retire, .sv only goes on; .vv marks the place in both queues that
younger accesses wait behind; .vs and .all wait for the vector side's older memory accesses (R196). -/
def execFence (dir : Dir) (_sc : Scope) (s : State) : Out :=
  match dir with
  | .sv => .next (retire s)
  | .vv => .next (retire (onMe s fun h => { h with vvFence := h.queued }))
  | .vs | .all => .next (if memoryPending (me s) then waitOn (.fence dir) s else retire s)

/-- FENCE_COMPLETE: the older accesses are performed (R196). -/
def execFenceComplete (h : Nat) (s : State) : Out :=
  match (hart s h).wait with
  | some (.fence _) => .next (if memoryPending (hart s h) then s else retire { s with cur := h })
  | _ => .next s

/-! ### Translations (R173, R184) -/

/-- PAGE_WALK: the walker of a hart's core walks for an address and keeps the translation (R171, R173, R175). -/
def execPageWalk (h : Nat) (va : Word) (k : AccKind) (s : State) : Out :=
  match translate s (hartAccess s h k) va with
  | .ok s1 _ | .fail s1 _ | .migrating s1 => .next s1
  | .held => .next s

/-- MIGRATION_RECHECK: the entry is read again every 256 cycles (R184); the access runs again once it does not
stall. -/
def execMigrationRecheck (h : Nat) (s : State) : Out :=
  match (hart s h).wait with
  | some (.migration va k t) =>
    if s.time < t then .next s
    else match translate s (hartAccess s h k) va with
      | .migrating s1 => .next (onHart s1 h fun x => { x with wait := some (.migration va k (s.time + 256)) })
      | _ => .next (onHart s h fun x => { x with wait := none })
  | _ => .next s

end Sys2Proof.Machine
end

