-- ==== Sys2Proof/Machine/VShape.lean ====
section
/-!
DEFINITION. What a vector instruction is, apart from its values: its pipe, class, latency, beats, widths and registers,
the structural rules of convoys and their timing (spec/05_vectors.md R102 to R117; spec/17 R362; spec/19 R399, R406).
-/
namespace Sys2Proof.Machine

/-- Consecutive registers. -/
def regRun (r : Reg) (n : Nat) : List Nat := (List.range n).map (r.toNat + ·)
/-- The v register of an argument. -/
def VArg.regs : VArg → List Nat
  | .vreg r => [r.toNat]
  | _ => []
/-- The v register of an index. -/
def VAddr.regs : VAddr → List Nat
  | .indexed _ r _ => [r.toNat]
  | _ => []

/-- The pipe of an instruction (R111, R362, R406). -/
def VAct.pipe : VAct → Pipe
  | .load _ _ _ | .loadFF _ _ _ | .store _ _ _ | .planeLoad _ _ _ | .planeStore _ _ _ | .save _ | .restore _ => .ls
  | .int .mul _ _ _ _ | .int .mulh _ _ _ _ | .madd _ _ _ _ _ | .fp .mul _ _ _ _ | .fp .div _ _ _ _
  | .fp .sqrt _ _ _ _ | .fma _ _ _ _ _ _ | .planeDot _ _ _ _ _ _ => .mf
  | .int _ _ _ _ _ | .widen _ _ _ _ | .narrow _ _ _ _ _ | .cmp _ _ _ _ _ | .fp _ _ _ _ _ | .fcmp _ _ _ _ _
  | .fcvt _ _ _ _ | .merge _ _ _ _ | .bcast _ _ _ | .move _ _ _ | .kop _ _ _ _ | .knot _ _ | .kset _ _
  | .kpopc _ _ | .kfirst _ _ => .alu
  | .sf _ _ _ _ | .red _ _ _ _ _ | .fred _ _ _ _ _ _ | .scan _ _ _ _ _ _ | .slideUp _ _ _ _ | .slideDn _ _ _ _
  | .gather _ _ _ _ _ | .compress _ _ _ | .expand _ _ _ | .moveX _ _ _ | .moveS _ _ _ _ | .iota _ _
  | .quant _ _ _ _ _ | .dequant _ _ _ _ | .toPlanes _ _ _ _ | .toPacked _ _ _ _ => .px
  | .setwm _ _ _ => .none

/-- A cross-element instruction (R107, R111). -/
def VAct.isCross : VAct → Bool
  | .planeLoad _ _ _ | .planeStore _ _ _ | .planeDot _ _ _ _ _ _ | .toPlanes _ _ _ _ | .toPacked _ _ _ _
  | .red _ _ _ _ _ | .fred _ _ _ _ _ _ | .scan _ _ _ _ _ _ | .slideUp _ _ _ _ | .slideDn _ _ _ _
  | .gather _ _ _ _ _ | .compress _ _ _ | .expand _ _ _ | .moveS _ _ _ _ | .iota _ _ | .quant _ _ _ _ _
  | .kop _ _ _ _ | .knot _ _ | .kset _ _ | .kpopc _ _ | .kfirst _ _ | .save _ | .restore _ | .setwm _ _ _ => true
  | _ => false

/-- A stored vector memory instruction. -/
def VAct.isStore : VAct → Bool
  | .store _ _ _ | .planeStore _ _ _ | .save _ | .setwm _ _ _ => true
  | _ => false
/-- An instruction that accesses memory. -/
def VAct.isMem (a : VAct) : Bool := a.pipe == .ls || (match a with | .setwm _ _ _ => true | _ => false)
/-- Exposed to a shootdown between its probe and its accesses (R178). -/
def VAct.isExposed : VAct → Bool
  | .load _ _ _ | .store _ _ _ => true
  | _ => false

/-- The slide network is used (R104). -/
def VAct.slides : VAct → Bool
  | .widen _ _ _ _ | .narrow _ _ _ _ _ => true
  | .fcvt _ _ t t2 => elemBits t != elemBits t2
  | _ => false

/-- The latency of R111 (R199 for SETWM). -/
def VAct.latency : VAct → Nat
  | .load _ _ _ | .loadFF _ _ _ | .planeLoad _ _ _ | .restore _ | .fp .div _ _ _ _ | .fp .sqrt _ _ _ _ => 12
  | .store _ _ _ | .planeStore _ _ _ | .save _ | .setwm _ _ _ | .red _ _ _ _ _ | .fred _ _ _ _ _ _
  | .scan _ _ _ _ _ _ => 1
  | .planeDot _ _ _ _ _ _ => 6
  | .int .mul _ _ _ _ | .int .mulh _ _ _ _ | .madd _ _ _ _ _ | .fp .mul _ _ _ _ | .fma _ _ _ _ _ _ => 4
  | .sf _ _ _ _ | .dequant _ _ _ _ | .moveX _ _ _ => 8
  | .slideUp _ _ _ _ | .slideDn _ _ _ _ | .gather _ _ _ _ _ | .compress _ _ _ | .expand _ _ _ | .moveS _ _ _ _
  | .iota _ _ | .quant _ _ _ _ _ | .toPlanes _ _ _ _ | .toPacked _ _ _ _ => 4
  | _ => 2

/-- The element types among an instruction's operands: T, and T2 where it types elements. -/
def VAct.elemTypes : VAct → List Ty
  | .load _ t _ | .loadFF _ t _ | .store _ t _ | .planeDot _ _ _ t _ _ | .toPlanes _ _ t _ | .toPacked _ _ t _
  | .int _ _ _ _ t | .madd _ _ _ _ t | .cmp _ _ _ t _ | .fp _ _ _ _ t | .fma _ _ _ _ t _ | .fcmp _ _ _ t _
  | .sf _ _ t _ | .red _ _ _ t _ | .slideUp _ _ _ t | .slideDn _ _ _ t | .gather _ _ _ t _ | .compress _ _ t
  | .expand _ _ t | .merge _ _ _ t | .bcast _ _ t | .moveX _ _ t | .moveS _ _ _ t | .move _ _ t | .iota _ t
  | .fred _ _ _ t _ _ => [t]
  | .widen _ _ t t2 | .narrow _ _ t t2 _ | .fcvt _ _ t t2 | .quant _ _ _ t t2 | .dequant _ _ t t2
  | .scan _ _ _ t t2 _ => [t, t2]
  | _ => []

/-- The index width of a gather or an indexed access (R319), else 0. -/
def VAct.indexBits : VAct → Nat
  | .load _ _ (.indexed _ _ iw) | .store _ _ (.indexed _ _ iw) | .gather _ _ _ _ iw => 8 * 2 ^ iw.code
  | _ => 0

/-- The widest element for the beats of R111; 4-bit elements count as 4 bits (R104). -/
def VAct.timeWidth (a : VAct) : Nat := (a.elemTypes.map elemBits).foldl max (max 1 a.indexBits)
/-- The widest element for the 0x68 check; 4-bit and 6-bit elements count as 8 bits, and the accumulator of a
reduction counts (R102, R399). -/
def VAct.declWidth (a : VAct) : Nat :=
  let acc := match a with
    | .fred _ _ _ _ t2 _ => t2.bits
    | _ => 0
  (a.elemTypes.map declBits).foldl max (max acc a.indexBits)

/-- The v registers an instruction reads, the implicit v31 among them (R106, R112). -/
def VAct.readsV : VAct → List Nat
  | .load _ _ ad | .loadFF _ _ ad => ad.regs
  | .store s _ ad => s.toNat :: ad.regs
  | .planeStore s _ wd => regRun s wd
  | .planeDot d a b _ wa wb => d.toNat :: regRun a wa ++ regRun b wb
  | .toPlanes _ a _ _ => [a.toNat]
  | .toPacked _ a _ wd => regRun a wd
  | .int _ _ a b _ | .cmp _ a b _ _ | .fcmp _ a b _ _ | .merge _ a b _ => a.toNat :: b.regs
  | .fp fn _ a b _ => if fn = .sqrt then [a.toNat] else a.toNat :: b.regs
  | .madd _ a b c _ | .fma _ a b c _ _ => [a.toNat, b.toNat, c.toNat]
  | .widen _ a _ _ | .narrow _ a _ _ _ | .fcvt _ a _ _ | .sf _ a _ _ | .red _ _ a _ _ | .fred _ _ a _ _ _
  | .scan _ a _ _ _ _ | .slideUp _ a _ _ | .slideDn _ a _ _ | .compress _ a _ | .expand _ a _ | .moveS _ a _ _
  | .move _ a _ | .quant _ a _ _ _ => [a.toNat]
  | .gather _ a b _ _ => [a.toNat, b.toNat]
  | .dequant _ a _ _ => [a.toNat, 31]
  | _ => []

/-- The v registers an instruction writes. -/
def VAct.writesV : VAct → List Nat
  | .load d _ _ | .loadFF d _ _ | .toPacked d _ _ _ | .planeDot d _ _ _ _ _ | .int _ d _ _ _ | .madd d _ _ _ _
  | .widen d _ _ _ | .narrow d _ _ _ _ | .fp _ d _ _ _ | .fma d _ _ _ _ _ | .fcvt d _ _ _ | .sf d _ _ _
  | .scan d _ _ _ _ _ | .slideUp d _ _ _ | .slideDn d _ _ _ | .gather d _ _ _ _ | .compress d _ _ | .expand d _ _
  | .merge d _ _ _ | .bcast d _ _ | .moveX d _ _ | .move d _ _ | .iota d _ | .dequant d _ _ _ => [d.toNat]
  | .planeLoad d _ wd | .toPlanes d _ _ wd => regRun d wd
  | .quant d _ c _ _ => [d.toNat, c.toNat]
  | _ => []

/-- The k register an instruction writes; k0 is discarded. -/
def VAct.writesK : VAct → List Nat
  | .cmp d _ _ _ _ | .fcmp d _ _ _ _ | .kop _ d _ _ | .knot d _ | .kset d _ => if d = 0 then [] else [d.toNat]
  | _ => []

/-- A floating-point instruction for the 0x60 check (R399 step 3). -/
def VAct.isFp : VAct → Bool
  | .fp _ _ _ _ _ | .fma _ _ _ _ _ _ | .fcmp _ _ _ _ _ | .fcvt _ _ _ _ | .sf _ _ _ _ | .quant _ _ _ _ _
  | .dequant _ _ _ _ | .fred _ _ _ _ _ _ => true
  | .scan _ _ _ t _ _ => t.isAnyFp
  | _ => false
/-- An instruction that rounds under RM (R399 step 5). -/
def VAct.rounds : VAct → Bool
  | .fp fn _ _ _ _ => fn != .min && fn != .max
  | .fma _ _ _ _ _ _ | .fcvt _ _ _ _ | .sf _ _ _ _ | .quant _ _ _ _ _ | .dequant _ _ _ _ => true
  | .fred fn _ _ _ _ _ => fn == .sum
  | .scan _ _ _ t _ _ => t.isAnyFp
  | _ => false
/-- An instruction that rounds stochastically under RM 0b101 (R75, R416, R425). -/
def VAct.draws : VAct → Bool
  | .fcvt _ _ _ t2 => t2.isAnyFp
  | .quant _ _ _ _ _ => true
  | _ => false
/-- The scalar destination of an instruction (R401, R362). -/
def VAct.scalarDest : VAct → Option (Bool × Reg)
  | .red _ d _ _ _ | .kpopc d _ | .kfirst d _ => some (false, d)
  | .fred _ d _ _ _ _ => some (true, d)
  | .scan _ _ c t _ _ => some (t.isAnyFp, c)
  | .moveS d _ _ t => some (t.isAnyFp, d)
  | _ => none

/-! ### The structural rules of a convoy (R112, R295) -/

/-- A member as its words give it: the leading word, the convoy bit, the mask, and what it does where it decodes. -/
structure Member where
  word : Nat
  cv : Bool
  km : BitVec 3
  act : Option VAct
  cause : Byte := 0
  deriving DecidableEq, Repr

/-- What the check of R112 carries from member to member. -/
structure Shape where
  ls : Nat := 0
  alu : Nat := 0
  mf : Nat := 0
  px : Nat := 0
  slides : Nat := 0
  cross : Bool := false
  first : Bool := false
  writesV : List Nat := []
  writesK : List Nat := []

/-- Count a member's pipe. -/
def Shape.addPipe (p : Pipe) (z : Shape) : Shape :=
  match p with
  | .ls => { z with ls := z.ls + 1 }
  | .alu => { z with alu := z.alu + 1 }
  | .mf => { z with mf := z.mf + 1 }
  | .px => { z with px := z.px + 1 }
  | .none => z

/-- Rules 3 to 7 at the arrival of member i: `none` where one is broken. -/
def Shape.step (z : Shape) (i : Nat) (m : Member) : Option Shape :=
  match m.act with
  | none => if z.first && i != 0 then none else some z
  | some a =>
    let y := z.addPipe a.pipe
    let slides := z.slides + (if a.slides then 1 else 0)
    let reads := a.isCross && (a.readsV.any (· ∈ z.writesV) || m.km.toNat ∈ z.writesK)
    let isLs := a.pipe == .ls
    let ff := match a with
      | .loadFF _ _ _ => true
      | _ => false
    if 1 < y.ls || 2 < y.alu || 1 < y.mf || 1 < y.px || 1 < slides || reads
        || (a.isCross && 0 < z.ls) || (isLs && z.cross) || ((ff || z.first) && i != 0) then none
    else some { y with slides := slides, cross := z.cross || a.isCross, first := z.first || ff
                       writesV := z.writesV ++ a.writesV, writesK := z.writesK ++ a.writesK }

/-- The first member at whose arrival a rule from 3 to 7 is broken. -/
def brokenAt (z : Shape) (i : Nat) : List Member → Option Nat
  | [] => none
  | m :: ms => match z.step i m with
    | none => some m.word
    | some y => brokenAt y (i + 1) ms

/-! ### Beats and timing (R104, R111, R113, R152, R406) -/

/-- The ceiling of a quotient. -/
def ceilDiv (a b : Nat) : Nat := if b = 0 then 0 else (a + b - 1) / b

/-- P: chunks per lane in one register (R111). -/
def chunksPerLane (regs : BitVec 2) : Nat := 512 / regCount regs

/-- The beats of a member. -/
def VMember.beats (m : VMember) : Nat :=
  let p := chunksPerLane m.cap.regs
  let b := max 1 (ceilDiv (m.cap.vl * m.act.timeWidth) (64 * m.cap.lanes))
  match m.act with
  | .planeLoad _ _ wd | .planeStore _ _ wd | .toPlanes _ _ _ wd | .toPacked _ _ _ wd => wd * p
  | .planeDot _ _ _ _ wa wb => wa * wb * p
  | .fp .div _ _ _ _ | .fp .sqrt _ _ _ _ => 4 * b
  | .save _ | .restore _ => ceilDiv (vectorImageSize m.cap.lanes) (8 * m.cap.lanes)
  | .setwm _ _ _ => 1
  | _ => b

/-- X: the cycles of the slide network (R104). -/
def VMember.slideTime (m : VMember) : Nat :=
  if m.act.slides then
    let wd := match m.act with
      | .widen _ _ _ t2 | .narrow _ _ _ t2 _ | .fcvt _ _ _ t2 => elemBits t2
      | _ => 0
    4 + 2 * ceilDiv (ceilDiv (m.cap.vl * wd) 64) m.cap.lanes
  else 0

/-- A member whose chunks a consumer can take one latency after they are produced (R113). A VLDX whose index is wider than its
element takes more beats than its destination has chunks; R113 does not say whether it then has one beat per chunk, and
it chains here (DESIGN CHOICE, log 123). -/
def VMember.chains (m : VMember) : Bool :=
  !m.act.isCross && !m.act.slides && (match m.act with
    | .fp .div _ _ _ _ | .fp .sqrt _ _ _ _ => false
    | _ => true)

/-- What the timing of a convoy carries: for each member done its start, latency, drain, and by how much the bank
costs delay its last beat. -/
structure Timed where
  start : Nat
  lat : Nat
  drain : Nat
  late : Nat
  member : VMember

/-- An earlier member writes what a later one reads. -/
def feeds (p m : VMember) : Bool :=
  m.act.readsV.any (· ∈ p.act.writesV) || m.km.toNat ∈ p.act.writesK

/-- The v registers a memory member takes its addresses from. -/
def VAct.addrRegs : VAct → List Nat
  | .load _ _ ad | .loadFF _ _ ad | .store _ _ ad => ad.regs
  | _ => []

/-- An earlier member writes the addresses or the mask of a memory member (R113). -/
def feedsProbe (p m : VMember) : Bool :=
  m.act.isMem && (m.act.addrRegs.any (· ∈ p.act.writesV) || m.km.toNat ∈ p.act.writesK)

/-- The start of a member (R113); the probe on produced values takes no cycle of its own (log 9). -/
def startOf (t0 : Nat) (done : List Timed) (m : VMember) : Nat :=
  done.foldl (fun s p =>
    if !feeds p.member m then s
    else if feedsProbe p.member m || !p.member.chains then max s (p.drain + 1)
    else max s (p.start + p.lat)) t0

/-- Time the members of a convoy that issues at t0; `lat` and `extra` are the latency and the bank delay of its
memory member. -/
def timeMembers (t0 lat extra : Nat) : List Timed → List VMember → List Timed
  | done, [] => done
  | done, m :: ms =>
    let st := startOf t0 done m
    let l := if m.act.isMem then lat else m.act.latency
    let chained := done.filter fun p => feeds p.member m && !feedsProbe p.member m && p.member.chains
    let x := (if m.act.isMem then extra else 0) + chained.foldl (fun x p => max x p.late) 0
    timeMembers t0 lat extra
      (done ++ [⟨st, l, st + m.beats - 1 + l + x + m.slideTime, x, m⟩]) ms

end Sys2Proof.Machine
end

