-- ==== Sys2Proof/Machine/VExec.lean ====
section
/-!
DEFINITION. What each vector instruction that accesses no memory computes (spec/05_vectors.md R105 to R109;
spec/17 R363; spec/19 R407 to R426; spec/03_numbers.md R70, R72, R83; spec/04_numeric_versions.md R92 to R96).
-/
namespace Sys2Proof.Machine

/-- What the members of a convoy have computed so far: the registers, the flags, and a scalar result. -/
structure VEnv where
  h : Hart
  fl : BitVec 6 := 0
  dest : Option Word := none

/-- Element i of a register. -/
def VEnv.elem (e : VEnv) (r : Reg) (t : Ty) (i : Nat) : Nat := vElem (getV e.h r) (elemBits t) i
/-- Element i of a second operand (R291, R411, R414). -/
def VEnv.arg (e : VEnv) (b : VArg) (t : Ty) (i : Nat) : Nat :=
  match b with
  | .vreg r => e.elem r t i
  | .scalar v => v.toNat % 2 ^ elemBits t
  | .imm v => immElem t v
/-- Bit i of the selected mask. -/
def VEnv.masked (e : VEnv) (km : BitVec 3) (i : Nat) : Bool := maskBit (getK e.h km) i

/-- The elements from lo to n − 1 that a test selects (R105). -/
def activeIn (lo n : Nat) (sel : Nat → Bool) : List Nat := (List.range n).filter fun i => decide (lo ≤ i) && sel i

/-- Write the elements from lo to n − 1 that a test selects; flags merge. Every source is read from the registers as they
stood (R328). Where none is selected nothing is written, and VS stays (R55). -/
def VEnv.writeElems (e : VEnv) (d : Reg) (w lo n : Nat) (sel : Nat → Bool) (f : Nat → FRes) : VEnv :=
  match activeIn lo n sel with
  | [] => e
  | l =>
    let r := l.foldl (fun acc i => let x := f i; (setVElem acc.1 w i x.enc, acc.2 ||| x.fl)) (getV e.h d, e.fl)
    { e with h := setV e.h d r.1, fl := r.2 }

/-- Write the mask bits from lo to n − 1 that a test selects. -/
def VEnv.writeMask (e : VEnv) (d : BitVec 3) (lo n : Nat) (sel : Nat → Bool) (f : Nat → Bool × BitVec 6) : VEnv :=
  match activeIn lo n sel with
  | [] => e
  | l =>
    let r := l.foldl (fun acc i => let x := f i; (putBits acc.1 i 1 (if x.1 then 1 else 0), acc.2 ||| x.2)) (getK e.h d, e.fl)
    { e with h := setK e.h d r.1, fl := r.2 }

/-! ### Integer elements (R411 to R413) -/

/-- A result clamped to the range of a type, with SAT (R71). -/
def clampInt (t : Ty) (i : Int) : FRes :=
  if i < intMin t then ⟨wrapInt t.bits (intMin t), fSAT⟩
  else if intMax t < i then ⟨wrapInt t.bits (intMax t), fSAT⟩
  else ⟨wrapInt t.bits i, 0⟩

/-- An integer element operation (R411) on encodings. -/
def intElem (fn : IntFn) (t : Ty) (a b : Nat) : FRes :=
  let w := t.bits
  let x := intOf t a
  let y := intOf t b
  let sh := b % w
  match fn with
  | .add => ⟨wrapInt w (x + y), 0⟩
  | .sub => ⟨wrapInt w (x - y), 0⟩
  | .mul => ⟨wrapInt w (x * y), 0⟩
  | .mulh => ⟨wrapInt w (x * y / (2 : Int) ^ w), 0⟩
  | .min => ⟨if y < x then b else a, 0⟩
  | .max => ⟨if x < y then b else a, 0⟩
  | .and => ⟨a &&& b, 0⟩
  | .or => ⟨a ||| b, 0⟩
  | .xor => ⟨a ^^^ b, 0⟩
  | .shl => ⟨a * 2 ^ sh % 2 ^ w, 0⟩
  | .shr => ⟨a / 2 ^ sh, 0⟩
  | .sar =>
    let s : Int := if 2 ^ (w - 1) ≤ a then (a : Int) - 2 ^ w else a
    ⟨wrapInt w (s / (2 : Int) ^ sh), 0⟩
  | .adds => clampInt t (x + y)
  | .subs => clampInt t (x - y)
  | .absd => ⟨(x - y).natAbs, 0⟩

/-- VCMP (R413). -/
def intCmp (c : VCond) (t : Ty) (a b : Nat) : Bool :=
  let x := intOf t a
  let y := intOf t b
  match c with
  | .eq => x == y
  | .ne => x != y
  | .lt => decide (x < y)
  | .ge => decide (y ≤ x)

/-! ### Floating-point elements (R414 to R417) -/

/-- A floating-point element operation (R414). -/
def fpElem (fn : FpFn) (f : Fmt) (rm : BitVec 3) (a b : Nat) : FRes :=
  match fn with
  | .add => fpAdd f rm a b
  | .sub => fpSub f rm a b
  | .mul => fpMul f rm a b
  | .div => fpDiv f rm a b
  | .sqrt => fpSqrt f rm a
  | .min => fpMinMax f false a b
  | .max => fpMinMax f true a b

/-- The draw of an element of a stochastic conversion (R75, R76). -/
def drawOf (cap : Captured) (i : Nat) : Option Nat := if cap.rm = 5 then some (srHash cap.seed i) else none

/-! ### Block quantisation (R70, R83, R425, R426) -/

/-- emax of an element format (R83). -/
def emaxOf (t : Ty) : Int :=
  match t with
  | .mx8e4 => 8
  | .mx8e5 => 15
  | .mx6b => 4
  | _ => 2

/-- A finite value times 2^q; a special value stays. -/
def scaleV (v : FVal) (q : Int) : FVal :=
  match v with
  | .fin n m e => .fin n m (e + q)
  | v => v

/-- A value saturates to the largest magnitude of its element format (R83 step 5): above it, SAT, OF and NX. -/
def quantElem (f : Fmt) (rm : BitVec 3) (draw : Option Nat) (v : FVal) : FRes := roundF f rm draw true v

/-- R83 for one group: the scale byte, and the codes of its 32 elements. `present` says which elements count. -/
def quantGroup (t2 : Ty) (cap : Captured) (base : Nat) (vs : List (Bool × FVal)) : Nat × List FRes :=
  let counted := vs.map fun p => if p.1 then p.2 else .fin false 0 0
  if counted.any (fun v => match v with | .fin _ _ _ => false | _ => true) then
    (0xFF, List.replicate 32 ⟨0, flagIf (counted.any FVal.isSnan) fNV⟩)
  else
    let tops := counted.filterMap fun v => match v with
      | .fin _ m e => if m = 0 then none else some (topExp m e)
      | _ => none
    match tops with
    | [] => (0x7F, List.replicate 32 ⟨0, 0⟩)
    | x :: xs =>
      let q := max (xs.foldl max x - emaxOf t2) (-127)
      ((q + 127).toNat, vs.mapIdx fun j p =>
        if p.1 then quantElem (fmtOf t2) cap.rm (drawOf cap (base + j)) (scaleV p.2 (-q)) else ⟨0, 0⟩)

/-- VBQ (R425). -/
def runQuant (e : VEnv) (m : VMember) (d a c : Reg) (t t2 : Ty) : VEnv :=
  let w := elemBits t2
  let r := (List.range (ceilDiv m.cap.vl 32)).foldl (fun (acc : BitVec 65536 × BitVec 65536 × BitVec 6) g =>
    let vs := (List.range 32).map fun j =>
      let i := 32 * g + j
      (decide (i < m.cap.vl) && e.masked m.km i, valueF (fmtOf t) (e.elem a t i))
    let q := quantGroup t2 m.cap (32 * g) vs
    let codes := q.2.foldr (fun x n => x.enc % 2 ^ w + 2 ^ w * n) 0
    (putBits acc.1 (w * 32 * g) (32 * w) codes, setVElem acc.2.1 8 g q.1, q.2.foldl (fun f x => f ||| x.fl) acc.2.2))
    (getV e.h d, getV e.h c, e.fl)
  if m.cap.vl = 0 then e else { e with h := setV (setV e.h d r.1) c r.2.1, fl := r.2.2 }

/-- An element of a block-scaled operand as a value: its own value times the scale of its block (R70, R106). -/
def mxValue (t : Ty) (scale enc : Nat) : FVal :=
  if scale = 255 then .nan false else scaleV (valueF (fmtOf t) enc) ((scale : Int) - 127)

/-! ### Bit planes (R72, R409, R410) -/

/-- The integer of element i in the planes from a register on (R72). -/
def planeVal (e : VEnv) (r : Reg) (wd : Nat) (signed : Bool) (i : Nat) : Int :=
  let u := (List.range wd).foldl (fun n j =>
    n + (if (getV e.h (r + BitVec.ofNat 5 j)).toNat.testBit i then 2 ^ j else 0)) 0
  if signed && 2 ^ (wd - 1) ≤ u then (u : Int) - 2 ^ wd else u

/-- VBPDOT (R409). -/
def runPlaneDot (e : VEnv) (m : VMember) (d a b : Reg) (t : Ty) (wa wb : Nat) : VEnv :=
  let w := t.bits
  e.writeElems d w 0 (rlen m.cap.lanes m.cap.regs / 64) (fun _ => true) fun s =>
    let sum := (List.range 64).foldl (fun acc j =>
      acc + planeVal e a wa t.isSigned (64 * s + j) * planeVal e b wb t.isSigned (64 * s + j)) (0 : Int)
    ⟨wrapInt w (vElem (getV e.h d) w s + sum), 0⟩

/-- VBPCVT toward planes (R410). -/
def runToPlanes (e : VEnv) (m : VMember) (d a : Reg) (t : Ty) (wd : Nat) : VEnv :=
  (List.range wd).foldl (fun acc j =>
    acc.writeElems (d + BitVec.ofNat 5 j) 1 0 m.cap.vl (fun _ => true) fun i =>
      ⟨(intOf t (e.elem a t i) / (2 : Int) ^ j % 2).toNat, 0⟩) e

/-! ### Reductions and scans (R418 to R421) -/

/-- An integer reduction step. -/
def redStep (fn : RedFn) (t : Ty) (a x : Int) : Int :=
  match fn with
  | .sum => intOf t (wrapInt t.bits (a + x))
  | .min => min a x
  | .max => max a x

/-- VREDSUM, VREDMIN and VREDMAX (R420); at VL = 0 the destination keeps every bit. -/
def runRed (e : VEnv) (m : VMember) (fn : RedFn) (a : Reg) (t : Ty) (acc : Word) : VEnv :=
  if m.cap.vl = 0 then e
  else
    let r := (List.range m.cap.vl).foldl (fun r i =>
      if e.masked m.km i then redStep fn t r (intOf t (e.elem a t i)) else r) (intOf t acc.toNat)
    { e with dest := some (extX t (wrapInt t.bits r)) }

/-- VFREDSUM, VFREDMIN and VFREDMAX (R419, R420). -/
def runFred (e : VEnv) (m : VMember) (fn : RedFn) (a : Reg) (t t2 : Ty) (acc : Word) : VEnv :=
  if m.cap.vl = 0 then e
  else
    let f2 := fmtOf t2
    let el (i : Nat) : Option FVal :=
      if decide (i < m.cap.vl) && e.masked m.km i then some (valueF (fmtOf t) (e.elem a t i)) else none
    let a0 := unboxF t2 acc
    let r := match fn with
      | .sum => nbReduce m.cap.nbv f2 m.cap.rm a0 m.cap.vl el
      | .min => selectV false f2 (valueF f2 a0 :: (List.range m.cap.vl).filterMap el)
      | .max => selectV true f2 (valueF f2 a0 :: (List.range m.cap.vl).filterMap el)
    { e with dest := some (boxF t2 r.enc), fl := e.fl ||| r.fl }

/-- VSCAN (R421). A mask that selects nothing leaves the register, and VS, as they are (R55). -/
def runScan (e : VEnv) (m : VMember) (d a : Reg) (t t2 : Ty) (acc : Word) : VEnv :=
  if m.cap.vl = 0 then e
  else if t.isAnyFp then
    let f2 := fmtOf t2
    let el (i : Nat) : Option FVal :=
      if decide (i < m.cap.vl) && e.masked m.km i then some (valueF (fmtOf t) (e.elem a t i)) else none
    let r := nbScan m.cap.nbv f2 m.cap.rm (unboxF t2 acc) m.cap.vl el
    let v := r.1.foldl (fun v p => setVElem v (elemBits t2) p.1 p.2) (getV e.h d)
    { h := if r.1.isEmpty then e.h else setV e.h d v, dest := some (boxF t2 r.2.enc), fl := e.fl ||| r.2.fl }
  else
    let l := activeIn 0 m.cap.vl (e.masked m.km)
    let r := l.foldl (fun (st : BitVec 65536 × Int) i =>
      let x := redStep .sum t st.2 (intOf t (e.elem a t i))
      (setVElem st.1 t.bits i (wrapInt t.bits x), x)) (getV e.h d, intOf t acc.toNat)
    { e with h := if l.isEmpty then e.h else setV e.h d r.1, dest := some (extX t (wrapInt t.bits r.2)) }

/-! ### Permutes (R422 to R424) -/

/-- The indices below n that a mask selects. -/
def selected (e : VEnv) (km : BitVec 3) (n : Nat) : List Nat := (List.range n).filter (e.masked km)

/-- VCOMPRESS (R424). -/
def runCompress (e : VEnv) (m : VMember) (d a : Reg) (t : Ty) : VEnv :=
  let ps := selected e m.km m.cap.vl
  e.writeElems d (elemBits t) 0 ps.length (fun _ => true) fun i => ⟨e.elem a t (ps.getD i 0), 0⟩

/-- Number the selected indices from 0. -/
def countBelow (ps : List Nat) (i : Nat) : Nat := (ps.filter (· < i)).length

/-! ### Masks (R363) -/

/-- A mask instruction's bits below n. -/
def runMaskOp (e : VEnv) (n : Nat) (d : BitVec 3) (f : Nat → Bool) : VEnv :=
  e.writeMask d 0 n (fun _ => true) fun i => (f i, 0)

/-- One operation of KAND, KOR or KXOR. -/
def kElem (fn : KFn) (a b : Bool) : Bool :=
  match fn with
  | .and => a && b
  | .or => a || b
  | .xor => a != b

/-! ### Every instruction that accesses no memory -/

/-- Perform a member on the elements from `lo` to below `hi` where it is element-wise, whole where it is
cross-element. A memory instruction changes nothing here. -/
def runAct (e : VEnv) (m : VMember) (lo hi : Nat) : VEnv :=
  let n := min m.cap.vl hi
  let vl := m.cap.vl
  let sel := e.masked m.km
  let rm := m.cap.rm
  match m.act with
  | .int fn d a b t => e.writeElems d t.bits lo n sel fun i => intElem fn t (e.elem a t i) (e.arg b t i)
  | .madd d a b c t => e.writeElems d t.bits lo n sel fun i =>
      ⟨wrapInt t.bits (intOf t (e.elem a t i) * intOf t (e.elem b t i) + intOf t (e.elem c t i)), 0⟩
  | .widen d a t t2 => e.writeElems d t2.bits lo n sel fun i => ⟨wrapInt t2.bits (intOf t (e.elem a t i)), 0⟩
  | .narrow d a t t2 sat => e.writeElems d t2.bits lo n sel fun i =>
      if sat then clampInt t2 (intOf t (e.elem a t i)) else ⟨e.elem a t i % 2 ^ t2.bits, 0⟩
  | .cmp d a b t c => e.writeMask d lo n sel fun i => (intCmp c t (e.elem a t i) (e.arg b t i), 0)
  | .fp fn d a b t => e.writeElems d t.bits lo n sel fun i => fpElem fn (fmtOf t) rm (e.elem a t i) (e.arg b t i)
  | .fma d a b c t form => e.writeElems d t.bits lo n sel fun i =>
      fpFma (fmtOf t) rm form (e.elem a t i) (e.elem b t i) (e.elem c t i)
  | .fcmp d a b t c => e.writeMask d lo n sel fun i => fpCmp (fmtOf t) c (e.elem a t i) (e.arg b t i)
  | .fcvt d a t t2 => e.writeElems d (elemBits t2) lo n sel fun i =>
      convert t2 t rm (if t2.isAnyFp then drawOf m.cap i else none) (e.elem a t i)
  | .sf d a t fn => e.writeElems d t.bits lo n sel fun i => special fn (fmtOf t) rm (e.elem a t i)
  | .dequant d a t t2 => e.writeElems d t2.bits lo n sel fun i =>
      roundF (fmtOf t2) rm none false (mxValue t (vElem (getV e.h 31) 8 (i / 32)) (e.elem a t i))
  | .merge d a b t => e.writeElems d (elemBits t) lo n (fun _ => true) fun i =>
      ⟨if sel i then e.elem a t i else e.arg b t i, 0⟩
  | .bcast d v t => e.writeElems d (elemBits t) lo n sel fun i => ⟨e.arg v t i, 0⟩
  | .moveX d v t => e.writeElems d (elemBits t) lo (min n 1) sel fun _ => ⟨v.toNat % 2 ^ elemBits t, 0⟩
  | .move d a t => e.writeElems d (elemBits t) lo n sel fun i => ⟨e.elem a t i, 0⟩
  | .quant d a c t t2 => runQuant e m d a c t t2
  | .planeDot d a b t wa wb => runPlaneDot e m d a b t wa wb
  | .toPlanes d a t wd => runToPlanes e m d a t wd
  | .toPacked d a t wd => e.writeElems d t.bits 0 vl (fun _ => true) fun i =>
      ⟨wrapInt t.bits (planeVal e a wd t.isSigned i), 0⟩
  | .red fn _ a t acc => runRed e m fn a t acc
  | .fred fn _ a t t2 acc => runFred e m fn a t t2 acc
  | .scan d a _ t t2 acc => runScan e m d a t t2 acc
  | .slideUp d a amount t => e.writeElems d (elemBits t) 0 vl (fun i => sel i && amount.toNat ≤ i) fun i =>
      ⟨e.elem a t (i - amount.toNat), 0⟩
  | .slideDn d a amount t => e.writeElems d (elemBits t) 0 vl sel fun i =>
      ⟨if i + amount.toNat < vl then e.elem a t (i + amount.toNat) else 0, 0⟩
  | .gather d a b t iw => e.writeElems d (elemBits t) 0 vl sel fun i =>
      let j := vElem (getV e.h b) (8 * 2 ^ iw.code) i
      ⟨if j < vl then e.elem a t j else 0, 0⟩
  | .compress d a t => runCompress e m d a t
  | .expand d a t => e.writeElems d (elemBits t) 0 vl sel fun i =>
      ⟨e.elem a t (countBelow (selected e m.km vl) i), 0⟩
  | .moveS _ a index t =>
      let j := index.toNat
      let v := if decide (j < vl) && sel j then e.elem a t j else 0
      { e with dest := some (if t.isAnyFp then boxF t v else extX t v) }
  | .iota d t => e.writeElems d (elemBits t) 0 vl sel fun i =>
      ⟨countBelow (selected e m.km vl) i % 2 ^ elemBits t, 0⟩
  | .kop fn d a b => runMaskOp e vl d fun i => kElem fn (maskBit (getK e.h a) i) (maskBit (getK e.h b) i)
  | .knot d a => runMaskOp e vl d fun i => !maskBit (getK e.h a) i
  | .kset d x => runMaskOp e vl d fun i => decide (i < x.toNat)
  | .kpopc _ a => { e with dest := some (w64 (selected e a vl).length) }
  | .kfirst _ a => { e with dest := some (w64 ((selected e a vl).headD vl)) }
  | .load _ _ _ | .loadFF _ _ _ | .store _ _ _ | .planeLoad _ _ _ | .planeStore _ _ _ | .save _ | .restore _
  | .setwm _ _ _ => e

/-- Perform members in order. -/
def runActs (lo hi : Nat) (ms : List VMember) (e : VEnv) : VEnv := ms.foldl (fun e m => runAct e m lo hi) e

end Sys2Proof.Machine
end

