-- ==== Sys2Proof/Machine/VMem.lean ====
section
/-!
DEFINITION. The memory side of vector instructions: their accesses, the run-ahead probe with its pinned translations,
and how a convoy is performed (spec/08_translation.md R176 to R181; spec/05 R108, R114, R119; spec/19 R403 to R408;
spec/07 R152; spec/10 R215 to R217, R222; spec/12 R259, R262).
-/
namespace Sys2Proof.Machine

/-! ### The accesses of an instruction -/

/-- One access: the element's index, its address and its bytes. -/
structure VAccess where
  idx : Nat
  va : Word
  len : Nat
  deriving DecidableEq, Repr

/-- The address and bytes of element i (R403). -/
def elemAccess (e : VEnv) (t : Ty) (ad : VAddr) (i : Nat) : VAccess :=
  let eb := elemBits t / 8
  match ad with
  | .unit base => if elemBits t = 4 then ⟨i, base + w64 (i / 2), 1⟩ else ⟨i, base + w64 (i * eb), eb⟩
  | .strided base stride => ⟨i, base + w64 i * stride, eb⟩
  | .indexed base r iw => ⟨i, base + w64 (vElem (getV e.h r) (8 * 2 ^ iw.code) i), eb⟩

/-- Consecutive doublewords from an address on. -/
def wordAccesses (base : Word) (n : Nat) : List VAccess := (List.range n).map fun k => ⟨k, base + w64 (8 * k), 8⟩

/-- The accesses of a memory member on the elements from lo to below hi. -/
def accessesOf (e : VEnv) (m : VMember) (lo hi : Nat) : List VAccess :=
  let act (t : Ty) (ad : VAddr) : List VAccess :=
    ((List.range (min m.cap.vl hi)).filter fun i => decide (lo ≤ i) && e.masked m.km i).map (elemAccess e t ad)
  match m.act with
  | .load _ t ad | .loadFF _ t ad | .store _ t ad => act t ad
  | .planeLoad _ base wd => [⟨0, base, wd * rlen m.cap.lanes m.cap.regs / 8⟩]
  | .planeStore _ base wd => wordAccesses base (wd * rlen m.cap.lanes m.cap.regs / 64)
  | .save base => wordAccesses base (vectorImageSize m.cap.lanes / 8)
  | .restore base => [⟨0, base, vectorImageSize m.cap.lanes⟩]
  | .setwm addr _ _ => [⟨0, addr, 8⟩]
  | _ => []

/-- What the probe checks: the accesses, or the whole of a contiguous image (R177). -/
def probesOf (e : VEnv) (m : VMember) (lo : Nat) : List VAccess :=
  match m.act with
  | .planeStore _ base wd => [⟨0, base, wd * rlen m.cap.lanes m.cap.regs / 8⟩]
  | .save base => [⟨0, base, vectorImageSize m.cap.lanes⟩]
  | _ => accessesOf e m lo m.cap.vl

/-- The bytes a store writes for an access, as a number; `old` is the byte a 4-bit element shares (R404). -/
def storeValue (e : VEnv) (m : VMember) (image old idx : Nat) : Nat :=
  match m.act with
  | .store s t _ =>
    let x := e.elem s t idx
    if elemBits t = 4 then (if idx % 2 = 0 then old / 16 * 16 + x else old % 16 + 16 * x) else x
  | .planeStore s _ _ =>
    let n := rlen m.cap.lanes m.cap.regs / 64
    vElem (getV e.h (s + BitVec.ofNat 5 (idx / n))) 64 (idx % n)
  | .save _ => image / 2 ^ (64 * idx) % 2 ^ 64
  | .setwm _ v _ => v.toNat
  | _ => 0

/-- The image that VSAVE writes, as a number; 0 for another instruction. -/
def imageOf (e : VEnv) (m : VMember) : Nat :=
  match m.act with
  | .save _ => natOfBytes (vectorImage { e.h with lanes := BitVec.ofNat 5 m.cap.lanes, regs := m.cap.regs })
  | _ => 0

/-- A load writes the registers with the bytes read (R404, R408, R119). -/
def loadInto (e : VEnv) (m : VMember) (got : List (Nat × List Byte)) : VEnv :=
  match m.act with
  | .load d t _ | .loadFF d t _ =>
    if got.isEmpty then e else
    let w := elemBits t
    let r := got.foldl (fun r p =>
      let n := natOfBytes p.2
      setVElem r w p.1 (if w = 4 then (if p.1 % 2 = 0 then n % 16 else n / 16) else n)) (getV e.h d)
    { e with h := setV e.h d r }
  | .planeLoad d _ wd =>
    let n := rlen m.cap.lanes m.cap.regs
    let all := natOfBytes ((got.map (·.2)).flatten)
    (List.range wd).foldl (fun e j =>
      let r := d + BitVec.ofNat 5 j
      { e with h := setV e.h r (putLow (getV e.h r) n (all / 2 ^ (n * j) % 2 ^ n)) }) e
  | .restore _ =>
    let x := loadVector ((got.map (·.2)).flatten) { e.h with lanes := BitVec.ofNat 5 m.cap.lanes, regs := m.cap.regs }
    { e with h := { e.h with v := x.v, k := x.k, vs := 2 } }
  | _ => e

/-! ### The probe (R177) -/

/-- The access of the acting hart's vector side for an instruction, in the mode and under the PTBASE it captured. -/
def vectorAccess (s : State) (cap : Captured) (store : Bool) : Access :=
  { hart := s.cur, mode := cap.mode, ptbase := cap.ptbase, side := .vector, kind := if store then .store else .load }

/-- The lane group, among those a hart holds, that has a chunk of a register (R103). -/
def laneGroupOf (groups : BitVec 4) (lanes chunk : Nat) : Nat :=
  (((List.range 4).filter fun g => groups.getLsbD g)[chunk % lanes / 4]?).getD 0

/-- The structure that serves the probe of an access: the unit-stride register of the lane group that holds the element,
or a bank of its gather TLB, by the low bits of the page (R175; the banks are the model's choice, log 10). An access of the
whole hart (VBPLD, VBPST, VSAVE, VREST and the store of SETWM), of which R175 is silent, goes through the first lane group
the hart holds (DESIGN CHOICE, log 124). -/
def vectorPort (groups : BitVec 4) (m : VMember) (x : VAccess) : TlbPort :=
  let g (t : Ty) : Nat := laneGroupOf groups m.cap.lanes (elemBits t * x.idx / 64)
  match m.act with
  | .load _ t (.unit _) | .loadFF _ t (.unit _) | .store _ t (.unit _) => .unit (g t)
  | .load _ t _ | .loadFF _ t _ | .store _ t _ => .gather (g t) (x.va.toNat / 4096 % 4)
  | .setwm a _ _ => .gather (laneGroupOf groups m.cap.lanes 0) (a.toNat / 4096 % 4)
  | _ => .unit (laneGroupOf groups m.cap.lanes 0)

/-- The accesses of the acting hart's vector side for a member. -/
def memberAccess (s : State) (m : VMember) (x : VAccess) : Access :=
  { vectorAccess s m.cap m.act.isStore with port := vectorPort (me s).groups m x }

/-- Check accesses in order; an error names the failing access. -/
def probeAll (a : VAccess → Access) : State → List VAccess → Except (State × Nat × Bad) (State × List Piece)
  | s, [] => .ok (s, [])
  | s, x :: xs =>
    match checkRun s (a x) (x.len / 4096 + 2) x.va x.len with
    | .error (s1, b) => .error (s1, x.idx, b)
    | .ok (s1, ps) =>
      match probeAll a s1 xs with
      | .error e => .error e
      | .ok (s2, qs) => .ok (s2, ps ++ qs)

/-- The probe of the acting hart fails: VSTART is 0 (R177), and the cause, the freeze or the stall is taken. -/
def badVector (side : Nat) (kind : AccKind) (b : Bad) (s : State) : State :=
  match b with
  | .trap code tval =>
    let s1 := onMe s fun h => { h with vstart := 0 }
    if code ≥ 0xC0 then uncorrectable code tval.toNat s1 else raise code tval s1
  | .violation code tval pa => freezeHart s s.cur side code tval pa
  | .migrating va => waitOn (.migration va kind (s.time + 256)) s
  | .held => waitOn .conflict s

/-- The probe of a VLDFF fails at its lowest active element: it writes nothing, VSTART neither (R108, R177). -/
def badFirst (b : Bad) (s : State) : State :=
  match b with
  | .trap code tval => if code ≥ 0xC0 then uncorrectable code tval.toNat s else raise code tval s
  | b => badVector 2 .load b s

/-- The pin of a virtual page. -/
def pinOf (pins : List Pin) (vpage : Nat) : Option Pin := pins.find? (·.vpage == vpage)

/-- The pieces of an access under pinned translations. -/
def pinPieces (pins : List Pin) : Nat → Word → Nat → List Piece
  | 0, _, _ => []
  | fuel + 1, va, n =>
    if n = 0 then []
    else
      let len := min n (4096 - va.toNat % 4096)
      let rest := pinPieces pins fuel (va + w64 len) (n - len)
      match pinOf pins (va.toNat / 4096) with
      | some q => ⟨va, q.ppage * 4096 + va.toNat % 4096, len, q.fg, q.log2, q.asid, q.global⟩ :: rest
      | none => rest

/-- The pieces of one access. -/
def accessPieces (pins : List Pin) (x : VAccess) : List Piece := pinPieces pins (x.len / 4096 + 2) x.va x.len

/-- The data triggers an instruction's accesses hit on the vector side (R278). -/
def vectorHits (s : State) (store : Bool) (xs : List VAccess) : List (Nat × Nat × Word) :=
  if (island s (islandOf s.cur)).triggers.isEmpty then []
  else xs.flatMap fun x => dataHits s s.cur 2 (!store) store x.va x.len

/-- How the probe of a memory member ends: the instruction does not go on now, or it is pinned, with what VLDFF
settles (R405). -/
inductive Probed where
  | stop (s : State)
  | pinned (s : State) (pins : List Pin) (vl : Option Nat)

/-- After the checks: the triggers, a held scratchpad, and the hold of an irrevocable access, of which any vector access
to a scratchpad is one (R222, R402; DEDUCED, log 59). -/
def admitAccess (s : State) (store : Bool) (xs : List VAccess) (ps : List Piece) (vl : Option Nat) : Probed :=
  match triggersAct 0x50 (vectorHits s store xs) s with
  | .stop s1 => .stop s1
  | .go s1 =>
    if isIrrevocable true ps then
      match irrevocable s1 with
      | .stop s2 => .stop s2
      | .go s2 => .pinned s2 (pinsOf ps) vl
    else .pinned s1 (pinsOf ps) vl

/-- An access without its first bytes. -/
def VAccess.behind (n : Nat) (x : VAccess) : VAccess := ⟨x.idx, x.va + w64 n, x.len - n⟩

/-- Probe a memory member of the acting hart on the values in `e` (R177, R108, R405). An active VLDFF element past the
first that lies outside the partition's grant shortens VL, as any other failing check does: R108 does not name it, and
nothing has been accessed there (DESIGN CHOICE, log 87). The data triggers of the first `seen` bytes have acted (R278). -/
def probe (s : State) (e : VEnv) (m : VMember) (seen : Nat := 0) : Probed :=
  let store := m.act.isStore
  let a := memberAccess s m
  let xs := probesOf e m m.cap.vstart
  match probeAll a s xs with
  | .ok (s1, ps) => admitAccess s1 store (xs.map (VAccess.behind seen)) ps none
  | .error (s2, i, b) =>
    let first := (xs.head?.map (·.idx)).getD 0
    match m.act with
    | .loadFF _ _ _ =>
      if i = first ∨ b = .held then .stop (badFirst b s2)
      else
        let ys := xs.filter fun x => decide (x.idx < i)
        match probeAll a s ys with
        | .ok (s1, ps) => admitAccess s1 store ys ps (some i)
        | .error (s3, _, b2) => .stop (badVector 2 .load b2 s3)
    | _ => .stop (badVector 2 (if store then .store else .load) b s2)

/-! ### Performing a convoy -/

/-- How performing a convoy ends. -/
inductive Performed where
  /-- It waits: for another task's writer, for its own hold, or for protected readers (R217); the store's elements
  that are left. -/
  | wait (s : State) (left : Option (List Nat))
  /-- It consumed uncorrectable data at an element (R259). -/
  | halt (s : State) (progress pa : Nat)
  /-- It is performed: what its load has read. -/
  | done (s : State) (got : List (Nat × List Byte))

/-- Split at the memory member. -/
def splitAtMem : List VMember → List VMember × Option VMember × List VMember
  | [] => ([], none, [])
  | m :: ms => if m.act.isMem then ([], some m, ms) else let r := splitAtMem ms; (m :: r.1, r.2.1, r.2.2)

/-- Read the accesses of a load under its pins. -/
def readAccesses (s : State) (pins : List Pin) (xs : List VAccess) : List (Nat × List Byte) :=
  xs.map fun x => (x.idx, readCells s (pieceBytes (accessPieces pins x)))

/-- The state after a vector or matrix load of accesses: their lines are in the L2 portion (R145). -/
def loadedLines (s : State) (pins : List Pin) (xs : List VAccess) : State :=
  touch (loadVectorLine (coreOf s.cur)) s (spansOf (xs.flatMap (accessPieces pins)))

/-- The first access that consumes uncorrectable data, with its physical address. -/
def firstPoison (s : State) (pins : List Pin) (xs : List VAccess) : Option (Nat × Nat) :=
  xs.findSome? fun x => (poisonIn s (pieceBytes (accessPieces pins x))).map fun p => (x.idx, p.1)

/-- Two accesses share a byte of memory. -/
def accessesMeet (pins : List Pin) (x y : VAccess) : Bool :=
  (pieceBytes (accessPieces pins x)).any (· ∈ pieceBytes (accessPieces pins y))

/-- The acting hart's task is held, so that nothing more of the instruction is performed now (R222). -/
def taskHeld (s : State) : Bool := (taskAt s s.cur).any fun e => e.st == .held

/-- Store the accesses in order, `value old idx` being what each writes and `merges` saying that it reads the byte it
shares. An access that waits is left over, and with it a later one that shares a byte with it, so that of two elements
on one byte the higher is written last (R191, R217); once the task is held all are. -/
def storeAccesses (value : Nat → Nat → Nat) (merges : Bool) (pins : List Pin) :
    List VAccess → State → List VAccess → State × List Nat
  | left, s, [] => (s, left.map (·.idx))
  | left, s, x :: xs =>
    let ps := accessPieces pins x
    let later (s : State) : State × List Nat :=
      if taskHeld s then (s, (left ++ x :: xs).map (·.idx)) else storeAccesses value merges pins (left ++ [x]) s xs
    let write (s1 : State) : Except State State :=
      writeVector s1 ps (bytesOfNat x.len (value (natOfBytes (readCells s1 (pieceBytes ps))) x.idx))
    if left.any (accessesMeet pins x) then later s
    else
      let r := match (if merges then trackRead s (ps.filter fun p => tracked p.pa) else .go s) with
        | .go s1 => write s1
        | .stop s1 => .error s1
      match r with
      | .ok s1 => storeAccesses value merges pins left s1 xs
      | .error s1 => later (if (taskAt s s.cur).isSome then s1 else s)

/-- A store of 4-bit elements, each of which reads the byte it shares (R404). -/
def VAct.merges : VAct → Bool
  | .store _ t _ => elemBits t == 4
  | _ => false

/-- The accesses of a store that are still to do. -/
def leftOf (todo : Option (List Nat)) (xs : List VAccess) : List VAccess :=
  match todo with
  | some l => xs.filter (·.idx ∈ l)
  | none => xs

/-- The bits, from its lowest, of each v register that an unmasked instruction writes from element 0 on; none of a
register of which it writes less. -/
def VAct.fills (vl : Nat) : VAct → List (Nat × Nat)
  | .load d t _ | .loadFF d t _ | .toPacked d _ t _ | .int _ d _ _ t | .madd d _ _ _ t | .widen d _ _ t
  | .narrow d _ _ t _ | .fp _ d _ _ t | .fma d _ _ _ t _ | .fcvt d _ _ t | .sf d _ t _ | .slideDn d _ _ t
  | .gather d _ _ t _ | .expand d _ t | .merge d _ _ t | .bcast d _ t | .move d _ t | .iota d t | .dequant d _ _ t =>
    [(d.toNat, vl * elemBits t)]
  | .scan d _ _ t t2 _ => [(d.toNat, vl * elemBits (if t.isAnyFp then t2 else t))]
  | .quant d _ c _ t2 => [(d.toNat, 32 * ceilDiv vl 32 * elemBits t2), (c.toNat, 8 * ceilDiv vl 32)]
  | .toPlanes d _ _ wd => (regRun d wd).map fun r => (r, vl)
  | .planeLoad d _ wd => (regRun d wd).map fun r => (r, 65536)
  | _ => []

/-- The registers with uncorrectable data that a member leaves, performed on the elements from lo to below hi: one whose
declared length it has written whole holds good data (R258). -/
def VMember.cleans (m : VMember) (lo hi : Nat) (bad : BitVec 32) : BitVec 32 :=
  match m.act with
  | .restore _ => bad &&& ~~~(BitVec.ofNat 32 (2 ^ regCount m.cap.regs - 1))
  | a =>
    if m.km = 0 ∧ lo = 0 then
      ((a.fills (min m.cap.vl hi)).filter fun p => decide (rlen m.cap.lanes m.cap.regs ≤ p.2)).foldl
        (fun b p => b &&& ~~~(1#32 <<< p.1)) bad
    else bad

/-- A member reads a v register with uncorrectable data that no earlier member has written whole. -/
def readsBad (lo hi : Nat) (bad : BitVec 32) : List VMember → Bool
  | [] => false
  | m :: ms =>
    (match m.act with
      | .save _ => bad != 0
      | a => a.readsV.any fun r => bad.getLsbD r)
    || readsBad lo hi (m.cleans lo hi bad) ms

/-! ### A convoy performed in part (R114, R179, R328) -/

/-- The first element of a convoy that is not performed yet: none below the VSTART its head captured. -/
def Convoy.first (c : Convoy) : Nat := max c.start ((c.members.head?.map (·.cap.vstart)).getD 0)
/-- The first element a convoy began with. -/
def Convoy.low (c : Convoy) : Nat := (c.begun.map (·.lo)).getD c.first
/-- The registers a convoy's elements read: those its hart has, or those it began with. -/
def Convoy.env (c : Convoy) (x : Hart) : VEnv :=
  match c.begun with
  | some b => { h := { x with v := b.v, k := b.k } }
  | none => { h := x }
/-- What a convoy's load has read already. -/
def Convoy.got (c : Convoy) : List (Nat × List Byte) := (c.begun.map (·.got)).getD []
/-- The elements of a convoy below one have been performed: the rest go on from there with what it began with. -/
def Convoy.begin (c : Convoy) (x : Hart) (e : Nat) (got : List (Nat × List Byte)) : Convoy :=
  let b := (c.env x).h
  { c with start := e, begun := some ⟨b.v, b.k, c.low, got⟩ }

/-- The registers a convoy has written hold good data again. -/
def clearConvoy (c : Convoy) (h : Hart) : Hart :=
  if h.badV = 0 then h else { h with badV := c.members.foldl (fun b m => m.cleans c.low c.limit b) h.badV }

/-- What a convoy consumes besides memory holds uncorrectable data: a v register, or a beat of the causeway (R258). -/
def badInput (s : State) (c : Convoy) : Bool :=
  readsBad c.low c.limit (me s).badV c.members || (c.mem && (core s (coreOf s.cur)).badBeat)

/-- Every member of the acting hart's convoy on the elements below hi, its load having read `got`: the registers, and the
flags of every element the convoy began with. -/
def convoyEnv (s : State) (c : Convoy) (hi : Nat) (got : List (Nat × List Byte)) : VEnv :=
  let parts := splitAtMem c.members
  let e1 := runActs c.low hi parts.1 (c.env (me s))
  runActs c.low hi parts.2.2 (match parts.2.1 with
    | some m => if m.act.isStore then e1 else loadInto e1 m got
    | none => e1)

/-- The acting hart takes what its convoy computed: of one that began earlier only the registers it writes, since others may
have changed meanwhile (R404). -/
def commitConvoy (c : Convoy) (e : VEnv) (s : State) : State :=
  let vs := c.members.flatMap (·.act.writesV)
  let ks := c.members.flatMap (·.act.writesK)
  onMe s fun h => mergeFlags e.fl (if c.begun.isNone then { h with v := e.h.v, k := e.h.k, vs := e.h.vs } else
    { h with
      v := Vector.ofFn fun (i : Fin 32) => if i.val ∈ vs then e.h.v[i] else h.v[i]
      k := Vector.ofFn fun (i : Fin 8) => if i.val ∈ ks then e.h.k[i] else h.k[i]
      vs := e.h.vs })

/-- The element or row behind the last one that a store in progress has performed, from a first one on: what those below it
write has been read. -/
def readTo (todo : Option (List Nat)) (first : Nat) (xs : List VAccess) : Nat :=
  match todo with
  | none => first
  | some l => (xs.filter fun x => !(x.idx ∈ l)).foldl (fun n x => max n (x.idx + 1)) first

/-- How a store goes on that may go as far as an element or row and no further: `store` performs a list of accesses, and
`finish` and `halt` say what is left of it. -/
def storeUpTo (stop : Option (Nat × Nat)) (ys : List VAccess) (store : List VAccess → State × List Nat)
    (finish : State → State) (halt : Nat → State → State) : Performed :=
  let below (x : VAccess) : Bool := stop.all fun p => decide (x.idx < p.1)
  let r := store (ys.filter below)
  if !r.2.isEmpty then .wait r.1 (some (r.2 ++ (ys.filter fun x => !below x).map (·.idx)))
  else match stop with
    | some (i, pa) => .halt (halt i r.1) i pa
    | none => .done (finish r.1) []

/-- Perform the acting hart's convoy on the elements below hi, with its stores left to do (R113, R114, R404). A convoy of
element-wise members that consumes uncorrectable data at an element performs those below it and no other (R262). A store
that has begun has read what it writes up to the last element it has performed; uncorrectable data that comes into its
sources then ends it behind that one. -/
def performConvoy (s : State) (c : Convoy) (hi : Nat) (todo : Option (List Nat)) : Performed :=
  let top := min hi c.limit
  let parts := splitAtMem c.members
  let bad := badInput s c
  let clear (s : State) : State := if bad then onCore s (coreOf s.cur) fun k => { k with badBeat := false } else s
  match parts.2.1 with
  | none => if bad then .halt (clear s) c.first 0 else .done (commitConvoy c (convoyEnv s c top []) s) []
  | some m =>
    let e1 := runActs c.low top parts.1 (c.env (me s))
    let xs := accessesOf e1 m c.first top
    if m.act.isStore then
      let ys := leftOf todo xs
      let read := readTo todo c.first xs
      let stop := if bad && (todo.isNone || ys.any fun x => decide (read ≤ x.idx)) then some (read, 0)
        else if m.act.merges then firstPoison s c.pins ys else none
      storeUpTo stop ys (storeAccesses (storeValue e1 m (imageOf e1 m)) m.act.merges c.pins [] s)
        (commitConvoy c (convoyEnv s c top [])) fun i s1 => clear (commitConvoy c (convoyEnv s c i []) s1)
    else if bad then .halt (clear s) c.first 0
    else
      let ps := xs.flatMap (accessPieces c.pins)
      match trackRead s (ps.filter fun p => tracked p.pa) with
      | .stop s1 => .wait (if (taskAt s s.cur).isSome then s1 else s) none
      | .go s1 =>
        let read (xs : List VAccess) : List (Nat × List Byte) := c.got ++ readAccesses s1 c.pins xs
        match firstPoison s1 c.pins xs with
        | some (i, pa) =>
          if m.act.isCross then .halt s1 0 pa
          else .halt (commitConvoy c (convoyEnv s1 c i (read (xs.filter fun x => decide (x.idx < i)))) s1) i pa
        | none =>
          let got := read xs
          .done (commitConvoy c (convoyEnv s1 c top got) (loadedLines s1 c.pins xs)) got

/-! ### Scratchpad timing (R152) -/

/-- Row and column of a core in its island's mesh; a steward core stands west of row 0 (R17, R21), and its link to
router 0 counts as a hop (log 105). -/
def meshAt (c : Nat) : Int × Int := if c < 1280 then ((c % 64 / 8 : Nat), (c % 8 : Nat)) else (0, -1)
/-- Mesh hops between two cores of an island. -/
def meshHops (a b : Nat) : Nat :=
  ((meshAt a).1 - (meshAt b).1).natAbs + ((meshAt a).2 - (meshAt b).2).natAbs

/-- The accesses that give a memory member its time: those of every element below VL, masked off or not, since time does
not depend on a mask (R105). -/
def timedAccesses (e : VEnv) (m : VMember) (lo : Nat) : List VAccess :=
  let all (t : Ty) (ad : VAddr) : List VAccess :=
    ((List.range m.cap.vl).filter fun i => decide (lo ≤ i)).map (elemAccess e t ad)
  match m.act with
  | .load _ t ad | .loadFF _ t ad | .store _ t ad => all t ad
  | _ => probesOf e m lo

/-- The physical address of a byte: under its pin, or as it translates now. -/
def placeOf (s : State) (h : Nat) (c : Convoy) (m : VMember) (va : Word) : Option Nat :=
  match pinOf c.pins (va.toNat / 4096) with
  | some q => some (q.ppage * 4096 + va.toNat % 4096)
  | none => peek s h m.cap.mode m.cap.ptbase va

/-- The scratchpad window and offset of a byte. -/
def spadPlace (pa : Option Nat) : Option (Nat × Nat) :=
  match pa.map regionOf with
  | some (.spad k off) => some (k, off)
  | _ => none

/-- The first bytes, by page, of the pages an access touches. -/
def pageStarts (x : VAccess) : List Word :=
  (List.range ((x.va.toNat % 4096 + x.len + 4095) / 4096)).map fun i => if i = 0 then x.va else x.va + w64 (4096 * i)

/-- The latency of a convoy's memory member: 8 cycles and 2 per hop for a load from a scratchpad (R152), else that of
R111; of a load from several places, the longest of them (DESIGN CHOICE, log 91). -/
def memLatency (s : State) (h : Nat) (e : VEnv) (c : Convoy) (m : VMember) : Nat :=
  let one (va : Word) : Nat := match spadPlace (placeOf s h c m va) with
    | some (k, _) => 8 + 2 * meshHops (coreOf h) k
    | none => m.act.latency
  match addNew [] ((timedAccesses e m c.first).flatMap pageStarts) with
  | [] => m.act.latency
  | v :: vs => if m.act.isStore then m.act.latency else vs.foldl (fun n v => max n (one v)) (one v)

/-- The cycles that scratchpad banks take for the bytes asked of them at once (R152, R153): a distinct word costs one on
its bank, and two where a store covers only part of it; the slowest bank decides. -/
def bankCost (store : Bool) (bytes : List (Nat × Nat)) : Nat :=
  let words := addNew [] (bytes.map fun b => (b.1, b.2 / 8))
  let cost (w : Nat × Nat) : Nat :=
    if store && decide ((addNew [] (bytes.filter fun b => b.1 == w.1 && b.2 / 8 == w.2)).length < 8) then 2 else 1
  (words.map fun w => ((words.filter fun y => y.1 == w.1 && y.2 % 31 == w.2 % 31).map cost).foldl (· + ·) 0).foldl max 1

/-- The scratchpad bytes of an access. -/
def spadBytesOf (place : Word → Option Nat) (x : VAccess) : List (Nat × Nat) :=
  (List.range x.len).filterMap fun i => spadPlace (place (x.va + w64 i))

/-- The bytes a beat of a contiguous image moves, or the elements of a beat (R111, R406). -/
def beatAccesses (m : VMember) (xs : List VAccess) (b : Nat) : List VAccess :=
  match m.act with
  | .load _ _ _ | .loadFF _ _ _ | .store _ _ _ =>
    let per := max 1 (64 * m.cap.lanes / m.act.timeWidth)
    xs.filter fun x => x.idx / per == b
  | _ => xs.map fun x =>
      let from_ := b * 8 * m.cap.lanes
      ⟨x.idx, x.va + w64 from_, min (8 * m.cap.lanes) (x.len - from_)⟩

/-- The cycles that bank costs add to the beats of a memory member (R152). -/
def bankDelay (s : State) (h : Nat) (e : VEnv) (c : Convoy) (m : VMember) (lo : Nat) : Nat :=
  let xs := timedAccesses e m lo
  let place := placeOf s h c m
  if !(xs.flatMap pageStarts).any (fun v => (spadPlace (place v)).isSome) then 0
  else (List.range m.beats).foldl (fun n b =>
    n + (bankCost m.act.isStore ((beatAccesses m xs b).flatMap (spadBytesOf place)) - 1)) 0

end Sys2Proof.Machine
end

