-- ==== Sys2Proof/Machine/MExec.lean ====
section
/-!
DEFINITION. What the matrix instructions read, write and compute (spec/06_matrix.md R121 to R137; spec/18 R375 to
R381; spec/04_numeric_versions.md R88 to R91).
-/
namespace Sys2Proof.Machine

/-! ### Places -/

/-- The block size of an MX format in bytes: its granule in A rows and B columns (R128, R129). -/
def mxBlock (t : Ty) : Nat := if t = .mx4 then 16 else 32
/-- The granule of an MMA format (R134). -/
def granule (t : Ty) : Nat := if t = .bf ∨ t = .hf then 2 else if t.isMx then mxBlock t else 1
/-- Rows of the B-store that KB bytes of a column take (R124). -/
def bRows (kb : Nat) : Nat := (kb + 31) / 32
/-- The offset in a core's window of byte o of column j based at row rb (R124, R125). -/
def bOffset (j rb o : Nat) : Nat := j * 0x20000 + 32 * rb + o
/-- The sidecar byte of the block at column offset o of an operation based at row rb (R124). -/
def bSide (j rb o : Nat) : Nat := 0x2000 * j + (32 * rb + o) / 16

/-- Byte o of row i of an A tile (R122). -/
def aByte (t : BitVec 32768) (i o : Nat) : Nat := getBits t (8 * (128 * i + o)) 8
/-- Element (i, j) of a C tile (R123). -/
def cElem (t : BitVec 32768) (i j : Nat) : Nat := getBits t (32 * (32 * i + j)) 32
/-- Write element (i, j) of a C tile. -/
def setCElem (t : BitVec 32768) (i j v : Nat) : BitVec 32768 := putBits t (32 * (32 * i + j)) 32 v

/-- An A tile of a core. -/
def tileA (c : Core) (d : BitVec 2) : BitVec 32768 := c.a[d.toNat]
/-- A sidecar of a core. -/
def sideA (c : Core) (d : BitVec 2) : BitVec 2048 := c.asc[d.toNat]
/-- A C tile of a core. -/
def tileC (c : Core) (d : BitVec 3) : BitVec 32768 := c.c[d.toNat]
/-- Write an A tile. -/
def putA (d : BitVec 2) (t : BitVec 32768) (c : Core) : Core := { c with a := c.a.set d.toNat t }
/-- Write a sidecar. -/
def putSideA (d : BitVec 2) (t : BitVec 2048) (c : Core) : Core := { c with asc := c.asc.set d.toNat t }
/-- Write a C tile. -/
def putC (d : BitVec 3) (t : BitVec 32768) (c : Core) : Core := { c with c := c.c.set d.toNat t }
/-- Write a tensor map register. -/
def putTm (d : BitVec 2) (t : BitVec 512) (c : Core) : Core := { c with tm := c.tm.set d.toNat t }

/-! ### Tensor maps (R131, R132) -/

/-- A field of a tensor map: n bytes from an offset. -/
def tmField (t : BitVec 512) (off n : Nat) : Nat := getBits t (8 * off) (8 * n)

/-- The limits of R131. -/
def tmOk (t : BitVec 512) : Bool :=
  let f := tmField t
  decide (f 0 8 < 2 ^ 48) && decide (1 ≤ f 8 2) && decide (1 ≤ f 10 2) && decide (1 ≤ f 12 2)
    && (f 14 1 == 1 || f 14 1 == 2)
    && ([15, 16, 17, 18, 19, 20].all fun o => decide (1 ≤ f o 1) && decide (f o 1 ≤ 15))
    && decide (f 21 1 ≤ 15) && decide (f 22 1 ≤ 15) && f 23 1 == 0
    && decide (1 ≤ f 24 2) && decide (1 ≤ f 26 2) && f 28 4 == 0
    && decide (f 12 2 * f 14 1 ≤ f 40 8) && f 48 16 == 0

/-- Where byte o of tile row i of an im2col window lies; `none` is zero fill (R132). -/
def windowByte (t : BitVec 512) (m0 kb0 i o : Nat) : Option Word :=
  let f := tmField t
  let eb := f 14 1
  let m := m0 + i
  let e := (kb0 + o) / eb
  let c := e % f 12 2
  let k := e / f 12 2
  let kx := k % f 16 1
  let ky := k / f 16 1
  let iy : Int := (m / f 24 2 * f 17 1 + ky * f 19 1 : Nat) - (f 21 1 : Int)
  let ix : Int := (m % f 24 2 * f 18 1 + kx * f 20 1 : Nat) - (f 22 1 : Int)
  if m < f 26 2 * f 24 2 ∧ ky < f 15 1 ∧ 0 ≤ iy ∧ iy < f 8 2 ∧ 0 ≤ ix ∧ ix < f 10 2 then
    some (w64 (f 0 8 + iy.toNat * f 32 8 + ix.toNat * f 40 8 + c * eb + (kb0 + o) % eb))
  else none

/-! ### The accesses (R129 to R132, R136, R378, R381) -/

/-- Rows of n bytes at a pitch. -/
def rowAccesses (base pitch : Word) (rows n : Nat) : List VAccess :=
  if n = 0 then [] else (List.range rows).map fun i => ⟨i, base + w64 i * pitch, n⟩

/-- The accesses of an instruction under its capture: rows, columns, in-image bytes, a whole image, or the rest of one whose
header and tensor maps MREST has read (R381). -/
def MAct.accesses (c : Core) (cap : Captured) : MAct → List VAccess
  | .lda _ base pitch rows | .ldaFF _ base pitch rows => rowAccesses base pitch rows cap.kb
  | .ldaScale _ base pitch q => rowAccesses base pitch cap.m (cap.kb / mxBlock q)
  | .ldb _ base pitch => rowAccesses base pitch cap.n cap.kb
  | .ldbScale _ base pitch q => rowAccesses base pitch cap.n (cap.kb / mxBlock q)
  | .ldw _ m0 kb0 tm =>
    (List.range cap.m).flatMap fun i => (List.range cap.kb).filterMap fun o =>
      (windowByte c.tm[tm.toNat] m0.toNat kb0.toNat i o).map fun a => ⟨128 * i + o, a, 1⟩
  | .stc _ base pitch f => rowAccesses base pitch cap.m (cap.n * f.bits / 8)
  | .save base => wordAccesses base (matrixImageSize / 8)
  | .restore base _ => [⟨0, base + 64, 50176⟩]
  | _ => []

/-- The tensor maps that MREST has read (R381). -/
def mapsOf (maps : List (BitVec 512)) : Vector (BitVec 512) 4 := Vector.ofFn fun (i : Fin 4) => maps.getD i.val 0

/-- A core as it will be when the queued entries have written their tensor maps (R138). -/
def mappedCore (q : List MEntry) (c : Core) : Core :=
  q.foldl (fun c e => match e.act with
    | .tmap d t => putTm d t c
    | .restore _ maps => { c with tm := mapsOf maps }
    | _ => c) c

/-- What the probe checks: a saved image as one run. -/
def MAct.probes (c : Core) (cap : Captured) (a : MAct) : List VAccess :=
  match a with
  | .save base => [⟨0, base, matrixImageSize⟩]
  | a => a.accesses c cap

/-- A matrix instruction that touches memory when it is performed; MTMAP has read its line at queue entry. -/
def MAct.isMem : MAct → Bool
  | .lda _ _ _ _ | .ldaFF _ _ _ _ | .ldaScale _ _ _ _ | .ldb _ _ _ | .ldbScale _ _ _ _ | .ldw _ _ _ _
  | .stc _ _ _ _ | .save _ | .restore _ _ => true
  | _ => false

/-! ### The order of accesses (R138, R192, R196, R199) -/

/-- The pages of two lists of pins meet. -/
def pinsMeet (a b : List Pin) : Bool := a.any fun p => b.any fun q => p.ppage == q.ppage

/-- What the order of accesses asks of one queued memory instruction: its pins, whether it stores, whether it is a SETWM,
and its place (R138, R192, R196, R199). -/
structure MemPlace where
  pins : List Pin
  stores : Bool
  mark : Bool
  seq : Nat
  after : Nat

/-- The younger of two memory instructions of a hart's vector side waits for the older: they touch one page (case 1 of
R192, R138), it stores and the older loads (case 2), a FENCE.VV stands between them (case 7), or it is a SETWM
(case 8). -/
def mustFollow (old new : MemPlace) : Bool :=
  decide (old.seq < new.seq) &&
    (pinsMeet old.pins new.pins || (new.stores && !old.stores) || decide (old.seq < new.after) || new.mark)

/-- One memory side must follow another, where both are there. -/
def followsPlace (old new : Option MemPlace) : Bool := old.any fun o => new.any (mustFollow o)

/-- A matrix instruction that stores. -/
def MAct.isStore : MAct → Bool
  | .stc _ _ _ _ | .save _ => true
  | _ => false

/-- A matrix entry's memory side. -/
def MEntry.memPlace (e : MEntry) : Option MemPlace :=
  if e.mem then some ⟨e.pins, e.act.isStore, false, e.seq, e.after⟩ else none

/-! ### The scoreboard (R121, R138) -/

/-- What an instruction reads and writes: A tiles 0 to 3, sidecars 4 to 7, C tiles 8 to 15, tensor maps 16 to 19,
and runs of B-store rows. -/
structure Touch where
  reads : List Nat := []
  writes : List Nat := []
  readRows : Nat × Nat := (0, 0)
  writeRows : Nat × Nat := (0, 0)

/-- Every tile, sidecar and tensor map. -/
def allTiles : List Nat := List.range 20

/-- What an instruction touches (R121). -/
def MAct.touch (cap : Captured) : MAct → Touch
  | .zero c => { writes := [8 + c.toNat] }
  | .lda d _ _ _ | .ldaFF d _ _ _ => { writes := [d.toNat] }
  | .ldaScale d _ _ _ => { writes := [4 + d.toNat] }
  | .ldb row _ _ | .ldbScale row _ _ _ => { writeRows := (row, bRows cap.kb) }
  | .ldw d _ _ tm => { reads := [16 + tm.toNat], writes := [d.toNat] }
  | .tmap d _ => { writes := [16 + d.toNat] }
  | .mma c a row _ =>
    { reads := [8 + c.toNat, a.toNat, 4 + a.toNat], writes := [8 + c.toNat], readRows := (row, bRows cap.kb) }
  | .stc c _ _ _ => { reads := [8 + c.toNat] }
  | .toVector _ c _ _ => { reads := [8 + c.toNat] }
  | .toTile c _ _ _ => { reads := [8 + c.toNat], writes := [8 + c.toNat] }
  | .castTile _ a => { reads := [a.toNat, 4 + a.toNat] }
  | .castRows _ row => { readRows := (row, bRows cap.kb) }
  | .save _ => { reads := allTiles }
  | .restore _ _ => { writes := allTiles }

/-- Two runs of rows meet. -/
def runsMeet (a b : Nat × Nat) : Bool := decide (a.1 < b.1 + b.2) && decide (b.1 < a.1 + a.2)

/-- A younger entry waits for an older one in flight (R138); accumulation into one tile is forwarded (R135). -/
def waitsFor (old new : MEntry) : Bool :=
  let o := old.act.touch old.cap
  let n := new.act.touch new.cap
  let forwarded := match old.act, new.act with
    | .mma c _ _ _, .mma d _ _ _ => c == d
    | _, _ => false
  (!forwarded && (o.writes.any (fun x => x ∈ n.reads ∨ x ∈ n.writes) || o.reads.any (· ∈ n.writes)))
    || runsMeet o.writeRows n.readRows || runsMeet o.writeRows n.writeRows || runsMeet o.readRows n.writeRows
    || followsPlace old.memPlace new.memPlace

/-! ### Cycles (R134, R135) -/

/-- The resource an instruction occupies: the array, the load port or the tile port. -/
inductive MUnit where
  | array | load | port
  deriving DecidableEq, Repr

/-- Its resource. -/
def MAct.unit : MAct → MUnit
  | .zero _ | .mma _ _ _ _ => .array
  | .stc _ _ _ _ | .toVector _ _ _ _ | .toTile _ _ _ _ | .castTile _ _ | .castRows _ _ => .port
  | _ => .load

/-- C rows an MMOVC touches. -/
def movedRows (vl row0 : Nat) : Nat := min (ceilDiv vl 32) (32 - row0)

/-- The cycles it occupies its resource. -/
def MAct.cycles (cap : Captured) (a : MAct) : Nat :=
  max 1 (match a with
    | .zero _ | .tmap _ _ => 1
    | .lda _ _ _ rows | .ldaFF _ _ _ rows => rows
    | .ldaScale _ _ _ _ | .ldw _ _ _ _ | .stc _ _ _ _ => cap.m
    | .ldb _ _ _ | .ldbScale _ _ _ _ => ceilDiv (cap.n * bRows cap.kb) 4
    | .mma _ _ _ f => ceilDiv cap.kb (if elemBits f = 4 then 32 else 16)
    | .toVector _ _ row0 _ | .toTile _ _ row0 _ => movedRows cap.vl row0
    | .castTile _ _ => 32
    | .castRows _ _ => 8 * bRows cap.kb
    | .save _ | .restore _ _ => 395)

/-! ### The arithmetic (R133, R136) -/

/-- The value of element k in a row of packed elements, with its scale (R70, R122, R124). -/
def rowValue (f : Ty) (row : Nat) (scale : Nat → Nat) (k : Nat) : FVal :=
  let w := elemBits f
  let x := row / 2 ^ (w * k) % 2 ^ w
  if f.isMx then mxValue f (scale (w * k / 8 / mxBlock f * mxBlock f)) x else valueF (fmtOf f) x

/-- The integer of element k in a row of packed elements (R91). -/
def rowInt (f : Ty) (row k : Nat) : Int := intOf f (row / 2 ^ (elemBits f * k) % 2 ^ elemBits f)

/-- NBDot over an A row and a B column of KB bytes (R88, R91). -/
def dotOf (f : Ty) (cap : Captured) (acc arow bcol : Nat) (ascale bscale : Nat → Nat) : FRes :=
  let p := cap.kb * 8 / elemBits f
  if f.isInt || f == .i4 then intDot acc ((List.range p).map fun k => rowInt f arow k * rowInt f bcol k)
  else nbDot cap.nbv cap.rm acc ((List.range p).map fun k => mulV (rowValue f arow ascale k) (rowValue f bcol bscale k))

/-- The bytes of an A row's first KB bytes, as a number. -/
def aRow (t : BitVec 32768) (i kb : Nat) : Nat := getBits t (1024 * i) (8 * kb)
/-- The bytes of column j of a core's B-store from row rb, as a number. -/
def bColumn (s : State) (c j rb kb : Nat) : Nat := memReadNat s.mem (bstoreBase c + bOffset j rb 0) kb

/-- MMA (R133): the C tile it leaves and the flags it raises. -/
def runMma (s : State) (c : Nat) (cap : Captured) (cd : BitVec 3) (a : BitVec 2) (rb : Nat) (f : Ty) :
    BitVec 32768 × BitVec 6 :=
  let k := core s c
  (List.range cap.n).foldl (fun acc j =>
    let col := bColumn s c j rb cap.kb
    let bs (o : Nat) : Nat := (memRead k.bsc (bSide j rb o)).toNat
    (List.range cap.m).foldl (fun acc i =>
      let sa (o : Nat) : Nat := getBits (sideA k a) (8 * (8 * i + o / 16)) 8
      let r := dotOf f cap (cElem acc.1 i j) (aRow (tileA k a) i cap.kb) col sa bs
      (setCElem acc.1 i j r.enc, acc.2 ||| r.fl)) acc) (tileC k cd, 0)

/-- Write the granted positions of a C tile. -/
def fillC (cap : Captured) (t : BitVec 32768) (v : Nat) : BitVec 32768 :=
  (List.range cap.m).foldl (fun t i => putBits t (1024 * i) (32 * cap.n) v) t

/-- An A tile of rows: bytes beyond them are zero (R129). -/
def tileOfRows (got : List (Nat × List Byte)) : BitVec 32768 :=
  got.foldl (fun t p => putBits t (1024 * p.1) (8 * p.2.length) (natOfBytes p.2)) 0

/-- An A tile of single bytes: the others are zero (R132). -/
def tileOfBytes (got : List (Nat × List Byte)) : BitVec 32768 :=
  got.foldl (fun t p => putBits t (8 * p.1) 8 (natOfBytes p.2)) 0

/-- A row that MSTC stores, as a number, with its flags (R136). -/
def storeRow (k : Core) (cap : Captured) (c : BitVec 3) (f : Ty) (i : Nat) : Nat × BitVec 6 :=
  (List.range cap.n).foldl (fun acc j =>
    let x := cElem (tileC k c) i j
    let r : FRes := if f.isFp && f != .sf then convert f .sf cap.rm none x else ⟨x, 0⟩
    (acc.1 + r.enc * 2 ^ (f.bits * j), acc.2 ||| r.fl)) (0, 0)

/-- A core with TSHAPE and SHORT as an instruction captured them (R127). -/
def withShape (cap : Captured) (k : Core) : Core :=
  { k with kb := BitVec.ofNat 8 cap.kb, n := BitVec.ofNat 6 cap.n, m := BitVec.ofNat 6 cap.m, short := cap.short }

/-- The number an access of a store writes. -/
def MAct.storeValue (k : Core) (cap : Captured) (idx : Nat) : MAct → Nat
  | .stc c _ _ f => (storeRow k cap c f idx).1
  | .save _ => natOfBytes (matrixImage (withShape cap k)) / 2 ^ (64 * idx) % 2 ^ 64
  | _ => 0

/-- The flags of a store. -/
def MAct.storeFlags (k : Core) (cap : Captured) : MAct → BitVec 6
  | .stc c _ _ f => (List.range cap.m).foldl (fun fl i => fl ||| (storeRow k cap c f i).2) 0
  | _ => 0

/-- The cells of B-store rows that a column load writes: whole 32-byte rows, bytes at or beyond KB zero (R378). -/
def columnCells (row kb : Nat) (got : List (Nat × List Byte)) : List Host.Cell :=
  got.flatMap fun p => (p.2 ++ List.replicate (32 * bRows kb - kb) 0).mapIdx fun o b => (bOffset p.1 row o, b)

/-- The cells of B-store sidecars that a scale load writes (R378). -/
def scaleCells (row : Nat) (q : Ty) (got : List (Nat × List Byte)) : List Host.Cell :=
  got.flatMap fun p => p.2.mapIdx fun o b => (bSide p.1 row (o * mxBlock q), b)

/-- Write cells, shifted by an offset, into a list of bytes. -/
def putCells (m : List Host.Cell) (off : Nat) (cells : List Host.Cell) : List Host.Cell :=
  cells.foldl (fun m x => memWrite m (off + x.1) x.2) m

/-- The sidecar of an A tile after a scale load (R129). -/
def sideOfRows (t : BitVec 2048) (q : Ty) (got : List (Nat × List Byte)) : BitVec 2048 :=
  got.foldl (fun t p => (p.2.zipIdx).foldl (fun t b => putBits t (8 * (8 * p.1 + b.2 * mxBlock q / 16)) 8 b.1.toNat) t) t

/-- The elements that MMOVC moves (R137). -/
def movedElems (h : Hart) (cap : Captured) (row0 : Nat) (km : BitVec 3) : List Nat :=
  activeIn 0 cap.vl fun e => maskBit (getK h km) e && decide (row0 + e / 32 < 32)

/-- MMOVC to a vector register (R137); VS stays where it moves nothing (R55). -/
def moveToVector (h : Hart) (k : Core) (cap : Captured) (c : BitVec 3) (row0 : Nat) (km : BitVec 3) (d : Reg) : Hart :=
  match movedElems h cap row0 km with
  | [] => h
  | l => setV h d (l.foldl (fun r e => setVElem r 32 e (cElem (tileC k c) (row0 + e / 32) (e % 32))) (getV h d))

/-- MMOVC to a C tile (R137). -/
def moveToTile (h : Hart) (k : Core) (cap : Captured) (c : BitVec 3) (row0 : Nat) (km : BitVec 3) (v : Reg) : Core :=
  let r := (movedElems h cap row0 km).foldl (fun t e =>
    setCElem t (row0 + e / 32) (e % 32) (vElem (getV h v) 32 e)) (tileC k c)
  putC c r k

end Sys2Proof.Machine
end

