-- ==== Sys2Proof/Machine/Reads.lean ====
section
/-!
DEFINITION. Which x and f registers an instruction reads and which x registers it writes, as its operands name them
(spec/14_encoding.md R286 to R291): what waits for the mask of an MCAST (spec/06_matrix.md R140), and what consumes
uncorrectable data of the register files (spec/12_traps.md R253, R258, R259).
-/
namespace Sys2Proof.Machine

/-- The register of a second source, where it is one. -/
def srcRegs : VSrc → List Reg
  | .reg b => [b]
  | .imm _ => []

/-- The x registers an instruction reads. -/
def xReads : Instr → List Reg
  | .addImm _ a _ | .andImm _ a _ | .orImm _ a _ | .xorImm _ a _ | .sltImm _ a _ | .sltuImm _ a _ | .shlImm _ a _
  | .shrImm _ a _ | .sarImm _ a _ | .rolImm _ a _ | .rorImm _ a _ | .minImm _ a _ | .minuImm _ a _ | .maxImm _ a _
  | .maxuImm _ a _ | .clz _ a | .ctz _ a | .popc _ a | .exts _ a _ | .extz _ a _ | .bswap _ a _ | .fmovxToF _ a
  | .ld _ a _ _ | .pref a _ | .ldAq _ a _ _ | .ldb _ a _ _ | .jalr _ a _ | .loop a _ | .waitt a | .tdomainOpen _ a
  | .scopy _ a | .smap _ a | .sput _ a | .swait a | .setsr a _ | .swapsr _ a _ | .cacheopIl a | .cacheopWb a
  | .cacheopWbi a | .kset _ a | .setvl _ a _ _ | .vsave a | .vrest a | .mtmap _ a | .mcastRows _ a | .msave a
  | .mrest a | .vld _ _ a _ | .vldx _ _ a _ _ _ | .vldff _ _ a _ | .vst _ _ a _ | .vstx _ _ a _ _ _
  | .vbpld _ _ a _ | .vbpst _ _ a _ | .vmvx _ _ a _ => [a]
  | .add _ a b | .sub _ a b | .and _ a b | .or _ a b | .xor _ a b | .shl _ a b | .shr _ a b | .sar _ a b
  | .rol _ a b | .ror _ a b | .slt _ a b | .sltu _ a b | .min _ a b | .minu _ a b | .max _ a b | .maxu _ a b
  | .mul _ a b | .mulh _ a b | .mulhu _ a b | .div _ a b | .divu _ a b | .rem _ a b | .remu _ a b | .stRl a b _ _
  | .amoSwap _ a b _ _ _ _ | .amoAdd _ a b _ _ _ _ | .amoAnd _ a b _ _ _ _ | .amoOr _ a b _ _ _ _
  | .amoXor _ a b _ _ _ _ | .amoMin _ a b _ _ _ _ | .amoMax _ a b _ _ _ _ | .amoMinu _ a b _ _ _ _
  | .amoMaxu _ a b _ _ _ _ | .stb a b _ | .br a b _ _ | .recv _ a b _ | .setwm a b _ | .waitwm a b _
  | .tlbinvPage a b _ | .mshape _ a b | .mlda _ a b | .mldaScale _ a b _ | .mldaff _ a b | .mldw _ a b _
  | .mstc _ a b _ => [a, b]
  | .select d a b | .cas d a b _ _ _ _ | .send d a b _ | .mldb d a b | .mldbScale d a b _ => [d, a, b]
  | .fcvtToFloat _ a _ src => (if src.isInt then [a] else [])
  | .st d a _ _ => [d, a]
  | .tspawn a b _ => [a, b, 10, 11, 12]
  | .tdomainEnter _ => [2, 3]
  | .tlbinvAsid b _ | .mma _ _ b _ | .mmovcToVector _ _ b _ | .mmovcToTile _ _ b _ => [b]
  | .vlds _ _ a b _ | .vsts _ _ a b _ => [a] ++ srcRegs b
  | .vredsum _ d _ _ | .vredmin _ d _ _ | .vredmax _ d _ _ => [d]
  | .vscan _ _ _ c t _ => (if t.isAnyFp then [] else [c])
  | .vslideup _ _ _ b _ | .vslidedn _ _ _ b _ | .vmvs _ _ _ b _ => srcRegs b
  | .vbcast _ _ a t => (if t.isAnyFp then [] else srcRegs a)
  | _ => []

/-- The f registers an instruction reads. -/
def fReads : Instr → List Reg
  | .fadd _ a b _ | .fsub _ a b _ | .fmul _ a b _ | .fdiv _ a b _ | .fmin _ a b _ | .fmax _ a b _ | .fcmpEq _ a b _
  | .fcmpLt _ a b _ | .fcmpLe _ a b _ | .fsgnJ _ a b _ | .fsgnN _ a b _ | .fsgnX _ a b _ => [a, b]
  | .fsqrt _ a _ | .fclass _ a _ | .fmovxToX _ a | .fcvtToInteger _ a _ _ => [a]
  | .fcvtToFloat _ a _ src => (if src.isInt then [] else [a])
  | .fma _ a b c _ | .fmaS _ a b c _ | .fmaN _ a b c _ | .fmaNs _ a b c _ => [a, b, c]
  | .vfredsum _ d _ _ _ | .vfredmin _ d _ _ _ | .vfredmax _ d _ _ _ => [d]
  | .vscan _ _ _ c t _ => (if t.isAnyFp then [c] else [])
  | .vbcast _ _ a t => (if t.isAnyFp then srcRegs a else [])
  | _ => []

/-- The x registers an instruction writes. -/
def xWrites : Instr → List Reg
  | .addImm d _ _ | .andImm d _ _ | .orImm d _ _ | .xorImm d _ _ | .sltImm d _ _ | .sltuImm d _ _ | .shlImm d _ _
  | .shrImm d _ _ | .sarImm d _ _ | .rolImm d _ _ | .rorImm d _ _ | .minImm d _ _ | .minuImm d _ _ | .maxImm d _ _
  | .maxuImm d _ _ | .add d _ _ | .sub d _ _ | .and d _ _ | .or d _ _ | .xor d _ _ | .shl d _ _ | .shr d _ _
  | .sar d _ _ | .rol d _ _ | .ror d _ _ | .slt d _ _ | .sltu d _ _ | .min d _ _ | .minu d _ _ | .max d _ _
  | .maxu d _ _ | .mul d _ _ | .mulh d _ _ | .mulhu d _ _ | .div d _ _ | .divu d _ _ | .rem d _ _ | .remu d _ _
  | .clz d _ | .ctz d _ | .popc d _ | .exts d _ _ | .extz d _ _ | .select d _ _ | .bswap d _ _ | .ldhi d _
  | .addpc d _ | .fcmpEq d _ _ _ | .fcmpLt d _ _ _ | .fcmpLe d _ _ _ | .fclass d _ _ | .fmovxToX d _
  | .fcvtToInteger d _ _ _ | .ld d _ _ _ | .ldAq d _ _ _ | .amoSwap d _ _ _ _ _ _ | .amoAdd d _ _ _ _ _ _
  | .amoAnd d _ _ _ _ _ _ | .amoOr d _ _ _ _ _ _ | .amoXor d _ _ _ _ _ _ | .amoMin d _ _ _ _ _ _
  | .amoMax d _ _ _ _ _ _ | .amoMinu d _ _ _ _ _ _ | .amoMaxu d _ _ _ _ _ _ | .cas d _ _ _ _ _ _ | .ldb d _ _ _
  | .jal d _ | .jalr d _ _ | .recv d _ _ _ | .gbar d | .tdomainOpen d _ | .tdomainEnter d | .tdomainClose d
  | .scopy d _ | .smap d _ | .sput d _ | .getsr d _ | .swapsr d _ _ | .kpopc d _ | .kfirst d _ | .setvl d _ _ _
  | .mshape d _ _ | .mcastTile d _ | .mcastRows d _ | .vredsum _ d _ _ | .vredmin _ d _ _ | .vredmax _ d _ _ => [d]
  | .vscan _ _ _ c t _ => (if t.isAnyFp then [] else [c])
  | .vmvs _ d _ _ t => (if t.isAnyFp then [] else [d])
  | _ => []

/-- The f registers an instruction writes. -/
def fWrites : Instr → List Reg
  | .fadd d _ _ _ | .fsub d _ _ _ | .fmul d _ _ _ | .fdiv d _ _ _ | .fsqrt d _ _ | .fmin d _ _ _ | .fmax d _ _ _
  | .fsgnJ d _ _ _ | .fsgnN d _ _ _ | .fsgnX d _ _ _ | .fmovxToF d _ | .fcvtToFloat d _ _ _ | .fma d _ _ _ _
  | .fmaS d _ _ _ _ | .fmaN d _ _ _ _ | .fmaNs d _ _ _ _ | .vfredsum _ d _ _ _ | .vfredmin _ d _ _ _
  | .vfredmax _ d _ _ _ => [d]
  | .vscan _ _ _ c t _ => (if t.isAnyFp then [c] else [])
  | .vmvs _ d _ _ t => (if t.isAnyFp then [d] else [])
  | _ => []

/-- The x registers that the masks of MCASTs still to come are written to (R140). -/
def castRegs (h : Hart) : List Reg :=
  (h.castMask.map (·.1)).toList ++ h.mq.filterMap fun e => match e.act with
    | .castTile d _ | .castRows d _ => some d
    | _ => none

/-- An instruction must wait for the mask of an older MCAST: it reads the register, or writes it (R140; DEDUCED, log
93). -/
def castHolds (h : Hart) (i : Instr) : Bool :=
  (castRegs h).any fun d => d != 0 && (d ∈ xReads i ∨ d ∈ xWrites i)

/-- An instruction reads a register whose file holds uncorrectable data there (R258, R259). -/
def consumesBad (h : Hart) (i : Instr) : Bool :=
  (xReads i).any (fun r => h.badX.getLsbD r.toNat) || (fReads i).any fun r => h.badF.getLsbD r.toNat

/-- A set of registers without those of a list. -/
def clearRegs (b : BitVec 32) (rs : List Reg) : BitVec 32 := rs.foldl (fun b r => b &&& ~~~(1#32 <<< r.toNat)) b

/-- A register that an instruction has written holds good data again. -/
def clearWritten (i : Instr) (h : Hart) : Hart :=
  { h with badX := clearRegs h.badX (xWrites i), badF := clearRegs h.badF (fWrites i) }

end Sys2Proof.Machine
end

