-- ==== Sys2Proof/Machine/Steward.lean ====
section
/-!
DEFINITION. The steward: its accesses, queue control blocks, launch packets, completion records, gangs and their
placement, pre-emption, resumption, exit, thermal migration and receive cycles (spec/11_scheduling.md R226 to R247;
spec/12_traps.md R252, R254). Its accesses under PTROOT are made in supervisor mode (DESIGN CHOICE, log 29).
-/
namespace Sys2Proof.Machine

/-! ### The steward's accesses -/

/-- Why an access of the steward faults, beside a failed check: uncorrectable data, at an address and from a source; or an
address outside the partition's grant, with the cause and TVAL of its class (R255, R259). -/
inductive StwBad where
  | data (pa src : Nat)
  | outside (code : Byte) (tval : Word) (pa : Nat)
  deriving DecidableEq, Repr

/-- How an access of the steward ends: a fault of the block, ring or area, or a stall, which is no fault: at a page under
migration (R184), or else at a line held until a task commits (R222). -/
inductive Stw (α : Type) where
  | ok (x : α)
  | fault (bad : Option StwBad)
  | stall (migrating : Bool)

/-- Go on with what an access gave. -/
def thenStw {α β : Type} (x : Stw α) (k : α → Stw β) : Stw β :=
  match x with
  | .ok a => k a
  | .fault b => .fault b
  | .stall m => .stall m

/-- The hart of an island's steward core that runs the placement code: the first, or the other where that is the
monitor hart (DESIGN CHOICE, log 29). -/
def placementHart (s : State) (n : Nat) : Nat :=
  if monitorHart s = 5120 + 2 * n then 5120 + 2 * n + 1 else 5120 + 2 * n

/-- The steward works: the hart that runs its code is neither gated, frozen nor halted (R255, R256, R263, R279). -/
def stewardRuns (s : State) (n : Nat) : Bool :=
  !hartGated s (placementHart s n) && !(hart s (placementHart s n)).freeze.isSet

/-- A stall at a page under migration has the access tried again 256 cycles later (R184); at a held line it is tried
again at once. -/
def stewardStall (s : State) (n : Nat) (migrating : Bool) : State :=
  if migrating then onIsland s n fun i => { i with recheck := s.time + 256 } else s

/-- What a faulting access leaves: the record of uncorrectable data it consumed (R259, R261), or the placement hart frozen
outside its grant (R255). -/
def stewardBad (s : State) (n : Nat) (bad : Option StwBad) : State :=
  match bad with
  | some (.data pa src) => errorRecord s (partOfIsland s n) n
      { code := 0xC0 + BitVec.ofNat 8 src, master := 1, place := hartNumber (placementHart s n), addr := pa }
  | some (.outside code tval pa) => freezeHart s (placementHart s n) 1 code tval pa
  | none => s

/-- Check an access of an island's steward, or of its context port, under a PTROOT: its reads stall at a page under
migration, as its writes do (R184). -/
def stewardCheck (s : State) (n : Nat) (pt : Word) (kind : AccKind) (va : Word) (len : Nat) :
    Stw (State × List Piece) :=
  let a : Access :=
    { hart := placementHart s n, mode := .supervisor, ptbase := pt, side := .scalar, kind := kind,
      port := .slot (slotOf (placementHart s n)), context := true }
  match checkRun s a (len / 4096 + 2) va len with
  | .ok r => .ok r
  | .error (_, .migrating _) => .stall true
  | .error (_, .held) => .stall false
  | .error (_, .trap code tval) => .fault (if 0xC0 ≤ code then some (.data tval.toNat (code - 0xC0).toNat) else none)
  | .error (_, .violation code tval pa) => .fault (some (.outside code tval pa))

/-- Read bytes under a PTROOT; a line that its home holds until a task commits is waited for (R222). -/
def stewardRead (s : State) (n : Nat) (pt va : Word) (len : Nat) : Stw (State × List Byte) :=
  thenStw (stewardCheck s n pt .load va len) fun r =>
    let as := pieceBytes r.2
    if homeHeld r.1 none r.2 then .stall false
    else match as.findSome? fun a => poisonAt r.1 a 1 with
      | some p => .fault (some (.data p.1 p.2))
      | none => .ok (touch readHome r.1 (spansOf r.2), as.map (agentByte r.1 (.steward n)))

/-- Write bytes under a PTROOT. -/
def stewardWrite (s : State) (n : Nat) (pt va : Word) (bs : List Byte) : Stw State :=
  thenStw (stewardCheck s n pt .store va bs.length) fun r =>
    .ok (r.2.foldl (fun (acc : State × List Byte) p =>
      (agentStore acc.1 (.steward n) p.pa (acc.2.take p.len) (pins := pinsOf [p]), acc.2.drop p.len)) (r.1, bs)).1

/-! ### Queue control blocks (R228) -/

/-- A queue control block. -/
structure Qcb where
  ringBase : Word
  ringLog2 : Nat
  maxPrio : Nat
  enabled : Bool
  wrIdx : Nat
  rdIdx : Nat
  ptroot : Word
  cplBase : Word
  cplLog2 : Nat
  cplIdx : Nat
  deriving DecidableEq, Repr

/-- A field of little-endian bytes. -/
def numAt (bs : List Byte) (at_ n : Nat) : Nat := natOfBytes (sliceOf bs at_ n)

/-- Read the block at a physical address in ordinary memory: nothing where it faults or is malformed. -/
def readQcb (s : State) (n pa : Nat) : Option Qcb :=
  let ok := answers s pa && (poisonAt s pa 64).isNone
    && match partOfIsland s n with
      | some v => granted s v pa
      | none => false
  let bs := agentBytes s (.steward n) pa 64
  let c : Qcb := ⟨w64 (numAt bs 0 8), numAt bs 8 4, numAt bs 12 1, numAt bs 13 1 == 1, numAt bs 16 8, numAt bs 24 8,
    w64 (numAt bs 32 8), w64 (numAt bs 40 8), numAt bs 48 4, numAt bs 56 8⟩
  if ok && c.ringBase.toNat % 4096 == 0 && decide (4 ≤ c.ringLog2) && decide (c.ringLog2 ≤ 16)
      && decide (c.maxPrio ≤ 3) && decide (numAt bs 13 1 ≤ 1) && numAt bs 14 2 == 0
      && c.cplBase.toNat % 4096 == 0 && decide (4 ≤ c.cplLog2) && decide (c.cplLog2 ≤ 16) && numAt bs 52 4 == 0
      && decide (c.rdIdx ≤ c.wrIdx) && decide (c.wrIdx - c.rdIdx ≤ 2 ^ c.ringLog2) then some c else none

/-- Why a block that cannot be read faults: it lies outside the grant of the island's function, or holds uncorrectable data
(R255, R259). -/
def qcbBad (s : State) (n pa : Nat) : Option StwBad :=
  if !answers s pa then none
  else if (partOfIsland s n).any (fun v => granted s v pa) then (poisonAt s pa 64).map fun p => .data p.1 p.2
  else some (.outside 0x25 (w64 pa) pa)

/-- Read the block for use: a line of it that its home holds is waited for (R222). -/
def useQcb (s : State) (n pa : Nat) : Stw Qcb :=
  if lineHeld s (placementHart s n) pa then .stall false
  else match readQcb s n pa with
    | some c => .ok c
    | none => .fault (qcbBad s n pa)

/-- A block or ring that is malformed or faults stops its slot (R228). -/
def blockFault (s : State) (n q : Nat) (bad : Option StwBad) : State :=
  decisionRecord (onSlot (stewardBad s n bad) n q fun x => { x with err := true, mapped := false, pend := false, look := false }) n
    { kind := 5, reason := 0x0B, slot := q }

/-- Write a completion record and advance CPLIDX (R230). -/
def writeCompletion (s : State) (n : Nat) (r : Completion) : Stw State :=
  thenStw (useQcb s n r.qcb) fun c =>
    let bs := wideBytes r.cookie 8 ++ bytesOfNat 1 r.status ++ bytesOfNat 1 r.code ++ bytesOfNat 2 r.gang
      ++ bytesOfNat 4 r.preempts ++ dwordBytes (timeOf s n) ++ bytesOfNat 4 r.migrates ++ bytesOfNat 4 0
    thenStw (stewardWrite s n c.ptroot (c.cplBase + w64 (32 * (c.cplIdx % 2 ^ c.cplLog2))) bs) fun s1 =>
      .ok (agentStore s1 (.steward n) (r.qcb + 56) (dwordBytes (c.cplIdx + 1)) none true)

/-- A block or a completion ring that faults leaves its record unwritten and stops the slot that still serves the
block (R228; DEDUCED, log 80). -/
def completionFault (s : State) (n : Nat) (r : Completion) (bad : Option StwBad) : State :=
  let x := slot s n r.slot
  if x.mapped && x.qcbpa.toNat == r.qcb then blockFault s n r.slot bad else stewardBad s n bad

/-- Write a completion record, behind those that still wait; at a page under migration it waits itself (R184). -/
def completionRecord (s : State) (n : Nat) (r : Completion) : State :=
  let wait := onIsland s n fun i => { i with completions := i.completions ++ [r] }
  if !(island s n).completions.isEmpty then wait
  else match writeCompletion s n r with
    | .ok s1 => s1
    | .fault b => completionFault s n r b
    | .stall m => stewardStall wait n m

/-- Write the oldest completion record that waits, if its page lets it (R184). -/
def flushCompletion (s : State) (n : Nat) : State :=
  match (island s n).completions with
  | [] => s
  | r :: rs =>
    let s0 := onIsland s n fun i => { i with completions := rs }
    match writeCompletion s0 n r with
    | .ok s1 => s1
    | .fault b => completionFault s0 n r b
    | .stall m => stewardStall s n m

/-! ### Launch packets (R229, R233) -/

/-- A packet of 64 bytes. -/
def packetOf (bs : List Byte) : Packet :=
  { level := numAt bs 1 1, size := numAt bs 2 1, lgroups := numAt bs 3 1, hpc := numAt bs 4 1
    tileharts := numAt bs 5 1, srows := numAt bs 8 2, brows := numAt bs 10 2, pc := w64 (numAt bs 16 8)
    arg0 := w64 (numAt bs 24 8), arg1 := w64 (numAt bs 32 8), save := w64 (numAt bs 40 8)
    cookie := w64 (numAt bs 48 8), stack := w64 (numAt bs 56 8) }

/-- A legal S (R60). -/
def legalRows (n : Nat) : Bool := n ∈ [0, 512, 1024, 2048, 4096]
/-- The LOCALSPLIT value of a legal S. -/
def splitOf (rows : Nat) : BitVec 3 :=
  if rows = 512 then 1 else if rows = 1024 then 2 else if rows = 2048 then 3 else if rows = 4096 then 4 else 0
/-- The lowest free gang-table entry (R234). -/
def freeEntry (s : State) (n : Nat) : Option Nat :=
  (List.range 256).find? fun e => (tabGet (island s n).gangs e).isNone

/-- The first failing check of R233. "Above bit 47" is read as a non-zero bit above bit 47 (DEDUCED, log 30). -/
def rejectCode (s : State) (n : Nat) (c : Qcb) (bs : List Byte) : Option Nat :=
  let p := packetOf bs
  let high (a : Word) : Bool := decide (2 ^ 48 ≤ a.toNat)
  if numAt bs 0 1 ≠ 1 ∨ numAt bs 6 2 ≠ 0 ∨ numAt bs 12 4 ≠ 0 then some 1
  else if p.size = 0 ∨ 64 < p.size then some 2
  else if p.hpc = 0 ∨ 4 < p.hpc then some 3
  else if !(p.lgroups ∈ [0, 1, 2, 4]) ∨ 4 < p.hpc * p.lgroups then some 4
  else if !legalRows p.srows then some 5
  else if 1 < p.tileharts then some 6
  else if 4096 < p.brows then some 7
  else if c.maxPrio < p.level then some 8
  else if p.pc.toNat % 4 ≠ 0 ∨ p.save.toNat % 4096 ≠ 0 ∨ high p.pc ∨ high p.save ∨ high p.stack then some 9
  else if (freeEntry s n).isNone then some 10
  else none

/-- Reject a packet (R233). -/
def rejectPacket (s : State) (n q qcb code : Nat) (cookie : Word) : State :=
  let s1 := completionRecord s n ⟨q, qcb, cookie, 1, code, 0xFFFF, 0, 0⟩
  decisionRecord (onIsland s1 n fun i => { i with cntReject := i.cntReject + 1 }) n
    { kind := 5, reason := code, slot := q }

/-- Admit a packet to the waiting order (R234, R236). -/
def admitPacket (s : State) (n q qcb : Nat) (c : Qcb) (p : Packet) : State :=
  match freeEntry s n with
  | none => s
  | some e =>
    let g : Gang :=
      { packet := p, slot := q, qcb := qcb, ringIndex := c.rdIdx, ptroot := c.ptroot, phase := .waiting
        admitted := timeOf s n, waited := 0, ran := 0, harts := [], saved := false, budget := 0, reason := 0
        barriers := 0, broken := false, preempts := 0, migrates := 0 }
    onIsland s n fun i => { i with gangs := tabSet i.gangs e g }

/-- Parse the next packet of a block, rejecting it with 0x0C for a retired slot (R231, R233). -/
def parseOne (s : State) (n q qcb : Nat) (c : Qcb) (retire : Bool) : Stw State :=
  thenStw (stewardRead s n c.ptroot (c.ringBase + w64 (64 * (c.rdIdx % 2 ^ c.ringLog2))) 64) fun r =>
    let p := packetOf r.2
    let s1 := match (if retire then some 12 else rejectCode r.1 n c r.2) with
      | some code => rejectPacket r.1 n q qcb code p.cookie
      | none => admitPacket r.1 n q qcb c p
    .ok (agentStore s1 (.steward n) (qcb + 24) (dwordBytes (c.rdIdx + 1)))

/-- PACKET_PARSE: the steward looks at a mapped slot's block and parses one packet (R228, R233). -/
def execPacketParse (n q : Nat) (s : State) : Out :=
  let sl := slot s n q
  if !sl.mapped || !sl.look || !stewardRuns s n then .next s
  else
    let done : Stw State := thenStw (useQcb s n sl.qcbpa.toNat) fun c =>
      if !c.enabled || c.rdIdx = c.wrIdx then .ok (onSlot s n q fun x => { x with look := false, pend := false })
      else parseOne s n q sl.qcbpa.toNat c false
    match done with
    | .ok s1 => .next s1
    | .fault b => .next (blockFault s n q b)
    | .stall m => .next (stewardStall s n m)

/-- A notify: it pends on a mapped slot, and on one whose MAPPED is cleared in the same cycle; it is dropped on another
(R226, R231). -/
def notifySlot (s : State) (n q : Nat) : State :=
  onSlot s n q fun x =>
    if x.mapped then { x with pend := true, look := true }
    else if x.clearedAt = some s.time then { x with pend := true } else { x with drop := true }

/-- Map a slot: the steward reads its block at once (R231). -/
def mapSlot (s : State) (n q : Nat) : State :=
  let s1 := onSlot s n q fun x => { x with mapped := true, look := true }
  match useQcb s1 n (slot s1 n q).qcbpa.toNat with
  | .fault b => blockFault s1 n q b
  | _ => s1

/-- Parse or reject the packets of an old block up to the WRIDX read, so many at most (R231). -/
def closePackets (n q : Nat) (k : Closing) (upTo : Nat) : Nat → State → State × Stw Unit
  | 0, s => (s, .ok ())
  | fuel + 1, s =>
    match useQcb s n k.block with
    | .fault b => (s, .fault b)
    | .stall m => (s, .stall m)
    | .ok c =>
      if !c.enabled || decide (upTo ≤ c.rdIdx) then (s, .ok ())
      else match parseOne s n q k.block c k.retire with
        | .ok s1 => closePackets n q k upTo fuel s1
        | .fault b => (s, .fault b)
        | .stall m => (s, .stall m)

/-- Go on with the oldest unmapping of a slot (R231 steps 2 to 4): WRIDX is read once, the packets up to it are parsed or
rejected, and the unmap is recorded. It pauses where an access stalls (R184). -/
def closeSlot (s : State) (n q : Nat) : State :=
  match (slot s n q).closing with
  | [] => s
  | k :: ks =>
    let ended (s : State) : State := onSlot s n q fun x => { x with closing := ks }
    match useQcb s n k.block with
    | .fault b => blockFault (ended s) n q b
    | .stall m => stewardStall s n m
    | .ok c =>
      let upTo := k.upTo.getD c.wrIdx
      match closePackets n q k upTo (upTo - c.rdIdx) s with
      | (s1, .ok ()) => decisionRecord (ended s1) n { kind := 6, slot := q }
      | (s1, .fault b) => blockFault (ended s1) n q b
      | (s1, .stall m) => stewardStall (onSlot s1 n q fun x => { x with closing := { k with upTo := some upTo } :: ks }) n m

/-- Unmap a slot: MAPPED is cleared, and the packets of its block are settled (R231). -/
def unmapSlot (s : State) (n q : Nat) (retire : Bool) : State :=
  closeSlot (onSlot s n q fun x => { x with
    mapped := false, pend := false, look := false, clearedAt := some s.time
    closing := x.closing ++ [⟨x.qcbpa.toNat, retire, none⟩] }) n q

/-! ### Eligible cores (R234) -/

/-- A context is loaded in the slot of a hart. -/
def isLoaded (s : State) (h : Nat) : Bool := (hart s h).started || (hart s h).stopped
/-- The places other launches have reserved on a core: hart and LANEPART field. -/
def reservedOn (s : State) (c : Nat) : List (Nat × Nat) :=
  ((island s (islandOfCore c)).gangs.flatMap fun p => p.2.reserved.map (·.2.2)).filter fun p => coreOf p.1 == c
/-- The launches that have reserved a place on a core. -/
def launchesOn (s : State) (c : Nat) : List Gang :=
  ((island s (islandOfCore c)).gangs.map (·.2)).filter fun g => g.reserved.any fun p => coreOf p.2.2.1 == c
/-- A slot is taken: a context is loaded in it, or a launch has reserved it. -/
def isTaken (s : State) (h : Nat) : Bool := isLoaded s h || (reservedOn s (coreOf h)).any (·.1 == h)
/-- The free slots of a core, lowest first. One that thermal control has disabled (R240) is not free, though R234 names only
loaded contexts and reservations: a hart placed in it would not issue (DESIGN CHOICE, log 121). -/
def freeSlots (s : State) (c : Nat) : List Nat :=
  (slotsOf c).filter fun sl => !isTaken s (hartAt c sl) && !(sl ∈ (core s c).disabled)
/-- No context is loaded on the core. -/
def coreEmpty (s : State) (c : Nat) : Bool := (hartsOn c).all fun h => !isTaken s h
/-- A core holds a context that the steward placed (R234). -/
def isManaged (s : State) (c : Nat) : Bool :=
  (island s (islandOfCore c)).gangs.any fun p => p.2.harts.any fun x => coreOf x.2 == c
/-- The lane groups that a field or a grant of the core uses. -/
def usedGroups (s : State) (c : Nat) : Nat :=
  (slotsOf c).foldl (fun acc sl =>
    acc ||| (laneField (core s c).lanepart sl).toNat ||| (hart s (hartAt c sl)).groups.toNat) 0
/-- The lane groups no field, no grant and no reservation of the core uses. -/
def freeGroups (s : State) (c : Nat) : Nat := 15 - (reservedOn s c).foldl (fun acc p => acc ||| p.2) (usedGroups s c)
/-- The first k legal fields of so many groups each among the free ones. -/
def pickFields (lg k free : Nat) : Option (List Nat) :=
  let cand := if lg = 1 then [1, 2, 4, 8] else if lg = 2 then [3, 12] else [15]
  if lg = 0 then some (List.replicate k 0)
  else
    let ok := cand.filter fun f => f &&& free == f
    if k ≤ ok.length then some (ok.take k) else none
/-- What a hart of a launch asks of its core. -/
structure Demand where
  hpc : Nat
  lgroups : Nat
  tile : Bool
  srows : Nat
  deriving DecidableEq, Repr
/-- What a packet asks. -/
def demandOf (p : Packet) : Demand := ⟨p.hpc, p.lgroups, p.tileharts == 1, p.srows⟩
/-- No hart of a core owns its engine, nor will one of a launch that has reserved a place there. -/
def engineFree (s : State) (c : Nat) : Bool :=
  (hartsOn c).all (fun h => (hart s h).ms == 0) && (launchesOn s c).all fun g => g.packet.tileharts != 1
/-- A core's scratchpad has S rows, or may be given them: no context is loaded there. A launch that has reserved a place
on it settles S. -/
def rowsFit (s : State) (rows c : Nat) : Bool :=
  match launchesOn s c with
  | g :: _ => g.packet.srows == rows
  | [] => spadRows (core s c).split == rows || coreEmpty s c
/-- A core is eligible (R234); the rule on members of the same gang is looked at by the placement itself. -/
def eligible (s : State) (d : Demand) (c : Nat) : Bool :=
  decide (d.hpc ≤ (freeSlots s c).length) && (pickFields d.lgroups d.hpc (freeGroups s c)).isSome
    && (!d.tile || engineFree s c) && rowsFit s d.srows c
/-- The cores a gang is placed on, lowest first, if every member fits. -/
def placeOn (s : State) (n : Nat) (p : Packet) : Option (List Nat) :=
  let cs := ((List.range 64).map (64 * n + ·)).filter (eligible s (demandOf p))
  if p.size ≤ cs.length then some (cs.take p.size) else none

/-! ### Loading and unloading -/

/-- What stays with a slot when its context changes: the interrupt registers of the debug block (R277). -/
def keepSlot (old h : Hart) : Hart := { h with ipend := old.ipend, imask := old.imask, timecmp := old.timecmp }

/-- A hart whose context is unloaded: its lane groups and the engine are released, with VDECL, VL and VLMAX zero, and
nothing of it waits or is queued; every other register keeps its value (R59, R163, R235, R443; DESIGN CHOICE, log 73). -/
def unloaded (x : Hart) : Hart :=
  { keepSlot x {} with
    x := x.x, f := x.f, pc := x.pc, vstart := x.vstart, flags := x.flags, rm := x.rm, nbv := x.nbv, srseed := x.srseed
    lc := x.lc, instret := x.instret, tvec := x.tvec, epc := x.epc, causeCode := x.causeCode, causeOrig := x.causeOrig
    tval := x.tval, scratch := x.scratch, ptbase := x.ptbase, prio := x.prio, v := x.v, k := x.k
    badX := x.badX, badF := x.badF, badV := x.badV }

/-- Unload a slot. -/
def unloadHart (s : State) (h : Nat) : State :=
  onCore (onHart s h unloaded) (coreOf h) fun k => { k with lanepart := setLaneField k.lanepart (slotOf h) 0 }

/-- The number of a gang (R234). -/
def gangNumber (n e : Nat) : Nat := 256 * n + e

/-- The registers a hart of a launch starts with (R229, R234). -/
def freshHart (g : Gang) (n e p c : Nat) (tvec scratch : Word) (old : Hart) : Hart :=
  let k := g.packet
  let x0 : Hart := keepSlot old {}
  let x1 := setX (setX (setX (setX (setX x0 2 (k.stack - w64 (65536 * (p + 64 * c)))) 10 k.arg0) 11 k.arg1)
    12 (w64 p)) 13 (w64 c)
  { x1 with
    pc := k.pc, mode := .user, started := true, nbv := 3, ptbase := ptbaseOf g.ptroot
    prio := BitVec.ofNat 2 k.level, tvec := tvecOf tvec, scratch := scratch
    vs := if 0 < k.lgroups then 1 else 0, ms := if k.tileharts = 1 ∧ c = 0 then 1 else 0
    gang := if c = 0 then ⟨true, BitVec.ofNat 16 (gangNumber n e), BitVec.ofNat 6 (k.size - 1), BitVec.ofNat 6 p⟩
      else {} }

/-- The places of a launch: companion index and member index with the hart and its LANEPART field. -/
def launchPlaces (s : State) (g : Gang) (cs : List Nat) : List (Nat × Nat × Nat × Nat) :=
  (cs.zipIdx).flatMap fun cp =>
    let fields := (pickFields g.packet.lgroups g.packet.hpc (freeGroups s cp.1)).getD []
    (((freeSlots s cp.1).take g.packet.hpc).zipIdx).map fun sc =>
      (cp.2, sc.2, hartAt cp.1 sc.1, fields.getD sc.2 0)

/-- The offset of a hart's region in the save area (R238). -/
def hartRegion (g : Gang) (p c : Nat) : Word := g.packet.save + w64 (0x40000 * (p + 64 * c))
/-- The offset of a member core's region (R238). -/
def coreRegion (g : Gang) (p : Nat) : Word := g.packet.save + w64 (0x4000000 + p * 0x600000)

/-- Read every hart's TVEC and SCRATCH for placement (R252). -/
def placementRegs (s : State) (n : Nat) (g : Gang) : List (Nat × Nat × Nat × Nat) → Stw (State × List (Word × Word))
  | [] => .ok (s, [])
  | x :: xs =>
    thenStw (stewardRead s n g.ptroot (hartRegion g x.1 x.2.1 + 0x3FFF0) 16) fun r =>
    thenStw (placementRegs r.1 n g xs) fun l =>
      .ok (l.1, (w64 (numAt r.2 0 8), w64 (numAt r.2 8 8)) :: l.2)

/-- The mask of a set of cores of an island. -/
def coreMask (cs : List Nat) : Nat := (addNew [] (cs.map (· % 64))).foldl (fun m c => m + 2 ^ c) 0

/-- End a gang: its harts are unloaded, its completion record is written, its entry is free (R230, R235). -/
def endGang (s : State) (n e status : Nat) : State :=
  match tabGet (island s n).gangs e with
  | none => s
  | some g =>
    let s1 := g.harts.foldl (fun s p => unloadHart s p.2) s
    let s2 := onIsland s1 n fun i => { i with gangs := tabDel i.gangs e }
    completionRecord s2 n ⟨g.slot, g.qcb, g.packet.cookie, status, 0, gangNumber n e, g.preempts, g.migrates⟩

/-! ### The save area (R238, R239) -/

/-- An inbox in the save area (R238): in the header of an entry each of the four fields takes a doubleword in the order of
the rule, the member index stored plus 1, with 0 for none, and the arrival order counted from 1 (DESIGN CHOICE, log
110). -/
def inboxImage (l : List Message) : List Byte :=
  (List.range 8).flatMap fun i =>
    match l[i]? with
    | some m =>
      let bs := m.bytes
      dwordBytes bs.length ++ dwordBytes m.sender ++ dwordBytes (match m.member with | some k => k + 1 | none => 0)
        ++ dwordBytes (i + 1) ++ List.replicate 32 0 ++ bs ++ List.replicate (4096 - bs.length) 0
    | none => List.replicate 4160 0
/-- The messages of a saved inbox; whether a sender was of the hart's own gang is kept beside the area, with the inbox
as it was saved. -/
def inboxOfImage (bs : List Byte) (saved : List Message) : List Message :=
  (List.range 8).filterMap fun i =>
    let b := sliceOf bs (4160 * i) 4160
    if numAt b 24 8 = 0 then none
    else some ⟨sliceOf b 64 (numAt b 0 8), numAt b 8 8,
      if numAt b 16 8 = 0 then none else some (numAt b 16 8 - 1), saved[i]?.any (·.own)⟩

/-- The scalar block of a hart region, from offset 0 (R238); the two doublewords of barrier state hold the arrival and the
count of barriers passed (DESIGN CHOICE, log 119). -/
def scalarBlock (h : Hart) : List Byte :=
  h.x.toList.flatMap (wideBytes · 8) ++ h.f.toList.flatMap (wideBytes · 8) ++ wideBytes h.pc 8 ++ dwordBytes 0xE0
    ++ [h.vl.setWidth 64, vdeclWord h, h.vstart.setWidth 64, fpctlWord h, h.nbv.setWidth 64, h.srseed,
        h.lc.setWidth 64, h.instret, tdomWord h, statusWord h, h.tvec, h.epc, causeWord h, h.tval, h.vepc, h.scratch,
        h.ptbase, h.prio.setWidth 64, gangWord h.gang, wBool h.arrived, h.barrierCount].flatMap (wideBytes · 8)

/-- The hart of a saved scalar block (R239); ENTER's own state and the mode moved with it are kept beside it. A field
that no write could have left as the area now has it takes what a write of it would leave (DESIGN CHOICE, log 39). -/
def hartOfBlock (bs : List Byte) (old : Hart) : Hart :=
  let r (i : Nat) : Word := w64 (numAt bs (0x210 + 8 * i) 8)
  let st := r 9
  let sv (hi lo : Nat) (w : Nat) (x : Word) : BitVec w := BitVec.ofNat w (bits x hi lo)
  { keepSlot old {} with
    x := Vector.ofFn fun (i : Fin 32) => w64 (numAt bs (8 * i.val) 8)
    f := Vector.ofFn fun (i : Fin 32) => w64 (numAt bs (256 + 8 * i.val) 8)
    pc := w64 (numAt bs 0x200 8) &&& ~~~3#64, started := true
    vl := sv 13 0 14 (r 0), lanes := sv 12 8 5 (r 1), regs := sv 5 4 2 (r 1), ew := sv 1 0 2 (r 1)
    vlmax := BitVec.ofNat 14 (rlen (bits (r 1) 12 8) (sv 5 4 2 (r 1)) / (8 * 2 ^ bits (r 1) 1 0))
    vstart := sv 13 0 14 (r 2), flags := sv 10 5 6 (r 3), rm := sv 2 0 3 (r 3), nbv := sv 7 0 8 (r 4)
    srseed := r 5, lc := sv 31 0 32 (r 6), instret := r 7, tmode := bit (r 8) 63, dom := sv 3 0 4 (r 8)
    late := bit st 10, ms := sv 7 6 2 st, vs := sv 5 4 2 st, pmode := pmodeOf (sv 3 2 2 st), pie := bit st 1, ie := bit st 0
    tvec := tvecOf (r 10), epc := r 11 &&& ~~~3#64, causeOrig := sv 15 8 8 (r 12), causeCode := sv 7 0 8 (r 12), tval := r 13
    vepc := r 14, scratch := r 15, ptbase := ptbaseOf (r 16), prio := sv 1 0 2 (r 17)
    gang := ⟨bit (r 18) 63, sv 31 16 16 (r 18), sv 11 6 6 (r 18), sv 5 0 6 (r 18)⟩
    arrived := r 19 != 0, barrierCount := r 20 }

/-- The state is live: its field is clean or dirty (R238). -/
def isLive (v : BitVec 2) : Bool := v == 2 || v == 3

/-- What a saved hart keeps beside its region: ENTER's state (R394), its task, its mode with monitor mode's own trap
registers, its held convoy, a GEXIT it has written, and the inboxes as they were saved (R238). -/
def savedShell (h : Hart) : Hart :=
  { ({} : Hart) with enter := h.enter, task := h.task, mode := h.mode, mon := h.mon, cfrid := h.cfrid
                     heldConvoy := h.heldConvoy, heldAdvance := h.heldAdvance, seeded := h.seeded
                     aside := h.aside, boundaryTrap := h.boundaryTrap, exitAsked := h.exitAsked, inbox0 := h.inbox0, inbox1 := h.inbox1 }

/-- What of a hart is saved holds uncorrectable data, which the context port consumes (R259; DESIGN CHOICE, log 116). -/
def badContext (s : State) (h : Nat) : Bool :=
  let x := hart s h
  x.badX != 0 || x.badF != 0 || (isLive x.vs && x.badV != 0) || (isLive x.ms && !(core s (coreOf h)).badTiles.isEmpty)

/-- Write a hart's region (R238). -/
def saveHart (s : State) (n : Nat) (g : Gang) (p c h : Nat) : Stw State :=
  let x := hart s h
  let at_ := hartRegion g p c
  if badContext s h then .fault (some (.data 0 6)) else
  let put (s : State) (off : Word) (bs : List Byte) : Stw State := stewardWrite s n g.ptroot (at_ + off) bs
  thenStw (put s 0 (scalarBlock x)) fun s1 =>
  thenStw (if isLive x.vs then put s1 0x1000 (vectorImage x) else .ok s1) fun s2 =>
  thenStw (if isLive x.ms then put s2 0x14000 (matrixImage (core s (coreOf h))) else .ok s2) fun s3 =>
    put s3 0x21000 (inboxImage x.inbox0 ++ inboxImage x.inbox1)

/-- The B-store sidecar bytes of rows from 0 of a slice (R124). -/
def sideBytes (c : Core) (j rows : Nat) : List Byte := memReadBytes c.bsc (0x2000 * j) (2 * rows)

/-- The rows of a member core that are saved hold uncorrectable data (R259; DESIGN CHOICE, log 116). -/
def badRowsSaved (s : State) (k : Packet) (c : Nat) : Option StwBad :=
  let data (a n : Nat) : Option StwBad := (poisonAt s a n).map fun p => .data p.1 p.2
  ((data (spadBase c) (31 * k.srows * 8)).or
    ((List.range 32).findSome? fun j => data (bstoreBase c + j * 0x20000) (32 * k.brows))).or
    (if (core s c).badSides.any fun w => decide (w % 0x2000 < 2 * k.brows) then some (.data 0 6) else none)

/-- Write a member core's region (R238). -/
def saveCore (s : State) (n : Nat) (g : Gang) (p c : Nat) : Stw State :=
  let at_ := coreRegion g p
  let k := g.packet
  if (badRowsSaved s k c).isSome then .fault (badRowsSaved s k c) else
  let put (s : State) (off : Nat) (bs : List Byte) : Stw State :=
    if bs.isEmpty then .ok s else stewardWrite s n g.ptroot (at_ + w64 off) bs
  thenStw (put s 0 (memReadBytes s.mem (spadBase c) (31 * k.srows * 8))) fun s1 =>
    (List.range 32).foldl (fun (acc : Stw State) j => thenStw acc fun s =>
      thenStw (put s (0x100000 + j * 0x20000) (memReadBytes s.mem (bstoreBase c + j * 0x20000) (32 * k.brows))) fun s' =>
        put s' (0x500000 + j * 0x2000) (sideBytes (core s c) j k.brows)) (.ok s1)

/-- A saved hart put back (R239): registers, vector and matrix state, inboxes. -/
def restoreHart (s : State) (n : Nat) (g : Gang) (p c h field : Nat) (shell : Hart) : Stw State :=
  let at_ := hartRegion g p c
  let get (s : State) (off : Word) (len : Nat) : Stw (State × List Byte) := stewardRead s n g.ptroot (at_ + off) len
  thenStw (get s 0 0x2B8) fun r1 => thenStw (get r1.1 0x21000 66560) fun r2 =>
    let x0 := hartOfBlock r1.2 (hart s h)
    let x1 : Hart := { x0 with
      inbox0 := inboxOfImage (r2.2.take 33280) shell.inbox0, inbox1 := inboxOfImage (r2.2.drop 33280) shell.inbox1
      groups := if x0.lanes = 0 then 0 else BitVec.ofNat 4 field
      enter := shell.enter, task := shell.task, mode := shell.mode, mon := shell.mon, cfrid := shell.cfrid
      heldConvoy := shell.heldConvoy, heldAdvance := shell.heldAdvance, seeded := shell.seeded
      aside := shell.aside, boundaryTrap := shell.boundaryTrap, exitAsked := shell.exitAsked }
    thenStw (if isLive x0.vs then get r2.1 0x1000 (vectorImageSize x0.lanes.toNat) else .ok (r2.1, [])) fun r3 =>
    thenStw (if isLive x0.ms then get r3.1 0x14000 matrixImageSize else .ok (r3.1, [])) fun r4 =>
      let x2 := if isLive x0.vs then { loadVector r3.2 x1 with vs := 3 } else x1
      let x3 := if isLive x0.ms then { x2 with ms := 3 } else x2
      let s1 := onHart r4.1 h fun _ => x3
      .ok (if isLive x0.ms then onCore s1 (coreOf h) (loadMatrix r4.2)
        else if x0.ms = 1 then onCore s1 (coreOf h) zeroMatrix else s1)

/-- A member core's rows put back; its other rows read zero (R239). -/
def restoreCore (s : State) (n : Nat) (g : Gang) (p c : Nat) : Stw State :=
  let at_ := coreRegion g p
  let k := g.packet
  let get (s : State) (off len : Nat) : Stw (State × List Byte) :=
    if len = 0 then .ok (s, []) else stewardRead s n g.ptroot (at_ + w64 off) len
  let s0 := onCore (clearRange (clearRange s (spadBase c) 0x100000) (bstoreBase c) 0x400000) c
    fun x => { x with bsc := [], badSides := [] }
  thenStw (get s0 0 (31 * k.srows * 8)) fun r =>
    (List.range 32).foldl (fun (acc : Stw State) j => thenStw acc fun s1 =>
      thenStw (get s1 (0x100000 + j * 0x20000) (32 * k.brows)) fun r1 =>
      thenStw (get r1.1 (0x500000 + j * 0x2000) (2 * k.brows)) fun r2 =>
        .ok (onCore { r2.1 with mem := memWriteBytes r2.1.mem (bstoreBase c + j * 0x20000) r1.2 } c fun x =>
          { x with bsc := memWriteBytes x.bsc (0x2000 * j) r2.2 }))
      (.ok { r.1 with mem := memWriteBytes r.1.mem (spadBase c) r.2 })

end Sys2Proof.Machine
end

