-- ==== Sys2Proof/Machine/Rounds.lean ====
section
/-!
DEFINITION. What the steward decides at a round boundary, saving a pre-empted gang, exits, and IDLE
(spec/11_scheduling.md R232 to R247; spec/12_traps.md R252, R254; spec/07_local_memory.md R166; spec/17 R356).
-/
namespace Sys2Proof.Machine

/-! ### Harts that cannot be stopped or moved -/

/-- The hart's vector and matrix queues have drained (R254). -/
def drained (h : Hart) : Bool :=
  h.vq.isEmpty && h.flight.isNone && h.sdest.isNone && h.mq.isEmpty && h.castMask.isNone
/-- An MCAST of one of the harts is in flight (R141). -/
def castInFlight (s : State) (n : Nat) (hs : List Nat) : Bool :=
  (coresOfIsland n).any fun c => (core s c).deliveries.any fun d => d.sender ∈ hs

/-- Pend cause 0xE0 + k of every loaded hart of a core. -/
def pendCore (s : State) (c k : Nat) : State :=
  (hartsOn c).foldl (fun s h => if isLoaded s h then pendIrq s h k else s) s

/-! ### Exits (R235, R245) -/

/-- The gang-table entry that holds a hart. -/
def entryOf (s : State) (h : Nat) : Option (Nat × Gang) :=
  (island s (islandOf h)).gangs.find? fun p => p.2.harts.any (·.2 == h)

/-- Members waiting in the barrier raise 0xA5 (R245); one that may not trap now (R251, R254) takes it once it may, when it
executes its GBAR again. -/
def breakBarrier (s : State) (g : Gang) : State :=
  (membersOf g).foldl (fun s h =>
    match (hart s h).wait with
    | some (.gbar d) =>
      if waitGoes s h then { raise 0xA5 (leadWord (.gbar d)) { s with cur := h } with cur := s.cur }
      else onHart s h fun x => { x with wait := none }
    | _ => s) s

/-- A hart of a launch exits: its slot is unloaded; a member breaks its gang's barrier; the last exit ends the gang
with STATUS 0x00 (R235). -/
def exitHart (s : State) (h : Nat) : State :=
  match entryOf s h with
  | none => s
  | some (e, g) =>
    let n := islandOf h
    let member := g.harts.any fun p => p.2 == h && decide (p.1 < 64)
    let g1 : Gang := { g with harts := g.harts.filter fun p => p.2 != h, broken := g.broken || member }
    let s1 := onIsland (unloadHart s h) n fun i => { i with gangs := tabSet i.gangs e g1 }
    let s2 := if member then breakBarrier s1 g1 else s1
    if g1.harts.isEmpty then endGang s2 n e 0 else s2

/-- A write of GEXIT: it counts only where it names the writer (R235), by whichever steward block of its function it comes:
R235 does not say that it must be that of the writer's own island (DESIGN CHOICE, log 122). -/
def gexitWrite (s : State) (who : Who) (v : Word) : State :=
  match who with
  | .hart h => if v = hartIdWord h ∧ (entryOf s h).isSome then onHart s h fun x => { x with exitAsked := true } else s
  | .vf _ => s

/-- IDLE (R356): a hart that has written GEXIT is unloaded; otherwise it retires when an enabled interrupt pends. -/
def execIdle (s : State) : Out :=
  .next (irrevocably s fun s =>
    if (me s).exitAsked then
      -- its queued work completes first, as wherever a hart leaves its slot (R254)
      (if drained (me s) then exitHart s s.cur else waitOn .queues s)
    else if irqWaiting s s.cur then retire s
    else waitOn .idle s)

/-- IDLE_WAKE (R356). -/
def execIdleWake (h : Nat) (s : State) : Out :=
  match (hart s h).wait with
  | some .idle => .next (if irqWaiting s h then retire { s with cur := h } else s)
  | _ => .next s

/-! ### The waiting order (R236) -/

/-- EFF of a waiting gang. -/
def effOf (i : Island) (g : Gang) : Nat := min 3 (g.packet.level + g.waited / i.age.toNat)
/-- A gang stands before another in the waiting order. -/
def ordersBefore (i : Island) (a b : Gang) : Bool :=
  let x := effOf i a
  let y := effOf i b
  decide (y < x) || (x == y && (decide (a.admitted < b.admitted) || (a.admitted == b.admitted &&
    (decide (a.slot < b.slot) || (a.slot == b.slot && decide (a.ringIndex < b.ringIndex))))))
/-- Insert into a list kept in an order. -/
def insertBy {α : Type} (lt : α → α → Bool) (x : α) : List α → List α
  | [] => [x]
  | y :: ys => if lt x y then x :: y :: ys else y :: insertBy lt x ys
/-- Sort, equal elements in their order. -/
def sortBy {α : Type} (lt : α → α → Bool) (l : List α) : List α := l.foldl (fun acc x => insertBy lt x acc) []
/-- The gangs of a phase, by entry. -/
def gangsIn (s : State) (n : Nat) (ph : GangPhase) : List (Nat × Gang) :=
  (island s n).gangs.filter fun p => p.2.phase == ph
/-- The waiting order of an island. A HEAD for which room is being made stays it, before gangs that come to wait since
(R236 step 4; DEDUCED, log 118). -/
def waitingOrder (s : State) (n : Nat) : List (Nat × Gang) :=
  let l := sortBy (fun a b => ordersBefore (island s n) a.2 b.2) ((gangsIn s n .waiting).filter (·.2.reserved.isEmpty))
  l.filter (fun p => (island s n).head == some p.1) ++ l.filter fun p => (island s n).head != some p.1

/-- Change a gang-table entry. -/
def onGang (s : State) (n e : Nat) (f : Gang → Gang) : State :=
  match tabGet (island s n).gangs e with
  | some g => onIsland s n fun i => { i with gangs := tabSet i.gangs e (f g) }
  | none => s

/-! ### Placement and resumption (R234, R239, R252) -/

/-- Load one hart of a launch: fresh (R229), or as it was saved (R239). -/
def loadOne (s : State) (n e : Nat) (g : Gang) (x : Nat × Nat × Nat × Nat) (regs : Word × Word) : Stw State :=
  let p := x.1
  let c := x.2.1
  let h := x.2.2.1
  let k := coreOf h
  let s1 := onCore s k fun q => { q with lanepart := setLaneField q.lanepart (slotOf h) x.2.2.2 }
  let load (s : State) : State := onGang s n e fun g => { g with harts := g.harts ++ [(p + 64 * c, h)] }
  if g.saved then
    match tabGet g.shells (p + 64 * c) with
    -- a hart that had exited leaves its place as it is
    | none => .ok s
    | some shell => match restoreHart s1 n g p c h x.2.2.2 shell with
      | .ok s2 =>
        let dropped := (tabGet (island s2 n).gangs e).any fun g => (p + 64 * c) ∈ g.dropped
        let held := if dropped then none else shell.task.bind fun u => (taskOf s2 u).filter fun t =>
          t.hart.isNone && t.st != .ready && t.st != .finished
        let s3 := match held with
          | some t => onTask s2 t.uid fun t => { t with hart := some h }
          | none => if shell.task.isSome then onHart s2 h idleHart else s2
        .ok (load s3)
      | r => r
  else
    let s2 := onHart s1 h (freshHart g n e p c regs.1 regs.2)
    .ok (load (if g.packet.tileharts = 1 ∧ c = 0 then onCore s2 k zeroMatrix else s2))

/-- Load the harts of a launch one after another; they start in the same cycle. -/
def loadAll (n e : Nat) (g : Gang) : List ((Nat × Nat × Nat × Nat) × (Word × Word)) → State → Stw State
  | [], s => .ok s
  | x :: xs, s => match loadOne s n e g x.1 x.2 with
    | .ok s1 => loadAll n e g xs s1
    | r => r

/-- Put the rows of the cores of the members that had been saved back (R239). -/
def restoreCores (n : Nat) (g : Gang) : List (Nat × Nat) → State → Stw State
  | [], s => .ok s
  | x :: xs, s => match restoreCore s n g x.2 x.1 with
    | .ok s1 => restoreCores n g xs s1
    | r => r

/-- Load a gang at its places, or resume it there: a fault of the reads of R252 ends it with a placement record of no
core, a fault of the save area ends it (R238). At a page under migration the placement stalls with its places
reserved, and is tried again (R184); so it does while a core's LOCALSPLIT cannot be written yet (R60; log 106). -/
def placeAt (s : State) (n e : Nat) (g : Gang) (places : List (Nat × Nat × Nat × Nat)) : State :=
  let cs := addNew [] (places.map fun x => coreOf x.2.2.1)
  let rec_ (kind place waited : Nat) (s : State) : State := decisionRecord s n
    { kind := kind, eff := effOf (island s n) g, slot := g.slot, gang := gangNumber n e, place := place, waited := waited }
  let counted (s : State) : State :=
    if g.saved then onIsland s n fun i => { i with cntResume := i.cntResume + 1 }
    else onIsland s n fun i => { i with cntPlace := i.cntPlace + 1 }
  let stall (m : Bool) : State := stewardStall (onGang s n e fun g => { g with reserved := places }) n m
  if cs.any fun c => spadRows (core s c).split != g.packet.srows && !splitFree s c then stall false else
  match placementRegs s n g places with
  | .stall m => stall m
  | .fault b => rec_ 1 0 g.waited (onIsland (endGang (stewardBad s n b) n e 2) n fun i => { i with cntPlace := i.cntPlace + 1 })
  | .ok (s0, regs) =>
    let s1 := cs.foldl (fun s c =>
      if spadRows (core s c).split = g.packet.srows then s else setSplit s c (splitOf g.packet.srows)) s0
    let s2 := onGang s1 n e fun g => { g with phase := .running, ran := 0, harts := [], reserved := [] }
    let loaded := match loadAll n e g (places.zip regs) s2 with
      | .ok s3 =>
        if g.saved then restoreCores n g (cs.zipIdx.filter fun x => g.shells.any fun q => q.1 % 64 == x.2) s3 else .ok s3
      | r => r
    match loaded with
    | .ok s3 =>
      let s4 := onGang s3 n e fun g => { g with saved := false, shells := [], dropped := [] }
      rec_ (if g.saved then 3 else 1) (coreMask cs) (if g.saved then 0 else g.waited) (counted s4)
    | .stall m => stall m
    | .fault b => endGang (stewardBad s n b) n e 2

/-- Place or resume a gang on cores. -/
def placeGang (s : State) (n e : Nat) (g : Gang) (cs : List Nat) : State := placeAt s n e g (launchPlaces s g cs)

/-- The places of a stalled launch are still its own: no context has been loaded in a slot, no field or grant has taken a
lane group of it, no hart an engine it asks for, and S can still be what it asks (R234). -/
def placesHold (s : State) (g : Gang) : Bool :=
  g.reserved.all fun x =>
    let c := coreOf x.2.2.1
    !isLoaded s x.2.2.1 && !(slotOf x.2.2.1 ∈ (core s c).disabled) && usedGroups s c &&& x.2.2.2 == 0
      && (g.packet.tileharts != 1 || (hartsOn c).all fun h => (hart s h).ms == 0)
      && (spadRows (core s c).split == g.packet.srows || !(hartsOn c).any (isLoaded s))

/-- A placement that stalled goes on (R184); where its places no longer serve it waits for others. -/
def retryPlacement (n e : Nat) (s : State) : State :=
  match tabGet (island s n).gangs e with
  | some g =>
    if g.reserved.isEmpty then s
    else if placesHold s g then placeAt s n e g g.reserved
    else onGang s n e fun g => { g with reserved := [] }
  | none => s

/-- Place the waiting gangs in their order up to the HEAD, which is answered (R236). An island of no function starts
no hart (R266). -/
def placeAll (n : Nat) : List (Nat × Gang) → State → State × Option (Nat × Gang)
  | [], s => (s, none)
  | (e, g) :: r, s =>
    if (partOfIsland s n).isNone then (s, none)
    else match placeOn s n g.packet with
      | some cs => placeAll n r (placeGang s n e g cs)
      | none => if effOf (island s n) g = 3 then (s, some (e, g)) else placeAll n r s

/-! ### Pre-emption (R236, R238) -/

/-- Send a request to every hart of a gang in one cycle (R238 step 1). -/
def requestPreempt (s : State) (n e reason : Nat) : State :=
  match tabGet (island s n).gangs e with
  | none => s
  | some g =>
    let s1 := g.harts.foldl (fun s p => onHart s p.2 fun h => { h with preemptReq := true }) s
    onGang s1 n e fun g => { g with phase := .stopping, reason := reason, budget := (island s n).nextRound }

/-- Every hart has stopped and what R238 step 2 waits for has ended. -/
def readyToSave (s : State) (n : Nat) (g : Gang) : Bool :=
  g.harts.all (fun p => (hart s p.2).preempted && !hasCommands s p.2)
    && !castInFlight s n (g.harts.map (·.2))

/-- Cancel a pre-emption whose budget ran out (R238 step 2). -/
def cancelPreempt (s : State) (n e : Nat) (g : Gang) : State :=
  let s1 := g.harts.foldl (fun s p => onHart s p.2 fun h => { h with preemptReq := false, preempted := false }) s
  decisionRecord (onGang s1 n e fun g => { g with phase := .running }) n
    { kind := 2, eff := effOf (island s n) g, reason := 3, slot := g.slot, gang := gangNumber n e }

/-- The loaded harts of a gang as (member, companion, hart), in increasing member and then companion. -/
def saveOrder (g : Gang) : List (Nat × Nat × Nat) :=
  sortBy (fun a b => decide (a.1 < b.1) || (a.1 == b.1 && decide (a.2.1 < b.2.1)))
    (g.harts.map fun p => (p.1 % 64, p.1 / 64, p.2))

/-- Save the harts one after another. -/
def saveHarts (n : Nat) (g : Gang) : List (Nat × Nat × Nat) → State → Stw State
  | [], s => .ok s
  | x :: xs, s => match saveHart s n g x.1 x.2.1 x.2.2 with
    | .ok s1 => saveHarts n g xs s1
    | r => r

/-- Save the member cores one after another. -/
def saveCores (n : Nat) (g : Gang) : List (Nat × Nat) → State → Stw State
  | [], s => .ok s
  | x :: xs, s => match saveCore s n g x.1 x.2 with
    | .ok s1 => saveCores n g xs s1
    | r => r

/-- Save a stopped gang and unload it (R238 steps 3 and 4). At a fault the save area keeps no byte of this save (DESIGN
CHOICE, log 120). -/
def saveGang (s : State) (n e : Nat) (g : Gang) : State :=
  let order := saveOrder g
  -- the member core is that of a member's first hart; a companion may have been moved to another core (R240)
  let cores := (addNew [] (order.map (·.1))).filterMap fun p => (order.find? (·.1 == p)).map fun x => (p, coreOf x.2.2)
  let saved := match saveHarts n g order s with
    | .ok s1 => saveCores n g cores s1
    | r => r
  match saved with
  | .stall m => stewardStall s n m
  | .fault b => endGang (stewardBad s n b) n e 2
  | .ok s1 =>
    let shells := g.harts.map fun p => (p.1, savedShell (hart s p.2))
    let gone (h : Nat) : Bool := g.harts.any fun p => p.2 == h
    let left (t : TaskEntry) : TaskEntry := if t.hart.any gone then { t with hart := none } else t
    let s2 := { s1 with tasks := s1.tasks.map left }
    let s3 := g.harts.foldl (fun s p => unloadHart s p.2) s2
    let s4 := onGang s3 n e fun g =>
      { g with phase := .waiting, saved := true, shells := shells, dropped := [], harts := [], waited := 0, ran := 0
               preempts := g.preempts + 1 }
    decisionRecord (onIsland s4 n fun i => { i with cntPreempt := i.cntPreempt + 1 }) n
      { kind := 2, eff := effOf (island s n) g, reason := g.reason, slot := g.slot, gang := gangNumber n e }

/-- GANG_PREEMPT_SAVE (R238). -/
def execGangPreemptSave (n e : Nat) (s : State) : Out :=
  match tabGet (island s n).gangs e with
  | some g => .next (if g.phase == .stopping && readyToSave s n g && stewardRuns s n then saveGang s n e g else s)
  | none => .next s

/-- At the round's end the pre-emptions in progress end: saved, or cancelled. -/
def settlePreemptions (s : State) (n : Nat) : State :=
  (gangsIn s n .stopping).foldl (fun s p =>
    if readyToSave s n p.2 then saveGang s n p.1 p.2 else cancelPreempt s n p.1 p.2) s

/-- The gangs that may make room for the HEAD, with the reason, in the order they are chosen (R236 step 3); equals in the
order of the gang table (DESIGN CHOICE, log 111). -/
def victims (s : State) (n : Nat) : List (Nat × Nat) :=
  let run := gangsIn s n .running
  let low := sortBy (fun a b => decide (a.2.packet.level < b.2.packet.level))
    (run.filter fun p => decide (p.2.packet.level < 3))
  let long := sortBy (fun a b => decide (b.2.ran < a.2.ran))
    (run.filter fun p => decide (3 ≤ p.2.packet.level) && decide ((island s n).quantum.toNat ≤ p.2.ran))
  low.map (fun p => (p.1, 1)) ++ long.map fun p => (p.1, 2)

/-- The state as it would be with a gang's harts unloaded. -/
def without (s : State) (n e : Nat) : State :=
  match tabGet (island s n).gangs e with
  | some g => g.harts.foldl (fun s p => unloadHart s p.2) s
  | none => s

/-- Pre-empt gangs until the HEAD would fit; `hyp` is the state without those already chosen. -/
def makeRoom (n : Nat) (p : Packet) : List (Nat × Nat) → State → State → State
  | [], _, s => s
  | v :: vs, hyp, s =>
    if (placeOn hyp n p).isSome then s
    else makeRoom n p vs (without hyp n v.1) (requestPreempt s n v.1 v.2)

/-- The HEAD is kept while gangs are being pre-empted for it (R236 step 4). -/
def keepHead (n e : Nat) (s : State) : State :=
  onIsland s n fun i => { i with head := if (gangsIn s n .stopping).isEmpty then none else some e }

/-! ### Thermal control (R240) -/

/-- The demand of one hart of a gang on the core it moves to. -/
def moveDemand (g : Gang) : Demand := { demandOf g.packet with hpc := 1 }

/-- The core a hart may move to: S is as its launch asked, or can be set at once (R60; DESIGN CHOICE, log 106). -/
def moveTarget (s : State) (g : Gang) (h : Nat) (ranking cool : List Nat) : Option Nat :=
  ranking.find? fun c => decide (c < 1280) && c ∈ cool && islandOfCore c == islandOf h && c != coreOf h
    && eligible s (moveDemand g) c && (spadRows (core s c).split == g.packet.srows || splitFree s c)
    && !g.harts.any fun p => decide (p.1 < 64) && coreOf p.2 == c

/-- A hart can leave its slot: no engine, no command, no late fault, its gang is not being pre-empted. -/
def canMove (s : State) (g : Gang) (h : Nat) : Bool :=
  g.phase == .running && (hart s h).ms == 0 && !hasCommands s h && !(hart s h).late && (hart s h).heldConvoy.isNone

/-- Move a hart to a core: its context and inboxes whole, a wait restarting there (R31, R240). MIGRATES counts the moves of
members, of which a companion is none (R229, R230). -/
def moveHart (s : State) (n e : Nat) (g : Gang) (h c : Nat) : State :=
  let k := coreOf h
  let old := hart s h
  let field := ((pickFields g.packet.lgroups 1 (freeGroups s c)).getD []).headD 0
  let dest := hartAt c ((freeSlots s c).headD 0)
  let s0 := if spadRows (core s c).split = g.packet.srows then s else setSplit s c (splitOf g.packet.srows)
  let wait := match old.wait with
    | some .dest => old.wait
    | _ => none
  let s1 := onHart s0 dest fun x => keepSlot x { old with
    wait := wait, failed := [], groups := if old.groups = 0 then 0 else BitVec.ofNat 4 field }
  let s2 := onCore s1 c fun x => { x with lanepart := setLaneField x.lanepart (slotOf dest) field }
  let s3 := unloadHart s2 h
  let s4 := onCore s3 k fun x => { x with disabled := x.disabled ++ [slotOf h] }
  let redirect (x : Hart) : Hart := match x.wait with
    | some (.send d cls a l) => if d = h then { x with wait := some (.send dest cls a l) } else x
    | _ => x
  let moved (t : TaskEntry) : TaskEntry := if t.hart = some h then { t with hart := some dest } else t
  let s5 := { s4 with tasks := s4.tasks.map moved, harts := s4.harts.map fun p => (p.1, redirect p.2) }
  let s6 := onGang s5 n e fun g => { g with
    harts := g.harts.map fun p => if p.2 = h then (p.1, dest) else p
    migrates := g.migrates + if g.harts.any fun p => p.2 == h && decide (p.1 < 64) then 1 else 0 }
  let s7 := onIsland s6 n fun i => { i with cntMigrate := i.cntMigrate + 1 }
  let s8 := decisionRecord s7 n
    { kind := 4, slot := g.slot, gang := gangNumber n e, place := 256 * position h + position dest }
  pendCore s8 k 7

/-- Cool one hot core: move the hart of its highest slot that can leave, or lower the clock. -/
def coolCore (ranking cool : List Nat) (n : Nat) (s : State) (c : Nat) : State :=
  let found := (slotsOf c).reverse.findSome? fun sl =>
    let h := hartAt c sl
    match entryOf s h with
    | some (e, g) =>
      if isLoaded s h && canMove s g h && !(sl ∈ (core s c).disabled) then
        (moveTarget s g h ranking cool).map fun t => (e, g, h, t)
      else none
    | none => none
  match found with
  | some (e, g, h, t) => moveHart s n e g h t
  | none => onCore s c fun k => { k with clockLowered := true }

/-- Thermal control of an island's compute cores. -/
def thermal (s : State) (n : Nat) (ranking hot cool : List Nat) : State :=
  ((List.range 64).map (64 * n + ·)).foldl (fun s c =>
    if c ∈ hot then coolCore ranking cool n s c
    else if (core s c).clockLowered then onCore s c fun k => { k with clockLowered := false } else s) s

/-! ### Receive cycles (R244) -/

/-- The compute harts of an island blocked in RECV; one that may take no trap now is in no receive cycle until it may (R251,
R254, R255). -/
def recvBlocked (s : State) (n : Nat) : List Nat :=
  ((List.range 256).map (256 * n + ·)).filter fun h => match (hart s h).wait with
    | some (.recv _ _ _ _ _) => waitGoes s h
    | _ => false

/-- The harts a blocked hart waits on; `none` where its filter names no loaded hart. -/
def waitsOn (s : State) (n h : Nat) : Option (List Nat) :=
  match (hart s h).wait with
  | some (.recv _ _ f _ _) =>
    if bit f 25 then some (((List.range 256).map (256 * n + ·)).filter (isLoaded s))
    else (namedHart { s with cur := h } f).map fun o => [o]
  | _ => none

/-- A member keeps its place in a set of blocked harts. -/
def staysInCycle (s : State) (n : Nat) (set : List Nat) (h : Nat) : Bool :=
  (match waitsOn s n h with
    | some os => os.all (· ∈ set)
    | none => false)
  && (match (hart s h).wait with
    | some (.recv _ _ f cls _) => !(inboxOf (hart s h) cls).any (matchesFilter f)
    | _ => false)
  && !s.harts.any fun p => match p.2.wait with
    | some (.send d _ _ _) => d == h
    | _ => false

/-- The largest receive cycle within a set. -/
def cycleIn (s : State) (n : Nat) : Nat → List Nat → List Nat
  | 0, set => set
  | fuel + 1, set =>
    let next := set.filter (staysInCycle s n set)
    if next.length = set.length then set else cycleIn s n fuel next

/-- Each hart of a receive cycle raises 0xA4, and one record is appended. -/
def receiveCycles (s : State) (n : Nat) : State :=
  let now := recvBlocked s n
  let set := cycleIn s n now.length (now.filter (· ∈ (island s n).blocked))
  let s1 := set.foldl (fun s h =>
    match (hart s h).wait with
    | some (.recv _ _ _ _ w) => { raise 0xA4 w { s with cur := h } with cur := s.cur }
    | _ => s) s
  let s2 := if set.isEmpty then s1
    else decisionRecord s1 n { kind := 8, place := coreMask (set.map coreOf) }
  onIsland s2 n fun i => { i with blocked := recvBlocked s2 n }

/-! ### The boundary (R232, R236, R237) -/

/-- A legal SCHEDCFG write takes effect and the next boundary is set (R237). -/
def nextBoundary (s : State) (n : Nat) : State :=
  let s1 := onIsland s n fun i => match i.newCfg with
    | some c => { i with quantum := c.1, age := c.2.1, roundLog2 := c.2.2, newCfg := none }
    | none => i
  let len := 2 ^ (island s1 n).roundLog2.toNat
  onIsland s1 n fun i => { i with nextRound := (timeOf s1 n / len + 1) * len }

/-- Reloaded placement code takes over (R232). -/
def takeOver (s : State) (n : Nat) : State :=
  if (island s n).codeSeq = s.placements then s
  else decisionRecord (onIsland s n fun i => { i with codeSeq := s.placements }) n { kind := 7 }

/-- One more round waited or run. -/
def ageGangs (s : State) (n : Nat) : State :=
  let older (g : Gang) : Gang := match g.phase with
    | .waiting => { g with waited := g.waited + 1 }
    | .running | .stopping => { g with ran := g.ran + 1 }
  onIsland s n fun i => { i with gangs := i.gangs.map fun p => (p.1, older p.2) }

/-- ROUND_BOUNDARY of an island's steward, with the thermal readings of its cores: the ranking coolest first, the
cores at or above the hot threshold and those below the cool threshold (R236, R240). -/
def execRoundBoundary (n : Nat) (ranking hot cool : List Nat) (s : State) : Out :=
  if timeOf s n < (island s n).nextRound || !stewardRuns s n then .next s
  else
    let s1 := settlePreemptions (takeOver (nextBoundary s n) n) n
    let r := placeAll n (waitingOrder s1 n) s1
    let s2 := match r.2 with
      | some (e, g) => keepHead n e (makeRoom n g.packet (victims r.1 n) r.1 r.1)
      | none => onIsland r.1 n fun i => { i with head := none }
    .next (ageGangs (receiveCycles (thermal s2 n ranking hot cool) n) n)

end Sys2Proof.Machine
end

