-- ==== Sys2Proof/Machine/Mmio.lean ====
section
/-!
DEFINITION. The registers of the MMIO blocks: steward, containment, partition, debug, module and network
(spec/11_scheduling.md R226, R227, R237; spec/12_traps.md R260; spec/13_edges.md R265 to R280), and the events that
are writes of them. A write that a register does not take as legal and that names no cause is ignored.
-/
namespace Sys2Proof.Machine

/-! ### Function-level reset begins (R263) -/

/-- A reset of the partition is under way, or its drain bound was exceeded. -/
def inReset (p : Part) : Bool := !(p.flr == .idle || p.flr == .done)

/-- Change every core of a list. -/
def onCores (s : State) (cs : List Nat) (f : Core → Core) : State := cs.foldl (fun s c => onCore s c f) s
/-- Change every hart of a list. -/
def onHarts (s : State) (hs : List Nat) (f : Hart → Hart) : State := hs.foldl (fun s h => onHart s h f) s

/-- The harts of a partition, the monitor hart left out (R257): a reset neither freezes nor scrubs it (log 113). -/
def partHarts (s : State) (v : Nat) : List Nat :=
  (islandsOf s v).flatMap fun n => (hartsOfIsland n).filter (· != monitorHart s)

/-- Function-level reset is requested: everything of the partition is frozen, and the drain begins (R263 step 1). A
second request during a reset is ignored. -/
def startFlr (s : State) (v : Nat) : State :=
  if inReset (part s v) || decide (4 ≤ v) then s
  else
    let s1 := onHarts s (partHarts s v) fun h => { h with freeze := { h.freeze with byFreeze := true } }
    let s2 := onCores s1 ((islandsOf s v).flatMap coresOfIsland) fun c =>
      { c with engine := { c.engine with freeze := { c.engine.freeze with byFreeze := true } } }
    onPart s2 v fun p => { p with flr := .drain, flrCycles := 0, trafficFrozen := true }

/-! ### Reads -/

/-- SCHEDCFG reads the fields as written last (R237, R8). -/
def schedcfgWord (i : Island) : Word :=
  let c := i.newCfg.getD (i.quantum, i.age, i.roundLog2)
  w64 (c.1.toNat * 2 ^ 24 + c.2.1.toNat * 2 ^ 16 + c.2.2.toNat)

/-- SLOTCTL (R227). -/
def slotctlWord (x : Slot) : Word :=
  w64 ((if x.err then 8 else 0) + (if x.drop then 4 else 0) + (if x.pend then 2 else 0) + (if x.mapped then 1 else 0))

/-- A register of a steward block (R226). -/
def readSteward (s : State) (n off : Nat) : Word :=
  let i := island s n
  match off with
  | 0x0 => schedcfgWord i
  | 0x8 => i.logBase
  | 0x10 => i.logSize
  | 0x18 => i.logHead
  | 0x20 => i.logTail
  | 0x28 => i.lost
  | 0x40 => i.cntPlace
  | 0x48 => i.cntPreempt
  | 0x50 => i.cntMigrate
  | 0x58 => i.cntReject
  | 0x60 => i.cntResume
  | off =>
    if off < 0x1000 ∨ 0x1800 ≤ off then 0
    else
      let x := slot s n ((off - 0x1000) / 0x20)
      if off % 0x20 = 0 then x.qcbpa else if off % 0x20 = 0x10 then slotctlWord x else 0

/-- The number of a step of function-level reset in FLRSTAT (R260). -/
def FlrStep.code : FlrStep → Nat
  | .idle => 0 | .drain => 1 | .scrub => 2 | .queues => 3 | .done => 4 | .exceeded => 5

/-- A register of a containment block (R260). -/
def readContain (s : State) (v off : Nat) : Word :=
  let p := part s v
  match off with
  | 0x0 => p.errBase
  | 0x8 => p.errSize
  | 0x10 => p.errHead
  | 0x18 => p.errTail
  | 0x20 => p.errLost
  | 0x28 => p.notify
  | 0x30 => p.ceCount
  | 0x38 => p.ceLimit
  | 0x48 => w64 p.flr.code
  | _ => 0

/-- A register of a partition block (R267). -/
def readPartition (s : State) (v off : Nat) : Word :=
  let p := part s v
  match off with
  | 0x0 => w64 ((islandsOf s v).foldl (fun m n => m + 2 ^ n) 0)
  | 0x8 => p.hbmBase
  | 0x10 => p.hbmSize
  | 0x18 => p.linkGrant.setWidth 64
  | off =>
    if h : off % 8 = 0 ∧ 0x28 ≤ off ∧ off < 0x68 then p.irqRoute[(off - 0x28) / 8]'(by omega) else 0

/-- The hart whose doublewords stand at an offset of a debug block (R277). -/
def debugHart (n off : Nat) : Nat := hartAtPosition n ((off - 0x100) / 0x18)
/-- A trigger of an island. -/
def trigger (s : State) (n t : Nat) : Trigger := (tabGet (island s n).triggers t).getD {}

/-- A register of a debug block (R277 to R280). -/
def readDebug (s : State) (n off : Nat) : Word :=
  if off = 0 then w64 ((if (island s n).trapRel then 2 else 0) + if (island s n).freezeBit then 1 else 0)
  else if 0x100 ≤ off ∧ off < 0x100 + 0x18 * 256 then
    let h := debugHart n off
    match (off - 0x100) % 0x18 with
    | 0x0 => ipendOf s h
    | 0x8 => (hart s h).imask
    | _ => (hart s h).timecmp
  else if 0x4000 ≤ off ∧ off < 0x4200 then
    let t := trigger s n ((off - 0x4000) / 0x20)
    match (off - 0x4000) % 0x20 with
    | 0x0 => t.addr
    | 0x8 => t.mask
    | 0x10 => t.ctl
    | _ => 0
  else if 0x8000 ≤ off ∧ off < 0x9000 then
    let t := (core s (64 * n + (off - 0x8000) / 0x40)).trace
    match (off - 0x8000) % 0x40 with
    | 0x0 => t.ctl
    | 0x8 => t.base
    | 0x10 => t.size
    | 0x18 => w64 t.head
    | 0x20 => t.tail
    | _ => 0
  else 0

/-- HBMTRAIN: two bits per stack, 2 for a failed stack and for no other (R272). -/
def hbmTrainWord (s : State) : Word :=
  (List.range 16).foldl (fun w i =>
    let v := bits Config.hbmTrain (2 * i + 1) (2 * i)
    putBits w (2 * i) 2 (if s.failedStacks.toNat.testBit i then 2 else if v = 2 then 1 else v)) 0

/-- FWVER in force: the image's own, or the one a verified image brought (R272, R273). -/
def fwverWord (s : State) : Word :=
  match s.firmware with
  | .factory => Config.fwVer 0
  | .image version security => version.setWidth 64 <<< 32 ||| security.setWidth 64
  | .none => Config.fwVer 1

/-- A register of the module block (R272); POWER and COOLANT are measured anew at each read. -/
def readModule (s : State) (off : Nat) : State × Word :=
  match off with
  | 0x0 => (s, Config.serial)
  | 0x8 => (s, w64 (modnum s))
  | 0x10 => (s, fwverWord s)
  | 0x18 => (s, (Config.codeVer s.placements).setWidth 64)
  | 0x20 => ({ s with free := s.free + 1 }, Config.measured s.free)
  | 0x28 => ({ s with free := s.free + 1 }, Config.measured s.free &&& 0xFFFFFFFF)
  | 0x30 => (s, hbmTrainWord s)
  | _ => (s, 0)

/-- A register of a network block (R271). -/
def readNetwork (s : State) (v off : Nat) : Word :=
  let p := part s v
  match off with
  | 0x0 => p.nqBase
  | 0x8 => p.nqLog2.setWidth 64
  | 0x18 => p.nqRd
  | _ => 0

/-- Read the register at an offset of a block; an offset its table does not list reads zero (R265). -/
def readBlock (s : State) (b : Block) (off : Nat) : State × Word :=
  match b with
  | .steward n => (s, readSteward s n off)
  | .contain v => (s, readContain s v off)
  | .partition v => (s, readPartition s v off)
  | .debug n => (s, readDebug s n off)
  | .module => readModule s off
  | .network v => (s, readNetwork s v off)

/-- Read an MMIO address that passed its checks. -/
def mmioRead (s : State) (pa : Nat) : State × Word :=
  match blockOf pa with
  | some (b, off) => readBlock s b off
  | none => (s, 0)

/-! ### Writes -/

/-- The value is a power of two within bounds. -/
def powerIn (v lo hi : Nat) : Bool := (List.range 64).any fun i => v == 2 ^ i && decide (lo ≤ v) && decide (v ≤ hi)

/-- A write of SCHEDCFG: legal values wait for the boundary; an illegal one is answered `none` (R237). -/
def writeSchedcfg (s : State) (n : Nat) (v : Word) : Option State :=
  let q := bits v 31 24
  let a := bits v 23 16
  let r := bits v 3 0
  if q = 0 ∨ a = 0 ∨ r < 12 then none
  else some (onIsland s n fun i => { i with newCfg := some (BitVec.ofNat 8 q, BitVec.ofNat 8 a, BitVec.ofNat 4 r) })

/-- A write of SLOTCTL: ERR and DROP clear where 1 is written, MAPPED maps or unmaps (R227, R231). -/
def writeSlotctl (s : State) (n q : Nat) (v : Word) : State :=
  let was := (slot s n q).mapped
  let s1 := onSlot s n q fun x => { x with err := x.err && !bit v 3, drop := x.drop && !bit v 2 }
  if bit v 0 && !was then mapSlot s1 n q else if !bit v 0 && was then unmapSlot s1 n q false else s1

/-- A write of a slot's doublewords (R226); a QCBPA that is no multiple of 64 is ignored (DESIGN CHOICE, log 33). -/
def writeSlot (s : State) (n off : Nat) (v : Word) : State :=
  let q := (off - 0x1000) / 0x20
  match (off - 0x1000) % 0x20 with
  | 0x0 => if v.toNat % 64 = 0 then onSlot s n q fun x => { x with qcbpa := v } else s
  | 0x8 => notifySlot s n q
  | 0x10 => writeSlotctl s n q v
  | _ => s

/-- Write a register of a steward block (R226). -/
def writeSteward (s : State) (who : Who) (n off : Nat) (v : Word) : Option State :=
  if off = 0 then writeSchedcfg s n v
  else if off = 0x8 then
    some (if v.toNat % 4096 = 0 then onIsland s n fun i => { i with logBase := v, logHead := 0 } else s)
  else if off = 0x10 then
    some (if v = 0 ∨ powerIn v.toNat 128 1048576 then onIsland s n fun i => { i with logSize := v } else s)
  else if off = 0x20 then some (onIsland s n fun i => { i with logTail := v })
  else if off = 0x100 then some (gexitWrite s who v)
  else if 0x1000 ≤ off ∧ off < 0x1800 then some (writeSlot s n off v)
  else some s

/-- Write a register of a containment block (R260). -/
def writeContain (s : State) (monitor : Bool) (v off : Nat) (x : Word) : State :=
  if off = 0x0 then (if x.toNat % 4096 = 0 then onPart s v fun p => { p with errBase := x } else s)
  else if off = 0x8 then (if x = 0 ∨ powerIn x.toNat 64 65536 then onPart s v fun p => { p with errSize := x } else s)
  else if off = 0x18 then onPart s v fun p => { p with errTail := x }
  else if off = 0x28 then onPart s v fun p => { p with notify := x &&& 0x8000000000001FFF }
  else if off = 0x38 then onPart s v fun p => { p with ceLimit := x }
  else if off = 0x40 then (if monitor ∧ x = 1 then startFlr s v else s)
  else s

/-- The HBM range of a function would overlap that of another. -/
def grantOverlaps (s : State) (v base size : Nat) : Bool :=
  (List.range 4).any fun o =>
    let p := part s o
    o != v && decide (0 < size) && decide (0 < p.hbmSize.toNat)
      && decide (base < p.hbmBase.toNat + p.hbmSize.toNat) && decide (p.hbmBase.toNat < base + size)

/-- Write the grant's HBM range, by monitor mode. -/
def writeGrant (s : State) (v : Nat) (base size : Word) : Option State :=
  if base.toNat % 2 ^ 30 ≠ 0 ∨ size.toNat % 2 ^ 30 ≠ 0 ∨ grantOverlaps s v base.toNat size.toNat then none
  else some (onPart s v fun p => { p with hbmBase := base, hbmSize := size })

/-- A compute hart's number. -/
def namedCompute (x : Word) : Option Nat := if bits x 12 0 < 5120 then some (bits x 12 0) else none

/-- Write a register of a partition block (R267); `none` is a value outside a field's rule. -/
def writePartition (s : State) (monitor : Bool) (v off : Nat) (x : Word) : Option State :=
  let p := part s v
  if off = 0x8 then (if monitor then writeGrant s v x p.hbmSize else some s)
  else if off = 0x10 then (if monitor then writeGrant s v p.hbmBase x else some s)
  else if off = 0x18 then
    some (if monitor then onPart s v fun p => { p with linkGrant := x.setWidth 16 &&& 0xFF01 } else s)
  else if off = 0x20 then (namedCompute x).map fun h => pendIrq s h 3
  else if off = 0x68 then some (onPart s v fun p => { p with msix := p.msix ++ [bits x 3 0] })
  else if h : off % 8 = 0 ∧ 0x28 ≤ off ∧ off < 0x68 then
    (namedCompute x).map fun _ => onPart s v fun p =>
      { p with irqRoute := p.irqRoute.set ((off - 0x28) / 8) (x &&& 0x8000000000001FFF) (by omega) }
  else some s

/-- A write of DBGCTL: a freeze is requested, or a release with its 0xF2 (R279). TRAPREL counts as it stood or as this
write sets it (DEDUCED, log 34). -/
def writeDbgctl (s : State) (n : Nat) (v : Word) : State :=
  let i := island s n
  let s1 := onIsland s n fun i => { i with trapRel := bit v 1, freezeBit := bit v 0 }
  if i.freezeBit && !bit v 0 && (i.trapRel || bit v 1) then
    onHarts s1 ((hartsOfIsland n).filter (isLoaded s)) fun h => { h with boundaryTrap := some 0xF2 }
  else s1

/-- SWISET: a software interrupt (R277). -/
def writeSwiset (s : State) (n : Nat) (v : Word) : State :=
  if v.toNat < 256 then pendIrq s (hartAtPosition n v.toNat) 1 else s

/-- A write of a hart's interrupt doublewords (R277). -/
def writeIrq (s : State) (n off : Nat) (v : Word) : State :=
  let h := debugHart n off
  match (off - 0x100) % 0x18 with
  | 0x0 => onHart s h fun x => { x with ipend := x.ipend &&& ~~~v }
  | 0x8 => onHart s h fun x => { x with imask := v }
  | 0x10 => onHart s h fun x => { x with timecmp := v, ipend := x.ipend &&& ~~~4#64 }
  | _ => s

/-- A legal trigger control word (R278). -/
def triggerCtlOk (t : Nat) (v : Word) : Bool :=
  bits v 63 22 == 0 && bits v 15 13 == 0 && (decide (8 ≤ t) || bits v 21 18 == 0)

/-- A write of a trigger (R278): one that sets a zero field to another value is ignored. -/
def writeTrigger (s : State) (n off : Nat) (v : Word) : State :=
  let t := (off - 0x4000) / 0x20
  let set (f : Trigger → Trigger) : State :=
    onIsland s n fun i => { i with triggers := tabSet i.triggers t (f (trigger s n t)) }
  match (off - 0x4000) % 0x20 with
  | 0x0 => set fun x => { x with addr := v }
  | 0x8 => set fun x => { x with mask := v }
  | 0x10 => if triggerCtlOk t v then set fun x => { x with ctl := v } else s
  | _ => s

/-- A write of a trace register (R280); a value that breaks a limit is ignored, but a TRSIZE of 0, its value at reset,
is stored (DESIGN CHOICE, log 33). -/
def writeTrace (s : State) (n off : Nat) (v : Word) : State :=
  let c := 64 * n + (off - 0x8000) / 0x40
  let set (f : Trace → Trace) : State := onCore s c fun k => { k with trace := f k.trace }
  match (off - 0x8000) % 0x40 with
  | 0x0 => set fun t => { t with ctl := v &&& 0x8000000000001FFF }
  | 0x8 => if v.toNat % 4096 = 0 then set fun t => { t with base := v, head := 0 } else s
  | 0x10 => if v = 0 ∨ powerIn v.toNat 4096 (2 ^ 30) then set fun t => { t with size := v } else s
  | 0x20 => if v.toNat % 8 = 0 then traceResume (set fun t => { t with tail := v }) c else s
  | _ => s

/-- Write a register of a debug block (R277 to R280). -/
def writeDebug (s : State) (n off : Nat) (v : Word) : State :=
  if off = 0 then writeDbgctl s n v
  else if off = 0x10 then writeSwiset s n v
  else if 0x100 ≤ off ∧ off < 0x100 + 0x18 * 256 then writeIrq s n off v
  else if 0x4000 ≤ off ∧ off < 0x4200 then writeTrigger s n off v
  else if 0x8000 ≤ off ∧ off < 0x9000 then writeTrace s n off v
  else s

/-- The network engine has completed every entry written. -/
def networkIdle (p : Part) : Bool := p.nqRd == p.nqWr

/-- Write a register of a network block (R271). -/
def writeNetwork (s : State) (v off : Nat) (x : Word) : State :=
  let p := part s v
  if off = 0x0 then
    (if networkIdle p then onPart s v fun p =>
      { p with nqBase := x &&& 0xFFFFFFFFFF000, nqWr := 0, nqRd := 0 } else s)
  else if off = 0x8 then
    (if networkIdle p ∧ 4 ≤ bits x 3 0 ∧ bits x 3 0 ≤ 12 then
      onPart s v fun p => { p with nqLog2 := BitVec.ofNat 4 (bits x 3 0) } else s)
  else if off = 0x10 then onPart s v fun p => { p with nqWr := x }
  else s

/-- Write the register at an offset of a block; `none` is a value that raises 0x65 (R226, R237, R267). -/
def writeBlock (s : State) (who : Who) (monitor : Bool) (b : Block) (off : Nat) (v : Word) : Option State :=
  match b with
  | .steward n => writeSteward s who n off v
  | .contain f => some (writeContain s monitor f off v)
  | .partition f => writePartition s monitor f off v
  | .debug n => some (writeDebug s n off v)
  | .module => some s
  | .network f => some (writeNetwork s f off v)

/-! ### The acting hart's accesses -/

/-- A doubleword written by the acting hart to an MMIO address that passed its checks. -/
def mmioWrite (s : State) (pa : Nat) (v : Word) : Option State :=
  match blockOf pa with
  | some (b, off) => writeBlock s (.hart s.cur) ((me s).mode == .monitor) b off v
  | none => some s

/-- Read a checked access, a register for an MMIO address. -/
def readAny (s : State) (ps : List Piece) : Except State (State × List Byte) :=
  if isMmio ps then
    let r := mmioRead s (ps.head?.elim 0 (·.pa))
    .ok (r.1, dwordBytes r.2.toNat)
  else readScalar s ps

/-- Write a checked access; `w` is the instruction's word, the TVAL of a 0x65. -/
def writeAny (s : State) (ps : List Piece) (bs : List Byte) (w : Word) : Except State State :=
  if isMmio ps then
    match mmioWrite s (ps.head?.elim 0 (·.pa)) (w64 (natOfBytes bs)) with
    | some s1 => .ok s1
    | none => .error (raise 0x65 w s)
  else writeScalar s ps bs

/-! ### Register writes as events (R265) -/

/-- A virtual function reaches a block (R265). -/
def vfMayReach (s : State) (v : Nat) (store : Bool) (b : Block) : Bool :=
  match b with
  | .steward n | .debug n => partOfIsland s n == some v
  | .contain f | .partition f | .network f => f == v
  | .module => !store

/-- The master reaches a register of a block with its write. -/
def mayWrite (s : State) (who : Who) (b : Block) (off : Nat) : Bool :=
  match who with
  | .hart h => hartMayReach s h (hart s h).mode .store b off
  | .vf v => !(part s v).trafficFrozen && vfMayReach s v true b

/-- A write of an MMIO register by a hart or a virtual function: outside its rights, and for an illegal value,
nothing is written. -/
def registerStore (s : State) (who : Who) (pa : Nat) (v : Word) : State :=
  match blockOf pa with
  | some (b, off) =>
    let monitor := match who with
      | .hart h => (hart s h).mode == .monitor
      | .vf _ => false
    if off % 8 = 0 ∧ mayWrite s who b off then (writeBlock s who monitor b off v).getD s else s
  | none => s

/-- The address of a register of a steward block. -/
def stewardAt (n off : Nat) : Nat := 0x30000000000 + n * 0x100000 + off
/-- The address of a register of a containment block. -/
def containAt (v off : Nat) : Nat := 0x30002000000 + v * 0x1000 + off
/-- The address of a register of a partition block. -/
def partitionAt (v off : Nat) : Nat := 0x30003000000 + v * 0x1000 + off
/-- The address of a register of a debug block. -/
def debugAt (n off : Nat) : Nat := 0x30004000000 + n * 0x10000 + off
/-- The address of a register of a network block. -/
def networkAt (v off : Nat) : Nat := 0x30006000000 + v * 0x1000 + off

/-- SWISET_WRITE (R277). -/
def execSwisetWrite (who : Who) (n : Nat) (v : Word) (s : State) : Out := .next (registerStore s who (debugAt n 0x10) v)
/-- DOORBELL_WRITE (R267). -/
def execDoorbellWrite (who : Who) (f : Nat) (v : Word) (s : State) : Out :=
  .next (registerStore s who (partitionAt f 0x20) v)
/-- HOSTIRQ_WRITE (R267). -/
def execHostirqWrite (who : Who) (f : Nat) (v : Word) (s : State) : Out :=
  .next (registerStore s who (partitionAt f 0x68) v)
/-- NOTIFY_WRITE (R226, R231). -/
def execNotifyWrite (who : Who) (n q : Nat) (s : State) : Out :=
  .next (registerStore s who (stewardAt n (0x1008 + 0x20 * q)) 1)
/-- SLOT_MAP (R227, R231). -/
def execSlotMap (who : Who) (n q : Nat) (s : State) : Out :=
  .next (registerStore s who (stewardAt n (0x1010 + 0x20 * q)) 1)
/-- SLOT_UNMAP (R231): a retired slot rejects its packets with 0x0C. -/
def execSlotUnmap (who : Who) (n q : Nat) (retire : Bool) (s : State) : Out :=
  if mayWrite s who (.steward n) (0x1010 + 0x20 * q) ∧ (slot s n q).mapped then .next (unmapSlot s n q retire)
  else .next s
/-- SCHEDCFG_WRITE (R237). -/
def execSchedcfgWrite (who : Who) (n : Nat) (v : Word) (s : State) : Out :=
  .next (registerStore s who (stewardAt n 0) v)
/-- GEXIT (R235). -/
def execGexit (who : Who) (n : Nat) (v : Word) (s : State) : Out := .next (registerStore s who (stewardAt n 0x100) v)
/-- FLRCTL_WRITE (R260, R263). -/
def execFlrctlWrite (who : Who) (f : Nat) (v : Word) (s : State) : Out :=
  .next (registerStore s who (containAt f 0x40) v)
/-- NQWR_DOORBELL (R271). -/
def execNqwrDoorbell (who : Who) (f : Nat) (v : Word) (s : State) : Out :=
  .next (registerStore s who (networkAt f 0x10) v)
/-- DEBUG_FREEZE: a write of DBGCTL with FREEZE set (R279). -/
def execDebugFreeze (who : Who) (n : Nat) (v : Word) (s : State) : Out :=
  .next (registerStore s who (debugAt n 0) (v ||| 1))
/-- DEBUG_RELEASE: a write of DBGCTL with FREEZE clear (R279). -/
def execDebugRelease (who : Who) (n : Nat) (v : Word) (s : State) : Out :=
  .next (registerStore s who (debugAt n 0) (v &&& ~~~1#64))
/-- TRTAIL_WRITE (R280, R281). -/
def execTrtailWrite (who : Who) (c : Nat) (v : Word) (s : State) : Out :=
  .next (registerStore s who (debugAt (c / 64) (0x8000 + 0x40 * (c % 64) + 0x20)) v)
/-- FUNCTION_LEVEL_RESET by PCIe (R263). -/
def execFunctionLevelReset (f : Nat) (s : State) : Out := .next (startFlr s f)

end Sys2Proof.Machine
end

