-- ==== Sys2Proof/Machine/Stream.lean ====
section
/-!
DEFINITION. The stream engines: kicks, promises, the commands' effects, their ends and mailboxes, and SWAIT
(spec/07_local_memory.md R156 to R166; spec/18 R383 to R385). A command whose destination meets a page under
migration or a protected reader starts once neither stands in its way (the engine pauses, R184, R217).
-/
namespace Sys2Proof.Machine

/-- Change the engine of a core. -/
def onEngine (s : State) (c : Nat) (f : Engine → Engine) : State := onCore s c fun k => { k with engine := f k.engine }

/-! ### Descriptors (R157, R384) -/

/-- A signed stride. -/
def strideOf (v : Word32) : Word := v.signExtend 64

/-- The rows of a command as (source, destination), in command order (R158). -/
def rowsOf (c : StreamCmd) : List (Word × Word) :=
  if c.op = 2 then
    (List.range c.cnt2).flatMap fun i2 => (List.range c.cnt1).map fun i1 =>
      (c.src + w64 i2 * strideOf c.sstr2 + w64 i1 * strideOf c.sstr1,
       c.dst + w64 i2 * strideOf c.dstr2 + w64 i1 * strideOf c.dstr1)
  else [(c.src, c.dst)]

/-- The command of a valid descriptor for an operation (R384). -/
def commandOf (s : State) (op : Nat) (at_ : Word) (bs : List Byte) : Option StreamCmd :=
  let n (o k : Nat) : Nat := numAt bs o k
  let flags := n 1 1
  let c : StreamCmd :=
    { op := op, mbx := flags == 1, cnt1 := n 4 2, cnt2 := n 6 2, len := n 8 8, src := w64 (n 16 8)
      dst := w64 (n 24 8), mbxa := w64 (n 32 8), sstr1 := BitVec.ofNat 32 (n 40 4), dstr1 := BitVec.ofNat 32 (n 44 4)
      sstr2 := BitVec.ofNat 32 (n 48 4), dstr2 := BitVec.ofNat 32 (n 52 4), descAddr := at_
      ptbase := (me s).ptbase, mode := (me s).mode, hart := s.cur, promise := 0, irrev := false }
  let mbxOk := if flags = 1 then n 32 8 ≠ 0 ∧ n 32 8 % 8 = 0 else n 32 8 = 0
  let shape := if op = 2 then 1 ≤ c.cnt1 ∧ 1 ≤ c.cnt2 else n 4 4 = 0 ∧ n 40 16 = 0
  if n 0 1 = op ∧ flags ≤ 1 ∧ n 2 2 = 0 ∧ 1 ≤ c.len ∧ c.len < 2 ^ 32 ∧ n 56 8 = 0 ∧ mbxOk ∧ shape then some c
  else none

/-! ### Promises (R161) -/

/-- Rate and latency of an endpoint for a core's engine (R161). An address in MMIO or in unassigned space is in no row of
the table, and takes the figures of cacheable memory (DESIGN CHOICE, log 101). -/
def endpoint (c : Nat) (pa : Option Nat) : Nat × Nat :=
  let near (k rate : Nat) : Nat × Nat :=
    if k = c then (rate, 8) else if islandOfCore k = islandOfCore c then (rate, 24) else (4, 120)
  match pa with
  | none => (1, 2000)
  | some a => match regionOf a with
    | .spad k _ => near k 8
    | .bstore k _ => near k 4
    | .host => (1, 2000)
    | .peer _ => (2, 1500)
    | _ => (4, 400)

/-- Destination words of a row, and those written in part. -/
def rowWords (d : Word) (len : Nat) : Nat × Nat :=
  let first := d.toNat / 8
  let last := (d.toNat + len - 1) / 8
  if first = last then (1, if d.toNat % 8 = 0 ∧ len = 8 then 0 else 1)
  else (last - first + 1, (if d.toNat % 8 = 0 then 0 else 1) + if (d.toNat + len) % 8 = 0 then 0 else 1)

/-- The cycles a command takes: C of R161. The endpoints of SRC and DST are those of their first bytes, also where rows or
bytes of the command lie on others, of which R161 does not speak (DESIGN CHOICE, log 100). -/
def commandCycles (s : State) (c : Nat) (k : StreamCmd) : Nat :=
  let we := (rowsOf k).foldl (fun acc r =>
    let w := rowWords r.2 k.len
    (acc.1 + w.1, acc.2 + w.2)) (0, 0)
  let d := endpoint c (peek s k.hart k.mode k.ptbase k.dst)
  let sr := if k.op = 3 then (d.1, 0) else endpoint c (peek s k.hart k.mode k.ptbase k.src)
  let rate := min sr.1 d.1
  sr.2 + d.2 + (we.1 + rate - 1) / rate + 8 * we.2

/-- The promise of a command kicked now (R161). -/
def promiseOf (s : State) (c : Nat) (k : StreamCmd) : Nat :=
  max (timeOf s (islandOfCore c)) ((core s c).engine.lastPromise.toNat + if (core s c).engine.lastPromise = 0 then 0 else 1)
    + commandCycles s c k

/-- Steps 3 and 4 of a kick (R159, R384): the checked command waits for room, and is queued with its promise. -/
def queueCommand (d : Reg) (k : StreamCmd) (w : Word) (s : State) : State :=
  let c := coreOf s.cur
  let e := (core s c).engine
  if e.freeze.isSet then raise 0xA9 w s
  else if 16 ≤ (unended e).length then waitOn (.engineRoom d k w) s
  else
    let p := w64 (promiseOf s c k)
    retireX d p (onEngine s c fun e => { e with queue := e.queue ++ [{ k with promise := p }], lastPromise := p })

/-- A waiting kick goes on when the queue has room; its descriptor was read and checked before (R159). -/
def kickRoom (h : Nat) (s : State) : State :=
  match (hart s h).wait with
  | some (.engineRoom d k w) =>
    let e := (core s (coreOf h)).engine
    if e.freeze.isSet || decide ((unended e).length < 16) then queueCommand d k w { s with cur := h } else s
  | _ => s

/-- A kick of an operation (R159, R384). -/
def kick (op : Nat) (d a : Reg) (w : Word) (s : State) : State :=
  irrevocably s fun s =>
    if memoryPending (me s) then waitOn .queues s
    else if (rx s a).toNat % 64 ≠ 0 then raise 0xA2 w s
    else match openScalar true false false (rx s a) 64 s with
      | .stop s1 => s1
      | .go s1 ps => match readScalar s1 ps with
        | .error s2 => s2
        | .ok (s2, bs) =>
          match commandOf s2 op (rx s a) bs with
          | none => raise 0xA2 w s2
          | some k => queueCommand d k w s2

/-- SCOPY (R159, R384). -/
def execScopy (d a : Reg) (s : State) : Out := .next (kick 1 d a (leadWord (.scopy d a)) s)
/-- SMAP (R159, R384). -/
def execSmap (d a : Reg) (s : State) : Out := .next (kick 2 d a (leadWord (.smap d a)) s)
/-- SPUT (R159, R384). -/
def execSput (d a : Reg) (s : State) : Out := .next (kick 3 d a (leadWord (.sput d a)) s)

/-! ### SWAIT (R163, R385) -/

/-- The checks of an SWAIT whose TIME has come: a failed command, one that has not ended, or completion. -/
def swaitEnds (t : Word) (s : State) : State :=
  match ((me s).failed.filter fun p => decide (p.toNat ≤ t.toNat)).map (·.toNat) with
  | p :: ps =>
    let m := ps.foldl min p
    raise 0xA1 (w64 m) (onMe s fun h => { h with failed := h.failed.erase (w64 m) })
  | [] =>
    if (unended (myCore s).engine).any fun k => decide (k.promise.toNat ≤ t.toNat) then raise 0xA0 t s else retire s

/-- SWAIT (R163). -/
def execSwait (a : Reg) (s : State) : Out :=
  .next (if (rx s a).toNat ≤ myTime s then swaitEnds (rx s a) s else waitOn (.swait (rx s a)) s)

/-- SWAIT_CHECK (R163). -/
def execSwaitCheck (h : Nat) (s : State) : Out :=
  match (hart s h).wait with
  | some (.swait t) =>
    .next (if t.toNat ≤ timeOf s (islandOf h) then swaitEnds t { (onHart s h fun x => { x with wait := none }) with cur := h } else s)
  | _ => .next s

/-! ### A command's accesses -/

/-- Why an engine's access fails. -/
inductive EngFail where
  /-- A page that is not present, or a link that is down (R165). -/
  | absent
  | poison (pa : Nat)
  /-- A protection or address violation, with the physical address or 0. -/
  | violation (pa : Nat)
  /-- A page under migration (R184); otherwise a line or a scratchpad that is held. -/
  | stall (migrating : Bool)
  deriving DecidableEq, Repr

/-- The access of an engine for a command. -/
def engineAccess (k : StreamCmd) (kind : AccKind) : Access :=
  { hart := k.hart, mode := k.mode, ptbase := k.ptbase, side := .engine, kind := kind }

/-- How a failed check of an engine is treated (R165, R174). -/
def engineFail (s : State) (k : StreamCmd) : Bad → EngFail
  | .trap code tval =>
    if code ∈ [0x40, 0x41, 0x4C, 0x4D] then .absent
    else if 0xC0 ≤ code then .poison tval.toNat
    else .violation ((peek s k.hart k.mode k.ptbase tval).getD 0)
  | .violation _ _ pa => .violation pa
  | .migrating _ => .stall true
  | .held => .stall false

/-- Read bytes for a command; a line that its home holds until a task commits is waited for (R222). -/
def engineRead (s : State) (k : StreamCmd) (va : Word) (n : Nat) : Except (State × EngFail) (State × List Byte) :=
  match checkRun s (engineAccess k .load) (n / 4096 + 2) va n with
  | .error (s1, b) => .error (s1, engineFail s1 k b)
  | .ok (s1, ps) =>
    let as := pieceBytes ps
    if homeHeld s1 none ps then .error (s1, .stall false)
    else match (if s1.poison.isEmpty && s1.lostLines.isEmpty then none else as.findSome? fun a => poisonAt s1 a 1) with
    | some p => .error (s1, .poison p.1)
    | none => .ok (touch readHome s1 (spansOf ps), as.map (memRead s1.mem))

/-- An aligned word a command writes, as its page translates. -/
def engineWord (s : State) (k : StreamCmd) (va : Word) : Except (State × EngFail) (State × Piece) :=
  match checkPiece s (engineAccess k .store) va 8 with
  | .error (s1, b) => .error (s1, engineFail s1 k b)
  | .ok (s1, p) => .ok (s1, p)

/-- Bytes a command writes to a word: where they lie and the translation they were written under (R181). -/
structure WordWrite where
  pa : Nat
  bytes : List Byte
  pins : List Pin

/-- What a command has done so far: the state, the words written in order, and their count. -/
structure Progress where
  st : State
  written : List WordWrite
  words : Nat

/-- Write the words of a row one after another, `bs` from address `d`. -/
def writeRow (k : StreamCmd) : Nat → Word → List Byte → Progress → Progress × Option EngFail
  | 0, _, _, p => (p, none)
  | fuel + 1, d, bs, p =>
    if bs.isEmpty then (p, none)
    else
      let n := min bs.length (8 - d.toNat % 8)
      match engineWord p.st k (d &&& ~~~7#64) with
      | .error (s1, f) => ({ p with st := s1 }, some f)
      | .ok (s1, q) =>
        let at_ := q.pa + d.toNat % 8
        writeRow k fuel (d + w64 n) (bs.drop n)
          { st := { s1 with mem := memWriteBytes s1.mem at_ (bs.take n) }
            written := p.written ++ [⟨at_, bs.take n, pinsOf [q]⟩], words := p.words + 1 }

/-- The bytes of a row: read whole, or those of the pattern (R158). -/
def rowBytes (s : State) (k : StreamCmd) (r : Word × Word) : Except (State × EngFail) (State × List Byte) :=
  if k.op = 3 then
    .ok (s, (List.range k.len).map fun b => BitVec.ofNat 8 (k.src.toNat / 256 ^ ((r.2.toNat + b) % 8)))
  else engineRead s k r.1 k.len

/-- Run the rows of a command in order up to the first failure. -/
def runRows (k : StreamCmd) : List (Word × Word) → Progress → Progress × Option EngFail
  | [], p => (p, none)
  | r :: rs, p =>
    match rowBytes p.st k r with
    | .error (s1, f) => ({ p with st := s1 }, some f)
    | .ok (s1, bs) =>
      match writeRow k (k.len / 8 + 2) r.2 bs { p with st := s1 } with
      | (p1, none) => runRows k rs p1
      | r => r

/-! ### Freezing, halting and ending -/

/-- Freeze an engine for a violation (R255). -/
def freezeEngine (s : State) (c pa : Nat) (run : StreamRun) : State :=
  let s1 := onEngine s c fun e =>
    { e with running := none, violating := some run, freeze := { e.freeze with violation := some (0xD2, w64 pa) } }
  raiseCode (errorRecord s1 (partOfIsland s (islandOfCore c)) (islandOfCore c)
    { code := 0xD2, master := 4, place := coreNumber c, progress := run.words, addr := pa, aux := run.cmd.descAddr.toNat }) 0xD2

/-- A command counts as ended with a failure for its slot's SWAITs (R163). -/
def markFailed (s : State) (k : StreamCmd) : State :=
  onHart s k.hart fun h => { h with failed := h.failed ++ [k.promise] }

/-- STATUS of a mailbox (R160). -/
def StreamEnd.status : StreamEnd → Nat
  | .complete => 1 | .pageFault | .violation _ => 2 | .uncorrectable _ => 3

/-- The mailbox of a command that ends, or its failure (R160). -/
def writeMailbox (s : State) (run : StreamRun) : Except (State × EngFail) State :=
  if !run.cmd.mbx then .ok s
  else match engineWord s run.cmd run.cmd.mbxa with
    | .error (s1, .absent) => .error (s1, .violation ((peek s run.cmd.hart run.cmd.mode run.cmd.ptbase run.cmd.mbxa).getD 0))
    | .error f => .error f
    | .ok (s1, p) =>
      let cells := cellsAt p.pa (dwordBytes (run.result.status * 2 ^ 56 + run.words % 2 ^ 56))
      if writeBlocked s1 {} (cellUnits cells) then .error (s1, .stall false) else .ok (homeStore s1 {} cells)

/-- The engine halts for an uncorrectable error (R165, R259). -/
def haltEngine (s : State) (c pa : Nat) (run : StreamRun) : State :=
  let s1 := onEngine (markFailed s run.cmd) c fun e =>
    { e with running := none, violating := none, freeze := { e.freeze with halted := true } }
  raiseCode (errorRecord s1 (partOfIsland s (islandOfCore c)) (islandOfCore c)
    { code := 0xD3, master := 4, place := coreNumber c, progress := run.words, addr := pa, aux := run.cmd.descAddr.toNat }) 0xD3

/-- The run of a command whose mailbox write fails: it ends without its mailbox, as one that failed (R160). -/
def StreamRun.mailboxFailed (run : StreamRun) (pa : Nat) : StreamRun :=
  { run with cmd := { run.cmd with mbx := false }, result := .violation pa }

/-- An engine that stalls: at a page under migration its access is tried again 256 cycles later (R184). -/
def engineStall (s : State) (c : Nat) (migrating : Bool) : State :=
  if migrating then onEngine s c fun e => { e with recheck := s.time + 256 } else s

/-- End a command: the mailbox, the failure for SWAIT, the halt for an uncorrectable error (R160, R165, R259). A mailbox
write that meets a page under migration or a protected reader is waited for. -/
def endCommand (s : State) (c : Nat) (run : StreamRun) : State :=
  match writeMailbox s run with
  | .error (s1, .stall m) => engineStall s1 c m
  | .error (s1, .violation pa) => freezeEngine s1 c pa (run.mailboxFailed pa)
  | .error (s1, .absent) => freezeEngine s1 c 0 (run.mailboxFailed 0)
  | .error (s1, .poison pa) => haltEngine s1 c pa run
  | .ok s1 =>
    let s2 := onEngine s1 c fun e => { e with running := none, violating := none }
    match run.result with
    | .complete => s2
    | .uncorrectable pa => haltEngine s2 c pa run
    | _ => markFailed s2 run.cmd

/-- A debug freeze gates the island of a core (R279). -/
def gated (s : State) (c : Nat) : Bool := (island s (islandOfCore c)).freezeBit

/-- The cells of words. -/
def wordCells (ws : List WordWrite) : List Host.Cell := ws.flatMap fun w => cellsAt w.pa w.bytes

/-- The words a command has written reach their homes, begun in the state s. A word that waits for protected readers delays
no other (R217): its bytes stand as they were until it is performed, and an invalidation of its translation waits (R182). -/
def landWords (s : State) (c : Nat) (p : Progress) : State :=
  let waits (w : WordWrite) : Bool := writeBlocked s {} (cellUnits (cellsAt w.pa w.bytes))
  let kept := p.written.filter waits
  let s1 := homeStore p.st {} (wordCells (p.written.filter fun w => !waits w))
  { s1 with
    mem := (wordCells kept).foldl (fun m x => memWrite m x.1 (memRead s.mem x.1)) s1.mem
    pendingWrites := s1.pendingWrites ++ kept.map fun w => ⟨.engine c, w.pa, w.bytes, none, false, w.pins⟩ }

/-- A word of the engine's command still waits for protected readers. -/
def wordsWait (s : State) (c : Nat) : Bool := s.pendingWrites.any (·.agent == .engine c)

/-- STREAM_COMMAND_START (R156, R158, R165): the next command's accesses are made; a violation freezes the engine. -/
def execStreamCommandStart (c : Nat) (s : State) : Out :=
  let e := (core s c).engine
  match e.queue with
  | [] => .next s
  | k :: rest =>
    if e.running.isSome || e.violating.isSome || e.freeze.isSet || gated s c || decide (s.time < e.recheck) then .next s
    else
      -- a parity error in its buffers ends the command before a word is written (R258)
      let (p, fail) := if e.badBuffer then (⟨s, [], 0⟩, some (.poison 0))
        else runRows k (rowsOf k) { st := s, written := [], words := 0 }
      let s4 := onEngine (landWords s c p) c fun e => { e with queue := rest, badBuffer := false }
      let run (r : StreamEnd) : StreamRun :=
        { cmd := k, result := r, words := p.words, ends := max k.promise.toNat (timeOf s (islandOfCore c)) }
      match fail with
      | some (.stall m) => .next (engineStall s c m)
      | some (.violation pa) => .next (freezeEngine s4 c pa (run (.violation pa)))
      | some (.poison pa) => .next (onEngine s4 c fun e => { e with running := some (run (.uncorrectable pa)) })
      | some .absent => .next (onEngine s4 c fun e => { e with running := some (run .pageFault) })
      | none => .next (onEngine s4 c fun e => { e with running := some (run .complete) })

/-- STREAM_COMMAND_END (R160, R165); a violating command ends once its engine is released (R256). A command ends once each of
its words is performed. -/
def execStreamCommandEnd (c : Nat) (s : State) : Out :=
  let e := (core s c).engine
  if e.freeze.isSet || gated s c then .next s
  else match e.violating.or e.running with
    | some run =>
      if (e.violating.isNone && decide (timeOf s (islandOfCore c) < run.ends)) || decide (s.time < e.recheck) || wordsWait s c
      then .next s
      else .next (endCommand s c run)
    | none => .next s

/-- Release a frozen or halted engine (R256): a violating command ends, once its words are performed, and the next command
may start. -/
def releaseEngine (s : State) (c : Nat) : State :=
  let e := (core s c).engine
  let s1 := onEngine s c fun e => { e with freeze := {} }
  match e.violating with
  | some run => if wordsWait s c then s1 else endCommand s1 c run
  | none => s1

end Sys2Proof.Machine
end

