-- ==== Sys2Proof/Machine/Sysregs.lean ====
section
/-!
DEFINITION. The system registers: reads, writes, their checks and waits, and the control registers of monitor mode
(spec/02_state.md R37 to R63; spec/17 R355; spec/18 R388, R389; spec/12_traps.md R255, R256; spec/13_edges.md R266,
R274), with the events that are writes of them.
-/
namespace Sys2Proof.Machine

/-! ### Queues of a hart (R39) -/

/-- The hart's vector queue is empty; the convoy of a late fault is still held in it (R180). -/
def vectorEmpty (h : Hart) : Bool := h.vq.isEmpty && h.flight.isNone && h.sdest.isNone && h.heldConvoy.isNone
/-- Every vector instruction of the hart but one held by a late fault has completed (log 38). -/
def vectorQuiet (h : Hart) : Bool := h.vq.isEmpty && h.flight.isNone && h.sdest.isNone
/-- An MMOVC of the hart still reads or writes its vector state (R138). -/
def movesPending (h : Hart) : Bool := h.mq.any fun e => match e.act with
  | .toVector _ _ _ _ | .toTile _ _ _ _ => true
  | _ => false
/-- The hart's matrix queue is empty. -/
def matrixEmpty (h : Hart) : Bool := h.mq.isEmpty && h.castMask.isNone

/-! ### FREEZE (R255, R256) -/

/-- A hart is frozen or halted. -/
def isFrozen (s : State) (h : Nat) : Bool := (hart s h).freeze.isSet

/-- The masters of a partition that a freeze of KIND 0b100 covers are all frozen. -/
def partFrozen (s : State) (v : Nat) : Bool :=
  (part s v).trafficFrozen &&
  (islandsOf s v).all fun n =>
    ((coresOfIsland n).all fun c => (core s c).engine.freeze.isSet) &&
    (hartsOfIsland n).all fun h => h == monitorHart s || isFrozen s h || (!isSteward h && !(hart s h).started)

/-- STATE of FREEZE. -/
def freezeState (s : State) : Bool :=
  let t := s.freezeTarget.toNat
  if s.freezeKind = 1 then isFrozen s t
  else if s.freezeKind = 2 then (core s t).engine.freeze.isSet
  else if s.freezeKind = 3 then (part s t).trafficFrozen
  else if s.freezeKind = 4 then partFrozen s t
  else false

/-- TARGET is in range for its KIND. -/
def freezeTargetOk (kind target : Nat) : Bool :=
  if kind = 1 then target < 5120 else if kind = 2 then target < 1280 else target < 4

/-- Freeze a hart by FREEZE; the monitor hart is never frozen (R257). -/
def freezeOne (s : State) (h : Nat) : State :=
  if h = monitorHart s then s else onHart s h fun x => { x with freeze := { x.freeze with byFreeze := true } }
/-- Freeze an engine by FREEZE. -/
def freezeEngineBy (s : State) (c : Nat) : State :=
  onEngine s c fun e => { e with freeze := { e.freeze with byFreeze := true } }

/-- A function-level reset holds the partition frozen. -/
def heldByReset (s : State) (v : Option Nat) : Bool := v.any fun v => inReset (part s v)

/-- Release a hart (R256): one frozen for 0xD0 takes its access cause at the violating instruction, one halted for
0xD1 stays stopped. -/
def releaseHart (s : State) (h : Nat) : State :=
  let f := (hart s h).freeze
  if f.halted || heldByReset s (partOf s h) then s
  else
    let s1 := onHart s h fun x => { x with freeze := {} }
    match f.violation with
    | some (code, tval) => { raise code tval { s1 with cur := h } with cur := s.cur }
    | none => s1

/-- The harts and cores of a partition. -/
def freezeMasters (s : State) (v : Nat) : List Nat × List Nat :=
  ((islandsOf s v).flatMap hartsOfIsland, (islandsOf s v).flatMap coresOfIsland)

/-- Act on the masters that KIND and TARGET name: freeze, or release. -/
def freezeAct (s : State) (release : Bool) (kind target : Nat) : State :=
  let hart1 (s : State) (h : Nat) : State := if release then releaseHart s h else freezeOne s h
  let core1 (s : State) (c : Nat) : State :=
    if release then (if heldByReset s (partOfIsland s (islandOfCore c)) then s else releaseEngine s c)
    else freezeEngineBy s c
  let vf1 (s : State) (v : Nat) : State :=
    if release && inReset (part s v) then s else onPart s v fun p => { p with trafficFrozen := !release }
  if kind = 1 then hart1 s target
  else if kind = 2 then core1 s target
  else if kind = 3 then vf1 s target
  else
    let m := freezeMasters s target
    vf1 (m.2.foldl core1 (m.1.foldl hart1 s)) target

/-- A write of FREEZE; `none` raises 0x65. -/
def writeFreeze (s : State) (v : Word) : Option State :=
  let op := bits v 31 30
  let kind := bits v 26 24
  let target := bits v 12 0
  let acts := op = 1 ∨ op = 2
  if 5 ≤ kind ∨ (acts ∧ kind = 0) ∨ (1 ≤ kind ∧ !freezeTargetOk kind target) then none
  else
    let s1 := { s with freezeKind := BitVec.ofNat 3 kind, freezeTarget := BitVec.ofNat 13 target }
    some (if acts then freezeAct s1 (op == 2) kind target else s1)

/-- FREEZE_MASTER: a write of FREEZE with OP 0b01 (R255, R256). -/
def execFreezeMaster (v : Word) (s : State) : Out := .next ((writeFreeze s (putBits v 30 2 1)).getD s)
/-- FREEZE_RELEASE: a write of FREEZE with OP 0b10 (R256). -/
def execFreezeRelease (v : Word) (s : State) : Out := .next ((writeFreeze s (putBits v 30 2 2)).getD s)

/-! ### HARTCTL and MONHART (R63) -/

/-- The hart that STEWARD and NUM name, if it exists. -/
def namedBy (steward : Bool) (num : Nat) : Option Nat :=
  if steward then (if num < 40 then some (5120 + num) else none) else if num < 5120 then some num else none

/-- A monitor handler of a hart has ended: a number that waited for it becomes MONHART (R63). -/
def settleMonhart (s : State) (h : Nat) : State :=
  match s.newMonhart with
  | some (n, depth, v) =>
    if n = h ∧ (hart s h).mon.traps.length < depth then { s with monhart := v, newMonhart := none } else s
  | none => s

/-- Start a stopped hart at HARTPC, handling no monitor trap (R398); a hart of an island of no function is not started
(R63, R266). The handler the hart was stopped in and the loops it stood in are left, and a number that waited for that
handler becomes MONHART, since it will not return (DESIGN CHOICE, log 114). -/
def startHart (s : State) (h : Nat) (m : BitVec 2) : State :=
  if (partOf s h).isNone then s
  else settleMonhart (onHart s h fun x =>
    { x with started := true, stopped := false, stopReq := false, wait := none
             pc := s.hartpc, mode := modeOfCode m, mon := { x.mon with traps := [] }
             loops := [], body := none }) h

/-- A write of HARTCTL; `none` raises 0x65. -/
def writeHartctl (s : State) (v : Word) : Option State :=
  let op := bits v 63 62
  let m := BitVec.ofNat 2 (bits v 17 16)
  match namedBy (bit v 15) (bits v 12 0) with
  | none => none
  | some h =>
    if m = 3 ∨ (op = 1 ∧ (hart s h).started) ∨ (op = 2 ∧ h = monitorHart s) then none
    else
      let s1 := { s with hartctlMode := m, hartctlSteward := bit v 15, hartctlNum := BitVec.ofNat 13 (bits v 12 0) }
      some (if op = 1 then startHart s1 h m
        else if op = 2 ∧ (hart s h).started then onHart s1 h fun x => { x with stopReq := true } else s1)

/-- HARTCTL_START: a write of HARTCTL with OP 0b01. -/
def execHartctlStart (v : Word) (s : State) : Out := .next ((writeHartctl s (putBits v 62 2 1)).getD s)
/-- HARTCTL_STOP: a write of HARTCTL with OP 0b10. -/
def execHartctlStop (v : Word) (s : State) : Out := .next ((writeHartctl s (putBits v 62 2 2)).getD s)

/-- HART_STOP: the hart stops at its boundary once its queued work has completed; every register is kept (R63). A
wait runs again when it is started. -/
def execHartStop (h : Nat) (s : State) : Out :=
  let x := hart s h
  if x.started && x.stopReq && drained x then
    .next (onHart s h fun x => { x with started := false, stopped := true, stopReq := false, wait := none })
  else .next s

/-- The hart whose handler a MONHART write waits for: the monitor hart while it handles a trap, else the writer while
that handles one. -/
def handlingHart (s : State) (writer : Nat) : Option Nat :=
  if (hart s (monitorHart s)).mon.handling then some (monitorHart s)
  else if (hart s writer).mon.handling then some writer else none

/-- A write of MONHART, which takes effect when the current monitor handler returns (R63); `none` raises 0x65. With no
handler in progress the spec names no moment, and it takes effect at once (DESIGN CHOICE, log 83). -/
def writeMonhart (s : State) (writer : Nat) (v : Word) : Option State :=
  let n := bits v 5 0
  if 40 ≤ n then none
  else match handlingHart s writer with
    | some h => some { s with newMonhart := some (h, (hart s h).mon.traps.length, BitVec.ofNat 6 n) }
    | none => some { s with monhart := BitVec.ofNat 6 n, newMonhart := none }

/-- MONHART_WRITE: a write of MONHART by the monitor hart. -/
def execMonhartWrite (v : Word) (s : State) : Out := .next ((writeMonhart s (monitorHart s) v).getD s)

/-! ### Firmware and keys (R274) -/

/-- A write of KEYCTL: an OP that does not suit the STATE is ignored. -/
def writeKeyctl (s : State) (v : Word) : State :=
  let op := bits v 3 2
  let s1 := { s with keyAddr := BitVec.ofNat 40 (bits v 51 12) }
  if op = 1 then (if s.keyState = 0 then
    { s1 with keyState := 1, keyHash := Config.keyHash (memReadBytes s.mem (bits v 51 12 * 4096) 4096) } else s)
  else if op = 2 then (if s.keyState = 1 then { s1 with keyState := 2 } else s)
  else s1

/-- A write of FWCTL: one with an OP is ignored while an image is being verified. -/
def writeFwctl (s : State) (v : Word) : State :=
  let op := bits v 3 2
  let s1 := { s with fwAddr := BitVec.ofNat 40 (bits v 51 12) }
  if op ≠ 0 ∧ s.fwState = 1 then s
  else if op = 1 ∨ op = 2 then { s1 with fwState := 1, fwOp := op } else s1

/-- KEYCTL_ENROL: a write of KEYCTL with OP 0b01. -/
def execKeyctlEnrol (v : Word) (s : State) : Out := .next (writeKeyctl s (putBits v 2 2 1))
/-- KEYCTL_REVOKE: a write of KEYCTL with OP 0b10. -/
def execKeyctlRevoke (v : Word) (s : State) : Out := .next (writeKeyctl s (putBits v 2 2 2))
/-- FWCTL_WRITE_IMAGE: a write of FWCTL with OP 0b01. -/
def execFwctlWriteImage (v : Word) (s : State) : Out := .next (writeFwctl s (putBits v 2 2 1))
/-- FWCTL_RELOAD_PLACEMENT: a write of FWCTL with OP 0b10. -/
def execFwctlReloadPlacement (v : Word) (s : State) : Out := .next (writeFwctl s (putBits v 2 2 2))

/-! ### PARTTAG (R266) -/

/-- A write of an island's PARTTAG by a hart; `none` raises 0x65. -/
def writeParttag (s : State) (writer n : Nat) (v : Word) : Option State :=
  let t := bits v 2 0
  let busy := ((List.range 256).map (256 * n + ·)).any fun h => h != writer && (hart s h).started
  if (4 ≤ t ∧ t ≤ 6) ∨ busy then none
  else if h : n < 20 then some { s with tags := s.tags.set n (BitVec.ofNat 3 t) h } else some s

/-! ### Reads -/

/-- The commit frontier of the acting hart's selected domain, as CFR and CFRID read it (R52). -/
def frontierWord (s : State) : Word × Word32 :=
  let dm := (partOf s s.cur).map fun v => domain s v (me s).dom.toNat
  match dm with
  | some d => match (if d.active then d.frontier else none) with
    | some k => (w64 k.ts, BitVec.ofNat 32 k.id)
    | none => (BitVec.allOnes 64, BitVec.allOnes 32)
  | none => (BitVec.allOnes 64, BitVec.allOnes 32)

/-- The domain that the acting hart selects is active. -/
def selectedActive (s : State) : Bool := (partOf s s.cur).any fun v => (domain s v (me s).dom.toNat).active

/-- The acting hart owns the matrix engine (R56). -/
def ownsEngine (s : State) : Bool := (me s).ms != 0

/-- TSTAT (R50). -/
def tstatWord (s : State) : Word :=
  if !ownsEngine s then 0
  else
    let q := (me s).mq.length
    w64 (0x10000 + q * 256 + (if (myCore s).short then 2 else 0) + if q = 0 then 0 else 1)

/-- FREEZE as it reads (R256). -/
def freezeWord (s : State) : Word :=
  w64 (s.freezeKind.toNat * 2 ^ 24 + (if freezeState s then 2 ^ 13 else 0) + s.freezeTarget.toNat)

/-- Read a system register; `none` is a number that is not assigned (R44, R53, R62). A read of CFR latches CFRID. CYCLE
counts on while a debug freeze gates the clocks of the island's harts and units, the core's clock being none of those
that R279 names (DESIGN CHOICE, log 99). While a write of MONHART waits for the monitor handler to return (R63), of which a
read R63 says nothing, MONHART reads as the number that is to come (DESIGN CHOICE, log 130). -/
def readSr (s : State) (sr : Nat) : Option (State × Word) :=
  let h := me s
  let val (v : Word) : Option (State × Word) := some (s, v)
  match sr with
  | 0x000 => val (h.vl.setWidth 64)
  | 0x001 => val (h.vstart.setWidth 64)
  | 0x002 => val (vdeclWord h)
  | 0x003 => val (h.vlmax.setWidth 64)
  | 0x004 => val (fpctlWord h)
  | 0x005 => val (h.nbv.setWidth 64)
  | 0x006 => val h.srseed
  | 0x008 => val (if ownsEngine s then tshapeWord (myCore s) else 0)
  | 0x009 => val (tstatWord s)
  | 0x00A => val (h.lc.setWidth 64)
  | 0x010 => val (w64 (myTime s))
  | 0x011 => val (w64 (s.time - (myCore s).cycleBase))
  | 0x012 => val h.instret
  | 0x018 =>
    let f := frontierWord s
    some (onMe s fun h => { h with cfrid := some f.2 }, f.1)
  | 0x019 => val (match taskAt s s.cur with
    | some e => w64 e.key.id
    | none => 0)
  | 0x01A => val (match taskAt s s.cur with
    | some e => w64 e.key.ts
    | none => 0)
  | 0x01B => val (tdomWord h)
  | 0x01C => val ((if selectedActive s then h.cfrid.getD (BitVec.allOnes 32) else BitVec.allOnes 32).setWidth 64)
  | 0x400 => val (statusWord h)
  | 0x401 => val h.tvec
  | 0x402 => val h.epc
  | 0x403 => val (causeWord h)
  | 0x404 => val h.tval
  | 0x405 => val h.vepc
  | 0x406 => val h.scratch
  | 0x407 => val (hartIdWord s.cur)
  | 0x408 => val h.ptbase
  | 0x409 => val ((myCore s).lanepart.setWidth 64)
  | 0x40A => val ((myCore s).split.setWidth 64)
  | 0x40B => val (gangWord h.gang)
  | 0x40C => val (h.prio.setWidth 64)
  | 0x800 => val (if hn : islandOf s.cur < 20 then s.tags[islandOf s.cur].setWidth 64 else 0)
  | 0x801 => val (freezeWord s)
  | 0x802 => val (w64 (s.keyAddr.toNat * 4096 + s.keyState.toNat))
  | 0x803 => val (w64 (s.fwAddr.toNat * 4096 + s.fwState.toNat))
  | 0x804 => val (match s.newMonhart with
    | some p => p.2.2.setWidth 64
    | none => s.monhart.setWidth 64)
  | 0x805 => val (w64 (s.hartctlMode.toNat * 65536 + (if s.hartctlSteward then 32768 else 0) + s.hartctlNum.toNat))
  | 0x806 => val s.hartpc
  | _ => none

/-! ### Writes -/

/-- How a write of a system register ends. -/
inductive SrWrite where
  | ok (s : State)
  | trap (code : Byte)
  | wait (w : Wait)

/-- 0x65 where the write is illegal. -/
def orIllegal : Option State → SrWrite
  | some s => .ok s
  | none => .trap 0x65

/-- STATUS.VS takes a new value (R55, R59). -/
def setVs (new : BitVec 2) (h : Hart) : Hart :=
  if new = 0 then { releaseGroups h with vs := 0 }
  else if new = 1 then { zeroVector h with vs := 1 }
  else { h with vs := new }

/-- A write of STATUS (R39, R54 to R56, R180). One that clears LATE discards the held convoy first, so that it does not
wait for it; one that leaves LATE set and writes VS off or initial waits for the held convoy, which only a TRET ends
(DEDUCED, log 104). -/
def writeStatus (s : State) (v : Word) : SrWrite :=
  let h := if (me s).late && !bit v 10 then dropHeld (me s) else me s
  let vs := BitVec.ofNat 2 (bits v 5 4)
  let ms := if isSteward s.cur then 0 else BitVec.ofNat 2 (bits v 7 6)
  if h.ms = 0 ∧ ms ≠ 0 ∧ engineTaken s s.cur then .trap 0x66
  else if (vs = 0 ∨ vs = 1) ∧ (!vectorEmpty h ∨ movesPending h) then .wait .vqEmpty
  else if (ms = 0 ∨ ms = 1) ∧ !matrixEmpty h then .wait .mqEmpty
  else
    let h1 := setVs vs { h with
      late := bit v 10, ms := ms, pmode := pmodeOf (BitVec.ofNat 2 (bits v 3 2)), pie := bit v 1, ie := bit v 0 }
    let s1 := onMe s fun _ => h1
    .ok (if ms = 1 then onCore s1 (coreOf s.cur) zeroMatrix else s1)

/-- A TSHAPE value that keeps R50: in range, and all zero or all non-zero. -/
def tshapeLegal (v : Nat) : Bool :=
  let kb := v / 65536 % 256
  let n := v / 256 % 64
  let m := v % 64
  tshapeOk v && ((kb == 0 && n == 0 && m == 0) || (kb != 0 && n != 0 && m != 0))

/-- The matrix state is written: it becomes dirty (R55). -/
def dirtyMatrix (s : State) : State := onMe s fun h => { h with ms := 2 }

/-- A write of TSHAPE; one by a hart that does not own the engine is ignored (R50). -/
def writeTshape (s : State) (v : Word) : SrWrite :=
  if !ownsEngine s then .ok s
  else if !tshapeLegal v.toNat then .trap 0x65
  else .ok (dirtyMatrix (onCore s (coreOf s.cur) fun c =>
    { c with kb := BitVec.ofNat 8 (bits v 23 16), n := BitVec.ofNat 6 (bits v 13 8), m := BitVec.ofNat 6 (bits v 5 0)
             shapeSeq := c.shapeSeq + 1 }))

/-- The acting hart's writes to LANEPART and LOCALSPLIT are ignored: a supervisor's on a managed core (R234). -/
def managedWrite (s : State) : Bool := isManaged s (coreOf s.cur) && (me s).mode == .supervisor

/-- A write of LOCALSPLIT (R60); `d` is where SWAPSR puts the old value. -/
def writeSplit (s : State) (d : Reg) (v : Word) : SrWrite :=
  let c := coreOf s.cur
  let n := bits v 2 0
  if 4 < n then .trap 0x65
  else if managedWrite s ∨ (core s c).split = BitVec.ofNat 3 n then .ok s
  else if splitFree s c then .ok (setSplit s c (BitVec.ofNat 3 n))
  else .wait (.localsplit d v)

/-- Write a system register that is assigned (R389). -/
def writeSr (s : State) (sr : Nat) (d : Reg) (v : Word) : SrWrite :=
  let put (f : Hart → Hart) : SrWrite := .ok (onMe s f)
  match sr with
  | 0x001 => put fun h => { h with vstart := BitVec.ofNat 14 (v.toNat % 8192) }
  | 0x004 => put fun h => { h with flags := BitVec.ofNat 6 (bits v 10 5), rm := BitVec.ofNat 3 (bits v 2 0) }
  | 0x005 => put fun h => { h with nbv := BitVec.ofNat 8 (bits v 7 0) }
  | 0x006 => put fun h => { h with srseed := v, seedSeq := h.seedSeq + 1 }
  | 0x008 => writeTshape s v
  | 0x009 =>
    if ownsEngine s && bit v 1 then .ok (dirtyMatrix (onCore s (coreOf s.cur) fun c => { c with short := false }))
    else .ok s
  | 0x00A => put fun h => { h with lc := BitVec.ofNat 32 (bits v 31 0) }
  | 0x01B => put fun h => { h with dom := BitVec.ofNat 4 (bits v 3 0) }
  | 0x400 => writeStatus s v
  | 0x401 => put fun h => { h with tvec := tvecOf v }
  | 0x402 => put fun h => { h with epc := v &&& ~~~3#64 }
  | 0x403 => put fun h => { h with causeCode := BitVec.ofNat 8 (bits v 7 0), causeOrig := BitVec.ofNat 8 (bits v 15 8) }
  | 0x404 => put fun h => { h with tval := v }
  | 0x405 => put fun h => { h with vepc := v }
  | 0x406 => put fun h => { h with scratch := v }
  | 0x408 => put fun h => { h with ptbase := ptbaseOf v }
  | 0x409 =>
    if !lanepartOk (bits v 15 0) then .trap 0x65
    else if managedWrite s then .ok s
    else .ok (onCore s (coreOf s.cur) fun c => { c with lanepart := BitVec.ofNat 16 (bits v 15 0) })
  | 0x40A => writeSplit s d v
  | 0x40C => put fun h => { h with prio := BitVec.ofNat 2 (bits v 1 0) }
  | 0x800 => orIllegal (writeParttag s s.cur (islandOf s.cur) v)
  | 0x801 => orIllegal (writeFreeze s v)
  | 0x802 => .ok (writeKeyctl s v)
  | 0x803 => .ok (writeFwctl s v)
  | 0x804 => orIllegal (writeMonhart s s.cur v)
  | 0x805 => orIllegal (writeHartctl s v)
  | 0x806 => .ok { s with hartpc := v &&& ~~~3#64 }
  | _ => .ok s

/-! ### GETSR, SETSR, SWAPSR -/

/-- The check of a number (R37): the cause it raises. -/
def srCheck (s : State) (sr : Nat) : Option Byte :=
  if sr / 1024 = 3 then some 0x04
  else if (me s).mode.code.toNat < sr / 1024 then some 0x03
  else if (readSr s sr).isNone then some 0x04
  else none

/-- A read waits for the hart's older vector and matrix instructions (R39, R355). -/
def srReadWaits (s : State) (sr : Nat) : Bool :=
  (sr == 0x004 || sr == 0x009) && !(vectorQuiet (me s) && matrixEmpty (me s))

/-- A read of CFR waits while the batch of the selected domain's frontier has not committed, so that no hart sees a
frontier whose stores it cannot read (R202, R220). -/
def frontierWaits (s : State) (sr : Nat) : Bool :=
  sr == 0x018 && (partOf s s.cur).any fun v => (domain s v (me s).dom.toNat).active && (domain s v (me s).dom.toNat).commitDue

/-- A write of FPCTL takes effect after the flags of the hart's older vector and matrix instructions have been merged
(R82). -/
def srWriteWaits (s : State) (sr : Nat) : Bool := sr == 0x004 && srReadWaits s sr

/-- GETSR (R37, R355). -/
def execGetsr (d : Reg) (sr : BitVec 12) (s : State) : Out :=
  match srCheck s sr.toNat with
  | some c => outTrap c (sr.setWidth 64) s
  | none =>
    if srReadWaits s sr.toNat then .next (waitOn .queues s)
    else if frontierWaits s sr.toNat then .next (waitOn .conflict s)
    else match readSr s sr.toNat with
      | some (s1, v) => outX d v s1
      | none => outTrap 0x04 (sr.setWidth 64) s

/-- The write of a SETSR or SWAPSR after its checks; `d` receives `old`. -/
def srStore (d : Reg) (old : Word) (sr : Nat) (v w : Word) (s : State) : State :=
  match writeSr s sr d v with
  | .ok s1 => retireX d old s1
  | .trap c => raise c w s
  | .wait x => waitOn x s

/-- SETSR (R389). -/
def execSetsr (a : Reg) (sr : BitVec 12) (s : State) : Out :=
  .next (irrevocably s fun s =>
    match srCheck s sr.toNat with
    | some c => raise c (sr.setWidth 64) s
    | none =>
      if srWriteWaits s sr.toNat then waitOn .queues s
      else srStore 0 0 sr.toNat (rx s a) (leadWord (.setsr a sr)) s)

/-- SWAPSR (R389). -/
def execSwapsr (d a : Reg) (sr : BitVec 12) (s : State) : Out :=
  .next (irrevocably s fun s =>
    match srCheck s sr.toNat with
    | some c => raise c (sr.setWidth 64) s
    | none =>
      if srReadWaits s sr.toNat then waitOn .queues s
      else if frontierWaits s sr.toNat then waitOn .conflict s
      else match readSr s sr.toNat with
        | some (s1, old) => srStore d old sr.toNat (rx s a) (leadWord (.swapsr d a sr)) s1
        | none => raise 0x04 (sr.setWidth 64) s)

/-- LOCALSPLIT_RESIZE: a waiting write of LOCALSPLIT is performed (R60), and what it held goes on, checked against the new
S (R151). One of a supervisor is ignored where the core has become managed meanwhile (R234). -/
def execLocalsplitResize (h : Nat) (s : State) : Out :=
  match (hart s h).wait with
  | some (.localsplit d v) =>
    let s1 := { s with cur := h }
    let old : Word := (core s (coreOf h)).split.setWidth 64
    if managedWrite s1 then .next (retireX d old s1)
    else if splitFree s (coreOf h) then .next (retireX d old (setSplit s1 (coreOf h) (BitVec.ofNat 3 (bits v 2 0))))
    else .next s
  | _ => .next s

/-- REGISTER_WRITE: a write of a system register by a hart of a mode that may write it, or of an MMIO register (R265).
What the write would trap on, wait for or be held for leaves everything as it is: that is the writing instruction's
own meaning. -/
def execRegisterWrite (who : Who) (r : RegAddr) (v : Word) (s : State) : Out :=
  match r with
  | .mmio pa => .next (registerStore s who pa v)
  | .sr n => match who with
    | .vf _ => .next s
    | .hart h =>
      let s1 := { s with cur := h }
      if (srCheck s1 n.toNat).isSome || srWriteWaits s1 n.toNat then .next s
      else match writeSr s1 n.toNat 0 v with
        | .ok s2 => .next { s2 with cur := s.cur }
        | _ => .next s

end Sys2Proof.Machine
end

