-- ==== Sys2Proof/Machine/Vector.lean ====
section
/-!
DEFINITION. The vector instructions: their operands, how a convoy enters the vector queue, issues and drains, and the
scalar results it leaves (spec/05_vectors.md R105 to R119; spec/17 R361 to R363; spec/19 R399 to R426;
spec/08 R177 to R179; spec/18 R387; spec/02 R39, R49).
-/
namespace Sys2Proof.Machine

/-! ### Operands -/

/-- The second source of an element operation (R291). -/
def vArg : VSrc → VArg
  | .reg b => .vreg b
  | .imm i => .imm i
/-- A stride, an amount or an index: the x register, or IMM32 sign-extended (R403, R422). -/
def amountOf (x : Hart) : VSrc → Word
  | .reg b => getX x b
  | .imm i => i.signExtend 64
/-- The source of VBCAST: xa, the value of fa read under R41, or IMM32 (R422). -/
def scalarArg (x : Hart) (a : VSrc) (t : Ty) : VArg :=
  match a with
  | .reg r => .scalar (if t.isAnyFp then w64 (unboxF t (getF x r)) else getX x r)
  | .imm i => .imm i

/-! ### What each instruction does, with the scalars it captures -/

/-- VADD (R411). -/
def actVadd (d a : Reg) (b : VSrc) (t : Ty) : VAct := .int .add d a (vArg b) t
/-- VSUB (R411). -/
def actVsub (d a : Reg) (b : VSrc) (t : Ty) : VAct := .int .sub d a (vArg b) t
/-- VMUL (R411). -/
def actVmul (d a : Reg) (b : VSrc) (t : Ty) : VAct := .int .mul d a (vArg b) t
/-- VMIN (R411). -/
def actVmin (d a : Reg) (b : VSrc) (t : Ty) : VAct := .int .min d a (vArg b) t
/-- VMAX (R411). -/
def actVmax (d a : Reg) (b : VSrc) (t : Ty) : VAct := .int .max d a (vArg b) t
/-- VAND (R411). -/
def actVand (d a : Reg) (b : VSrc) (t : Ty) : VAct := .int .and d a (vArg b) t
/-- VOR (R411). -/
def actVor (d a : Reg) (b : VSrc) (t : Ty) : VAct := .int .or d a (vArg b) t
/-- VXOR (R411). -/
def actVxor (d a : Reg) (b : VSrc) (t : Ty) : VAct := .int .xor d a (vArg b) t
/-- VSHL (R411). -/
def actVshl (d a : Reg) (b : VSrc) (t : Ty) : VAct := .int .shl d a (vArg b) t
/-- VSHR (R411). -/
def actVshr (d a : Reg) (b : VSrc) (t : Ty) : VAct := .int .shr d a (vArg b) t
/-- VSAR (R411). -/
def actVsar (d a : Reg) (b : VSrc) (t : Ty) : VAct := .int .sar d a (vArg b) t
/-- VADDS (R411). -/
def actVadds (d a : Reg) (b : VSrc) (t : Ty) : VAct := .int .adds d a (vArg b) t
/-- VSUBS (R411). -/
def actVsubs (d a : Reg) (b : VSrc) (t : Ty) : VAct := .int .subs d a (vArg b) t
/-- VMULH (R411). -/
def actVmulh (d a b : Reg) (t : Ty) : VAct := .int .mulh d a (.vreg b) t
/-- VABSD (R411). -/
def actVabsd (d a b : Reg) (t : Ty) : VAct := .int .absd d a (.vreg b) t
/-- VMADD (R411). -/
def actVmadd (d a b c : Reg) (t : Ty) : VAct := .madd d a b c t
/-- VWIDEN (R412). -/
def actVwiden (d a : Reg) (t t2 : Ty) : VAct := .widen d a t t2
/-- VNARROW (R412). -/
def actVnarrow (d a : Reg) (t t2 : Ty) (sat : Bool) : VAct := .narrow d a t t2 sat
/-- VCMP (R413). -/
def actVcmp (d : BitVec 3) (a : Reg) (b : VSrc) (t : Ty) (c : VCond) : VAct := .cmp d a (vArg b) t c
/-- VFADD (R414). -/
def actVfadd (d a : Reg) (b : VSrc) (t : Ty) : VAct := .fp .add d a (vArg b) t
/-- VFSUB (R414). -/
def actVfsub (d a : Reg) (b : VSrc) (t : Ty) : VAct := .fp .sub d a (vArg b) t
/-- VFMUL (R414). -/
def actVfmul (d a : Reg) (b : VSrc) (t : Ty) : VAct := .fp .mul d a (vArg b) t
/-- VFMIN (R414). -/
def actVfmin (d a : Reg) (b : VSrc) (t : Ty) : VAct := .fp .min d a (vArg b) t
/-- VFMAX (R414). -/
def actVfmax (d a : Reg) (b : VSrc) (t : Ty) : VAct := .fp .max d a (vArg b) t
/-- VFDIV (R414). -/
def actVfdiv (d a b : Reg) (t : Ty) : VAct := .fp .div d a (.vreg b) t
/-- VFSQRT (R414). -/
def actVfsqrt (d a : Reg) (t : Ty) : VAct := .fp .sqrt d a (.vreg a) t
/-- VFMA (R414). -/
def actVfma (d a b c : Reg) (t : Ty) (form : FmaForm) : VAct := .fma d a b c t form
/-- VFCMP (R415). -/
def actVfcmp (d : BitVec 3) (a : Reg) (b : VSrc) (t : Ty) (c : FCond) : VAct := .fcmp d a (vArg b) t c
/-- VFCVT (R416). -/
def actVfcvt (d a : Reg) (t t2 : Ty) : VAct := .fcvt d a t t2
/-- VSF (R417). -/
def actVsf (d a : Reg) (t : Ty) (fn : SfFn) : VAct := .sf d a t fn
/-- VREDSUM (R420). -/
def actVredsum (d a : Reg) (t : Ty) (x : Hart) : VAct := .red .sum d a t (getX x d)
/-- VREDMIN (R420). -/
def actVredmin (d a : Reg) (t : Ty) (x : Hart) : VAct := .red .min d a t (getX x d)
/-- VREDMAX (R420). -/
def actVredmax (d a : Reg) (t : Ty) (x : Hart) : VAct := .red .max d a t (getX x d)
/-- VFREDSUM (R419). -/
def actVfredsum (d a : Reg) (t t2 : Ty) (x : Hart) : VAct := .fred .sum d a t t2 (getF x d)
/-- VFREDMIN (R420). -/
def actVfredmin (d a : Reg) (t t2 : Ty) (x : Hart) : VAct := .fred .min d a t t2 (getF x d)
/-- VFREDMAX (R420). -/
def actVfredmax (d a : Reg) (t t2 : Ty) (x : Hart) : VAct := .fred .max d a t t2 (getF x d)
/-- VSCAN (R421). -/
def actVscan (d a c : Reg) (t t2 : Ty) (x : Hart) : VAct := .scan d a c t (if t.isAnyFp then t2 else t) (if t.isAnyFp then getF x c else getX x c)
/-- VSLIDEUP (R422). -/
def actVslideup (d a : Reg) (b : VSrc) (t : Ty) (x : Hart) : VAct := .slideUp d a (amountOf x b) t
/-- VSLIDEDN (R422). -/
def actVslidedn (d a : Reg) (b : VSrc) (t : Ty) (x : Hart) : VAct := .slideDn d a (amountOf x b) t
/-- VGATHER (R423). -/
def actVgather (d a b : Reg) (t : Ty) (iw : Size) : VAct := .gather d a b t iw
/-- VCOMPRESS (R424). -/
def actVcompress (d a : Reg) (t : Ty) : VAct := .compress d a t
/-- VEXPAND (R424). -/
def actVexpand (d a : Reg) (t : Ty) : VAct := .expand d a t
/-- VMERGE (R422). -/
def actVmerge (d a : Reg) (b : VSrc) (t : Ty) : VAct := .merge d a (vArg b) t
/-- VBCAST (R422). -/
def actVbcast (d : Reg) (a : VSrc) (t : Ty) (x : Hart) : VAct := .bcast d (scalarArg x a t) t
/-- VMVX (R422). -/
def actVmvx (d a : Reg) (t : Ty) (x : Hart) : VAct := .moveX d (getX x a) t
/-- VMVS (R422). -/
def actVmvs (d a : Reg) (b : VSrc) (t : Ty) (x : Hart) : VAct := .moveS d a (amountOf x b) t
/-- VMOV (R422). -/
def actVmov (d a : Reg) (t : Ty) : VAct := .move d a t
/-- VIOTA (R422). -/
def actViota (d : Reg) (t : Ty) : VAct := .iota d t
/-- VBQ (R425). -/
def actVbq (d a c : Reg) (t t2 : Ty) : VAct := .quant d a c t t2
/-- VBDQ (R426). -/
def actVbdq (d a : Reg) (t t2 : Ty) : VAct := .dequant d a t t2
/-- VLD (R403, R404). -/
def actVld (d a : Reg) (t : Ty) (x : Hart) : VAct := .load d t (.unit (getX x a))
/-- VST (R403, R404). -/
def actVst (d a : Reg) (t : Ty) (x : Hart) : VAct := .store d t (.unit (getX x a))
/-- VLDFF (R405). -/
def actVldff (d a : Reg) (t : Ty) (x : Hart) : VAct := .loadFF d t (.unit (getX x a))
/-- VLDS (R403, R404). -/
def actVlds (d a : Reg) (b : VSrc) (t : Ty) (x : Hart) : VAct := .load d t (.strided (getX x a) (amountOf x b))
/-- VSTS (R403, R404). -/
def actVsts (d a : Reg) (b : VSrc) (t : Ty) (x : Hart) : VAct := .store d t (.strided (getX x a) (amountOf x b))
/-- VLDX (R403, R404). -/
def actVldx (d a b : Reg) (t : Ty) (iw : Size) (x : Hart) : VAct := .load d t (.indexed (getX x a) b iw)
/-- VSTX (R403, R404). -/
def actVstx (d a b : Reg) (t : Ty) (iw : Size) (x : Hart) : VAct := .store d t (.indexed (getX x a) b iw)
/-- VBPLD (R408). -/
def actVbpld (d a : Reg) (wm1 : BitVec 4) (x : Hart) : VAct := .planeLoad d (getX x a) (wm1.toNat + 1)
/-- VBPST (R408). -/
def actVbpst (d a : Reg) (wm1 : BitVec 4) (x : Hart) : VAct := .planeStore d (getX x a) (wm1.toNat + 1)
/-- VBPDOT (R409). -/
def actVbpdot (d a b : Reg) (t : Ty) (wam1 wbm1 : BitVec 4) : VAct := .planeDot d a b t (wam1.toNat + 1) (wbm1.toNat + 1)
/-- VBPCVT toward planes (R410). -/
def actVbpcvtToplanes (d a : Reg) (t : Ty) (wm1 : BitVec 4) : VAct := .toPlanes d a t (wm1.toNat + 1)
/-- VBPCVT toward a packed register (R410). -/
def actVbpcvtTopacked (d a : Reg) (t : Ty) (wm1 : BitVec 4) : VAct := .toPacked d a t (wm1.toNat + 1)
/-- KAND (R363). -/
def actKand (d a b : BitVec 3) : VAct := .kop .and d a b
/-- KOR (R363). -/
def actKor (d a b : BitVec 3) : VAct := .kop .or d a b
/-- KXOR (R363). -/
def actKxor (d a b : BitVec 3) : VAct := .kop .xor d a b
/-- KNOT (R363). -/
def actKnot (d a : BitVec 3) : VAct := .knot d a
/-- KPOPC (R363). -/
def actKpopc (d : Reg) (a : BitVec 3) : VAct := .kpopc d a
/-- KFIRST (R363). -/
def actKfirst (d : Reg) (a : BitVec 3) : VAct := .kfirst d a
/-- KSET (R363). -/
def actKset (d : BitVec 3) (a : Reg) (x : Hart) : VAct := .kset d (getX x a)
/-- VSAVE (R406). -/
def actVsave (a : Reg) (x : Hart) : VAct := .save (getX x a)
/-- VREST (R406, R119). -/
def actVrest (a : Reg) (x : Hart) : VAct := .restore (getX x a)
/-- The member an instruction is in a convoy: its convoy bit and mask, and what it does. -/
def memberOf (x : Hart) : Instr → Option (VHdr × VAct)
  | .vadd h d a b t => some (h, actVadd d a b t)
  | .vsub h d a b t => some (h, actVsub d a b t)
  | .vmul h d a b t => some (h, actVmul d a b t)
  | .vmin h d a b t => some (h, actVmin d a b t)
  | .vmax h d a b t => some (h, actVmax d a b t)
  | .vand h d a b t => some (h, actVand d a b t)
  | .vor h d a b t => some (h, actVor d a b t)
  | .vxor h d a b t => some (h, actVxor d a b t)
  | .vshl h d a b t => some (h, actVshl d a b t)
  | .vshr h d a b t => some (h, actVshr d a b t)
  | .vsar h d a b t => some (h, actVsar d a b t)
  | .vadds h d a b t => some (h, actVadds d a b t)
  | .vsubs h d a b t => some (h, actVsubs d a b t)
  | .vmulh h d a b t => some (h, actVmulh d a b t)
  | .vabsd h d a b t => some (h, actVabsd d a b t)
  | .vmadd h d a b c t => some (h, actVmadd d a b c t)
  | .vwiden h d a t t2 => some (h, actVwiden d a t t2)
  | .vnarrow h d a t t2 sat => some (h, actVnarrow d a t t2 sat)
  | .vcmp h d a b t c => some (h, actVcmp d a b t c)
  | .vfadd h d a b t => some (h, actVfadd d a b t)
  | .vfsub h d a b t => some (h, actVfsub d a b t)
  | .vfmul h d a b t => some (h, actVfmul d a b t)
  | .vfmin h d a b t => some (h, actVfmin d a b t)
  | .vfmax h d a b t => some (h, actVfmax d a b t)
  | .vfdiv h d a b t => some (h, actVfdiv d a b t)
  | .vfsqrt h d a t => some (h, actVfsqrt d a t)
  | .vfma h d a b c t form => some (h, actVfma d a b c t form)
  | .vfcmp h d a b t c => some (h, actVfcmp d a b t c)
  | .vfcvt h d a t t2 => some (h, actVfcvt d a t t2)
  | .vsf h d a t fn => some (h, actVsf d a t fn)
  | .vredsum h d a t => some (h, actVredsum d a t x)
  | .vredmin h d a t => some (h, actVredmin d a t x)
  | .vredmax h d a t => some (h, actVredmax d a t x)
  | .vfredsum h d a t t2 => some (h, actVfredsum d a t t2 x)
  | .vfredmin h d a t t2 => some (h, actVfredmin d a t t2 x)
  | .vfredmax h d a t t2 => some (h, actVfredmax d a t t2 x)
  | .vscan h d a c t t2 => some (h, actVscan d a c t t2 x)
  | .vslideup h d a b t => some (h, actVslideup d a b t x)
  | .vslidedn h d a b t => some (h, actVslidedn d a b t x)
  | .vgather h d a b t iw => some (h, actVgather d a b t iw)
  | .vcompress h d a t => some (h, actVcompress d a t)
  | .vexpand h d a t => some (h, actVexpand d a t)
  | .vmerge h d a b t => some (h, actVmerge d a b t)
  | .vbcast h d a t => some (h, actVbcast d a t x)
  | .vmvx h d a t => some (h, actVmvx d a t x)
  | .vmvs h d a b t => some (h, actVmvs d a b t x)
  | .vmov h d a t => some (h, actVmov d a t)
  | .viota h d t => some (h, actViota d t)
  | .vbq h d a c t t2 => some (h, actVbq d a c t t2)
  | .vbdq h d a t t2 => some (h, actVbdq d a t t2)
  | .vld h d a t => some (h, actVld d a t x)
  | .vst h d a t => some (h, actVst d a t x)
  | .vldff h d a t => some (h, actVldff d a t x)
  | .vlds h d a b t => some (h, actVlds d a b t x)
  | .vsts h d a b t => some (h, actVsts d a b t x)
  | .vldx h d a b t iw => some (h, actVldx d a b t iw x)
  | .vstx h d a b t iw => some (h, actVstx d a b t iw x)
  | .vbpld cv d a wm1 => some (⟨cv, 0⟩, actVbpld d a wm1 x)
  | .vbpst cv d a wm1 => some (⟨cv, 0⟩, actVbpst d a wm1 x)
  | .vbpdot cv d a b t wam1 wbm1 => some (⟨cv, 0⟩, actVbpdot d a b t wam1 wbm1)
  | .vbpcvtToplanes cv d a t wm1 => some (⟨cv, 0⟩, actVbpcvtToplanes d a t wm1)
  | .vbpcvtTopacked cv d a t wm1 => some (⟨cv, 0⟩, actVbpcvtTopacked d a t wm1)
  | .kand d a b => some (⟨false, 0⟩, actKand d a b)
  | .kor d a b => some (⟨false, 0⟩, actKor d a b)
  | .kxor d a b => some (⟨false, 0⟩, actKxor d a b)
  | .knot d a => some (⟨false, 0⟩, actKnot d a)
  | .kpopc d a => some (⟨false, 0⟩, actKpopc d a)
  | .kfirst d a => some (⟨false, 0⟩, actKfirst d a)
  | .kset d a => some (⟨false, 0⟩, actKset d a x)
  | .vsave a => some (⟨false, 0⟩, actVsave a x)
  | .vrest a => some (⟨false, 0⟩, actVrest a x)  | _ => none

/-! ### The words of a convoy (R110, R112, R114, R284) -/

/-- A member from its words; one that does not decode keeps its cause and belongs to no class (R295). -/
def memberOfWords (x : Hart) (ws : List Nat) : Member :=
  let w0 := ws.headD 0
  let w1 := (ws.drop 1).headD 0
  match decode w0 w1 ((ws.drop 2).headD 0) with
  | .ok i => match memberOf x i with
    | some (h, a) => ⟨w0, h.cv, h.km, some a, 0⟩
    | none => ⟨w0, (secondFields w1).cv == 1, 0, none, 0x01⟩
  | .error r => ⟨w0, (secondFields w1).cv == 1, 0, none, r.cause⟩

/-- What follows a member with CV = 1: the members with their addresses, those that decode as instructions, the word that
breaks rule 1 or 2, and the address after them. -/
structure Rest where
  members : List Member := []
  places : List Word := []
  instrs : List Instr := []
  breaker : Option Nat := none
  after : Word

/-- A member stands before the rest. -/
def Rest.cons (x : Hart) (pc : Word) (ws : List Nat) (r : Rest) : Rest :=
  { r with
    members := memberOfWords x ws :: r.members, places := pc :: r.places
    instrs := (decodeWords ws).toOption.toList ++ r.instrs }

/-- Fetch what follows at an address, at most so many members; a captured body serves every word of its instructions
(R116). -/
def fetchRest (h : Nat) : Nat → State → Word → Except (State × Bad) (State × Rest)
  | fuel, s, pc =>
    match leadingWord s h pc with
    | .error e => .error e
    | .ok (s1, w0) =>
      if !isVectorWord w0 then .ok (s1, { breaker := some w0, after := pc })
      else match fuel with
        | 0 => .ok (s1, { breaker := some w0, after := pc })
        | k + 1 =>
          match fetchInstr s1 h pc with
          | .error e => .error e
          | .ok (s2, ws) =>
            let next := pc + w64 (4 * ws.length)
            let add := Rest.cons (hart s h) pc ws
            if (memberOfWords (hart s h) ws).cv then (fetchRest h k s2 next).map fun r => (r.1, add r.2)
            else .ok (s2, add { after := next })

/-! ### The checks at queue entry (R399) -/

/-- The lowest cause of a member's state checks (R399 steps 2 to 7). SETWM has none (R199). -/
def memberCheck (h : Hart) (m : Member) : Option Byte :=
  match m.act with
  | none => none
  | some (.setwm _ _ _) => none
  | some a =>
    if h.lanes = 0 then some 0x0C
    else if a.isFp && (h.nbv == 0 || decide (3 < h.nbv.toNat)) then some 0x60
    else if h.vs = 0 then some 0x61
    else if a.rounds && decide (5 < h.rm.toNat) then some 0x64
    else if (a.readsV ++ a.writesV).any fun r => decide (regCount h.regs ≤ r) then some 0x67
    else if 8 * 2 ^ h.ew.toNat < a.declWidth then some 0x68
    else none

/-- What the acting hart's instructions capture now (R39, R127). -/
def captureOf (s : State) : Captured :=
  let h := me s
  let c := myCore s
  { vl := h.vl.toNat, vlSeq := h.vlSeq, vstart := h.vstart.toNat, lanes := h.lanes.toNat, regs := h.regs, ew := h.ew, nbv := h.nbv
    rm := h.rm, seed := h.srseed, seedSeq := h.seedSeq, kb := c.kb.toNat, n := c.n.toNat, m := c.m.toNat, short := c.short
    shapeSeq := c.shapeSeq, mode := h.mode, ptbase := h.ptbase }

/-- The members with their captures: one that draws advances SRSEED for the next (R49, R76). -/
def captureMembers (cap : Captured) : List Member → List VMember × Word
  | [] => ([], cap.seed)
  | m :: ms =>
    match m.act with
    | none => captureMembers cap ms
    | some a =>
      let next := if a.draws && cap.rm == 5 then cap.seed + w64 cap.vl else cap.seed
      let r := captureMembers { cap with seed := next } ms
      (⟨a, m.km, cap⟩ :: r.1, r.2)

/-- Instructions in the vector queue: those not yet drained (R19). -/
def vqCount (h : Hart) : Nat :=
  h.vq.foldl (fun n c => n + c.members.length) (h.flight.elim 0 fun f => f.convoy.members.length)

/-- An exposed instruction of the hart has not entered the memory pipeline whole (R178). The convoy that a late vector
fault holds is one, so a vector or matrix instruction of its handler waits until TRET resumes it or a SETSR discards it:
R180 does not say whether one may enter a queue meanwhile, and its elements have still not entered the memory pipeline
(DEDUCED from R178, log 102). -/
def exposedPending (s : State) (h : Nat) : Bool :=
  let x := hart s h
  x.vq.any (·.exposed) || x.heldConvoy.isSome
    || x.flight.any fun f => f.convoy.exposed && decide (s.time < f.lsStart + f.lsBeats)

/-- The v and k registers whose values the probe of a memory member needs (R114): its index and mask, and what the members
before it in its convoy compute these from. -/
def probeNeeds (ms : List VMember) (m : VMember) : List Nat × List Nat :=
  let mask (m : VMember) : List Nat := if m.km = 0 then [] else [m.km.toNat]
  ms.foldr (fun p need =>
    if p.act.writesV.any (· ∈ need.1) || p.act.writesK.any (· ∈ need.2) then (need.1 ++ p.act.readsV, need.2 ++ mask p)
    else need) (m.act.addrRegs, mask m)

/-- A queued instruction of a hart that is still to write one of these registers, by its place: the probe waits for it
(R114). -/
def probeBlocker (x : Hart) (need : List Nat × List Nat) : Option Nat :=
  let writes (c : Convoy) : Bool := c.members.any fun m => match m.act with
    | .restore _ => !(need.1.isEmpty && need.2.isEmpty)
    | a => a.writesV.any (· ∈ need.1) || a.writesK.any (· ∈ need.2)
  let moves (e : MEntry) : Bool := match e.act with
    | .toVector d _ _ _ => d.toNat ∈ need.1
    | _ => false
  (((convoysOf x).find? writes).map (·.seq)).or ((x.mq.find? moves).map (·.seq))

/-- The alignment cause of an instruction's address (R387, R406). -/
def alignCheck : VAct → Option (Byte × Word)
  | .save a | .restore a => if a.toNat % 64 = 0 then none else some (0x46, a)
  | .setwm a _ _ => if a.toNat % 8 = 0 then none else some (0x26, a)
  | _ => none

/-- The header check of VREST on its pinned image: an error is where the instruction ends (R119). The read of a header
outside memory is held for an irrevocable task first (R222, R402). -/
def restoreHeader (s : State) (w : Word) (ps : List Piece) : Except State State :=
  match (if isIrrevocable true ps then irrevocable s else .go s) with
  | .stop s1 => .error s1
  | .go s0 => match trackRead s0 (ps.filter fun p => tracked p.pa) with
    | .stop s1 => .error s1
    | .go s1 =>
      match poisonIn s1 (pieceBytes ps) with
      | some p => .error (haltHart s1 s.cur 2 0 p.1 (me s).pc)
      | none =>
        if vectorHeaderOk (me s) (readCells s1 (pieceBytes ps)) then
          .ok (touch (loadVectorLine (coreOf s.cur)) s1 (spansOf ps))
        else .error (raise 0x69 w s1)

/-- The members enter the queue as one convoy (R110, R400): VSTART is 0, SRSEED has advanced, VLDFF has settled VL and
loads the elements below it, and the hart goes on after them, or waits for a scalar destination (R115, R401). The members
count in INSTRET as they leave the scalar side here: R51 names no moment (DESIGN CHOICE, log 84). -/
def placeConvoy (ms : List VMember) (seed : Word) (after : Word) (pins : List Pin) (vl : Option Nat)
    (s : State) : State :=
  let isSet := ms.any fun m => match m.act with | .setwm _ _ _ => true | _ => false
  onMe s fun h =>
    let c : Convoy :=
      { pc := h.pc, members := ms, pins := pins, seq := h.queued, after := h.vvFence, mem := ms.any (·.act.isMem)
        exposed := ms.any (·.act.isExposed), start := 0, reprobe := none, limit := vl.getD 16384 }
    let waits := ms.any fun m => m.act.scalarDest.isSome
    { h with
      vq := h.vq ++ [c], queued := h.queued + ms.length, pc := after, instret := h.instret + w64 ms.length
      wait := if waits then some .dest else none
      vstart := if isSet then h.vstart else 0, srseed := seed
      vl := match vl with | some f => BitVec.ofNat 14 f | none => h.vl }

/-- The first member of a list that fails a check of R399, with its cause. -/
def failing (h : Hart) (ms : List Member) : Option (Byte × Member) :=
  ms.findSome? fun m => (memberCheck h m).map fun c => (c, m)

/-- A queued store of a hart to a page of these pins, by its place: what is read there at queue entry follows it (R192). -/
def storeBefore (x : Hart) (pins : List Pin) : Option Nat :=
  (((convoysOf x).find? fun c => c.members.any (·.act.isStore) && pinsMeet c.pins pins).map (·.seq)).or
    ((x.mq.find? fun e => e.act.isStore && pinsMeet e.pins pins).map (·.seq))

/-- The memory member of a convoy is probed, VREST after its header has passed (R119, R406): the read of the header follows
older stores, and acts on the triggers on its bytes first (R278). -/
def probeMember (s : State) (e : VEnv) (m : VMember) (word : Word) : Probed :=
  match m.act with
  | .restore base =>
    let header : List VAccess := [⟨0, base, 64⟩]
    match probeAll (memberAccess s m) s header with
    | .error (s1, _, b) => .stop (badVector 2 .load b s1)
    | .ok (s1, ps) => match storeBefore (me s) (pinsOf ps) with
      | some n => .stop (waitOn (.older n) s)
      | none => match triggersAct 0x50 (vectorHits s1 false header) s1 with
        | .stop s2 => .stop s2
        | .go s2 => match restoreHeader s2 word ps with
          | .error s3 => .stop s3
          | .ok s3 => probe s3 e m 64
  | _ => probe s e m

/-- The members of a legal convoy go through the checks of R399 and the probe, and enter the queue. The first failing
member in program order decides (R114), the probe of the memory member standing last among its own checks. Behind the
encoding causes an x or f register is read: one with uncorrectable data takes 0xC6, and one that the mask of an MCAST is
still to be written to waits (R140, R259). -/
def enterMembers (ms : List Member) (is : List Instr) (after : Word) (s : State) : State :=
  let h := me s
  match ms.find? (·.act.isNone) with
  | some m => raise m.cause (w64 m.word) s
  | none =>
    if is.any (castHolds h) then waitOn .castMask s
    else if is.any (consumesBad h) then uncorrectable 0xC6 0 s
    else if 64 < vqCount h + ms.length then waitOn .vqRoom s
    else if exposedPending s s.cur then waitOn .exposed s
    else
      let r := captureMembers (captureOf s) ms
      let parts := splitAtMem r.1
      let upTo := parts.1.length + 1
      match failing h (ms.take upTo) with
      | some (c, m) => raise c (w64 m.word) s
      | none =>
        match parts.2.1 with
        | none => placeConvoy r.1 r.2 after [] none s
        | some m =>
          match alignCheck m.act with
          | some (c, a) => raise c a s
          | none =>
            let blocker := match m.act with
              -- VREST follows every older vector instruction (R119)
              | .restore _ => (convoysOf h).head?.map (·.seq)
              | _ => probeBlocker h (probeNeeds parts.1 m)
            if let some n := blocker then waitOn (.older n) s
            else if vvPending h then waitOn .vvFence s
            else
              let e := runActs m.cap.vstart m.cap.vl parts.1 { h := h }
              match probeMember s e m (w64 ((ms.headD ⟨0, false, 0, none, 0⟩).word)) with
              | .stop s1 => s1
              | .pinned s1 pins vl =>
                match failing h (ms.drop upTo) with
                | some (c, m) => raise c (w64 m.word) s1
                | none => placeConvoy r.1 r.2 after pins vl s1

/-- A convoy begins at the acting hart's PC with this head, which takes so many bytes, and is the instruction listed where it is
one: the words behind it are fetched, the instruction triggers act on them, the rules of R112 are checked, and its members
enter the queue (R284, R295). -/
def enterConvoy (head : Member) (is : List Instr) (len : Nat) (s : State) : State :=
  let after := (me s).pc + w64 len
  if head.cv then
    match fetchRest s.cur 3 s after with
    | .error (s1, b) => badAccess .fetch b s1
    | .ok (s1, r) => match pcTriggers r.places s1 with
      | .stop s2 => s2
      | .go s2 =>
        let ms := head :: r.members
        match brokenAt {} 0 ms with
        | some w => raise 0x02 (w64 w) s2
        | none => match r.breaker with
          | some w => raise 0x02 (w64 w) s2
          | none => enterMembers ms (is ++ r.instrs) r.after s2
  else enterMembers [head] is after s

/-- A vector instruction is the head of a convoy (R110). -/
def enterVector (i : Instr) (h : VHdr) (a : VAct) (s : State) : Out :=
  .next (enterConvoy ⟨(leadWord i).toNat, h.cv, h.km, some a, 0⟩ [i] i.length s)

/-! ### The instructions -/

/-- VADD enters the vector queue, with its convoy behind it. -/
def execVadd (h : VHdr) (d a : Reg) (b : VSrc) (t : Ty) (s : State) : Out :=
  enterVector (.vadd h d a b t) h (actVadd d a b t) s
/-- VSUB enters the vector queue, with its convoy behind it. -/
def execVsub (h : VHdr) (d a : Reg) (b : VSrc) (t : Ty) (s : State) : Out :=
  enterVector (.vsub h d a b t) h (actVsub d a b t) s
/-- VMUL enters the vector queue, with its convoy behind it. -/
def execVmul (h : VHdr) (d a : Reg) (b : VSrc) (t : Ty) (s : State) : Out :=
  enterVector (.vmul h d a b t) h (actVmul d a b t) s
/-- VMIN enters the vector queue, with its convoy behind it. -/
def execVmin (h : VHdr) (d a : Reg) (b : VSrc) (t : Ty) (s : State) : Out :=
  enterVector (.vmin h d a b t) h (actVmin d a b t) s
/-- VMAX enters the vector queue, with its convoy behind it. -/
def execVmax (h : VHdr) (d a : Reg) (b : VSrc) (t : Ty) (s : State) : Out :=
  enterVector (.vmax h d a b t) h (actVmax d a b t) s
/-- VAND enters the vector queue, with its convoy behind it. -/
def execVand (h : VHdr) (d a : Reg) (b : VSrc) (t : Ty) (s : State) : Out :=
  enterVector (.vand h d a b t) h (actVand d a b t) s
/-- VOR enters the vector queue, with its convoy behind it. -/
def execVor (h : VHdr) (d a : Reg) (b : VSrc) (t : Ty) (s : State) : Out :=
  enterVector (.vor h d a b t) h (actVor d a b t) s
/-- VXOR enters the vector queue, with its convoy behind it. -/
def execVxor (h : VHdr) (d a : Reg) (b : VSrc) (t : Ty) (s : State) : Out :=
  enterVector (.vxor h d a b t) h (actVxor d a b t) s
/-- VSHL enters the vector queue, with its convoy behind it. -/
def execVshl (h : VHdr) (d a : Reg) (b : VSrc) (t : Ty) (s : State) : Out :=
  enterVector (.vshl h d a b t) h (actVshl d a b t) s
/-- VSHR enters the vector queue, with its convoy behind it. -/
def execVshr (h : VHdr) (d a : Reg) (b : VSrc) (t : Ty) (s : State) : Out :=
  enterVector (.vshr h d a b t) h (actVshr d a b t) s
/-- VSAR enters the vector queue, with its convoy behind it. -/
def execVsar (h : VHdr) (d a : Reg) (b : VSrc) (t : Ty) (s : State) : Out :=
  enterVector (.vsar h d a b t) h (actVsar d a b t) s
/-- VADDS enters the vector queue, with its convoy behind it. -/
def execVadds (h : VHdr) (d a : Reg) (b : VSrc) (t : Ty) (s : State) : Out :=
  enterVector (.vadds h d a b t) h (actVadds d a b t) s
/-- VSUBS enters the vector queue, with its convoy behind it. -/
def execVsubs (h : VHdr) (d a : Reg) (b : VSrc) (t : Ty) (s : State) : Out :=
  enterVector (.vsubs h d a b t) h (actVsubs d a b t) s
/-- VMULH enters the vector queue, with its convoy behind it. -/
def execVmulh (h : VHdr) (d a b : Reg) (t : Ty) (s : State) : Out :=
  enterVector (.vmulh h d a b t) h (actVmulh d a b t) s
/-- VABSD enters the vector queue, with its convoy behind it. -/
def execVabsd (h : VHdr) (d a b : Reg) (t : Ty) (s : State) : Out :=
  enterVector (.vabsd h d a b t) h (actVabsd d a b t) s
/-- VMADD enters the vector queue, with its convoy behind it. -/
def execVmadd (h : VHdr) (d a b c : Reg) (t : Ty) (s : State) : Out :=
  enterVector (.vmadd h d a b c t) h (actVmadd d a b c t) s
/-- VWIDEN enters the vector queue, with its convoy behind it. -/
def execVwiden (h : VHdr) (d a : Reg) (t t2 : Ty) (s : State) : Out :=
  enterVector (.vwiden h d a t t2) h (actVwiden d a t t2) s
/-- VNARROW enters the vector queue, with its convoy behind it. -/
def execVnarrow (h : VHdr) (d a : Reg) (t t2 : Ty) (sat : Bool) (s : State) : Out :=
  enterVector (.vnarrow h d a t t2 sat) h (actVnarrow d a t t2 sat) s
/-- VCMP enters the vector queue, with its convoy behind it. -/
def execVcmp (h : VHdr) (d : BitVec 3) (a : Reg) (b : VSrc) (t : Ty) (c : VCond) (s : State) : Out :=
  enterVector (.vcmp h d a b t c) h (actVcmp d a b t c) s
/-- VFADD enters the vector queue, with its convoy behind it. -/
def execVfadd (h : VHdr) (d a : Reg) (b : VSrc) (t : Ty) (s : State) : Out :=
  enterVector (.vfadd h d a b t) h (actVfadd d a b t) s
/-- VFSUB enters the vector queue, with its convoy behind it. -/
def execVfsub (h : VHdr) (d a : Reg) (b : VSrc) (t : Ty) (s : State) : Out :=
  enterVector (.vfsub h d a b t) h (actVfsub d a b t) s
/-- VFMUL enters the vector queue, with its convoy behind it. -/
def execVfmul (h : VHdr) (d a : Reg) (b : VSrc) (t : Ty) (s : State) : Out :=
  enterVector (.vfmul h d a b t) h (actVfmul d a b t) s
/-- VFMIN enters the vector queue, with its convoy behind it. -/
def execVfmin (h : VHdr) (d a : Reg) (b : VSrc) (t : Ty) (s : State) : Out :=
  enterVector (.vfmin h d a b t) h (actVfmin d a b t) s
/-- VFMAX enters the vector queue, with its convoy behind it. -/
def execVfmax (h : VHdr) (d a : Reg) (b : VSrc) (t : Ty) (s : State) : Out :=
  enterVector (.vfmax h d a b t) h (actVfmax d a b t) s
/-- VFDIV enters the vector queue, with its convoy behind it. -/
def execVfdiv (h : VHdr) (d a b : Reg) (t : Ty) (s : State) : Out :=
  enterVector (.vfdiv h d a b t) h (actVfdiv d a b t) s
/-- VFSQRT enters the vector queue, with its convoy behind it. -/
def execVfsqrt (h : VHdr) (d a : Reg) (t : Ty) (s : State) : Out :=
  enterVector (.vfsqrt h d a t) h (actVfsqrt d a t) s
/-- VFMA enters the vector queue, with its convoy behind it. -/
def execVfma (h : VHdr) (d a b c : Reg) (t : Ty) (form : FmaForm) (s : State) : Out :=
  enterVector (.vfma h d a b c t form) h (actVfma d a b c t form) s
/-- VFCMP enters the vector queue, with its convoy behind it. -/
def execVfcmp (h : VHdr) (d : BitVec 3) (a : Reg) (b : VSrc) (t : Ty) (c : FCond) (s : State) : Out :=
  enterVector (.vfcmp h d a b t c) h (actVfcmp d a b t c) s
/-- VFCVT enters the vector queue, with its convoy behind it. -/
def execVfcvt (h : VHdr) (d a : Reg) (t t2 : Ty) (s : State) : Out :=
  enterVector (.vfcvt h d a t t2) h (actVfcvt d a t t2) s
/-- VSF enters the vector queue, with its convoy behind it. -/
def execVsf (h : VHdr) (d a : Reg) (t : Ty) (fn : SfFn) (s : State) : Out :=
  enterVector (.vsf h d a t fn) h (actVsf d a t fn) s
/-- VREDSUM enters the vector queue, with its convoy behind it. -/
def execVredsum (h : VHdr) (d a : Reg) (t : Ty) (s : State) : Out :=
  enterVector (.vredsum h d a t) h (actVredsum d a t (me s)) s
/-- VREDMIN enters the vector queue, with its convoy behind it. -/
def execVredmin (h : VHdr) (d a : Reg) (t : Ty) (s : State) : Out :=
  enterVector (.vredmin h d a t) h (actVredmin d a t (me s)) s
/-- VREDMAX enters the vector queue, with its convoy behind it. -/
def execVredmax (h : VHdr) (d a : Reg) (t : Ty) (s : State) : Out :=
  enterVector (.vredmax h d a t) h (actVredmax d a t (me s)) s
/-- VFREDSUM enters the vector queue, with its convoy behind it. -/
def execVfredsum (h : VHdr) (d a : Reg) (t t2 : Ty) (s : State) : Out :=
  enterVector (.vfredsum h d a t t2) h (actVfredsum d a t t2 (me s)) s
/-- VFREDMIN enters the vector queue, with its convoy behind it. -/
def execVfredmin (h : VHdr) (d a : Reg) (t t2 : Ty) (s : State) : Out :=
  enterVector (.vfredmin h d a t t2) h (actVfredmin d a t t2 (me s)) s
/-- VFREDMAX enters the vector queue, with its convoy behind it. -/
def execVfredmax (h : VHdr) (d a : Reg) (t t2 : Ty) (s : State) : Out :=
  enterVector (.vfredmax h d a t t2) h (actVfredmax d a t t2 (me s)) s
/-- VSCAN enters the vector queue, with its convoy behind it. -/
def execVscan (h : VHdr) (d a c : Reg) (t t2 : Ty) (s : State) : Out :=
  enterVector (.vscan h d a c t t2) h (actVscan d a c t t2 (me s)) s
/-- VSLIDEUP enters the vector queue, with its convoy behind it. -/
def execVslideup (h : VHdr) (d a : Reg) (b : VSrc) (t : Ty) (s : State) : Out :=
  enterVector (.vslideup h d a b t) h (actVslideup d a b t (me s)) s
/-- VSLIDEDN enters the vector queue, with its convoy behind it. -/
def execVslidedn (h : VHdr) (d a : Reg) (b : VSrc) (t : Ty) (s : State) : Out :=
  enterVector (.vslidedn h d a b t) h (actVslidedn d a b t (me s)) s
/-- VGATHER enters the vector queue, with its convoy behind it. -/
def execVgather (h : VHdr) (d a b : Reg) (t : Ty) (iw : Size) (s : State) : Out :=
  enterVector (.vgather h d a b t iw) h (actVgather d a b t iw) s
/-- VCOMPRESS enters the vector queue, with its convoy behind it. -/
def execVcompress (h : VHdr) (d a : Reg) (t : Ty) (s : State) : Out :=
  enterVector (.vcompress h d a t) h (actVcompress d a t) s
/-- VEXPAND enters the vector queue, with its convoy behind it. -/
def execVexpand (h : VHdr) (d a : Reg) (t : Ty) (s : State) : Out :=
  enterVector (.vexpand h d a t) h (actVexpand d a t) s
/-- VMERGE enters the vector queue, with its convoy behind it. -/
def execVmerge (h : VHdr) (d a : Reg) (b : VSrc) (t : Ty) (s : State) : Out :=
  enterVector (.vmerge h d a b t) h (actVmerge d a b t) s
/-- VBCAST enters the vector queue, with its convoy behind it. -/
def execVbcast (h : VHdr) (d : Reg) (a : VSrc) (t : Ty) (s : State) : Out :=
  enterVector (.vbcast h d a t) h (actVbcast d a t (me s)) s
/-- VMVX enters the vector queue, with its convoy behind it. -/
def execVmvx (h : VHdr) (d a : Reg) (t : Ty) (s : State) : Out :=
  enterVector (.vmvx h d a t) h (actVmvx d a t (me s)) s
/-- VMVS enters the vector queue, with its convoy behind it. -/
def execVmvs (h : VHdr) (d a : Reg) (b : VSrc) (t : Ty) (s : State) : Out :=
  enterVector (.vmvs h d a b t) h (actVmvs d a b t (me s)) s
/-- VMOV enters the vector queue, with its convoy behind it. -/
def execVmov (h : VHdr) (d a : Reg) (t : Ty) (s : State) : Out :=
  enterVector (.vmov h d a t) h (actVmov d a t) s
/-- VIOTA enters the vector queue, with its convoy behind it. -/
def execViota (h : VHdr) (d : Reg) (t : Ty) (s : State) : Out :=
  enterVector (.viota h d t) h (actViota d t) s
/-- VBQ enters the vector queue, with its convoy behind it. -/
def execVbq (h : VHdr) (d a c : Reg) (t t2 : Ty) (s : State) : Out :=
  enterVector (.vbq h d a c t t2) h (actVbq d a c t t2) s
/-- VBDQ enters the vector queue, with its convoy behind it. -/
def execVbdq (h : VHdr) (d a : Reg) (t t2 : Ty) (s : State) : Out :=
  enterVector (.vbdq h d a t t2) h (actVbdq d a t t2) s
/-- VLD enters the vector queue, with its convoy behind it. -/
def execVld (h : VHdr) (d a : Reg) (t : Ty) (s : State) : Out :=
  enterVector (.vld h d a t) h (actVld d a t (me s)) s
/-- VST enters the vector queue, with its convoy behind it. -/
def execVst (h : VHdr) (d a : Reg) (t : Ty) (s : State) : Out :=
  enterVector (.vst h d a t) h (actVst d a t (me s)) s
/-- VLDFF enters the vector queue, with its convoy behind it. -/
def execVldff (h : VHdr) (d a : Reg) (t : Ty) (s : State) : Out :=
  enterVector (.vldff h d a t) h (actVldff d a t (me s)) s
/-- VLDS enters the vector queue, with its convoy behind it. -/
def execVlds (h : VHdr) (d a : Reg) (b : VSrc) (t : Ty) (s : State) : Out :=
  enterVector (.vlds h d a b t) h (actVlds d a b t (me s)) s
/-- VSTS enters the vector queue, with its convoy behind it. -/
def execVsts (h : VHdr) (d a : Reg) (b : VSrc) (t : Ty) (s : State) : Out :=
  enterVector (.vsts h d a b t) h (actVsts d a b t (me s)) s
/-- VLDX enters the vector queue, with its convoy behind it. -/
def execVldx (h : VHdr) (d a b : Reg) (t : Ty) (iw : Size) (s : State) : Out :=
  enterVector (.vldx h d a b t iw) h (actVldx d a b t iw (me s)) s
/-- VSTX enters the vector queue, with its convoy behind it. -/
def execVstx (h : VHdr) (d a b : Reg) (t : Ty) (iw : Size) (s : State) : Out :=
  enterVector (.vstx h d a b t iw) h (actVstx d a b t iw (me s)) s
/-- VBPLD enters the vector queue, with its convoy behind it. -/
def execVbpld (cv : Bool) (d a : Reg) (wm1 : BitVec 4) (s : State) : Out :=
  enterVector (.vbpld cv d a wm1) ⟨cv, 0⟩ (actVbpld d a wm1 (me s)) s
/-- VBPST enters the vector queue, with its convoy behind it. -/
def execVbpst (cv : Bool) (d a : Reg) (wm1 : BitVec 4) (s : State) : Out :=
  enterVector (.vbpst cv d a wm1) ⟨cv, 0⟩ (actVbpst d a wm1 (me s)) s
/-- VBPDOT enters the vector queue, with its convoy behind it. -/
def execVbpdot (cv : Bool) (d a b : Reg) (t : Ty) (wam1 wbm1 : BitVec 4) (s : State) : Out :=
  enterVector (.vbpdot cv d a b t wam1 wbm1) ⟨cv, 0⟩ (actVbpdot d a b t wam1 wbm1) s
/-- VBPCVT toward planes enters the vector queue, with its convoy behind it. -/
def execVbpcvtToplanes (cv : Bool) (d a : Reg) (t : Ty) (wm1 : BitVec 4) (s : State) : Out :=
  enterVector (.vbpcvtToplanes cv d a t wm1) ⟨cv, 0⟩ (actVbpcvtToplanes d a t wm1) s
/-- VBPCVT toward a packed register enters the vector queue, with its convoy behind it. -/
def execVbpcvtTopacked (cv : Bool) (d a : Reg) (t : Ty) (wm1 : BitVec 4) (s : State) : Out :=
  enterVector (.vbpcvtTopacked cv d a t wm1) ⟨cv, 0⟩ (actVbpcvtTopacked d a t wm1) s
/-- KAND enters the vector queue, with its convoy behind it. -/
def execKand (d a b : BitVec 3) (s : State) : Out :=
  enterVector (.kand d a b) ⟨false, 0⟩ (actKand d a b) s
/-- KOR enters the vector queue, with its convoy behind it. -/
def execKor (d a b : BitVec 3) (s : State) : Out :=
  enterVector (.kor d a b) ⟨false, 0⟩ (actKor d a b) s
/-- KXOR enters the vector queue, with its convoy behind it. -/
def execKxor (d a b : BitVec 3) (s : State) : Out :=
  enterVector (.kxor d a b) ⟨false, 0⟩ (actKxor d a b) s
/-- KNOT enters the vector queue, with its convoy behind it. -/
def execKnot (d a : BitVec 3) (s : State) : Out :=
  enterVector (.knot d a) ⟨false, 0⟩ (actKnot d a) s
/-- KPOPC enters the vector queue, with its convoy behind it. -/
def execKpopc (d : Reg) (a : BitVec 3) (s : State) : Out :=
  enterVector (.kpopc d a) ⟨false, 0⟩ (actKpopc d a) s
/-- KFIRST enters the vector queue, with its convoy behind it. -/
def execKfirst (d : Reg) (a : BitVec 3) (s : State) : Out :=
  enterVector (.kfirst d a) ⟨false, 0⟩ (actKfirst d a) s
/-- KSET enters the vector queue, with its convoy behind it. -/
def execKset (d : BitVec 3) (a : Reg) (s : State) : Out :=
  enterVector (.kset d a) ⟨false, 0⟩ (actKset d a (me s)) s
/-- VSAVE enters the vector queue, with its convoy behind it. -/
def execVsave (a : Reg) (s : State) : Out :=
  enterVector (.vsave a) ⟨false, 0⟩ (actVsave a (me s)) s
/-- VREST enters the vector queue, with its convoy behind it. -/
def execVrest (a : Reg) (s : State) : Out :=
  enterVector (.vrest a) ⟨false, 0⟩ (actVrest a (me s)) s
/-- SETWM (R199, R387): an irrevocable action; the store enters the vector queue as a convoy of one. -/
def execSetwm (a b : Reg) (sc : Scope) (s : State) : Out :=
  .next (irrevocably s fun s =>
    let i : Instr := .setwm a b sc
    enterConvoy ⟨(leadWord i).toNat, false, 0, some (.setwm (rx s a) (rx s b) sc), 0⟩ [i] i.length s)

/-! ### Issue and drain (R113) -/

/-- A convoy touches a v or k register; VSAVE and VREST touch them all. -/
def Convoy.touches (c : Convoy) (v : Nat) (k : Nat) : Bool :=
  c.members.any fun m => v ∈ m.act.readsV || v ∈ m.act.writesV || k ∈ m.act.writesK || match m.act with
    | .save _ | .restore _ => true
    | _ => false

/-- A convoy's memory side; none where it accesses no memory. -/
def Convoy.memPlace (c : Convoy) : Option MemPlace :=
  if c.mem then some ⟨c.pins, c.members.any (·.act.isStore),
    c.members.any fun m => match m.act with | .setwm _ _ _ => true | _ => false, c.seq, c.after⟩ else none

/-- A matrix entry moves a register that a convoy touches (R138). -/
def movesTouched (e : MEntry) (c : Convoy) : Bool :=
  match e.act with
  | .toVector d _ _ k => c.touches d.toNat k.toNat
  | .toTile _ a _ k => c.touches a.toNat k.toNat
  | _ => false

/-- An older entry of the hart's matrix queue that the convoy must follow (R138, R192). -/
def followsMatrix (h : Hart) (c : Convoy) : Bool :=
  h.mq.any fun e => decide (e.seq < c.seq) && (followsPlace e.memPlace c.memPlace || movesTouched e c)

/-- The trace records of a timed convoy: the begin and the end of each member on its pipe, and on the slide network (R280,
R281). -/
def traceConvoy (h : Nat) (c : Convoy) (ts : List Timed) : List TraceEvent :=
  let alus := ts.zipIdx.filter fun p => p.1.member.act.pipe == .alu
  ts.zipIdx.flatMap fun p =>
    let m := p.1.member
    let second := m.act.pipe == .alu && (alus.head?.any fun q => q.2 != p.2)
    let pipe := m.act.pipe.number + (if m.act.pipe == .alu && second then 1 else 0)
    let ev (k pipe at_ : Nat) : TraceEvent := ⟨at_, pipe, slotOf h, k, p.2, (c.seq + p.2) % 4096⟩
    if m.act.pipe == .none then []
    else [ev 1 pipe p.1.start, ev 2 pipe p.1.drain]
      ++ if m.act.slides then [ev 1 5 (p.1.drain - m.slideTime), ev 2 5 p.1.drain] else []

/-- A KPOPC or KFIRST. -/
def VAct.redoes : VAct → Bool
  | .kpopc _ _ | .kfirst _ _ => true
  | _ => false

/-- The scalar destination of a timed convoy, written 14 cycles after the drain of the instruction itself (R115, R401). -/
def destOf (value : Option Word) (ts : List Timed) : Option ScalarDest :=
  ts.findSome? fun t => t.member.act.scalarDest.map fun (d : Bool × Reg) =>
    ⟨d.1, d.2, value, t.drain + 14, t.member.act.redoes, t.member.act.folds⟩

/-- The flight of a convoy that issues now (R113). -/
def timeConvoy (s : State) (h : Nat) (c : Convoy) : Flight :=
  let mem := c.members.find? (·.act.isMem)
  let e := runActs c.low (2 ^ 14) (splitAtMem c.members).1 (c.env (hart s h))
  let lat := mem.elim 0 (memLatency s h e c)
  let extra := mem.elim 0 fun m => bankDelay s h e c m c.first
  let ts := timeMembers s.time lat extra [] c.members
  let ls := ts.find? (·.member.act.isMem)
  { convoy := c, issued := s.time, lsStart := ls.elim s.time (·.start), lsBeats := ls.elim 0 fun t => t.member.beats + extra
    drains := ts.foldl (fun d t => max d t.drain) s.time, todo := none
    dest := destOf (runActs c.low (2 ^ 14) c.members (c.env (hart s h))).dest ts, trace := traceConvoy h c ts }

/-- How the second probe of a convoy's remaining elements ends (R179): at the lowest element it probes, `first`, and the
lowest that fails, `elem`, where one does. -/
inductive Reprobed where
  | pass (s : State) (pins : List Pin)
  | fault (s : State) (first elem : Nat) (b : Bad)
  | stall

/-- Of two failed checks, the one with the lower address (R179). -/
def Bad.lower (a b : Bad) : Bad :=
  match a, b with
  | .trap _ va, .trap code vb => if code < 0xC0 ∧ vb.toNat < va.toNat then b else a
  | _, _ => a

/-- Probe the elements of a hart's convoy from one to below another again, giving their new pins: the registers they
take their addresses and mask from are those the convoy began with (R114, R328). Where checks fail, the lowest failing
element decides whether that is a trap, and the lowest failing address which (R179). -/
def reprobeFrom (s : State) (h : Nat) (c : Convoy) (e hi : Nat) : Reprobed :=
  let r := splitAtMem c.members
  match r.2.1 with
  | none => .pass s []
  | some m =>
    let s1 := { s with cur := h }
    let env := runActs c.low m.cap.vl r.1 (c.env (hart s h))
    let xs := accessesOf env m e (min hi c.limit)
    let a (x : VAccess) : Access := { memberAccess s1 m x with queued := c.firstFault }
    match probeAll a s1 xs with
    | .ok (s2, ps) => .pass { s2 with cur := s.cur } (pinsOf ps)
    | .error (_, _, .migrating _) | .error (_, _, .held) => .stall
    | .error (s2, i, b) =>
      let worst := (xs.filter fun x => decide (i < x.idx)).foldl (fun b x => match probeAll a s2 [x] with
        | .ok _ => b
        | .error (_, _, b2) => b.lower b2) b
      .fault { s2 with cur := s.cur } ((xs.head?.map (·.idx)).getD e) i worst

/-- Replace a convoy of a hart by its place in the order. -/
def setConvoy (s : State) (h : Nat) (c : Convoy) : State :=
  onHart s h fun x =>
    { x with
      vq := x.vq.map fun o => if o.seq = c.seq then c else o
      flight := x.flight.map fun f => if f.convoy.seq = c.seq then { f with convoy := c } else f }

/-- A convoy whose first-fault load was shortened leaves VL shorter for a younger member, which then draws from the seed that
those before it leave (R76, R405): the setting of SRSEED it is about with what was drawn too much, and the member. -/
def VMember.recapture (vlSeq vl : Nat) (excess : Nat × Word) (m : VMember) : (Nat × Word) × VMember :=
  let d := if excess.1 = m.cap.seedSeq then excess.2 else 0
  let len := if m.cap.vlSeq = vlSeq then min m.cap.vl vl else m.cap.vl
  let drawn := if m.act.draws && m.cap.rm == 5 then w64 (m.cap.vl - len) else 0
  ((m.cap.seedSeq, d + drawn), { m with cap := { m.cap with vl := len, seed := m.cap.seed - d } })

/-- The same for every member of a list of convoys. -/
def recaptureAll (vlSeq vl : Nat) : Nat × Word → List Convoy → (Nat × Word) × List Convoy
  | excess, [] => (excess, [])
  | excess, c :: cs =>
    let r := c.members.foldl (fun (acc : (Nat × Word) × List VMember) m =>
      let q := m.recapture vlSeq vl acc.1
      (q.1, acc.2 ++ [q.2])) (excess, [])
    let rest := recaptureAll vlSeq vl r.1 cs
    (rest.1, { c with members := r.2 } :: rest.2)

/-- A first-fault load is shortened after it has entered the queue: it loads the elements below one, and every younger
instruction that captured the same VL, and VL itself while no other setting of it has followed, takes what the load
leaves, as does SRSEED what the younger ones then draw (R108, R405). What a scalar instruction has read of either since
stays (DESIGN CHOICE, log 87). -/
def cutConvoy (s : State) (h : Nat) (c : Convoy) (i : Nat) : State :=
  let seq := (c.members.head?.map (·.cap.vlSeq)).getD 0
  let cut (cap : Captured) : Captured := if cap.vlSeq = seq then { cap with vl := min cap.vl i } else cap
  onHart (setConvoy s h { c with limit := min c.limit i }) h fun x =>
    let r := recaptureAll seq i (0, 0) (x.vq.filter fun o => decide (c.seq < o.seq))
    { x with
      vq := (x.vq.filter fun o => decide (o.seq ≤ c.seq)) ++ r.2
      mq := x.mq.map fun e => if c.seq < e.seq then { e with cap := cut e.cap } else e
      vl := if x.vlSeq = seq then BitVec.ofNat 14 (min x.vl.toNat i) else x.vl
      srseed := if r.1.1 = x.seedSeq then x.srseed - r.1.2 else x.srseed }

/-- A first-fault load whose elements from one on fail their second probe is shortened, under pins for those it keeps
(R108, R181). -/
def shortenLoad (s : State) (h : Nat) (c : Convoy) (e i : Nat) : State :=
  match reprobeFrom s h c e i with
  | .pass s1 pins => cutConvoy s1 h { c with pins := pins, reprobe := none } i
  | _ => cutConvoy s h c i

/-- A convoy leaves a hart's queue or flight, with the scalar result it was to write in flight. -/
def Hart.without (now seq : Nat) (x : Hart) : Hart :=
  let y := { x with vq := x.vq.filter fun o => o.seq != seq }
  if x.flight.any (·.convoy.seq == seq) then { y with flight := none, sdest := none, lastDrain := now } else y

/-- A hart drops what stands from one place of its queues' order on; a hart that waited for the scalar result of such a
convoy waits no longer. -/
def Hart.upTo (seq : Nat) (x : Hart) : Hart :=
  let y := { x with vq := x.vq.filter fun o => decide (o.seq < seq), mq := x.mq.filter fun e => decide (e.seq < seq) }
  if x.flight.any fun f => decide (seq ≤ f.convoy.seq) then
    { y with flight := none, sdest := none, wait := if x.wait == some .dest then none else x.wait }
  else y

/-- A hart is halted by uncorrectable data that its convoy consumed: it and nothing younger is performed further (R259,
R262). -/
def haltConvoy (s : State) (h : Nat) (c : Convoy) (progress pa : Nat) : State :=
  haltHart (onHart s h (Hart.upTo c.seq)) h 2 progress pa c.pc

/-- An exposed convoy is held for a late vector fault, which its hart takes at its boundary (R179, R180). One outside the
partition's grant freezes the hart first (R255). -/
def holdConvoy (s : State) (h : Nat) (c : Convoy) (b : Bad) : State :=
  let hold (code : Byte) (tval : Word) (s : State) : State := onHart s h fun x =>
    { x.without s.time c.seq with
      heldConvoy := some { c with reprobe := none }, lateFault := some ⟨code, tval, c.start, c.pc⟩ }
  match b with
  | .trap code tval => hold code tval s
  | .violation code tval pa =>
    hold code tval (onHart (freezeHart s h 2 code tval pa) h fun x => { x with freeze := { x.freeze with
      violation := none, byFreeze := true } })
  | .migrating _ | .held => s

/-- An access of a hart's queue fails late: the hart of an irrevocable task, or of none, takes it; the earliest task becomes
irrevocable for it, and any other is aborted instead (R218, R221). -/
def failLate (s : State) (h : Nat) (k : State → State) : State :=
  match taskAt s h with
  | some e =>
    if e.isIrrev then k s
    else if isProtected s e then k (makeIrrev s e)
    else abortAll s [e.uid]
  | none => k s

/-- The second probe of a hart's convoy, from element `lo` on, fails first at an element `i`, `e` being the lowest it probed:
uncorrectable data that a walk consumed halts the hart (R259, R262), a first-fault load is shortened (R181), and an exposed
convoy is held from `e` on (R179). -/
def failReprobe (s : State) (h : Nat) (c : Convoy) (lo e i : Nat) (b : Bad) : State :=
  let c1 := { c with start := max c.start e }
  match b.poison with
  | some pa => haltConvoy s h c1 c1.start pa
  | none => if c.firstFault then shortenLoad s h c lo i else failLate s h fun s => holdConvoy s h c1 b

/-- The oldest convoy of a hart issues now. -/
def issueConvoy (s : State) (h : Nat) (c : Convoy) : State :=
  let f := timeConvoy s h c
  onHart s h fun x => { x with vq := x.vq.filter (fun o => o.seq != c.seq), flight := some f, sdest := f.dest }

/-- CONVOY_ISSUE: the oldest convoy of a hart issues in the cycle after its predecessor has drained (R113), one that a late
vector fault holds being no predecessor of those older than it; one that must be probed again is probed first (R179, R180). -/
def execConvoyIssue (h : Nat) (s : State) : Out :=
  let x := hart s h
  match x.vq with
  | [] => .next s
  | c :: _ =>
    if x.flight.isSome || x.heldConvoy.any (fun o => decide (o.seq < c.seq)) || decide (s.time ≤ x.lastDrain)
        || followsMatrix x c then .next s
    else match c.reprobe with
      | none => .next (issueConvoy s h c)
      | some t =>
        if s.time < t then .next s
        else match reprobeFrom s h c c.first (2 ^ 14) with
          | .pass s1 pins => .next (issueConvoy s1 h { c with pins := pins, reprobe := none })
          | .fault s1 e i b => .next (failReprobe s1 h c c.first e i b)
          | .stall => .next (setConvoy s h { c with reprobe := some (s.time + 256) })

/-- The task of a hart waits for another task's writer (R214). -/
def taskWaits (s : State) (h : Nat) : Bool := (taskAt s h).any fun e => e.st == .waiting

/-- The convoy holds a KPOPC or KFIRST, which a pre-emption has run again (R115, R362). -/
def redoes (c : Convoy) : Bool := c.members.any (·.act.redoes)

/-- The convoy in flight is performed when its time has come, or as far as nothing waits (R113, R217). -/
def drainConvoy (h : Nat) (s : State) : State :=
  match (hart s h).flight with
  | none => s
  | some f =>
    if decide (s.time < f.drains) || taskWaits s h then s
    else
      let r := match performConvoy { s with cur := h } f.convoy (2 ^ 14) f.todo with
        | .wait s1 left => onHart s1 h fun x => { x with flight := some { f with todo := left } }
        | .halt s1 p pa => haltConvoy s1 h f.convoy p pa
        | .done s1 _ => f.trace.foldl (fun s e => traceAt s h e)
            (onHart s1 h fun x => clearConvoy f.convoy { x with flight := none, lastDrain := s.time })
      { r with cur := s.cur }

/-- The convoy in flight is a SETWM. -/
def isWatermark (h : Hart) : Bool :=
  h.flight.any fun f => f.convoy.members.any fun m => match m.act with | .setwm _ _ _ => true | _ => false

/-- CONVOY_DRAIN: every member has written its results (R113, R114). -/
def execConvoyDrain (h : Nat) (s : State) : Out := .next (if isWatermark (hart s h) then s else drainConvoy h s)

/-- WATERMARK_STORE: the store of a SETWM is performed, after every older access of its hart (R199). -/
def execWatermarkStore (h : Nat) (s : State) : Out := .next (if isWatermark (hart s h) then drainConvoy h s else s)

/-- SCALAR_DESTINATION_WRITE: 14 cycles after its own drain an instruction writes its x or f register (R115, R401). -/
def execScalarDestinationWrite (h : Nat) (s : State) : Out :=
  match (hart s h).sdest with
  | none => .next s
  | some d =>
    if s.time < d.at_ then .next s
    else .next (onHart s h fun x =>
      let y := match d.value with
        | none => x
        | some v =>
          if d.isF then { setF x d.reg v with badF := clearRegs x.badF [d.reg] }
          else { setX x d.reg v with badX := clearRegs x.badX [d.reg] }
      -- a younger instruction issues in the next cycle at the earliest (R115)
      { y with sdest := none, wait := if x.wait == some .dest then some (.written s.time) else x.wait })

end Sys2Proof.Machine
end

