-- ==== Sys2Proof/Machine/Matrix.lean ====
section
/-!
DEFINITION. The matrix instructions: their checks, how they enter the matrix queue, how the engine performs them, and
MCAST deliveries (spec/06_matrix.md R121 to R142; spec/18 R375 to R381).
-/
namespace Sys2Proof.Machine

/-! ### Checks (R376) -/

/-- STATUS.MS is off, or the hart is a steward hart, which has no engine (R38, R376). -/
def msCheck (s : State) : Bool × Byte :=
  if isSteward s.cur then (true, 0x63) else ((me s).ms == 0, 0x62)

/-- The first check that fails. -/
def firstCause (l : List (Bool × Byte)) : Option Byte := (l.find? (·.1)).map (·.2)

/-- An instruction of the shape under an all-zero TSHAPE does nothing (R127). -/
def MAct.idle (cap : Captured) : MAct → Bool
  | .tmap _ _ | .toVector _ _ _ _ | .toTile _ _ _ _ | .castTile _ _ | .save _ | .restore _ _ => false
  | _ => cap.kb == 0

/-! ### Queue entry (R139) -/

/-- An instruction enters the matrix queue and the hart goes on. -/
def placeMatrix (a : MAct) (cap : Captured) (pins : List Pin) (s : State) : State :=
  onMe s fun h =>
    let e : MEntry :=
      { pc := h.pc, act := a, cap := cap, pins := pins, seq := h.queued, after := h.vvFence, mem := a.isMem
        ends := none, todo := none }
    { retireHart 4 h with mq := h.mq ++ [e], queued := h.queued + 1 }

/-- Probe accesses of the acting hart's matrix side (R177). -/
def probeMatrix (s : State) (store : Bool) (xs : List VAccess) : Probed :=
  let a := vectorAccess s (captureOf s) store
  match probeAll (fun _ => a) s xs with
  | .ok (s1, ps) => admitAccess s1 store xs ps none
  | .error (s1, _, b) => .stop (badVector 3 a.kind b s1)

/-- The room and the order an entry needs before it is checked (R19, R178); one that accesses memory is not probed while a
FENCE.VV holds it behind older accesses (R192). -/
def matrixRoom (s : State) (mem : Bool) (k : State → State) : State :=
  if 32 ≤ (me s).mq.length then waitOn .mqRoom s
  else if exposedPending s s.cur then waitOn .exposed s
  else if mem && vvPending (me s) then waitOn .vvFence s
  else k s

/-- Probe bytes that are read and checked before an instruction enters the queue: they are read behind older stores to them,
which alone the instruction waits for (R138, R192; log 88). -/
def probeEntry (s : State) (xs : List VAccess) : Probed :=
  match probeAll (fun _ => vectorAccess s (captureOf s) false) s xs with
  | .ok (s1, ps) => match storeBefore (me s) (pinsOf ps) with
    | some n => .stop (waitOn (.older n) s)
    | none => admitAccess s1 false xs ps none
  | .error (s1, _, b) => .stop (badVector 3 .load b s1)

/-- The acting hart's core as an instruction that enters the queue now will find its tensor maps. -/
def entryCore (s : State) : Core := mappedCore (me s).mq (myCore s)

/-- A matrix instruction: the hold of a speculative task (R142), its checks in order, the probe, and the queue. -/
def enterMatrix (w : Word) (checks : State → List (Bool × Byte)) (a : State → MAct) (s : State) : Out :=
  .next (irrevocably s fun s =>
    match firstCause (checks s) with
    | some c => raise c w s
    | none => matrixRoom s (a s).isMem fun s =>
      let act := a s
      let cap := captureOf s
      match probeMatrix s act.isStore (if act.idle cap then [] else act.probes (entryCore s) cap) with
      | .stop s1 => s1
      | .pinned s1 pins _ => placeMatrix act cap pins s1)

/-- TSHAPE.KB is not a multiple of a granule (R128). -/
def offGranule (s : State) (g : Nat) : Bool := (myCore s).kb.toNat % g != 0
/-- B-store rows from a register's row on run past the last (R124). -/
def pastRows (s : State) (row : Word) : Bool := decide (4096 < row.toNat + bRows (myCore s).kb.toNat)

/-! ### The instructions -/

/-- MSHAPE (R127): on the scalar side. -/
def execMshape (d a b : Reg) (s : State) : Out :=
  .next (irrevocably s fun s =>
    match firstCause [msCheck s] with
    | some c => raise c (leadWord (.mshape d a b)) s
    | none =>
      let k := (rx s d).toNat
      let m := (rx s a).toNat
      let n := (rx s b).toNat
      let g : Nat × Nat × Nat := if k = 0 ∨ m = 0 ∨ n = 0 then (0, 0, 0) else (min 128 k, min 32 n, min 32 m)
      let s1 := onCore s (coreOf s.cur) fun c =>
        { c with kb := BitVec.ofNat 8 g.1, n := BitVec.ofNat 6 g.2.1, m := BitVec.ofNat 6 g.2.2
                 shapeSeq := c.shapeSeq + 1 }
      retireX d (w64 (g.1 * 65536 + g.2.1 * 256 + g.2.2)) (dirtyMatrix s1))

/-- MZERO (R377). -/
def execMzero (c : BitVec 3) (s : State) : Out :=
  enterMatrix (leadWord (.mzero c)) (fun s => [msCheck s]) (fun _ => .zero c) s

/-- MLDA of data (R129). -/
def execMlda (d : BitVec 2) (a b : Reg) (s : State) : Out :=
  enterMatrix (leadWord (.mlda d a b)) (fun s => [msCheck s])
    (fun s => .lda d (rx s a) (rx s b) (myCore s).m.toNat) s

/-- MLDA of scales (R129). -/
def execMldaScale (d : BitVec 2) (a b : Reg) (q : Ty) (s : State) : Out :=
  enterMatrix (leadWord (.mldaScale d a b q)) (fun s => [msCheck s, (offGranule s (mxBlock q), 0x6A)])
    (fun s => .ldaScale d (rx s a) (rx s b) q) s

/-- A failed check of R172 or of the physical map, which alone shortens a first-fault load (R379). -/
def Bad.isCheck : Bad → Bool
  | .trap code _ => decide (code < 0xC0)
  | _ => false

/-- MLDAFF (R130, R379): the probe settles how many rows are loaded. -/
def execMldaff (d : BitVec 2) (a b : Reg) (s : State) : Out :=
  .next (irrevocably s fun s =>
    match firstCause [msCheck s] with
    | some c => raise c (leadWord (.mldaff d a b)) s
    | none => matrixRoom s true fun s =>
      let cap := captureOf s
      let xs := rowAccesses (rx s a) (rx s b) cap.m cap.kb
      let acc := vectorAccess s cap false
      let place (f : Nat) (s : State) (pins : List Pin) : State :=
        let s1 := placeMatrix (.ldaFF d (rx s a) (rx s b) f) cap pins s
        if f < cap.m then
          dirtyMatrix (onCore s1 (coreOf s.cur) fun c => { c with m := BitVec.ofNat 6 f, short := true })
        else s1
      match probeAll (fun _ => acc) s xs with
      | .ok (s1, ps) => match admitAccess s1 false xs ps none with
        | .stop s2 => s2
        | .pinned s2 pins _ => place cap.m s2 pins
      | .error (s3, f, bad) =>
        if f = 0 ∨ !bad.isCheck then badVector 3 .load bad s3
        else match probeMatrix s false (xs.filter fun x => decide (x.idx < f)) with
          | .stop s1 => s1
          | .pinned s1 pins _ => place f s1 pins)

/-- MLDB of data (R378). -/
def execMldb (d a b : Reg) (s : State) : Out :=
  enterMatrix (leadWord (.mldb d a b)) (fun s => [msCheck s, (pastRows s (rx s d), 0x6B)])
    (fun s => .ldb (rx s d).toNat (rx s a) (rx s b)) s

/-- MLDB of scales (R378). -/
def execMldbScale (d a b : Reg) (q : Ty) (s : State) : Out :=
  enterMatrix (leadWord (.mldbScale d a b q))
    (fun s => [msCheck s, (offGranule s (mxBlock q), 0x6A), (pastRows s (rx s d), 0x6B)])
    (fun s => .ldbScale (rx s d).toNat (rx s a) (rx s b) q) s

/-- MLDW (R132): its map is the one that older MTMAPs and MRESTs still queued will have written (R138). -/
def execMldw (d : BitVec 2) (a b : Reg) (m : BitVec 2) (s : State) : Out :=
  let tm (s : State) : BitVec 512 := (entryCore s).tm[m.toNat]
  let eb (s : State) : Nat := tmField (tm s) 14 1
  enterMatrix (leadWord (.mldw d a b m))
    (fun s => [msCheck s, (tm s != 0 && (offGranule s (eb s) || (rx s b).toNat % eb s != 0), 0x6A), (tm s == 0, 0x6C)])
    (fun s => .ldw d (rx s a) (rx s b) m) s

/-- Bytes that a check at queue entry reads: an error is where the instruction ends. -/
def entryBytes (s : State) (pins : List Pin) (xs : List VAccess) : Except State (State × List Byte) :=
  let ps := xs.flatMap (accessPieces pins)
  match trackRead s (ps.filter fun p => tracked p.pa) with
  | .stop s1 => .error s1
  | .go s1 =>
    match poisonIn s1 (pieceBytes ps) with
    | some p => .error (haltHart s1 s.cur 3 0 p.1 (me s).pc)
    | none => .ok (loadedLines s1 pins xs, readCells s1 (pieceBytes ps))

/-- MTMAP (R131): the descriptor is read and checked before the instruction enters the queue. R121 says that MTMAP never
accesses memory, and its own table, R131 and R376 have it read 64 bytes: it reads them (DESIGN CHOICE, log 88). -/
def execMtmap (d : BitVec 2) (a : Reg) (s : State) : Out :=
  let w := leadWord (.mtmap d a)
  .next (irrevocably s fun s =>
    match firstCause [msCheck s] with
    | some c => raise c w s
    | none => matrixRoom s true fun s =>
      if (rx s a).toNat % 64 ≠ 0 then raise 0x46 (rx s a) s
      else
        let xs : List VAccess := [⟨0, rx s a, 64⟩]
        match probeEntry s xs with
        | .stop s1 => s1
        | .pinned s1 pins _ => match entryBytes s1 pins xs with
          | .error s2 => s2
          | .ok (s2, bs) =>
            let t := wideOf 512 bs
            if tmOk t then placeMatrix (.tmap d t) (captureOf s) pins s2 else raise 0x6C w s)

/-- MMA (R133, R380). -/
def execMma (c : BitVec 3) (a : BitVec 2) (b : Reg) (f : Ty) (s : State) : Out :=
  enterMatrix (leadWord (.mma c a b f))
    (fun s => [((me s).nbv == 0 || decide (3 < (me s).nbv.toNat), 0x60), msCheck s,
      (f != .b && f != .i4 && decide (5 < (me s).rm.toNat), 0x64), (offGranule s (granule f), 0x6A),
      (pastRows s (rx s b), 0x6B)])
    (fun s => .mma c a (rx s b).toNat f) s

/-- MSTC (R128, R136). -/
def execMstc (c : BitVec 3) (a b : Reg) (f : Ty) (s : State) : Out :=
  enterMatrix (leadWord (.mstc c a b f))
    (fun s => [msCheck s, ((f == .bf || f == .hf) && decide (5 < (me s).rm.toNat), 0x64), (offGranule s (granule f), 0x6A)])
    (fun s => .stc c (rx s a) (rx s b) f) s

/-- The checks of MMOVC, lowest code first (R137). -/
def movcChecks (v : Reg) (row0 : Word) (s : State) : List (Bool × Byte) :=
  let h := me s
  [(h.lanes == 0, 0x0C), (h.vs == 0, 0x61), msCheck s, (decide (regCount h.regs ≤ v.toNat), 0x67),
    (decide (h.ew.toNat < 2), 0x68), (decide (31 < row0.toNat), 0x6A)]

/-- MMOVC to a vector register (R137). -/
def execMmovcToVector (d : Reg) (c : BitVec 3) (b : Reg) (k : BitVec 3) (s : State) : Out :=
  enterMatrix (leadWord (.mmovcToVector d c b k)) (fun s => movcChecks d (rx s b) s)
    (fun s => .toVector d c (rx s b).toNat k) s

/-- MMOVC to a C tile (R137). -/
def execMmovcToTile (c : BitVec 3) (a b : Reg) (k : BitVec 3) (s : State) : Out :=
  enterMatrix (leadWord (.mmovcToTile c a b k)) (fun s => movcChecks a (rx s b) s)
    (fun s => .toTile c a (rx s b).toNat k) s

/-- MCAST of a tile (R140). -/
def execMcastTile (d : Reg) (a : BitVec 2) (s : State) : Out :=
  enterMatrix (leadWord (.mcastTile d a)) (fun s => [msCheck s, (!(me s).gang.valid, 0x6D)])
    (fun _ => .castTile d a) s

/-- MCAST of B-store rows (R140). -/
def execMcastRows (d a : Reg) (s : State) : Out :=
  enterMatrix (leadWord (.mcastRows d a))
    (fun s => [msCheck s, (pastRows s (rx s a), 0x6B), (!(me s).gang.valid, 0x6D)])
    (fun s => .castRows d (rx s a).toNat) s

/-- MWAIT (R139): until every older matrix instruction and every MCAST delivery has completed. -/
def execMwait (s : State) : Out :=
  .next (irrevocably s fun s =>
    match firstCause [msCheck s] with
    | some c => raise c (leadWord .mwait) s
    | none => if matrixEmpty (me s) then retire s else waitOn .mwait s)

/-- MWAIT_COMPLETE (R139). -/
def execMwaitComplete (h : Nat) (s : State) : Out :=
  match (hart s h).wait with
  | some .mwait => .next (if matrixEmpty (hart s h) then onHart s h (retireHart 4) else s)
  | _ => .next s

/-- MSAVE (R381). -/
def execMsave (a : Reg) (s : State) : Out :=
  .next (irrevocably s fun s =>
    match firstCause [msCheck s] with
    | some c => raise c (leadWord (.msave a)) s
    | none => matrixRoom s true fun s =>
      if (rx s a).toNat % 64 ≠ 0 then raise 0x46 (rx s a) s
      else
        let act : MAct := .save (rx s a)
        match probeMatrix s true (act.probes (myCore s) (captureOf s)) with
        | .stop s1 => s1
        | .pinned s1 pins _ => placeMatrix act (captureOf s) pins s1)

/-- The checks of a matrix image on its bytes 0 to 63 and 50,240 to 50,495 (R381). Whether a reserved bit of TSHAPE breaks R50 it
does not say: bits [63:24] are held to be reserved bytes of the image, and [15:14] and [7:6] are passed over (DESIGN CHOICE,
log 40). -/
def matrixImageOk (bs : List Byte) : Bool :=
  let z (at_ n : Nat) : Bool := natOfBytes (sliceOf bs at_ n) == 0
  natOfBytes (sliceOf bs 0 2) == 0x13 && z 2 6 && z 11 5 && decide (natOfBytes (sliceOf bs 16 1) ≤ 1) && z 17 47
    && tshapeLegal (natOfBytes (sliceOf bs 8 3))
    && (List.range 4).all fun i =>
      let t := wideOf 512 (sliceOf bs (64 + 64 * i) 64)
      t == 0 || tmOk t

/-- TSHAPE and SHORT of an image, which every younger instruction captures (R127, R381). -/
def restoreShape (bs : List Byte) (c : Core) : Core :=
  let t := natOfBytes (sliceOf bs 8 8)
  { c with kb := BitVec.ofNat 8 (t / 65536), n := BitVec.ofNat 6 (t / 256), m := BitVec.ofNat 6 t
           short := natOfBytes (sliceOf bs 16 1) % 2 == 1, shapeSeq := c.shapeSeq + 1 }

/-- MREST (R381): it reads and checks the ends of the image as it issues. TSHAPE and SHORT are written as it enters the queue,
the maps it has read with the tiles when it is performed. -/
def execMrest (a : Reg) (s : State) : Out :=
  let w := leadWord (.mrest a)
  .next (irrevocably s fun s =>
    match firstCause [msCheck s] with
    | some c => raise c w s
    | none => matrixRoom s true fun s =>
      if (rx s a).toNat % 64 ≠ 0 then raise 0x46 (rx s a) s
      else if !matrixEmpty (me s) then waitOn .mqEmpty s
      else
        let base := rx s a
        let ends : List VAccess := [⟨0, base, 64⟩, ⟨1, base + 50240, 256⟩]
        match probeEntry s ends with
        | .stop s1 => s1
        | .pinned s1 first _ => match entryBytes s1 first ends with
          | .error s2 => s2
          | .ok (s2, bs) =>
            if !matrixImageOk bs then raise 0x6E w s2
            else
              let act : MAct := .restore base ((List.range 4).map fun i => wideOf 512 (sliceOf bs (64 + 64 * i) 64))
              match probeMatrix s2 false (act.accesses (myCore s2) (captureOf s2)) with
              | .stop s3 => s3
              | .pinned s3 pins _ =>
                placeMatrix act (captureOf s3) pins (dirtyMatrix (onCore s3 (coreOf s3.cur) (restoreShape bs))))

/-! ### Performing an entry (R138) -/

/-- Write cells of a core's B-store by their offset in its window; a word written whole holds good data (R259). -/
def storeRows (s : State) (c : Nat) (cells : List Host.Cell) : State :=
  storeBytes s (cells.map fun x => (bstoreBase c + x.1, x.2))
/-- Write cells of a core's B-store sidecars; a word written whole holds good data. -/
def putSides (cells : List Host.Cell) (k : Core) : Core :=
  { k with
    bsc := putCells k.bsc 0 cells
    badSides := k.badSides.filter fun w => !(List.range 8).all fun i => (w + i) ∈ cells.map (·.1) }

/-- What a load leaves in the core and in the B-store. -/
def loadMatrixAct (c : Nat) (cap : Captured) (a : MAct) (got : List (Nat × List Byte)) (s : State) : State :=
  match a with
  | .lda d _ _ _ | .ldaFF d _ _ _ => onCore s c (putA d (tileOfRows got))
  | .ldaScale d _ _ q => onCore s c fun k => putSideA d (sideOfRows (sideA k d) q got) k
  | .ldw d _ _ _ => onCore s c (putA d (tileOfBytes got))
  | .ldb row _ _ => storeRows s c (columnCells row cap.kb got)
  | .ldbScale row _ _ q => onCore s c (putSides (scaleCells row q got))
  | .restore _ maps => onCore s c fun k =>
      { loadMatrix (List.replicate 64 0 ++ (got.map (·.2)).flatten) k with
        tm := mapsOf maps, kb := k.kb, n := k.n, m := k.m, short := k.short }
  | _ => s

/-- The deliveries of an MCAST to the other members' cores (R140). -/
def castOf (s : State) (c : Nat) (tile : Option (BitVec 2 × BitVec 32768 × BitVec 2048)) (cells sides : List Host.Cell) :
    State :=
  match myGang s with
  | none => s
  | some g => g.harts.foldl (fun t p =>
      if decide (p.1 < 64) && p.2 != s.cur then
        onCore t (coreOf p.2) fun k => { k with deliveries := k.deliveries ++ [⟨s.cur, p.2, p.1, tile, cells, sides⟩] }
      else t) (onCore s c id)

/-- The bytes of B-store rows by their offset in a window, and their sidecars. -/
def rowCells (s : State) (c row n : Nat) : List Host.Cell × List Host.Cell :=
  ((List.range 32).flatMap fun j => (List.range (32 * n)).map fun o =>
      (bOffset j row o, memRead s.mem (bstoreBase c + bOffset j row o)),
   (List.range 32).flatMap fun j => (List.range (2 * n)).map fun o =>
      (bSide j row (16 * o), memRead (core s c).bsc (bSide j row (16 * o))))

/-- The mask of an MCAST is complete: no delivery of the hart is in flight (R140). -/
def settleCast (s : State) (h : Nat) : State :=
  match (hart s h).castMask with
  | none => s
  | some (d, m) =>
    if castInFlight s (islandOf h) [h] then s
    else onHart s h fun x =>
      { setX x d m with castMask := none }

/-- An instruction that touches no memory takes effect (R133, R137, R140, R377). -/
def runMatrixAct (s : State) (c : Nat) (cap : Captured) (a : MAct) : State :=
  let own := w64 (2 ^ (me s).gang.member.toNat)
  match a with
  | .zero d => dirtyMatrix (onCore s c fun k => putC d (fillC cap (tileC k d) 0) k)
  | .tmap d t => dirtyMatrix (onCore s c (putTm d t))
  | .mma d x row f =>
    let r := runMma s c cap d x row f
    raiseFlags r.2 (dirtyMatrix (onCore s c (putC d r.1)))
  | .toVector d x row0 k => onMe s fun h => moveToVector h (core s c) cap x row0 k d
  | .toTile d x row0 k =>
    if (movedElems (me s) cap row0 k).isEmpty then s
    else dirtyMatrix (onCore s c fun q => moveToTile (me s) q cap d row0 k x)
  | .castTile d x =>
    let k := core s c
    castOf (onMe s fun h => { h with castMask := some (d, own) }) c (some (x, tileA k x, sideA k x)) [] []
  | .castRows d row =>
    let s1 := onMe s fun h => { h with castMask := some (d, own) }
    if cap.kb = 0 then s1
    else
      let r := rowCells s c row (bRows cap.kb)
      castOf s1 c none r.1 r.2
  | _ => s

/-- A load that writes the hart's matrix state; MLDB writes the core's B-store alone (R35, R55, R121). -/
def MAct.writesTiles : MAct → Bool
  | .ldb _ _ _ | .ldbScale _ _ _ _ => false
  | _ => true

/-- An instruction reads a row of a tile or sidecar, the tiles numbered as in R121's scoreboard. -/
def MAct.readsRow (cap : Captured) (p : Nat × Nat) : MAct → Bool
  | .mma c a _ f =>
    decide (p.2 < cap.m) && (p.1 == 8 + c.toNat || p.1 == a.toNat || (f.isMx && p.1 == 4 + a.toNat))
  | .stc c _ _ _ => p.1 == 8 + c.toNat && decide (p.2 < cap.m)
  | .toVector _ c row0 _ => p.1 == 8 + c.toNat && decide (row0 ≤ p.2) && decide (p.2 < row0 + movedRows cap.vl row0)
  | .castTile _ a => p.1 == a.toNat || p.1 == 4 + a.toNat
  | .save _ => true
  | _ => false

/-- An instruction writes the whole of a row of a tile or sidecar. -/
def MAct.fillsRow (cap : Captured) (p : Nat × Nat) : MAct → Bool
  | .zero c | .mma c _ _ _ => p.1 == 8 + c.toNat && decide (p.2 < cap.m) && cap.n == 32
  | .lda d _ _ _ | .ldaFF d _ _ _ | .ldw d _ _ _ => p.1 == d.toNat
  | .ldaScale d _ _ q => p.1 == 4 + d.toNat && decide (p.2 < cap.m) && q == .mx4 && cap.kb == 128
  | .toTile c _ row0 k =>
    p.1 == 8 + c.toNat && k == 0 && decide (row0 ≤ p.2) && decide (32 * (p.2 - row0) + 32 ≤ cap.vl)
  | .restore _ _ => true
  | _ => false

/-- The B-store rows an instruction reads, of so many slices, and whether it reads their sidecars. -/
def MAct.readsStore (cap : Captured) : MAct → Option (Nat × Nat × Bool)
  | .mma _ _ row f => some (row, cap.n, f.isMx)
  | .castRows _ row => some (row, 32, true)
  | _ => none

/-- The uncorrectable data in the B-store that an entry reads, by its address: 0 in a sidecar, which has none (R125,
R258). -/
def badRows (s : State) (c : Nat) (e : MEntry) : Option Nat :=
  (e.act.readsStore e.cap).bind fun r =>
    let rows := (r.1, bRows e.cap.kb)
    let data := s.poison.find? fun p => decide (bstoreBase c ≤ p.1) && decide (p.1 < bstoreBase c + 0x20000 * r.2.1) &&
      runsMeet ((p.1 - bstoreBase c) % 0x20000 / 32, 1) rows
    let side := r.2.2 && (core s c).badSides.any fun w =>
      decide (w < 0x2000 * r.2.1) && runsMeet (w % 0x2000 / 2, 4) rows
    (data.map (·.1)).or (if side then some 0 else none)

/-- The lowest row of an MSTC's tile, of those from one on, that holds uncorrectable data, where the store ends (R262). -/
def badStoreRow (s : State) (c : Nat) (e : MEntry) (from_ : Nat) : Option Nat :=
  ((((core s c).badTiles.filter fun p => e.act.readsRow e.cap p && decide (from_ ≤ p.2)).map (·.2)).foldl
    (fun m r => some (m.elim r (min r))) (none : Option Nat))

/-- An MSTC. -/
def MAct.isStc : MAct → Bool
  | .stc _ _ _ _ => true
  | _ => false

/-- What an entry consumes besides memory, and besides the rows of the tile that an MSTC stores one by one, holds
uncorrectable data: the address where it has one (R258, R262). -/
def badOperand (s : State) (c : Nat) (e : MEntry) : Option Nat :=
  let tile := !e.act.isStc && (core s c).badTiles.any fun p => e.act.readsRow e.cap p
  let vbad := match e.act with
    | .toTile _ a _ _ => (me s).badV.getLsbD a.toNat
    | _ => false
  if tile || vbad || (e.act.isMem && (core s c).badBeat) then some 0 else badRows s c e

/-- The rows an entry has written whole hold good data again. -/
def clearTiles (e : MEntry) (c : Nat) (s : State) : State :=
  if (core s c).badTiles = [] then s
  else onCore s c fun k => { k with badTiles := k.badTiles.filter fun p => !e.act.fillsRow e.cap p }

/-- Where the store of an entry ends: at the first row or doubleword still to be read whose source holds uncorrectable data
(R262). -/
def storeStop (s : State) (c : Nat) (e : MEntry) (xs ys : List VAccess) : Option (Nat × Nat) :=
  let read := readTo e.todo 0 xs
  match badOperand s c e with
  | some pa => if e.todo.isNone || ys.any (fun x => decide (read ≤ x.idx)) then some (read, pa) else none
  | none => if e.act.isStc then (badStoreRow s c e read).map (·, 0) else none

/-- Perform an entry of the acting hart's matrix queue (R133, R136, R262). -/
def performMatrix (s : State) (e : MEntry) : Performed :=
  let c := coreOf s.cur
  let k := core s c
  let clear (s : State) : State := onCore s c fun k => { k with badBeat := false }
  if e.act.idle e.cap && !(match e.act with | .castRows _ _ => true | _ => false) then .done s []
  else if e.act.isStore then
    let xs := e.act.accesses k e.cap
    let ys := leftOf e.todo xs
    storeUpTo (storeStop s c e xs ys) ys (storeAccesses (fun _ i => e.act.storeValue k e.cap i) false e.pins [] s)
      (raiseFlags (e.act.storeFlags k e.cap)) fun n s1 => clear (raiseFlags (e.act.storeFlags k { e.cap with m := n }) s1)
  else match (if e.act.idle e.cap then none else badOperand s c e) with
  | some pa => .halt (clear s) 0 pa
  | none =>
    if !e.act.isMem then .done (settleCast (runMatrixAct s c e.cap e.act) s.cur) []
    else
      let xs := e.act.accesses k e.cap
      let ps := xs.flatMap (accessPieces e.pins)
      match trackRead s (ps.filter fun p => tracked p.pa) with
      | .stop s1 => .wait (if (taskAt s s.cur).isSome then s1 else s) none
      | .go s1 => match firstPoison s1 e.pins xs with
        | some (_, pa) => .halt s1 0 pa
        | none =>
          let s2 := loadMatrixAct c e.cap e.act (readAccesses s1 e.pins xs) (loadedLines s1 e.pins xs)
          .done (if e.act.writesTiles then dirtyMatrix s2 else s2) []

/-! ### The engine (R135, R138) -/

/-- When the resource of an instruction is free. -/
def unitFree (k : Core) : MUnit → Nat
  | .array => k.arrayFree
  | .load => k.loadFree
  | .port => k.portFree
/-- The resource is taken until a cycle. -/
def takeUnit (u : MUnit) (t : Nat) (k : Core) : Core :=
  match u with
  | .array => { k with arrayFree := t }
  | .load => { k with loadFree := t }
  | .port => { k with portFree := t }

/-- An older convoy that the entry must follow (R138, R192). -/
def followsVector (h : Hart) (e : MEntry) : Bool :=
  (h.vq ++ (h.flight.map (·.convoy)).toList ++ h.heldConvoy.toList).any fun c => decide (c.seq < e.seq) &&
    (followsPlace c.memPlace e.memPlace || movesTouched e c)

/-- The oldest entry that has not started, with those before it. -/
def nextEntry : List MEntry → Option (List MEntry × MEntry)
  | [] => none
  | e :: es => if e.ends.isNone then some ([], e) else (nextEntry es).map fun r => (e :: r.1, r.2)

/-- The C tile an entry reads through the tile port, whose last MMA may still be draining (R135). -/
def portTile : MAct → Option Nat
  | .stc c _ _ _ => some c.toNat
  | .toVector _ c _ _ => some c.toNat
  | .toTile c _ _ _ => some c.toNat
  | _ => none

/-- An MCAST. -/
def MAct.isCast : MAct → Bool
  | .castTile _ _ | .castRows _ _ => true
  | _ => false

/-- An entry can start now: not one to be probed again first, none while a delivery waits to be applied (R140), and an MCAST
once the mask of the one before it is written. -/
def canStart (s : State) (h : Nat) (before : List MEntry) (e : MEntry) : Bool :=
  let k := core s (coreOf h)
  e.reprobe.isNone && !k.deliveries.any (·.target == h) && decide (unitFree k e.act.unit ≤ s.time) && !before.any (fun o => waitsFor o e)
    && !followsVector (hart s h) e && !(e.act.isCast && (hart s h).castMask.isSome)
    && (portTile e.act).all fun c => decide ((tabGet k.tileReady c).getD 0 ≤ s.time)

/-- Change the entry of a place in both queues' order. -/
def onEntry (h seq : Nat) (f : MEntry → MEntry) (s : State) : State :=
  onHart s h fun x => { x with mq := x.mq.map fun e => if e.seq = seq then f e else e }

/-- The cycles that scratchpad banks add to the rows of a matrix memory instruction (R152, R437). -/
def matrixBankDelay (s : State) (h : Nat) (e : MEntry) : Nat :=
  let place (va : Word) : Option Nat := (pinOf e.pins (va.toNat / 4096)).map fun q => q.ppage * 4096 + va.toNat % 4096
  let rowOf (x : VAccess) : Nat := match e.act with
    | .ldw _ _ _ _ => x.idx / 128
    | _ => x.idx
  if !e.pins.any (fun p => (spadPlace (some (p.ppage * 4096))).isSome) then 0
  else match e.act with
    | .lda _ _ _ _ | .ldaFF _ _ _ _ | .ldaScale _ _ _ _ | .ldw _ _ _ _ | .stc _ _ _ _ =>
      let xs := e.act.accesses (core s (coreOf h)) e.cap
      (List.range e.cap.m).foldl (fun n i =>
        n + (bankCost e.act.isStore ((xs.filter fun x => rowOf x == i).flatMap (spadBytesOf place)) - 1)) 0
    | _ => 0

/-- The trace record of an entry's beginning, or of its drain, which for a matrix instruction is its taking effect, behind its
last cycle: R113 and R280 speak of convoys only (DESIGN CHOICE, log 125). The tile port has no pipe number (R281). -/
def traceEntry (h : Nat) (e : MEntry) (kind : Nat) (s : State) : State :=
  match e.act.unit with
  | .port => s
  | .array => traceAt s h ⟨s.time, 6, slotOf h, kind, 0, e.seq % 4096⟩
  | .load => traceAt s h ⟨s.time, 7, slotOf h, kind, 0, e.seq % 4096⟩

/-- Start an entry: its resource is taken, and an MMA's tile is ready 6 cycles after its last cycle (R135). -/
def startEntry (s : State) (h : Nat) (e : MEntry) : State :=
  let n := e.act.cycles e.cap + matrixBankDelay s h e
  let s1 := onEntry h e.seq (fun e => { e with ends := some (s.time + n - 1) }) s
  let s2 := onCore s1 (coreOf h) fun k => takeUnit e.act.unit (s.time + n) (match e.act with
    | .mma d _ _ _ => { k with tileReady := tabSet k.tileReady d.toNat (s.time + n + 6) }
    | _ => k)
  traceEntry h e 1 s2

/-- A hart is halted by uncorrectable data that a matrix entry consumed: nothing younger is performed (R259, R262). -/
def haltEntry (s : State) (h : Nat) (e : MEntry) (progress pa : Nat) : State :=
  haltHart (onHart s h (Hart.upTo e.seq)) h 3 progress pa e.pc

/-- The rows of an MLDAFF are cut, and with them TSHAPE.M of the entries that captured the same shape after it, and of
the core while that shape stands (R130, R379). -/
def cutRows (s : State) (h : Nat) (e : MEntry) (rows : Nat) (pins : List Pin) : State :=
  let cut (o : MEntry) : MEntry :=
    if o.seq = e.seq then match o.act with
      | .ldaFF d base pitch _ => { o with act := .ldaFF d base pitch rows, pins := pins }
      | _ => o
    else if e.seq < o.seq ∧ o.cap.shapeSeq = e.cap.shapeSeq then
      { o with
        cap := { o.cap with m := min o.cap.m rows, short := true }
        act := match o.act with
          | .ldaFF d base pitch n => .ldaFF d base pitch (min n rows)
          | .lda d base pitch n => .lda d base pitch (min n rows)
          | a => a }
    else o
  let s1 := onHart s h fun x => { x with mq := x.mq.map cut }
  if (core s (coreOf h)).shapeSeq = e.cap.shapeSeq then
    onCore s1 (coreOf h) fun c => { c with m := BitVec.ofNat 6 (min c.m.toNat rows), short := true }
  else s1

/-- An MLDAFF whose pins were dropped is probed again (R130, R181): the first row that fails a check ends it (R379). It is
probed once more 256 cycles later where a page is under migration or a line held; uncorrectable data halts the hart. A row
outside the partition's grant freezes the hart (R255), which takes its cause on release (R256), and ends the load as well
(DESIGN CHOICE, log 126). -/
def shortenRows (s : State) (h : Nat) (e : MEntry) : State :=
  match e.act with
  | .ldaFF _ base pitch rows =>
    let acc (s : State) : VAccess → Access := fun _ => { vectorAccess s e.cap false with queued := true }
    let probe (s : State) (n : Nat) := probeAll (acc s) s (rowAccesses base pitch n e.cap.kb)
    let later (s : State) : State := onEntry h e.seq (fun e => { e with ends := none, reprobe := some (s.time + 256) }) s
    let cut (s : State) (i : Nat) : State := match probe s i with
      | .ok (s1, ps) => onEntry h e.seq (fun e => { e with reprobe := none }) (cutRows s1 h e i (pinsOf ps))
      | .error (s1, _, _) => later s1
    let r := match probe { s with cur := h } rows with
      | .ok (s2, ps) => onEntry h e.seq (fun e => { e with pins := pinsOf ps, reprobe := none }) s2
      | .error (s2, i, b) => match b with
        | .trap _ _ => match b.poison with
          | some pa => haltEntry s2 h e 0 pa
          | none => cut s2 i
        | .violation code tval pa => cut (freezeHart s2 h 3 code tval pa) i
        | .migrating _ | .held => later s2
    { r with cur := s.cur }
  | _ => s

/-- An entry whose last cycle is over takes effect, as far as nothing waits (R135, R138). -/
def finishEntry (s : State) (h : Nat) (e : MEntry) : State :=
  let r := match performMatrix { s with cur := h } e with
    | .wait s1 left => onEntry h e.seq (fun e => { e with todo := left }) s1
    | .halt s1 p pa => haltEntry s1 h e p pa
    | .done s1 _ =>
      let s2 := onHart s1 h fun x => { x with mq := x.mq.filter fun o => o.seq != e.seq }
      traceEntry h e 2 (if e.act.idle e.cap then s2 else clearTiles e (coreOf h) s2)
  { r with cur := s.cur }

/-- MATRIX_EXECUTE: an entry whose last cycle is over takes effect, else the next entry starts, or is probed again first
(R130, R135, R138). -/
def execMatrixExecute (h : Nat) (s : State) : Out :=
  match (hart s h).mq.find? fun e => e.ends.any fun t => decide (t < s.time) with
  | some e => .next (if taskWaits s h then s else finishEntry s h e)
  | none =>
    match nextEntry (hart s h).mq with
    | some (before, e) =>
      .next (if e.reprobe.any (fun t => decide (t ≤ s.time)) && !(hart s h).freeze.isSet then shortenRows s h e
        else if canStart s h before e then startEntry s h e else s)
    | none => .next s

/-- MCAST_DELIVERY: the delivery that arrived first at a core is applied or dropped, never during one of the member's
matrix instructions, the next of which starts behind it (R140). -/
def execMcastDelivery (c : Nat) (s : State) : Out :=
  match (core s c).deliveries with
  | [] => .next s
  | d :: rest =>
    if (hart s d.target).mq.any (·.ends.isSome) then .next s
    else
    let s1 := onCore s c fun k => { k with deliveries := rest }
    let owns := (hart s d.target).ms != 0
    let s2 :=
      if !owns then s1
      else match d.tile with
        | some (n, t, sc) =>
          onHart (onCore s1 c fun k => { putSideA n sc (putA n t k) with
            badTiles := k.badTiles.filter fun p => p.1 != n.toNat && p.1 != 4 + n.toNat }) d.target fun h => { h with ms := 2 }
        | none => storeRows (onCore s1 c (putSides d.sides)) c d.cells
    let s3 := if owns then onHart s2 d.sender fun h =>
        { h with castMask := h.castMask.map fun p => (p.1, p.2 ||| w64 (2 ^ d.member)) } else s2
    .next (settleCast s3 d.sender)

end Sys2Proof.Machine
end

