-- ==== Sys2Proof/Machine/Shootdown.lean ====
section
/-!
DEFINITION. Invalidating translations, what that does to instructions in flight, late vector faults, and the return
from a trap (spec/08_translation.md R178 to R182; spec/19 R397, R398; spec/12 R248).
-/
namespace Sys2Proof.Machine

/-! ### What an invalidation drops (R182) -/

/-- The kinds of invalidation. -/
inductive InvKind where
  | page (va : Word) (asid : BitVec 12)
  | asid (asid : BitVec 12)
  | all
  deriving DecidableEq, Repr

/-- A cached translation is dropped. -/
def InvKind.drops (k : InvKind) (e : TlbEntry) : Bool :=
  match k with
  | .page va a => (e.global || e.asid == a) && va.toNat % 2 ^ 48 / 2 ^ e.log2 == e.vpage
  | .asid a => !e.global && e.asid == a
  | .all => true

/-- A pinned translation is dropped, cached or not (R179, R182); an untranslated page has none. -/
def InvKind.dropsPin (k : InvKind) (p : Pin) : Bool :=
  match p.asid with
  | none => false
  | some a => match k with
    | .page va x => (p.global || a == x) && va.toNat % 2 ^ 48 / 2 ^ p.log2 == p.vpage * 4096 % 2 ^ 48 / 2 ^ p.log2
    | .asid x => !p.global && a == x
    | .all => true

/-- The cores in a scope of the acting hart (R182): DEVICE and SYSTEM reach its partition. -/
def coresInScope (s : State) (sc : Scope) : List Nat :=
  match sc with
  | .hart | .core => [coreOf s.cur]
  | .island => coresOfIsland (islandOf s.cur)
  | .device | .system =>
    match partOf s s.cur with
    | some v => (islandsOf s v).flatMap coresOfIsland
    | none => coresOfIsland (islandOf s.cur)

/-- The cores in scope with something to look at: only listed cores hold translations, and only listed harts work. -/
def liveCores (s : State) (sc : Scope) : List Nat :=
  let cs := coresInScope s sc
  addNew [] (((s.cores.map (·.1)) ++ s.harts.map fun p => coreOf p.1).filter (· ∈ cs))

/-- Some pin of a list is dropped. -/
def pinsDropped (k : InvKind) (pins : List Pin) : Bool := pins.any k.dropsPin

/-! ### Instructions in flight (R179, R181) -/

/-- Every element of a convoy has entered the memory pipeline (R178). -/
def hasEntered (s : State) (x : Hart) (c : Convoy) : Bool :=
  x.flight.any fun f => f.convoy.seq == c.seq && (f.todo.isSome || decide (f.lsStart + f.lsBeats ≤ s.time))

/-- A dropped pin has a convoy's remaining elements probed again: it is an exposed or first-fault load or store whose
elements have not all entered the memory pipeline (R178, R179, R181). -/
def isStruck (s : State) (k : InvKind) (x : Hart) (c : Convoy) : Bool :=
  c.mem && pinsDropped k c.pins && (c.exposed || c.firstFault) && !hasEntered s x c

/-- The invalidation must wait for an instruction of a hart that completes under its dropped pins (R181, R182). -/
def mustComplete (s : State) (k : InvKind) (h : Nat) : Bool :=
  let x := hart s h
  (convoysOf x).any (fun c => c.mem && pinsDropped k c.pins && !isStruck s k x c) ||
  x.mq.any fun e => e.mem && pinsDropped k e.pins && (match e.act with
    | .ldaFF _ _ _ _ => false
    | _ => true)

/-- The lowest active element of a convoy that has not entered the memory pipeline (R179): a beat takes its elements from
element 0 on, those below VSTART among them. -/
def notEntered (s : State) (x : Hart) (c : Convoy) : Nat :=
  let r := splitAtMem c.members
  match r.2.1 with
  | none => c.first
  | some m =>
    let entered := match x.flight with
      | some f =>
        if f.convoy.seq = c.seq ∧ f.lsStart ≤ s.time then (s.time - f.lsStart) * max 1 (64 * m.cap.lanes / m.act.timeWidth)
        else 0
      | none => 0
    let lo := max c.first entered
    (((accessesOf (runActs c.low (2 ^ 14) r.1 (c.env x)) m lo c.limit).head?).map (·.idx)).getD lo

/-- The elements of a hart's convoy below `e` are performed under the old translations; `none` where they must wait. The
flags they raise are recorded when the whole convoy is, so that one that takes a late fault records none (R82; log 85). -/
def performBelow (s : State) (h : Nat) (c : Convoy) (e : Nat) : Option State :=
  if e ≤ c.first then some s
  else match performConvoy { s with cur := h } c e none with
    | .done s1 got =>
      let s2 := onHart { s1 with cur := s.cur } h fun x => { x with flags := (hart s h).flags }
      some (setConvoy s2 h (c.begin (hart s h) e got))
    | .wait _ _ => none
    | .halt s1 p pa => some { haltConvoy s1 h c p pa with cur := s.cur }

/-- A convoy that cannot be probed again now is tried 256 cycles later (R184), before it issues anew. -/
def reprobeLater (s : State) (h : Nat) (c : Convoy) : State :=
  let c1 := { c with reprobe := some (s.time + 256) }
  onHart s h fun x =>
    if x.flight.any (·.convoy.seq == c.seq) then { x.without s.time c.seq with vq := c1 :: x.vq }
    else { x with vq := x.vq.map fun o => if o.seq = c.seq then c1 else o }

/-- A convoy with a dropped pin, as it stands once the elements below `e` are performed: those from `e` on are probed again
(R179). A first-fault load is shortened to the first that fails, under pins for those it keeps (R108; log 87). -/
def retranslate (s : State) (h : Nat) (c : Convoy) (e : Nat) : State :=
  let c1 := { c with start := max c.start e }
  match reprobeFrom s h c1 e (2 ^ 14) with
  | .pass s1 pins => setConvoy s1 h { c1 with pins := pins }
  | .stall => reprobeLater s h c1
  | .fault s1 _ i b => failReprobe s1 h c1 e e i b

/-- The exposed and first-fault instructions of a hart with a dropped pin, each with its first element not entered. -/
def struckBy (s : State) (k : InvKind) (h : Nat) : List (Convoy × Nat) :=
  let x := hart s h
  ((convoysOf x).filter (isStruck s k x)).map fun c => (c, notEntered s x c)

/-- Perform what every struck instruction has already entered, or find that it must wait. -/
def performStruck (s : State) (l : List (Nat × Convoy × Nat)) : Option State :=
  l.foldl (fun acc p => acc.bind fun s => performBelow s p.1 p.2.1 p.2.2) (some s)

/-- Speculative tasks with buffered bytes under a dropped translation of a core in scope (R181). -/
def tasksUnder (s : State) (k : InvKind) (cs : List Nat) : List TaskEntry :=
  s.tasks.filter fun t => !t.rows.isEmpty && t.rowCore ∈ cs && pinsDropped k t.pins

/-- A word of an engine or a steward of a core in scope still waits to be performed under a dropped translation (R182). -/
def keptUnder (s : State) (k : InvKind) (sc : Scope) : Bool :=
  s.pendingWrites.any fun p => (p.agent.core.any (· ∈ coresInScope s sc)) && pinsDropped k p.pins

/-- Drop the matching cached translations of cores. -/
def dropTlb (s : State) (k : InvKind) (cs : List Nat) : State :=
  cs.foldl (fun s c => onCore s c fun q =>
    { q with tlb := q.tlb.filter fun e => !k.drops e, small := q.small.filter fun e => !k.drops e.2 }) s

/-- The invalidation (R182): it waits for its hart's older accesses, for instructions that complete under their pins,
for words that engines and stewards have still to perform under them, and for protected tasks; then it drops the translations, and what was pinned to them is probed again. -/
def invalidate (w : Word) (k : InvKind) (sc : Scope) (s : State) : Out :=
  .next (irrevocably s fun s =>
    if (me s).mode = .user then raise 0x05 w s
    else if memoryPending (me s) then waitOn .queues s
    else
      let cs := liveCores s sc
      let hs := cs.flatMap hartsOn
      let under := (tasksUnder s k cs).filter fun t => t.hart != some s.cur
      let struck := hs.flatMap fun h => (struckBy s k h).map fun p => (h, p)
      if hs.any (mustComplete s k) || keptUnder s k sc || under.any (isProtected s) then waitOn (.shootdown (s.time + 1)) s
      else match performStruck s struck with
        | none => waitOn (.shootdown (s.time + 1)) s
        | some s1 =>
          let ff := hs.flatMap fun h => ((hart s h).mq.filter fun e => e.mem && pinsDropped k e.pins).map fun e => (h, e)
          let s2 := dropTlb s1 k cs
          let s3 := struck.foldl (fun s p =>
            match (convoysOf (hart s p.1)).find? (·.seq == p.2.1.seq) with
            | some c => retranslate s p.1 c p.2.2
            | none => s) s2
          let s4 := ff.foldl (fun s p => match (hart s p.1).mq.find? (·.seq == p.2.seq) with
            | some e => shortenRows s p.1 e
            | none => s) s3
          retire (abortAll s4 (under.map (·.uid))))

/-- TLBINV of a page (R397). -/
def execTlbinvPage (a b : Reg) (sc : Scope) (s : State) : Out :=
  invalidate (leadWord (.tlbinvPage a b sc)) (.page (rx s a) (BitVec.ofNat 12 (rx s b).toNat)) sc s
/-- TLBINV of an address space (R397). -/
def execTlbinvAsid (b : Reg) (sc : Scope) (s : State) : Out :=
  invalidate (leadWord (.tlbinvAsid b sc)) (.asid (BitVec.ofNat 12 (rx s b).toNat)) sc s
/-- TLBINV of everything (R397). -/
def execTlbinvAll (sc : Scope) (s : State) : Out := invalidate (leadWord (.tlbinvAll sc)) .all sc s

/-! ### Late vector faults (R179) and TRET (R398) -/

/-- The seed the elements of a convoy drew from, where one of its members draws (R76). -/
def Convoy.seed (c : Convoy) : Option Word :=
  (c.members.find? fun m => m.act.draws && m.cap.rm == 5).map (·.cap.seed)

/-- LATE_VECTOR_FAULT: the hart takes it at its scalar instruction boundary (R179): VSTART, VEPC and LATE are set and
the trap is taken with EPC at the oldest instruction that has not retired. SRSEED is what the elements of the held convoy
drew from (R76). -/
def execLateVectorFault (h : Nat) (s : State) : Out :=
  match (hart s h).lateFault with
  | none => .next s
  | some f =>
    let s1 := onHart s h fun x =>
      let seed := x.heldConvoy.bind Convoy.seed
      { x with
        vstart := BitVec.ofNat 14 f.start, vepc := f.pc, late := true, lateFault := none, wait := none
        srseed := seed.getD x.srseed, heldAdvance := seed.elim 0 (x.srseed - ·) }
    .next { raise f.cause f.tval { s1 with cur := h } with cur := s.cur }

/-- The held convoy of a hart goes back to its place in the queue, behind the older ones that have still to issue, from
VSTART, to be probed again (R180): where that is the element it stopped at, with the registers it began with. When the
advance of SRSEED that the trap has undone is applied again R76 does not say: SRSEED moves on here by all that it had moved,
for the instructions that had retired behind the convoy as well (DESIGN CHOICE, log 127). -/
def resumeConvoy (now : Nat) (h : Hart) : Hart :=
  match h.heldConvoy with
  | some c =>
    let c1 : Convoy := { c with
      start := h.vstart.toNat, reprobe := some now
      begun := if h.vstart.toNat = c.start then c.begun else none }
    { h with
      vq := (h.vq.filter fun o => decide (o.seq < c.seq)) ++ c1 :: h.vq.filter fun o => decide (c.seq < o.seq)
      heldConvoy := none, vstart := 0, srseed := h.srseed + h.heldAdvance, heldAdvance := 0 }
  | none => h

/-- A return that leaves the handler beside a held instruction: a fault the task still holds is delivered there (R223,
R224). -/
def leaveAside (s : State) : State :=
  match (me s).aside with
  | some (pc, mode) =>
    if (me s).mode = mode ∧ (mode = .user ∨ (me s).pc = pc) then
      let s1 := onMe s fun h => { h with aside := none }
      match taskAt s s.cur with
      | some e => if e.fault.isSome then makeIrrev s1 e else s1
      | none => s1
    else s
  | none => s

/-- TRET (R398). -/
def execTret (s : State) : Out :=
  let w := leadWord .tret
  .next (irrevocably s fun s =>
    let h := me s
    if h.mode = .user then raise 0x05 w s
    else if h.mode = .monitor ∧ !h.mon.handling then raise 0x05 w s
    else if h.late ∧ h.heldConvoy.isNone then raise 0x0D w s
    else
      let s1 := onMe s fun h => returnHart (if h.late then { resumeConvoy s.time h with late := false, vepc := 0 } else h)
      let s2 := if h.mode = .monitor then settleMonhart s1 s.cur else s1
      leaveAside s2)

end Sys2Proof.Machine
end

