-- ==== Sys2Proof/Machine/ScalarMem.lean ====
section
/-!
DEFINITION. The scalar memory instructions: loads, stores, ordered forms, atomic operations, bit fields, watermark
waits, PREF and CACHEOP (spec/18 R367 to R372; spec/17 R348 to R351, R357, R358; spec/07 R154; spec/09 R194, R195,
R200; spec/19 R428). Accesses are performed in one order, so AQ, RL and the scope change no value (log 6); copies
of data are coherent, so PREF and CACHEOP of data change none either; those of instructions are not (log 18).
-/
namespace Sys2Proof.Machine

/-! ### Loads and stores (R368) -/

/-- The bytes of a scalar width. -/
def memWBytes : MemW → Nat
  | .b | .bu => 1 | .h | .hu => 2 | .w | .wu => 4 | .d => 8
/-- The bytes of a size. -/
def sizeBytes : Size → Nat
  | .b => 1 | .h => 2 | .w => 4 | .d => 8
/-- Sign-extend n bytes (R368). -/
def signBytes (n v : Nat) : Word := BitVec.ofInt 64 (if v < 2 ^ (8 * n - 1) then (v : Int) else (v : Int) - 2 ^ (8 * n))
/-- What a load writes (R368). -/
def memWExtend (k : MemW) (v : Nat) : Word :=
  match k with
  | .b | .h | .w => signBytes (memWBytes k) v
  | _ => w64 v

/-- A load of n bytes: its value goes through `f` to xd. -/
def loadTo (d : Reg) (va : Word) (n : Nat) (f : Nat → Word) (s : State) : State :=
  match openScalar true false false va n s with
  | .stop s1 => s1
  | .go s1 ps => match readAny s1 ps with
    | .error s2 => s2
    | .ok (s2, bs) => retireX d (f (natOfBytes bs)) s2

/-- A store of the low n bytes of a word; `w` is the instruction's word. -/
def storeFrom (va : Word) (n : Nat) (v w : Word) (s : State) : State :=
  match openScalar false true false va n s with
  | .stop s1 => s1
  | .go s1 ps => match writeAny s1 ps (bytesOfNat n v.toNat) w with
    | .error s2 => s2
    | .ok s2 => retire s2

/-- LD (R368). -/
def execLd (d a : Reg) (wd : MemW) (off : BitVec 13) (s : State) : Out :=
  .next (loadTo d (rx s a + simm off) (memWBytes wd) (memWExtend wd) s)
/-- ST (R368). -/
def execSt (d a : Reg) (wd : Size) (off : BitVec 13) (s : State) : Out :=
  .next (storeFrom (rx s a + simm off) (sizeBytes wd) (rx s d) (leadWord (.st d a wd off)) s)
/-- PREF brings the line into the L2 portion, or into the LLC; it changes no value any agent can read, the tables' A bits
among them (R370). -/
def execPref (a : Reg) (off : BitVec 13) (s : State) : Out :=
  let x := scalarAccess s .load
  match checkAccess s x (rx s a + simm off) 1 with
  | .ok (_, p :: _) => .next (retire (if tracked p.pa then prefetchLine (coreOf s.cur) s (p.pa / 64) else s))
  | _ => .next (retire s)
/-- LD.AQ (R368, R194). -/
def execLdAq (d a : Reg) (wd : Size) (_sc : Scope) (s : State) : Out :=
  let va := rx s a
  if va.toNat % (sizeBytes wd) ≠ 0 then outTrap 0x26 va s
  else .next (loadTo d va (sizeBytes wd) (fun v => if wd == .d then w64 v else signBytes (sizeBytes wd) v) s)
/-- ST.RL (R368, R194). -/
def execStRl (a b : Reg) (wd : Size) (sc : Scope) (s : State) : Out :=
  let va := rx s a
  if va.toNat % (sizeBytes wd) ≠ 0 then outTrap 0x26 va s
  else .next (storeFrom va (sizeBytes wd) (rx s b) (leadWord (.stRl a b wd sc)) s)

/-! ### Atomic operations (R349, R350) -/

/-- The read and the write of an atomic operation: `f` gives the new value, or none where CAS fails, which takes its line as
a store does and writes nothing (R195); xd receives the old value, sign-extended. -/
def atomicOp (d a : Reg) (dw : Bool) (f : Nat → Option Nat) (s : State) : Out :=
  let n := if dw then 8 else 4
  let va := rx s a
  if va.toNat % n ≠ 0 then outTrap 0x26 va s
  else match openScalar true true true va n s with
    | .stop s1 => .next s1
    | .go s1 ps => match readScalar s1 ps with
      | .error s2 => .next s2
      | .ok (s2, bs) =>
        let old := natOfBytes bs
        match f old with
        | none =>
          let s3 := if (taskAt s s.cur).isSome then s2 else touch (storeScalarLine (coreOf s.cur)) s2 (spansOf ps)
          .next (retireX d (signBytes n old) s3)
        | some new => match writeScalar s2 ps (bytesOfNat n new) with
          | .error s3 => .next s3
          | .ok s3 => .next (retireX d (signBytes n old) s3)

/-- The bits of the operand's width (R349). -/
def atomBits (dw : Bool) : Nat := if dw then 64 else 32
/-- An AMO of a function of the old value and the low bits of xb. -/
def amoOp (d a b : Reg) (dw : Bool) (f : Nat → Nat → Nat) (s : State) : Out :=
  let m := 2 ^ atomBits dw
  let x := (rx s b).toNat % m
  atomicOp d a dw (fun old => some (f old x % m)) s
/-- The signed value of an operand. -/
def atomInt (dw : Bool) (v : Nat) : Int := if v < 2 ^ (atomBits dw - 1) then v else (v : Int) - 2 ^ atomBits dw

/-- AMO.swap: the operand (R349). -/
def execAmoSwap (d a b : Reg) (_aq _rl dw : Bool) (_sc : Scope) (s : State) : Out :=
  amoOp d a b dw (fun _ x => x) s
/-- AMO.add: the sum (R349). -/
def execAmoAdd (d a b : Reg) (_aq _rl dw : Bool) (_sc : Scope) (s : State) : Out :=
  amoOp d a b dw (fun o x => o + x) s
/-- AMO.and: bitwise (R349). -/
def execAmoAnd (d a b : Reg) (_aq _rl dw : Bool) (_sc : Scope) (s : State) : Out :=
  amoOp d a b dw (fun o x => o &&& x) s
/-- AMO.or: bitwise (R349). -/
def execAmoOr (d a b : Reg) (_aq _rl dw : Bool) (_sc : Scope) (s : State) : Out :=
  amoOp d a b dw (fun o x => o ||| x) s
/-- AMO.xor: bitwise (R349). -/
def execAmoXor (d a b : Reg) (_aq _rl dw : Bool) (_sc : Scope) (s : State) : Out :=
  amoOp d a b dw (fun o x => o ^^^ x) s
/-- AMO.min: the signed lesser (R349). -/
def execAmoMin (d a b : Reg) (_aq _rl dw : Bool) (_sc : Scope) (s : State) : Out :=
  amoOp d a b dw (fun o x => if atomInt dw x < atomInt dw o then x else o) s
/-- AMO.max: the signed greater (R349). -/
def execAmoMax (d a b : Reg) (_aq _rl dw : Bool) (_sc : Scope) (s : State) : Out :=
  amoOp d a b dw (fun o x => if atomInt dw o < atomInt dw x then x else o) s
/-- AMO.minu: the unsigned lesser (R349). -/
def execAmoMinu (d a b : Reg) (_aq _rl dw : Bool) (_sc : Scope) (s : State) : Out :=
  amoOp d a b dw (fun o x => Nat.min o x) s
/-- AMO.maxu: the unsigned greater (R349). -/
def execAmoMaxu (d a b : Reg) (_aq _rl dw : Bool) (_sc : Scope) (s : State) : Out :=
  amoOp d a b dw (fun o x => Nat.max o x) s
/-- CAS writes xb where the old value equals xd (R349). -/
def execCas (d a b : Reg) (_aq _rl dw : Bool) (_sc : Scope) (s : State) : Out :=
  let m := 2 ^ atomBits dw
  let want := (rx s d).toNat % m
  let new := (rx s b).toNat % m
  atomicOp d a dw (fun old => if old = want then some new else none) s

/-! ### Bit fields (R154, R372) -/

/-- The byte address and the bit index of a bit address. -/
def bitPlace (ba : Word) : Word × Nat := (ba.sshiftRight 3, ba.toNat % 8)
/-- The bytes a field touches. -/
def fieldBytes (ix w : Nat) : Nat := (ix + w + 7) / 8
/-- Sign-extend w bits. -/
def signBits (w v : Nat) : Word := BitVec.ofInt 64 (if v < 2 ^ (w - 1) then (v : Int) else (v : Int) - 2 ^ w)

/-- LDB (R154, R372). -/
def execLdb (d a : Reg) (wm1 : BitVec 4) (sx : Bool) (s : State) : Out :=
  let w := wm1.toNat + 1
  let p := bitPlace (rx s a)
  .next (loadTo d p.1 (fieldBytes p.2 w)
    (fun v => let f := v / 2 ^ p.2 % 2 ^ w; if sx then signBits w f else w64 f) s)

/-- STB: the other bits of the bytes are unchanged (R154, R372). -/
def execStb (a b : Reg) (wm1 : BitVec 4) (s : State) : Out :=
  let w := wm1.toNat + 1
  let p := bitPlace (rx s a)
  let n := fieldBytes p.2 w
  match openScalar true true false p.1 n s with
  | .stop s1 => .next s1
  | .go s1 ps => match readScalar s1 ps with
    | .error s2 => .next s2
    | .ok (s2, bs) =>
      let new := putBits (BitVec.ofNat 64 (natOfBytes bs)) p.2 w (rx s b).toNat
      match writeScalar s2 ps (bytesOfNat n new.toNat) with
      | .error s3 => .next s3
      | .ok s3 => .next (retire s3)

/-! ### Watermarks (R200, R428) -/

/-- One read of a WAITWM: it retires, waits, or ends with the read's cause. It leaves no mark of its task (R428): it waits
for what any read waits for, and a foreign write of the watermark never waits for it. -/
def watchMark (va bound : Word) (s : State) : State :=
  match openScalar true false false va 8 s with
  | .stop s1 => s1
  | .go s1 ps =>
    let ends (s : State) (v : Nat) : State := if bound.toNat ≤ v then retire s else waitOn (.waitwm va bound) s
    if isMmio ps then
      let r := mmioRead s1 ((pieceBytes ps).headD 0)
      ends r.1 r.2.toNat
    -- a line held until a task commits is read once it has (R222)
    else if (taskAt s1 s1.cur).isNone && homeHeld s1 none ps then waitOn (.waitwm va bound) s1
    else match readWaits s1 (ps.filter fun p => tracked p.pa) with
      | some s2 => s2
      | none => match takeBytes s1 s1 ps with
        | .error s2 => s2
        | .ok (s2, bs) => ends s2 (natOfBytes bs)

/-- WAITWM (R200, R428). -/
def execWaitwm (a b : Reg) (_sc : Scope) (s : State) : Out :=
  .next (irrevocably s fun s =>
    if (rx s a).toNat % 8 ≠ 0 then raise 0x26 (rx s a) s else watchMark (rx s a) (rx s b) s)

/-- WAITWM_SATISFIED: the watermark is read again (R200, R428). -/
def execWaitwmSatisfied (h : Nat) (s : State) : Out :=
  match (hart s h).wait with
  | some (.waitwm va bound) => .next (watchMark va bound { s with cur := h })
  | _ => .next s

/-! ### CACHEOP (R357, R358) -/

/-- A form that names an address: it is checked as a scalar load, but a scratchpad, B-store or MMIO address raises nothing;
`done` is what the form does at the physical address. -/
def cacheLine (a : Reg) (done : Nat → State → State) (s : State) : State :=
  irrevocably s fun s =>
    let va := rx s a
    let quiet := match translate s (scalarAccess s .load) va with
      | .ok s1 t => match regionOf t.pa with
        | .spad _ _ | .bstore _ _ | .mmio => some (s1, t.pa)
        | _ => none
      | _ => none
    match quiet with
    | some p => done p.2 (retire p.1)
    | none => match checkAccess s (scalarAccess s .load) va 1 with
      | .error (s1, b) => badAccess .load b s1
      | .ok (s1, ps) => done ((pieceBytes ps).headD 0) (retire s1)

/-- An invalidation of the instruction cache drops the loop records whose body it reaches (R374), and releases the captured
bodies that hold a line of it at their next iteration (R358). -/
def dropLoops (s : State) (record : Word × Word → Bool) (line : Nat → Bool) : State :=
  (hartsOn (coreOf s.cur)).foldl (fun s h =>
    if (hart s h).loops.any record || (hart s h).body.any (·.lines.any line) then
      onHart s h fun x => { x with
        loops := x.loops.filter fun r => !record r
        body := x.body.map fun b => { b with released := b.released || b.lines.any line } }
    else s) s

/-- Lines of the acting hart's L1I are invalidated. -/
def dropCode (s : State) (line : Nat → Bool) : State :=
  onCore s (coreOf s.cur) fun k => { k with l1i := k.l1i.filter fun x => !line x.line }

/-- CACHEOP.il. -/
def execCacheopIl (a : Reg) (s : State) : Out :=
  let line := (rx s a).toNat / 64 * 64
  .next (cacheLine a (fun pa s => dropLoops (dropCode s (· == pa / 64))
    (fun r => decide (r.1.toNat < line + 64) && decide (line < r.2.toNat + 4)) (· == pa / 64)) s)
/-- CACHEOP.ia. -/
def execCacheopIa (s : State) : Out :=
  .next (irrevocably s fun s => if (me s).mode == .user then raise 0x05 (leadWord .cacheopIa) s
    else dropLoops (dropCode (retire s) fun _ => true) (fun _ => true) (fun _ => true))
/-- CACHEOP.wb. -/
def execCacheopWb (a : Reg) (s : State) : Out :=
  .next (cacheLine a (fun pa s => if tracked pa then cleanLine s (pa / 64) else s) s)
/-- CACHEOP.wbi. -/
def execCacheopWbi (a : Reg) (s : State) : Out :=
  .next (cacheLine a (fun pa s => if tracked pa then purgeLine s (pa / 64) else s) s)

end Sys2Proof.Machine
end

