-- ==== Sys2Proof/Machine/Control.lean ====
section
/-!
DEFINITION. Branches, jumps, hardware loops, SYSCALL and BREAK (spec/17 R353, R354; spec/18 R374, R390).
-/
namespace Sys2Proof.Machine

/-! ### Branches and jumps (R353) -/

/-- The condition of a branch (R288). -/
def condHolds (c : Cond) (a b : Word) : Bool :=
  match c with
  | .eq => a == b
  | .ne => a != b
  | .lt => a.slt b
  | .ge => !a.slt b
  | .ltu => a.ult b
  | .geu => !a.ult b

/-- The target of a displacement in words from the acting hart's PC. -/
def target {w : Nat} (s : State) (disp : BitVec w) : Word := (me s).pc + 4 * simm disp

/-- BR. -/
def execBr (a b : Reg) (c : Cond) (disp : BitVec 13) (s : State) : Out :=
  .next (retireTo (if condHolds c (rx s a) (rx s b) then target s disp else (me s).pc + 4) s)
/-- JAL. -/
def execJal (d : Reg) (disp : BitVec 21) (s : State) : Out :=
  .next (retireTo (target s disp) (wx s d ((me s).pc + 4)))
/-- JALR: a target that is no multiple of 4 raises 0x0B. -/
def execJalr (d a : Reg) (i : BitVec 16) (s : State) : Out :=
  let t := rx s a + simm i
  if t.toNat % 4 ≠ 0 then outTrap 0x0B t s else .next (retireTo t (wx s d ((me s).pc + 4)))

/-! ### Hardware loops (R374) -/

/-- The end address that IMM16 names. -/
def loopEnd (s : State) (i : BitVec 16) : Word := (me s).pc + 4 * uimm i

/-- Keep a record, the newest first, for up to 8 ends. -/
def keepLoop (start end_ : Word) (l : List (Word × Word)) : List (Word × Word) :=
  ((start, end_) :: l.filter fun r => r.2 != end_).take 8

/-- The instruction at an address as a hart's loop buffer takes it, where it can be fetched and no table entry has to
change for it. -/
def captureWords (s : State) (h : Nat) (va : Word) : Option (List Nat) :=
  let word (va : Word) : Option Nat := match fetchWord s h va with
    | .ok (s1, w) => if s1.mem = s.mem then some w else none
    | .error _ => none
  (word va).bind fun w0 =>
    if !isVectorWord w0 then some [w0]
    else (word (va + 4)).bind fun w1 =>
      if lengthOf w0 w1 = 8 then some [w0, w1] else (word (va + 8)).map fun w2 => [w0, w1, w2]

/-- The instructions from an address up to the LEND at `end_`, so many at most (R116). -/
def captureFrom (s : State) (h : Nat) (end_ : Word) : Nat → Word → Option (List (Word × List Nat))
  | fuel, va =>
    if va = end_ then
      (captureWords s h va).bind fun ws => if ws = [(leadWord .lend).toNat] then some [(va, ws)] else none
    else match fuel with
      | 0 => none
      | fuel + 1 => (captureWords s h va).bind fun ws =>
        (captureFrom s h end_ fuel (va + w64 (4 * ws.length))).map ((va, ws) :: ·)

/-- The loop buffer's content for a loop of a hart: the instructions up to its LEND, if they number at most 64 (R116). When
a hart that begins a loop reads them is the model's choice (DESIGN CHOICE, log 97). -/
def captureBody (s : State) (h : Nat) (start end_ : Word) : Option LoopBody :=
  (captureFrom s h end_ 64 start).map fun code =>
    let x := hart s h
    let line (va : Word) : Option Nat := (peek s h x.mode x.ptbase va).map (· / 64)
    { start := start, end_ := end_, code := code, released := false
      lines := (code.flatMap fun p => (line p.1).toList ++ (line (p.1 + w64 (4 * p.2.length - 1))).toList).eraseDups }

/-- The loop buffer at the beginning of an iteration of a loop of the acting hart: a body it holds stays, unless it was
released (R358); a loop inside it runs from normal fetch (R116). -/
def capture (start end_ : Word) (s : State) : State :=
  match (me s).body with
  | some b =>
    if (b.start == start && b.end_ == end_ && b.released) then onMe s fun h => { h with body := captureBody s s.cur start end_ }
    else s
  | none => onMe s fun h => { h with body := captureBody s s.cur start end_ }

/-- LOOP. -/
def execLoop (a : Reg) (i : BitVec 16) (s : State) : Out :=
  let n := BitVec.ofNat 32 (rx s a).toNat
  let e := loopEnd s i
  if n = 0 then .next (retireTo (e + 4) (onMe s fun h => { h with lc := 0 }))
  else .next (capture ((me s).pc + 4) e (retireTo ((me s).pc + 4) (onMe s fun h =>
    { h with lc := n, loops := keepLoop (h.pc + 4) e h.loops })))

/-- The word is a LOOP whose IMM16 is the distance to the LEND. -/
def loopWord (w dist : Nat) : Bool :=
  w / 2 ^ 26 == 16 && w / 2 ^ 21 % 32 == 0 && w % 65536 == dist

/-- The backward search of a LEND (R374): the start, the failure of a fetch, or nothing. -/
def searchLoop (s : State) (pc : Word) : Nat → Nat → Except (State × Bad) (State × Option Word)
  | 0, _ => .ok (s, none)
  | fuel + 1, dist =>
    let at_ := pc - w64 (4 * dist)
    match fetchWord s s.cur at_ with
    | .error b => .error b
    | .ok (s1, w) => if loopWord w dist then .ok (s1, some (at_ + 4)) else searchLoop s1 pc fuel (dist + 1)

/-- A LEND has its start: it goes back to it with one count less, or goes on after the last iteration. -/
def loopBack (start : Word) (s : State) : State :=
  let s1 := onMe s fun h => { h with lc := h.lc - 1 }
  if (me s).lc = 1 then retireTo ((me s).pc + 4) s1 else capture start (me s).pc (retireTo start s1)

/-- LEND: with a count left and no record of its own it searches, in its last iteration too. -/
def execLend (s : State) : Out :=
  let h := me s
  let w := leadWord .lend
  if h.lc = 0 then outTrap 0x0E w s
  else match h.loops.find? fun r => r.2 == h.pc with
    | some r => .next (loopBack r.1 s)
    | none => match searchLoop s h.pc 65535 1 with
      | .ok (s1, some start) => .next (loopBack start s1)
      | .ok (s1, none) => outTrap 0x0E w s1
      | .error (s1, b) => .next (badAccess .fetch b s1)

/-! ### SYSCALL and BREAK -/

/-- SYSCALL (R390). -/
def execSyscall (i : BitVec 12) (s : State) : Out :=
  let w := leadWord (.syscall i)
  .next (irrevocably s fun s =>
    match (me s).mode with
    | .user => raise (0x10 + BitVec.ofNat 8 (i.toNat % 16)) w s
    | .supervisor => raise 0x06 w s
    | .monitor => raise 0x07 w s)

/-- BREAK (R354). -/
def execBrk (i : BitVec 12) (s : State) : Out := outTrap 0xF0 (leadWord (.brk i)) s

end Sys2Proof.Machine
end

