-- ==== Sys2Proof/Machine/TaskInstr.lean ====
section
/-!
DEFINITION. The task instructions and the task events: domains, spawning, finishing, dispatch, spill and refill, the
frontier, commit and reclaim (spec/10_tasks.md R203 to R224; spec/19 R392 to R396). The spill region's bytes, whose
format is the steward's own, are not written (log 26).
-/
namespace Sys2Proof.Machine

/-! ### Domains (R203 to R205) -/

/-- Every entry of a domain is free. -/
def domainEmpty (s : State) (v d : Nat) : Bool := (tasksOf s v d).isEmpty

/-- The harts in task mode in a domain. -/
def enteredHarts (s : State) (v d : Nat) : List Nat :=
  (s.harts.map (·.1)).filter fun h => (hart s h).tmode && partOf s h == some v && (hart s h).enter.any (·.dom == d)

/-- ENTER returns: TMODE is cleared and COMMITS written to xd (R204). -/
def returnFromEnter (commits : Word) (h : Hart) : Hart :=
  match h.enter with
  | some c => retireHart 4 { setX { h with pc := c.pc } c.d commits with enter := none, tmode := false, task := none }
  | none => h

/-- The domain has become empty: SEEDING is set, its ENTERs return and the counts of roots start again. -/
def settleDomain (s : State) (v d : Nat) : State :=
  if (domain s v d).active && domainEmpty s v d then
    let s1 := (enteredHarts s v d).foldl (fun s h => onHart s h (returnFromEnter (domain s v d).commits)) s
    let s2 := (s1.harts.map (·.1)).foldl (fun s h =>
      if partOf s h = some v ∧ (tabGet (hart s h).seeded d).isSome then
        onHart s h fun x => { x with seeded := tabDel x.seeded d } else s) s1
    onDomain s2 v d fun m => { m with seeding := true }
  else s

/-- The lowest free domain number. -/
def freeDomain (s : State) (v : Nat) : Option Nat := (List.range 16).find? fun d => !(domain s v d).active

/-- A descriptor is valid (R205). -/
def descOk (bs : List Byte) : Bool :=
  numAt bs 0 8 % 4096 == 0 && decide (1024 ≤ numAt bs 8 4) && decide (numAt bs 8 4 ≤ 16777216)
    && numAt bs 12 4 == 0 && numAt bs 42 22 == 0

/-- Some domain of the partition is active. -/
def anyActive (s : State) (v : Nat) : Bool := (List.range 16).any fun d => (domain s v d).active

/-- The first exchange after an OPEN (R219). -/
def armExchange (s : State) (v : Nat) : State :=
  if anyActive s v then s
  else onPart s v fun p => { p with nextExchange := (s.time / 128 + 1) * 128 }

/-- TDOMAIN.open (R204, R394). On an island of no function there is no domain number to take, and it raises 0x83 (DESIGN
CHOICE, log 108). -/
def execTdomainOpen (d a : Reg) (s : State) : Out :=
  let w := leadWord (.tdomainOpen d a)
  let va := rx s a
  if (me s).tmode then outTrap 0x82 w s
  else if va.toNat % 64 ≠ 0 then outTrap 0x87 w s
  else match openScalar true false false va 64 s with
    | .stop s1 => .next s1
    | .go s1 ps => match readScalar s1 ps with
      | .error s2 => .next s2
      | .ok (s2, bs) =>
        if !descOk bs then outTrap 0x87 w s2
        else match (partOf s s.cur).bind fun v => (freeDomain s v).map fun n => (v, n) with
          | none => outTrap 0x83 w s2
          | some (v, n) =>
            let dm : Domain :=
              { active := true, seeding := true, desc := va, ptbase := (me s).ptbase, qbase := w64 (numAt bs 0 8)
                qcap := numAt bs 8 4 }
            let s3 := onDomain (armExchange s2 v) v n fun _ => dm
            outX d (w64 n) (onMe s3 fun h => { h with dom := BitVec.ofNat 4 n, seeded := tabDel h.seeded n })

/-- What ENTER captures (R204, R394). -/
def captureEnter (d : Reg) (h : Hart) : EnterCtx :=
  { d := d, x2 := getX h 2, x3 := getX h 3, rm := h.rm, nbv := h.nbv, srseed := h.srseed, mode := h.mode, pc := h.pc
    dom := h.dom.toNat }

/-- TDOMAIN.enter (R204): at once where the domain is empty; otherwise the hart is in task mode and idle. -/
def execTdomainEnter (d : Reg) (s : State) : Out :=
  let w := leadWord (.tdomainEnter d)
  match (if (me s).tmode then none else partOf s s.cur) with
  | none => outTrap 0x82 w s
  | some v =>
    let n := (me s).dom.toNat
    let dm := domain s v n
    if !dm.active then outTrap 0x82 w s
    else if domainEmpty s v n then outX d dm.commits s
    else .next (onMe s fun h => { h with tmode := true, enter := some (captureEnter d h), task := none })

/-- The bytes CLOSE writes from offset 16 of the descriptor (R205). -/
def closeBytes (m : Domain) : List Byte :=
  wideBytes m.commits 8 ++ wideBytes m.aborts 8 ++ wideBytes m.discards 8 ++ wideBytes m.flags 2

/-- TDOMAIN.close (R204, R394). A domain whose dispatch was stopped is freed by function-level reset alone (R205), so
its CLOSE raises 0x82 as that of any domain that cannot be freed (DESIGN CHOICE, log 89). -/
def execTdomainClose (d : Reg) (s : State) : Out :=
  let w := leadWord (.tdomainClose d)
  match (if (me s).tmode then none else partOf s s.cur) with
  | none => outTrap 0x82 w s
  | some v =>
    let n := (me s).dom.toNat
    let dm := domain s v n
    if !dm.active || dm.stopped || !domainEmpty s v n || !(enteredHarts s v n).isEmpty then outTrap 0x82 w s
    else if memoryPending (me s) then .next (waitOn .queues s)
    else match openScalar false true false (dm.desc + 16) 26 s with
      | .stop s1 => .next s1
      | .go s1 ps => match writeScalar s1 ps (closeBytes dm) with
        | .error s2 => .next s2
        | .ok s2 => outX d dm.commits (onDomain s2 v n fun _ => {})

/-! ### TSPAWN (R206, R207, R210, R395) -/

/-- Entries of an island's task unit in use. -/
def unitUse (s : State) (n : Nat) : Nat := (s.tasks.filter fun e => e.island == n && !e.spilled).length
/-- Entries of a domain's spill region in use. -/
def spillUse (s : State) (v d : Nat) : Nat := ((tasksOf s v d).filter (·.spilled)).length
/-- The spill region of a domain takes another entry. -/
def canSpill (s : State) (v d : Nat) : Bool := !(domain s v d).stopped && decide (spillUse s v d < (domain s v d).qcap)
/-- Room in the island's unit, or in the domain's spill region. -/
def hasRoom (s : State) (n v d : Nat) : Bool := decide (unitUse s n < 8192) || canSpill s v d
/-- Children held by uncommitted tasks of a domain. -/
def heldChildren (s : State) (v d : Nat) : Nat := (tasksOf s v d).foldl (fun n e => n + e.children) 0

/-- The speculative tasks of a domain on an island, latest key first. -/
def latestFirst (s : State) (n v d : Nat) : List TaskEntry :=
  (byKey ((tasksOf s v d).filter fun e => e.island == n && e.st != .ready && e.st != .irrev && !isProtected s e)).reverse

/-- Abort the latest tasks until an entry is free (R210). -/
def reclaimRoom (n v d : Nat) : List TaskEntry → State → State
  | [], s => s
  | e :: es, s => if hasRoom s n v d then s else reclaimRoom n v d es (abortAll s [e.uid])

/-- A spill or refill access faults: dispatch stops for the domain, with a spill error record. -/
def spillError (s : State) (n v d : Nat) : State :=
  decisionRecord (onDomain s v d fun m => { m with stopped := true }) n { kind := 9 }

/-- The access of the steward to an entry of a spill region. -/
def spillAccess (s : State) (n v d : Nat) (kind : AccKind) (i : Nat) : Stw State :=
  let dm := domain s v d
  thenStw (stewardCheck s n dm.ptbase kind (dm.qbase + w64 (64 * i)) 64) fun r => .ok r.1

/-- The READY entries of an island's unit, highest key first. -/
def spillOrder (s : State) (n : Nat) : List TaskEntry :=
  (byKey (s.tasks.filter fun e => e.island == n && !e.spilled && e.st == .ready)).reverse

/-- Spill entries until so many are in use (R210). -/
def spillDown (n limit : Nat) : List TaskEntry → State → State
  | [], s => s
  | e :: es, s =>
    if unitUse s n ≤ limit then s
    else if !canSpill s e.part e.dom then spillDown n limit es s
    else match spillAccess s n e.part e.dom .store (spillUse s e.part e.dom) with
      | .ok s1 => spillDown n limit es (onTask s1 e.uid fun x => { x with spilled := true })
      | .fault b => spillDown n limit es (spillError (stewardBad s n b) n e.part e.dom)
      | .stall m => spillDown n limit es (stewardStall s n m)

/-- Put a new entry into an island's unit; a full unit has the steward spill one, which may stall or fault (R210). -/
def addEntry (s : State) (n : Nat) (e : TaskEntry) : State :=
  let s1 := { s with tasks := s.tasks ++ [e], nextUid := s.nextUid + 1 }
  spillDown n 8192 (spillOrder s1 n) s1

/-- The new entry of a TSPAWN. -/
def spawnEntry (s : State) (n v d : Nat) (key : Key) (parent : Option Nat) (fn : Word) (cnt : Nat) : TaskEntry :=
  { uid := s.nextUid, part := v, dom := d, island := n, spilled := false, key := key, fn := fn
    args := [10, 11, 12].mapIdx fun i r => if i < cnt then rx s r else 0
    st := .ready, wasIrrev := false, hart := none, parent := parent, children := 0, fault := none, flags := 0
    buf := [], rows := [], rowCore := 0, reads := [], writes := [], homeLines := [], pins := [] }

/-- A TSPAWN that found no room after all: its entry was not made, and what the steward's accesses left stands. -/
def roomLost (s s1 : State) (n : Nat) : State :=
  let s2 := onIsland s1 n fun i => { i with recheck := max i.recheck (s.time + 1) }
  { s2 with tasks := s2.tasks.filter fun e => e.uid != s.nextUid, nextUid := s.nextUid }

/-- A TSPAWN in task mode, after the checks of its operands. The 65th of a task is an irrevocable action; one that finds no
room waits, its task still speculative, until that is the earliest (R210; DEDUCED, log 109). -/
def spawnInTask (e : TaskEntry) (fn ts w : Word) (cnt : Nat) (s : State) : State :=
  let n := islandOf s.cur
  if ts.toNat < e.key.ts then raise 0x80 w s
  else if 65535 ≤ e.children then raise 0x85 w s
  else if 2 ^ 32 - 1 < (domain s e.part e.dom).nextId + heldChildren s e.part e.dom + 1 then raise 0x84 w s
  else
    let full := !hasRoom s n e.part e.dom
    match (if e.st != .irrev && e.children == 64 then irrevocable s else .go s) with
    | .stop s1 => s1
    | .go s1 =>
      if full && !isEarliest s1 e then waitOn .conflict s1 else
      let s2 := if full then reclaimRoom n e.part e.dom (latestFirst s1 n e.part e.dom) s1 else s1
      if !hasRoom s2 n e.part e.dom then raise 0x84 w s2
      else
        let new := spawnEntry s2 n e.part e.dom (.pending ts.toNat e.key e.children) (some e.uid) fn cnt
        let children (k : Nat) (s : State) : State := onTask s e.uid fun x => { x with children := k }
        let s3 := addEntry (children (e.children + 1) s2) n new
        if 8192 < unitUse s3 n then waitOn .unitRoom (children e.children (roomLost s2 s3 n))
        else retire s3

/-- A TSPAWN outside task mode, after the checks of its operands. -/
def spawnRoot (fn ts w : Word) (cnt : Nat) (s : State) : State :=
  let n := islandOf s.cur
  let d := (me s).dom.toNat
  match partOf s s.cur with
  | none => raise 0x82 w s
  | some v =>
    let dm := domain s v d
    let made := (tabGet (me s).seeded d).getD 0
    if ts.toNat < dm.topTs then raise 0x80 w s
    else if !dm.active || !dm.seeding then raise 0x82 w s
    else if 65535 ≤ made then raise 0x85 w s
    else if 2 ^ 32 - 1 < dm.nextId + heldChildren s v d + 1 then raise 0x84 w s
    else if !hasRoom s n v d then raise 0x84 w s
    else if memoryPending (me s) then waitOn .queues s
    else
      let new := spawnEntry s n v d (.ident ts.toNat dm.nextId) none fn cnt
      let s1 := addEntry s n new
      if 8192 < unitUse s1 n then waitOn .unitRoom (roomLost s s1 n)
      else
        let s2 := onDomain s1 v d fun m => { m with nextId := m.nextId + 1 }
        retire (onMe s2 fun h => { h with seeded := tabSet h.seeded d (made + 1) })

/-- TSPAWN (R206, R395). -/
def execTspawn (a b : Reg) (n : BitVec 2) (s : State) : Out :=
  let w := leadWord (.tspawn a b n)
  let fn := rx s a
  let ts := rx s b
  if fn.toNat % 4 ≠ 0 then outTrap 0x86 w s
  else if ts = BitVec.allOnes 64 then outTrap 0x80 w s
  else match taskAt s s.cur with
    | some e => .next (spawnInTask e fn ts w n.toNat s)
    | none => .next (spawnRoot fn ts w n.toNat s)

/-! ### TDONE, TIRREV, TABORT (R214, R221, R393) -/

/-- The acting task has finished: its flags are kept in its entry and its hart becomes idle. -/
def finishTask (e : TaskEntry) (s : State) : State :=
  let flags := (me s).flags
  let s1 := onTask s e.uid fun x => { x with st := .finished, flags := flags, hart := none }
  onMe (retire s1) idleHart

/-- TDONE waits until the hart's queues are empty. -/
def execTdone (s : State) : Out :=
  match taskAt s s.cur with
  | none => outTrap 0x81 (leadWord .tdone) s
  | some e => .next (if vectorEmpty (me s) && matrixEmpty (me s) then finishTask e s else waitOn .tdone s)

/-- TASK_FINISH: the queues of a hart in TDONE are empty (R214, R393). -/
def execTaskFinish (h : Nat) (s : State) : Out :=
  match (hart s h).wait, taskAt s h with
  | some .tdone, some e =>
    if vectorEmpty (hart s h) && matrixEmpty (hart s h) then .next (finishTask e { s with cur := h }) else .next s
  | _, _ => .next s

/-- TIRREV (R221). -/
def execTirrev (s : State) : Out :=
  match taskAt s s.cur with
  | none => outTrap 0x81 (leadWord .tirrev) s
  | some _ => .next (irrevocably s retire)

/-- TABORT (R214). That of an irrevocable task waits until its queued matrix instructions have completed, within the task
(R139, R222; DEDUCED, log 107). -/
def execTabort (s : State) : Out :=
  match taskAt s s.cur with
  | none => outTrap 0x81 (leadWord .tabort) s
  | some e => .next (if !matrixEmpty (me s) then waitOn .mqEmpty s else settleDomain (discardTask (retire s) e.uid) e.part e.dom)

/-! ### Dispatch and reclaim (R212, R213) -/

/-- The context of a dispatched task (R213). -/
def dispatchHart (e : TaskEntry) (h : Hart) : Hart :=
  match h.enter with
  | none => h
  | some c =>
    let x0 : Vector Word 32 := Vector.replicate 32 0
    let x1 := ((x0.set 2 c.x2).set 3 c.x3).set 10 (e.args.getD 0 0)
    { h with
      x := (x1.set 11 (e.args.getD 1 0)).set 12 (e.args.getD 2 0), f := Vector.replicate 32 0, pc := e.fn, mode := c.mode
      flags := 0, rm := c.rm, nbv := c.nbv, srseed := c.srseed, seedSeq := h.seedSeq + 1, vl := 0, vlSeq := h.vlSeq + 1, vstart := 0, lc := 0, loops := [], body := none
      badX := 0, badF := 0, task := some e.uid, wait := none }

/-- A task-mode hart that holds no task and can take one, its queues having drained; none is placed on a steward core (R21). -/
def isIdle (s : State) (v d h : Nat) : Bool :=
  let x := hart s h
  !isSteward h && x.tmode && x.task.isNone && drained x && x.enter.any (·.dom == d)
    && partOf s h == some v && x.started && !x.preempted && !x.preemptReq && !x.stopReq && !x.freeze.isSet

/-- The idle harts of a domain on an island, lowest first. -/
def idleOn (s : State) (n v d : Nat) : List Nat := (hartsOfIsland n).filter (isIdle s v d)

/-- The earliest entry for which a hart of the domain was reclaimed, while it is still READY (R212). -/
def heldFor (s : State) (v d : Nat) : Option TaskEntry :=
  ((domain s v d).holdFor.bind (taskOf s)).filter fun e => e.st == .ready

/-- The READY entries of a domain in an island's unit, lowest key first. -/
def readyIn (s : State) (n v d : Nat) : List TaskEntry :=
  byKey ((tasksOf s v d).filter fun e => e.island == n && !e.spilled && e.st == .ready)

/-- The entry that an island's unit dispatches next for a domain: its lowest-keyed READY one, and none but the entry a hart
was reclaimed for while that is READY. -/
def readyOn (s : State) (n v d : Nat) : Option TaskEntry :=
  (readyIn s n v d).find? fun e => (heldFor s v d).all (·.uid == e.uid)

/-- The domain an island serves next, in round-robin order after the one it served last. -/
def nextServed (s : State) (n v : Nat) : Option Nat :=
  let start := match (island s n).served with
    | some d => d + 1
    | none => 0
  ((List.range 16).map fun i => (start + i) % 16).find? fun d =>
    (domain s v d).active && !(domain s v d).stopped && (readyOn s n v d).isSome && !(idleOn s n v d).isEmpty

/-- TASK_DISPATCH: one dispatch per cycle and island (R212, R213). -/
def execTaskDispatch (n : Nat) (s : State) : Out :=
  if (island s n).dispatchedAt = some s.time ∨ (island s n).freezeBit then .next s
  else match (partOfIsland s n).bind fun v => (nextServed s n v).map fun d => (v, d) with
    | none => .next s
    | some (v, d) => match readyOn s n v d, idleOn s n v d with
      | some e, h :: _ =>
        let s1 := onHart s h (dispatchHart e)
        let s2 := onTask s1 e.uid fun x => { x with st := .running, hart := some h }
        let s3 := onDomain s2 v d fun m => { m with seeding := false }
        .next (onIsland s3 n fun i => { i with served := some d, dispatchedAt := some s.time })
      | _, _ => .next s

/-- HART_RECLAIM: the earliest unfinished task, the one whose key is the frontier (R208), is READY and no hart of the domain is idle on any island, so the highest-keyed
speculative task is aborted, and no unit dispatches an entry of the domain before the earliest (R212; DEDUCED, log 92). -/
def execHartReclaim (v d : Nat) (s : State) : Out :=
  let un := byKey ((tasksOf s v d).filter TaskEntry.unfinished)
  match un with
  | [] => .next s
  | e :: _ =>
    if e.st != .ready || !isEarliest s e || s.harts.any (fun p => isIdle s v d p.1) || (domain s v d).stopped then .next s
    else match (un.filter fun x => x.st != .ready && x.st != .irrev && x.hart.isSome).reverse with
      | x :: _ => .next (onDomain (abortTask s x.uid) v d fun m => { m with holdFor := some e.uid })
      | [] => .next s

/-! ### Spill and refill (R210, R205) -/

/-- TASK_SPILL (R210). -/
def execTaskSpill (n : Nat) (s : State) : Out :=
  if unitUse s n ≤ 7680 || !stewardRuns s n || decide (s.time < (island s n).recheck) then .next s
  else .next (spillDown n 7168 (spillOrder s n) s)

/-- TASK_REFILL: an island with an idle hart of the domain and no READY entry of it takes the lowest-keyed entry of
the spill region (R210). -/
def execTaskRefill (n d : Nat) (s : State) : Out :=
  match partOfIsland s n with
  | none => .next s
  | some v =>
    if (idleOn s n v d).isEmpty || !(readyIn s n v d).isEmpty || (domain s v d).stopped || decide (8192 ≤ unitUse s n)
      || !stewardRuns s n || decide (s.time < (island s n).recheck)
    then .next s
    else match byKey ((tasksOf s v d).filter (·.spilled)) with
      | [] => .next s
      | e :: _ => match spillAccess s n v d .load 0 with
        | .ok s1 => .next (onTask s1 e.uid fun x => { x with spilled := false, island := n })
        | .fault b => .next (spillError (stewardBad s n b) n v d)
        | .stall m => .next (stewardStall s n m)

/-! ### The frontier and commit (R219 to R221, R224) -/

/-- FRONTIER_EXCHANGE: every island of the partition sends its minimum (R219). -/
def execFrontierExchange (v : Nat) (s : State) : Out :=
  let p := part s v
  if s.time < p.nextExchange || !anyActive s v then .next s
  else
    let at_ := s.time + latencyOf s v
    let s1 := (List.range 16).foldl (fun s d =>
      if (domain s v d).active then onDomain s v d fun m => { m with sent := some (at_, leastKey s v d, s.nextUid) }
      else s) s
    .next (onPart s1 v fun p => { p with nextExchange := (s.time / 128 + 1) * 128 })

/-- A held task that is now the earliest becomes irrevocable; a fault it holds is delivered (R221, R224). -/
def releaseHeld (s : State) (e : TaskEntry) : State :=
  match e.hart with
  | none => s
  | some h => if (hart s h).preempted then s else makeIrrev s e

/-- The held entries of a domain that are the earliest. -/
def heldEarliest (s : State) (v d : Nat) : List TaskEntry :=
  (tasksOf s v d).filter fun e => e.st == .held && isEarliest s e

/-- Apply the frontier of one domain. -/
def applyFrontier (s : State) (v d : Nat) : State :=
  match (domain s v d).sent with
  | some (at_, k, bound) =>
    if s.time < at_ then s
    else
      let s1 := onDomain s v d fun m => { m with frontier := k, sent := none, applied := bound, commitDue := true }
      (heldEarliest s1 v d).foldl releaseHeld s1
  | none => s

/-- FRONTIER_APPLY: the values of one exchange are applied together (R219). -/
def execFrontierApply (v : Nat) (s : State) : Out :=
  .next ((List.range 16).foldl (fun s d => if (domain s v d).active then applyFrontier s v d else s) s)

/-- COMMIT_BATCH: the finished tasks below the frontier commit at one point, once no write of theirs must wait for
another domain (R220). -/
def execCommitBatch (v d : Nat) (s : State) : Out :=
  let batch := byKey (batchOf s v d)
  if !(domain s v d).commitDue || batchBlocked s v d batch then .next s
  else
    let s1 := batch.foldl (fun s e => commitTask s e.uid) s
    let s2 := onDomain s1 v d fun m => { m with commitDue := false }
    .next (settleDomain (if batch.isEmpty then s2 else wakeConflicts (flushPending s2)) v d)

end Sys2Proof.Machine
end

