-- ==== Sys2Proof/Machine/Boundary.lean ====
section
/-!
DEFINITION. What a hart takes at its instruction boundary before its next instruction: pre-emptions, interrupts and
containment codes, in the order of R251, and what it does where no instruction stands (spec/12_traps.md R248 to R257;
spec/13_edges.md R267, R277; spec/01_machine.md R31; spec/14 R286, R290; spec/08 R174).
-/
namespace Sys2Proof.Machine

/-! ### A hart whose task stands (R214, R223) -/

/-- The hart's task, if it holds one, neither waits nor is held (R214), or a handler runs beside it (R223). -/
def taskGoes (s : State) (h : Nat) : Bool :=
  match taskAt s h with
  | some e => e.st == .running || e.st == .irrev || (hart s h).aside.isSome
  | none => true

/-- A hart takes a trap of class 0xC0 to 0xFF at its boundary: at once, whatever its task waits for, and with the entry's
state unchanged (R223). -/
def trapAside (s : State) (h : Nat) (f : Hart → Hart) : State :=
  onHart s h fun x => if taskGoes s h then f x else { f x with aside := some (x.pc, x.mode) }

/-! ### Interrupts (R248, R251, R277) -/

/-- The hart has written GEXIT and stands at its IDLE, which it executes whatever is requested of it (R235). -/
def isLeaving (s : State) (h : Nat) : Bool :=
  (hart s h).exitAsked && match fetchWord s h (hart s h).pc with
    | .ok (_, w) => w == (encode .idle).headD 0
    | .error _ => false

/-- INTERRUPT_TAKE: the hart takes its lowest interrupt (R248, R251). A waiting instruction runs again afterwards; an
IDLE retires first (R31, R356). -/
def execInterruptTake (h : Nat) (s : State) : Out :=
  match (if interruptDue s h then lowestIrq s h else none) with
  | none => .next s
  | some k =>
    .next (trapAside s h fun x =>
      let y := if x.wait == some .idle then retireHart 4 x else x
      trapHart (BitVec.ofNat 8 (0xE0 + k)) 0 0 y.pc y)

/-- A hart that waits, whose task waits or is held, or that is idle in ENTER, takes the trap of a release at its boundary
as it would an interrupt (R248, R279). A hart that runs takes it before its next instruction. -/
def takeBoundaryTrap (h : Nat) (s : State) : Out :=
  let x := hart s h
  match x.boundaryTrap with
  | some code =>
    if hartRuns s h && atBoundary x && !preemptDue s h
        && (x.wait.isSome || !taskGoes s h || (x.enter.isSome && x.task.isNone)) then
      .next (trapAside s h fun x => trapHart code 0 0 x.pc { x with boundaryTrap := none })
    else .next s
  | none => .next s

/-- TIMECMP_MATCH: TIME has reached TIMECMP (R277). -/
def execTimecmpMatch (h : Nat) (s : State) : Out :=
  .next (if (hart s h).timecmp.toNat ≤ timeOf s (islandOf h) % 2 ^ 64 then pendIrq s h 2 else s)

/-- EXTERNAL_INTERRUPT: a line of a function pends 0xE8 + n on the hart its IRQROUTE names (R267). -/
def execExternalInterrupt (f : Nat) (line : BitVec 3) (s : State) : Out :=
  let r := (part s f).irqRoute[line.toNat]
  .next (if bit r 63 then pendIrq s (bits r 12 0) (8 + line.toNat) else s)

/-- PERFORMANCE_COUNTER_OVERFLOW: 0xE5 pends (R253). -/
def execPerformanceCounterOverflow (h : Nat) (s : State) : Out := .next (pendIrq s h 5)

/-! ### Pre-emption (R31, R254) -/

/-- The hart waits for the register of a KPOPC or KFIRST (R115, R362). -/
def redoWaiting (h : Hart) : Bool :=
  h.vq.any redoes || h.flight.any (fun f => redoes f.convoy) || h.sdest.any (·.redo)

/-- The boundary before a KPOPC or KFIRST that has not written its register, which runs again (R362). -/
def rollBack (h : Hart) : Hart :=
  { h with
    vq := h.vq.filter fun c => !redoes c
    flight := if h.flight.any (fun f => redoes f.convoy) then none else h.flight
    sdest := if h.sdest.any (·.redo) then none else h.sdest
    pc := h.pc - 4, instret := h.instret - 1, queued := h.queued - 1, wait := none }

/-- The hart stops at its boundary; a wait is restarted on resumption (R31), and a hart idle in ENTER stands before
its ENTER. -/
def stopForPreemption (x : Hart) : Hart :=
  let h := leaveEnter x
  { h with preempted := true, wait := none, loops := [], body := none }

/-- PREEMPTION_TAKE: the context port stops scalar issue, waits until the queues have drained, and stops the hart at
its boundary (R254). A hart that is leaving its gang exits instead (R235). -/
def execPreemptionTake (h : Nat) (s : State) : Out :=
  let x := hart s h
  if hartRuns s h && preemptDue s h && !isLeaving s h then
    if redoWaiting x then .next (onHart s h rollBack)
    else if atBoundary x && drained x then .next (onHart s h stopForPreemption)
    else .next s
  else .next s

/-! ### Containment codes (R257) -/

/-- The hart is handling a containment code, be it that its handler has trapped (R257, R398). -/
def handlesCode (h : Hart) : Bool := h.mon.traps.any fun c => decide (0xD0 ≤ c) && decide (c ≤ 0xDF)

/-- MONITOR_CODE_TAKE: the monitor hart takes the oldest code at its boundary, whatever its mode and IE, unless it is
handling one. A code that finds it in the handler of another monitor trap is taken too, and writes monitor mode's trap
registers anew (DEDUCED, log 90). -/
def execMonitorCodeTake (s : State) : Out :=
  let m := monitorHart s
  let x := hart s m
  match s.codes with
  | [] => .next s
  | c :: rest =>
    if x.started && !hartGated s m && atBoundary x && !handlesCode x then
      .next { onHart s m (fun x => trapHart c 0 0 x.pc x) with codes := rest }
    else .next s

/-! ### No instruction (R2, R253, R286) -/

/-- NOT_AN_INSTRUCTION: the word at the PC is no instruction, and its cause is raised. A vector major stands in a
convoy all the same, whose structure is checked first (R112). -/
def execNotAnInstruction (w : Word32) (cause : Byte) (s : State) : Out :=
  if isVectorWord w.toNat then
    match fetchInstr s s.cur (me s).pc with
    | .error (s1, b) => .next (badAccess .fetch b s1)
    | .ok (s1, ws) =>
      let m := memberOfWords (me s) ws
      if ws.head? == some w.toNat ∧ m.act.isNone then .next (enterConvoy m [] (4 * ws.length) s1)
      else outTrap cause (w.setWidth 64) s
  else outTrap cause (w.setWidth 64) s

/-- INSTRUCTION_FETCH_FAULT: the fetch failed with a cause and its address (R174, R249, R259). -/
def execInstructionFetchFault (cause : Byte) (addr : Word) (s : State) : Out :=
  .next (badAccess .fetch (.trap cause addr) s)

end Sys2Proof.Machine
end

