-- ==== Sys2Proof/Machine/Contain.lean ====
section
/-!
DEFINITION. Errors of the storage and the paths, links and stacks that fail, and function-level reset
(spec/12_traps.md R255 to R264; spec/13_edges.md R269, R270, R272).
-/
namespace Sys2Proof.Machine

/-! ### Errors (R255, R257, R258) -/

/-- A value the spec does not state (log 37). -/
def openNat (s : State) : State × Nat := ({ s with free := s.free + 1 }, Config.openValue s.free)

/-- The first island of a partition, on whose TIME an event of the whole partition is stamped. -/
def firstIsland (s : State) (v : Nat) : Nat := (islandsOf s v).headD 0

/-- A record in the ring of a function, and its code. -/
def functionEvent (s : State) (v : Nat) (r : ErrRec) : State :=
  raiseCode (errorRecord s (some v) (firstIsland s v) r) r.code

/-- A record in the ring of each of several functions, and one code. -/
def moduleEvent (s : State) (vs : List Nat) (r : Nat → ErrRec) (code : Byte) : State :=
  raiseCode (vs.foldl (fun s v => errorRecord s (some v) (firstIsland s v) (r v)) s) code

/-- The side of a hart that was writing: the vector side or the matrix engine while a store of its is being performed, or
else the scalar side (DESIGN CHOICE, log 94). -/
def writingSide (x : Hart) : Nat :=
  if x.flight.any fun f => f.convoy.members.any (·.act.isStore) then 2
  else if x.mq.any fun e => e.ends.isSome && e.act.isStore then 3
  else 1

/-- MESH_WRITE_LOST: the writer is frozen, a hart or the stream engine of the core h (R255, R258). The monitor hart is
never frozen (R257). -/
def execMeshWriteLost (h : Nat) (engine : Bool) (s : State) : Out :=
  if engine then
    let s1 := onEngine s h fun e => { e with freeze := { e.freeze with lost := true } }
    let e := (core s h).engine
    let run := e.running.map (·.cmd.descAddr)
    .next (raiseCode (errorRecord s1 (partOfIsland s (islandOfCore h)) (islandOfCore h)
      { code := 0xD6, master := 4, place := coreNumber h, progress := e.running.elim 0 (·.words), aux := (run.getD 0).toNat }) 0xD6)
  else
    let s1 := if h = monitorHart s then s
      else onHart s h fun x => { x with freeze := { x.freeze with lost := true } }
    .next (raiseCode (errorRecord s1 (partOf s h) (islandOf h)
      { code := 0xD6, master := writingSide (hart s h), place := hartNumber h, aux := (hart s h).pc.toNat }) 0xD6)

/-- DIRECTORY_ERROR: the line is recorded as lost at its home (R258, R259). -/
def execDirectoryError (pa : Nat) (s : State) : Out :=
  let l := pa / 64 * 64
  if tracked l then
    let n := homeOf l
    .next (raiseCode (errorRecord { s with lostLines := addNew s.lostLines [l] } (partOfIsland s n) n
      { code := 0xD7, master := 6, place := n, addr := l }) 0xD7)
  else .next s

/-- TASK_UNIT_ERROR: the domain is stopped (R205, R258). -/
def execTaskUnitError (f dom : Nat) (s : State) : Out :=
  let d := domain s f dom
  if d.active then
    .next (functionEvent (onDomain s f dom fun d => { d with stopped := true }) f
      { code := 0xD8, master := 8, place := dom, aux := d.commits.toNat })
  else .next s

/-- CORRECTED_ERROR: counted; at CELIMIT the partition's monitor is told (R258, R260). -/
def execCorrectedError (f : Nat) (s : State) : Out :=
  let s1 := onPart s f fun p => { p with ceCount := p.ceCount + 1 }
  let p := part s1 f
  .next (if p.ceLimit ≠ 0 ∧ p.ceCount = p.ceLimit then functionEvent s1 f { code := 0xD9, master := 9, place := f } else s1)

/-! ### Links and stacks (R258, R269, R270, R272) -/

/-- The functions granted a link (R267). -/
def linkUsers (s : State) (l : Link) : List Nat :=
  (List.range 4).filter fun v => (part s v).linkGrant.toNat.testBit (match l with | .cxl => 0 | .peer m => 8 + m)

/-- LINK_DOWN: replay is exhausted (R258). The number of the CXL link in a record is a value the spec does not state
(log 37). -/
def execLinkDown (l : Link) (s : State) : Out :=
  let r := match l with
    | .cxl => ({ (openNat s).1 with cxlUp := false }, (openNat s).2)
    | .peer m => ({ s with peers := tabSet s.peers m false }, m)
  .next (moduleEvent r.1 (linkUsers s l) (fun _ => { code := 0xD5, master := 7, place := r.2 }) 0xD5)

/-- LINK_TRAINED: the link is up. A first Asash port that trains on a module that has led alone since power-on starts
its election (R276). -/
def execLinkTrained (l : Link) (s : State) : Out :=
  match l with
  | .cxl => .next { s with cxlUp := true }
  | .peer m =>
    let s1 := { s with peers := tabSet s.peers m true }
    .next (if s.election = .leader ∧ s.heard = [] ∧ s.peers = [] then
      { s1 with election := .electing, electionStart := s.time } else s1)

/-- HBM_STACK_FAILURE: every granule of the stack is unbacked from now on (R272). The records stand in the rings of
all functions, since every grant has granules of every stack (R24); their WHERE is not stated (log 37). -/
def execHbmStackFailure (stack : BitVec 4) (s : State) : Out :=
  let r := openNat { s with failedStacks := s.failedStacks ||| 1#16 <<< stack.toNat }
  .next (moduleEvent r.1 [0, 1, 2, 3] (fun _ => { code := 0xDC, master := 6, place := r.2 }) 0xDC)

/-- The clock stops, and with it everything (R257, R272). -/
def stopClock (s : State) (code : Byte) : State :=
  { moduleEvent s [0, 1, 2, 3] (fun v => { code := code, master := 9, place := v }) code with clockStopped := true }

/-- THERMAL_TRIP (R272). -/
def execThermalTrip (s : State) : Out := .next (stopClock s 0xDD)
/-- POWER_RAIL_FAULT (R253, R257). -/
def execPowerRailFault (s : State) : Out := .next (stopClock s 0xDE)

/-! ### Function-level reset after its request (R263) -/

/-- A debug freeze holds one of the partition's islands: the reset waits (R263, R279). -/
def resetWaits (s : State) (v : Nat) : Bool := (islandsOf s v).any fun n => (island s n).freezeBit

/-- Every request of the partition that a target has accepted is complete: the queued work of its harts, the multicasts
of its cores, and its writes that wait for protected tasks. -/
def requestsDone (s : State) (v : Nat) : Bool :=
  (partHarts s v).all (fun h => drained (hart s h) || (hart s h).freeze.halted) &&
  ((islandsOf s v).flatMap coresOfIsland).all (fun c => (core s c).deliveries.isEmpty) &&
  s.pendingWrites.all fun p => p.agent.part s != some v

/-- FLR_DRAIN_DONE (R263 step 2). -/
def execFlrDrainDone (f : Nat) (s : State) : Out :=
  .next (if (part s f).flr = .drain ∧ !resetWaits s f ∧ requestsDone s f then
    onPart s f fun p => { p with flr := .scrub } else s)

/-- FLR_DRAIN_TIMEOUT: 65,536 unfrozen cycles have passed (R263 step 2). -/
def execFlrDrainTimeout (f : Nat) (s : State) : Out :=
  .next (if (part s f).flr = .drain ∧ 65536 ≤ (part s f).flrCycles then
    functionEvent (onPart s f fun p => { p with flr := .exceeded }) f { code := 0xDB, master := 9, place := f } else s)

/-- A hart scrubbed (R63, R263 step 3): its registers stand at their reset values, x and f among them, and its queues and
inboxes are empty. It keeps what the list of R263 does not name: its interrupt doublewords, and monitor mode's trap
registers. -/
def scrubHart (h : Hart) : Hart :=
  { keepSlot h {} with mon := h.mon, mode := h.mode, pc := h.pc, freeze := h.freeze }

/-- A core scrubbed (R263 step 3); its trace registers and what the steward has done to its slots stand elsewhere. -/
def scrubCore (now : Nat) (c : Core) : Core :=
  { ({} : Core) with
    cycleBase := now, disabled := c.disabled, clockLowered := c.clockLowered, trace := c.trace
    engine := { freeze := c.engine.freeze } }

/-- The scratchpads and B-stores of cores read zero. -/
def clearWindows (s : State) (cs : List Nat) : State :=
  let inside (a : Nat) : Bool := cs.any fun c =>
    (decide (spadBase c ≤ a) && decide (a < spadBase c + 0x100000))
      || (decide (bstoreBase c ≤ a) && decide (a < bstoreBase c + 0x400000))
  { s with mem := s.mem.filter fun x => !inside x.1, poison := s.poison.filter fun x => !inside x.1 }

/-- The record of an active domain at a reset (R262). -/
def domainRecord (s : State) (v d : Nat) : State :=
  let m := domain s v d
  errorRecord s (some v) (firstIsland s v)
    { code := 0xDA, master := 8, place := d, progress := m.aborts.toNat % 2 ^ 32, aux := m.commits.toNat }

/-- The task units of a partition are emptied: its domains' ENTERs return (R204), each active domain has its record
and is freed. -/
def emptyDomains (s : State) (v : Nat) : State :=
  let s1 := { s with tasks := s.tasks.filter fun e => e.part != v }
  let ds := (List.range 16).filter fun d => (domain s v d).active
  let s2 := ds.foldl (fun s d => domainRecord (settleDomain s v d) v d) s1
  flushPending (wakeConflicts (onPart s2 v fun p => { p with domains := [] }))

/-- FLR_SCRUB_DONE (R263 step 3). -/
def execFlrScrubDone (f : Nat) (s : State) : Out :=
  if (part s f).flr = .scrub ∧ !resetWaits s f then
    let cs := (islandsOf s f).flatMap coresOfIsland
    let s1 := onHarts (emptyDomains s f) (partHarts s f) scrubHart
    let s2 := onCores s1 cs (scrubCore s.time)
    let s3 := (islandsOf s f).foldl (fun s n => onIsland s n fun i => { i with served := none, dispatchedAt := none }) s2
    .next (onPart (clearWindows (cs.foldl flushCore s3) cs) f fun p => { p with flr := .queues })
  else .next s

/-- An island's steward block at its reset values; the debug block and the placement code in force stay. -/
def resetBlock (now : Nat) (i : Island) : Island :=
  { ({} : Island) with
    timeAhead := i.timeAhead, nextRound := (now / 16384 + 1) * 16384, codeSeq := i.codeSeq, completions := i.completions
    freezeBit := i.freezeBit, trapRel := i.trapRel, triggers := i.triggers }

/-- A steward of the partition ends its gangs, unmaps its slots and resets its block (R263 step 4). -/
def resetQueues (s : State) (n : Nat) : State :=
  let s1 := ((island s n).gangs.map (·.1)).foldl (fun s e => endGang s n e 2) s
  let mapped := ((island s n).slots.filter (·.2.mapped)).map (·.1)
  let s2 := mapped.foldl (fun s q => decisionRecord s n { kind := 6, slot := q }) s1
  let s3 := onIsland s2 n (resetBlock (timeOf s n))
  onCores s3 (coresOfIsland n) fun c => { c with disabled := [], clockLowered := false }

/-- A steward hart starts the placement code again (R263 step 4). -/
def restartSteward (s : State) (n h : Nat) : State :=
  if h = monitorHart s then s
  else
    let k := (island s n).codeSeq
    onHart s h fun x => { x with started := true, stopped := false, pc := Config.stewardEntry k
                                 mode := modeOfCode (Config.stewardMode k) }

/-- A hart or engine is released when the reset is done. -/
def unfreezeHart (h : Hart) : Hart := { h with freeze := {} }

/-- FLR_QUEUES_DONE (R263 steps 4 and 5). -/
def execFlrQueuesDone (f : Nat) (s : State) : Out :=
  if (part s f).flr = .queues ∧ !resetWaits s f then
    let is := islandsOf s f
    let s1 := is.foldl resetQueues s
    let s2 := onHarts s1 (partHarts s f) unfreezeHart
    let s3 := onCores s2 (is.flatMap coresOfIsland) fun c => { c with engine := { c.engine with freeze := {} } }
    let s4 := is.foldl (fun s n => (hartsOn (1280 + n)).foldl (fun s h => restartSteward s n h) s) s3
    .next (functionEvent (onPart s4 f fun p => { p with flr := .done, trafficFrozen := false }) f
      { code := 0xDA, master := 9, place := f })
  else .next s

end Sys2Proof.Machine
end

