-- ==== Sys2Proof/Machine/Outside.lean ====
section
/-!
DEFINITION. Power-on, images, requests from the host and from peer modules, the network engine and the election
(spec/02_state.md R36; spec/12_traps.md R255; spec/13_edges.md R268 to R276; spec/09_ordering.md R187).
-/
namespace Sys2Proof.Machine

/-! ### Power-on and images (R36, R273 to R275) -/

/-- The security version of an image (R272). -/
def Firmware.security : Firmware → Nat
  | .factory => (Config.fwVer 0).toNat % 2 ^ 32
  | .image _ security => security.toNat
  | .none => 0

/-- The fuse counter (R273): at least the security version of the image the module is made with, which advanced it when
the boot ROM first verified it. -/
def fuseCounter (s : State) : Nat := max s.securityCounter.toNat Firmware.factory.security

/-- The image in force once the boot ROM has verified the one in flash: none where its security version is below the
fuse counter (R273). -/
def bootedImage (s : State) : Firmware := if fuseCounter s ≤ s.flash.security then s.flash else .none

/-- POWER_ON_RESET (R36): the machine as after reset; the fuses, the image in flash and the failed stacks keep what
they hold, and what waits outside still waits. The boot ROM verifies the image in flash; the harts start as R36 says
where it fails too, and the host may stream another (R275; log 71). -/
def execPowerOnReset (s : State) : Out :=
  .next { State.reset with
    keyState := s.keyState, keyHash := s.keyHash, securityCounter := s.securityCounter, firmware := bootedImage s
    flash := s.flash, failedStacks := s.failedStacks, inputs := s.inputs, free := s.free }

/-- A module image passes its verification (R273): Brynkan's signature, and a security version not below the fuses'. -/
def imageOk (s : State) (signer : Signer) (security : Word32) : Bool :=
  signer == .brynkan && decide (fuseCounter s ≤ security.toNat)

/-- Placement code passes it under Brynkan's key, or under the owner key while it is enrolled (R232, R273, R274). -/
def placementOk (s : State) (signer : Signer) (security : Word32) : Bool :=
  (signer == .brynkan || (s.keyState == 1 && signer == .owner s.keyHash)) && decide (fuseCounter s ≤ security.toNat)

/-- A verified module image is in force, and its security version advances the fuses (R272, R273). -/
def acceptImage (s : State) (version security : Word32) : State :=
  { s with firmware := .image version security, securityCounter := security }

/-- A module image that was streamed to the boot ROM: in force if it verifies, and nothing otherwise. The image in
flash stays (R275, R276; log 69). -/
def streamedImage (s : State) (signer : Signer) (version security : Word32) : State :=
  if imageOk s signer security then { acceptImage s version security with imageWhole := true } else s

/-- IMAGE_VERIFY_DONE: the operation of FWCTL ends accepted or rejected (R273, R274); where none is under way, a
follower has verified the image its leader streamed (R276 step 4). -/
def execImageVerifyDone (signer : Signer) (version security : Word32) (s : State) : Out :=
  if s.fwState = 1 then
    let s1 := { s with fwState := 2, fwOp := 0 }
    if s.fwOp = 1 ∧ imageOk s signer security then
      .next { acceptImage s1 version security with flash := .image version security }
    else if s.fwOp ≠ 1 ∧ placementOk s signer security then
      .next { s1 with placements := s.placements + 1, securityCounter := security }
    else .next { s with fwState := 3, fwOp := 0 }
  else if s.election = .follower ∧ s.gotBlock then .next (streamedImage s signer version security)
  else .next s

/-- RECOVERY_IMAGE: an image streamed in by the host, accepted in every state (R275). -/
def execRecoveryImage (signer : Signer) (version security : Word32) (s : State) : Out :=
  .next (streamedImage s signer version security)

/-! ### Requests from outside (R255, R265, R268 to R270) -/

/-- The bytes a request names. -/
def spanOf : ExtReq → Nat × Nat
  | .read pa n => (pa, n)
  | .write pa bs => (pa, bs.length)

/-- Every byte from pa on stands in backed HBM. -/
def allBacked (s : State) (pa n : Nat) : Bool :=
  (List.range n).all fun i => regionOf (pa + i) == .hbm && hbmBacked s (pa + i)

/-- A request outside the function's grant freezes its traffic (R255). -/
def freezeTraffic (s : State) (f pa : Nat) : State :=
  functionEvent (onPart s f fun p => { p with trafficFrozen := true }) f
    { code := 0xD4, master := 5, place := f, addr := pa }

/-- The record of uncorrectable data that a request or the network engine would have read: it is not passed on (R259,
R261). -/
def readPoison (s : State) (f isl master place : Nat) (p : Nat × Nat) : State :=
  errorRecord s (some f) isl { code := 0xC0 + BitVec.ofNat 8 p.2, master := master, place := place, addr := p.1 }

/-- A request to a register through BAR0 (R265, R268): one that the function may not make is not made, and one to an
address of the region that no block holds freezes the function's traffic (R24, R168). -/
def hostRegister (s : State) (f : Nat) (r : ExtReq) : State :=
  match r, blockOf (spanOf r).1 with
  | _, none => freezeTraffic s f (spanOf r).1
  | .write pa bs, some _ => if bs.length = 8 then registerStore s (.vf f) pa (w64 (natOfBytes bs)) else s
  | .read pa n, some (b, _) => if n = 8 ∧ pa % 8 = 0 ∧ vfMayReach s f false b then (mmioRead s pa).1 else s

/-- HOST_REQUEST: a request of virtual function f (R268). A read that passes changes nothing here, unless it meets
uncorrectable data. -/
def execHostRequest (f : Nat) (r : ExtReq) (s : State) : Out :=
  let (pa, n) := spanOf r
  if (part s f).trafficFrozen ∨ n = 0 ∨ 4 ≤ f then .next s
  else if regionOf pa == .mmio then .next (hostRegister s f r)
  else if allBacked s pa n ∧ (List.range n).all (fun i => granted s f (pa + i)) then
    match r with
    | .write pa bs => .next (agentStore s (.host f) pa bs)
    | .read _ _ => .next ((poisonAt s pa n).elim (touch (shareLine · .gateway ·) s [(pa, n)])
        (readPoison s f (firstIsland s f) 5 f))
  else .next (freezeTraffic s f pa)

/-- PEER_MODULE_REQUEST: an access of member module m to this module's HBM (R187, R270). -/
def execPeerModuleRequest (m : Nat) (r : ExtReq) (s : State) : Out :=
  let (pa, n) := spanOf r
  if (peerCheck s m).isNone ∧ allBacked s pa n then
    match r with
    | .write pa bs => .next (agentStore s (.peer m) pa bs)
    | .read _ _ => .next (match poisonAt s pa n, partOfIsland s (homeOf pa) with
      | some p, some v => readPoison s v (homeOf pa) 7 m p
      | some _, none => s
      | none, _ => touch (shareLine · (.peer m) ·) s [(pa, n)])
  else .next s

/-! ### The network engine (R271) -/

/-- A command entry. -/
structure NetEntry where
  op : Nat
  port : Nat
  klen : Nat
  vaddr : Nat
  vlen : Nat
  mbxa : Nat
  /-- Every byte shown as zero is zero. -/
  zeros : Bool
  deriving DecidableEq, Repr

/-- The entry of 64 bytes. -/
def netEntryOf (bs : List Byte) : NetEntry :=
  { op := numAt bs 0 1, port := numAt bs 1 1, klen := numAt bs 2 1, vaddr := numAt bs 24 8, vlen := numAt bs 32 4
    mbxa := numAt bs 40 8, zeros := numAt bs 3 1 == 0 && numAt bs 36 4 == 0 && numAt bs 48 16 == 0 }

/-- Bytes that the function's grant covers and that the module reaches. -/
def netReach (s : State) (f pa n : Nat) : Bool :=
  (List.range n).all fun i => granted s f (pa + i) && answers s (pa + i)

/-- The address of the entry the engine runs next. -/
def netEntryAt (p : Part) : Nat := p.nqBase.toNat + 64 * (p.nqRd.toNat % 2 ^ p.nqLog2.toNat)

/-- The entry is malformed, or names an address outside the grant. -/
def netMalformed (s : State) (f : Nat) (e : NetEntry) : Bool :=
  !netReach s f (netEntryAt (part s f)) 64 || !(decide (1 ≤ e.op) && decide (e.op ≤ 4)) || decide (1 < e.port)
    || !(decide (1 ≤ e.klen) && decide (e.klen ≤ 16)) || decide (2097152 < e.vlen) || !e.zeros
    || e.mbxa % 8 != 0 || !netReach s f e.mbxa 8 || (decide (e.op ≤ 2) && !netReach s f e.vaddr e.vlen)

/-- The STATUS of an answer. -/
def netStatus : NetAnswer → Nat
  | .done => 1 | .keyAbsent => 2 | .transportError => 3

/-- A line of the bytes is held at its home until a task commits (R222). -/
def netHeld (s : State) (pa n : Nat) : Bool :=
  s.tasks.any fun e => e.homeLines.any fun l => decide (l < pa + n) && decide (pa < l + 64)

/-- The uncorrectable data an entry has the engine read: in the entry itself, or in the value it stores. -/
def netPoison (s : State) (at_ : Nat) (e : NetEntry) : Option (Nat × Nat) :=
  (poisonAt s at_ 64).or (if e.op = 1 ∧ 0 < e.vlen then poisonAt s e.vaddr e.vlen else none)

/-- Run the next entry of a function's ring, with the network's answer to it. `go` gives the state and the bytes
moved of an entry of this operation. An entry whose bytes or value hold uncorrectable data moves nothing, and ends with
the STATUS of a transport error (R259; DESIGN CHOICE, log 95). -/
def runEntry (f op : Nat) (ans : NetAnswer) (go : NetEntry → State → State × Nat) (s : State) : State :=
  let p := part s f
  if p.nqRd = p.nqWr ∨ p.nqDone.isSome ∨ p.trafficFrozen then s
  else
    let at_ := netEntryAt p
    let e := netEntryOf (memReadBytes s.mem at_ 64)
    let ended (status moved : Nat) (s : State) : State := onPart s f fun p => { p with nqDone := some (status, moved) }
    if netHeld s at_ 64 then s
    else if (poisonAt s at_ 64).isNone && netMalformed s f e then ended 4 0 s
    else if e.op = 1 && netHeld s e.vaddr e.vlen then s
    else match netPoison s at_ e with
      | some p => ended 3 0 (readPoison s f (firstIsland s f) 5 f p)
      | none =>
        if e.op ≠ op then s
        else
          let r := go e s
          ended (netStatus ans) r.2 r.1

/-- NETWORK_STORE: the value's bytes have moved; how many had when the transport failed is not stated (log 37). -/
def execNetworkStore (f : Nat) (ans : NetAnswer) (s : State) : Out :=
  .next (runEntry f 1 ans (fun e s => match ans with
    | .done => (s, e.vlen)
    | .keyAbsent => (s, 0)
    | .transportError => ((openNat s).1, (openNat s).2 % (e.vlen + 1))) s)

/-- NETWORK_RETRIEVE: up to VLEN bytes of the value reach the buffer, and the full length is reported. -/
def execNetworkRetrieve (f : Nat) (ans : NetAnswer) (value : List Byte) (s : State) : Out :=
  .next (runEntry f 2 ans (fun e s => match ans with
    | .done => (agentStore s (.network f) e.vaddr (value.take e.vlen), value.length)
    | .keyAbsent => (s, 0)
    | .transportError => (agentStore s (.network f) e.vaddr (value.take e.vlen), (value.take e.vlen).length)) s)

/-- NETWORK_DELETE. -/
def execNetworkDelete (f : Nat) (ans : NetAnswer) (s : State) : Out := .next (runEntry f 3 ans (fun _ s => (s, 0)) s)
/-- NETWORK_EXIST. -/
def execNetworkExist (f : Nat) (ans : NetAnswer) (s : State) : Out := .next (runEntry f 4 ans (fun _ s => (s, 0)) s)

/-- NETWORK_COMPLETION: the completion word is written, where it lies in the grant, and NQRD counts the entry. An entry
whose bytes hold uncorrectable data names no word (R259; log 95). -/
def execNetworkCompletion (f : Nat) (s : State) : Out :=
  let p := part s f
  match p.nqDone with
  | none => .next s
  | some (status, moved) =>
    let e := netEntryOf (memReadBytes s.mem (netEntryAt p) 64)
    let s1 := if netReach s f (netEntryAt p) 64 ∧ (poisonAt s (netEntryAt p) 64).isNone ∧ e.mbxa % 8 = 0 ∧ netReach s f e.mbxa 8 then
        agentStore s (.network f) e.mbxa (dwordBytes (status * 2 ^ 56 + moved % 2 ^ 32))
      else s
    .next (onPart s1 f fun p => { p with nqDone := none, nqRd := p.nqRd + 1 })

/-! ### The election (R276) -/

/-- Cycles of a millisecond (R6). -/
def perMs : Nat := 1600000

/-- HELLO_SEND: once a millisecond on every trained port, with the module's serial, its term and whether it leads
(step 1). -/
def execHelloSend (s : State) : Out :=
  .next (if s.peers.any (·.2) ∧ s.hellosSent * perMs ≤ s.time then
    { s with hellosSent := s.time / perMs + 1, helloOut := some (Config.serial, s.term, s.election == .leader) } else s)

/-- A module heard with a better claim to lead: a higher term, or the same with a lower serial. -/
def outranks (s : State) (x : Word × Nat × Bool) : Bool :=
  decide (s.term < x.2.1) || (x.2.1 == s.term && decide (x.1.toNat < Config.serial.toNat))

/-- Of two modules heard, the better to lead. -/
def betterLeader (a b : Word × Nat × Bool) : Word × Nat × Bool :=
  if a.2.2 != b.2.2 then (if a.2.2 then a else b)
  else if a.2.1 != b.2.1 then (if b.2.1 < a.2.1 then a else b)
  else if a.1.toNat ≤ b.1.toNat then a else b

/-- The leader a follower follows: of those that claim leadership, or else of all heard, the best. -/
def leaderOf (s : State) : Option (Word × Nat × Bool) :=
  match s.heard with
  | [] => none
  | x :: xs => some (xs.foldl betterLeader x)

/-- HELLO_RECEIVE: the sender is known with its term; of two that claim leadership, the worse yields (steps 2, 3). A
domain has eight modules at most (R270). Only the leader's HELLO puts off a re-election (step 5), and a leader streams
its image to each follower it hears (step 4). -/
def execHelloReceive (serial : Word) (term : Nat) (claims : Bool) (s : State) : Out :=
  let known := s.heard.any (·.1 == serial)
  if serial = Config.serial ∨ (!known && decide (7 ≤ s.heard.length)) then .next s
  else
    let x := (serial, term, claims)
    let s1 := { s with heard := x :: s.heard.filter (·.1 != serial) }
    let s2 := if (leaderOf s1).any (·.1 == serial) then { s1 with lastHello := s.time } else s1
    .next (if s.election = .leader ∧ claims ∧ outranks s x then { s2 with election := .follower, streamTo := [] }
      else if s.election = .leader then { s2 with streamTo := addNew s2.streamTo [serial] }
      else s2)

/-- ELECTION_TIMEOUT: after 20 ms a module leads unless another outranks it (step 2); it streams its image to the modules
it has heard (step 4). -/
def execElectionTimeout (s : State) : Out :=
  .next (if s.election = .electing ∧ s.electionStart + 20 * perMs ≤ s.time then
    (if s.heard.any (outranks s) then { s with election := .follower, lastHello := s.time }
      else { s with election := .leader, streamTo := s.heard.map (·.1) })
  else s)

/-- LEADER_SILENCE_TIMEOUT: a new election, three times at most (steps 5, 6). -/
def execLeaderSilenceTimeout (s : State) : Out :=
  .next (if s.election = .follower ∧ !s.gotBlock ∧ s.lastHello + 20 * perMs ≤ s.time then
    (if 3 ≤ s.reElections then { s with election := .waitsForHost }
      else match leaderOf s with
        | some l =>
          { s with election := .electing, electionStart := s.time, reElections := s.reElections + 1, term := l.2.1 + 1
                   heard := s.heard.filter (·.1 != l.1) }
        | none =>
          { s with election := .electing, electionStart := s.time, reElections := s.reElections + 1
                   term := s.term + 1 })
  else s)

/-- IMAGE_BLOCK_RECEIVE: a follower receives a block of its leader's image (steps 4, 6). -/
def execImageBlockReceive (s : State) : Out :=
  .next (if s.election = .follower then { s with gotBlock := true, lastBlock := s.time } else s)

/-- IMAGE_BLOCK_TIMEOUT: no block for 200 ms while the image is not whole (step 6). -/
def execImageBlockTimeout (s : State) : Out :=
  .next (if s.election = .follower ∧ s.gotBlock ∧ !s.imageWhole ∧ s.lastBlock + 200 * perMs ≤ s.time then
    { s with election := .waitsForHost } else s)

end Sys2Proof.Machine
end

