-- ==== Sys2Proof/Machine/ScalarFp.lean ====
section
/-!
DEFINITION. The scalar floating-point instructions (spec/17 R343 to R347).
-/
namespace Sys2Proof.Machine

/-- NBV names no version (R48). -/
def badNbv (v : BitVec 8) : Bool := v == 0 || decide (3 < v.toNat)
/-- RM is reserved (R47). -/
def badRm (rm : BitVec 3) : Bool := decide (6 ≤ rm.toNat)

/-- The checks of R344, 0x60 before 0x64, then the effect. -/
def fpGuard (i : Instr) (rounds : Bool) (s : State) (k : Out) : Out :=
  if badNbv (me s).nbv then outTrap 0x60 (leadWord i) s
  else if rounds && badRm (me s).rm then outTrap 0x64 (leadWord i) s
  else k

/-- The operand of a type in an f register of the acting hart (R344). -/
def readF (s : State) (t : Ty) (r : Reg) : Nat := unboxF t (rf s r)

/-- Write a result to fd with its flags, and retire. -/
def outF (t : Ty) (d : Reg) (r : FRes) (s : State) : Out := .next (retire (raiseFlags r.fl (wf s d (boxF t r.enc))))
/-- Write a result to xd with its flags, and retire. -/
def outXF (d : Reg) (v : Word) (fl : BitVec 6) (s : State) : Out := .next (retire (raiseFlags fl (wx s d v)))

/-- An operation of two operands under the rounding mode. -/
def fpBinary (i : Instr) (d a b : Reg) (t : Ty) (f : Fmt → BitVec 3 → Nat → Nat → FRes) (s : State) : Out :=
  fpGuard i true s (outF t d (f (fmtOf t) (me s).rm (readF s t a) (readF s t b)) s)
/-- FMIN and FMAX. -/
def fpSelect (i : Instr) (isMax : Bool) (d a b : Reg) (t : Ty) (s : State) : Out :=
  fpGuard i false s (outF t d (fpMinMax (fmtOf t) isMax (readF s t a) (readF s t b)) s)
/-- FCMP. -/
def fpCompare (i : Instr) (c : FCond) (d a b : Reg) (t : Ty) (s : State) : Out :=
  let r := fpCmp (fmtOf t) c (readF s t a) (readF s t b)
  fpGuard i false s (outXF d (wBool r.1) r.2 s)
/-- FSGN: fa with another sign bit (R345). -/
def fpSign (i : Instr) (d a b : Reg) (t : Ty) (f : Bool → Bool → Bool) (s : State) : Out :=
  let fm := fmtOf t
  let x := readF s t a
  let y := readF s t b
  let sg := f (x.testBit (t.bits - 1)) (y.testBit (t.bits - 1))
  fpGuard i false s (outF t d ⟨withSign fm sg (x % fm.signBit), 0⟩ s)
/-- FMA in a form (R347). -/
def fpMulAdd (i : Instr) (form : FmaForm) (d a b c : Reg) (t : Ty) (s : State) : Out :=
  fpGuard i true s
    (outF t d (fpFma (fmtOf t) (me s).rm form (readF s t a) (readF s t b) (readF s t c)) s)

/-- FADD (R345). -/
def execFadd (d a b : Reg) (t : Ty) (s : State) : Out := fpBinary (.fadd d a b t) d a b t fpAdd s
/-- FSUB (R345). -/
def execFsub (d a b : Reg) (t : Ty) (s : State) : Out := fpBinary (.fsub d a b t) d a b t fpSub s
/-- FMUL (R345). -/
def execFmul (d a b : Reg) (t : Ty) (s : State) : Out := fpBinary (.fmul d a b t) d a b t fpMul s
/-- FDIV (R345). -/
def execFdiv (d a b : Reg) (t : Ty) (s : State) : Out := fpBinary (.fdiv d a b t) d a b t fpDiv s
/-- FSQRT (R345). -/
def execFsqrt (d a : Reg) (t : Ty) (s : State) : Out :=
  fpGuard (.fsqrt d a t) true s (outF t d (fpSqrt (fmtOf t) (me s).rm (readF s t a)) s)
/-- FMIN (R345). -/
def execFmin (d a b : Reg) (t : Ty) (s : State) : Out := fpSelect (.fmin d a b t) false d a b t s
/-- FMAX (R345). -/
def execFmax (d a b : Reg) (t : Ty) (s : State) : Out := fpSelect (.fmax d a b t) true d a b t s
/-- FCMP.eq (R345). -/
def execFcmpEq (d a b : Reg) (t : Ty) (s : State) : Out := fpCompare (.fcmpEq d a b t) .eq d a b t s
/-- FCMP.lt (R345). -/
def execFcmpLt (d a b : Reg) (t : Ty) (s : State) : Out := fpCompare (.fcmpLt d a b t) .lt d a b t s
/-- FCMP.le (R345). -/
def execFcmpLe (d a b : Reg) (t : Ty) (s : State) : Out := fpCompare (.fcmpLe d a b t) .le d a b t s

/-- The number FCLASS gives: kind, sign and failed box check (R345). -/
def classOf (t : Ty) (v : Word) : Word :=
  if boxOk t v then
    let e := unboxF t v
    w64 (fpKind (fmtOf t) e + (if e.testBit (t.bits - 1) then 8 else 0))
  else 0x14
/-- FCLASS (R345). -/
def execFclass (d a : Reg) (t : Ty) (s : State) : Out :=
  fpGuard (.fclass d a t) false s (outX d (classOf t (rf s a)) s)

/-- FSGN.j (R345). -/
def execFsgnJ (d a b : Reg) (t : Ty) (s : State) : Out := fpSign (.fsgnJ d a b t) d a b t (fun _ y => y) s
/-- FSGN.n (R345). -/
def execFsgnN (d a b : Reg) (t : Ty) (s : State) : Out := fpSign (.fsgnN d a b t) d a b t (fun _ y => !y) s
/-- FSGN.x (R345). -/
def execFsgnX (d a b : Reg) (t : Ty) (s : State) : Out := fpSign (.fsgnX d a b t) d a b t (fun x y => x != y) s
/-- FMOVX to an x register: the 64 bits unchanged (R345). -/
def execFmovxToX (d a : Reg) (s : State) : Out := fpGuard (.fmovxToX d a) false s (outX d (rf s a) s)
/-- FMOVX to an f register: the 64 bits unchanged (R345). -/
def execFmovxToF (d a : Reg) (s : State) : Out :=
  fpGuard (.fmovxToF d a) false s (.next (retire (wf s d (rx s a))))

/-- FCVT to a floating-point type (R346): under 0b101 the draw is that of index 0, and SRSEED advances by 1. -/
def execFcvtToFloat (d a : Reg) (dst src : Ty) (s : State) : Out :=
  let h := me s
  let sr := h.rm == 5
  let draw := if sr then some (srHash h.srseed 0) else none
  let x := if src.isInt then (rx s a).toNat else readF s src a
  fpGuard (.fcvtToFloat d a dst src) true s
    (outF dst d (convert dst src h.rm draw x)
      (if sr then onMe s fun h => { h with srseed := h.srseed + 1 } else s))

/-- FCVT to an integer type (R346). -/
def execFcvtToInteger (d a : Reg) (dst src : Ty) (s : State) : Out :=
  let r := convert dst src (me s).rm none (readF s src a)
  fpGuard (.fcvtToInteger d a dst src) true s (outXF d (extX dst r.enc) r.fl s)

/-- FMA (R347). -/
def execFma (d a b c : Reg) (t : Ty) (s : State) : Out := fpMulAdd (.fma d a b c t) .plain d a b c t s
/-- FMA.s: the addend subtracted (R347). -/
def execFmaS (d a b c : Reg) (t : Ty) (s : State) : Out := fpMulAdd (.fmaS d a b c t) .s d a b c t s
/-- FMA.n: the product negated (R347). -/
def execFmaN (d a b c : Reg) (t : Ty) (s : State) : Out := fpMulAdd (.fmaN d a b c t) .n d a b c t s
/-- FMA.ns: both (R347). -/
def execFmaNs (d a b c : Reg) (t : Ty) (s : State) : Out := fpMulAdd (.fmaNs d a b c t) .ns d a b c t s

end Sys2Proof.Machine
end

