-- ==== Sys2Proof/Machine/ScalarInt.lean ====
section
/-!
DEFINITION. The scalar integer instructions (spec/17 R342; spec/18 R366; spec/15 R311; spec/19 R429). None raises a
flag or a cause; a write of x0 is discarded.
-/
namespace Sys2Proof.Machine

/-! ### The operations -/

/-- A number modulo 64 of a shift or rotate amount (R366). -/
def shiftAmt (v : Word) : Nat := v.toNat % 64
/-- The lesser or greater of two words by an order. -/
def pick (lt : Bool) (a b : Word) : Word := if lt then a else b
/-- The high half of an exact product (R366). -/
def mulHigh (a b : Int) : Word := BitVec.ofInt 64 (a * b / 2 ^ 64)
/-- DIV (R342). -/
def divS (a b : Word) : Word := if b = 0 then BitVec.allOnes 64 else BitVec.ofInt 64 (a.toInt.tdiv b.toInt)
/-- DIVU (R342). -/
def divU (a b : Word) : Word := if b = 0 then BitVec.allOnes 64 else w64 (a.toNat / b.toNat)
/-- REM (R366). -/
def remS (a b : Word) : Word := if b = 0 then a else BitVec.ofInt 64 (a.toInt.tmod b.toInt)
/-- REMU (R366). -/
def remU (a b : Word) : Word := if b = 0 then a else w64 (a.toNat % b.toNat)
/-- The number of 0 bits above the highest 1 bit (R342). -/
def countLeading (a : Word) : Nat := if a = 0 then 64 else 63 - Nat.log2 a.toNat
/-- The number of 0 bits below the lowest 1 bit (R342). -/
def countTrailing (a : Word) : Nat := ((List.range 64).find? fun i => a.toNat.testBit i).getD 64
/-- The number of 1 bits of the low n bits of a number. -/
def popCount (n v : Nat) : Nat := ((List.range n).filter fun i => v.testBit i).length
/-- The low bytes of a word reversed (R311). -/
def byteSwap (n : Nat) (a : Word) : Word := BitVec.ofNat 64 (natOfBytes (bytesOfNat n a.toNat).reverse)

/-- An instruction of two registers. -/
def regOp (d a b : Reg) (f : Word → Word → Word) (s : State) : Out := outX d (f (rx s a) (rx s b)) s
/-- An instruction of a register and an immediate. -/
def immOp (d a : Reg) (i : Word) (f : Word → Word → Word) (s : State) : Out := outX d (f (rx s a) i) s

/-! ### The instructions -/

/-- ADD with an immediate (R342). -/
def execAddImm (d a : Reg) (i : BitVec 16) (s : State) : Out :=
  immOp d a (simm i) (fun x y => x + y) s
/-- AND with an immediate (R342). -/
def execAndImm (d a : Reg) (i : BitVec 12) (s : State) : Out :=
  immOp d a (simm i) (fun x y => x &&& y) s
/-- OR with an immediate (R366). -/
def execOrImm (d a : Reg) (i : BitVec 12) (s : State) : Out :=
  immOp d a (simm i) (fun x y => x ||| y) s
/-- XOR with an immediate (R429). -/
def execXorImm (d a : Reg) (i : BitVec 12) (s : State) : Out :=
  immOp d a (simm i) (fun x y => x ^^^ y) s
/-- SLT with an immediate (R366). -/
def execSltImm (d a : Reg) (i : BitVec 12) (s : State) : Out :=
  immOp d a (simm i) (fun x y => wBool (x.slt y)) s
/-- SLTU with an immediate (R366). -/
def execSltuImm (d a : Reg) (i : BitVec 12) (s : State) : Out :=
  immOp d a (simm i) (fun x y => wBool (x.ult y)) s
/-- SHL with an immediate (R366). -/
def execShlImm (d a : Reg) (i : BitVec 6) (s : State) : Out :=
  immOp d a (uimm i) (fun x y => x <<< shiftAmt y) s
/-- SHR with an immediate (R366). -/
def execShrImm (d a : Reg) (i : BitVec 6) (s : State) : Out :=
  immOp d a (uimm i) (fun x y => x >>> shiftAmt y) s
/-- SAR with an immediate (R366). -/
def execSarImm (d a : Reg) (i : BitVec 6) (s : State) : Out :=
  immOp d a (uimm i) (fun x y => x.sshiftRight (shiftAmt y)) s
/-- ROL with an immediate (R366). -/
def execRolImm (d a : Reg) (i : BitVec 6) (s : State) : Out :=
  immOp d a (uimm i) (fun x y => x.rotateLeft (shiftAmt y)) s
/-- ROR with an immediate (R366). -/
def execRorImm (d a : Reg) (i : BitVec 6) (s : State) : Out :=
  immOp d a (uimm i) (fun x y => x.rotateRight (shiftAmt y)) s
/-- MIN with an immediate (R366). -/
def execMinImm (d a : Reg) (i : BitVec 12) (s : State) : Out :=
  immOp d a (simm i) (fun x y => pick (x.slt y) x y) s
/-- MINU with an immediate (R366). -/
def execMinuImm (d a : Reg) (i : BitVec 12) (s : State) : Out :=
  immOp d a (simm i) (fun x y => pick (x.ult y) x y) s
/-- MAX with an immediate (R366). -/
def execMaxImm (d a : Reg) (i : BitVec 12) (s : State) : Out :=
  immOp d a (simm i) (fun x y => pick (y.slt x) x y) s
/-- MAXU with an immediate (R366). -/
def execMaxuImm (d a : Reg) (i : BitVec 12) (s : State) : Out :=
  immOp d a (simm i) (fun x y => pick (y.ult x) x y) s
/-- ADD (R342). -/
def execAdd (d a b : Reg) (s : State) : Out := regOp d a b (fun x y => x + y) s
/-- SUB (R366). -/
def execSub (d a b : Reg) (s : State) : Out := regOp d a b (fun x y => x - y) s
/-- AND (R342). -/
def execAnd (d a b : Reg) (s : State) : Out := regOp d a b (fun x y => x &&& y) s
/-- OR (R366). -/
def execOr (d a b : Reg) (s : State) : Out := regOp d a b (fun x y => x ||| y) s
/-- XOR (R429). -/
def execXor (d a b : Reg) (s : State) : Out := regOp d a b (fun x y => x ^^^ y) s
/-- SHL (R366). -/
def execShl (d a b : Reg) (s : State) : Out := regOp d a b (fun x y => x <<< shiftAmt y) s
/-- SHR (R366). -/
def execShr (d a b : Reg) (s : State) : Out := regOp d a b (fun x y => x >>> shiftAmt y) s
/-- SAR (R366). -/
def execSar (d a b : Reg) (s : State) : Out := regOp d a b (fun x y => x.sshiftRight (shiftAmt y)) s
/-- ROL (R366). -/
def execRol (d a b : Reg) (s : State) : Out := regOp d a b (fun x y => x.rotateLeft (shiftAmt y)) s
/-- ROR (R366). -/
def execRor (d a b : Reg) (s : State) : Out := regOp d a b (fun x y => x.rotateRight (shiftAmt y)) s
/-- SLT (R366). -/
def execSlt (d a b : Reg) (s : State) : Out := regOp d a b (fun x y => wBool (x.slt y)) s
/-- SLTU (R366). -/
def execSltu (d a b : Reg) (s : State) : Out := regOp d a b (fun x y => wBool (x.ult y)) s
/-- MIN (R366). -/
def execMin (d a b : Reg) (s : State) : Out := regOp d a b (fun x y => pick (x.slt y) x y) s
/-- MINU (R366). -/
def execMinu (d a b : Reg) (s : State) : Out := regOp d a b (fun x y => pick (x.ult y) x y) s
/-- MAX (R366). -/
def execMax (d a b : Reg) (s : State) : Out := regOp d a b (fun x y => pick (y.slt x) x y) s
/-- MAXU (R366). -/
def execMaxu (d a b : Reg) (s : State) : Out := regOp d a b (fun x y => pick (y.ult x) x y) s
/-- MUL (R366). -/
def execMul (d a b : Reg) (s : State) : Out := regOp d a b (fun x y => x * y) s
/-- MULH (R366). -/
def execMulh (d a b : Reg) (s : State) : Out := regOp d a b (fun x y => mulHigh x.toInt y.toInt) s
/-- MULHU (R366). -/
def execMulhu (d a b : Reg) (s : State) : Out := regOp d a b (fun x y => mulHigh x.toNat y.toNat) s
/-- DIV (R342). -/
def execDiv (d a b : Reg) (s : State) : Out := regOp d a b (fun x y => divS x y) s
/-- DIVU (R342). -/
def execDivu (d a b : Reg) (s : State) : Out := regOp d a b (fun x y => divU x y) s
/-- REM (R366). -/
def execRem (d a b : Reg) (s : State) : Out := regOp d a b (fun x y => remS x y) s
/-- REMU (R366). -/
def execRemu (d a b : Reg) (s : State) : Out := regOp d a b (fun x y => remU x y) s
/-- CLZ (R342). -/
def execClz (d a : Reg) (s : State) : Out := outX d (w64 (countLeading (rx s a))) s
/-- CTZ (R342). -/
def execCtz (d a : Reg) (s : State) : Out := outX d (w64 (countTrailing (rx s a))) s
/-- POPC (R366). -/
def execPopc (d a : Reg) (s : State) : Out := outX d (w64 (popCount 64 (rx s a).toNat)) s
/-- EXTS (R342): the low bits of the width sign-extended. -/
def execExts (d a : Reg) (q : Ty) (s : State) : Out :=
  outX d (((rx s a).setWidth q.bits).signExtend 64) s
/-- EXTZ (R342): the low bits of the width zero-extended. -/
def execExtz (d a : Reg) (q : Ty) (s : State) : Out :=
  outX d (((rx s a).setWidth q.bits).setWidth 64) s
/-- SELECT (R366): the condition is the old xd. -/
def execSelect (d a b : Reg) (s : State) : Out := outX d (if rx s d = 0 then rx s b else rx s a) s
/-- BSWAP (R311). -/
def execBswap (d a : Reg) (q : Ty) (s : State) : Out := outX d (byteSwap (q.bits / 8) (rx s a)) s
/-- LDHI (R366). -/
def execLdhi (d : Reg) (i : BitVec 21) (s : State) : Out := outX d (simm i * 65536) s
/-- ADDPC (R342). -/
def execAddpc (d : Reg) (i : BitVec 21) (s : State) : Out := outX d ((me s).pc + simm i * 65536) s

end Sys2Proof.Machine
end

