-- ==== Sys2Proof/Machine/Setvl.lean ====
section
/-!
DEFINITION. SETVL and the grant of lane groups (spec/02_state.md R59; spec/05_vectors.md R100, R101; spec/18 R386).
-/
namespace Sys2Proof.Machine

/-- No other hart of the core holds a group of g (R59). -/
def groupsFree (s : State) (h : Nat) (g : BitVec 4) : Bool :=
  (hartsOn (coreOf h)).all fun o => o == h || (hart s o).groups &&& g == 0

/-- The vector state and VS under a new grant, or under a new register count (R101, R386). -/
def redeclare (g : BitVec 4) (regs : BitVec 2) (h : Hart) : Hart :=
  if g ≠ h.groups then { zeroVector h with vs := 1, groups := g }
  else if regs ≠ h.regs then { h with v := Vector.replicate 32 0, badV := 0, vs := if h.vs = 3 then 2 else h.vs }
  else h

/-- The declaration a SETVL writes (R100, R386). -/
def declare (d : Reg) (avl : Word) (regs : BitVec 2) (ew : Size) (g : BitVec 4) (h : Hart) : Hart :=
  let lanes := lanesOf g.toNat
  let vlmax := lanes * 32768 / regCount regs / (8 * 2 ^ ew.code)
  let vl := min avl.toNat vlmax
  setX { redeclare g regs h with
    lanes := BitVec.ofNat 5 lanes, regs := regs, ew := BitVec.ofNat 2 ew.code, vlmax := BitVec.ofNat 14 vlmax
    vl := BitVec.ofNat 14 vl, vlSeq := h.vlSeq + 1, vstart := 0 } d (w64 vl)

/-- What a SETVL that changes the grant or the register count waits for has come. -/
def grantReady (s : State) (h : Nat) (regs : BitVec 2) (g : BitVec 4) : Bool :=
  let x := hart s h
  ((g == x.groups && regs == x.regs) || (vectorEmpty x && !movesPending x)) && (g == x.groups || groupsFree s h g)

/-- SETVL (R386). -/
def execSetvl (d a : Reg) (regs : BitVec 2) (ew : Size) (s : State) : Out :=
  let w := leadWord (.setvl d a regs ew)
  let g := grantOf (myCore s).lanepart s.cur
  if g = 0 then .next (raise 0x0C w (onMe s releaseGroups))
  else if (me s).vs = 0 then outTrap 0x61 w s
  else if regs = 3 then outTrap 0x68 w s
  else if grantReady s s.cur regs g then .next (retire (onMe s (declare d (rx s a) regs ew g)))
  else .next (waitOn (.lane d (rx s a) regs ew g) s)

/-- LANE_GRANT: a SETVL that waits for its queue or for lane groups is granted them (R59, R386). -/
def execLaneGrant (h : Nat) (s : State) : Out :=
  match (hart s h).wait with
  | some (.lane d avl regs ew g) =>
    if grantReady s h regs g then .next (onHart s h fun x => retireHart 4 (declare d avl regs ew g x)) else .next s
  | _ => .next s

end Sys2Proof.Machine
end

