-- ==== Sys2Proof/Machine/Dispatch.lean ====
section
/-!
DEFINITION. The dispatch: one arm per constructor of Instr, each one call of its meaning.
-/
namespace Sys2Proof.Machine

/-- The meaning of an instruction of the acting hart, or of an event. -/
def exec (i : Instr) (s : State) : Host.Outcome State Fault Refusal :=
  match i with
  | .addImm d a imm => Sys2Proof.Machine.execAddImm d a imm s
  | .andImm d a imm => Sys2Proof.Machine.execAndImm d a imm s
  | .orImm d a imm => Sys2Proof.Machine.execOrImm d a imm s
  | .xorImm d a imm => Sys2Proof.Machine.execXorImm d a imm s
  | .sltImm d a imm => Sys2Proof.Machine.execSltImm d a imm s
  | .sltuImm d a imm => Sys2Proof.Machine.execSltuImm d a imm s
  | .shlImm d a imm => Sys2Proof.Machine.execShlImm d a imm s
  | .shrImm d a imm => Sys2Proof.Machine.execShrImm d a imm s
  | .sarImm d a imm => Sys2Proof.Machine.execSarImm d a imm s
  | .rolImm d a imm => Sys2Proof.Machine.execRolImm d a imm s
  | .rorImm d a imm => Sys2Proof.Machine.execRorImm d a imm s
  | .minImm d a imm => Sys2Proof.Machine.execMinImm d a imm s
  | .minuImm d a imm => Sys2Proof.Machine.execMinuImm d a imm s
  | .maxImm d a imm => Sys2Proof.Machine.execMaxImm d a imm s
  | .maxuImm d a imm => Sys2Proof.Machine.execMaxuImm d a imm s
  | .add d a b => Sys2Proof.Machine.execAdd d a b s
  | .sub d a b => Sys2Proof.Machine.execSub d a b s
  | .and d a b => Sys2Proof.Machine.execAnd d a b s
  | .or d a b => Sys2Proof.Machine.execOr d a b s
  | .xor d a b => Sys2Proof.Machine.execXor d a b s
  | .shl d a b => Sys2Proof.Machine.execShl d a b s
  | .shr d a b => Sys2Proof.Machine.execShr d a b s
  | .sar d a b => Sys2Proof.Machine.execSar d a b s
  | .rol d a b => Sys2Proof.Machine.execRol d a b s
  | .ror d a b => Sys2Proof.Machine.execRor d a b s
  | .slt d a b => Sys2Proof.Machine.execSlt d a b s
  | .sltu d a b => Sys2Proof.Machine.execSltu d a b s
  | .min d a b => Sys2Proof.Machine.execMin d a b s
  | .minu d a b => Sys2Proof.Machine.execMinu d a b s
  | .max d a b => Sys2Proof.Machine.execMax d a b s
  | .maxu d a b => Sys2Proof.Machine.execMaxu d a b s
  | .mul d a b => Sys2Proof.Machine.execMul d a b s
  | .mulh d a b => Sys2Proof.Machine.execMulh d a b s
  | .mulhu d a b => Sys2Proof.Machine.execMulhu d a b s
  | .div d a b => Sys2Proof.Machine.execDiv d a b s
  | .divu d a b => Sys2Proof.Machine.execDivu d a b s
  | .rem d a b => Sys2Proof.Machine.execRem d a b s
  | .remu d a b => Sys2Proof.Machine.execRemu d a b s
  | .clz d a => Sys2Proof.Machine.execClz d a s
  | .ctz d a => Sys2Proof.Machine.execCtz d a s
  | .popc d a => Sys2Proof.Machine.execPopc d a s
  | .exts d a q => Sys2Proof.Machine.execExts d a q s
  | .extz d a q => Sys2Proof.Machine.execExtz d a q s
  | .select d a b => Sys2Proof.Machine.execSelect d a b s
  | .bswap d a q => Sys2Proof.Machine.execBswap d a q s
  | .ldhi d imm => Sys2Proof.Machine.execLdhi d imm s
  | .addpc d imm => Sys2Proof.Machine.execAddpc d imm s
  | .fadd d a b t => Sys2Proof.Machine.execFadd d a b t s
  | .fsub d a b t => Sys2Proof.Machine.execFsub d a b t s
  | .fmul d a b t => Sys2Proof.Machine.execFmul d a b t s
  | .fdiv d a b t => Sys2Proof.Machine.execFdiv d a b t s
  | .fsqrt d a t => Sys2Proof.Machine.execFsqrt d a t s
  | .fmin d a b t => Sys2Proof.Machine.execFmin d a b t s
  | .fmax d a b t => Sys2Proof.Machine.execFmax d a b t s
  | .fcmpEq d a b t => Sys2Proof.Machine.execFcmpEq d a b t s
  | .fcmpLt d a b t => Sys2Proof.Machine.execFcmpLt d a b t s
  | .fcmpLe d a b t => Sys2Proof.Machine.execFcmpLe d a b t s
  | .fclass d a t => Sys2Proof.Machine.execFclass d a t s
  | .fsgnJ d a b t => Sys2Proof.Machine.execFsgnJ d a b t s
  | .fsgnN d a b t => Sys2Proof.Machine.execFsgnN d a b t s
  | .fsgnX d a b t => Sys2Proof.Machine.execFsgnX d a b t s
  | .fmovxToX d a => Sys2Proof.Machine.execFmovxToX d a s
  | .fmovxToF d a => Sys2Proof.Machine.execFmovxToF d a s
  | .fcvtToFloat d a dst src => Sys2Proof.Machine.execFcvtToFloat d a dst src s
  | .fcvtToInteger d a dst src => Sys2Proof.Machine.execFcvtToInteger d a dst src s
  | .fma d a b c t => Sys2Proof.Machine.execFma d a b c t s
  | .fmaS d a b c t => Sys2Proof.Machine.execFmaS d a b c t s
  | .fmaN d a b c t => Sys2Proof.Machine.execFmaN d a b c t s
  | .fmaNs d a b c t => Sys2Proof.Machine.execFmaNs d a b c t s
  | .ld d a wd off => Sys2Proof.Machine.execLd d a wd off s
  | .st d a wd off => Sys2Proof.Machine.execSt d a wd off s
  | .pref a off => Sys2Proof.Machine.execPref a off s
  | .ldAq d a wd sc => Sys2Proof.Machine.execLdAq d a wd sc s
  | .stRl a b wd sc => Sys2Proof.Machine.execStRl a b wd sc s
  | .amoSwap d a b aq rl dw sc => Sys2Proof.Machine.execAmoSwap d a b aq rl dw sc s
  | .amoAdd d a b aq rl dw sc => Sys2Proof.Machine.execAmoAdd d a b aq rl dw sc s
  | .amoAnd d a b aq rl dw sc => Sys2Proof.Machine.execAmoAnd d a b aq rl dw sc s
  | .amoOr d a b aq rl dw sc => Sys2Proof.Machine.execAmoOr d a b aq rl dw sc s
  | .amoXor d a b aq rl dw sc => Sys2Proof.Machine.execAmoXor d a b aq rl dw sc s
  | .amoMin d a b aq rl dw sc => Sys2Proof.Machine.execAmoMin d a b aq rl dw sc s
  | .amoMax d a b aq rl dw sc => Sys2Proof.Machine.execAmoMax d a b aq rl dw sc s
  | .amoMinu d a b aq rl dw sc => Sys2Proof.Machine.execAmoMinu d a b aq rl dw sc s
  | .amoMaxu d a b aq rl dw sc => Sys2Proof.Machine.execAmoMaxu d a b aq rl dw sc s
  | .cas d a b aq rl dw sc => Sys2Proof.Machine.execCas d a b aq rl dw sc s
  | .fence dir sc => Sys2Proof.Machine.execFence dir sc s
  | .ldb d a wm1 sx => Sys2Proof.Machine.execLdb d a wm1 sx s
  | .stb a b wm1 => Sys2Proof.Machine.execStb a b wm1 s
  | .br a b c disp => Sys2Proof.Machine.execBr a b c disp s
  | .jal d disp => Sys2Proof.Machine.execJal d disp s
  | .jalr d a imm => Sys2Proof.Machine.execJalr d a imm s
  | .loop a imm => Sys2Proof.Machine.execLoop a imm s
  | .lend => Sys2Proof.Machine.execLend s
  | .send d a b u => Sys2Proof.Machine.execSend d a b u s
  | .recv d a b u => Sys2Proof.Machine.execRecv d a b u s
  | .gbar d => Sys2Proof.Machine.execGbar d s
  | .setwm a b sc => Sys2Proof.Machine.execSetwm a b sc s
  | .waitwm a b sc => Sys2Proof.Machine.execWaitwm a b sc s
  | .waitt a => Sys2Proof.Machine.execWaitt a s
  | .tspawn a b n => Sys2Proof.Machine.execTspawn a b n s
  | .tdone => Sys2Proof.Machine.execTdone s
  | .tirrev => Sys2Proof.Machine.execTirrev s
  | .tabort => Sys2Proof.Machine.execTabort s
  | .tdomainOpen d a => Sys2Proof.Machine.execTdomainOpen d a s
  | .tdomainEnter d => Sys2Proof.Machine.execTdomainEnter d s
  | .tdomainClose d => Sys2Proof.Machine.execTdomainClose d s
  | .scopy d a => Sys2Proof.Machine.execScopy d a s
  | .smap d a => Sys2Proof.Machine.execSmap d a s
  | .sput d a => Sys2Proof.Machine.execSput d a s
  | .swait a => Sys2Proof.Machine.execSwait a s
  | .syscall imm => Sys2Proof.Machine.execSyscall imm s
  | .brk imm => Sys2Proof.Machine.execBrk imm s
  | .getsr d sr => Sys2Proof.Machine.execGetsr d sr s
  | .setsr a sr => Sys2Proof.Machine.execSetsr a sr s
  | .swapsr d a sr => Sys2Proof.Machine.execSwapsr d a sr s
  | .tret => Sys2Proof.Machine.execTret s
  | .idle => Sys2Proof.Machine.execIdle s
  | .tlbinvPage a b sc => Sys2Proof.Machine.execTlbinvPage a b sc s
  | .tlbinvAsid b sc => Sys2Proof.Machine.execTlbinvAsid b sc s
  | .tlbinvAll sc => Sys2Proof.Machine.execTlbinvAll sc s
  | .cacheopIl a => Sys2Proof.Machine.execCacheopIl a s
  | .cacheopIa => Sys2Proof.Machine.execCacheopIa s
  | .cacheopWb a => Sys2Proof.Machine.execCacheopWb a s
  | .cacheopWbi a => Sys2Proof.Machine.execCacheopWbi a s
  | .kand d a b => Sys2Proof.Machine.execKand d a b s
  | .kor d a b => Sys2Proof.Machine.execKor d a b s
  | .kxor d a b => Sys2Proof.Machine.execKxor d a b s
  | .knot d a => Sys2Proof.Machine.execKnot d a s
  | .kpopc d a => Sys2Proof.Machine.execKpopc d a s
  | .kfirst d a => Sys2Proof.Machine.execKfirst d a s
  | .kset d a => Sys2Proof.Machine.execKset d a s
  | .setvl d a regs ew => Sys2Proof.Machine.execSetvl d a regs ew s
  | .vsave a => Sys2Proof.Machine.execVsave a s
  | .vrest a => Sys2Proof.Machine.execVrest a s
  | .mshape d a b => Sys2Proof.Machine.execMshape d a b s
  | .mzero c => Sys2Proof.Machine.execMzero c s
  | .mlda d a b => Sys2Proof.Machine.execMlda d a b s
  | .mldaScale d a b q => Sys2Proof.Machine.execMldaScale d a b q s
  | .mldaff d a b => Sys2Proof.Machine.execMldaff d a b s
  | .mldb d a b => Sys2Proof.Machine.execMldb d a b s
  | .mldbScale d a b q => Sys2Proof.Machine.execMldbScale d a b q s
  | .mldw d a b m => Sys2Proof.Machine.execMldw d a b m s
  | .mtmap d a => Sys2Proof.Machine.execMtmap d a s
  | .mma c a b f => Sys2Proof.Machine.execMma c a b f s
  | .mstc c a b f => Sys2Proof.Machine.execMstc c a b f s
  | .mmovcToVector d c b k => Sys2Proof.Machine.execMmovcToVector d c b k s
  | .mmovcToTile c a b k => Sys2Proof.Machine.execMmovcToTile c a b k s
  | .mcastTile d a => Sys2Proof.Machine.execMcastTile d a s
  | .mcastRows d a => Sys2Proof.Machine.execMcastRows d a s
  | .mwait => Sys2Proof.Machine.execMwait s
  | .msave a => Sys2Proof.Machine.execMsave a s
  | .mrest a => Sys2Proof.Machine.execMrest a s
  | .vld h d a t => Sys2Proof.Machine.execVld h d a t s
  | .vlds h d a b t => Sys2Proof.Machine.execVlds h d a b t s
  | .vldx h d a b t iw => Sys2Proof.Machine.execVldx h d a b t iw s
  | .vldff h d a t => Sys2Proof.Machine.execVldff h d a t s
  | .vst h d a t => Sys2Proof.Machine.execVst h d a t s
  | .vsts h d a b t => Sys2Proof.Machine.execVsts h d a b t s
  | .vstx h d a b t iw => Sys2Proof.Machine.execVstx h d a b t iw s
  | .vbpld cv d a wm1 => Sys2Proof.Machine.execVbpld cv d a wm1 s
  | .vbpst cv d a wm1 => Sys2Proof.Machine.execVbpst cv d a wm1 s
  | .vbpdot cv d a b t wam1 wbm1 => Sys2Proof.Machine.execVbpdot cv d a b t wam1 wbm1 s
  | .vbpcvtToplanes cv d a t wm1 => Sys2Proof.Machine.execVbpcvtToplanes cv d a t wm1 s
  | .vbpcvtTopacked cv d a t wm1 => Sys2Proof.Machine.execVbpcvtTopacked cv d a t wm1 s
  | .vadd h d a b t => Sys2Proof.Machine.execVadd h d a b t s
  | .vsub h d a b t => Sys2Proof.Machine.execVsub h d a b t s
  | .vmul h d a b t => Sys2Proof.Machine.execVmul h d a b t s
  | .vmulh h d a b t => Sys2Proof.Machine.execVmulh h d a b t s
  | .vmadd h d a b c t => Sys2Proof.Machine.execVmadd h d a b c t s
  | .vmin h d a b t => Sys2Proof.Machine.execVmin h d a b t s
  | .vmax h d a b t => Sys2Proof.Machine.execVmax h d a b t s
  | .vand h d a b t => Sys2Proof.Machine.execVand h d a b t s
  | .vor h d a b t => Sys2Proof.Machine.execVor h d a b t s
  | .vxor h d a b t => Sys2Proof.Machine.execVxor h d a b t s
  | .vshl h d a b t => Sys2Proof.Machine.execVshl h d a b t s
  | .vshr h d a b t => Sys2Proof.Machine.execVshr h d a b t s
  | .vsar h d a b t => Sys2Proof.Machine.execVsar h d a b t s
  | .vadds h d a b t => Sys2Proof.Machine.execVadds h d a b t s
  | .vsubs h d a b t => Sys2Proof.Machine.execVsubs h d a b t s
  | .vabsd h d a b t => Sys2Proof.Machine.execVabsd h d a b t s
  | .vwiden h d a t t2 => Sys2Proof.Machine.execVwiden h d a t t2 s
  | .vnarrow h d a t t2 sat => Sys2Proof.Machine.execVnarrow h d a t t2 sat s
  | .vcmp h d a b t c => Sys2Proof.Machine.execVcmp h d a b t c s
  | .vfadd h d a b t => Sys2Proof.Machine.execVfadd h d a b t s
  | .vfsub h d a b t => Sys2Proof.Machine.execVfsub h d a b t s
  | .vfmul h d a b t => Sys2Proof.Machine.execVfmul h d a b t s
  | .vfma h d a b c t form => Sys2Proof.Machine.execVfma h d a b c t form s
  | .vfdiv h d a b t => Sys2Proof.Machine.execVfdiv h d a b t s
  | .vfsqrt h d a t => Sys2Proof.Machine.execVfsqrt h d a t s
  | .vfmin h d a b t => Sys2Proof.Machine.execVfmin h d a b t s
  | .vfmax h d a b t => Sys2Proof.Machine.execVfmax h d a b t s
  | .vfcmp h d a b t c => Sys2Proof.Machine.execVfcmp h d a b t c s
  | .vfcvt h d a t t2 => Sys2Proof.Machine.execVfcvt h d a t t2 s
  | .vsf h d a t fn => Sys2Proof.Machine.execVsf h d a t fn s
  | .vredsum h d a t => Sys2Proof.Machine.execVredsum h d a t s
  | .vredmin h d a t => Sys2Proof.Machine.execVredmin h d a t s
  | .vredmax h d a t => Sys2Proof.Machine.execVredmax h d a t s
  | .vfredsum h d a t t2 => Sys2Proof.Machine.execVfredsum h d a t t2 s
  | .vfredmin h d a t t2 => Sys2Proof.Machine.execVfredmin h d a t t2 s
  | .vfredmax h d a t t2 => Sys2Proof.Machine.execVfredmax h d a t t2 s
  | .vscan h d a c t t2 => Sys2Proof.Machine.execVscan h d a c t t2 s
  | .vslideup h d a b t => Sys2Proof.Machine.execVslideup h d a b t s
  | .vslidedn h d a b t => Sys2Proof.Machine.execVslidedn h d a b t s
  | .vgather h d a b t iw => Sys2Proof.Machine.execVgather h d a b t iw s
  | .vcompress h d a t => Sys2Proof.Machine.execVcompress h d a t s
  | .vexpand h d a t => Sys2Proof.Machine.execVexpand h d a t s
  | .vmerge h d a b t => Sys2Proof.Machine.execVmerge h d a b t s
  | .vbcast h d a t => Sys2Proof.Machine.execVbcast h d a t s
  | .vmvx h d a t => Sys2Proof.Machine.execVmvx h d a t s
  | .vmvs h d a b t => Sys2Proof.Machine.execVmvs h d a b t s
  | .vmov h d a t => Sys2Proof.Machine.execVmov h d a t s
  | .viota h d t => Sys2Proof.Machine.execViota h d t s
  | .vbq h d a c t t2 => Sys2Proof.Machine.execVbq h d a c t t2 s
  | .vbdq h d a t t2 => Sys2Proof.Machine.execVbdq h d a t t2 s
  | .powerOnReset => Sys2Proof.Machine.execPowerOnReset s
  | .hartctlStart v => Sys2Proof.Machine.execHartctlStart v s
  | .hartctlStop v => Sys2Proof.Machine.execHartctlStop v s
  | .hartStop h => Sys2Proof.Machine.execHartStop h s
  | .monhartWrite v => Sys2Proof.Machine.execMonhartWrite v s
  | .freezeMaster v => Sys2Proof.Machine.execFreezeMaster v s
  | .freezeRelease v => Sys2Proof.Machine.execFreezeRelease v s
  | .fwctlWriteImage v => Sys2Proof.Machine.execFwctlWriteImage v s
  | .fwctlReloadPlacement v => Sys2Proof.Machine.execFwctlReloadPlacement v s
  | .imageVerifyDone signer version security => Sys2Proof.Machine.execImageVerifyDone signer version security s
  | .keyctlEnrol v => Sys2Proof.Machine.execKeyctlEnrol v s
  | .keyctlRevoke v => Sys2Proof.Machine.execKeyctlRevoke v s
  | .registerWrite who r v => Sys2Proof.Machine.execRegisterWrite who r v s
  | .localsplitResize h => Sys2Proof.Machine.execLocalsplitResize h s
  | .laneGrant h => Sys2Proof.Machine.execLaneGrant h s
  | .interruptTake h => Sys2Proof.Machine.execInterruptTake h s
  | .timecmpMatch h => Sys2Proof.Machine.execTimecmpMatch h s
  | .swisetWrite who island v => Sys2Proof.Machine.execSwisetWrite who island v s
  | .doorbellWrite who f v => Sys2Proof.Machine.execDoorbellWrite who f v s
  | .hostirqWrite who f v => Sys2Proof.Machine.execHostirqWrite who f v s
  | .externalInterrupt f line => Sys2Proof.Machine.execExternalInterrupt f line s
  | .preemptionTake h => Sys2Proof.Machine.execPreemptionTake h s
  | .lateVectorFault h => Sys2Proof.Machine.execLateVectorFault h s
  | .convoyIssue h => Sys2Proof.Machine.execConvoyIssue h s
  | .convoyDrain h => Sys2Proof.Machine.execConvoyDrain h s
  | .scalarDestinationWrite h => Sys2Proof.Machine.execScalarDestinationWrite h s
  | .matrixExecute h => Sys2Proof.Machine.execMatrixExecute h s
  | .mcastDelivery core => Sys2Proof.Machine.execMcastDelivery core s
  | .mwaitComplete h => Sys2Proof.Machine.execMwaitComplete h s
  | .streamCommandStart core => Sys2Proof.Machine.execStreamCommandStart core s
  | .streamCommandEnd core => Sys2Proof.Machine.execStreamCommandEnd core s
  | .swaitCheck h => Sys2Proof.Machine.execSwaitCheck h s
  | .pageWalk h va k => Sys2Proof.Machine.execPageWalk h va k s
  | .migrationRecheck h => Sys2Proof.Machine.execMigrationRecheck h s
  | .sendDeposit h => Sys2Proof.Machine.execSendDeposit h s
  | .recvTake h => Sys2Proof.Machine.execRecvTake h s
  | .gbarRelease island entry => Sys2Proof.Machine.execGbarRelease island entry s
  | .idleWake h => Sys2Proof.Machine.execIdleWake h s
  | .waittExpire h => Sys2Proof.Machine.execWaittExpire h s
  | .waitwmSatisfied h => Sys2Proof.Machine.execWaitwmSatisfied h s
  | .watermarkStore h => Sys2Proof.Machine.execWatermarkStore h s
  | .fenceComplete h => Sys2Proof.Machine.execFenceComplete h s
  | .taskFinish h => Sys2Proof.Machine.execTaskFinish h s
  | .taskDispatch island => Sys2Proof.Machine.execTaskDispatch island s
  | .frontierExchange f => Sys2Proof.Machine.execFrontierExchange f s
  | .frontierApply f => Sys2Proof.Machine.execFrontierApply f s
  | .commitBatch f dom => Sys2Proof.Machine.execCommitBatch f dom s
  | .taskSpill island => Sys2Proof.Machine.execTaskSpill island s
  | .taskRefill island dom => Sys2Proof.Machine.execTaskRefill island dom s
  | .hartReclaim f dom => Sys2Proof.Machine.execHartReclaim f dom s
  | .notifyWrite who island slot => Sys2Proof.Machine.execNotifyWrite who island slot s
  | .slotMap who island slot => Sys2Proof.Machine.execSlotMap who island slot s
  | .slotUnmap who island slot retire => Sys2Proof.Machine.execSlotUnmap who island slot retire s
  | .packetParse island slot => Sys2Proof.Machine.execPacketParse island slot s
  | .schedcfgWrite who island v => Sys2Proof.Machine.execSchedcfgWrite who island v s
  | .roundBoundary island ranking hot cool => Sys2Proof.Machine.execRoundBoundary island ranking hot cool s
  | .gangPreemptSave island entry => Sys2Proof.Machine.execGangPreemptSave island entry s
  | .gexit who island v => Sys2Proof.Machine.execGexit who island v s
  | .monitorCodeTake => Sys2Proof.Machine.execMonitorCodeTake s
  | .meshWriteLost h engine => Sys2Proof.Machine.execMeshWriteLost h engine s
  | .directoryError pa => Sys2Proof.Machine.execDirectoryError pa s
  | .taskUnitError f dom => Sys2Proof.Machine.execTaskUnitError f dom s
  | .correctedError f => Sys2Proof.Machine.execCorrectedError f s
  | .linkDown l => Sys2Proof.Machine.execLinkDown l s
  | .hbmStackFailure stack => Sys2Proof.Machine.execHbmStackFailure stack s
  | .thermalTrip => Sys2Proof.Machine.execThermalTrip s
  | .powerRailFault => Sys2Proof.Machine.execPowerRailFault s
  | .functionLevelReset f => Sys2Proof.Machine.execFunctionLevelReset f s
  | .flrctlWrite who f v => Sys2Proof.Machine.execFlrctlWrite who f v s
  | .flrDrainDone f => Sys2Proof.Machine.execFlrDrainDone f s
  | .flrDrainTimeout f => Sys2Proof.Machine.execFlrDrainTimeout f s
  | .flrScrubDone f => Sys2Proof.Machine.execFlrScrubDone f s
  | .flrQueuesDone f => Sys2Proof.Machine.execFlrQueuesDone f s
  | .hostRequest f r => Sys2Proof.Machine.execHostRequest f r s
  | .nqwrDoorbell who f v => Sys2Proof.Machine.execNqwrDoorbell who f v s
  | .networkStore f ans => Sys2Proof.Machine.execNetworkStore f ans s
  | .networkRetrieve f ans value => Sys2Proof.Machine.execNetworkRetrieve f ans value s
  | .networkDelete f ans => Sys2Proof.Machine.execNetworkDelete f ans s
  | .networkExist f ans => Sys2Proof.Machine.execNetworkExist f ans s
  | .networkCompletion f => Sys2Proof.Machine.execNetworkCompletion f s
  | .helloSend => Sys2Proof.Machine.execHelloSend s
  | .helloReceive serial term claims => Sys2Proof.Machine.execHelloReceive serial term claims s
  | .electionTimeout => Sys2Proof.Machine.execElectionTimeout s
  | .leaderSilenceTimeout => Sys2Proof.Machine.execLeaderSilenceTimeout s
  | .imageBlockReceive => Sys2Proof.Machine.execImageBlockReceive s
  | .imageBlockTimeout => Sys2Proof.Machine.execImageBlockTimeout s
  | .recoveryImage signer version security => Sys2Proof.Machine.execRecoveryImage signer version security s
  | .debugFreeze who island v => Sys2Proof.Machine.execDebugFreeze who island v s
  | .debugRelease who island v => Sys2Proof.Machine.execDebugRelease who island v s
  | .trtailWrite who core v => Sys2Proof.Machine.execTrtailWrite who core v s
  | .notAnInstruction w cause => Sys2Proof.Machine.execNotAnInstruction w cause s
  | .instructionFetchFault cause addr => Sys2Proof.Machine.execInstructionFetchFault cause addr s
  | .linkTrained l => Sys2Proof.Machine.execLinkTrained l s
  | .peerModuleRequest m r => Sys2Proof.Machine.execPeerModuleRequest m r s
  | .performanceCounterOverflow h => Sys2Proof.Machine.execPerformanceCounterOverflow h s

end Sys2Proof.Machine
end

