-- ==== Sys2Proof/Machine/Schedule.lean ====
section
/-!
DEFINITION. What a step of the machine does: the events that are due before a cycle's instructions, the hart that
issues next, its fetch and its boundary, and the end of the cycle (spec/01_machine.md R20, R26, R30 to R32;
spec/12_traps.md R251; spec/13_edges.md R278, R279). The order in which things that are due at once happen is the
model's own (DESIGN CHOICE, log 8).
-/
namespace Sys2Proof.Machine

/-! ### Events that are due -/

/-- An event by its meaning. -/
abbrev Event := State → Out

/-- An event with what tells that it may be due. -/
def dueIf (c : Bool) (e : Event) : List Event := if c then [e] else []

/-- The events of a hart's queues (R113, R115, R135). -/
def queueEvents (s : State) (h : Nat) (x : Hart) : List Event :=
  if hartGated s h then []
  else
    dueIf (x.flight.any fun f => decide (f.drains ≤ s.time)) (if isWatermark x then execWatermarkStore h else execConvoyDrain h)
    ++ dueIf (x.sdest.any fun d => decide (d.at_ ≤ s.time)) (execScalarDestinationWrite h)
    ++ dueIf (!x.mq.isEmpty) (execMatrixExecute h)
    ++ dueIf (!x.vq.isEmpty && x.flight.isNone) (execConvoyIssue h)

/-- The events of a core: its stream engine and what arrives at it (R140, R158); none in a debug freeze, whose replies wait
in the skid buffer (R279). -/
def coreEvents (s : State) (c : Nat) (k : Core) : List Event :=
  if (island s (islandOfCore c)).freezeBit then [] else
  dueIf (!k.deliveries.isEmpty) (execMcastDelivery c)
  ++ dueIf (k.engine.violating.isSome || k.engine.running.any fun r => decide (r.ends ≤ timeOf s (islandOfCore c)))
      (execStreamCommandEnd c)
  ++ dueIf (!k.engine.queue.isEmpty && k.engine.running.isNone) (execStreamCommandStart c)

/-- The events of a partition's tasks, network block and reset (R212, R219, R220, R263, R271). -/
def partEvents (s : State) (v : Nat) (p : Part) : List Event :=
  p.domains.flatMap (fun d =>
    dueIf d.2.commitDue (execCommitBatch v d.1) ++ dueIf d.2.active (execHartReclaim v d.1))
  ++ dueIf (p.domains.any fun d => d.2.sent.any fun t => decide (t.1 ≤ s.time)) (execFrontierApply v)
  ++ dueIf (p.domains.any (·.2.active) && decide (p.nextExchange ≤ s.time)) (execFrontierExchange v)
  ++ dueIf (p.nqRd != p.nqWr && p.nqDone.isNone) (fun s => .next (runEntry v 0 .done (fun _ s => (s, 0)) s))
  ++ dueIf p.nqDone.isSome (execNetworkCompletion v)
  ++ dueIf (p.flr == .drain) (execFlrDrainDone v)
  ++ dueIf (p.flr == .drain && decide (65536 ≤ p.flrCycles)) (execFlrDrainTimeout v)
  ++ dueIf (p.flr == .scrub) (execFlrScrubDone v)
  ++ dueIf (p.flr == .queues) (execFlrQueuesDone v)

/-- The events of the task units (R210, R212). -/
def taskEvents (s : State) : List Event :=
  if s.tasks.isEmpty then []
  else
    (List.range 20).flatMap (fun n => [execTaskDispatch n, execTaskSpill n])
    ++ (s.tasks.filter (·.spilled)).flatMap fun e => (islandsOf s e.part).map fun n => execTaskRefill n e.dom

/-- What an island's steward has to do beside its rounds: records, packets, unmappings, placements that stalled, and
gangs to save (R184, R228, R230, R231, R238). -/
def islandEvents (n : Nat) (i : Island) : List Event :=
  dueIf (!i.completions.isEmpty) (fun s => .next (flushCompletion s n))
  ++ (i.slots.filter (·.2.look)).map (fun q => execPacketParse n q.1)
  ++ (i.slots.filter fun q => !q.2.closing.isEmpty).map (fun q s => .next (closeSlot s n q.1))
  ++ (i.gangs.filter fun g => !g.2.reserved.isEmpty).map (fun g s => .next (retryPlacement n g.1 s))
  ++ (i.gangs.filter (·.2.phase == .stopping)).map fun g => execGangPreemptSave n g.1

/-- The events of the stewards that work (R236, R255, R279); none while an access stalls at a page under migration, until
its leaf is read again (R184). -/
def stewardEvents (s : State) : List Event :=
  (List.range 20).flatMap (fun n =>
    dueIf (decide ((island s n).nextRound ≤ timeOf s n) && stewardRuns s n) (execRoundBoundary n [] [] []))
  ++ s.islands.flatMap fun p =>
    if stewardRuns s p.1 && decide (p.2.recheck ≤ s.time) then islandEvents p.1 p.2 else []

/-- The events of the module (R257, R276). -/
def moduleEvents (s : State) : List Event :=
  dueIf (!s.codes.isEmpty) execMonitorCodeTake
  ++ dueIf (!s.peers.isEmpty) execHelloSend
  ++ dueIf (s.election == .electing) execElectionTimeout
  ++ dueIf (s.election == .follower) execLeaderSilenceTimeout
  ++ dueIf (s.election == .follower) execImageBlockTimeout

/-- The event that ends a hart's wait (R20). -/
def waitEvent (h : Nat) (x : Hart) : List Event :=
  match x.wait with
  | some (.engineRoom _ _ _) => [fun s => .next (kickRoom h s)]
  | some (.swait _) => [execSwaitCheck h]
  | some (.send _ _ _ _) => [execSendDeposit h]
  | some (.recv _ _ _ _ _) => [execRecvTake h]
  | some (.gbar _) => [execGbarRelease (islandOf h) (x.gang.gang.toNat % 256)]
  | some .idle => [execIdleWake h]
  | some (.waitt _) => [execWaittExpire h]
  | some (.waitwm _ _) => [execWaitwmSatisfied h]
  | some (.fence _) => [execFenceComplete h]
  | some .mwait => [execMwaitComplete h]
  | some (.lane _ _ _ _ _) => [execLaneGrant h]
  | some (.localsplit _ _) => [execLocalsplitResize h]
  | some .tdone => [execTaskFinish h]
  | some (.migration _ _ _) => [execMigrationRecheck h]
  | _ => []

/-- The events at a hart's boundary (R179, R251, R277, R63). -/
def boundaryEvents (s : State) (h : Nat) (x : Hart) : List Event :=
  dueIf (x.timecmp.toNat ≤ timeOf s (islandOf h) % 2 ^ 64 && !bit x.ipend 2) (execTimecmpMatch h)
  ++ dueIf (x.lateFault.isSome && hartRuns s h && atBoundary x && taskGoes s h) (execLateVectorFault h)
  ++ dueIf (x.preemptReq && !x.preempted) (execPreemptionTake h)
  ++ dueIf (x.stopReq && atBoundary x && !hartGated s h) (execHartStop h)
  ++ dueIf (interruptDue s h) (execInterruptTake h)
  ++ dueIf x.boundaryTrap.isSome (takeBoundaryTrap h)

/-- The state after an event, if the event changes anything. -/
def takesEffect (s : State) (e : Event) : Option State :=
  match e s with
  | .next t => if { t with cur := s.cur } = s then none else some t
  | _ => none

/-- The state after the event that ends a hart's wait, if the wait ends. -/
def endsWait (s : State) (h : Nat) (e : Event) : Option State :=
  match e s with
  | .next t => if (hart t h).wait = (hart s h).wait ∧ (hart t h).freeze = (hart s h).freeze then none else some t
  | _ => none

/-- A wait that ends by running its instruction again: what it waited for may have come. -/
def retryDue (s : State) (h : Nat) (x : Hart) : Bool :=
  match x.wait with
  | some .vqRoom => decide (vqCount x < 64)
  | some .mqRoom => decide (x.mq.length < 32)
  | some .queues => vectorQuiet x && matrixEmpty x
  | some .vqEmpty => vectorQuiet x && !movesPending x
  | some .mqEmpty => matrixEmpty x
  | some .exposed => !exposedPending s h
  | some .vvFence => !vvPending x
  | some (.gbar _) => barrierPassed s h
  | some (.written t) => decide (t < s.time)
  | some (.shootdown t) => decide (t ≤ s.time)
  | some .conflict => true
  | some .castMask => castRegs x == []
  | some (.older n) => !(convoysOf x).any (·.seq == n) && !x.mq.any (·.seq == n)
  | some .unitRoom => decide ((island s (islandOf h)).recheck ≤ s.time)
  | _ => false

/-- The waits that end now: none of a hart that takes a pre-emption or an interrupt before the waiting instruction (R31,
R196, R251, R254). -/
def waitEnds (s : State) : Option State :=
  s.harts.findSome? fun p =>
    if p.2.wait.isNone || !waitGoes s p.1 || !taskGoes s p.1 then none
    else if retryDue s p.1 p.2 then some (onHart s p.1 fun x => { x with wait := none })
    else (waitEvent p.1 p.2).findSome? (endsWait s p.1)

/-- The kept writes of other agents that can be performed now (R217). -/
def pendingDue (s : State) : Option State :=
  if s.pendingWrites.isEmpty then none
  else
    let t := flushPending s
    if t = s then none else some t

/-- The state after the first event that is due, if one is. A wait ends before a steward's round, whose pre-emption requests
are taken at the next boundary (R31). -/
def nextInternal (s : State) : Option State :=
  (pendingDue s).or <|
  (s.harts.findSome? fun p => (queueEvents s p.1 p.2).findSome? (takesEffect s)).or <|
  (s.cores.findSome? fun p => (coreEvents s p.1 p.2).findSome? (takesEffect s)).or <|
  (s.parts.findSome? fun p => (partEvents s p.1 p.2).findSome? (takesEffect s)).or <|
  ((taskEvents s).findSome? (takesEffect s)).or <|
  (waitEnds s).or <|
  ((stewardEvents s).findSome? (takesEffect s)).or <|
  ((moduleEvents s).findSome? (takesEffect s)).or <|
  s.harts.findSome? fun p => (boundaryEvents s p.1 p.2).findSome? (takesEffect s)

/-! ### An instruction of a hart -/

/-- Run an instruction of the acting hart, unless it must wait for the mask of an MCAST (R140). One that reads a register
with uncorrectable data takes 0xC6 with TVAL 0 (R249, R253, R259); the head of a convoy does once its convoy has been
fetched and found legal (R284, R294). A register that is written holds good data again, the scalar destination of a vector
instruction when it is written itself. -/
def runInstr (i : Instr) (s : State) : Out :=
  let head := (memberOf (me s) i).isSome
  if !head && castHolds (me s) i then .next (waitOn .castMask s)
  else if (me s).badX = 0 ∧ (me s).badF = 0 then exec i s
  else if !head && consumesBad (me s) i then .next (uncorrectable 0xC6 0 s)
  else match exec i s with
    | .next t => .next (if head || (hart t s.cur).instret = (me s).instret then t else onHart t s.cur (clearWritten i))
    | r => r

/-- Run the instruction whose words were fetched (R284, R294). -/
def runWords (ws : List Nat) (s : State) : Out :=
  match decodeWords ws with
  | .ok i => runInstr i s
  | .error r => execNotAnInstruction (BitVec.ofNat 32 (ws.headD 0)) r.cause s

/-- The acting hart's next instruction: a trap that waits for this boundary, or fetch, triggers and execution. -/
def runHart (s : State) : Out :=
  match (me s).boundaryTrap with
  | some code => .next (raise code 0 (onMe s fun h => { h with boundaryTrap := none }))
  | none =>
    match fetchInstr s s.cur (me s).pc with
    | .error (s1, .trap code tval) => execInstructionFetchFault code tval s1
    | .error (s1, b) => .next (badAccess .fetch b s1)
    | .ok (s1, ws) =>
      match pcTriggers [(me s).pc] s1 with
      | .stop s2 => .next s2
      | .go s2 => runWords ws s2

/-! ### The hart that issues next (R20) -/

/-- A wait that ends when queues drain, protected tasks go, or a mask is written: an instruction that would begin one
may not issue yet (R19, R20). -/
def Wait.holdsIssue : Wait → Bool
  | .vqRoom | .mqRoom | .queues | .vqEmpty | .mqEmpty | .exposed | .vvFence | .conflict | .castMask | .older _ => true
  | _ => false

/-- The next instruction of a hart could not issue now: it would only begin to wait, or do nothing (R19, R20). -/
def wouldWait (s : State) (h : Nat) : Bool :=
  match runHart { s with cur := h } with
  | .next t => (hart t h).wait.any (·.holdsIssue) || (hart t h == hart s h && taskAt t h == taskAt s h)
  | _ => false

/-- A hart that may issue an instruction now: none while a scalar destination of its own is to be written (R115, R401). -/
def isReady (s : State) (h : Nat) : Bool :=
  let x := hart s h
  hartRuns s h && x.wait.isNone && x.sdest.isNone && !(x.flight.any (·.dest.isSome)) && !x.stopReq && x.lateFault.isNone && taskGoes s h
    && !(x.enter.isSome && x.task.isNone) && !(slotOf h ∈ (core s (coreOf h)).disabled)
    && (!preemptDue s h || isLeaving s h) && !wouldWait s h

/-- The slots of a core in round-robin order, from the one after the slot that issued last. -/
def slotOrder (s : State) (c : Nat) : List Nat :=
  match (core s c).lastSlot with
  | some l => (slotsOf c).filter (l < ·) ++ (slotsOf c).filter (· ≤ l)
  | none => slotsOf c

/-- The hart of a core that issues. -/
def pickOn (s : State) (c : Nat) : Option Nat := ((slotOrder s c).map (hartAt c)).find? (isReady s)

/-- The first core, from the place reached in this cycle on, with a hart that issues: the core and the hart. -/
def nextIssue (s : State) : Option (Nat × Nat) :=
  s.harts.findSome? fun p =>
    let c := coreOf p.1
    if p.2.started && decide (s.scan ≤ c + 1) && !(c ∈ s.early) then (pickOn s c).map fun h => (c, h) else none

/-- The hart h of the core c acts next: it takes the core's issue slot of this cycle (R20). -/
def issueSlot (c h : Nat) (s : State) : State :=
  { onCore s c (fun k => { k with lastSlot := some (slotOf h) }) with cur := h, scan := c + 2 }

/-- A core whose hart's next instruction is a TABORT: it takes effect before anything else of the cycle, so that no abort
of the same cycle takes its place (R393). -/
def abortNext (s : State) : Option (Nat × Nat) :=
  if s.tasks.isEmpty then none
  else s.harts.findSome? fun p =>
    let c := coreOf p.1
    let aborts := match leadingWord s p.1 p.2.pc with
      | .ok (_, w) => w == (encode .tabort).headD 0
      | .error _ => false
    if p.2.task.isSome && aborts && !(c ∈ s.early) && p.2.boundaryTrap.isNone && waitGoes s p.1 && pickOn s c == some p.1 then
      some (c, p.1)
    else none

/-- The hart h of the core c acts before the others of this cycle, and takes the core's issue slot. -/
def earlySlot (c h : Nat) (s : State) : State :=
  { onCore s c (fun k => { k with lastSlot := some (slotOf h) }) with cur := h, early := c :: s.early }

/-! ### A debug freeze (R279) -/

/-- A cycle that a hart's queues spend in a debug freeze does not count in their times. -/
def shiftHart (h : Hart) : Hart :=
  let dest (d : ScalarDest) : ScalarDest := { d with at_ := d.at_ + 1 }
  { h with
    flight := h.flight.map fun f => { f with
      issued := f.issued + 1, lsStart := f.lsStart + 1, drains := f.drains + 1, dest := f.dest.map dest
      trace := f.trace.map fun e => { e with at_ := e.at_ + 1 } }
    sdest := h.sdest.map dest, lastDrain := h.lastDrain + 1
    vq := h.vq.map fun c => { c with reprobe := c.reprobe.map (· + 1) }
    mq := h.mq.map fun e => { e with ends := e.ends.map (· + 1), reprobe := e.reprobe.map (· + 1) } }

/-- The same for a core's engines and its trace. -/
def shiftCore (k : Core) : Core :=
  { k with
    arrayFree := k.arrayFree + 1, loadFree := k.loadFree + 1, portFree := k.portFree + 1
    tileReady := k.tileReady.map fun p => (p.1, p.2 + 1)
    engine := { k.engine with running := k.engine.running.map fun r => { r with ends := r.ends + 1 } }
    trace := { k.trace with pending := k.trace.pending.map fun e => { e with at_ := e.at_ + 1 } } }

/-- The end of a cycle for the islands in a debug freeze. -/
def shiftFrozen (s : State) : State :=
  if !s.islands.any (·.2.freezeBit) then s
  else
    let frozen (n : Nat) : Bool := (island s n).freezeBit
    { s with
      harts := s.harts.map fun p => if frozen (islandOf p.1) then (p.1, shiftHart p.2) else p
      cores := s.cores.map fun p => if frozen (islandOfCore p.1) then (p.1, shiftCore p.2) else p }

/-! ### The end of a cycle -/

/-- Cycles of the drain of a reset, which a debug freeze of its islands does not count (R263). -/
def countDrain (s : State) (v : Nat) (p : Part) : Part :=
  if p.flr == .drain && !resetWaits s v then { p with flrCycles := p.flrCycles + 1 } else p

/-- The next cycle begins; the trace records of this one have been written (R26, R280). -/
def nextCycle (s : State) : State :=
  let t := shiftFrozen (traceFlush (traceFlights s))
  { t with time := t.time + 1, scan := 0, early := [], parts := t.parts.map fun p => (p.1, countDrain t p.1 p.2) }

/-- A convoy that has entered an empty queue in this cycle issues in it (R113, R362). -/
def lateIssue (s : State) : Option State :=
  s.harts.findSome? fun p =>
    if p.2.vq.isEmpty || p.2.flight.isSome || hartGated s p.1 then none else takesEffect s (execConvoyIssue p.1)

/-- The next instruction of this cycle, or the end of the cycle. -/
def issueNext (s : State) : Out :=
  match nextIssue s with
  | some (c, h) => runHart (issueSlot c h s)
  | none => .next ((lateIssue s).getD (nextCycle s))

/-- What happens next by itself: a TABORT, an event that is due, or an instruction. -/
def advance (s : State) : Out :=
  if s.scan = 0 then
    match abortNext s with
    | some (c, h) => runHart (earlySlot c h s)
    | none => match nextInternal s with
      | some t => .next t
      | none => issueNext s
  else issueNext s

/-- A round boundary of an island. -/
def isRound : Instr → Bool
  | .roundBoundary _ _ _ _ => true
  | _ => false

/-- The event from outside that stands first, `rest` being those behind it; what is no event is passed over (log 15). A wait
that ends now does so before a round boundary, whose pre-emption requests are taken at the next boundary (R31). -/
def takeInput (i : Instr) (rest : List Instr) (s : State) : Out :=
  match (if isRound i then waitEnds s else none) with
  | some t => .next t
  | none => if i.isEvent then exec i { s with inputs := rest } else .next { s with inputs := rest }

end Sys2Proof.Machine
end

