-- ==== Sys2Proof/Machine/Step.lean ====
section
/-!
DEFINITION. One step of the machine: an event from outside, an event that is due, one instruction of one hart, or
the end of a cycle. The interleaving is the model's own (DESIGN CHOICE, log 8).
-/
namespace Sys2Proof.Machine

/-- One step. While the clock is stopped nothing happens but a power-on reset (R257, R272). -/
def step (s : State) : Host.Outcome State Fault Refusal :=
  match s.inputs with
  | [] => if s.clockStopped then .fault .clockStopped else advance s
  | i :: rest =>
    if s.clockStopped && i != .powerOnReset then .fault .clockStopped else takeInput i rest s

/-- The state with an instruction's words where the boot hart fetches next, as its bytes are stored (R4, R283); the
bits of the word above the table's are zero. Its L1I and its loop buffer hold no older copy of them. -/
def State.withFetchWord (s : State) (nbits w : Nat) : State :=
  let pc := (hart s bootHart).pc.toNat
  let held (x : CodeLine) : Bool := decide (pc < 64 * (x.line + 1)) && decide (64 * x.line < pc + 12)
  let s0 := if (hart s bootHart).body.isNone then s else onHart s bootHart fun h => { h with body := none }
  let s1 := if (core s (coreOf bootHart)).l1i.any held then
      onCore s0 (coreOf bootHart) fun k => { k with l1i := k.l1i.filter (!held ·) }
    else s0
  { s1 with mem := memWriteBytes s.mem pc (bytesOfNat 12 (w % 2 ^ nbits)) }

end Sys2Proof.Machine
end

