-- ==== Sys2Proof/Safety.lean ====
section
/-!
DEFINITION. What claims say of steps and runs: a run that goes on, what a step leaves as it was, and the shapes in which
the acting hart's instructions end.
-/
namespace Sys2Proof.Machine

/-! ### Runs -/

/-- A step goes on to a next state. -/
def GoesOn (s : State) : Prop := ∃ t, step s = .next t

/-- A run of n steps is safe: every step goes on. -/
def SafeRun (n : Nat) (s : State) : Prop := ∃ t, Host.Core.run Sys2Proof.core n s = .next t

/-- Physical memory and every B-store sidecar stand in the canonical form. -/
def Canonical (s : State) : Prop :=
  Memory.wf s.mem = true ∧ ∀ c, Memory.wf (core s c).bsc = true

/-! ### What a step leaves as it was -/

/-- Every byte of physical memory reads as before. -/
def MemoryKept (s t : State) : Prop := ∀ a, memRead t.mem a = memRead s.mem a

/-- Every byte of physical memory outside a list of addresses reads as before. -/
def MemoryKeptBut (as : List Nat) (s t : State) : Prop := ∀ a, a ∉ as → memRead t.mem a = memRead s.mem a

/-- No hart, core or island holds a value that its register's rule reserves (R54, R57, R60, R266). -/
def FieldsLegal (s : State) : Prop :=
  (∀ h, (hart s h).pmode ≠ 3 ∧ (hart s h).epc.toNat % 4 = 0 ∧ (hart s h).tvec.toNat % 4 ≤ 1 ∧
    ∀ d v, (hart s h).wait = some (.localsplit d v) → v.toNat % 8 ≤ 4) ∧
  (∀ c, (core s c).split.toNat ≤ 4) ∧ ∀ n, (hn : n < 20) → s.tags[n].toNat < 4 ∨ s.tags[n].toNat = 7

/-- P of a state that differs from s in the copies its data caches and directories hold, and in nothing else (R145,
R148). -/
def UpToCaches (s : State) (P : State → Prop) : Prop := ∃ c, P { s with caches := c }

/-- Every hart but one is as before. -/
def HartsKeptBut (h : Nat) (s t : State) : Prop := ∀ k, k ≠ h → hart t k = hart s k

/-- Nothing outside the acting hart changes: no other hart, core, island or partition, no task, no byte of memory. -/
def OnlyActing (s t : State) : Prop :=
  t = { s with harts := t.harts } ∧ HartsKeptBut s.cur s t ∧ MemoryKept s t

/-! ### How an instruction of the acting hart ends -/

/-- The instruction has written v to x register d and gone on: x0 keeps reading zero, every other register, every flag,
every special register and everything outside the hart is as before. -/
def WroteX (s t : State) (d : Reg) (v : Word) : Prop :=
  OnlyActing s t ∧ (∀ r, getX (me t) r = if r = d ∧ d ≠ 0 then v else getX (me s) r) ∧
  me t = { me s with x := (me t).x, pc := (me s).pc + 4, instret := (me s).instret + 1, wait := none }

/-- The instruction has written v to f register d, merged flags into FPCTL and gone on. -/
def WroteF (s t : State) (d : Reg) (v : Word) (fl : BitVec 6) : Prop :=
  OnlyActing s t ∧ (∀ r, getF (me t) r = if r = d then v else getF (me s) r) ∧
  me t = { me s with f := (me t).f, flags := (me s).flags ||| fl, pc := (me s).pc + 4,
                     instret := (me s).instret + 1, wait := none }

/-- The instruction has written v to x register d, merged flags into FPCTL and gone on. -/
def WroteXFlags (s t : State) (d : Reg) (v : Word) (fl : BitVec 6) : Prop :=
  OnlyActing s t ∧ (∀ r, getX (me t) r = if r = d ∧ d ≠ 0 then v else getX (me s) r) ∧
  me t = { me s with x := (me t).x, flags := (me s).flags ||| fl, pc := (me s).pc + 4,
                     instret := (me s).instret + 1, wait := none }

/-- The instruction has gone on to a PC, and no register of the hart but its PC and its count of instructions has
changed. -/
def WentTo (s t : State) (pc : Word) : Prop :=
  OnlyActing s t ∧ me t = { me s with pc := pc, instret := (me s).instret + 1, wait := none }

/-- The acting hart has taken a trap at its own PC, and nothing else has changed. -/
def Trapped (s t : State) (code : Byte) (tval : Word) : Prop :=
  OnlyActing s t ∧ me t = trapHart code 0 tval (me s).pc (me s)

/-- The acting hart runs no task that is still speculative (R339), so that nothing holds its irrevocable actions and its
traps are taken at once. -/
def Settled (s : State) : Prop := speculative s = false

/-- The acting hart waits for w at the same instruction, and nothing else has changed. -/
def Waits (s t : State) (w : Wait) : Prop := OnlyActing s t ∧ me t = { me s with wait := some w }

/-- An instruction completes: its step answers a next state, of which P holds. -/
def Completes (i : Instr) (s : State) (P : State → Prop) : Prop := ∃ t, exec i s = .next t ∧ P t

end Sys2Proof.Machine
end

