-- ==== Sys2Proof/Certificates/Slice0/Obligations.lean ====
section
/-!
DEFINITION. The statements for the provers: each is a Prop, and none is proved here. The functions of the namespace
Claim say, apart from the model where that can be, what the rules give.
-/
section
open Sys2Proof Sys2Proof.Machine

namespace Sys2Proof.Claim

/-! ### Integer results (R342, R366, R311, R429) -/

/-- An integer modulo 2⁶⁴. -/
def mod64 (n : Int) : Word := BitVec.ofInt 64 n
/-- 1 where a condition holds, 0 elsewhere. -/
def oneIf (p : Prop) [Decidable p] : Word := if p then 1 else 0
/-- n rotated left by k places, as numbers below 2⁶⁴. -/
def rotated (n k : Nat) : Word := BitVec.ofNat 64 (n * 2 ^ k % 2 ^ 64 + n / 2 ^ (64 - k))

/-- The destination and the value that R342, R366, R311 and R429 give each scalar integer instruction, in exact
arithmetic on the operands' values. -/
def integerResult (s : State) : Instr → Option (Reg × Word)
  | .addImm d a i => some (d, mod64 (sx a + i.toInt))
  | .andImm d a i => some (d, rx s a &&& mod64 i.toInt)
  | .orImm d a i => some (d, rx s a ||| mod64 i.toInt)
  | .xorImm d a i => some (d, rx s a ^^^ mod64 i.toInt)
  | .sltImm d a i => some (d, oneIf (sx a < i.toInt))
  | .sltuImm d a i => some (d, oneIf (ux a < (mod64 i.toInt).toNat))
  | .shlImm d a i => some (d, mod64 (ux a * 2 ^ i.toNat))
  | .shrImm d a i => some (d, mod64 (ux a / 2 ^ i.toNat))
  | .sarImm d a i => some (d, mod64 (sx a / 2 ^ i.toNat))
  | .rolImm d a i => some (d, rotated (ux a) i.toNat)
  | .rorImm d a i => some (d, rotated (ux a) ((64 - i.toNat) % 64))
  | .minImm d a i => some (d, mod64 (min (sx a) i.toInt))
  | .minuImm d a i => some (d, mod64 (min (ux a) (mod64 i.toInt).toNat))
  | .maxImm d a i => some (d, mod64 (max (sx a) i.toInt))
  | .maxuImm d a i => some (d, mod64 (max (ux a) (mod64 i.toInt).toNat))
  | .add d a b => some (d, mod64 (sx a + sx b))
  | .sub d a b => some (d, mod64 (sx a - sx b))
  | .and d a b => some (d, rx s a &&& rx s b)
  | .or d a b => some (d, rx s a ||| rx s b)
  | .xor d a b => some (d, rx s a ^^^ rx s b)
  | .shl d a b => some (d, mod64 (ux a * 2 ^ (ux b % 64)))
  | .shr d a b => some (d, mod64 (ux a / 2 ^ (ux b % 64)))
  | .sar d a b => some (d, mod64 (sx a / 2 ^ (ux b % 64)))
  | .rol d a b => some (d, rotated (ux a) (ux b % 64))
  | .ror d a b => some (d, rotated (ux a) ((64 - ux b % 64) % 64))
  | .slt d a b => some (d, oneIf (sx a < sx b))
  | .sltu d a b => some (d, oneIf (ux a < ux b))
  | .min d a b => some (d, mod64 (min (sx a) (sx b)))
  | .minu d a b => some (d, mod64 (min (ux a) (ux b)))
  | .max d a b => some (d, mod64 (max (sx a) (sx b)))
  | .maxu d a b => some (d, mod64 (max (ux a) (ux b)))
  | .mul d a b => some (d, mod64 (sx a * sx b))
  | .mulh d a b => some (d, mod64 (sx a * sx b / 2 ^ 64))
  | .mulhu d a b => some (d, mod64 (ux a * ux b / 2 ^ 64))
  | .div d a b => some (d, if sx b = 0 then mod64 (-1) else mod64 ((sx a).tdiv (sx b)))
  | .divu d a b => some (d, if ux b = 0 then mod64 (2 ^ 64 - 1) else mod64 (ux a / ux b))
  | .rem d a b => some (d, if sx b = 0 then rx s a else mod64 (sx a - sx b * (sx a).tdiv (sx b)))
  | .remu d a b => some (d, if ux b = 0 then rx s a else mod64 (ux a % ux b))
  | .clz d a => some (d, mod64 ((List.range 64).takeWhile fun i => !(rx s a).getLsbD (63 - i)).length)
  | .ctz d a => some (d, mod64 ((List.range 64).takeWhile fun i => !(rx s a).getLsbD i).length)
  | .popc d a => some (d, mod64 ((List.range 64).filter fun i => (rx s a).getLsbD i).length)
  | .exts d a q => some (d, mod64 ((ux a : Int).bmod (2 ^ q.bits)))
  | .extz d a q => some (d, mod64 (ux a % 2 ^ q.bits))
  | .select d a b => some (d, if ux d ≠ 0 then rx s a else rx s b)
  | .bswap d a q =>
    let n := q.bits / 8
    some (d, mod64 ((List.range n).map fun i => (ux a / 2 ^ (8 * (n - 1 - i)) % 256) * 2 ^ (8 * i)).sum)
  | .ldhi d i => some (d, mod64 (i.toInt * 65536))
  | .addpc d i => some (d, mod64 ((me s).pc.toNat + i.toInt * 65536))
  | _ => none
where
  sx (r : Reg) : Int := (rx s r).toInt
  ux (r : Reg) : Nat := (rx s r).toNat
/-! ### Floating point (R65, R66, R73, R345, R347) -/

/-- The floating-point types an element may have (R65). -/
def floatTypes : List Ty := [.df, .sf, .hf, .bf, .e4, .e5, .f6a, .f6b, .f4]
/-- An encoding stands for a finite number. -/
def IsFinite (f : Fmt) (e : Nat) : Prop := e < 2 * f.signBit ∧ e % f.signBit ≤ f.maxEnc
/-- The real number of a finite encoding: sign, exponent field and fraction as R65 and R66 read them. -/
noncomputable def realOf (f : Fmt) (e : Nat) : ℝ :=
  let mag := e % f.signBit
  let ex := mag / 2 ^ f.mbits
  let fr := mag % 2 ^ f.mbits
  (if e / f.signBit % 2 = 1 then -1 else 1) * (if ex = 0 then fr else 2 ^ f.mbits + fr)
    * (2 : ℝ) ^ ((max ex 1 : Int) - f.bias - f.mbits)
/-- A number that a format holds at its precision, with no bound above its exponent, nor below it unless `low` says that
its subnormals end there (R73, R74). -/
def OnGrid (f : Fmt) (low : Bool) (x : ℝ) : Prop :=
  ∃ (n : Nat) (q : ℤ), |x| = n * (2 : ℝ) ^ q ∧ n < 2 ^ (f.mbits + 1) ∧ (low = true → 1 - (f.bias : ℤ) - f.mbits ≤ q)
/-- Such a number whose least significant fraction bit is 0. -/
def EvenOnGrid (f : Fmt) (low : Bool) (x : ℝ) : Prop :=
  ∃ (n : Nat) (q : ℤ), |x| = n * (2 : ℝ) ^ q ∧ n < 2 ^ (f.mbits + 1) ∧ n % 2 = 0 ∧
    ((low = true → 1 - (f.bias : ℤ) - f.mbits ≤ q) ∧ (2 ^ f.mbits ≤ n ∨ (low = true ∧ q = 1 - (f.bias : ℤ) - f.mbits)))
/-- x is what a rounding mode, or a draw under 0b101, makes of an exact value that is not zero (R73, R75). -/
def RoundsTo (f : Fmt) (low : Bool) (rm : BitVec 3) (draw : Option Nat) (v x : ℝ) : Prop :=
  OnGrid f low x ∧ 0 ≤ x * v ∧
  match rm.toNat, draw with
  | 1, _ => |x| ≤ |v| ∧ ∀ p, OnGrid f low p → |p| ≤ |v| → |p| ≤ |x|
  | 2, _ => x ≤ v ∧ ∀ p, OnGrid f low p → p ≤ v → p ≤ x
  | 3, _ => v ≤ x ∧ ∀ p, OnGrid f low p → v ≤ p → x ≤ p
  | 4, _ => ∀ p, OnGrid f low p → |v - x| < |v - p| ∨ (|v - x| = |v - p| ∧ |p| ≤ |x|)
  | _, none => ∀ p, OnGrid f low p → |v - x| < |v - p| ∨ (|v - x| = |v - p| ∧ (p = x ∨ EvenOnGrid f low x))
  | _, some h => (OnGrid f low v → x = v) ∧ (¬OnGrid f low v → ∃ lo hi : ℝ, OnGrid f low lo ∧ OnGrid f low hi ∧ 0 ≤ lo * v ∧
      0 < hi * v ∧ |lo| < |v| ∧ |v| < |hi| ∧ (∀ p, OnGrid f low p → |p| ≤ |lo| ∨ |hi| ≤ |p|) ∧
      ((h : ℤ) < ⌊(|v| - |lo|) / (|hi| - |lo|) * 2 ^ 32⌋ → x = hi) ∧
      (⌊(|v| - |lo|) / (|hi| - |lo|) * 2 ^ 32⌋ ≤ (h : ℤ) → x = lo))
/-- A result delivers an exact value v that is not zero, `w` being what it is to be compared with for exactness: rounded,
checked against the range, with the flags of R74 and R78; `clamps` says that an infinity is clamped too (R83). A value above
the largest magnitude is rounded with no draw (R75). -/
def Delivers (f : Fmt) (rm : BitVec 3) (draw : Option Nat) (clamps : Bool) (v w : ℝ) (r : FRes) : Prop :=
  let top := realOf f f.maxEnc
  let inf := f.kind = .ieee ∧ clamps = false
  ∃ (x y : ℝ) (d : Option Nat), (|v| ≤ top → d = draw) ∧ (top < |v| → d = none) ∧
    RoundsTo f true rm d v x ∧ RoundsTo f false rm d v y ∧
    r.enc < 2 * f.signBit ∧ (r.enc / f.signBit = 1 ↔ v < 0) ∧
    (|x| ≤ top → IsFinite f r.enc ∧ realOf f r.enc = x) ∧
    (top < |x| → (¬inf ∨ rm = 1 ∨ (rm = 2 ∧ 0 < v) ∨ (rm = 3 ∧ v < 0) → r.enc % f.signBit = f.maxEnc) ∧
      (inf → ¬(rm = 1 ∨ (rm = 2 ∧ 0 < v) ∨ (rm = 3 ∧ v < 0)) → r.enc % f.signBit = f.infEnc)) ∧
    (r.fl &&& fOF = 0 ↔ |x| ≤ top) ∧ (r.fl &&& fSAT = 0 ↔ |x| ≤ top ∨ inf) ∧
    (r.fl &&& fNX = 0 ↔ IsFinite f r.enc ∧ realOf f r.enc = w) ∧
    (r.fl &&& fUF = 0 ↔ r.fl &&& fNX = 0 ∨ (2 : ℝ) ^ (1 - (f.bias : ℤ)) ≤ |y|) ∧ r.fl &&& (fNV ||| fDZ) = 0
/-- A result delivers an exact value, where that is not zero. -/
def DeliversRounded (f : Fmt) (rm : BitVec 3) (v : ℝ) (r : FRes) : Prop := v ≠ 0 → Delivers f rm none false v v r

/-- What an encoding stands for (R66, R68). -/
inductive Reading where
  | num (v : ℝ) (neg : Bool)
  | inf (neg : Bool)
  | nan (signalling : Bool)
/-- What an encoding of a format stands for. -/
noncomputable def reading (f : Fmt) (e : Nat) : Reading :=
  let neg := decide (e / f.signBit % 2 = 1)
  if e % f.signBit ≤ f.maxEnc then .num (realOf f e) neg
  else if f.kind = .ieee ∧ e % f.signBit = f.infEnc then .inf neg
  else .nan (decide (f.kind = .ieee ∧ e % 2 ^ f.mbits < 2 ^ (f.mbits - 1)))
/-- A value times 2^q; a special value stays. -/
noncomputable def Reading.times (q : ℤ) : Reading → Reading
  | .num v neg => .num (v * (2 : ℝ) ^ q) neg
  | x => x
/-- The element of an MX block under its scale (R69, R70). -/
noncomputable def scaledReading (t : Ty) (scale e : Nat) : Reading :=
  if scale = 255 then .nan false else (reading (fmtOf t) e).times ((scale : ℤ) - 127)
/-- A flag where a condition holds, else none. -/
def raised (b : Bool) (fl : BitVec 6) : BitVec 6 := if b then fl else 0
/-- A magnitude with a sign. -/
def signedEnc (f : Fmt) (neg : Bool) (mag : Nat) : Nat := if neg then mag + f.signBit else mag
/-- A result is the conversion of a value to a floating-point format (R68, R77, R78, R80). -/
def Converts (f : Fmt) (rm : BitVec 3) (draw : Option Nat) (clamps : Bool) (x : Reading) (r : FRes) : Prop :=
  match x with
  | .num v neg => (v = 0 → r = ⟨signedEnc f neg 0, 0⟩) ∧ (v ≠ 0 → Delivers f rm draw clamps v v r)
  | .inf neg => r = if f.kind = .ieee then ⟨signedEnc f neg f.infEnc, 0⟩ else ⟨signedEnc f neg f.maxEnc, fSAT⟩
  | .nan sig => r = if f.kind = .finite then ⟨0, fNV⟩ else ⟨f.nanEnc, raised sig fNV⟩
/-- A result is the sum of two values under IEEE 754-2019, `w` being the exact sum it is compared with (R68, R93). -/
def Adds (f : Fmt) (rm : BitVec 3) (x y : Reading) (w : ℝ) (r : FRes) : Prop :=
  match x, y with
  | .nan s, .nan t => r = ⟨f.nanEnc, raised (s || t) fNV⟩
  | .nan s, _ | _, .nan s => r = ⟨f.nanEnc, raised s fNV⟩
  | .inf a, .inf b => r = if a = b then ⟨signedEnc f a f.infEnc, 0⟩ else ⟨f.nanEnc, fNV⟩
  | .inf a, .num _ _ | .num _ _, .inf a => r = ⟨signedEnc f a f.infEnc, 0⟩
  | .num u a, .num v b =>
    (u + v = 0 → r.enc = signedEnc f (if a = b then a else rm == 2) 0 ∧ (w = 0 → r.fl = 0) ∧ (w ≠ 0 → r.fl = fNX)) ∧
      (u + v ≠ 0 → Delivers f rm none false (u + v) w r)
/-- The number of a value. -/
def Reading.val : Reading → ℝ
  | .num v _ => v
  | _ => 0
/-- A rounded sum of two values. -/
def AddsExactly (f : Fmt) (rm : BitVec 3) (x y : Reading) (r : FRes) : Prop := Adds f rm x y (x.val + y.val) r

/-! ### Sums of many terms (R88 to R95) -/

/-- The window sum of terms, of so many fraction bits (R89). -/
def IsWindowSum (frac : Nat) (ts : List ℝ) (s : ℝ) : Prop :=
  ((∀ t ∈ ts, t = 0) ∧ s = 0) ∨ ∃ m : ℤ, (∃ t ∈ ts, (2 : ℝ) ^ m ≤ |t|) ∧ (∀ t ∈ ts, |t| < (2 : ℝ) ^ (m + 1)) ∧
    s = (ts.map fun t => t / |t| * ⌊|t| / (2 : ℝ) ^ (m - frac)⌋ * (2 : ℝ) ^ (m - frac)).sum
/-- A term is a NaN, or two of them are opposing infinities (R88 step 1). -/
def BadSum (l : List Reading) : Prop := (∃ s, Reading.nan s ∈ l) ∨ (Reading.inf true ∈ l ∧ Reading.inf false ∈ l)
/-- The sum of such a list raises NV. -/
def SignalsSum (l : List Reading) : Prop := Reading.nan true ∈ l ∨ (Reading.inf true ∈ l ∧ Reading.inf false ∈ l)
/-- Every term is a number. -/
def AllNumbers (l : List Reading) : Prop := ∀ x ∈ l, ∃ v n, x = .num v n
/-- What the combination of a tree's places holds: a value or none, and the flags so far (R93). -/
abbrev Place : Type := Option Reading × BitVec 6
/-- Two places combined: a rounded sum where both are present, else the one that is. -/
def Pairs (f : Fmt) (rm : BitVec 3) (p q r : Place) : Prop :=
  match p.1, q.1 with
  | some x, some y => ∃ z, AddsExactly f rm x y z ∧ r = (some (reading f z.enc), p.2 ||| q.2 ||| z.fl)
  | none, y => r = (y, p.2 ||| q.2)
  | x, none => r = (x, p.2 ||| q.2)
/-- The update of an accumulator by a block of eight elements, absent ones `none` (R93). -/
def Block (nbv : Nat) (f : Fmt) (rm : BitVec 3) (acc : Nat) (xs : Nat → Option Reading) (r : FRes) : Prop :=
  ((∀ j, j < 8 → xs j = none) → r = ⟨acc, 0⟩) ∧ ((∃ j, j < 8 ∧ xs j ≠ none) →
    match nbv with
    | 1 => ∃ a : Nat → FRes, a 0 = ⟨acc, 0⟩ ∧ r = a 8 ∧ ∀ j, j < 8 → match xs j with
        | none => a (j + 1) = a j
        | some x => ∃ z, AddsExactly f rm (reading f (a j).enc) x z ∧ a (j + 1) = ⟨z.enc, (a j).fl ||| z.fl⟩
    | 2 => ∃ p : Nat → Place, (∀ j, j < 8 → p (8 + j) = (xs j, 0)) ∧
        (∀ j, 1 ≤ j → j < 8 → Pairs f rm (p (2 * j)) (p (2 * j + 1)) (p j)) ∧
        ∃ t z, (p 1).1 = some t ∧ AddsExactly f rm (reading f acc) t z ∧ r = ⟨z.enc, (p 1).2 ||| z.fl⟩
    | _ =>
      let l := reading f acc :: (List.range 8).filterMap xs
      let exact := (l.map Reading.val).sum
      (BadSum l → r.enc = f.nanEnc ∧ (SignalsSum l → r.fl = fNV) ∧ (¬SignalsSum l → r.fl = 0)) ∧
      (¬BadSum l → ∀ b, Reading.inf b ∈ l → r = ⟨signedEnc f b f.infEnc, 0⟩) ∧
      (AllNumbers l → ∃ s, IsWindowSum (if f = fmtDf then 106 else 42) (l.map Reading.val) s ∧
        (s = 0 → (∀ neg, neg = true ↔ ((∀ x ∈ l, x = .num 0 true) ∨ rm = 2) → r.enc = signedEnc f neg 0) ∧
          (exact = 0 → r.fl = 0) ∧ (exact ≠ 0 → r.fl = fNX)) ∧
        (s ≠ 0 → Delivers f rm none false s exact r)))
/-- A reduction of n elements, block by block (R92, R93). -/
def Folds (nbv : Nat) (f : Fmt) (rm : BitVec 3) (acc n : Nat) (el : Nat → Option Reading) (r : FRes) : Prop :=
  ∃ a : Nat → FRes, a 0 = ⟨acc, 0⟩ ∧ r = a ((n + 7) / 8) ∧
    ∀ b, b < (n + 7) / 8 → ∃ z, Block nbv f rm (a b).enc (fun j => el (8 * b + j)) z ∧ a (b + 1) = ⟨z.enc, (a b).fl ||| z.fl⟩
/-- A scan of n elements: `w` is what each present one is written, `a` the accumulator before each block (R94). -/
def Scans (nbv : Nat) (f : Fmt) (rm : BitVec 3) (acc n : Nat) (el : Nat → Option Reading) (w : Nat → FRes) (a : Nat → Nat) : Prop :=
  a 0 = acc ∧
  (∀ i, i < n → el i ≠ none → Block nbv f rm (a (i / 8)) (fun j => if j ≤ i % 8 then el (8 * (i / 8) + j) else none) (w i)) ∧
  ∀ b, b < (n + 7) / 8 → ((∀ j, j < 8 → el (8 * b + j) = none) → a (b + 1) = a b) ∧
    ∀ j, j < 8 → el (8 * b + j) ≠ none → (∀ k, j < k → k < 8 → el (8 * b + k) = none) → a (b + 1) = (w (8 * b + j)).enc
/-- One value stands before or beside another, −0 below +0 (R95). -/
def AtMost : Reading → Reading → Prop
  | .inf true, _ | _, .inf false => True
  | .num u a, .num v b => u < v ∨ (u = v ∧ (a = true ∨ b = false))
  | _, _ => False
/-- A result is the least or the greatest of values, NaNs left out (R95). -/
def Selects (isMax : Bool) (f : Fmt) (l : List Reading) (r : FRes) : Prop :=
  let good (x : Reading) : Prop := x ∈ l ∧ ∀ s, x ≠ .nan s
  r.enc < 2 * f.signBit ∧ (Reading.nan true ∈ l → r.fl = fNV) ∧ (Reading.nan true ∉ l → r.fl = 0) ∧
  ((∀ x, ¬good x) → r.enc = f.nanEnc) ∧
  ((∃ x, good x) → good (reading f r.enc) ∧
    ∀ y, good y → if isMax then AtMost y (reading f r.enc) else AtMost (reading f r.enc) y)
open Classical in
/-- The exact product of two values; zero times infinity counts as a signalling NaN, since it raises NV (R88). -/
noncomputable def Reading.mul : Reading → Reading → Reading
  | .nan s, .nan t => .nan (s || t)
  | .nan s, _ | _, .nan s => .nan s
  | .inf a, .inf b => .inf (a != b)
  | .inf a, .num v b | .num v b, .inf a => if v = 0 then .nan true else .inf (a != b)
  | .num u a, .num v b => .num (u * v) (a != b)
/-- A group's products fold into an FP32 accumulator (R88 to R90). -/
def FoldsGroup (nbv : Nat) (rm : BitVec 3) (c : Nat) (ps : List Reading) (r : FRes) : Prop :=
  let f := fmtSf
  (BadSum ps → ∃ z, AddsExactly f rm (reading f c) (.nan false) z ∧ r.enc = z.enc ∧
    (SignalsSum ps → r.fl = z.fl ||| fNV) ∧ (¬SignalsSum ps → r.fl = z.fl)) ∧
  (¬BadSum ps → ∀ b, Reading.inf b ∈ ps → AddsExactly f rm (reading f c) (.inf b) r) ∧
  (AllNumbers ps → ∃ s, IsWindowSum (if nbv = 1 then 28 else if nbv = 2 then 34 else 49) (ps.map Reading.val) s ∧
    (s = 0 → r = ⟨c, 0⟩) ∧
    (s ≠ 0 → ∀ neg, (neg = true ↔ s < 0) →
      ∃ z, Adds f rm (reading f c) (.num s neg) ((reading f c).val + (ps.map Reading.val).sum) z ∧
      let mag := z.enc % f.signBit
      r = if nbv = 1 ∧ 0 < mag ∧ mag < 2 ^ 23 then ⟨z.enc - mag, z.fl ||| fUF ||| fNX⟩ else z))
/-- The dot product of so many positions, group by group (R89, R90). -/
def Dots (nbv : Nat) (rm : BitVec 3) (c n : Nat) (p : Nat → Reading) (r : FRes) : Prop :=
  let g := if nbv = 1 then 4 else if nbv = 2 then 16 else 32
  ∃ a : Nat → FRes, a 0 = ⟨c, 0⟩ ∧ r = a ((n + g - 1) / g) ∧
    ∀ k, k < (n + g - 1) / g → ∃ z, FoldsGroup nbv rm (a k).enc ((List.range (min g (n - g * k))).map fun j => p (g * k + j)) z ∧
      a (k + 1) = ⟨z.enc, (a k).fl ||| z.fl⟩

/-- The integer that an element of a type encodes (R71). -/
def asInt (t : Ty) (e : Nat) : Int := if t.isSigned then (e : Int).bmod (2 ^ t.bits) else (e % 2 ^ t.bits : Nat)
/-- An integer wrapped to a type, with no flag. -/
def wrapped (t : Ty) (v : Int) : FRes := ⟨(v % (2 : Int) ^ t.bits).toNat, 0⟩
/-- The least integer of a type. -/
def leastInt (t : Ty) : Int := if t.isSigned then -(2 : Int) ^ (t.bits - 1) else 0
/-- The greatest integer of a type. -/
def greatestInt (t : Ty) : Int := if t.isSigned then (2 : Int) ^ (t.bits - 1) - 1 else (2 : Int) ^ t.bits - 1
/-- An integer clamped to the range of a type, with SAT where it was outside (R71). -/
def clamped (t : Ty) (v : Int) : FRes :=
  if v < leastInt t then ⟨(wrapped t (leastInt t)).enc, fSAT⟩
  else if greatestInt t < v then ⟨(wrapped t (greatestInt t)).enc, fSAT⟩ else wrapped t v
/-- An exact value rounded to an integer; 0b101 rounds to nearest even (R79). -/
def RoundsToInt (rm : BitVec 3) (v : ℝ) (n : ℤ) : Prop :=
  match rm.toNat with
  | 1 => |(n : ℝ)| ≤ |v| ∧ |v| < |(n : ℝ)| + 1 ∧ 0 ≤ n * v
  | 2 => n = ⌊v⌋
  | 3 => n = ⌈v⌉
  | 4 => |v - n| ≤ 1 / 2 ∧ (|v - n| = 1 / 2 → |v| < |(n : ℝ)|)
  | _ => |v - n| ≤ 1 / 2 ∧ (|v - n| = 1 / 2 → n % 2 = 0)
/-- A result is the conversion of a value to an integer type (R79). -/
def ConvertsToInt (t : Ty) (rm : BitVec 3) (x : Reading) (r : FRes) : Prop :=
  match x with
  | .num v _ => ∃ n, RoundsToInt rm v n ∧
      (leastInt t ≤ n ∧ n ≤ greatestInt t → r.enc = (wrapped t n).enc ∧ (n = v → r.fl = 0) ∧ (n ≠ v → r.fl = fNX)) ∧
      (¬(leastInt t ≤ n ∧ n ≤ greatestInt t) → r = ⟨(clamped t n).enc, fNV ||| fSAT⟩)
  | .inf neg => r = ⟨(wrapped t (if neg then leastInt t else greatestInt t)).enc, fNV ||| fSAT⟩
  | .nan _ => r = ⟨0, fNV ||| fSAT⟩
/-- What an encoding of a type of either kind stands for. -/
noncomputable def readingOf (t : Ty) (e : Nat) : Reading :=
  if t.isAnyFp then reading (fmtOf t) e else .num (asInt t e) (decide (asInt t e < 0))
/-- The integer types of elements (R71). -/
def integerTypes : List Ty := [.b, .h, .w, .d, .bu, .hu, .wu, .du, .i4]
/-- The draw of element i under a seed (R75). -/
def drawFrom (seed i : Nat) : Nat :=
  let x0 := (seed + i) % 2 ^ 64
  let x1 := (x0 ^^^ x0 / 2 ^ 33) * 0xFF51AFD7ED558CCD % 2 ^ 64
  let x2 := (x1 ^^^ x1 / 2 ^ 33) * 0xC4CEB9FE1A85EC53 % 2 ^ 64
  (x2 ^^^ x2 / 2 ^ 33) % 2 ^ 32
/-- Two numbers so close that every number of 40 significant bits has the same place beside both, or within 2^−300 of their
size. -/
def Near (v x : ℝ) : Prop :=
  |x - v| ≤ (2 : ℝ) ^ (-300 : ℤ) * |v| ∨
    ∀ n q : ℤ, |n| < 2 ^ 40 → ((n * (2 : ℝ) ^ q < v ↔ n * (2 : ℝ) ^ q < x) ∧ (v < n * (2 : ℝ) ^ q ↔ x < n * (2 : ℝ) ^ q))
/-- A NaN encoding of a format that has NaNs. -/
def IsNan (f : Fmt) (e : Nat) : Prop := e < 2 * f.signBit ∧ f.kind = .ieee ∧ f.infEnc < e % f.signBit
/-- A signalling NaN has the top bit of its fraction clear (R68). -/
def IsSignalling (f : Fmt) (e : Nat) : Prop := IsNan f e ∧ e % 2 ^ f.mbits < 2 ^ (f.mbits - 1)
/-- An infinity. -/
def IsInf (f : Fmt) (e : Nat) : Prop := e < 2 * f.signBit ∧ f.kind = .ieee ∧ e % f.signBit = f.infEnc
/-- A zero. -/
def IsZero (f : Fmt) (e : Nat) : Prop := e = 0 ∨ e = f.signBit
/-- The sign of an encoding, as a number. -/
def signOf (f : Fmt) (e : Nat) : Nat := e / f.signBit
/-- The infinity with the sign that a product or quotient has. -/
def infOf (f : Fmt) (a b : Nat) : Nat := f.infEnc + (signOf f a + signOf f b) % 2 * f.signBit
/-- The canonical NaN with NV. -/
def invalid (f : Fmt) : FRes := ⟨f.nanEnc, fNV⟩

/-- The operand of a type in an f register: its low bits if every bit above them is 1, else the canonical NaN (R344). -/
def unboxed (t : Ty) (v : Word) : Nat :=
  if v.toNat / 2 ^ t.bits = 2 ^ (64 - t.bits) - 1 then v.toNat % 2 ^ t.bits else (fmtOf t).nanEnc
/-- The operand of a type in an f register of the acting hart. -/
def fOperand (s : State) (t : Ty) (r : Reg) : Nat := unboxed t (rf s r)
/-- A result of a type as an f register receives it: every bit above it is 1 (R344). -/
def fBoxed (t : Ty) (e : Nat) : Word := BitVec.ofNat 64 (2 ^ 64 - 2 ^ t.bits + e % 2 ^ t.bits)
/-- An encoding with its sign bit replaced. -/
def withSignBit (t : Ty) (x : Nat) (neg : Bool) : Nat := x % 2 ^ (t.bits - 1) + if neg then 2 ^ (t.bits - 1) else 0
/-- The kind that FCLASS names (R345). -/
def classNumber (f : Fmt) (e : Nat) : Nat :=
  let ex := e % f.signBit / 2 ^ f.mbits
  let fr := e % 2 ^ f.mbits
  if ex = 2 ^ f.ebits - 1 then (if fr = 0 then 3 else if 2 ^ (f.mbits - 1) ≤ fr then 4 else 5)
  else if ex = 0 then (if fr = 0 then 0 else 1) else 2

/-- The scalar floating-point instructions that round, so that RM must be legal for them (R344). -/
def roundsScalar : Instr → Bool
  | .fadd .. | .fsub .. | .fmul .. | .fdiv .. | .fsqrt .. | .fma .. | .fmaS .. | .fmaN .. | .fmaNs ..
  | .fcvtToFloat .. | .fcvtToInteger .. => true
  | _ => false

/-- The scalar floating-point instructions (R343). -/
def isScalarFloat : Instr → Bool
  | .fmin .. | .fmax .. | .fcmpEq .. | .fcmpLt .. | .fcmpLe .. | .fclass .. | .fsgnJ .. | .fsgnN .. | .fsgnX ..
  | .fmovxToX .. | .fmovxToF .. => true
  | i => roundsScalar i

/-- Whether the destination is an f register, the destination, the value it receives and the flags, as R345 to R347 give
them for each scalar floating-point instruction; the arithmetic is that of FloatCorrectlyRounded and FloatSpecials. -/
def floatResult (s : State) : Instr → Option (Bool × Reg × Word × BitVec 6)
  | .fadd d a b t => toF d t (fpAdd (fmtOf t) (me s).rm (op t a) (op t b))
  | .fsub d a b t => toF d t (fpSub (fmtOf t) (me s).rm (op t a) (op t b))
  | .fmul d a b t => toF d t (fpMul (fmtOf t) (me s).rm (op t a) (op t b))
  | .fdiv d a b t => toF d t (fpDiv (fmtOf t) (me s).rm (op t a) (op t b))
  | .fsqrt d a t => toF d t (fpSqrt (fmtOf t) (me s).rm (op t a))
  | .fmin d a b t => toF d t (fpMinMax (fmtOf t) false (op t a) (op t b))
  | .fmax d a b t => toF d t (fpMinMax (fmtOf t) true (op t a) (op t b))
  | .fma d a b c t => toF d t (fpFma (fmtOf t) (me s).rm .plain (op t a) (op t b) (op t c))
  | .fmaS d a b c t => toF d t (fpFma (fmtOf t) (me s).rm .s (op t a) (op t b) (op t c))
  | .fmaN d a b c t => toF d t (fpFma (fmtOf t) (me s).rm .n (op t a) (op t b) (op t c))
  | .fmaNs d a b c t => toF d t (fpFma (fmtOf t) (me s).rm .ns (op t a) (op t b) (op t c))
  | .fsgnJ d a b t => toF d t ⟨withSignBit t (op t a) (neg t (op t b)), 0⟩
  | .fsgnN d a b t => toF d t ⟨withSignBit t (op t a) (!neg t (op t b)), 0⟩
  | .fsgnX d a b t => toF d t ⟨withSignBit t (op t a) (neg t (op t a) != neg t (op t b)), 0⟩
  | .fcmpEq d a b t => toX d (fpCmp (fmtOf t) .eq (op t a) (op t b))
  | .fcmpLt d a b t => toX d (fpCmp (fmtOf t) .lt (op t a) (op t b))
  | .fcmpLe d a b t => toX d (fpCmp (fmtOf t) .le (op t a) (op t b))
  | .fclass d a t =>
    let failed := (rf s a).toNat / 2 ^ t.bits ≠ 2 ^ (64 - t.bits) - 1
    let v := classNumber (fmtOf t) (op t a) + (if neg t (op t a) then 8 else 0) + if failed then 16 else 0
    some (false, d, BitVec.ofNat 64 v, 0)
  | .fmovxToX d a => some (false, d, rf s a, 0)
  | .fmovxToF d a => some (true, d, rx s a, 0)
  | .fcvtToFloat d a dst src =>
    if (me s).rm = 5 then none
    else toF d dst (convert dst src (me s).rm none (if src.isInt then (rx s a).toNat else op src a))
  | .fcvtToInteger d a dst src =>
    let r := convert dst src (me s).rm none (op src a)
    some (false, d, BitVec.ofInt 64 (intOf dst r.enc), r.fl)
  | _ => none
where
  op (t : Ty) (r : Reg) : Nat := fOperand s t r
  neg (t : Ty) (e : Nat) : Bool := e.testBit (t.bits - 1)
  toF (d : Reg) (t : Ty) (r : FRes) : Option (Bool × Reg × Word × BitVec 6) := some (true, d, fBoxed t r.enc, r.fl)
  toX (d : Reg) (r : Bool × BitVec 6) : Option (Bool × Reg × Word × BitVec 6) :=
    some (false, d, if r.1 then 1 else 0, r.2)
/-! ### Scalar memory (R189, R349, R368, R372) -/

/-- The number of little-endian bytes. -/
def leNat (bs : List Byte) : Nat := bs.foldr (fun b n => b.toNat + 256 * n) 0
/-- n bytes of memory from an address on, as a number (R4). -/
def memNat (s : State) (a n : Nat) : Nat := leNat ((List.range n).map fun i => memRead s.mem (a + i))
/-- Sign-extend w bits of a number. -/
def signed (w n : Nat) : Word := BitVec.ofInt 64 ((n : Int).bmod (2 ^ w))
/-- The bytes of a width. -/
def widthBytes : MemW → Nat
  | .b | .bu => 1 | .h | .hu => 2 | .w | .wu => 4 | .d => 8
/-- What a load of a width writes (R368). -/
def loadValue (wd : MemW) (n : Nat) : Word :=
  match wd with
  | .bu | .hu | .wu => BitVec.ofNat 64 n
  | .b | .h | .w | .d => signed (8 * widthBytes wd) n
/-- The bytes of a size. -/
def accBytes (wd : Size) : Nat := match wd with | .b => 1 | .h => 2 | .w => 4 | .d => 8

/-- The acting hart is in monitor mode and holds no task, no task exists, no trigger of its island is set, and n bytes
from a physical address stand in backed HBM with no uncorrectable data: an access there meets no check, no translation
and no conflict. -/
def PlainAt (s : State) (va : Word) (n : Nat) : Prop :=
  (me s).mode = .monitor ∧ (me s).task = none ∧ s.tasks = [] ∧ (island s (islandOf s.cur)).triggers = [] ∧
  s.failedStacks = 0 ∧ s.poison = [] ∧ s.lostLines = [] ∧ va.toNat + n ≤ 0xEE6B280000 ∧ Memory.wf s.mem = true
/-- Only the acting hart, the caches and n bytes of memory from an address have changed, and those bytes now hold a number. -/
def StoredAt (s t : State) (va : Word) (n v : Nat) : Prop :=
  t = { s with harts := t.harts, mem := t.mem, caches := t.caches } ∧ HartsKeptBut s.cur s t ∧
  (∀ a, a < va.toNat ∨ va.toNat + n ≤ a → memRead t.mem a = memRead s.mem a) ∧
  memNat t va.toNat n = v % 2 ^ (8 * n) ∧ Memory.wf t.mem = true

/-- The operation of an atomic instruction: destination, address and operand registers, and whether it is 8 bytes. -/
def atomicForm : Instr → Option (Reg × Reg × Reg × Bool)
  | .amoSwap d a b _ _ w _ | .amoAdd d a b _ _ w _ | .amoAnd d a b _ _ w _ | .amoOr d a b _ _ w _
  | .amoXor d a b _ _ w _ | .amoMin d a b _ _ w _ | .amoMax d a b _ _ w _ | .amoMinu d a b _ _ w _
  | .amoMaxu d a b _ _ w _ | .cas d a b _ _ w _ => some (d, a, b, w)
  | _ => none
/-- The new value of an atomic operation of n-byte values (R349): `x` is the operand, `want` CAS's old xd. -/
def atomicNew (i : Instr) (n old x want : Nat) : Option Nat :=
  let i8 (v : Nat) : Int := (v : Int).bmod (2 ^ (8 * n))
  match i with
  | .amoSwap .. => some x
  | .amoAdd .. => some ((old + x) % 2 ^ (8 * n))
  | .amoAnd .. => some (old &&& x)
  | .amoOr .. => some (old ||| x)
  | .amoXor .. => some (old ^^^ x)
  | .amoMin .. => some (if i8 old ≤ i8 x then old else x)
  | .amoMax .. => some (if i8 x ≤ i8 old then old else x)
  | .amoMinu .. => some (min old x)
  | .amoMaxu .. => some (max old x)
  | .cas .. => if old = want then some x else none
  | _ => none

/-- The scalar accesses whose address must be a multiple of their size: address register and size (R368, R350). -/
def alignedForm : Instr → Option (Reg × Nat)
  | .ldAq _ a wd _ => some (a, accBytes wd)
  | .stRl a _ wd _ => some (a, accBytes wd)
  | i => (atomicForm i).map fun p => (p.2.1, if p.2.2.2 then 8 else 4)

/-- A scalar access: its address, its bytes, and whether it loads and stores (R350, R368, R372). -/
def scalarForm (s : State) : Instr → Option (Word × Nat × Bool × Bool × Bool)
  | .ld _ a wd off => some (rx s a + off.signExtend 64, widthBytes wd, true, false, false)
  | .st _ a wd off => some (rx s a + off.signExtend 64, accBytes wd, false, true, false)
  | .ldAq _ a wd _ => some (rx s a, accBytes wd, true, false, false)
  | .stRl a _ wd _ => some (rx s a, accBytes wd, false, true, false)
  | i => (atomicForm i).map fun p => (rx s p.2.1, if p.2.2.2 then 8 else 4, true, true, true)

/-- The byte address, the first bit and the byte count of a bit field (R154). -/
def fieldAt (ba : Word) (w : Nat) : Word × Nat × Nat :=
  (BitVec.ofInt 64 (ba.toInt / 8), ba.toNat % 8, (ba.toNat % 8 + w + 7) / 8)
/-! ### Control flow and traps (R353, R374, R248, R398) -/

/-- The truth of a branch condition (R353). -/
def branchTaken (c : Cond) (x y : Word) : Prop :=
  match c with
  | .eq => x = y
  | .ne => x ≠ y
  | .lt => x.toInt < y.toInt
  | .ge => y.toInt ≤ x.toInt
  | .ltu => x.toNat < y.toNat
  | .geu => y.toNat ≤ x.toNat
/-- An address n instruction words from the acting hart's PC. -/
def wordsOn (s : State) (n : Int) : Word := BitVec.ofInt 64 ((me s).pc.toNat + 4 * n)
/-- The captured loop body of a hart that goes on at pc: out of the body, the loop is left (R116). -/
def bodyAt (h : Hart) (pc : Word) : Option LoopBody :=
  match h.body with
  | some b => if b.start.toNat ≤ pc.toNat ∧ pc.toNat ≤ b.end_.toNat then some b else none
  | none => none
/-- The instruction has gone on at pc, and no register of the hart but its PC and its count has changed. -/
def JumpedTo (s t : State) (pc : Word) : Prop :=
  OnlyActing s t ∧ me t = { me s with pc := pc, instret := (me s).instret + 1, wait := none, body := bodyAt (me s) pc }
/-- The instruction has put the next address into x register d and gone on at pc. -/
def Linked (s t : State) (d : Reg) (pc : Word) : Prop :=
  OnlyActing s t ∧ (∀ r, getX (me t) r = if r = d ∧ d ≠ 0 then (me s).pc + 4 else getX (me s) r) ∧
  me t = { me s with x := (me t).x, pc := pc, instret := (me s).instret + 1, wait := none, body := bodyAt (me s) pc }
/-- The k-th word after the acting hart's instruction, in memory. -/
def wordAfter (s : State) (k : Nat) : Nat := memNat s ((me s).pc.toNat + 4 * k) 4
/-- Instruction words have been fetched: beside the L1I's lines and those of other caches nothing has changed. -/
def FetchedFrom (s u : State) : Prop :=
  u = { s with cores := u.cores, caches := u.caches } ∧
  ∀ c, Machine.core u c = { Machine.core s c with l1i := (Machine.core u c).l1i }
/-- The word at an address encodes LOOP with a distance (R374). -/
def IsLoopWord (s : State) (va : Nat) (dist : Nat) : Prop :=
  ∃ a : Reg, memNat s va 4 = 16 * 2 ^ 26 + a.toNat * 2 ^ 16 + dist

/-- A hart whose held convoy c goes on: it stands in the vector queue between the older convoys and the younger, to go on
from VSTART, which is then 0 with VEPC and LATE, and SRSEED has moved on by what it had moved (R180, R76; log 127). -/
def resumed (h : Hart) (c : Convoy) (now : Nat) : Hart :=
  { h with
    late := false, heldConvoy := none, vstart := 0, vepc := 0, srseed := h.srseed + h.heldAdvance, heldAdvance := 0
    vq := h.vq.filter (fun o => decide (o.seq < c.seq)) ++ { c with
      start := h.vstart.toNat, reprobe := some now
      begun := if h.vstart.toNat = c.start then c.begun else none } :: h.vq.filter fun o => decide (c.seq < o.seq) }
/-- The acting hart has entered supervisor mode as R248 and R57 say: EPC, CAUSE and TVAL written, IE saved and
cleared, the mode saved, the PC from TVEC. -/
def EnteredSupervisor (s t : State) (code : Byte) (tval : Word) : Prop :=
  let h := me s
  OnlyActing s t ∧
  me t = { h with
    mode := .supervisor, ie := false, pie := h.ie, pmode := if h.mode = .user then 0 else 1
    epc := BitVec.ofNat 64 (h.pc.toNat / 4 * 4), causeCode := code, causeOrig := 0, tval := tval
    pc := BitVec.ofNat 64 (h.tvec.toNat / 4 * 4 + if h.tvec.toNat % 4 = 1 then 64 * (code.toNat / 32) else 0)
    wait := none, loops := [], body := none }
/-- The acting hart has entered monitor mode through monitor's own registers, and no register of R57 has changed. -/
def EnteredMonitor (s t : State) (code : Byte) (tval : Word) : Prop :=
  let h := me s
  OnlyActing s t ∧
  me t = { h with
    mode := .monitor, ie := false, pc := Config.monitorVector
    mon := { traps := code :: h.mon.traps, pc := h.pc, cause := code, tval := tval, mode := h.mode, ie := h.ie }
    wait := none, loops := [], body := none }
/-! ### System registers (R44 to R63, R256, R266, R274) -/

/-- 1 where a flag is set. -/
def flag (b : Bool) : Nat := if b = true then 1 else 0
/-- The commit frontier that CFR and CFRID read: the selected domain's, or all ones (R52). -/
def frontierRead (s : State) : Nat × Nat :=
  let none_ : Nat × Nat := (2 ^ 64 - 1, 2 ^ 32 - 1)
  match partOf s s.cur with
  | some v =>
    let d := domain s v (me s).dom.toNat
    match d.active, d.frontier with
    | true, some k => (k.ts, k.id)
    | _, _ => none_
  | none => none_

/-- The value of a system register by its number, as the layouts of spec/02_state.md, R256, R266 and R274 give it; none
for a number that is not assigned. -/
def srValue (s : State) (n : Nat) : Option Nat :=
  let h := me s
  let c := Machine.core s (coreOf s.cur)
  let owner := h.ms ≠ 0
  match n with
  | 0x000 => some h.vl.toNat
  | 0x001 => some h.vstart.toNat
  | 0x002 => some (2 ^ 8 * h.lanes.toNat + 2 ^ 4 * h.regs.toNat + h.ew.toNat)
  | 0x003 => some h.vlmax.toNat
  | 0x004 => some (2 ^ 5 * h.flags.toNat + h.rm.toNat)
  | 0x005 => some h.nbv.toNat
  | 0x006 => some h.srseed.toNat
  | 0x008 => some (if owner then 2 ^ 16 * c.kb.toNat + 2 ^ 8 * c.n.toNat + c.m.toNat else 0)
  | 0x009 => some (if owner then 2 ^ 16 + 2 ^ 8 * h.mq.length + 2 * flag c.short + flag (!h.mq.isEmpty) else 0)
  | 0x00A => some h.lc.toNat
  | 0x010 => some (s.time + (island s (islandOf s.cur)).timeAhead.toNat)
  | 0x011 => some (s.time - c.cycleBase)
  | 0x012 => some h.instret.toNat
  | 0x018 => some (frontierRead s).1
  | 0x019 => some ((taskAt s s.cur).elim 0 fun e => e.key.id)
  | 0x01A => some ((taskAt s s.cur).elim 0 fun e => e.key.ts)
  | 0x01B => some (2 ^ 63 * flag h.tmode + h.dom.toNat)
  | 0x01C => some (if (partOf s s.cur).any (fun v => (domain s v h.dom.toNat).active) = true then
      h.cfrid.elim (2 ^ 32 - 1) fun i => i.toNat else 2 ^ 32 - 1)
  | 0x400 => some (2 ^ 10 * flag h.late + 2 ^ 9 * flag (h.vs == 2 || h.ms == 2) + 2 ^ 6 * h.ms.toNat
      + 2 ^ 4 * h.vs.toNat + 2 ^ 2 * h.pmode.toNat + 2 * flag h.pie + flag h.ie)
  | 0x401 => some h.tvec.toNat
  | 0x402 => some h.epc.toNat
  | 0x403 => some (2 ^ 8 * h.causeOrig.toNat + h.causeCode.toNat)
  | 0x404 => some h.tval.toNat
  | 0x405 => some h.vepc.toNat
  | 0x406 => some h.scratch.toNat
  | 0x407 => some (if s.cur < 5120 then s.cur else 2 ^ 15 + (s.cur - 5120))
  | 0x408 => some h.ptbase.toNat
  | 0x409 => some c.lanepart.toNat
  | 0x40A => some c.split.toNat
  | 0x40B => some (2 ^ 63 * flag h.gang.valid + 2 ^ 16 * h.gang.gang.toNat + 2 ^ 6 * h.gang.size.toNat
      + h.gang.member.toNat)
  | 0x40C => some h.prio.toNat
  | 0x800 => some (if hn : islandOf s.cur < 20 then s.tags[islandOf s.cur].toNat else 0)
  | 0x801 => some (2 ^ 24 * s.freezeKind.toNat + 2 ^ 13 * flag (freezeState s) + s.freezeTarget.toNat)
  | 0x802 => some (2 ^ 12 * s.keyAddr.toNat + s.keyState.toNat)
  | 0x803 => some (2 ^ 12 * s.fwAddr.toNat + s.fwState.toNat)
  | 0x804 => some (s.newMonhart.elim s.monhart.toNat fun p => p.2.2.toNat)
  | 0x805 => some (2 ^ 16 * s.hartctlMode.toNat + 2 ^ 15 * flag s.hartctlSteward + s.hartctlNum.toNat)
  | 0x806 => some s.hartpc.toNat
  | _ => none

/-- A number's field of n bits from a place. -/
def fieldOf (v : Word) (lo n : Nat) : Nat := v.toNat / 2 ^ lo % 2 ^ n
/-- What a write leaves in the acting hart for the registers that are the hart's own and that no write traps or waits
on: reserved and read-only fields keep their values (R8, R45 to R61, R389). -/
def srWritten (h : Hart) (n : Nat) (v : Word) : Option Hart :=
  match n with
  | 0x001 => some { h with vstart := BitVec.ofNat 14 (v.toNat % 8192) }
  | 0x004 => some { h with flags := BitVec.ofNat 6 (fieldOf v 5 6), rm := BitVec.ofNat 3 (fieldOf v 0 3) }
  | 0x005 => some { h with nbv := BitVec.ofNat 8 (fieldOf v 0 8) }
  | 0x006 => some { h with srseed := v, seedSeq := h.seedSeq + 1 }
  | 0x00A => some { h with lc := BitVec.ofNat 32 (fieldOf v 0 32) }
  | 0x01B => some { h with dom := BitVec.ofNat 4 (fieldOf v 0 4) }
  | 0x401 => some { h with tvec := BitVec.ofNat 64 (v.toNat / 4 * 4 + if v.toNat % 4 = 1 then 1 else 0) }
  | 0x402 => some { h with epc := BitVec.ofNat 64 (v.toNat / 4 * 4) }
  | 0x403 => some { h with causeCode := BitVec.ofNat 8 (fieldOf v 0 8), causeOrig := BitVec.ofNat 8 (fieldOf v 8 8) }
  | 0x404 => some { h with tval := v }
  | 0x405 => some { h with vepc := v }
  | 0x406 => some { h with scratch := v }
  | 0x408 => some { h with ptbase := BitVec.ofNat 64 (2 ^ 12 * fieldOf v 12 52 + fieldOf v 0 1) }
  | 0x40C => some { h with prio := BitVec.ofNat 2 (fieldOf v 0 2) }
  | 0x000 | 0x002 | 0x003 | 0x010 | 0x011 | 0x012 | 0x018 | 0x019 | 0x01A | 0x01C | 0x407 | 0x40B => some h
  | _ => none

/-- The numbers whose read waits for the hart's vector and matrix instructions, and whether they have all completed
(R39). -/
def readsAfterQueues (s : State) (n : Nat) : Prop :=
  n = 0x004 ∨ n = 0x009 →
    (me s).vq = [] ∧ (me s).flight = none ∧ (me s).sdest = none ∧ (me s).mq = [] ∧ (me s).castMask = none
/-- A read of CFR finds no batch of the frontier still to commit (R202, R220). -/
def FrontierSettled (s : State) (n : Nat) : Prop :=
  n = 0x018 → ∀ v, partOf s s.cur = some v → (domain s v (me s).dom.toNat).active = true →
    (domain s v (me s).dom.toNat).commitDue = false
/-- A core holds a context that the steward placed: some gang of its island has a hart there (R234). -/
def Managed (s : State) (c : Nat) : Prop :=
  ∃ p ∈ (island s (islandOfCore c)).gangs, ∃ x ∈ p.2.harts, coreOf x.2 = c
/-- An instruction has written x register d and changed the rest of its hart as given. -/
def WroteHart (s t : State) (d : Reg) (v : Word) (h : Hart) : Prop :=
  OnlyActing s t ∧ (∀ r, getX (me t) r = if r = d ∧ d ≠ 0 then v else getX (me s) r) ∧
  me t = { h with x := (me t).x, pc := (me s).pc + 4, instret := (me s).instret + 1, wait := none }
/-- A LANEPART value keeps both rules of R59. -/
def LanepartLegal (v : Nat) : Prop :=
  (∀ i, i < 4 → v / 16 ^ i % 16 ∈ [0, 1, 2, 4, 8, 3, 12, 15]) ∧
  ∀ i j, i < j → j < 4 → ∀ g, g < 4 → ¬((v / 16 ^ i % 16).testBit g = true ∧ (v / 16 ^ j % 16).testBit g = true)
/-- An instruction has written x register d and gone on, and beside its own hart's PC and count only its core is other
than before. -/
def WroteCore (s t : State) (d : Reg) (v : Word) (c : Core) : Prop :=
  t = { s with harts := t.harts, cores := t.cores } ∧ HartsKeptBut s.cur s t ∧
  (∀ r, getX (me t) r = if r = d ∧ d ≠ 0 then v else getX (me s) r) ∧
  me t = { me s with x := (me t).x, pc := (me s).pc + 4, instret := (me s).instret + 1, wait := none } ∧
  Machine.core t (coreOf s.cur) = c ∧ ∀ k, k ≠ coreOf s.cur → Machine.core t k = Machine.core s k
/-- i is SETSR of register n, or SWAPSR of it by a hart whose older instructions have completed where the read waits for
them: xd then receives the old value (R389). -/
def WritesSr (s : State) (i : Instr) (n : BitVec 12) (a d : Reg) (old : Word) : Prop :=
  (i = .setsr a n ∧ d = 0) ∨ (i = .swapsr d a n ∧ srValue s n.toNat = some old.toNat ∧ readsAfterQueues s n.toNat)
/-! ### Events -/

/-- A hart with supervisor mode entered for a cause at a PC (R248, R57). -/
def supervisorEntry (h : Hart) (code : Byte) (tval pc : Word) : Hart :=
  { h with
    mode := .supervisor, ie := false, pie := h.ie, pmode := if h.mode = .user then 0 else 1
    epc := BitVec.ofNat 64 (pc.toNat / 4 * 4), causeCode := code, causeOrig := 0, tval := tval
    pc := BitVec.ofNat 64 (h.tvec.toNat / 4 * 4 + if h.tvec.toNat % 4 = 1 then 64 * (code.toNat / 32) else 0)
    wait := none, loops := [], body := none }
/-- A hart with monitor mode entered for a cause at its own PC (R248). -/
def monitorEntry (h : Hart) (code : Byte) (tval : Word) : Hart :=
  { h with
    mode := .monitor, ie := false, pc := Config.monitorVector
    mon := { traps := code :: h.mon.traps, pc := h.pc, cause := code, tval := tval, mode := h.mode, ie := h.ie }
    wait := none, loops := [], body := none }
/-- One hart has changed and nothing else. -/
def ChangedHart (s t : State) (h : Nat) (x : Hart) : Prop :=
  t = { s with harts := t.harts } ∧ hart t h = x ∧ ∀ k, k ≠ h → hart t k = hart s k
/-- One core has changed and nothing else. -/
def ChangedCore (s t : State) (c : Nat) (x : Core) : Prop :=
  t = { s with cores := t.cores } ∧ Machine.core t c = x ∧ ∀ k, k ≠ c → Machine.core t k = Machine.core s k
/-- One island's blocks have changed and nothing else. -/
def ChangedIsland (s t : State) (n : Nat) (x : Island) : Prop :=
  t = { s with islands := t.islands } ∧ island t n = x ∧ ∀ k, k ≠ n → island t k = island s k
/-- One partition's blocks have changed and nothing else. -/
def ChangedPart (s t : State) (v : Nat) (x : Part) : Prop :=
  t = { s with parts := t.parts } ∧ part t v = x ∧ ∀ k, k ≠ v → part t k = part s k
/-- An event has put a state in the place of the old one. -/
def Becomes (i : Instr) (s t : State) : Prop := exec i s = .next t
/-- Bit k of the interrupt register of a hart is set, and nothing else has changed. -/
def Pended (s t : State) (h k : Nat) : Prop :=
  ChangedHart s t h { hart s h with ipend := (hart s h).ipend ||| BitVec.ofNat 64 (2 ^ k) }
/-- A master may write the steward or debug block of an island (R265): its partition's supervisor or function; `open_`
registers take any of the partition's harts. -/
def WritesIsland (s : State) (who : Who) (n : Nat) (open_ : Bool) : Prop :=
  match who with
  | .hart h => (∃ v, partOfIsland s n = some v ∧ partOf s h = some v) ∧ (open_ = true ∨ (hart s h).mode = .supervisor)
  | .vf v => partOfIsland s n = some v ∧ (part s v).trafficFrozen = false
/-- A master may write the partition block of a function (R265). -/
def WritesPartition (s : State) (who : Who) (f : Nat) : Prop :=
  match who with
  | .hart h => (hart s h).mode = .monitor ∨ ((hart s h).mode = .supervisor ∧ partOf s h = some f)
  | .vf v => v = f ∧ (part s v).trafficFrozen = false
/-- A master is monitor mode. -/
def IsMonitor (s : State) (who : Who) : Prop := ∃ h, who = .hart h ∧ (hart s h).mode = .monitor
/-- A number names a hart of the module (R17). -/
def IsHart (h : Nat) : Prop := h < 5160
/-- The partition of a function is in a reset, or its drain bound was exceeded (R263). -/
def Resetting (s : State) (v : Nat) : Prop := (part s v).flr ≠ .idle ∧ (part s v).flr ≠ .done
/-- A core has no task conflict, pended write or gang in its way: memory is written at once. -/
def Quiet (s : State) : Prop := s.tasks = [] ∧ s.pendingWrites = [] ∧ s.poison = [] ∧ s.lostLines = []
/-- Bytes of memory from an address on are as given, and every other byte reads as before. -/
def WroteBytes (s t : State) (a : Nat) (bs : List Byte) : Prop :=
  Memory.wf t.mem = true ∧ ∀ x, memRead t.mem x = if a ≤ x then (bs[x - a]?).getD (memRead s.mem x) else memRead s.mem x
/-- One slot of a steward block has changed and nothing else. -/
def ChangedSlot (s t : State) (n q : Nat) (x : Slot) : Prop :=
  t = { s with islands := t.islands } ∧ slot t n q = x ∧ (∀ m r, (m ≠ n ∨ r ≠ q) → slot t m r = slot s m r) ∧
  ∀ m, island t m = { island s m with slots := (island t m).slots }
/-- What else a block at a physical address that cannot be read does, from s to v: outside the grant of the island's
function it freezes the hart that runs the placement code, with the record and the code 0xD0 (R255); elsewhere
nothing. -/
def BlockFaults (s v : State) (n pa : Nat) : Prop :=
  let outside := answers s pa = true ∧ ∀ p, partOfIsland s n = some p → granted s p pa = false
  (outside → let h := placementHart s n
    ∃ w, ChangedHart s w h { hart s h with
        freeze := { (hart s h).freeze with violation := some (0x25, BitVec.ofNat 64 pa) } } ∧
      v = raiseCode (errorRecord w (partOf s h) (islandOf h)
        { code := 0xD0, master := 1, place := hartNumber h, addr := pa, aux := (hart s h).pc.toNat }) 0xD0) ∧
  (¬outside → v = s)
/-- A register write has its effect where the master may make it and the value is legal, and else changes nothing. -/
def Sets (s : State) (may : Prop) (i : Instr) (legal : Prop) (p : State → Prop) : Prop :=
  (may → legal → Completes i s p) ∧ (¬(may ∧ legal) → Becomes i s s)
/-- A value is a power of two between two of them. -/
def PowerIn (v : Word) (lo hi : Nat) : Prop := ∃ k, lo ≤ k ∧ k ≤ hi ∧ v.toNat = 2 ^ k
/-! ### Waits (R59, R200, R241 to R245, R386) -/

/-- A hart is loaded. -/
def Loaded (s : State) (h : Nat) : Prop := (hart s h).started = true ∨ (hart s h).stopped = true
/-- An operand of SEND or RECV names a loaded hart of the acting hart's island (R241): by its position, or by its member
index in the acting hart's gang. -/
def Names (s : State) (v : Word) (h : Nat) : Prop :=
  Loaded s h ∧
  ((v.toNat.testBit 24 = false ∧ h = 256 * islandOf s.cur + fieldOf v 16 8) ∨
    (v.toNat.testBit 24 = true ∧ fieldOf v 16 8 < 64 ∧ (me s).gang.valid = true ∧
      ∃ g, tabGet (island s (islandOf s.cur)).gangs ((me s).gang.gang.toNat % 256) = some g ∧
        tabGet g.harts (fieldOf v 16 8) = some h))
/-- The inbox of a class, and a hart with another one. -/
def inboxAt (h : Hart) (cls : Bool) : List Message := if cls = true then h.inbox1 else h.inbox0
/-- The hart with its inbox of a class replaced. -/
def withInbox (cls : Bool) (l : List Message) (h : Hart) : Hart :=
  if cls = true then { h with inbox1 := l } else { h with inbox0 := l }
/-- The message the acting hart sends to another (R242); whether both are of one gang is kept with it (R243). -/
def outgoing (s : State) (dest a n : Nat) : Message :=
  { bytes := (List.range n).map fun i => memRead s.mem (a + i), sender := s.cur % 256
    member := if (me s).gang.valid = true then some (me s).gang.member.toNat else none
    own := decide ((me s).gang.valid = true ∧ (hart s dest).gang.valid = true ∧ (me s).gang.gang = (hart s dest).gang.gang) }
/-- The value RECV writes for a message (R243). -/
def received (m : Message) (len : Nat) : Word :=
  BitVec.ofNat 64 ((if len < m.bytes.length then 2 ^ 63 else 0) + m.member.elim 0 (fun i => 2 ^ 46 + 2 ^ 40 * (i % 64))
    + 2 ^ 32 * (m.sender % 256) + m.bytes.length)
/-- A message matches a RECV's filter (R241, R243): any sender, the member of the receiver's gang with that index, or the
hart of the island at that position. -/
def Matches (v : Word) (m : Message) : Prop :=
  v.toNat.testBit 25 = true ∨ (v.toNat.testBit 24 = true ∧ m.own = true ∧ m.member = some (fieldOf v 16 8)) ∨
    (v.toNat.testBit 24 = false ∧ m.sender = fieldOf v 16 8)
/-- A gang's members: its harts but the companions. -/
def members (g : Gang) : List Nat := (g.harts.filter fun p => decide (p.1 < 64)).map (·.2)
/-- A vector or matrix memory access that is queued has not been performed. -/
def MemoryQueued (h : Hart) : Prop :=
  (∃ e ∈ h.vq, e.mem = true) ∨ (∃ f, h.flight = some f ∧ f.convoy.mem = true) ∨ ∃ e ∈ h.mq, e.mem = true
/-- A member has been released from the barrier (R245): it went on, with the count in its xd. -/
def Released (x y : Hart) (d : Reg) (count : Word) : Prop :=
  (∀ r, getX y r = if r = d ∧ d ≠ 0 then count else getX x r) ∧
  y = { x with x := y.x, arrived := false, pc := x.pc + 4, instret := x.instret + 1, wait := none, barrierCount := count }
/-- The lane groups that a hart's field of LANEPART grants: those its core has (R21). -/
def laneFieldOf (s : State) (h : Nat) : BitVec 4 :=
  BitVec.ofNat 4 ((Machine.core s (coreOf h)).lanepart.toNat / 16 ^ slotOf h) &&& if h < 5120 then 15 else 1
/-- The hart after SETVL under the groups g (R100, R101, R386): `n` lanes. -/
def declared (h : Hart) (d : Reg) (avl : Nat) (regs : BitVec 2) (ew : Size) (g : BitVec 4) : Hart :=
  let lanes := 4 * ((List.range 4).filter fun i => g.toNat.testBit i).length
  let most := lanes * 32768 / (8 * 2 ^ regs.toNat) / (8 * accBytes ew)
  let fresh := g ≠ h.groups ∨ regs ≠ h.regs
  let u : Hart := { h with
    v := if fresh then Vector.replicate 32 0 else h.v, badV := if fresh then 0 else h.badV, k := if g ≠ h.groups then Vector.replicate 8 0 else h.k
    vs := if g ≠ h.groups then 1 else if regs ≠ h.regs ∧ h.vs = 3 then 2 else h.vs
    groups := g, lanes := BitVec.ofNat 5 lanes, regs := regs, ew := BitVec.ofNat 2 ew.code
    vlmax := BitVec.ofNat 14 most, vl := BitVec.ofNat 14 (min avl most), vlSeq := h.vlSeq + 1, vstart := 0
    pc := h.pc + 4, instret := h.instret + 1, wait := none }
  { u with x := (Machine.setX h d (BitVec.ofNat 64 (min avl most))).x }
/-! ### Translation and caches (R169 to R173, R182, R358) -/

/-- A field of a table entry. -/
def entryField (e lo n : Nat) : Nat := e / 2 ^ lo % 2 ^ n
/-- A table entry at a level is a pointer to the next table (R170, R171). -/
def IsPointer (e lvl : Nat) : Prop :=
  e.testBit 0 = true ∧ entryField e 1 3 = 0 ∧ 2 ≤ lvl ∧ e.testBit 11 = false ∧ e.testBit 5 = false ∧
  entryField e 8 2 = 0 ∧ entryField e 60 4 = 0
/-- A table entry at a level is a leaf (R170, R171). -/
def IsLeaf (e lvl : Nat) : Prop :=
  e.testBit 0 = true ∧ entryField e 1 3 ≠ 0 ∧ lvl ≤ 3 ∧ (e.testBit 2 = true → e.testBit 1 = true) ∧
  (e.testBit 11 = true → lvl = 1) ∧ e.testBit 5 = false ∧ entryField e 8 2 = 0 ∧ entryField e 60 4 = 0 ∧
  entryField e 12 40 % 2 ^ (9 * (lvl - 1)) = 0
/-- The address of the entry of a level's table for a virtual address (R169). -/
def entryAddr (va table lvl : Nat) : Nat := 4096 * table + 8 * (va / 2 ^ (3 + 9 * lvl) % 512)
/-- The walk from a table at a level, through entries in backed HBM, comes to a leaf: its level, the address of its
entry and the entry. -/
def WalkTo (s : State) (va : Nat) : Nat → Nat → Nat × Nat × Nat → Prop
  | 0, _, _ => False
  | lvl + 1, table, l =>
    let a := entryAddr va table (lvl + 1)
    let e := memNat s a 8
    a ≤ 0xEE6B27FFFF ∧
      ((IsLeaf e (lvl + 1) ∧ l = (lvl + 1, a, e)) ∨ (IsPointer e (lvl + 1) ∧ WalkTo s va lvl (entryField e 12 40) l))
/-- The walk ends at an entry that is neither pointer nor leaf. -/
def WalkFails (s : State) (va : Nat) : Nat → Nat → Prop
  | 0, _ => False
  | lvl + 1, table =>
    let a := entryAddr va table (lvl + 1)
    let e := memNat s a 8
    a ≤ 0xEE6B27FFFF ∧
      ((¬IsLeaf e (lvl + 1) ∧ ¬IsPointer e (lvl + 1)) ∨ (IsPointer e (lvl + 1) ∧ WalkFails s va lvl (entryField e 12 40)))
/-- The permission bits of a leaf allow an access (R172). -/
def Allows (e : Nat) (m : Mode) (k : AccKind) : Prop :=
  (k = .load → e.testBit 1 = true) ∧ (k = .store → e.testBit 1 = true ∧ e.testBit 2 = true) ∧
  (k = .fetch → e.testBit 3 = true) ∧ (m = .user → e.testBit 4 = true) ∧
  (k = .fetch → m = .supervisor → e.testBit 4 = false)
/-- The virtual address is canonical (R167). -/
def IsCanonical (va : Nat) : Prop := va < 2 ^ 47 ∨ 2 ^ 64 - 2 ^ 47 ≤ va
/-- A cached translation serves an address space at an address (R175). -/
def Serves (e : TlbEntry) (asid : BitVec 12) (va : Nat) : Prop :=
  (e.global = true ∨ e.asid = asid) ∧ va / 2 ^ e.log2 % 2 ^ (48 - e.log2) = e.vpage
/-- Two translations of one address space serve an address both (R171). -/
def Overlaps (a b : TlbEntry) : Prop :=
  (a.global = true ∨ b.global = true ∨ a.asid = b.asid) ∧ ∃ va, va / 2 ^ a.log2 = a.vpage ∧ va / 2 ^ b.log2 = b.vpage
/-- The size exponent of a leaf's translation, and whether a core is in a TLBINV's scope (R171, R182). -/
def leafLog2 (lvl e : Nat) : Nat := if e.testBit 11 = true then 16 else 3 + 9 * lvl
/-- A core is in the scope of the acting hart's TLBINV. -/
def InScope (s : State) (sc : Scope) (c : Nat) : Prop :=
  match sc with
  | .hart | .core => c = coreOf s.cur
  | .island => c < 1300 ∧ islandOfCore c = islandOf s.cur
  | .device | .system => c < 1300 ∧
    (islandOfCore c = islandOf s.cur ∨ ∃ v, partOf s s.cur = some v ∧ partOfIsland s (islandOfCore c) = some v)
/-- A TLBINV drops a cached translation (R182). -/
def Dropped (s : State) : Instr → TlbEntry → Prop
  | .tlbinvPage a b _, e => (e.global = true ∨ e.asid.toNat = fieldOf (rx s b) 0 12) ∧
      fieldOf (rx s a) 0 48 / 2 ^ e.log2 = e.vpage
  | .tlbinvAsid b _, e => e.global = false ∧ e.asid.toNat = fieldOf (rx s b) 0 12
  | _, _ => True
/-- The scope of a TLBINV. -/
def scopeOf : Instr → Option Scope
  | .tlbinvPage _ _ sc | .tlbinvAsid _ sc | .tlbinvAll sc => some sc
  | _ => none
/-- Lines of the acting hart's L1I are gone, with the loop records of its core that `hit` names; a captured body that
holds one of the lines is released at its next iteration. The instruction has gone on, and nothing else has changed. -/
def DroppedCode (s t : State) (hit : Word × Word → Bool) (line : Nat → Bool) : Prop :=
  t = { s with harts := t.harts, cores := t.cores } ∧
  (∀ c, Machine.core t c = if c = coreOf s.cur then
    { Machine.core s c with l1i := (Machine.core s c).l1i.filter fun x => !line x.line } else Machine.core s c) ∧
  ∀ h, hart t h =
    let x := hart s h
    let y := if h = s.cur then { x with pc := x.pc + 4, instret := x.instret + 1, wait := none } else x
    if h ∈ hartsOn (coreOf s.cur) then
      { y with
        loops := x.loops.filter fun r => !hit r
        body := x.body.map fun b => { b with released := b.released || b.lines.any line } }
    else y
/-- A line with its home's directory and LLC slice: no copy is modified there. -/
def CleanAtHome (t : State) (line : Nat) : Prop :=
  (∀ e, dirEntryOf t line = some e → e.state ≠ .modified) ∧ tabGet (homeCache t (homeOf (64 * line))).llc line ≠ some true
/-- Sets of a list hold at most so many entries each. -/
def SetsWithin {α : Type} (most : Nat) (set : α → Nat) (l : List α) : Prop :=
  ∀ n, (l.filter fun e => set e == n).length ≤ most
/-! ### Stream engines (R156 to R165, R384) -/

/-- Rate and latency of an endpoint at a physical address for the engine of a core (R161). -/
def endpointAt (c pa : Nat) : Nat × Nat :=
  let near (k rate : Nat) : Nat × Nat :=
    if k = c then (rate, 8) else if islandOfCore k = islandOfCore c then (rate, 24) else (4, 120)
  if 0x10000000000 ≤ pa ∧ pa < 0x10000000000 + 20 * 0x4000000 then near ((pa - 0x10000000000) / 0x100000) 8
  else if 0x20000000000 ≤ pa ∧ pa < 0x20000000000 + 20 * 0x10000000 then near ((pa - 0x20000000000) / 0x400000) 4
  else if 0x40000000000 ≤ pa ∧ pa < 0x80000000000 then (1, 2000)
  else if 0x100000000000 ≤ pa ∧ pa < 0x180000000000 then (2, 1500)
  else (4, 400)
/-- Words of the destination that n bytes from an address touch, and those they fill in part (R158). -/
def touched (d n : Nat) : Nat × Nat :=
  let ws := (List.range ((d + n - 1) / 8 + 1)).filter fun w => decide (d < 8 * w + 8)
  (ws.length, (ws.filter fun w => decide (8 * w < d ∨ d + n < 8 * w + 8)).length)
/-- Rows of a command as source and destination addresses, in their order (R158). -/
def streamRows (k : StreamCmd) : List (Nat × Nat) :=
  if k.op = 2 then
    (List.range k.cnt2).flatMap fun i2 => (List.range k.cnt1).map fun i1 =>
      ((BitVec.ofInt 64 (k.src.toNat + i2 * k.sstr2.toInt + i1 * k.sstr1.toInt)).toNat,
       (BitVec.ofInt 64 (k.dst.toNat + i2 * k.dstr2.toInt + i1 * k.dstr1.toInt)).toNat)
  else [(k.src.toNat, k.dst.toNat)]
/-- Words a command writes, counted row by row, whole and in part. -/
def wordsOf (k : StreamCmd) : Nat × Nat :=
  (((streamRows k).map fun r => (touched r.2 k.len).1).sum, ((streamRows k).map fun r => (touched r.2 k.len).2).sum)
/-- TIME of a core's island. -/
def nowAt (s : State) (c : Nat) : Nat := s.time + (island s (islandOfCore c)).timeAhead.toNat
/-- The promise of an untranslated command kicked now (R161). -/
def promiseAt (s : State) (c : Nat) (k : StreamCmd) : Nat :=
  let last := (Machine.core s c).engine.lastPromise.toNat
  let q := if last = 0 then nowAt s c else max (nowAt s c) (last + 1)
  let d := endpointAt c k.dst.toNat
  let r := if k.op = 3 then (d.1, 0) else endpointAt c k.src.toNat
  let rate := min r.1 d.1
  q + (r.2 + d.2 + ((wordsOf k).1 + rate - 1) / rate + 8 * (wordsOf k).2)
/-- The command that a descriptor in memory gives (R157), kicked by the acting hart. -/
def commandAt (s : State) (a op : Nat) : StreamCmd :=
  let f (o n : Nat) : Nat := memNat s (a + o) n
  { op := op, mbx := (f 1 1).testBit 0, cnt1 := f 4 2, cnt2 := f 6 2, len := f 8 8, src := BitVec.ofNat 64 (f 16 8)
    dst := BitVec.ofNat 64 (f 24 8), mbxa := BitVec.ofNat 64 (f 32 8), sstr1 := BitVec.ofNat 32 (f 40 4)
    dstr1 := BitVec.ofNat 32 (f 44 4), sstr2 := BitVec.ofNat 32 (f 48 4), dstr2 := BitVec.ofNat 32 (f 52 4)
    descAddr := BitVec.ofNat 64 a, ptbase := (me s).ptbase, mode := (me s).mode, hart := s.cur, promise := 0, irrev := false }
/-- The descriptor is valid for an operation (R384). -/
def ValidDescriptor (s : State) (a op : Nat) : Prop :=
  let f (o n : Nat) : Nat := memNat s (a + o) n
  f 0 1 = op ∧ f 1 1 < 2 ∧ f 2 2 = 0 ∧ 1 ≤ f 8 8 ∧ f 8 8 < 2 ^ 32 ∧ f 56 8 = 0 ∧
  (f 1 1 = 1 → f 32 8 ≠ 0 ∧ f 32 8 % 8 = 0) ∧ (f 1 1 = 0 → f 32 8 = 0) ∧
  (op = 2 → 1 ≤ f 4 2 ∧ 1 ≤ f 6 2) ∧
  (op ≠ 2 → f 4 2 = 0 ∧ f 6 2 = 0 ∧ f 40 4 = 0 ∧ f 44 4 = 0 ∧ f 48 4 = 0 ∧ f 52 4 = 0)
/-- The engine is frozen or halted. -/
def EngineStopped (e : Engine) : Prop := e.freeze ≠ {}
/-- Commands of an engine that have not ended. -/
def unfinished (e : Engine) : List StreamCmd :=
  (e.running.map (·.cmd)).toList ++ (e.violating.map (·.cmd)).toList ++ e.queue
/-- The rows of a command have moved in order, each reading what the rows before it left (R158). -/
def Moved (k : StreamCmd) : List (Nat × Nat) → State → State → Prop
  | [], s, t => ∀ x, memRead t.mem x = memRead s.mem x
  | r :: rs, s, t => ∃ u, WroteBytes s u r.2 ((List.range k.len).map fun i =>
      if k.op = 3 then BitVec.ofNat 8 (k.src.toNat / 256 ^ ((r.2 + i) % 8)) else memRead s.mem (r.1 + i)) ∧ Moved k rs u t
/-! ### Tasks (R203 to R225, R392 to R396) -/

/-- One task entry has changed and nothing else. -/
def ChangedTask (s t : State) (e : TaskEntry) (f : TaskEntry → TaskEntry) : Prop :=
  t = { s with tasks := s.tasks.map fun x => if x.uid = e.uid then f x else x }
/-- The task is the earliest unfinished one of its domain (R208). -/
def Earliest (s : State) (e : TaskEntry) : Prop :=
  e.st ≠ .finished ∧ (domain s e.part e.dom).frontier = some e.key
/-- The entries of a domain. -/
def entriesOf (s : State) (v d : Nat) : List TaskEntry := s.tasks.filter fun e => decide (e.part = v ∧ e.dom = d)
/-- Children that the uncommitted tasks of a domain hold. -/
def childrenOf (s : State) (v d : Nat) : Nat := ((entriesOf s v d).map (·.children)).sum
/-- No entry is free in an island's unit, and the spill region of a domain takes none (R210). -/
def NoRoom (s : State) (n v d : Nat) : Prop :=
  8192 ≤ (s.tasks.filter fun e => decide (e.island = n ∧ e.spilled = false)).length ∧
  ((domain s v d).stopped = true ∨ (domain s v d).qcap ≤ ((entriesOf s v d).filter (·.spilled)).length)
/-- Entries in use in an island's task unit. -/
def inUnit (s : State) (n : Nat) : Nat := (s.tasks.filter fun e => decide (e.island = n ∧ e.spilled = false)).length
/-- A new entry, as TSPAWN makes it. -/
def Spawned (s : State) (e : TaskEntry) (v d : Nat) (key : Key) (parent : Option Nat) (fn : Word) (cnt : Nat) : Prop :=
  e.uid = s.nextUid ∧ e.part = v ∧ e.dom = d ∧ e.island = islandOf s.cur ∧ e.spilled = false ∧ e.key = key ∧ e.fn = fn ∧
  e.args = [if 0 < cnt then rx s 10 else 0, if 1 < cnt then rx s 11 else 0, if 2 < cnt then rx s 12 else 0] ∧
  e.st = .ready ∧ e.hart = none ∧ e.parent = parent ∧ e.children = 0 ∧ e.fault = none ∧ e.buf = [] ∧ e.reads = [] ∧ e.writes = []
/-- The hart is idle under its ENTER, or outside task mode, with no work of a task left (R212, R218). -/
def Idle (h : Hart) : Prop := h.task = none ∧ h.vq = [] ∧ h.flight = none ∧ h.heldConvoy = none ∧ h.wait = none
/-- The instructions that are irrevocable whatever their operands (R222, R398, R397). -/
def AlwaysIrrevocable : Instr → Prop
  | .tirrev | .setsr _ _ | .swapsr _ _ _ | .tret | .syscall _ | .waitt _ | .waitwm _ _ _ | .idle | .send _ _ _ _
  | .recv _ _ _ _ | .gbar _ | .setwm _ _ _ | .cacheopIl _ | .cacheopIa | .cacheopWb _ | .cacheopWbi _
  | .tlbinvPage _ _ _ | .tlbinvAsid _ _ | .tlbinvAll _ | .scopy _ _ | .smap _ _ | .sput _ _ => True
  | _ => False
/-- A hart is idle in a domain and can take a task: nothing of its own is still queued (R212, R213). -/
def CanTake (s : State) (v d h : Nat) : Prop :=
  let x := hart s h
  h < 5120 ∧ x.tmode = true ∧ x.task = none ∧ x.vq = [] ∧ x.flight = none ∧ x.sdest = none ∧ x.mq = [] ∧
  x.castMask = none ∧ (∃ c, x.enter = some c ∧ c.dom = d) ∧
  partOf s h = some v ∧ x.started = true ∧ x.preempted = false ∧ x.preemptReq = false ∧ x.stopReq = false ∧ x.freeze = {}
/-- An entry is READY in an island's task unit. -/
def ReadyAt (s : State) (n v d : Nat) (e : TaskEntry) : Prop :=
  e ∈ s.tasks ∧ e.part = v ∧ e.dom = d ∧ e.island = n ∧ e.spilled = false ∧ e.st = .ready
/-- The steward of an island works, its last access does not stall, and the first k entries of the domain's spill region,
which is untranslated, stand in backed HBM of the partition's grant. -/
def SpillOpen (s : State) (n v d k : Nat) : Prop :=
  let q := (domain s v d).qbase.toNat
  n < 20 ∧ partOfIsland s n = some v ∧ (island s n).freezeBit = false ∧ (hart s (placementHart s n)).freeze = {} ∧
  (island s n).recheck ≤ s.time ∧ (domain s v d).ptbase.toNat.testBit 0 = false ∧ s.failedStacks = 0 ∧
  q + 64 * k ≤ 0xEE6B280000 ∧ (part s v).hbmBase.toNat ≤ q ∧
  q + 64 * k ≤ (part s v).hbmBase.toNat + (part s v).hbmSize.toNat
/-- An entry stands in a unit but is not READY, so that it is not spilled. -/
def keptInUnit (s : State) (n : Nat) : Nat :=
  (s.tasks.filter fun e => decide (e.island = n ∧ e.spilled = false ∧ e.st ≠ .ready)).length
/-! ### The steward (R228 to R238) -/

/-- A field of n bytes of a packet or block of bytes. -/
def byteField (bs : List Byte) (o n : Nat) : Nat := leNat ((bs.drop o).take n)
/-- The first failing check of R233, in the order of its table, on the bytes of a packet. -/
def packetFault (bs : List Byte) (maxPrio : Nat) (room : Prop) (code : Nat) : Prop :=
  let f := byteField bs
  let c1 := f 0 1 ≠ 1 ∨ f 6 2 ≠ 0 ∨ f 12 4 ≠ 0
  let c2 := f 2 1 = 0 ∨ 64 < f 2 1
  let c3 := f 4 1 = 0 ∨ 4 < f 4 1
  let c4 := f 3 1 ∉ [0, 1, 2, 4] ∨ 4 < f 4 1 * f 3 1
  let c5 := f 8 2 ∉ [0, 512, 1024, 2048, 4096]
  let c6 := 1 < f 5 1
  let c7 := 4096 < f 10 2
  let c8 := maxPrio < f 1 1
  let c9 := f 16 8 % 4 ≠ 0 ∨ f 40 8 % 4096 ≠ 0 ∨ 2 ^ 48 ≤ f 16 8 ∨ 2 ^ 48 ≤ f 40 8 ∨ 2 ^ 48 ≤ f 56 8
  (code = 1 ∧ c1) ∨ (code = 2 ∧ ¬c1 ∧ c2) ∨ (code = 3 ∧ ¬c1 ∧ ¬c2 ∧ c3) ∨ (code = 4 ∧ ¬c1 ∧ ¬c2 ∧ ¬c3 ∧ c4) ∨
  (code = 5 ∧ ¬c1 ∧ ¬c2 ∧ ¬c3 ∧ ¬c4 ∧ c5) ∨ (code = 6 ∧ ¬c1 ∧ ¬c2 ∧ ¬c3 ∧ ¬c4 ∧ ¬c5 ∧ c6) ∨
  (code = 7 ∧ ¬c1 ∧ ¬c2 ∧ ¬c3 ∧ ¬c4 ∧ ¬c5 ∧ ¬c6 ∧ c7) ∨ (code = 8 ∧ ¬c1 ∧ ¬c2 ∧ ¬c3 ∧ ¬c4 ∧ ¬c5 ∧ ¬c6 ∧ ¬c7 ∧ c8) ∨
  (code = 9 ∧ ¬c1 ∧ ¬c2 ∧ ¬c3 ∧ ¬c4 ∧ ¬c5 ∧ ¬c6 ∧ ¬c7 ∧ ¬c8 ∧ c9) ∨
  (code = 10 ∧ ¬c1 ∧ ¬c2 ∧ ¬c3 ∧ ¬c4 ∧ ¬c5 ∧ ¬c6 ∧ ¬c7 ∧ ¬c8 ∧ ¬c9 ∧ ¬room)
/-- The seed that a convoy's elements drew from, where an instruction of it draws (R76). -/
def drewFrom (c : Convoy) : Option Word :=
  (c.members.find? fun m => m.act.draws && decide (m.cap.rm.toNat = 5)).map (·.cap.seed)
/-- A hart is started and may take what waits for its boundary (R251, R255, R279). -/
def Runs (s : State) (h : Nat) : Prop :=
  (hart s h).started = true ∧ (hart s h).preempted = false ∧ (hart s h).freeze = {} ∧
  (island s (islandOf h)).freezeBit = false
/-- The steward of an island works (R255, R279). -/
def Works (s : State) (n : Nat) : Prop :=
  (island s n).freezeBit = false ∧ (hart s (placementHart s n)).freeze = {}
/-- Bytes that the steward of an island reads and writes under a PTROOT without translation: they stand in backed HBM of
its partition's grant. -/
def Reaches (s : State) (n : Nat) (pt : Word) (a len : Nat) : Prop :=
  pt.toNat.testBit 0 = false ∧ s.failedStacks = 0 ∧ a + len ≤ 0xEE6B280000 ∧
  ∃ v, partOfIsland s n = some v ∧ (part s v).hbmBase.toNat ≤ a ∧
    a + len ≤ (part s v).hbmBase.toNat + (part s v).hbmSize.toNat
/-- Two ranges of addresses share none. -/
def Apart (a n b m : Nat) : Prop := a + n ≤ b ∨ b + m ≤ a
/-- n bytes of memory from an address on. -/
def bytesAt (s : State) (a n : Nat) : List Byte := (List.range n).map fun i => memRead s.mem (a + i)
/-! ### The vector and matrix queues (R19, R39, R110 to R115, R138, R139, R376, R399 to R401) -/

/-- Vector instructions of a hart that have entered its queue and not drained (R19). -/
def queuedVector (h : Hart) : Nat :=
  (h.vq.map fun c => c.members.length).sum + h.flight.elim 0 fun f => f.convoy.members.length
/-- No convoy of the acting hart is exposed to a shootdown or held (R178). -/
def Unexposed (s : State) : Prop :=
  (∀ c ∈ (me s).vq, c.exposed = false) ∧ (me s).heldConvoy = none ∧
  ∀ f, (me s).flight = some f → f.convoy.exposed = true → f.lsStart + f.lsBeats ≤ s.time
/-- Both queues of the acting hart are empty. -/
def BothEmpty (h : Hart) : Prop :=
  h.vq = [] ∧ h.flight = none ∧ h.sdest = none ∧ h.heldConvoy = none ∧ h.mq = []
/-- A memory access older than the hart's last FENCE.VV is queued (R192). -/
def FencedOff (h : Hart) : Prop :=
  (∃ c ∈ h.vq, c.mem = true ∧ c.seq < h.vvFence) ∨ (∃ f, h.flight = some f ∧ f.convoy.mem = true ∧ f.convoy.seq < h.vvFence) ∨
  ∃ e ∈ h.mq, e.mem = true ∧ e.seq < h.vvFence
/-- What a queued instruction of the acting hart captures (R39, R127, R400), `vlSeq`, `seedSeq` and `shapeSeq` being the model's
marks of the setting of VL, of SRSEED and of the shape. -/
def captured (s : State) : Captured :=
  let h := me s
  let c := Machine.core s (coreOf s.cur)
  { vl := h.vl.toNat, vlSeq := h.vlSeq, vstart := h.vstart.toNat, lanes := h.lanes.toNat, regs := h.regs, ew := h.ew, nbv := h.nbv
    rm := h.rm, seed := h.srseed, seedSeq := h.seedSeq, kb := c.kb.toNat, n := c.n.toNat, m := c.m.toNat, short := c.short
    shapeSeq := c.shapeSeq, mode := h.mode, ptbase := h.ptbase }
/-- The vector instructions that are checked for NBV (R399 step 3). -/
def isVectorFloat : Instr → Bool
  | .vfadd .. | .vfsub .. | .vfmul .. | .vfmin .. | .vfmax .. | .vfdiv .. | .vfsqrt .. | .vfma .. | .vfcmp ..
  | .vfcvt .. | .vsf .. | .vbq .. | .vbdq .. | .vfredsum .. | .vfredmin .. | .vfredmax .. => true
  | .vscan _ _ _ _ t _ => t.isAnyFp
  | _ => false
/-- Those that round (R399 step 5). -/
def roundsVector : Instr → Bool
  | .vfadd .. | .vfsub .. | .vfmul .. | .vfma .. | .vfdiv .. | .vfsqrt .. | .vfcvt .. | .vsf .. | .vfredsum ..
  | .vbq .. | .vbdq .. => true
  | .vscan _ _ _ _ t _ => t.isAnyFp
  | _ => false
/-- The state checks of a vector instruction in the order of R399, each with its cause. -/
def vectorChecks (h : Hart) (i : Instr) (a : VAct) : List (Prop × Byte) :=
  [(h.lanes = 0, 0x0C), (isVectorFloat i = true ∧ h.nbv.toNat ∉ [1, 2, 3], 0x60), (h.vs = 0, 0x61),
   (roundsVector i = true ∧ 6 ≤ h.rm.toNat, 0x64),
   ((∃ r ∈ a.readsV ++ a.writesV, 8 * 2 ^ h.regs.toNat ≤ r), 0x67), (8 * 2 ^ h.ew.toNat < a.declWidth, 0x68)]
/-- The first check of a list that fails has this cause. -/
def Fails (l : List (Prop × Byte)) (c : Byte) : Prop :=
  ∃ pre p post, l = pre ++ (p, c) :: post ∧ p ∧ ∀ q ∈ pre, ¬q.1
/-- Every check of a list passes. -/
def Passes (l : List (Prop × Byte)) : Prop := ∀ q ∈ l, ¬q.1
/-- The instruction advances SRSEED: it rounds stochastically under RM 0b101 (R75, R416, R425). -/
def drawsSeed (h : Hart) : Instr → Bool
  | .vfcvt _ _ _ _ t2 => t2.isAnyFp && h.rm == 5
  | .vbq .. => h.rm == 5
  | _ => false
/-- Bit i of the mask that a field selects: k0 selects every element (R42). -/
def selects (h : Hart) (k : BitVec 3) (i : Nat) : Bool := if k = 0 then decide (i < 8192) else h.k[k.toNat].toNat.testBit i
/-- Element i of w bits of a v register (R67). -/
def elementAt (h : Hart) (r : Reg) (w i : Nat) : Nat := (getV h r).toNat / 2 ^ (w * i) % 2 ^ w
/-- The accesses of a vector memory instruction on the hart's registers: element, address, bytes (R403, R406, R408). -/
def vectorBytes (h : Hart) : Instr → Option (List (Nat × Word × Nat))
  | .vld hd _ a t | .vst hd _ a t | .vldff hd _ a t =>
    some (each hd t fun i => getX h a + BitVec.ofNat 64 (if elemBits t = 4 then i / 2 else i * (elemBits t / 8)))
  | .vlds hd _ a b t | .vsts hd _ a b t =>
    some (each hd t fun i => getX h a + BitVec.ofNat 64 i * (match b with
      | .reg r => getX h r
      | .imm v => v.signExtend 64))
  | .vldx hd _ a b t iw | .vstx hd _ a b t iw =>
    some (each hd t fun i => getX h a + BitVec.ofNat 64 (elementAt h b (8 * accBytes iw) i))
  | .vbpld _ _ a w | .vbpst _ _ a w =>
    some [(0, getX h a, (w.toNat + 1) * (h.lanes.toNat * 32768 / (8 * 2 ^ h.regs.toNat)) / 8)]
  | .vsave a | .vrest a => some [(0, getX h a, 64 + h.lanes.toNat * 4096 + 7168)]
  | _ => none
where
  each (hd : VHdr) (t : Ty) (at_ : Nat → Word) : List (Nat × Word × Nat) :=
    ((List.range h.vl.toNat).filter fun i => decide (h.vstart.toNat ≤ i) && selects h hd.km i).map fun i =>
      (i, at_ i, if elemBits t = 4 then 1 else elemBits t / 8)
/-- The index register and the mask register that the probe of a memory instruction takes values from (R114, R403). -/
def probeRegs : Instr → Option Reg × BitVec 3
  | .vldx hd _ _ b _ _ | .vstx hd _ _ b _ _ => (some b, hd.km)
  | .vld hd .. | .vst hd .. | .vldff hd .. | .vlds hd .. | .vsts hd .. => (none, hd.km)
  | _ => (none, 0)
/-- The convoys of a hart in order: the one in flight, then those queued. -/
def convoysIn (h : Hart) : List Convoy := (h.flight.map (·.convoy)).toList ++ h.vq
/-- A queued instruction, by its place, is still to write what the probe needs (R114); before VREST, the oldest convoy is
one (R119). -/
def ProbeAwaits (h : Hart) (i : Instr) (n : Nat) : Prop :=
  match i with
  | .vrest _ => (convoysIn h).head?.map (·.seq) = some n
  | i => (∃ c ∈ convoysIn h, c.seq = n ∧ ∃ m ∈ c.members,
      ((∃ p, m.act = .restore p) ∧ probeRegs i ≠ (none, 0)) ∨ (∃ b, (probeRegs i).1 = some b ∧ b.toNat ∈ m.act.writesV) ∨
      ((probeRegs i).2 ≠ 0 ∧ (probeRegs i).2.toNat ∈ m.act.writesK)) ∨
    ∃ e ∈ h.mq, e.seq = n ∧ ∃ d c r k, e.act = .toVector d c r k ∧ (probeRegs i).1 = some d
/-- A queued store of a hart, by its place, to a page of some bytes, untranslated (R138, R192). -/
def StoreAhead (h : Hart) (va n k : Nat) : Prop :=
  let page (q : Pin) : Prop := ∃ j, j < n ∧ q.ppage = (va + j) / 4096
  (∃ c ∈ convoysIn h, c.seq = k ∧ (∃ m ∈ c.members, m.act.isStore = true) ∧ ∃ q ∈ c.pins, page q) ∨
  ∃ e ∈ h.mq, e.seq = k ∧ e.act.isStore = true ∧ ∃ q ∈ e.pins, page q
/-- The acting hart takes 0xC6 for a register with uncorrectable data, with its error record (R249, R259, R261). -/
def TookBad (s t : State) : Prop :=
  Trapped (errorRecord s (partOf s s.cur) (islandOf s.cur)
    { code := 0xC6, master := 1, place := hartNumber s.cur, aux := (me s).pc.toNat }) t 0xC6 0
/-- The pages of accesses, and no others, are pinned, each to itself (R177, untranslated). -/
def PinnedThere (pins : List Pin) (bs : List (Nat × Word × Nat)) : Prop :=
  ∀ q : Pin, q ∈ pins ↔ q = ⟨q.vpage, q.vpage, false, 12, none, false⟩ ∧
    ∃ p ∈ bs, ∃ j, j < p.2.2 ∧ q.vpage = (p.2.1.toNat + j) / 4096
/-- Vector instructions have entered the queue as one convoy (R110, R400): the hart has gone on, `size` bytes further,
or waits for a scalar destination, and nothing else has changed. `limit` is the element a VLDFF stops before, which is VL
then; the pages of `bs` are pinned. -/
def QueuedConvoy (s t : State) (ms : List VMember) (size : Nat) (seed : Word) (vstart : BitVec 14) (limit : Option Nat)
    (bs : List (Nat × Word × Nat)) : Prop :=
  ∃ pins, PinnedThere pins bs ∧ OnlyActing s t ∧ me t = { me s with
    vq := (me s).vq ++ [{
      pc := (me s).pc, members := ms, pins := pins, seq := (me s).queued, after := (me s).vvFence, mem := ms.any (·.act.isMem)
      exposed := ms.any (·.act.isExposed), start := 0, reprobe := none, limit := limit.getD 16384 }]
    queued := (me s).queued + ms.length, pc := (me s).pc + BitVec.ofNat 64 size
    instret := (me s).instret + BitVec.ofNat 64 ms.length
    wait := if ms.any (·.act.scalarDest.isSome) = true then some .dest else none
    vstart := vstart, vl := limit.elim (me s).vl (BitVec.ofNat 14), srseed := seed }
/-- A probe of the acting hart has failed (R177): the trap is taken with VSTART 0. -/
def ProbeTrap (s t : State) (code : Byte) (tval : Word) : Prop :=
  ∃ u, ChangedHart s u s.cur { me s with vstart := 0 } ∧ Trapped u t code tval
/-- The words from an address on can be fetched without translation, with no fault and no trigger set. -/
def FetchesPlain (s : State) (q : Word) : Prop :=
  (me s).mode = .monitor ∧ (me s).body = none ∧ q.toNat % 4 = 0 ∧ q.toNat + 12 ≤ 0xEE6B280000 ∧ s.failedStacks = 0 ∧
  s.poison = [] ∧ s.lostLines = [] ∧ s.tasks = [] ∧ (island s (islandOf s.cur)).triggers = []
/-- Word k from an address on, as the acting hart's core fetches it (R143, R197). -/
def wordOf (s : State) (q : Word) (k : Nat) : Nat :=
  leNat ((List.range 4).map fun i =>
    let a := q.toNat + 4 * k + i
    match (Machine.core s (coreOf s.cur)).l1i.find? (fun x => x.line == a / 64) with
    | some l => l.bytes.getD (a % 64) 0
    | none => memRead s.mem a)
/-- A relation holds from the state that a fetch leaves: only copies in the L1I and in caches have changed. -/
def UpToFetch (s : State) (p : State → Prop) : Prop :=
  ∃ u : State, u = { s with cores := u.cores, caches := u.caches } ∧
    (∀ k, Machine.core u k = { Machine.core s k with l1i := (Machine.core u k).l1i }) ∧
    (∀ k, k ≠ coreOf s.cur → Machine.core u k = Machine.core s k) ∧ p u
/-- The words of the instruction at an address (R282). -/
def wordsAt (s : State) (q : Word) : List Nat :=
  (List.range (lengthOf (wordOf s q 0) (wordOf s q 1) / 4)).map (wordOf s q)
/-- Two members may not stand in one convoy (R112 rules 3 to 7). -/
def Clash (a b : VAct) : Prop :=
  (a.pipe = b.pipe ∧ a.pipe ∈ [Pipe.ls, .mf, .px]) ∨ (a.slides = true ∧ b.slides = true) ∨
  (b.isCross = true ∧ ∃ r ∈ b.readsV, r ∈ a.writesV) ∨
  (a.isCross = true ∧ b.pipe = .ls) ∨ (b.isCross = true ∧ a.pipe = .ls) ∨
  (∃ d t ad, a = .loadFF d t ad) ∨ (∃ d t ad, b = .loadFF d t ad)
/-- The rows of a matrix access: so many of n bytes at a pitch (R129, R136, R378). -/
def rowsAt (base pitch : Word) (rows n : Nat) : List (Nat × Word × Nat) :=
  if n = 0 then [] else (List.range rows).map fun i => (i, base + BitVec.ofNat 64 i * pitch, n)
/-- The granule of an MMA format or the block of an MX scale format, in bytes (R128, R134). -/
def granuleOf : Ty → Nat
  | .bf | .hf => 2
  | .mx8e4 | .mx8e5 | .mx6a | .mx6b => 32
  | .mx4 => 16
  | _ => 1
/-- B-store rows from `row` on do not fit below 4,096 (R124). -/
def PastEnd (c : Core) (row : Word) : Prop := 4096 < row.toNat + (c.kb.toNat + 31) / 32
/-- A tensor map as an instruction that enters the queue now will find it: an older MTMAP or MREST still queued has written it
(R132, R138). -/
def mapFor (s : State) (m : BitVec 2) : BitVec 512 :=
  (((me s).mq.filterMap fun e => match e.act with
    | .tmap d t => if d = m then some t else none
    | .restore _ maps => some (maps.getD m.toNat 0)
    | _ => none).getLast?).getD (Machine.core s (coreOf s.cur)).tm[m.toNat]
/-- The checks of a matrix instruction that enters the queue, lowest code first (R137, R376 to R378, R380, R140), the
accesses its probe makes, and what it queues with its operands. -/
def matrixForm (s : State) (i : Instr) : Option (List (Prop × Byte) × List (Nat × Word × Nat) × MAct) :=
  let h := me s
  let c := Machine.core s (coreOf s.cur)
  let kb := c.kb.toNat
  let own : Prop × Byte := if 5120 ≤ s.cur then (True, 0x63) else (h.ms = 0, 0x62)
  let off (n : Nat) : Prop × Byte := (kb % n ≠ 0, 0x6A)
  let rows (p : Word) (q : Word) (r n : Nat) := if kb = 0 then [] else rowsAt p q r n
  let move (v : Reg) (row0 : Word) : List (Prop × Byte) :=
    [(h.lanes = 0, 0x0C), (h.vs = 0, 0x61), own, (8 * 2 ^ h.regs.toNat ≤ v.toNat, 0x67), (h.ew.toNat < 2, 0x68),
      (31 < row0.toNat, 0x6A)]
  match i with
  | .mzero d => some ([own], [], .zero d)
  | .mlda d a b => some ([own], rows (rx s a) (rx s b) c.m.toNat kb, .lda d (rx s a) (rx s b) c.m.toNat)
  | .mldaff d a b => some ([own], rows (rx s a) (rx s b) c.m.toNat kb, .ldaFF d (rx s a) (rx s b) c.m.toNat)
  | .mldaScale d a b q => some ([own, off (granuleOf q)], rows (rx s a) (rx s b) c.m.toNat (kb / granuleOf q),
      .ldaScale d (rx s a) (rx s b) q)
  | .mldb d a b => some ([own, (PastEnd c (rx s d), 0x6B)], rows (rx s a) (rx s b) c.n.toNat kb,
      .ldb (rx s d).toNat (rx s a) (rx s b))
  | .mldbScale d a b q => some ([own, off (granuleOf q), (PastEnd c (rx s d), 0x6B)],
      rows (rx s a) (rx s b) c.n.toNat (kb / granuleOf q), .ldbScale (rx s d).toNat (rx s a) (rx s b) q)
  | .mldw d a b m =>
    let t := mapFor s m
    let eb := tmField t 14 1
    some ([own, (t ≠ 0 ∧ (kb % eb ≠ 0 ∨ (rx s b).toNat % eb ≠ 0), 0x6A), (t = 0, 0x6C)],
      if kb = 0 then [] else (List.range c.m.toNat).flatMap fun r => (List.range kb).filterMap fun o =>
        (windowByte t (rx s a).toNat (rx s b).toNat r o).map fun p => (128 * r + o, p, 1),
      .ldw d (rx s a) (rx s b) m)
  | .mma d a b f => some ([(h.nbv.toNat ∉ [1, 2, 3], 0x60), own,
      (f ≠ .b ∧ f ≠ .i4 ∧ 6 ≤ h.rm.toNat, 0x64), off (granuleOf f), (PastEnd c (rx s b), 0x6B)], [],
      .mma d a (rx s b).toNat f)
  | .mstc d a b f => some ([own, ((f = .bf ∨ f = .hf) ∧ 6 ≤ h.rm.toNat, 0x64), off (granuleOf f)],
      rows (rx s a) (rx s b) c.m.toNat (c.n.toNat * f.bits / 8), .stc d (rx s a) (rx s b) f)
  | .mmovcToVector d x b k => some (move d (rx s b), [], .toVector d x (rx s b).toNat k)
  | .mmovcToTile x a b k => some (move a (rx s b), [], .toTile x a (rx s b).toNat k)
  | .mcastTile d a => some ([own, (h.gang.valid = false, 0x6D)], [], .castTile d a)
  | .mcastRows d a => some ([own, (PastEnd c (rx s a), 0x6B), (h.gang.valid = false, 0x6D)], [],
      .castRows d (rx s a).toNat)
  | _ => none
/-- The image instructions and MTMAP: the address register, the bytes it reads or writes there, what it queues, and of those
bytes the run it accesses from the queue (R381: MREST the rest of the image, whose ends it has read). -/
def imageForm (s : State) : Instr → Option (Reg × Nat × MAct × Nat × Nat)
  | .mtmap d a => some (a, 64, .tmap d (BitVec.ofNat 512 (memNat s (rx s a).toNat 64)), 0, 64)
  | .msave a => some (a, 50496, .save (rx s a), 0, 50496)
  | .mrest a => some (a, 50496, .restore (rx s a) ((List.range 4).map fun k =>
      BitVec.ofNat 512 (memNat s ((rx s a).toNat + 50240 + 64 * k) 64)), 64, 50176)
  | _ => none
/-- A matrix instruction has entered the queue (R139): the hart has gone on, and nothing else has changed. -/
def QueuedMatrix (s t : State) (a : MAct) (bs : List (Nat × Word × Nat)) : Prop :=
  ∃ pins, PinnedThere pins bs ∧ OnlyActing s t ∧ me t = { me s with
    mq := (me s).mq ++ [{
      pc := (me s).pc, act := a, cap := captured s, pins := pins, seq := (me s).queued, after := (me s).vvFence, mem := a.isMem
      ends := none, todo := none }]
    queued := (me s).queued + 1, pc := (me s).pc + 4, instret := (me s).instret + 1, wait := none }
/-- A number of bytes of a value from bit 8 × off on. -/
def mapField (v off n : Nat) : Nat := v / 256 ^ off % 256 ^ n
/-- The limits of a tensor map (R131). -/
def LegalMap (v : Nat) : Prop :=
  mapField v 0 8 < 2 ^ 48 ∧ 1 ≤ mapField v 8 2 ∧ 1 ≤ mapField v 10 2 ∧ 1 ≤ mapField v 12 2 ∧ mapField v 14 1 ∈ [1, 2] ∧
  (∀ o ∈ [15, 16, 17, 18, 19, 20], 1 ≤ mapField v o 1 ∧ mapField v o 1 ≤ 15) ∧ mapField v 21 1 ≤ 15 ∧
  mapField v 22 1 ≤ 15 ∧ mapField v 23 1 = 0 ∧ 1 ≤ mapField v 24 2 ∧ 1 ≤ mapField v 26 2 ∧ mapField v 28 4 = 0 ∧
  mapField v 12 2 * mapField v 14 1 ≤ mapField v 40 8 ∧ mapField v 48 16 = 0
/-- The checks of a matrix image in memory (R381); bits [15:14] and [7:6] of TSHAPE are not looked at (log 40). -/
def LegalImage (s : State) (p : Nat) : Prop :=
  let f (o n : Nat) : Nat := memNat s (p + o) n
  f 0 2 = 0x13 ∧ f 2 6 = 0 ∧ f 16 1 ≤ 1 ∧ f 17 47 = 0 ∧ f 11 5 = 0 ∧
  f 10 1 ≤ 128 ∧ f 9 1 % 64 ≤ 32 ∧ f 8 1 % 64 ≤ 32 ∧
  ((f 10 1 = 0 ∧ f 9 1 % 64 = 0 ∧ f 8 1 % 64 = 0) ∨ (f 10 1 ≠ 0 ∧ f 9 1 % 64 ≠ 0 ∧ f 8 1 % 64 ≠ 0)) ∧
  ∀ i, i < 4 → f (50240 + 64 * i) 64 = 0 ∨ LegalMap (f (50240 + 64 * i) 64)
/-- A queued store, by its place, to a page that MTMAP or MREST reads before it enters the queue (R131, R138, R381). -/
def entryAhead (s : State) (k : Nat) : Instr → Prop
  | .mtmap _ a => StoreAhead (me s) (rx s a).toNat 64 k
  | .mrest a => StoreAhead (me s) (rx s a).toNat 64 k ∨ StoreAhead (me s) ((rx s a).toNat + 50240) 256 k
  | _ => False
/-- MREST behind an older matrix instruction (R381). -/
def restWaits (h : Hart) : Instr → Prop
  | .mrest _ => h.mq ≠ [] ∨ h.castMask ≠ none
  | _ => False
/-! ### What queued instructions do (R105 to R107, R113, R133 to R140, R363, R403 to R426) -/

/-- The selected elements below n, in order. -/
def chosen (x : Hart) (k : BitVec 3) (n : Nat) : List Nat := (List.range n).filter (selects x k)
/-- The integer of element i in w bit planes from a register on (R72). -/
def planeInt (x : Hart) (r : Reg) (w : Nat) (t : Ty) (i : Nat) : Int :=
  let u := ((List.range w).map fun j => (elementAt x (r + BitVec.ofNat 5 j) 1 i) * 2 ^ j).sum
  if t.isSigned then (u : Int).bmod (2 ^ w) else u

/-- The v register that an instruction writes, the width of its elements, and what each element receives: `x` is the hart
when the instruction is performed, `y` when it entered the queue, `c` what it captured then. An element with `none`
keeps its bits (R105, R411 to R417, R422 to R424, R426, R409, R410). -/
def elementWrites (x y : Hart) (c : Captured) (i : Instr) : Option (Reg × Nat × (Nat → Option FRes)) :=
  let el (r : Reg) (t : Ty) (e : Nat) : Nat := elementAt x r (elemBits t) e
  let src (b : VSrc) (t : Ty) (e : Nat) : Nat :=
    match b with
    | .reg r => el r t e
    | .imm v => if t.isAnyFp then immElem t v else (v.toInt % (2 : Int) ^ elemBits t).toNat
  let amount (b : VSrc) : Nat :=
    match b with
    | .reg r => (getX y r).toNat
    | .imm v => (v.signExtend 64).toNat
  let put (f : Nat → FRes) (act : Nat → Bool) (e : Nat) : Option FRes := if act e then some (f e) else none
  let one (hd : VHdr) (e : Nat) : Bool := decide (c.vstart ≤ e) && decide (e < c.vl) && selects x hd.km e
  let all (hd : VHdr) (e : Nat) : Bool := decide (e < c.vl) && selects x hd.km e
  let int (hd : VHdr) (d a : Reg) (b : VSrc) (t : Ty) (f : Int → Int → Int) :=
    some (d, elemBits t, put (fun e => wrapped t (f (asInt t (el a t e)) (asInt t (src b t e)))) (one hd))
  let bitw (hd : VHdr) (d a : Reg) (b : VSrc) (t : Ty) (f : Nat → Nat → Nat) :=
    some (d, elemBits t, put (fun e => ⟨f (el a t e) (src b t e), 0⟩) (one hd))
  let fp (hd : VHdr) (d a : Reg) (b : VSrc) (t : Ty) (f : Nat → Nat → FRes) :=
    some (d, elemBits t, put (fun e => f (el a t e) (src b t e)) (one hd))
  let move (hd : VHdr) (d : Reg) (t : Ty) (f : Nat → Nat) := some (d, elemBits t, put (fun e => ⟨f e, 0⟩) (all hd))
  match i with
  | .vadd h d a b t => int h d a b t (· + ·)
  | .vsub h d a b t => int h d a b t (· - ·)
  | .vmul h d a b t => int h d a b t (· * ·)
  | .vmulh h d a b t => int h d a (.reg b) t fun p q => p * q / (2 : Int) ^ t.bits
  | .vmin h d a b t => int h d a b t min
  | .vmax h d a b t => int h d a b t max
  | .vabsd h d a b t => int h d a (.reg b) t fun p q => max p q - min p q
  | .vand h d a b t => bitw h d a b t (· &&& ·)
  | .vor h d a b t => bitw h d a b t (· ||| ·)
  | .vxor h d a b t => bitw h d a b t (· ^^^ ·)
  | .vshl h d a b t => bitw h d a b t fun p q => p * 2 ^ (q % t.bits) % 2 ^ t.bits
  | .vshr h d a b t => bitw h d a b t fun p q => p / 2 ^ (q % t.bits)
  | .vsar h d a b t => bitw h d a b t fun p q =>
      ((p : Int).bmod (2 ^ t.bits) / (2 : Int) ^ (q % t.bits) % (2 : Int) ^ t.bits).toNat
  | .vadds h d a b t =>
    some (d, elemBits t, put (fun e => clamped t (asInt t (el a t e) + asInt t (src b t e))) (one h))
  | .vsubs h d a b t =>
    some (d, elemBits t, put (fun e => clamped t (asInt t (el a t e) - asInt t (src b t e))) (one h))
  | .vmadd h d a b k t => some (d, elemBits t,
      put (fun e => wrapped t (asInt t (el a t e) * asInt t (el b t e) + asInt t (el k t e))) (one h))
  | .vwiden h d a t t2 => some (d, elemBits t2, put (fun e => wrapped t2 (asInt t (el a t e))) (one h))
  | .vnarrow h d a t t2 sat => some (d, elemBits t2,
      put (fun e => if sat then clamped t2 (asInt t (el a t e)) else wrapped t2 (asInt t (el a t e))) (one h))
  | .vfadd h d a b t => fp h d a b t (fpAdd (fmtOf t) c.rm)
  | .vfsub h d a b t => fp h d a b t (fpSub (fmtOf t) c.rm)
  | .vfmul h d a b t => fp h d a b t (fpMul (fmtOf t) c.rm)
  | .vfdiv h d a b t => fp h d a (.reg b) t (fpDiv (fmtOf t) c.rm)
  | .vfsqrt h d a t => fp h d a (.reg a) t fun p _ => fpSqrt (fmtOf t) c.rm p
  | .vfmin h d a b t => fp h d a b t (fpMinMax (fmtOf t) false)
  | .vfmax h d a b t => fp h d a b t (fpMinMax (fmtOf t) true)
  | .vfma h d a b k t form => some (d, elemBits t,
      put (fun e => fpFma (fmtOf t) c.rm form (el a t e) (el b t e) (el k t e)) (one h))
  | .vfcvt h d a t t2 => some (d, elemBits t2, put (fun e =>
      convert t2 t c.rm (if t2.isAnyFp && c.rm == 5 then some (srHash c.seed e) else none) (el a t e)) (one h))
  | .vsf h d a t fn => some (d, elemBits t, put (fun e => special fn (fmtOf t) c.rm (el a t e)) (one h))
  | .vbdq h d a t t2 => some (d, elemBits t2, put (fun e =>
      roundF (fmtOf t2) c.rm none false (mxValue t (elementAt x 31 8 (e / 32)) (el a t e))) (one h))
  | .vmerge h d a b t => some (d, elemBits t, put (fun e => ⟨if selects x h.km e then el a t e else src b t e, 0⟩)
      fun e => decide (c.vstart ≤ e) && decide (e < c.vl))
  | .vbcast h d a t => some (d, elemBits t, put (fun _ => match a with
      | .reg r => ⟨(if t.isAnyFp then unboxF t (getF y r) else (getX y r).toNat) % 2 ^ elemBits t, 0⟩
      | .imm v => ⟨src (.imm v) t 0, 0⟩) (one h))
  | .vmvx h d a t => some (d, elemBits t, put (fun _ => ⟨(getX y a).toNat % 2 ^ elemBits t, 0⟩) fun e => e == 0 && one h e)
  | .vmov h d a t => some (d, elemBits t, put (fun e => ⟨el a t e, 0⟩) (one h))
  | .viota h d t => move h d t fun e => (chosen x h.km e).length % 2 ^ elemBits t
  | .vslideup h d a b t => some (d, elemBits t, put (fun e => ⟨el a t (e - amount b), 0⟩)
      fun e => all h e && decide (amount b ≤ e))
  | .vslidedn h d a b t => move h d t fun e => if e + amount b < c.vl then el a t (e + amount b) else 0
  | .vgather h d a b t iw => move h d t fun e =>
      let j := elementAt x b (8 * accBytes iw) e
      if j < c.vl then el a t j else 0
  | .vcompress h d a t => some (d, elemBits t, fun e => ((chosen x h.km c.vl)[e]?).map fun j => ⟨el a t j, 0⟩)
  | .vexpand h d a t => move h d t fun e => el a t (chosen x h.km e).length
  | .vbpdot _ d a b t wa wb => some (d, elemBits t, put (fun e => wrapped t ((elementAt x d (elemBits t) e : Int) +
      ((List.range 64).map fun j => planeInt x a (wa.toNat + 1) t (64 * e + j) * planeInt x b (wb.toNat + 1) t (64 * e + j)).sum))
      fun e => decide (e < c.lanes * 32768 / (8 * 2 ^ c.regs.toNat) / 64))
  | .vbpcvtTopacked _ d a t w => some (d, elemBits t, put (fun e => wrapped t (planeInt x a (w.toNat + 1) t e))
      fun e => decide (e < c.vl))
  | _ => none

/-- The k register that an instruction writes, and what each bit receives (R363, R413, R415). -/
def bitWrites (x y : Hart) (c : Captured) (i : Instr) : Option (BitVec 3 × (Nat → Option (Bool × BitVec 6))) :=
  let el (r : Reg) (t : Ty) (e : Nat) : Nat := elementAt x r (elemBits t) e
  let src (b : VSrc) (t : Ty) (e : Nat) : Nat :=
    match b with
    | .reg r => el r t e
    | .imm v => if t.isAnyFp then immElem t v else (v.toInt % (2 : Int) ^ elemBits t).toNat
  let one (hd : VHdr) (e : Nat) : Bool := decide (c.vstart ≤ e) && decide (e < c.vl) && selects x hd.km e
  let low (f : Nat → Bool) (e : Nat) : Option (Bool × BitVec 6) := if e < c.vl then some (f e, 0) else none
  match i with
  | .vcmp h d a b t cc => some (d, fun e => if one h e then
      let p := asInt t (el a t e)
      let q := asInt t (src b t e)
      some (match cc with
        | .eq => decide (p = q)
        | .ne => decide (p ≠ q)
        | .lt => decide (p < q)
        | .ge => decide (q ≤ p), 0) else none)
  | .vfcmp h d a b t cc => some (d, fun e => if one h e then some (fpCmp (fmtOf t) cc (el a t e) (src b t e)) else none)
  | .kand d a b => some (d, low fun e => selects x a e && selects x b e)
  | .kor d a b => some (d, low fun e => selects x a e || selects x b e)
  | .kxor d a b => some (d, low fun e => selects x a e != selects x b e)
  | .knot d a => some (d, low fun e => !selects x a e)
  | .kset d a => some (d, low fun e => decide (e < (getX y a).toNat))
  | _ => none

/-- The present elements of a reduction or scan: the active ones below VL, VSTART taken as 0 (R92). -/
noncomputable def presentIn (x : Hart) (c : Captured) (k : BitVec 3) (a : Reg) (t : Ty) (e : Nat) : Option Reading :=
  if e < c.vl ∧ selects x k e = true then some (reading (fmtOf t) (elementAt x a (elemBits t) e)) else none
/-- What an instruction writes to its x or f register, none where VL is 0, and the flags it raises with it (R363, R419 to
R422). -/
def ScalarResult (x y : Hart) (c : Captured) (i : Instr) (v : Option Word) (fl : BitVec 6) : Prop :=
  let ints (h : VHdr) (a : Reg) (t : Ty) : List Int :=
    (chosen x h.km c.vl).map fun e => asInt t (elementAt x a (elemBits t) e)
  let red (t : Ty) (n : Int) : Prop :=
    fl = 0 ∧ v = if c.vl = 0 then none else some (BitVec.ofInt 64 (asInt t (wrapped t n).enc))
  let float (t2 : Ty) (p : FRes → Prop) : Prop :=
    (c.vl = 0 ∧ v = none ∧ fl = 0) ∨ (c.vl ≠ 0 ∧ ∃ r, p r ∧ v = some (fBoxed t2 r.enc) ∧ fl = r.fl)
  let pick (isMax : Bool) (h : VHdr) (d a : Reg) (t t2 : Ty) : Prop := float t2 (Selects isMax (fmtOf t2)
    (reading (fmtOf t2) (unboxed t2 (getF y d)) :: (List.range c.vl).filterMap (presentIn x c h.km a t)))
  match i with
  | .vredsum h d a t => red t ((ints h a t).foldl (· + ·) (asInt t (getX y d).toNat))
  | .vredmin h d a t => red t ((ints h a t).foldl min (asInt t (getX y d).toNat))
  | .vredmax h d a t => red t ((ints h a t).foldl max (asInt t (getX y d).toNat))
  | .vfredsum h d a t t2 => float t2 (Folds c.nbv.toNat (fmtOf t2) c.rm (unboxed t2 (getF y d)) c.vl (presentIn x c h.km a t))
  | .vfredmin h d a t t2 => pick false h d a t t2
  | .vfredmax h d a t t2 => pick true h d a t t2
  | .vmvs h _ a b t =>
    let j := match b with
      | .reg r => (getX y r).toNat
      | .imm v => (v.signExtend 64).toNat
    let e := if j < c.vl ∧ selects x h.km j = true then elementAt x a (elemBits t) j else 0
    fl = 0 ∧ v = some (if t.isAnyFp then fBoxed t e else BitVec.ofInt 64 (asInt t e))
  | .kpopc _ a => fl = 0 ∧ v = some (BitVec.ofNat 64 (chosen x a c.vl).length)
  | .kfirst _ a => fl = 0 ∧ v = some (BitVec.ofNat 64 ((chosen x a c.vl).headD c.vl))
  | _ => False
/-- What VSCAN writes: its elements, and its C register (R94, R421). -/
def ScanResult (x y : Hart) (c : Captured) (hd : VHdr) (a cc : Reg) (t t2 : Ty) (g : Nat → Option FRes) (v : Option Word) : Prop :=
  if t.isAnyFp then ∃ (w : Nat → FRes) (acc : Nat → Nat),
    Scans c.nbv.toNat (fmtOf t2) c.rm (unboxed t2 (getF y cc)) c.vl (presentIn x c hd.km a t) w acc ∧
    (∀ e, (e < c.vl ∧ selects x hd.km e = true → g e = some (w e)) ∧ (¬(e < c.vl ∧ selects x hd.km e = true) → g e = none)) ∧
    v = if c.vl = 0 then none else some (fBoxed t2 (acc ((c.vl + 7) / 8)))
  else
    let sum (n : Nat) : FRes := wrapped t (((chosen x hd.km n).map fun e => asInt t (elementAt x a t.bits e)).sum + asInt t (getX y cc).toNat)
    (∀ e, g e = if e < c.vl ∧ selects x hd.km e = true then some (sum (e + 1)) else none) ∧
    v = if c.vl = 0 then none else some (BitVec.ofInt 64 (asInt t (sum c.vl).enc))
/-- emax of an element format (R83). -/
def largestExponent : Ty → ℤ
  | .mx8e4 => 8
  | .mx8e5 => 15
  | .mx6b => 4
  | _ => 2
/-- R83 for a group of 32 elements: `xs` are the elements that count, absent ones taken as +0; its scale and its codes. -/
def Quantises (t2 : Ty) (rm : BitVec 3) (draw : Nat → Nat) (xs : Nat → Option Reading) (scale : Nat) (r : Nat → FRes) : Prop :=
  let special : Prop := ∃ j, j < 32 ∧ ∃ x, xs j = some x ∧ ∀ v n, x ≠ .num v n
  let sig : Prop := ∃ j, j < 32 ∧ xs j = some (.nan true)
  let num (j : Nat) (v : ℝ) : Prop := ∃ n, xs j = some (.num v n)
  (special → scale = 255 ∧ ∀ j, j < 32 → (r j).enc = 0 ∧ (sig → (r j).fl = fNV) ∧ (¬sig → (r j).fl = 0)) ∧
  (¬special → (∀ j v, j < 32 → num j v → v = 0) → scale = 127 ∧ ∀ j, j < 32 → r j = ⟨0, 0⟩) ∧
  ∀ p : ℤ, ¬special → (∃ j v, j < 32 ∧ num j v ∧ (2 : ℝ) ^ p ≤ |v|) → (∀ j v, j < 32 → num j v → |v| < (2 : ℝ) ^ (p + 1)) →
    let q := max (p - largestExponent t2) (-127)
    (scale : ℤ) = q + 127 ∧ ∀ j, j < 32 → (xs j = none → r j = ⟨0, 0⟩) ∧
      ∀ x, xs j = some x → Converts (fmtOf t2) rm (if rm = 5 then some (draw j) else none) true (x.times (-q)) (r j)

/-- A pre-emption while the instruction waits for its register has it run again (R115). -/
def runsAgain : Instr → Bool
  | .kpopc .. | .kfirst .. => true
  | _ => false
/-- A reduction or a scan, which an abort of the hart's task lets complete (R218). -/
def reduces : Instr → Bool
  | .vredsum .. | .vredmin .. | .vredmax .. | .vfredsum .. | .vfredmin .. | .vfredmax .. | .vscan .. => true
  | _ => false
/-- Nothing holds or records an instruction of hart h that is due: its v registers and the causeway of its core have no
uncorrectable data (R258), no LOCALSPLIT write is in progress (R151), and no trace is on. -/
def Unheld (s : State) (h : Nat) : Prop :=
  (hart s h).badV = 0 ∧ (Machine.core s (coreOf h)).badBeat = false ∧
  (Machine.core s (coreOf h)).trace.ctl.getLsbD 63 = false ∧ ∀ k d v, (hart s k).wait ≠ some (.localsplit d v)
/-- A convoy of this one instruction is in flight in hart h, ready to drain, with what it captured within its bounds; it
entered the queue with the registers of `y`. -/
def InFlight (s : State) (h : Nat) (i : Instr) (y : Hart) (c : Captured) (f : Flight) : Prop :=
  (hart s h).flight = some f ∧ f.convoy.start = 0 ∧ f.convoy.begun = none ∧ f.todo = none ∧ f.drains ≤ s.time ∧
  i.wf = true ∧ Unheld s h ∧ (∀ e, taskAt s h = some e → e.st ≠ .waiting) ∧ c.vl ≤ 8192 ∧ 1 ≤ c.lanes ∧ c.lanes ≤ 16 ∧
  (isVectorFloat i = true → c.nbv.toNat ∈ [1, 2, 3]) ∧ (roundsVector i = true → c.rm.toNat < 6) ∧
  ∃ hd a, memberOf y i = some (hd, a) ∧ f.convoy.members = [⟨a, hd.km, c⟩]
/-- The convoy has drained: the hart is as `x` says, the convoy gone, and nothing outside the hart has changed. -/
def DrainedAs (s t : State) (h : Nat) (x : Hart) : Prop := ChangedHart s t h { x with flight := none, lastDrain := s.time }
/-- The pages of n bytes are pinned, each to itself (R177, untranslated). -/
def PinnedAt (pins : List Pin) (va : Word) (n : Nat) : Prop :=
  ∀ j, j < n → let g := (va.toNat + j) / 4096
    pins.find? (fun q => q.vpage == g) = some ⟨g, g, false, 12, none, false⟩
/-- The flags are those of x and of every result (R82). -/
def Merged (x t : Hart) (g : Nat → Option FRes) : Prop :=
  ∀ k, t.flags.getLsbD k = true ↔ x.flags.getLsbD k = true ∨ ∃ e r, g e = some r ∧ r.fl.getLsbD k = true
/-- The convoy has drained, and of the hart only element by element one v register has changed, and flags and VS with it:
`g` says what each element of w bits of register d receives (R55, R82, R105). -/
def WroteElements (s t : State) (h : Nat) (d : Reg) (w : Nat) (g : Nat → Option FRes) : Prop :=
  let x := hart s h
  DrainedAs s t h { x with v := (hart t h).v, vs := (hart t h).vs, flags := (hart t h).flags } ∧
  ((∃ e, g e ≠ none) → (hart t h).vs = 2) ∧ ((∀ e, g e = none) → (hart t h).vs = x.vs) ∧
  (∀ r, r ≠ d → getV (hart t h) r = getV x r) ∧ Merged x (hart t h) g ∧
  ∀ e, w * e < 65536 → elementAt (hart t h) d w e = (g e).elim (elementAt x d w e) fun r => r.enc % 2 ^ w
/-- Element (i, j) of a C tile (R123). -/
def cAt (c : Core) (d : BitVec 3) (i j : Nat) : Nat := c.c[d.toNat].toNat / 2 ^ (32 * (32 * i + j)) % 2 ^ 32
/-- Byte o of row i of an A tile (R122). -/
def aAt (c : Core) (d : BitVec 2) (i o : Nat) : Nat := c.a[d.toNat].toNat / 2 ^ (8 * (128 * i + o)) % 256
/-- The first address of a core's B-store window, and byte o of column j based at a row, there (R124, R125). -/
def bWindow (c : Nat) : Nat := 0x20000000000 + c / 64 * 0x10000000 + c % 64 * 0x400000
/-- Byte o of column j of a core's B-store, based at a row. -/
def bAddr (c row j o : Nat) : Nat := bWindow c + j * 0x20000 + 32 * row + o
/-- The sidecar byte of an A tile at place b of row i (R122). -/
def asAt (c : Core) (d : BitVec 2) (i b : Nat) : Nat := c.asc[d.toNat].toNat / 2 ^ (8 * (8 * i + b)) % 256
/-- The bytes of an MX block (R70). -/
def blockBytes (f : Ty) : Nat := if f = .mx4 then 16 else 32
/-- Element k of row i of an A tile, as an encoding (R67, R122). -/
def aElement (c : Core) (d : BitVec 2) (f : Ty) (i k : Nat) : Nat :=
  c.a[d.toNat].toNat / 2 ^ (1024 * i + elemBits f * k) % 2 ^ elemBits f
/-- Element k of column j of core n's B-store based at a row (R67, R124). -/
def bElement (s : State) (n row : Nat) (f : Ty) (j k : Nat) : Nat :=
  let at_ := elemBits f * k / 8
  memNat s (bAddr n row j at_) (if elemBits f = 16 then 2 else 1) / 2 ^ (elemBits f * k % 8) % 2 ^ elemBits f
/-- The product of position k for an MMA in a floating-point format, with the block scales of an MX format (R88, R122,
R124). -/
noncomputable def productAt (s : State) (n : Nat) (a : BitVec 2) (row : Nat) (f : Ty) (i j k : Nat) : Reading :=
  let c := Machine.core s n
  let block := elemBits f * k / 8 / blockBytes f * blockBytes f
  let value (scale e : Nat) : Reading := if f.isMx then scaledReading f scale e else reading (fmtOf f) e
  (value (asAt c a i (block / 16)) (aElement c a f i k)).mul
    (value (memRead c.bsc (0x2000 * j + (32 * row + block) / 16)).toNat (bElement s n row f j k))
/-- What an MMA makes of a granted position (R88 to R91, R133). -/
def Accumulates (s : State) (n : Nat) (cap : Captured) (d : BitVec 3) (a : BitVec 2) (row : Nat) (f : Ty) (i j : Nat) (r : FRes) : Prop :=
  let c := Machine.core s n
  let terms := cap.kb * 8 / elemBits f
  if f = .b ∨ f = .i4 then
    r = clamped .w (((List.range terms).map fun k => asInt f (aElement c a f i k) * asInt f (bElement s n row f j k)).sum +
      asInt .w (cAt c d i j))
  else Dots cap.nbv.toNat cap.rm (cAt c d i j) terms (productAt s n a row f i j) r
/-- Where byte o of tile row i of a window lies in memory; none where the pixel is outside the image (R132). -/
def windowAt (t : BitVec 512) (m0 kb0 i o : Nat) : Option Word :=
  let g := mapField t.toNat
  let e := (kb0 + o) / g 14 1
  let k := e / g 12 2
  let iy : Int := ((m0 + i) / g 24 2 * g 17 1 : Nat) - Int.ofNat (g 21 1) + Int.ofNat (k / g 16 1 * g 19 1)
  let ix : Int := ((m0 + i) % g 24 2 * g 18 1 : Nat) - Int.ofNat (g 22 1) + Int.ofNat (k % g 16 1 * g 20 1)
  if m0 + i < g 26 2 * g 24 2 ∧ k / g 16 1 < g 15 1 ∧ 0 ≤ iy ∧ iy < (g 8 2 : Nat) ∧ 0 ≤ ix ∧ ix < (g 10 2 : Nat) then
    some (BitVec.ofInt 64 ((g 0 8 : Nat) + iy * (g 32 8 : Nat) + ix * (g 40 8 : Nat) + (e % g 12 2 * g 14 1 + (kb0 + o) % g 14 1 : Nat)))
  else none
/-- Byte p of the matrix image of a core with the shape that MSAVE captured (R381). -/
def imageByte (c : Core) (cap : Captured) (p : Nat) : Nat :=
  let byte (v k : Nat) : Nat := v / 256 ^ k % 256
  if p < 2 then byte 0x13 p
  else if p < 8 then 0
  else if p < 16 then byte (cap.kb * 65536 + cap.n * 256 + cap.m) (p - 8)
  else if p = 16 then (if cap.short then 1 else 0)
  else if p < 64 then 0
  else if p < 16448 then byte ((c.a[(p - 64) / 4096]?).getD 0).toNat ((p - 64) % 4096)
  else if p < 17472 then byte ((c.asc[(p - 16448) / 256]?).getD 0).toNat ((p - 16448) % 256)
  else if p < 50240 then byte ((c.c[(p - 17472) / 4096]?).getD 0).toNat ((p - 17472) % 4096)
  else byte ((c.tm[(p - 50240) / 64]?).getD 0).toNat ((p - 50240) % 64)
/-- The resource of the engine that an instruction occupies, and for how many cycles (R134, R135). -/
def engineTime (c : Captured) (a : MAct) : MUnit × Nat :=
  let rows := (c.kb + 31) / 32
  match a with
  | .zero _ => (.array, 1)
  | .mma _ _ _ f => (.array, (if f = .i4 ∨ f = .mx4 ∨ f = .f4 then (c.kb + 31) / 32 else (c.kb + 15) / 16))
  | .lda _ _ _ n | .ldaFF _ _ _ n => (.load, n)
  | .ldaScale .. | .ldw .. => (.load, c.m)
  | .ldb .. | .ldbScale .. => (.load, (c.n * rows + 3) / 4)
  | .tmap .. => (.load, 1)
  | .stc .. => (.port, c.m)
  | .toVector _ _ r _ | .toTile _ _ r _ => (.port, min ((c.vl + 31) / 32) (32 - r))
  | .castTile .. => (.port, 32)
  | .castRows .. => (.port, 8 * rows)
  | .save _ | .restore _ _ => (.load, 395)
/-- When a resource of the engine is free. -/
def freeAt (c : Core) : MUnit → Nat
  | .array => c.arrayFree
  | .load => c.loadFree
  | .port => c.portFree
/-- The only entry of hart h's matrix queue is e, whose last cycle is over, with what it captured in its bounds; no
tile, no sidecar, no register and no byte it may read holds uncorrectable data, and nothing holds its accesses. -/
def LastCycle (s : State) (h : Nat) (e : MEntry) : Prop :=
  (hart s h).mq = [e] ∧ Unheld s h ∧ (Machine.core s (coreOf h)).badTiles = [] ∧
  (Machine.core s (coreOf h)).badSides = [] ∧ s.poison = [] ∧ e.todo = none ∧ (∃ t, e.ends = some t ∧ t < s.time) ∧ (hart s h).castMask = none ∧
  (∀ k, taskAt s h = some k → k.st ≠ .waiting) ∧ e.cap.kb ≤ 128 ∧ e.cap.m ≤ 32 ∧ e.cap.n ≤ 32 ∧ e.cap.vl ≤ 2048 ∧ h < 5120
/-- The entry has taken effect and left the queue: the hart is as `x`, its core as `c`, and nothing else has changed. -/
def Performed1 (s t : State) (h : Nat) (x : Hart) (c : Core) : Prop :=
  ∃ u, ChangedCore s u (coreOf h) c ∧ ChangedHart u t h { x with mq := [] }
/-- The deliveries of an MCAST of hart h to the members of its gang `g`: one more at the core of each other one, with this
tile or these rows (R140). -/
def Sent (s t : State) (h : Nat) (g : Gang) (mk : Nat → Nat → Delivery) : Prop :=
  (∀ p ∈ g.harts, p.1 < 64 → p.2 ≠ h → Machine.core t (coreOf p.2) = { Machine.core s (coreOf p.2) with
    deliveries := (Machine.core s (coreOf p.2)).deliveries ++ [mk p.2 p.1] }) ∧
  ∀ k, (∀ p ∈ g.harts, p.1 < 64 → p.2 ≠ h → k ≠ coreOf p.2) → Machine.core t k = Machine.core s k

end Sys2Proof.Claim

open Sys2Proof.Claim

/-- For every well-formed instruction that is no event, with every operand at every value its encoding admits, the decoder
reads from the words of its encoding that very instruction. (14_encoding.md R285; 14_encoding.md R293;
15_opcode_map.md R308) -/
def Obligations.DecodeEncode : Prop :=
  ∀ i : Instr, i.wf = true → i.isEvent = false → decodeWords (encode i) = .ok i

/-- For all words below 2³², if the decoder reads an instruction from them, then it is well formed, is no event, and its
encoding is those words up to the length that R282 gives them: no bit of an accepted encoding is passed over.
(14_encoding.md R282; 14_encoding.md R293; 14_encoding.md R294) -/
def Obligations.EncodeDecode : Prop :=
  ∀ (w0 w1 w2 : Nat) (i : Instr), w0 < 2 ^ 32 → w1 < 2 ^ 32 → w2 < 2 ^ 32 → decode w0 w1 w2 = .ok i →
    i.wf = true ∧ i.isEvent = false ∧ encode i = [w0, w1, w2].take (lengthOf w0 w1 / 4)

/-- The words the spec prints for ADDPC, ADD, EXTS, BREAK, SETVL, TRET, IDLE and WAITT decode to those instructions with
the operands it names. Words whose leading word has a major that is not 1 to 26 and not 56 to 62 are refused with
cause 0x00; words of any other major that are refused are refused with cause 0x01. (17_reference_a_to_k.md R342;
17_reference_a_to_k.md R354; 18_reference_l_to_s.md R386; 19_reference_t_to_z.md R398; 19_reference_t_to_z.md R427;
14_encoding.md R293; 14_encoding.md R294) -/
def Obligations.SpecWords : Prop :=
  decodeWords [0x14A00001] = .ok (.addpc 5 1) ∧
  decodeWords [0x04A58010] = .ok (.addImm 5 5 (BitVec.ofInt 16 (-32752))) ∧
  decodeWords [0x0CA63800] = .ok (.add 5 6 7) ∧
  decodeWords [0x0CA6005A] = .ok (.exts 5 6 .h) ∧
  decodeWords [0x54000051] = .ok (.brk 5) ∧
  decodeWords [0x60A60012] = .ok (.setvl 5 6 1 .w) ∧
  decodeWords [0x58000000] = .ok .tret ∧
  decodeWords [0x58000001] = .ok .idle ∧
  decodeWords [0x48050005] = .ok (.waitt 5) ∧
  ∀ w0 w1 w2 : Nat, w0 < 2 ^ 32 →
    (((1 ≤ w0 / 2 ^ 26 ∧ w0 / 2 ^ 26 ≤ 26) ∨ (56 ≤ w0 / 2 ^ 26 ∧ w0 / 2 ^ 26 ≤ 62)) →
      ∀ r, decode w0 w1 w2 = .error r → r.cause = 0x01) ∧
    (¬((1 ≤ w0 / 2 ^ 26 ∧ w0 / 2 ^ 26 ≤ 26) ∨ (56 ≤ w0 / 2 ^ 26 ∧ w0 / 2 ^ 26 ≤ 62)) →
      ∃ r, decode w0 w1 w2 = .error r ∧ r.cause = 0x00)

/-- With no event from outside, the clock running, and hart h of core c the next to issue (where no event is due, or where
its instruction is a TABORT that the model has act before the cycle's other events, log 8), with no trap waiting for
its boundary, if the words fetched at its PC decode to an instruction i and no trigger stops it, then the step is exec
of i in the state after the fetch, in which h is the acting hart and has the issue slot, where no MCAST mask of the
hart holds i, or i is a vector member, whose whole convoy is checked before it may wait, and no register of its x and
f files has uncorrectable data; another instruction that such a mask holds waits for it; words that are no instruction
raise their cause there. (01_machine.md R20; 14_encoding.md R284; 14_encoding.md R294) -/
def Obligations.StepRunsDecoded : Prop :=
  ∀ (s u s1 s2 : State) (c h : Nat) (ws : List Nat), s.inputs = [] → s.clockStopped = false →
    ((s.scan = 0 → abortNext s = none ∧ nextInternal s = none) ∧ nextIssue s = some (c, h) ∧ u = issueSlot c h s) ∨
      (s.scan = 0 ∧ abortNext s = some (c, h) ∧ u = earlySlot c h s) → (hart s h).boundaryTrap = none →
    fetchInstr u h (hart s h).pc = .ok (s1, ws) → pcTriggers [(hart s h).pc] s1 = .go s2 →
    u.cur = h ∧
    (∀ i, decodeWords ws = .ok i →
      (castHolds (me s2) i = true → memberOf (me s2) i = none → step s = .next (waitOn .castMask s2)) ∧
      (castHolds (me s2) i = false ∨ (memberOf (me s2) i).isSome = true → (me s2).badX = 0 → (me s2).badF = 0 →
        step s = exec i s2)) ∧
    (∀ r, decodeWords ws = .error r → step s = exec (.notAnInstruction (BitVec.ofNat 32 (ws.headD 0)) r.cause) s2)

/-- In monitor mode, with no captured loop body and no task on the module, at an address whose next 12 bytes stand in
backed HBM with no uncorrectable data, the fetch gives as many little-endian words as R282 says the instruction has,
each byte from the L1I's copy of its line where it holds one and from memory where it does not; beside caches it
changes nothing, and no copy of another line in the L1I changes but for lines that give way. An instruction of the
captured body, outside every inner loop, comes from the loop buffer and changes nothing. (14_encoding.md R282;
14_encoding.md R283; 08_translation.md R167; 07_local_memory.md R143; 09_ordering.md R197; 05_vectors.md R116) -/
def Obligations.FetchReadsBytes : Prop :=
  (∀ (s : State) (h : Nat) (pc : Word), (hart s h).mode = .monitor → pc.toNat + 12 ≤ 0xEE6B280000 →
    s.failedStacks = 0 → s.poison = [] → s.lostLines = [] → s.tasks = [] → pc.toNat % 4 = 0 → (hart s h).body = none →
    let c := coreOf h
    let byte (a : Nat) : Nat := match (Machine.core s c).l1i.find? (fun x => x.line == a / 64) with
      | some l => (l.bytes.getD (a % 64) 0).toNat
      | none => (memRead s.mem a).toNat
    let w (k : Nat) : Nat := let a := pc.toNat + 4 * k
      byte a + 2 ^ 8 * byte (a + 1) + 2 ^ 16 * byte (a + 2) + 2 ^ 24 * byte (a + 3)
    ∃ t, fetchInstr s h pc = .ok (t, (List.range (lengthOf (w 0) (w 1) / 4)).map w) ∧
      t = { s with cores := t.cores, caches := t.caches } ∧
      (∀ k, Machine.core t k = { Machine.core s k with l1i := (Machine.core t k).l1i }) ∧
      (∀ k, k ≠ c → Machine.core t k = Machine.core s k) ∧
      ∀ x ∈ (Machine.core t c).l1i, x ∈ (Machine.core s c).l1i ∨
        (pc.toNat / 64 ≤ x.line ∧ x.line ≤ (pc.toNat + 11) / 64 ∧ x.bytes = memReadBytes s.mem (64 * x.line) 64)) ∧
  (∀ (s : State) (h : Nat) (pc : Word) (b : LoopBody) (ws : List Nat), (hart s h).body = some b →
    (b.code.find? fun p => p.1 == pc) = some (pc, ws) → (∀ r ∈ (hart s h).loops, r = (b.start, b.end_)) →
    fetchInstr s h pc = .ok (s, ws))

/-- If memory is in its canonical form (addresses strictly rising, no byte listed that reads as an unlisted one) and the
step goes on, then memory is in that form after the step. (08_translation.md R168; 00_scope.md R4) -/
def Obligations.StepKeepsMemoryForm : Prop :=
  ∀ s t : State, Memory.wf s.mem = true → step s = .next t → Memory.wf t.mem = true

/-- If in every hart PMODE is no reserved mode, EPC is a multiple of 4 and TVEC holds MODE 0 or 1, and every core's
LOCALSPLIT is at most 4 and every island's tag names a partition or none, and the step goes on, then all of that holds
after it. (02_state.md R54; 02_state.md R57; 02_state.md R60; 13_edges.md R266) -/
def Obligations.StepKeepsFields : Prop := ∀ s t : State, FieldsLegal s → step s = .next t → FieldsLegal t

/-- At reset exactly one hart is started: steward hart 1 of the boot island, island 0, in monitor mode at the boot ROM's
entry (whose address is the model's own, log 1), handling no monitor trap (the model's too, log 4), and it is the
monitor hart. Memory and every B-store sidecar are in the canonical form, and every hart, core and island has the
property that StepKeepsFields says every step keeps. (02_state.md R36; 02_state.md R54; 02_state.md R57; 02_state.md
R60; 08_translation.md R168; 12_traps.md R257; 13_edges.md R266) -/
def Obligations.ResetState : Prop :=
  (∀ h, (hart State.reset h).started = true ↔ h = bootHart) ∧ bootHart = 5120 + 1 ∧ islandOf bootHart = 0 ∧
  (hart State.reset bootHart).mode = .monitor ∧ (hart State.reset bootHart).pc = bootEntry ∧
  monitorHart State.reset = bootHart ∧ (hart State.reset bootHart).mon.handling = false ∧
  Canonical State.reset ∧ FieldsLegal State.reset

/-- The words the rule prints decode as it says. In every state XOR of registers and XOR with a signed immediate of 12
bits complete: xd receives the exclusive or, bit by bit, of xa with xb or with the sign-extended immediate (nothing
where d is x0), so that with −1 each bit is the complement of xa's; the PC and the count of retired instructions
advance, and no flag, other register, other hart or byte of memory changes; no cause is raised.
(19_reference_t_to_z.md R429) -/
def Obligations.ExclusiveOr : Prop :=
  decodeWords [0x0CA63804] = .ok (.xor 5 6 7) ∧ decodeWords [0x08A62FFF] = .ok (.xorImm 5 6 0xFFF) ∧
  ∀ (s : State) (d a b : Reg) (imm : BitVec 12),
    let after (v : Nat → Bool) (t : State) : Prop := OnlyActing s t ∧
      (∀ r, r ≠ d ∨ d = 0 → getX (me t) r = getX (me s) r) ∧
      (d ≠ 0 → ∀ k, k < 64 → (getX (me t) d).getLsbD k = v k) ∧
      me t = { me s with x := (me t).x, pc := (me s).pc + 4, instret := (me s).instret + 1, wait := none }
    Completes (.xor d a b) s (after fun k => (rx s a).getLsbD k ^^ (rx s b).getLsbD k) ∧
    Completes (.xorImm d a imm) s (after fun k => (rx s a).getLsbD k ^^ imm.getLsbD (min k 11)) ∧
    Completes (.xorImm d a 0xFFF) s (after fun k => !(rx s a).getLsbD k)

/-- A word of major 13 in format B, with any two registers and any displacement, decodes to the branch that compares those
two registers under the condition that CC numbers: 0 eq, 1 ne, 2 lt, 3 ge, 4 ltu, 5 geu; with CC 6 or 7 it is refused
with cause 0x01. (14_encoding.md R288) -/
def Obligations.ConditionField : Prop :=
  ∀ (a1 a2 : Reg) (disp : BitVec 13) (cc : Nat),
    let w := 13 * 2 ^ 26 + a1.toNat * 2 ^ 21 + a2.toNat * 2 ^ 16 + cc * 2 ^ 13 + disp.toNat
    (∀ c, (cc, c) ∈ [(0, Cond.eq), (1, .ne), (2, .lt), (3, .ge), (4, .ltu), (5, .geu)] →
      decodeWords [w] = .ok (.br a1 a2 c disp)) ∧
    (cc = 6 ∨ cc = 7 → ∃ r, decodeWords [w] = .error r ∧ r.cause = 0x01)

/-- For every scalar integer instruction, register and immediate form, and every state, the step completes: the
destination receives the value the rules give (computed here in exact integers), x0 stays zero, the PC moves on by 4,
one more instruction is retired, and every other register, flag, special register and byte of memory is unchanged. For
SELECT the condition is the old xd. (17_reference_a_to_k.md R342; 18_reference_l_to_s.md R366; 15_opcode_map.md R309;
15_opcode_map.md R310; 15_opcode_map.md R311; 19_reference_t_to_z.md R429) -/
def Obligations.IntegerResults : Prop :=
  ∀ (s : State) (i : Instr) (d : Reg) (v : Word), integerResult s i = some (d, v) →
    Completes i s fun t => WroteX s t d v

/-- In each of the nine formats, whose parameters, largest magnitudes and canonical NaNs are those listed, and in every
rounding mode (0b101 rounds as 0b000 here): the sum, difference, product, quotient, square root and fused multiply-add
of finite operands, where the exact real result v is not zero, delivers v. Rounded with the exponent unbounded above,
by R73 (nearest with ties to even or away, toward zero, down, up), the value is at most the largest finite magnitude:
then the result is that value and OF and SAT are clear; or it is above: then the result is the infinity or the largest
magnitude as the first row of R78 says, with OF, and SAT exactly in a format with no infinity. NX says exactly that
the delivered result is not v; UF that it is inexact and v, rounded with the exponent unbounded below too, is under
the smallest normal number; NV and DZ are clear. The result has the sign of v. (03_numbers.md R65; 03_numbers.md R66;
03_numbers.md R68; 03_numbers.md R73; 03_numbers.md R74; 03_numbers.md R78; 17_reference_a_to_k.md R345;
17_reference_a_to_k.md R347) -/
def Obligations.FloatCorrectlyRounded : Prop :=
  (floatTypes.map fun t => ((fmtOf t).ebits, (fmtOf t).mbits, (fmtOf t).bias, (fmtOf t).maxEnc, (fmtOf t).nanEnc)) =
    [(11, 52, 1023, 0x7FEFFFFFFFFFFFFF, 0x7FF8000000000000), (8, 23, 127, 0x7F7FFFFF, 0x7FC00000),
      (5, 10, 15, 0x7BFF, 0x7E00), (8, 7, 127, 0x7F7F, 0x7FC0), (4, 3, 7, 0x7E, 0x7F), (5, 2, 15, 0x7B, 0x7E),
      (2, 3, 1, 0x1F, 0x1F), (3, 2, 3, 0x1F, 0x1F), (2, 1, 1, 7, 7)] ∧
  ∀ (t : Ty) (rm : BitVec 3) (a b c : Nat), t ∈ floatTypes → rm.toNat < 6 →
    let f := fmtOf t
    let r (e : Nat) : ℝ := realOf f e
    IsFinite f a → IsFinite f b → IsFinite f c →
    DeliversRounded f rm (r a + r b) (fpAdd f rm a b) ∧
    DeliversRounded f rm (r a - r b) (fpSub f rm a b) ∧
    DeliversRounded f rm (r a * r b) (fpMul f rm a b) ∧
    (r b ≠ 0 → DeliversRounded f rm (r a / r b) (fpDiv f rm a b)) ∧
    (0 < r a → DeliversRounded f rm (Real.sqrt (r a)) (fpSqrt f rm a)) ∧
    DeliversRounded f rm (r a * r b + r c) (fpFma f rm .plain a b c) ∧
    DeliversRounded f rm (r a * r b - r c) (fpFma f rm .s a b c) ∧
    DeliversRounded f rm (-(r a * r b) + r c) (fpFma f rm .n a b c) ∧
    DeliversRounded f rm (-(r a * r b) - r c) (fpFma f rm .ns a b c)

/-- In the four scalar formats and every rounding mode: a NaN operand of a sum, product or quotient gives the canonical
NaN, with NV exactly if an operand signals; infinities of opposite signs added, zero times infinity (also before an
FMA's addend, even a quiet NaN), zero over zero, infinity over infinity and the root of a negative number give it with
NV; a finite number other than zero over a zero gives an infinity and DZ; the root of a zero is that zero; an exact
sum of two numbers of opposite value that are not zero is +0, or −0 under 0b010; comparisons of finite operands
compare their real values, those with a NaN are false, with NV for FCMP.lt and FCMP.le always and for FCMP.eq if an
operand signals; FMIN and FMAX of finite operands that differ in value give the lesser and the greater, and with one
NaN give the other operand. (03_numbers.md R68; 17_reference_a_to_k.md R345; 17_reference_a_to_k.md R347) -/
def Obligations.FloatSpecials : Prop :=
  ∀ (t : Ty) (rm : BitVec 3) (a b c : Nat), t ∈ [Ty.df, .sf, .hf, .bf] →
    let f := fmtOf t
    let r (e : Nat) : ℝ := realOf f e
    a < 2 * f.signBit → b < 2 * f.signBit → c < 2 * f.signBit →
    (∀ x ∈ [fpAdd f rm a b, fpSub f rm a b, fpMul f rm a b, fpDiv f rm a b], (IsNan f a ∨ IsNan f b) →
      x.enc = f.nanEnc ∧ (x.fl = fNV ∨ x.fl = 0) ∧ (x.fl = fNV ↔ IsSignalling f a ∨ IsSignalling f b)) ∧
    (IsInf f a → IsInf f b → (signOf f a ≠ signOf f b → fpAdd f rm a b = invalid f) ∧
      (signOf f a = signOf f b → fpSub f rm a b = invalid f ∧ fpAdd f rm a b = ⟨a, 0⟩) ∧ fpDiv f rm a b = invalid f ∧
      fpMul f rm a b = ⟨infOf f a b, 0⟩) ∧
    (IsInf f a → IsFinite f b → fpAdd f rm a b = ⟨a, 0⟩ ∧ fpSub f rm a b = ⟨a, 0⟩ ∧
      fpDiv f rm a b = ⟨infOf f a b, 0⟩ ∧
      fpMul f rm a b = (if r b = 0 then invalid f else ⟨infOf f a b, 0⟩)) ∧
    (IsFinite f a → IsZero f b →
      fpDiv f rm a b = (if r a = 0 then invalid f else ⟨infOf f a b, fDZ⟩)) ∧
    (IsZero f a → IsInf f b → ∀ form, (fpFma f rm form a b c).enc = f.nanEnc ∧
      (fpFma f rm form a b c).fl = fNV) ∧
    (IsFinite f a → r a < 0 → fpSqrt f rm a = invalid f) ∧ (IsZero f a → fpSqrt f rm a = ⟨a, 0⟩) ∧
    (IsFinite f a → IsFinite f b → r a ≠ 0 → r a + r b = 0 →
      fpAdd f rm a b = ⟨if rm = 2 then f.signBit else 0, 0⟩) ∧
    (IsFinite f a → IsFinite f b → (fpCmp f .eq a b = (true, 0) ↔ r a = r b) ∧
      (fpCmp f .lt a b = (true, 0) ↔ r a < r b) ∧ (fpCmp f .le a b = (true, 0) ↔ r a ≤ r b) ∧
      (r a < r b → fpMinMax f false a b = ⟨a, 0⟩ ∧ fpMinMax f true a b = ⟨b, 0⟩)) ∧
    (IsNan f a ∨ IsNan f b → fpCmp f .lt a b = (false, fNV) ∧ fpCmp f .le a b = (false, fNV) ∧
      (IsSignalling f a ∨ IsSignalling f b → fpCmp f .eq a b = (false, fNV)) ∧
      (¬(IsSignalling f a ∨ IsSignalling f b) → fpCmp f .eq a b = (false, 0))) ∧
    (IsNan f a → ¬IsNan f b → ∀ isMax, (fpMinMax f isMax a b).enc = b ∧ (fpMinMax f isMax b a).enc = b) ∧
    (IsNan f a → IsNan f b → ∀ isMax, (fpMinMax f isMax a b).enc = f.nanEnc)

/-- In a hart that runs no speculative task, every scalar floating-point instruction raises 0x60 when NBV is 0 or above 3,
TVAL the leading word; with NBV legal, those that round raise 0x64 when RM is 0b110 or 0b111. For every well-formed
scalar floating-point instruction, with NBV 1 to 3 and, where it rounds, RM at most 0b101, the step completes: its
destination receives the result of its operands (a narrow operand that is not boxed reads as the canonical NaN, a
narrow result is boxed), its flags are merged into FPCTL, and every other register, special register and byte of
memory is unchanged. An FCVT to a floating-point type under RM 0b101 rounds with the draw of SRSEED and index 0, and
SRSEED advances by 1. (17_reference_a_to_k.md R344; 17_reference_a_to_k.md R345; 17_reference_a_to_k.md R346;
17_reference_a_to_k.md R347; 02_state.md R41; 02_state.md R47; 02_state.md R48; 03_numbers.md R75; 03_numbers.md R82) -/
def Obligations.FloatResults : Prop :=
  (∀ (s : State) (i : Instr), Settled s → isScalarFloat i = true →
    ((me s).nbv.toNat ∉ [1, 2, 3] → Completes i s fun t => Trapped s t 0x60 (leadWord i)) ∧
    ((me s).nbv.toNat ∈ [1, 2, 3] → roundsScalar i = true → 6 ≤ (me s).rm.toNat →
      Completes i s fun t => Trapped s t 0x64 (leadWord i))) ∧
  ∀ (s : State) (i : Instr), i.wf = true → (me s).nbv.toNat ∈ [1, 2, 3] →
    (roundsScalar i = true → (me s).rm.toNat ≤ 5) →
    (∀ isF d v fl, floatResult s i = some (isF, d, v, fl) →
      Completes i s fun t => if isF = true then WroteF s t d v fl else WroteXFlags s t d v fl) ∧
    (∀ d a dst src, i = .fcvtToFloat d a dst src → (me s).rm = 5 →
      let r := convert dst src 5 (some (srHash (me s).srseed 0))
        (if src.isInt then (rx s a).toNat else fOperand s src a)
      Completes i s fun t => OnlyActing s t ∧
        (∀ q, getF (me t) q = if q = d then fBoxed dst r.enc else getF (me s) q) ∧
        me t = { me s with f := (me t).f, flags := (me s).flags ||| r.fl, srseed := (me s).srseed + 1,
                           pc := (me s).pc + 4, instret := (me s).instret + 1, wait := none })

/-- `convert`, which FCVT, VFCVT and the .bf and .hf forms of MSTC use, of every encoding between every two types of which
one is a floating-point type: to a floating-point type, a number that is not zero is delivered as
FloatCorrectlyRounded says for an exact value, zero keeps its sign, an infinity stays or is clamped with SAT, a NaN
becomes the canonical NaN, or +0 with NV in a format that has none, NV for a signalling one; so an exactly
representable value converts with no flag. Under 0b101 with a draw h the result is the neighbour away from zero
exactly if h is below the floor of the residue × 2^32 (h is R75's hash of seed and index), unless the value exceeds
the largest magnitude. To an integer type: rounded by RM to an integer, with NX if it differs, clamped with NV and SAT
outside the range, the matching end for an infinity and 0 for a NaN, with NV and SAT. What VBDQ computes is the
conversion of the element's value times its scale, NaN where the scale is 0xFF; an IMM32 for a floating-point type is
the conversion of an FP32 value to nearest even, and for an integer type wraps. (03_numbers.md R69; 03_numbers.md R70;
03_numbers.md R73; 03_numbers.md R75; 03_numbers.md R77; 03_numbers.md R78; 03_numbers.md R79; 03_numbers.md R80;
17_reference_a_to_k.md R346; 19_reference_t_to_z.md R416; 19_reference_t_to_z.md R426; 14_encoding.md R291) -/
def Obligations.Conversions : Prop :=
  (∀ (seed : Word) (i : Nat), srHash seed i = drawFrom seed.toNat i) ∧
  (∀ (dst src : Ty) (rm : BitVec 3) (draw : Option Nat) (e : Nat), dst ∈ floatTypes ∨ src ∈ floatTypes →
    dst ∈ floatTypes ++ integerTypes → src ∈ floatTypes ++ integerTypes → rm.toNat < 6 → e < 2 ^ elemBits src →
    (draw.isSome = true → rm = 5 ∧ dst ∈ floatTypes) →
    (dst ∈ floatTypes → Converts (fmtOf dst) rm draw false (readingOf src e) (convert dst src rm draw e)) ∧
    (dst ∈ integerTypes → ConvertsToInt dst rm (readingOf src e) (convert dst src rm draw e))) ∧
  (∀ (t t2 : Ty) (rm : BitVec 3) (scale e : Nat), t ∈ [Ty.mx8e4, .mx8e5, .mx6a, .mx6b, .mx4] → t2 ∈ [Ty.sf, .bf] →
    rm.toNat < 6 → scale < 256 → e < 2 ^ elemBits t →
    Converts (fmtOf t2) rm none false (scaledReading t scale e) (roundF (fmtOf t2) rm none false (mxValue t scale e))) ∧
  ∀ (t : Ty) (v : Word32), (t ∈ floatTypes → ∃ r, Converts (fmtOf t) 0 none false (reading fmtSf v.toNat) r ∧ immElem t v = r.enc) ∧
    (t ∈ integerTypes → immElem t v = (wrapped t v.toInt).enc)

/-- For FP32 and BF16 elements and every rounding mode (0b101 rounds as 0b000): at zeros, infinities, NaNs and negative
operands each function gives the table of R85, flags included; elsewhere RCP and RSQRT deliver 1 ÷ v and 1 ÷ √v as
FloatCorrectlyRounded says for an exact value. EXP2 of an integer n delivers 2^n, LOG2 of 2^n the number n (+0 for 1).
Every other EXP2, LOG2 and TANH delivers a number so close to the function's value that they lie on the same side of
every number of 40 significant bits, or differ by at most 2^−300 of it, with NX set; for EXP2 beyond ±2000 one beyond
2^2000 or under 2^−1990. That no operand's value lies as close to a rounding boundary is the model's assumption (log
19), not this statement's. (03_numbers.md R84; 03_numbers.md R85; 19_reference_t_to_z.md R417) -/
def Obligations.SpecialFunctions : Prop :=
  ∀ (t : Ty) (rm : BitVec 3) (a : Nat), t ∈ [Ty.sf, .bf] → rm.toNat < 6 →
    let f := fmtOf t
    let go (fn : SfFn) : FRes := special fn f rm a
    let one := f.bias * 2 ^ f.mbits
    let gives (x : ℝ) (r : FRes) : Prop := Delivers f rm none false x x r
    let v := realOf f a
    a < 2 * f.signBit →
    (IsZero f a → go .rcp = ⟨a + f.infEnc, fDZ⟩ ∧ go .rsqrt = ⟨a + f.infEnc, fDZ⟩ ∧ go .exp2 = ⟨one, 0⟩ ∧
      go .log2 = ⟨f.signBit + f.infEnc, fDZ⟩ ∧ go .tanh = ⟨a, 0⟩) ∧
    (a = f.infEnc → go .rcp = ⟨0, 0⟩ ∧ go .rsqrt = ⟨0, 0⟩ ∧ go .exp2 = ⟨f.infEnc, 0⟩ ∧ go .log2 = ⟨f.infEnc, 0⟩ ∧
      go .tanh = ⟨one, 0⟩) ∧
    (a = f.signBit + f.infEnc → go .rcp = ⟨f.signBit, 0⟩ ∧ go .rsqrt = invalid f ∧ go .exp2 = ⟨0, 0⟩ ∧
      go .log2 = invalid f ∧ go .tanh = ⟨f.signBit + one, 0⟩) ∧
    (IsNan f a → ∀ fn, (go fn).enc = f.nanEnc ∧ (IsSignalling f a → (go fn).fl = fNV) ∧ (¬IsSignalling f a → (go fn).fl = 0)) ∧
    (IsFinite f a → v < 0 → go .rsqrt = invalid f ∧ go .log2 = invalid f) ∧
    (IsFinite f a → v ≠ 0 → gives (1 / v) (go .rcp)) ∧
    (IsFinite f a → 0 < v → gives (1 / Real.sqrt v) (go .rsqrt) ∧
      (∀ n : ℤ, v = (2 : ℝ) ^ n → (n = 0 → go .log2 = ⟨0, 0⟩) ∧ (n ≠ 0 → gives n (go .log2))) ∧
      ((∀ n : ℤ, v ≠ (2 : ℝ) ^ n) → (go .log2).fl &&& fNX ≠ 0 ∧ ∃ x, Near (Real.logb 2 v) x ∧ gives x (go .log2))) ∧
    (IsFinite f a → v ≠ 0 →
      (∀ n : ℤ, v = n → |n| ≤ 2000 → gives ((2 : ℝ) ^ n) (go .exp2)) ∧
      ((∀ n : ℤ, v ≠ n) → |v| ≤ 2000 → (go .exp2).fl &&& fNX ≠ 0 ∧ ∃ x, Near ((2 : ℝ) ^ v) x ∧ gives x (go .exp2)) ∧
      (2000 < v → ∃ x, (2 : ℝ) ^ 2000 ≤ x ∧ gives x (go .exp2)) ∧
      (v < -2000 → ∃ x, 0 < x ∧ x ≤ (2 : ℝ) ^ (-1990 : ℤ) ∧ gives x (go .exp2)) ∧
      (go .tanh).fl &&& fNX ≠ 0 ∧ ∃ x, Near (Real.tanh v) x ∧ gives x (go .tanh))

/-- For LD in every width with its offset, LD.AQ in every width at an aligned address, and LDB at any bit address, on
bytes of backed HBM in monitor mode (PlainAt), the load completes: xd receives the little-endian number of the bytes
there, sign-extended for .b, .h, .w and for every LD.AQ, zero-extended for .bu, .hu and .wu; for LDB the W bits from
the bit address, sign- or zero-extended. No byte of memory changes, and nothing else does but the lines the caches
hold. For ST in every width with its offset, ST.RL at an aligned address, and STB at any bit address, on bytes of
backed HBM in monitor mode (PlainAt), the store completes: exactly the bytes at its address hold the low bytes of the
data register in little-endian order (for STB the field's bits are replaced and the others of its bytes kept), every
other byte of memory reads as before, and no register but the PC changes. (18_reference_l_to_s.md R368; 00_scope.md
R4; 08_translation.md R167; 18_reference_l_to_s.md R372; 07_local_memory.md R154) -/
def Obligations.PlainAccesses : Prop :=
  ((∀ (s : State) (d a : Reg) (wd : MemW) (off : BitVec 13), PlainAt s (rx s a + off.signExtend 64) (widthBytes wd) →
      Completes (.ld d a wd off) s fun t =>
        UpToCaches s fun s => WroteX s t d (loadValue wd (memNat s (rx s a + off.signExtend 64).toNat (widthBytes wd)))) ∧
    (∀ (s : State) (d a : Reg) (wd : Size) (sc : Scope), PlainAt s (rx s a) (accBytes wd) → (rx s a).toNat % accBytes wd = 0 →
      Completes (.ldAq d a wd sc) s fun t =>
        UpToCaches s fun s => WroteX s t d (signed (8 * accBytes wd) (memNat s (rx s a).toNat (accBytes wd)))) ∧
    (∀ (s : State) (d a : Reg) (wm1 : BitVec 4) (sx : Bool),
      let w := wm1.toNat + 1
      let p := fieldAt (rx s a) w
      PlainAt s p.1 p.2.2 → Completes (.ldb d a wm1 sx) s fun t =>
        let v := memNat s p.1.toNat p.2.2 / 2 ^ p.2.1 % 2 ^ w
        UpToCaches s fun s => WroteX s t d (if sx = true then signed w v else BitVec.ofNat 64 v))) ∧
  ((∀ (s : State) (d a : Reg) (wd : Size) (off : BitVec 13), PlainAt s (rx s a + off.signExtend 64) (accBytes wd) →
      Completes (.st d a wd off) s fun t =>
        StoredAt s t (rx s a + off.signExtend 64) (accBytes wd) (rx s d).toNat ∧
        me t = { me s with pc := (me s).pc + 4, instret := (me s).instret + 1, wait := none }) ∧
    (∀ (s : State) (a b : Reg) (wd : Size) (sc : Scope), PlainAt s (rx s a) (accBytes wd) → (rx s a).toNat % accBytes wd = 0 →
      Completes (.stRl a b wd sc) s fun t => StoredAt s t (rx s a) (accBytes wd) (rx s b).toNat ∧
        me t = { me s with pc := (me s).pc + 4, instret := (me s).instret + 1, wait := none }) ∧
    (∀ (s : State) (a b : Reg) (wm1 : BitVec 4),
      let w := wm1.toNat + 1
      let p := fieldAt (rx s a) w
      let old := memNat s p.1.toNat p.2.2
      let low := old % 2 ^ p.2.1
      let high := old / 2 ^ (p.2.1 + w)
      PlainAt s p.1 p.2.2 → Completes (.stb a b wm1) s fun t =>
        StoredAt s t p.1 p.2.2 (low + (rx s b).toNat % 2 ^ w * 2 ^ p.2.1 + high * 2 ^ (p.2.1 + w)) ∧
        me t = { me s with pc := (me s).pc + 4, instret := (me s).instret + 1, wait := none }))

/-- For every AMO operation and CAS, in both widths, with any AQ, RL and scope, at an aligned address of backed HBM in
monitor mode (PlainAt), the step completes: xd receives the old value, sign-extended from the width; the bytes at the
address hold the new value of R349's table (computed here on the operands' numbers), or are unchanged where CAS fails;
every other byte of memory and every other register is unchanged. (17_reference_a_to_k.md R349; 17_reference_a_to_k.md
R350) -/
def Obligations.PlainAtomics : Prop :=
  ∀ (s : State) (i : Instr) (d a b : Reg) (dw : Bool), atomicForm i = some (d, a, b, dw) →
    let n := if dw = true then 8 else 4
    PlainAt s (rx s a) n → (rx s a).toNat % n = 0 →
    let old := memNat s (rx s a).toNat n
    let new := atomicNew i n old ((rx s b).toNat % 2 ^ (8 * n)) ((rx s d).toNat % 2 ^ (8 * n))
    Completes i s fun t =>
      StoredAt s t (rx s a) n (new.getD old) ∧
      (∀ r, getX (me t) r = if r = d ∧ d ≠ 0 then signed (8 * n) old else getX (me s) r) ∧
      me t = { me s with x := (me t).x, pc := (me s).pc + 4, instret := (me s).instret + 1, wait := none }

/-- In a hart that runs no speculative task, LD.AQ, ST.RL, every AMO and CAS at an address that is no multiple of their
size, and WAITWM at one that is no multiple of 8, raise 0x26. In monitor mode, with no task and an access that stays
in one page and is aligned where it must be: an address of 2⁵² or more raises 0x24; one outside every region, in HBM
beyond its end, or in a B-store window raises 0x25; a scratchpad address of the hart's own island beyond the valid
rows raises 0x28, one of another island within them 0x29, where no LOCALSPLIT write of that core is in progress; an
MMIO address raises 0x27 for AMO and CAS, and 0x2A for every other access that is not an aligned doubleword; the host
window raises 0x2C while the CXL link is down. TVAL is the address, and nothing else changes. (18_reference_l_to_s.md
R368; 17_reference_a_to_k.md R350; 19_reference_t_to_z.md R428; 07_local_memory.md R149; 07_local_memory.md R150;
08_translation.md R167; 08_translation.md R168; 08_translation.md R174; 13_edges.md R265; 13_edges.md R269) -/
def Obligations.AccessFaults : Prop :=
  (∀ (s : State) (i : Instr) (a : Reg) (n : Nat), Settled s → alignedForm i = some (a, n) → (rx s a).toNat % n ≠ 0 →
    Completes i s fun t => Trapped s t 0x26 (rx s a)) ∧
  (∀ (s : State) (a b : Reg) (sc : Scope), Settled s → (rx s a).toNat % 8 ≠ 0 →
    Completes (.waitwm a b sc) s fun t => Trapped s t 0x26 (rx s a)) ∧
  ∀ (s : State) (i : Instr) (va : Word) (n : Nat) (loads stores amo : Bool),
    scalarForm s i = some (va, n, loads, stores, amo) → (me s).mode = .monitor → (me s).task = none →
    va.toNat % 4096 + n ≤ 4096 → (∀ a k, alignedForm i = some (a, k) → (rx s a).toNat % k = 0) →
    let pa := va.toNat
    (2 ^ 52 ≤ pa → Completes i s fun t => Trapped s t 0x24 va) ∧
    ((0xEE6B280000 ≤ pa ∧ pa < 0x10000000000) ∨ (0x20000000000 ≤ pa ∧ pa < 0x30000000000) ∨
      (0x80000000000 ≤ pa ∧ pa < 0x100000000000) ∨ (0x180000000000 ≤ pa ∧ pa < 2 ^ 52) →
      Completes i s fun t => Trapped s t 0x25 va) ∧
    (∀ c, c < 1280 → 0x10000000000 + 0x100000 * c ≤ pa → pa < 0x10000000000 + 0x100000 * (c + 1) →
      (∀ h ∈ hartsOn c, ∀ d v, (hart s h).wait ≠ some (.localsplit d v)) →
      (c / 64 = islandOf s.cur → spadBytes s c ≤ pa % 0x100000 → Completes i s fun t => Trapped s t 0x28 va) ∧
      (c / 64 ≠ islandOf s.cur → pa % 0x100000 < spadBytes s c → Completes i s fun t => Trapped s t 0x29 va)) ∧
    (0x30000000000 ≤ pa → pa < 0x40000000000 →
      (amo = true → Completes i s fun t => Trapped s t 0x27 va) ∧
      (amo = false → ¬(n = 8 ∧ pa % 8 = 0) → Completes i s fun t => Trapped s t 0x2A va)) ∧
    (0x40000000000 ≤ pa → pa < 0x80000000000 → s.cxlUp = false → Completes i s fun t => Trapped s t 0x2C va)

/-- Where the checks of a scalar access of n bytes pass, with no trigger set on the hart's island, no fault held in the
hart's task, no reads of other tasks that the A and D bits its walk sets could reach, and memory in its canonical
form: the access is n bytes; nothing changes but cached translations and lines, the state of the hart's own task, and
memory, in which no bit is cleared and which stays in its form; untranslated, no byte of memory changes.
(18_reference_l_to_s.md R368; 08_translation.md R170; 08_translation.md R173; 08_translation.md R175) -/
def Obligations.OpenedAccess : Prop :=
  ∀ (s s1 : State) (loads stores amo : Bool) (va : Word) (n : Nat) (ps : List Piece),
    (island s (islandOf s.cur)).triggers = [] → (∀ e, taskAt s s.cur = some e → e.fault = none) →
    (taskAt s s.cur = none → ∀ e ∈ s.tasks, e.reads = []) → Memory.wf s.mem = true → openScalar loads stores amo va n s = .go s1 ps →
    (pieceBytes ps).length = n ∧ s1 = { s with mem := s1.mem, caches := s1.caches, cores := s1.cores, tasks := s1.tasks } ∧
    (∀ c, Machine.core s1 c =
      { Machine.core s c with tlb := (Machine.core s1 c).tlb, small := (Machine.core s1 c).small }) ∧ Memory.wf s1.mem = true ∧
    (∀ a, memRead s1.mem a &&& memRead s.mem a = memRead s.mem a) ∧
    (translated (me s).mode (me s).ptbase = false → MemoryKept s s1)

/-- For LD, aligned LD.AQ and LDB in every mode and region: where the checks pass and the bytes can be read (MMIO through
its register, tasks through their own buffered bytes), the step completes, xd receives those bytes extended as R368
and R154 say, and beside what the read itself did nothing changes. For ST, aligned ST.RL, STB and aligned AMO and CAS
in every mode and region: where the checks pass, the bytes read by a read-modify-write can be read, and the bytes
written can be written, the step completes with exactly those bytes written (the low bytes of the data, the field
merged into its bytes, R349's new value), xd receives an atomic operation's old value, and nothing else changes.
(18_reference_l_to_s.md R368; 07_local_memory.md R154; 18_reference_l_to_s.md R372; 17_reference_a_to_k.md R349;
10_tasks.md R215) -/
def Obligations.AccessesComplete : Prop :=
  (∀ (s s1 s2 : State) (ps : List Piece) (bs : List Byte) (d a : Reg), readAny s1 ps = .ok (s2, bs) →
      (∀ (wd : MemW) (off : BitVec 13),
        openScalar true false false (rx s a + off.signExtend 64) (widthBytes wd) s = .go s1 ps →
        Completes (.ld d a wd off) s fun t => WroteX s2 t d (loadValue wd (leNat bs))) ∧
      (∀ (wd : Size) (sc : Scope), (rx s a).toNat % accBytes wd = 0 →
        openScalar true false false (rx s a) (accBytes wd) s = .go s1 ps →
        Completes (.ldAq d a wd sc) s fun t => WroteX s2 t d (signed (8 * accBytes wd) (leNat bs))) ∧
      (∀ (wm1 : BitVec 4) (sx : Bool),
        let w := wm1.toNat + 1
        let p := fieldAt (rx s a) w
        openScalar true false false p.1 p.2.2 s = .go s1 ps →
        let v := leNat bs / 2 ^ p.2.1 % 2 ^ w
        Completes (.ldb d a wm1 sx) s fun t => WroteX s2 t d (if sx = true then signed w v else BitVec.ofNat 64 v))) ∧
  (∀ (s s1 s2 s3 : State) (ps : List Piece) (bs : List Byte),
      (∀ (d a : Reg) (wd : Size) (off : BitVec 13),
        openScalar false true false (rx s a + off.signExtend 64) (accBytes wd) s = .go s1 ps →
        writeAny s1 ps (bytesOfNat (accBytes wd) (rx s d).toNat) (leadWord (.st d a wd off)) = .ok s2 →
        Completes (.st d a wd off) s fun t => WentTo s2 t ((me s2).pc + 4)) ∧
      (∀ (a b : Reg) (wd : Size) (sc : Scope), (rx s a).toNat % accBytes wd = 0 →
        openScalar false true false (rx s a) (accBytes wd) s = .go s1 ps →
        writeAny s1 ps (bytesOfNat (accBytes wd) (rx s b).toNat) (leadWord (.stRl a b wd sc)) = .ok s2 →
        Completes (.stRl a b wd sc) s fun t => WentTo s2 t ((me s2).pc + 4)) ∧
      (∀ (a b : Reg) (wm1 : BitVec 4),
        let w := wm1.toNat + 1
        let p := fieldAt (rx s a) w
        openScalar true true false p.1 p.2.2 s = .go s1 ps → readScalar s1 ps = .ok (s2, bs) → bs.length = p.2.2 →
        writeScalar s2 ps (bytesOfNat p.2.2 (leNat bs % 2 ^ p.2.1 + (rx s b).toNat % 2 ^ w * 2 ^ p.2.1
          + leNat bs / 2 ^ (p.2.1 + w) * 2 ^ (p.2.1 + w))) = .ok s3 →
        Completes (.stb a b wm1) s fun t => WentTo s3 t ((me s3).pc + 4)) ∧
      (∀ (i : Instr) (d a b : Reg) (dw : Bool), atomicForm i = some (d, a, b, dw) →
        let n := if dw = true then 8 else 4
        (rx s a).toNat % n = 0 → openScalar true true true (rx s a) n s = .go s1 ps →
        readScalar s1 ps = .ok (s2, bs) → bs.length = n →
        match atomicNew i n (leNat bs) ((rx s b).toNat % 2 ^ (8 * n)) ((rx s d).toNat % 2 ^ (8 * n)) with
        | none => Completes i s fun t => WroteX s2 t d (signed (8 * n) (leNat bs))
        | some v => writeScalar s2 ps (bytesOfNat n v) = .ok s3 →
          Completes i s fun t => WroteX s3 t d (signed (8 * n) (leNat bs))))

/-- Where the bytes of a checked scalar access are written: outside task mode every byte of memory at the access's
addresses then holds what was written and every other reads as before; in a task whose bytes lie in tracked memory,
where every line that has no speculative row yet finds room for one in its core's pool of 256 and in its L2 set, which
holds 8, no byte of memory changes. (09_ordering.md R201; 10_tasks.md R215; 10_tasks.md R216; 10_tasks.md R217) -/
def Obligations.WrittenBytes : Prop :=
  ∀ (s t : State) (ps : List Piece) (bs : List Byte), Memory.wf s.mem = true → (pieceBytes ps).Nodup →
    (pieceBytes ps).length = bs.length → writeScalar s ps bs = .ok t →
    (taskAt s s.cur = none →
      MemoryKeptBut (pieceBytes ps) s t ∧ (pieceBytes ps).map (memRead t.mem) = bs) ∧
    (∀ e, taskAt s s.cur = some e → (∀ a ∈ pieceBytes ps, tracked a = true) →
      -- the lines that have no row yet each take one, in any order, while the core's pool and its set have room
      let line (a : Nat) : Nat := a / 64 * 64
      let c := coreOf s.cur
      let sets := l2Sets (Machine.core s c).split
      (∀ new : List Nat, new.Nodup → (∀ l, l ∈ new ↔ l ∉ e.rows ∧ ∃ a ∈ pieceBytes ps, line a = l) →
        ∀ k l, new[k]? = some l →
          let held := s.tasks.flatMap fun o =>
            if o.uid = e.uid then o.rows ++ new.take k else if o.rowCore = c then o.rows else []
          sets ≠ 0 ∧ held.length < 256 ∧ (held.filter fun r => r / 64 % sets == l / 64 % sets).length < 8) →
      MemoryKept s t)

/-- In every state BR goes to PC + 4 × DISP13 if its condition holds of its operands (as signed or unsigned integers),
else to the next instruction; JAL writes PC + 4 to xd and goes to PC + 4 × DISP21; JALR, with xa read before xd is
written, goes to (xa + IMM16) mod 2⁶⁴ if that is a multiple of 4 and writes PC + 4 to xd. In a hart that runs no
speculative task, JALR to another target raises 0x0B with TVAL the target and writes neither. Nothing else changes,
memory included, but that a captured loop body is left where the PC goes out of it; a link to x0 is discarded. LOOP
with a count of 0 (its low 32 bits) sets LC to 0 and goes past the LEND; with another it sets LC and goes on, and a
record of its own end then leads a LEND there, with LC at least 2, back to the instruction after the LOOP with one
count less. A loop buffer that LOOP fills holds at most 64 instructions before the LEND; over plain memory, with an
empty L1I, at most 64 words that each are an instruction of one word, and then LEND, are captured as they stand (when
they are read is the model's choice, log 97). LEND with a record and LC 1 leaves LC 0 and goes on. LEND with LC 0
raises 0x0E. With no record, in monitor mode over plain memory and with an empty L1I, LEND with LC at least 1 finds
the nearest word before it that encodes LOOP with its distance and goes back to the word after it, or on if LC was 1;
it raises 0x0E with LC unchanged where none of the 65,535 words before it does. No other register and no memory
changes. (17_reference_a_to_k.md R353; 14_encoding.md R288; 18_reference_l_to_s.md R374; 05_vectors.md R116) -/
def Obligations.ControlFlow : Prop :=
  ((∀ (s : State) (a b : Reg) (c : Cond) (disp : BitVec 13),
      (branchTaken c (rx s a) (rx s b) → Completes (.br a b c disp) s fun t => JumpedTo s t (wordsOn s disp.toInt)) ∧
      (¬branchTaken c (rx s a) (rx s b) → Completes (.br a b c disp) s fun t => JumpedTo s t ((me s).pc + 4))) ∧
    (∀ (s : State) (d : Reg) (disp : BitVec 21), Completes (.jal d disp) s fun t => Linked s t d (wordsOn s disp.toInt)) ∧
    (∀ (s : State) (d a : Reg) (i : BitVec 16), let dest := BitVec.ofInt 64 ((rx s a).toNat + i.toInt)
      (dest.toNat % 4 = 0 → Completes (.jalr d a i) s fun t => Linked s t d dest) ∧
      (dest.toNat % 4 ≠ 0 → Settled s → Completes (.jalr d a i) s fun t => Trapped s t 0x0B dest))) ∧
  ((∀ (s : State) (a : Reg) (i : BitVec 16), let n := (rx s a).toNat % 2 ^ 32
      (n = 0 → Completes (.loop a i) s fun t => OnlyActing s t ∧
        me t = { me s with lc := 0, pc := wordsOn s (i.toNat + 1), instret := (me s).instret + 1, wait := none
                           body := bodyAt (me s) (wordsOn s (i.toNat + 1)) }) ∧
      (n ≠ 0 → Completes (.loop a i) s fun t => OnlyActing s t ∧
        me t = { me s with lc := BitVec.ofNat 32 n, loops := (me t).loops, pc := (me s).pc + 4
                           instret := (me s).instret + 1, wait := none, body := (me t).body } ∧
        (bodyAt (me s) ((me s).pc + 4) = none → ∀ b, (me t).body = some b →
          b.start = (me s).pc + 4 ∧ b.end_ = wordsOn s i.toNat ∧ b.released = false ∧ b.code.length ≤ 65) ∧
        (bodyAt (me s) ((me s).pc + 4) = none → 1 ≤ i.toNat → i.toNat ≤ 65 →
          PlainAt s ((me s).pc + 4) (4 * i.toNat) → (me s).pc.toNat + 4 < 2 ^ 64 → (me s).pc.toNat % 4 = 0 →
          (Machine.core s (coreOf s.cur)).l1i = [] →
          (∀ k, 1 ≤ k → k < i.toNat → isVectorWord (wordAfter s k) = false) →
          wordAfter s i.toNat = (leadWord .lend).toNat →
          (me t).body.map (·.code) =
            some ((List.range i.toNat).map fun k : Nat => (wordsOn s ((k + 1 : Nat) : Int), [wordAfter s (k + 1)]))) ∧
        (2 ≤ n → ∀ u, (me u).loops = (me t).loops → (me u).pc = wordsOn s i.toNat → (me u).lc = BitVec.ofNat 32 n →
          Completes .lend u fun v => OnlyActing u v ∧
            me v = { me u with lc := BitVec.ofNat 32 (n - 1), pc := (me s).pc + 4
                               instret := (me u).instret + 1, wait := none, body := (me v).body }))) ∧
    (∀ s : State, (me s).lc = 1 → (∃ r ∈ (me s).loops, r.2 = (me s).pc) → Completes .lend s fun t => OnlyActing s t ∧
      me t = { me s with lc := 0, pc := (me s).pc + 4, instret := (me s).instret + 1, wait := none
                         body := bodyAt (me s) ((me s).pc + 4) }) ∧
    (∀ s : State, Settled s → (me s).lc = 0 → Completes .lend s fun t => Trapped s t 0x0E (leadWord .lend)) ∧
    (∀ s : State, (me s).lc ≠ 0 → (me s).loops = [] → PlainAt s ((me s).pc - 262140) 262140 → 262140 ≤ (me s).pc.toNat →
      (me s).pc.toNat % 4 = 0 → (Machine.core s (coreOf s.cur)).l1i = [] →
      (∀ k, 1 ≤ k → k ≤ 65535 → IsLoopWord s ((me s).pc.toNat - 4 * k) k →
        (∀ j, 1 ≤ j → j < k → ¬IsLoopWord s ((me s).pc.toNat - 4 * j) j) →
        Completes .lend s fun t => ∃ u, FetchedFrom s u ∧ OnlyActing u t ∧
          me t = { me s with lc := (me s).lc - 1
                             pc := if (me s).lc = 1 then (me s).pc + 4 else wordsOn s (1 - (k : Int))
                             instret := (me s).instret + 1, wait := none, body := (me t).body }) ∧
      ((∀ k, 1 ≤ k → k ≤ 65535 → ¬IsLoopWord s ((me s).pc.toNat - 4 * k) k) →
        Completes .lend s fun t => ∃ u, FetchedFrom s u ∧ Trapped u t 0x0E (leadWord .lend))))

/-- In a hart that runs no speculative task and is not idle in ENTER: BREAK raises 0xF0, and SYSCALL raises 0x10 +
imm[3:0] in user mode, 0x06 in supervisor mode and 0x07 in monitor mode, TVAL being the leading word, in which bits 15
to 4 are the immediate. Causes other than 0x06 and 0x07 raised below monitor mode enter supervisor mode: EPC names the
instruction, CAUSE.CODE is the cause and ORIG 0, PIE receives IE, PMODE the mode, IE is cleared, and the PC is TVEC's
base, plus 64 × CAUSE[7:5] where its MODE is 1. The others enter monitor mode at the monitor vector (log 4) through
monitor's own registers, and every register of R57, with PIE and PMODE, keeps its value (a reading, log 5). No memory
and no other register changes. In a hart that runs no speculative task: TRET in user mode, and in monitor mode while
no monitor trap is being handled, raises 0x05; in supervisor mode with LATE set and no convoy held it raises 0x0D. In
supervisor mode otherwise, where no held task of its hart waits beside a handler, it restores IE from PIE, sets PIE
and clears PMODE, and goes to EPC in the mode PMODE names (never monitor mode). In monitor mode, handling a trap and
with no change of MONHART due, it restores the mode, IE and PC that monitor mode saved and leaves the registers of R57
and STATUS's other fields (a reading, log 5). With LATE set either (log 58) clears LATE and VEPC and puts the held
convoy back in the vector queue, behind the older convoys, to go on from VSTART, which is then 0. (12_traps.md R248;
12_traps.md R249; 02_state.md R54; 02_state.md R57; 17_reference_a_to_k.md R354; 18_reference_l_to_s.md R390;
19_reference_t_to_z.md R398; 08_translation.md R180) -/
def Obligations.TrapsAndReturns : Prop :=
  (∀ (s : State) (i : BitVec 12), Settled s → ((me s).enter = none ∨ (me s).task ≠ none) →
      ((me s).mode ≠ .monitor → Completes (.brk i) s fun t =>
        EnteredSupervisor s t 0xF0 (BitVec.ofNat 64 (0x54000001 + 16 * i.toNat))) ∧
      ((me s).mode = .monitor → Completes (.brk i) s fun t =>
        EnteredMonitor s t 0xF0 (BitVec.ofNat 64 (0x54000001 + 16 * i.toNat))) ∧
      ((me s).mode = .user → Completes (.syscall i) s fun t =>
        EnteredSupervisor s t (BitVec.ofNat 8 (0x10 + i.toNat % 16)) (BitVec.ofNat 64 (0x54000000 + 16 * i.toNat))) ∧
      ((me s).mode = .supervisor → Completes (.syscall i) s fun t =>
        EnteredMonitor s t 0x06 (BitVec.ofNat 64 (0x54000000 + 16 * i.toNat))) ∧
      ((me s).mode = .monitor → Completes (.syscall i) s fun t =>
        EnteredMonitor s t 0x07 (BitVec.ofNat 64 (0x54000000 + 16 * i.toNat)))) ∧
  (∀ s : State, Settled s →
      ((me s).mode = .user → Completes .tret s fun t => Trapped s t 0x05 0x58000000) ∧
      ((me s).mode = .monitor → (me s).mon.handling = false → Completes .tret s fun t => Trapped s t 0x05 0x58000000) ∧
      ((me s).mode = .supervisor → (me s).late = true → (me s).heldConvoy = none →
        Completes .tret s fun t => Trapped s t 0x0D 0x58000000) ∧
      ((me s).mode = .supervisor → (me s).late = false → (me s).aside = none → Completes .tret s fun t => OnlyActing s t ∧
        me t = { me s with mode := if (me s).pmode = 0 then .user else .supervisor, ie := (me s).pie, pie := true, pmode := 0
                           pc := (me s).epc, instret := (me s).instret + 1, wait := none, body := none }) ∧
      (∀ c, (me s).mode = .supervisor → (me s).late = true → (me s).heldConvoy = some c → (me s).aside = none →
        Completes .tret s fun t => OnlyActing s t ∧
        me t = { resumed (me s) c s.time with
          mode := if (me s).pmode = 0 then .user else .supervisor, ie := (me s).pie, pie := true, pmode := 0
          pc := (me s).epc, instret := (me s).instret + 1, wait := none, body := none }) ∧
      ((me s).mode = .monitor → (me s).mon.handling = true → (me s).late = false → (me s).aside = none →
        s.newMonhart = none → Completes .tret s fun t => OnlyActing s t ∧
        me t = { me s with mode := (me s).mon.mode, ie := (me s).mon.ie, pc := (me s).mon.pc
                           mon := { (me s).mon with traps := (me s).mon.traps.tail }
                           instret := (me s).instret + 1, wait := none, body := none }) ∧
      (∀ c, (me s).mode = .monitor → (me s).mon.handling = true → (me s).late = true → (me s).heldConvoy = some c →
        (me s).aside = none → s.newMonhart = none → Completes .tret s fun t => OnlyActing s t ∧
        me t = { resumed (me s) c s.time with
          mode := (me s).mon.mode, ie := (me s).mon.ie, pc := (me s).mon.pc, mon := { (me s).mon with traps := (me s).mon.traps.tail }
          instret := (me s).instret + 1, wait := none, body := none }))

/-- For every assigned number whose mode is not above the hart's, with the queues empty where the read waits for them (a
held convoy counts for none, log 38) and no batch still to commit where CFR waits for it, GETSR completes: xd receives
the register's value as its layout gives it (computed here field by field), and nothing else changes but, for CFR, the
identifier latched for CFRID. What CFRID reads before a CFR, or in a domain that is not active, is log 79, and that
CYCLE counts on in a debug freeze log 99. In a hart that runs no speculative task, GETSR, SETSR and SWAPSR of a number
whose bits 11 to 10 are 0b11 raise 0x04 in every mode; those of another number above the hart's mode raise 0x03,
assigned or not; those of any other number that is not assigned raise 0x04. TVAL holds the number, and neither the
register nor the destination is written. (02_state.md R37; 02_state.md R39; 02_state.md R44; 02_state.md R53;
02_state.md R62; 17_reference_a_to_k.md R355; 18_reference_l_to_s.md R389; 12_traps.md R249) -/
def Obligations.SystemRegisterReads : Prop :=
  (∀ (s : State) (d : Reg) (n : BitVec 12) (v : Nat), srValue s n.toNat = some v →
      n.toNat / 1024 ≤ (me s).mode.code.toNat → readsAfterQueues s n.toNat → FrontierSettled s n.toNat →
      Completes (.getsr d n) s fun t => WroteHart s t d (BitVec.ofNat 64 v)
        (if n = 0x018 then { me s with cfrid := some (BitVec.ofNat 32 (frontierRead s).2) } else me s)) ∧
  (∀ (s : State) (d a : Reg) (n : BitVec 12) (i : Instr), Settled s →
      i ∈ [Instr.getsr d n, .setsr a n, .swapsr d a n] →
      (n.toNat / 1024 = 3 → Completes i s fun t => Trapped s t 0x04 (n.setWidth 64)) ∧
      (n.toNat / 1024 < 3 → (me s).mode.code.toNat < n.toNat / 1024 →
        Completes i s fun t => Trapped s t 0x03 (n.setWidth 64)) ∧
      (n.toNat / 1024 ≤ (me s).mode.code.toNat → srValue s n.toNat = none →
        Completes i s fun t => Trapped s t 0x04 (n.setWidth 64)))

/-- In a hart that runs no speculative task, for every register of the hart itself whose mode is not above its own, SETSR
completes with the fields the layout lets software write holding their bits of xa, and every reserved or read-only
field, every other register and all of memory unchanged, once the queues are empty where the register is FPCTL (R82);
SWAPSR does the same, with xa read before xd receives the old value, and reads as GETSR does. (STATUS, TSHAPE, TSTAT,
LANEPART, LOCALSPLIT and the monitor registers have statements of their own, for both instructions.) A held convoy
counts for no wait (log 38). (00_scope.md R8; 02_state.md R45; 02_state.md R47; 02_state.md R48; 02_state.md R52;
02_state.md R54; 02_state.md R57; 02_state.md R58; 02_state.md R61; 17_reference_a_to_k.md R355;
18_reference_l_to_s.md R389) -/
def Obligations.SystemRegisterWrites : Prop :=
  ∀ (s : State) (d a : Reg) (n : BitVec 12) (h : Hart), Settled s → n.toNat / 1024 ≤ (me s).mode.code.toNat →
    (srWritten (me s) n.toNat (rx s a) = some h → readsAfterQueues s n.toNat → Completes (.setsr a n) s fun t => WroteHart s t 0 0 h) ∧
    (∀ old, srValue s n.toNat = some old → readsAfterQueues s n.toNat → FrontierSettled s n.toNat →
      let h0 := if n = 0x018 then { me s with cfrid := some (BitVec.ofNat 32 (frontierRead s).2) } else me s
      srWritten h0 n.toNat (rx s a) = some h →
      Completes (.swapsr d a n) s fun t => WroteHart s t d (BitVec.ofNat 64 old) h)

/-- In a hart in supervisor or monitor mode that runs no speculative task, SETSR or SWAPSR of STATUS: taking MS from off
while another hart of the core owns the engine raises 0x66 and writes nothing; a VS of off or initial waits for an
empty vector queue and for every MMOVC, an MS of off or initial for an empty matrix queue (a held convoy counts,
unless the write clears LATE and so discards it: log 104). Otherwise it completes, SWAPSR with the old STATUS in xd:
IE, PIE, PMODE (0b11 stored as 0b01), VS, MS and LATE take their bits; VS initial zeroes every v and k register, VS
off releases the lane groups with VDECL, VL and VLMAX zero; MS initial zeroes the core's tiles, sidecars, tensor maps,
TSHAPE and SHORT, and no other write of MS touches the core; clearing a set LATE discards the held convoy, whose
members INSTRET no longer counts (log 84), VSTART and VEPC. A steward hart's MS stays off. (02_state.md R39;
02_state.md R54; 02_state.md R55; 02_state.md R56; 02_state.md R59; 08_translation.md R180; 18_reference_l_to_s.md
R389) -/
def Obligations.StatusWrites : Prop :=
  ∀ (s : State) (i : Instr) (a d : Reg) (old : Word), Settled s → (me s).mode ≠ .user → WritesSr s i 0x400 a d old →
    let v := rx s a
    let vs := BitVec.ofNat 2 (fieldOf v 4 2)
    let ms := if 5120 ≤ s.cur then 0 else BitVec.ofNat 2 (fieldOf v 6 2)
    let taken := (me s).ms = 0 ∧ ms ≠ 0 ∧ ∃ o ∈ hartsOn (coreOf s.cur), o ≠ s.cur ∧ (hart s o).ms ≠ 0
    let moving := ∃ e ∈ (me s).mq, (∃ d c r k, e.act = .toVector d c r k) ∨ ∃ c r o k, e.act = .toTile c r o k
    let dropped := (me s).late = true ∧ v.toNat.testBit 10 = false
    let vEmpty := ((me s).vq = [] ∧ (me s).flight = none ∧ (me s).sdest = none ∧ (dropped ∨ (me s).heldConvoy = none)) ∧
      ¬moving
    let mEmpty := (me s).mq = [] ∧ (me s).castMask = none
    (taken → Completes i s fun t => Trapped s t 0x66 (leadWord i)) ∧
    (¬taken → vs.toNat < 2 → ¬vEmpty → Completes i s fun t => Waits s t .vqEmpty) ∧
    (¬taken → (vs.toNat < 2 → vEmpty) → ms.toNat < 2 → ¬mEmpty → Completes i s fun t => Waits s t .mqEmpty) ∧
    (¬taken → (vs.toNat < 2 → vEmpty) → (ms.toNat < 2 → mEmpty) → Completes i s fun t =>
      t = { s with harts := t.harts, cores := t.cores } ∧ HartsKeptBut s.cur s t ∧
      (∀ k, k ≠ coreOf s.cur ∨ ms ≠ 1 → Machine.core t k = Machine.core s k) ∧
      (ms = 1 → Machine.core t (coreOf s.cur) = { Machine.core s (coreOf s.cur) with
        a := Vector.replicate 4 0, asc := Vector.replicate 4 0, c := Vector.replicate 8 0, tm := Vector.replicate 4 0
        kb := 0, n := 0, m := 0, short := false, badTiles := [] }) ∧
      (∀ r, getX (me t) r = if r = d ∧ d ≠ 0 then old else getX (me s) r) ∧
      me t = { me s with
        x := (me t).x
        ie := v.toNat.testBit 0, pie := v.toNat.testBit 1, vs := vs, ms := ms, late := v.toNat.testBit 10
        pmode := if fieldOf v 2 2 = 3 then 1 else BitVec.ofNat 2 (fieldOf v 2 2)
        badV := if vs = 1 then 0 else (me s).badV
        v := if vs = 1 then Vector.replicate 32 0 else (me s).v, k := if vs = 1 then Vector.replicate 8 0 else (me s).k
        groups := if vs = 0 then 0 else (me s).groups, lanes := if vs = 0 then 0 else (me s).lanes
        regs := if vs = 0 then 0 else (me s).regs, ew := if vs = 0 then 0 else (me s).ew
        vl := if vs = 0 then 0 else (me s).vl, vlmax := if vs = 0 then 0 else (me s).vlmax
        vlSeq := if vs = 0 then (me s).vlSeq + 1 else (me s).vlSeq
        heldAdvance := if dropped then 0 else (me s).heldAdvance
        heldConvoy := if dropped then none else (me s).heldConvoy, vstart := if dropped then 0 else (me s).vstart
        vepc := if dropped then 0 else (me s).vepc
        instret := (me s).instret - BitVec.ofNat 64 (if dropped then (me s).heldConvoy.elim 0 (·.members.length) else 0) + 1
        pc := (me s).pc + 4, wait := none })

/-- SETSR and SWAPSR (whose xd receives the old value) in a hart that runs no speculative task. TSHAPE: by a hart that
does not own the engine, ignored whatever it holds (log 53); with M or N above 32, KB above 128, or some but not all
of the three zero, 0x65; otherwise the three fields are written and MS becomes dirty. TSTAT: a 1 in bit 1 by the owner
clears SHORT and makes MS dirty, anything else changes nothing. In supervisor or monitor mode, LANEPART breaking R59
raises 0x65, and otherwise takes its 16 bits, unless a supervisor writes it on a managed core, where the write is
ignored. LOCALSPLIT above 4 raises 0x65; one that changes nothing, or a supervisor's on a managed core, is ignored;
another waits while the stream engine has a command, a speculative row is on the core, or a queued instruction that
was checked has still to access the scratchpad (log 106), and then takes the value, the core's L2 portion being empty,
its scratchpad reading zero, with no bad data, and every other byte as before. (02_state.md R50; 02_state.md R56;
02_state.md R59; 02_state.md R60; 11_scheduling.md R234; 18_reference_l_to_s.md R389) -/
def Obligations.CoreRegisterWrites : Prop :=
  ∀ (s : State) (i : Instr) (n0 : BitVec 12) (a d : Reg) (old : Word), Settled s → WritesSr s i n0 a d old →
    let v := rx s a
    let c := Machine.core s (coreOf s.cur)
    let kb := fieldOf v 16 8
    let n := fieldOf v 8 6
    let m := fieldOf v 0 6
    let legal := kb ≤ 128 ∧ n ≤ 32 ∧ m ≤ 32 ∧ (kb = 0 ↔ n = 0) ∧ (n = 0 ↔ m = 0)
    let ignored := Managed s (coreOf s.cur) ∧ (me s).mode = .supervisor
    (n0 = 0x008 → (me s).ms = 0 → Completes i s fun t => WroteHart s t d old (me s)) ∧
    (n0 = 0x008 → (me s).ms ≠ 0 → ¬legal → Completes i s fun t => Trapped s t 0x65 (leadWord i)) ∧
    (n0 = 0x008 → (me s).ms ≠ 0 → legal → Completes i s fun t => ∃ u, WroteCore u t d old
        { c with kb := BitVec.ofNat 8 kb, n := BitVec.ofNat 6 n, m := BitVec.ofNat 6 m, shapeSeq := c.shapeSeq + 1 } ∧
      u = onMe s fun h => { h with ms := 2 }) ∧
    (n0 = 0x009 → (me s).ms ≠ 0 → v.toNat.testBit 1 = true → Completes i s fun t => ∃ u,
      WroteCore u t d old { c with short := false } ∧ u = onMe s fun h => { h with ms := 2 }) ∧
    (n0 = 0x009 → (me s).ms = 0 ∨ v.toNat.testBit 1 = false → Completes i s fun t => WroteHart s t d old (me s)) ∧
    (n0 = 0x409 → (me s).mode ≠ .user →
      (¬LanepartLegal (fieldOf v 0 16) → Completes i s fun t => Trapped s t 0x65 (leadWord i)) ∧
      (LanepartLegal (fieldOf v 0 16) → ignored → Completes i s fun t => WroteHart s t d old (me s)) ∧
      (LanepartLegal (fieldOf v 0 16) → ¬ignored → Completes i s fun t =>
        WroteCore s t d old { c with lanepart := BitVec.ofNat 16 (fieldOf v 0 16) })) ∧
    (n0 = 0x40A → (me s).mode ≠ .user →
      (4 < fieldOf v 0 3 → Completes i s fun t => Trapped s t 0x65 (leadWord i)) ∧
      (fieldOf v 0 3 ≤ 4 → ignored ∨ c.split.toNat = fieldOf v 0 3 →
        Completes i s fun t => WroteHart s t d old (me s)) ∧
      (fieldOf v 0 3 ≤ 4 → ¬ignored → c.split.toNat ≠ fieldOf v 0 3 →
        let inPad (x : Nat) : Prop := x / 0x100000 = 0x100000 + coreOf s.cur
        let free := (c.engine.queue = [] ∧ c.engine.running = none ∧ c.engine.violating = none) ∧
          (∀ e ∈ s.tasks, e.rowCore = coreOf s.cur → e.rows = []) ∧
          ∀ x ∈ s.harts.map (·.2), (∀ e ∈ x.mq, ∀ q ∈ e.pins, ¬inPad (q.ppage * 4096)) ∧
            ∀ k ∈ (x.flight.map (·.convoy)).toList ++ x.vq, k.reprobe = none ∨ k.firstFault = true →
              ∀ q ∈ k.pins, ¬inPad (q.ppage * 4096)
        (¬free → Completes i s fun t => Waits s t (.localsplit d v)) ∧
        (free → Memory.wf s.mem = true → Completes i s fun t => ∃ u,
          WroteCore u t d old { c with split := BitVec.ofNat 3 (fieldOf v 0 3) } ∧
          u = { s with mem := t.mem, caches := t.caches, poison := t.poison } ∧
          (coreCache t (coreOf s.cur)).l1d = [] ∧ (coreCache t (coreOf s.cur)).l2 = [] ∧
          (∀ p, p ∈ t.poison ↔ p ∈ s.poison ∧ ¬inPad p.1) ∧
          ∀ x, (inPad x → memRead t.mem x = 0) ∧ (¬inPad x → memRead t.mem x = memRead s.mem x))))

/-- SETSR and SWAPSR (whose xd receives the old value) in monitor mode, in a hart of an island of the module that runs no
task: PARTTAG takes TAG 0 to 3 or 7, and 4 to 6, or a compute hart of the island other than the writer that is
started, raise 0x65; MONHART above 39 raises 0x65, and another takes effect at once where neither the writer nor the
monitor hart handles a monitor trap (log 83), and otherwise at the return from that handler; HARTPC takes its address,
a multiple of 4; KEYCTL takes ADDR, and its STATE goes from none to enrolled by OP 1, which burns the hash of the
page's key, and from enrolled to revoked by OP 2, while an OP that does not suit is ignored with its ADDR; FWCTL takes
ADDR, and OP 1 or 2 begins a verification, while one written during a verification is ignored. A register not named
keeps its value. (02_state.md R63; 12_traps.md R256; 13_edges.md R266; 13_edges.md R274) -/
def Obligations.MonitorRegisters : Prop :=
  ∀ (s : State) (i : Instr) (n0 : BitVec 12) (a d : Reg) (old : Word), (me s).mode = .monitor → (me s).task = none →
    WritesSr s i n0 a d old →
    let v := rx s a
    let n := islandOf s.cur
    let done (u : State) : Prop := Completes i s fun t => WroteHart u t d old (me u)
    let refused : Prop := Completes i s fun t => Trapped s t 0x65 (leadWord i)
    let op := fieldOf v 2 2
    let busy := ∃ h, h / 256 = n ∧ h ≠ s.cur ∧ (hart s h).started = true
    let later := some (monitorHart s, (hart s (monitorHart s)).mon.traps.length, BitVec.ofNat 6 (fieldOf v 0 6))
    (n0 = 0x800 → ∀ hn : n < 20, (fieldOf v 0 3 ∈ [4, 5, 6] ∨ busy → refused) ∧
      (fieldOf v 0 3 ∉ [4, 5, 6] → ¬busy →
        done { s with tags := s.tags.set n (BitVec.ofNat 3 (fieldOf v 0 3)) hn })) ∧
    (n0 = 0x804 → 40 ≤ fieldOf v 0 6 → refused) ∧
    (n0 = 0x804 → fieldOf v 0 6 < 40 → (me s).mon.traps = [] → (hart s (monitorHart s)).mon.traps = [] →
      done { s with monhart := BitVec.ofNat 6 (fieldOf v 0 6), newMonhart := none }) ∧
    (n0 = 0x804 → fieldOf v 0 6 < 40 → (hart s (monitorHart s)).mon.traps ≠ [] →
      done { s with newMonhart := later }) ∧
    (n0 = 0x804 → fieldOf v 0 6 < 40 → (me s).mon.traps ≠ [] →
      s.cur = monitorHart s ∨ (hart s (monitorHart s)).mon.traps = [] → ((me s).late = true → (me s).heldConvoy ≠ none) →
      Completes i s fun t => t.monhart = s.monhart ∧
        Completes .tret t fun u => u.monhart = BitVec.ofNat 6 (fieldOf v 0 6) ∧ u.newMonhart = none) ∧
    (n0 = 0x806 → done { s with hartpc := BitVec.ofNat 64 (v.toNat / 4 * 4) }) ∧
    (n0 = 0x802 → op = 0 ∨ op = 3 ∨ (op = 1 ∧ s.keyState = 0) ∨ (op = 2 ∧ s.keyState = 1) →
      done { s with
        keyAddr := BitVec.ofNat 40 (fieldOf v 12 40)
        keyState := if op = 1 then 1 else if op = 2 then 2 else s.keyState
        keyHash := if op = 1 then Config.keyHash (memReadBytes s.mem (fieldOf v 12 40 * 4096) 4096) else s.keyHash }) ∧
    (n0 = 0x802 → (op = 1 ∧ s.keyState ≠ 0) ∨ (op = 2 ∧ s.keyState ≠ 1) → done s) ∧
    (n0 = 0x803 → op ≠ 0 → s.fwState = 1 → done s) ∧
    (n0 = 0x803 → op = 0 ∨ s.fwState ≠ 1 → done { s with
      fwAddr := BitVec.ofNat 40 (fieldOf v 12 40), fwState := if op = 1 ∨ op = 2 then 1 else s.fwState
      fwOp := if op = 1 ∨ op = 2 then op else s.fwOp })

/-- SWISET with a position below 256, by a master R265 lets write it, sets bit 1 of that hart's IPEND; DOORBELL bit 3 of
the compute hart it names; an external line n bit 8 + n of the hart its IRQROUTE names while enabled; TIMECMP at or
below TIME bit 2; a counter overflow bit 5; HOSTIRQ sends its MSI-X vector. A write that may not be made, or of
another value, changes nothing, and no event does anything else (log 14). A hart that runs with IE set, at its
boundary and with no pre-emption due, takes the lowest interrupt that is pending and enabled, with cause 0xE0 + k and
TVAL 0: below monitor mode into supervisor mode with EPC at the next instruction, and in monitor mode through
monitor's own registers (PIE and PMODE kept: log 5), an IDLE it waits in retired first, and an ENTER it is idle in
left to run again. A hart whose task waits or is held takes it too, beside the instruction it stands at, with its
task's entry unchanged. (13_edges.md R265; 13_edges.md R267; 13_edges.md R277; 12_traps.md R248; 12_traps.md R251;
12_traps.md R253; 17_reference_a_to_k.md R356; 10_tasks.md R223) -/
def Obligations.InterruptEvents : Prop :=
  (∀ (s : State) (who : Who) (n : Nat) (v : Word), n < 20 →
    (WritesIsland s who n true ∧ v.toNat < 256 →
      Completes (.swisetWrite who n v) s fun t => Pended s t (256 * n + v.toNat) 1) ∧
    (¬(WritesIsland s who n true ∧ v.toNat < 256) → Becomes (.swisetWrite who n v) s s)) ∧
  (∀ (s : State) (who : Who) (f : Nat) (v : Word), f < 4 →
    (WritesPartition s who f ∧ fieldOf v 0 13 < 5120 →
      Completes (.doorbellWrite who f v) s fun t => Pended s t (fieldOf v 0 13) 3) ∧
    (¬(WritesPartition s who f ∧ fieldOf v 0 13 < 5120) → Becomes (.doorbellWrite who f v) s s) ∧
    (WritesPartition s who f → Completes (.hostirqWrite who f v) s fun t =>
      ChangedPart s t f { part s f with msix := (part s f).msix ++ [fieldOf v 0 4] }) ∧
    (¬WritesPartition s who f → Becomes (.hostirqWrite who f v) s s)) ∧
  (∀ (s : State) (f : Nat) (line : BitVec 3), let r := (part s f).irqRoute[line.toNat]
    (r.toNat.testBit 63 = true →
      Completes (.externalInterrupt f line) s fun t => Pended s t (fieldOf r 0 13) (8 + line.toNat)) ∧
    (r.toNat.testBit 63 = false → Becomes (.externalInterrupt f line) s s)) ∧
  (∀ (s : State) (h : Nat), Completes (.performanceCounterOverflow h) s (Pended s · h 5) ∧
    let now := (s.time + (island s (islandOf h)).timeAhead.toNat) % 2 ^ 64
    ((hart s h).timecmp.toNat ≤ now → Completes (.timecmpMatch h) s (Pended s · h 2)) ∧
    (now < (hart s h).timecmp.toNat → Becomes (.timecmpMatch h) s s)) ∧
  (∀ (s : State) (h k : Nat), let x := hart s h
    let now := (s.time + (island s (islandOf h)).timeAhead.toNat) % 2 ^ 64
    let pends (j : Nat) : Prop := (x.ipend.toNat.testBit j = true ∨ (j = 2 ∧ x.timecmp.toNat ≤ now)) ∧
      x.imask.toNat.testBit j = true
    x.started = true → x.preempted = false → x.freeze = {} → (island s (islandOf h)).freezeBit = false → x.ie = true →
    x.wait ≠ some .dest → x.preemptReq = false → 1 ≤ k → k ≤ 15 → pends k → (∀ j, 1 ≤ j → j < k → ¬pends j) →
    let y : Hart := if x.enter ≠ none ∧ x.task = none then { x with enter := none, tmode := false } else x
    let z : Hart := if x.wait = some .idle then { y with pc := x.pc + 4, instret := x.instret + 1 } else y
    let entered : Hart := if x.mode = .monitor then monitorEntry z (BitVec.ofNat 8 (0xE0 + k)) 0
      else supervisorEntry z (BitVec.ofNat 8 (0xE0 + k)) 0 z.pc
    let stands := ∃ e, taskAt s h = some e ∧ e.st ≠ .running ∧ e.st ≠ .irrev ∧ x.aside = none
    Completes (.interruptTake h) s fun t => (¬stands → ChangedHart s t h entered) ∧
      (stands → ChangedHart s t h { entered with aside := some (x.pc, x.mode) }))

/-- A write of HARTCTL with a start names a hart that exists and is not started, in MODE 0 to 2: the hart runs from HARTPC
in that mode with its other registers as they stand, unless its island is assigned to no function. A stop of a started
hart that is not the monitor hart has it stop at its boundary, once its queues are empty, with every register kept. A
write that names no hart, starts one that is not stopped, stops the monitor hart or has MODE 3 changes nothing, and
raises 0x65 where SETSR made it. SETSR in monitor mode does what the write does and goes on, as does SWAPSR with the
old value in xd. A hart that starts handles no monitor trap, holds no loop, and settles a MONHART write that waited
for its handler (the model's choice, log 114). A write of MONHART by a monitor hart that handles no trap takes effect
at once (the model's choice, log 83), one it makes in its handler waits for the return, and one above 39 changes
nothing (that no event does anything else is log 14). (02_state.md R36; 02_state.md R63; 13_edges.md R266; 12_traps.md
R257) -/
def Obligations.HartControl : Prop :=
  (∀ (s : State) (v : Word) (start : Bool),
    let num := fieldOf v 0 13
    let steward := v.toNat.testBit 15
    let h := if steward = true then 5120 + num else num
    let i : Instr := if start = true then .hartctlStart v else .hartctlStop v
    let legal := (if steward = true then num < 40 else num < 5120) ∧ fieldOf v 16 2 ≠ 3 ∧
      (start = true → (hart s h).started = false) ∧ (start = false → h ≠ monitorHart s)
    (¬legal → Becomes i s s) ∧
    (legal → Completes i s fun t =>
      t = { s with harts := t.harts, hartctlMode := BitVec.ofNat 2 (fieldOf v 16 2), hartctlSteward := steward
                   hartctlNum := BitVec.ofNat 13 num, monhart := t.monhart, newMonhart := t.newMonhart } ∧
      (t.monhart, t.newMonhart) = (match s.newMonhart with
        | some (w, depth, m) => if start = true ∧ partOf s h ≠ none ∧ w = h ∧ 0 < depth then (m, none)
          else (s.monhart, s.newMonhart)
        | none => (s.monhart, none)) ∧ (∀ k, k ≠ h → hart t k = hart s k) ∧
      hart t h = (if start = true then
          (if partOf s h = none then hart s h
          else { hart s h with started := true, stopped := false, stopReq := false, wait := none, pc := s.hartpc
                               mon := { (hart s h).mon with traps := [] }, loops := [], body := none
                               mode := if fieldOf v 16 2 = 0 then .user else if fieldOf v 16 2 = 1 then .supervisor else .monitor })
        else if (hart s h).started = true then { hart s h with stopReq := true } else hart s h)) ∧
    (∀ (j : Instr) (a d : Reg) (old : Word), WritesSr s j 0x805 a d old → (me s).mode = .monitor → (me s).task = none →
      rx s a = v → fieldOf v 62 2 = (if start = true then 1 else 2) →
      (¬legal → Completes j s fun t => Trapped s t 0x65 (leadWord j)) ∧
      (legal → ∀ u, Becomes i s u → Completes j s fun t => WroteHart u t d old (me u)))) ∧
  (∀ (s : State) (h : Nat), let x := hart s h
    let empty := x.vq = [] ∧ x.flight = none ∧ x.sdest = none ∧ x.mq = [] ∧ x.castMask = none
    (x.started = true ∧ x.stopReq = true ∧ empty → Completes (.hartStop h) s fun t =>
      ChangedHart s t h { x with started := false, stopped := true, stopReq := false, wait := none }) ∧
    (¬(x.started = true ∧ x.stopReq = true ∧ empty) → Becomes (.hartStop h) s s)) ∧
  (∀ (s : State) (v : Word),
    let later := some (monitorHart s, (hart s (monitorHart s)).mon.traps.length, BitVec.ofNat 6 (fieldOf v 0 6))
    (40 ≤ fieldOf v 0 6 → Becomes (.monhartWrite v) s s) ∧
    (fieldOf v 0 6 < 40 → (hart s (monitorHart s)).mon.traps = [] →
      Becomes (.monhartWrite v) s { s with monhart := BitVec.ofNat 6 (fieldOf v 0 6), newMonhart := none }) ∧
    (fieldOf v 0 6 < 40 → (hart s (monitorHart s)).mon.traps ≠ [] → 
      Becomes (.monhartWrite v) s { s with newMonhart := later }))

/-- A write of FREEZE that freezes, with KIND 1 to 4 and TARGET in range, freezes the hart, the stream engine, the
function's traffic, or every hart but the monitor hart, every engine and the traffic of the partition, and stores KIND
and TARGET; nothing else changes (log 14). A release of a hart that is not halted clears its freeze, and where it was
frozen for a violation the hart then takes that cause at its PC; a halted hart stays as it is. A release of an engine
clears its freeze, and a violating command, once its words are performed, ends as failed without a mailbox of its own.
A release of traffic lets it go on. A release of a partition does all of that to its masters. None releases what a
reset of the partition holds. OP 0 and 3 only store KIND and TARGET, for KIND 0 too. KIND above 4, KIND 0 with OP 1 or
2, or a TARGET out of range, changes nothing, and raises 0x65 where SETSR or SWAPSR made the write; these in monitor
mode do what the write does and go on. (12_traps.md R255; 12_traps.md R256; 12_traps.md R257; 12_traps.md R263) -/
def Obligations.FreezeControl : Prop :=
  ∀ (s : State) (v : Word),
    let kind := fieldOf v 24 3
    let target := fieldOf v 0 13
    let legal := (kind = 1 ∧ target < 5120) ∨ (kind = 2 ∧ target < 1280) ∨ ((kind = 3 ∨ kind = 4) ∧ target < 4)
    let s1 : State := { s with freezeKind := BitVec.ofNat 3 kind, freezeTarget := BitVec.ofNat 13 target }
    let held (x : Hart) : Hart := { x with freeze := { x.freeze with byFreeze := true } }
    let halt (c : Core) : Core := { c with engine := { c.engine with freeze := { c.engine.freeze with byFreeze := true } } }
    let resets := (∃ p, partOf s target = some p ∧ Resetting s p)
    (¬legal → Becomes (.freezeMaster v) s s ∧ Becomes (.freezeRelease v) s s) ∧
    (kind = 1 → legal → Completes (.freezeMaster v) s fun t => ChangedHart s1 t target (held (hart s target))) ∧
    (kind = 2 → legal → Completes (.freezeMaster v) s fun t => ChangedCore s1 t target (halt (Machine.core s target))) ∧
    (kind = 3 → legal → Completes (.freezeMaster v) s fun t =>
      ChangedPart s1 t target { part s target with trafficFrozen := true }) ∧
    (kind = 4 → legal → Completes (.freezeMaster v) s fun t =>
      t = { s1 with harts := t.harts, cores := t.cores, parts := t.parts } ∧
      (∀ h, IsHart h → hart t h = if partOf s h = some target ∧ h ≠ monitorHart s then held (hart s h) else hart s h) ∧
      (∀ c, c < 1300 → Machine.core t c =
        if partOfIsland s (islandOfCore c) = some target then halt (Machine.core s c) else Machine.core s c) ∧
      part t target = { part s target with trafficFrozen := true } ∧ ∀ p, p ≠ target → part t p = part s p) ∧
    let coreResets := (∃ p, partOfIsland s (islandOfCore target) = some p ∧ Resetting s p)
    (kind = 1 → legal → (hart s target).freeze.halted = true ∨ resets → Becomes (.freezeRelease v) s s1) ∧
    (kind = 2 → legal → coreResets → Becomes (.freezeRelease v) s s1) ∧
    (kind = 3 ∨ kind = 4 → legal → Resetting s target → Becomes (.freezeRelease v) s s1) ∧
    (let c := Machine.core s target
     kind = 2 → legal → ¬coreResets → (c.engine.violating = none ∨ (∃ w ∈ s.pendingWrites, w.agent = .engine target) →
        Completes (.freezeRelease v) s fun t => ChangedCore s1 t target { c with engine := { c.engine with freeze := {} } }) ∧
     ∀ r pa, c.engine.violating = some r → r.result = .violation pa → r.cmd.mbx = false →
        (∀ w ∈ s.pendingWrites, w.agent ≠ .engine target) → Completes (.freezeRelease v) s fun t => ∃ u,
          ChangedCore s1 u target { c with engine := { c.engine with freeze := {}, running := none, violating := none } } ∧
          ChangedHart u t r.cmd.hart { hart s r.cmd.hart with failed := (hart s r.cmd.hart).failed ++ [r.cmd.promise] }) ∧
    (kind = 4 → legal → ¬Resetting s target → (∀ h, partOf s h = some target → (hart s h).freeze.violation = none) →
      (∀ c, partOfIsland s (islandOfCore c) = some target → (Machine.core s c).engine.violating = none) →
      Completes (.freezeRelease v) s fun t => t = { s1 with harts := t.harts, cores := t.cores, parts := t.parts } ∧
        (∀ h, IsHart h → hart t h = if partOf s h = some target ∧ (hart s h).freeze.halted = false then
          { hart s h with freeze := {} } else hart s h) ∧
        (∀ c, c < 1300 → Machine.core t c = if partOfIsland s (islandOfCore c) = some target then
          { Machine.core s c with engine := { (Machine.core s c).engine with freeze := {} } } else Machine.core s c) ∧
        part t target = { part s target with trafficFrozen := false } ∧ ∀ p, p ≠ target → part t p = part s p) ∧
    (kind = 1 → legal → (hart s target).freeze.halted = false → ¬resets → (hart s target).freeze.violation = none →
      Completes (.freezeRelease v) s fun t => ChangedHart s1 t target { hart s target with freeze := {} }) ∧
    (∀ code tval, kind = 1 → legal → (hart s target).freeze.halted = false → ¬resets →
      (hart s target).freeze.violation = some (code, tval) → taskAt s target = none →
      Completes (.freezeRelease v) s fun t => ∃ u, ChangedHart s1 u target { hart s target with freeze := {} } ∧
        ChangedHart u t target (trapHart code 0 tval (hart s target).pc (hart u target))) ∧
    (kind = 3 → legal → ¬Resetting s target → Completes (.freezeRelease v) s fun t =>
      ChangedPart s1 t target { part s target with trafficFrozen := false }) ∧
    (∀ (j : Instr) (a d : Reg) (old : Word), WritesSr s j 0x801 a d old → (me s).mode = .monitor → (me s).task = none →
      rx s a = v → let op := fieldOf v 30 2
      (¬legal → op = 1 ∨ op = 2 ∨ kind ≠ 0 → Completes j s fun t => Trapped s t 0x65 (leadWord j)) ∧
      (legal ∨ kind = 0 → op = 0 ∨ op = 3 → Completes j s fun t => WroteHart s1 t d old (me s1)) ∧
      (legal → ∀ u, op = 1 → Becomes (.freezeMaster v) s u → Completes j s fun t => WroteHart u t d old (me u)) ∧
      (legal → ∀ u, op = 2 → Becomes (.freezeRelease v) s u → Completes j s fun t => WroteHart u t d old (me u)))

/-- Readings of the model: what power-on keeps (log 71), the fuse counter's start and MODNUM (log 16), what an election
keeps (log 68), streamed images (log 69), placement code's checks (log 72). Power-on reset puts the machine in the
reset state, with the fuses, the image in flash and the failed stacks kept (the waiting events and the count of free
values, the model's own, stay); the image in flash is in force unless its security version is below the fuse counter,
and then none is. Enrolment, which burns the hash of the key's page, and revocation move the key's STATE only from
none and from enrolled. A FWCTL operation begins a verification; it accepts a module image of Brynkan's signature, and
placement code of that or of the enrolled owner key, whose security version is not below the fuse counter: the image
is in force and in flash, or the code counts as reloaded, and the fuses advance; any other is rejected. An image the
host or a leader streams in is in force exactly if it verifies so. The election: HELLO, with serial, term and claim,
goes out once a millisecond while a port is trained. One heard is kept by serial, and puts off a re-election if its
sender is the best leader heard; a leader that hears a claim of a higher term, or of the same term and a lower serial,
yields, and otherwise streams its image to the sender. Twenty milliseconds after an election starts, the module leads
unless it has heard one that outranks it. A follower that has heard no leader for 20 ms and has received no block
starts a new election with the failed leader's term plus 1, three times at most, and then waits for the host; with a
block received it waits 200 ms for the next until its image is whole, and then for the host. (02_state.md R36;
13_edges.md R272; 13_edges.md R273; 13_edges.md R274; 13_edges.md R275; 13_edges.md R276; 11_scheduling.md R232) -/
def Obligations.PowerAndImages : Prop :=
  (∀ (s : State) (signer : Signer) (version security : Word32) (v : Word),
    let made := (Config.fwVer 0).toNat % 2 ^ 32
    let counter := max s.securityCounter.toNat made
    let inFlash := match s.flash with
      | .factory => made
      | .image _ x => x.toNat
      | .none => 0
    let ok := signer = .brynkan ∧ counter ≤ security.toNat
    let okPlacement := (signer = .brynkan ∨ (s.keyState = 1 ∧ signer = .owner s.keyHash)) ∧ counter ≤ security.toNat
    let streams (i : Instr) : Prop :=
      (ok → Becomes i s
        { s with firmware := .image version security, securityCounter := security, imageWhole := true }) ∧ (¬ok → Becomes i s s)
    Becomes .powerOnReset s { State.reset with
      keyState := s.keyState, keyHash := s.keyHash, securityCounter := s.securityCounter, flash := s.flash
      firmware := if counter ≤ inFlash then s.flash else .none, failedStacks := s.failedStacks
      inputs := s.inputs, free := s.free } ∧
    Becomes (.keyctlEnrol v) s (if s.keyState = 0 then
      { s with keyState := 1, keyAddr := BitVec.ofNat 40 (fieldOf v 12 40)
               keyHash := Config.keyHash (memReadBytes s.mem (fieldOf v 12 40 * 4096) 4096) } else s) ∧
    Becomes (.keyctlRevoke v) s (if s.keyState = 1 then
      { s with keyState := 2, keyAddr := BitVec.ofNat 40 (fieldOf v 12 40) } else s) ∧
    Becomes (.fwctlWriteImage v) s (if s.fwState = 1 then s else
      { s with fwState := 1, fwOp := 1, fwAddr := BitVec.ofNat 40 (fieldOf v 12 40) }) ∧
    Becomes (.fwctlReloadPlacement v) s (if s.fwState = 1 then s else
      { s with fwState := 1, fwOp := 2, fwAddr := BitVec.ofNat 40 (fieldOf v 12 40) }) ∧
    (s.fwState = 1 → ok → s.fwOp = 1 → Becomes (.imageVerifyDone signer version security) s
      { s with fwState := 2, fwOp := 0, firmware := .image version security, flash := .image version security
               securityCounter := security }) ∧
    (s.fwState = 1 → okPlacement → s.fwOp = 2 → Becomes (.imageVerifyDone signer version security) s
      { s with fwState := 2, fwOp := 0, placements := s.placements + 1, securityCounter := security }) ∧
    (s.fwState = 1 → (s.fwOp = 1 ∧ ¬ok) ∨ (s.fwOp = 2 ∧ ¬okPlacement) → Becomes (.imageVerifyDone signer version security) s
      { s with fwState := 3, fwOp := 0 }) ∧
    (s.fwState ≠ 1 → s.election = .follower → s.gotBlock = true → streams (.imageVerifyDone signer version security)) ∧
    (s.fwState ≠ 1 → s.election ≠ .follower ∨ s.gotBlock = false → Becomes (.imageVerifyDone signer version security) s s) ∧
    streams (.recoveryImage signer version security)) ∧
  (∀ (s : State), let ms := 1600000
    let outranked (x : Word × Nat × Bool) : Prop := s.term < x.2.1 ∨ (x.2.1 = s.term ∧ x.1.toNat < Config.serial.toNat)
    let better (x y : Word × Nat × Bool) : Prop :=
      (x.2.2 = true ∧ y.2.2 = false) ∨ (x.2.2 = y.2.2 ∧ (y.2.1 < x.2.1 ∨ (x.2.1 = y.2.1 ∧ x.1.toNat < y.1.toNat)))
    ((∃ p ∈ s.peers, p.2 = true) → s.hellosSent * ms ≤ s.time → Becomes .helloSend s { s with
      hellosSent := s.time / ms + 1, helloOut := some (Config.serial, s.term, decide (s.election = .leader)) }) ∧
    ((∀ p ∈ s.peers, p.2 = false) ∨ s.time < s.hellosSent * ms → Becomes .helloSend s s) ∧
    (∀ serial term claims, let x := (serial, term, claims)
      serial ≠ Config.serial → ((∃ x ∈ s.heard, x.1 = serial) ∨ s.heard.length < 7) →
      Completes (.helloReceive serial term claims) s fun t =>
        t = { s with heard := x :: s.heard.filter (·.1 != serial), lastHello := t.lastHello, election := t.election
                     streamTo := t.streamTo } ∧
        ((∀ y ∈ t.heard, y ≠ x → better x y) → t.lastHello = s.time) ∧
        ((∃ y ∈ t.heard, better y x) → t.lastHello = s.lastHello) ∧
        (s.election = .leader ∧ claims = true ∧ outranked x → t.election = .follower ∧ t.streamTo = []) ∧
        (s.election = .leader → ¬(claims = true ∧ outranked x) → t.election = .leader ∧
          t.streamTo = if serial ∈ s.streamTo then s.streamTo else s.streamTo ++ [serial]) ∧
        (s.election ≠ .leader → t.election = s.election ∧ t.streamTo = s.streamTo)) ∧
    (s.election = .electing → s.electionStart + 20 * ms ≤ s.time →
      ((∃ x ∈ s.heard, outranked x) → Becomes .electionTimeout s { s with election := .follower, lastHello := s.time }) ∧
      ((∀ x ∈ s.heard, ¬outranked x) → Becomes .electionTimeout s
        { s with election := .leader, streamTo := s.heard.map (·.1) })) ∧
    (s.election ≠ .electing ∨ s.time < s.electionStart + 20 * ms → Becomes .electionTimeout s s) ∧
    (s.election = .follower → s.gotBlock = false → s.lastHello + 20 * ms ≤ s.time → 3 ≤ s.reElections →
      Becomes .leaderSilenceTimeout s { s with election := .waitsForHost }) ∧
    (∀ l, s.election = .follower → s.gotBlock = false → s.lastHello + 20 * ms ≤ s.time → s.reElections < 3 →
      s.heard = [l] → Becomes .leaderSilenceTimeout s { s with
        election := .electing, electionStart := s.time, reElections := s.reElections + 1, term := l.2.1 + 1, heard := [] }) ∧
    (s.election ≠ .follower ∨ s.gotBlock = true ∨ s.time < s.lastHello + 20 * ms → Becomes .leaderSilenceTimeout s s) ∧
    (s.election = .follower → Becomes .imageBlockReceive s { s with gotBlock := true, lastBlock := s.time }) ∧
    (s.election ≠ .follower → Becomes .imageBlockReceive s s) ∧
    (s.election = .follower → s.gotBlock = true → s.imageWhole = false → s.lastBlock + 200 * ms ≤ s.time →
      Becomes .imageBlockTimeout s { s with election := .waitsForHost }) ∧
    (s.election ≠ .follower ∨ s.gotBlock = false ∨ s.imageWhole = true ∨ s.time < s.lastBlock + 200 * ms →
      Becomes .imageBlockTimeout s s))

/-- With no task and no kept write in the way. An error record of a function whose ring has room stands at ERRBASE + 32 ×
(ERRHEAD mod ERRSIZE) with TIME, CODE, MASTER, WHERE, PROGRESS, ADDR and AUX at their offsets, ERRHEAD counts it, no
other byte changes, and 0xE4 pends on the compute hart NOTIFY names while enabled (a number past the last names none,
log 61); a full ring, or one with ERRSIZE 0 (log 28), counts ERRLOST instead. Where no memory answers at that place,
or outside the function's grant, no byte changes and the head counts all the same (log 117). A decision record of an
island stands likewise at LOGBASE with its fields, GAP and SEQ, LOGHEAD counts it and GAP is clear; a full ring counts
LOST and sets GAP; with LOGSIZE 0 nothing happens. (12_traps.md R260; 12_traps.md R261; 11_scheduling.md R247;
13_edges.md R277) -/
def Obligations.ErrorRecords : Prop :=
  (∀ (s : State) (v n : Nat) (r : ErrRec), Quiet s → Memory.wf s.mem = true → r.place < 2 ^ 16 → r.progress < 2 ^ 32 →
    r.addr < 2 ^ 64 → r.aux < 2 ^ 64 → r.master < 256 → let p := part s v
    let t := errorRecord s (some v) n r
    let le (k x : Nat) : List Byte := (List.range k).map fun i => BitVec.ofNat 8 (x / 256 ^ i)
    let at_ := p.errBase.toNat + 32 * (p.errHead.toNat % p.errSize.toNat)
    (p.errSize ≠ 0 → p.errHead - p.errTail ≠ p.errSize →
      (¬(answers s at_ = true ∧ granted s v at_ = true) → t.mem = s.mem) ∧
      (answers s at_ = true → granted s v at_ = true → WroteBytes s t at_
        (le 8 (timeOf s n) ++ [r.code] ++ le 1 r.master ++ le 2 r.place ++ le 4 r.progress ++ le 8 r.addr ++ le 8 r.aux)) ∧
      part t v = { p with errHead := p.errHead + 1 } ∧
      ∀ h, hart t h = if p.notify.toNat.testBit 63 = true ∧ h = fieldOf p.notify 0 13 ∧ h < 5120 then
        { hart s h with ipend := (hart s h).ipend ||| 16 } else hart s h) ∧
    (p.errSize = 0 ∨ p.errHead - p.errTail = p.errSize → ChangedPart s t v { p with errLost := p.errLost + 1 })) ∧
  (∀ (s : State) (n : Nat) (r : Decision), Quiet s → Memory.wf s.mem = true → let i := island s n
    let t := decisionRecord s n r
    let le (k x : Nat) : List Byte := (List.range k).map fun j => BitVec.ofNat 8 (x / 256 ^ j)
    (i.logSize = 0 → t = s) ∧
    (i.logSize ≠ 0 → i.logHead - i.logTail = i.logSize → ChangedIsland s t n { i with lost := i.lost + 1, gap := true }) ∧
    let at_ := i.logBase.toNat + 32 * (i.logHead.toNat % i.logSize.toNat)
    let reached := answers s at_ = true ∧ ∀ v, partOfIsland s n = some v → granted s v at_ = true
    (i.logSize ≠ 0 → i.logHead - i.logTail ≠ i.logSize → (¬reached → t.mem = s.mem) ∧
      (reached → WroteBytes s t at_
        (le 8 (timeOf s n) ++ le 1 r.kind ++ [if i.gap = true then 1 else 0] ++ le 1 r.eff ++ le 1 r.reason ++ le 2 r.slot
          ++ le 2 r.gang ++ le 8 r.place ++ le 4 r.waited ++ le 2 (Config.codeVer i.codeSeq).toNat
          ++ le 2 (i.logHead + i.lost).toNat)) ∧
      island t n = { i with logHead := i.logHead + 1, gap := false } ∧ ∀ h, hart t h = hart s h))

/-- A write lost on the mesh freezes the writer, hart (never the monitor hart) or engine, with a 0xD6 record and code;
which side of a hart was writing is the model's choice (log 94). A directory error records the line as lost, 0xD7. A
task unit error stops an active domain, 0xD8. A corrected error counts in CECOUNT, and at a CELIMIT that is not 0
gives 0xD9. A link that goes down takes its window away and gives 0xD5 with a record for every function granted it; a
link that trains gives it back. A failed stack takes its granules away, 0xDC. A thermal trip and a power-rail fault
give 0xDD and 0xDE and stop the clock. Codes join the monitor hart's queue while it holds fewer than 64. Nothing else
changes (log 14). The model's choices: the monitor hart not frozen (log 67), the WHERE of the CXL link and of a stack
(log 37), WHERE of a hart or core as its number of R17 (log 115), when an election starts (log 68). (12_traps.md R255;
12_traps.md R257; 12_traps.md R258; 12_traps.md R259; 12_traps.md R260; 13_edges.md R269; 13_edges.md R270;
13_edges.md R272; 10_tasks.md R205) -/
def Obligations.ErrorEvents : Prop :=
  let report (s : State) (v : Option Nat) (n : Nat) (r : ErrRec) : State :=
    let u := errorRecord s v n r
    if u.codes.length < 64 then { u with codes := u.codes ++ [r.code] } else u
  let reportAll (s : State) (vs : List Nat) (code : Byte) (r : Nat → ErrRec) : State :=
    let u := vs.foldl (fun s v => errorRecord s (some v) ((islandsOf s v).headD 0) (r v)) s
    if u.codes.length < 64 then { u with codes := u.codes ++ [code] } else u
  (∀ (s : State) (h : Nat), h ≠ monitorHart s → Completes (.meshWriteLost h false) s fun t => ∃ u,
    ChangedHart s u h { hart s h with freeze := { (hart s h).freeze with lost := true } } ∧
    t = report u (partOf s h) (islandOf h) { code := 0xD6, place := if h < 5120 then h else h - 5120, aux := (hart s h).pc.toNat, master :=
      if ((hart s h).flight.any fun f => f.convoy.members.any (·.act.isStore)) = true then 2
      else if ((hart s h).mq.any fun e => e.ends.isSome && e.act.isStore) = true then 3 else 1 }) ∧
  (∀ (s : State) (c : Nat), let e := (Machine.core s c).engine
    Completes (.meshWriteLost c true) s fun t => ∃ u,
    ChangedCore s u c { Machine.core s c with engine := { e with freeze := { e.freeze with lost := true } } } ∧
    t = report u (partOfIsland s (islandOfCore c)) (islandOfCore c)
      { code := 0xD6, master := 4, place := if c < 1280 then c else c - 1280, progress := e.running.elim 0 (·.words)
        aux := e.running.elim 0 (·.cmd.descAddr.toNat) }) ∧
  (∀ (s : State) (pa : Nat), tracked (pa / 64 * 64) = true → pa / 64 * 64 ∉ s.lostLines →
    let home := pa / 64 * 64 / 4096 % 20
    Becomes (.directoryError pa) s (report { s with lostLines := s.lostLines ++ [pa / 64 * 64] }
      (partOfIsland s home) home { code := 0xD7, master := 6, place := home, addr := pa / 64 * 64 })) ∧
  (∀ (s : State) (f d : Nat), (domain s f d).active = true → Completes (.taskUnitError f d) s fun t => ∃ u,
    ChangedPart s u f { part s f with domains := (part u f).domains } ∧
    (∀ j, domain u f j = if j = d then { domain s f d with stopped := true } else domain s f j) ∧
    t = report u (some f) ((islandsOf s f).headD 0)
      { code := 0xD8, master := 8, place := d, aux := (domain s f d).commits.toNat }) ∧
  (∀ (s : State) (f : Nat), let p : Part := { part s f with ceCount := (part s f).ceCount + 1 }
    Completes (.correctedError f) s fun t => ∃ u, ChangedPart s u f p ∧
      t = if p.ceLimit ≠ 0 ∧ p.ceCount = p.ceLimit then
        report u (some f) ((islandsOf s f).headD 0) { code := 0xD9, master := 9, place := f } else u) ∧
  (∀ s : State, (∃ w, Becomes (.linkDown .cxl) s (reportAll { s with free := s.free + 1, cxlUp := false }
      ((List.range 4).filter fun v => (part s v).linkGrant.toNat.testBit 0) 0xD5 fun _ =>
        { code := 0xD5, master := 7, place := w })) ∧ Becomes (.linkTrained .cxl) s { s with cxlUp := true }) ∧
  (∀ (s : State) (m : Nat), Becomes (.linkDown (.peer m)) s (reportAll { s with peers := tabSet s.peers m false }
      ((List.range 4).filter fun v => (part s v).linkGrant.toNat.testBit (8 + m)) 0xD5 fun _ =>
        { code := 0xD5, master := 7, place := m }) ∧
    Completes (.linkTrained (.peer m)) s fun t => tabGet t.peers m = some true ∧ t.harts = s.harts ∧ t.mem = s.mem ∧
      (s.heard ≠ [] ∨ s.peers ≠ [] ∨ s.election ≠ .leader → t = { s with peers := t.peers }) ∧
      (s.heard = [] ∧ s.peers = [] ∧ s.election = .leader → t.election = .electing ∧ t.electionStart = s.time)) ∧
  (∀ (s : State) (k : BitVec 4), ∃ w, Becomes (.hbmStackFailure k) s
    (reportAll { s with free := s.free + 1, failedStacks := s.failedStacks ||| 1#16 <<< k.toNat } [0, 1, 2, 3] 0xDC fun _ =>
      { code := 0xDC, master := 6, place := w })) ∧
  (∀ s : State, Becomes .thermalTrip s { reportAll s [0, 1, 2, 3] 0xDD fun v =>
      { code := 0xDD, master := 9, place := v } with clockStopped := true } ∧
    Becomes .powerRailFault s { reportAll s [0, 1, 2, 3] 0xDE fun v =>
      { code := 0xDE, master := 9, place := v } with clockStopped := true })

/-- A PCIe reset of a function, or a write of 1 to its FLRCTL by monitor mode, while no reset of it is under way freezes
every hart of its islands but the monitor hart, every engine and its traffic, and FLRSTAT reads drain; during one it
changes nothing, nor does another write of FLRCTL. While no debug freeze holds its islands: once nothing it asked for
is outstanding the drain ends and the scrub begins. The scrub sets the cores (engines, tiles, translations, LANEPART,
LOCALSPLIT) and the harts' registers, vector state, queues and inboxes, x and f among them, to their reset values,
empties the cores' caches, zeroes the scratchpads and B-stores in memory, where nothing bad is left, and ends every
task and domain of the partition; with no kept write in the way no byte outside those windows and the function's error
ring changes, and where no domain is active all else the machine holds stays. The queues step unmaps and resets its
stewards' blocks, releases its masters, starts its steward harts again, and gives 0xDA and its record with FLRSTAT
done; where no gang and no mapped slot is left that is all. A drain of 65,536 cycles gives 0xDB and its record and
leaves the partition frozen. What a reset keeps, when the drain ends, and the monitor hart left out of the scrub are
the model's choices (logs 36 and 113); an event where the state does not allow it changes nothing (log 14).
(12_traps.md R260; 12_traps.md R262; 12_traps.md R263; 13_edges.md R279) -/
def Obligations.FunctionLevelReset : Prop :=
  let report (s : State) (f : Nat) (code : Byte) : State :=
    let u := errorRecord s (some f) ((islandsOf s f).headD 0) { code := code, master := 9, place := f }
    if u.codes.length < 64 then { u with codes := u.codes ++ [code] } else u
  let inside (s : State) (f h : Nat) : Prop := IsHart h ∧ partOf s h = some f ∧ h ≠ monitorHart s
  let ofCore (s : State) (f c : Nat) : Prop := c < 1300 ∧ partOfIsland s (islandOfCore c) = some f
  let ofIsland (s : State) (f n : Nat) : Prop := n < 20 ∧ partOfIsland s n = some f
  let window (s : State) (f a : Nat) : Prop := ∃ c, ofCore s f c ∧
    ((0x10000000000 + c * 0x100000 ≤ a ∧ a < 0x10000000000 + (c + 1) * 0x100000) ∨
      (0x20000000000 + c * 0x400000 ≤ a ∧ a < 0x20000000000 + (c + 1) * 0x400000))
  let frozen (x : Hart) : Hart := { x with freeze := { x.freeze with byFreeze := true } }
  let halted (c : Core) : Core := { c with engine := { c.engine with freeze := { c.engine.freeze with byFreeze := true } } }
  let begun (s t : State) (f : Nat) : Prop :=
    t = { s with harts := t.harts, cores := t.cores, parts := t.parts } ∧
    (∀ h, IsHart h → hart t h = if partOf s h = some f ∧ h ≠ monitorHart s then frozen (hart s h) else hart s h) ∧
    (∀ c, c < 1300 → Machine.core t c =
      if partOfIsland s (islandOfCore c) = some f then halted (Machine.core s c) else Machine.core s c) ∧
    part t f = { part s f with flr := .drain, flrCycles := 0, trafficFrozen := true } ∧ ∀ v, v ≠ f → part t v = part s v
  let waits (s : State) (f : Nat) : Prop := ∃ n, n < 20 ∧ partOfIsland s n = some f ∧ (island s n).freezeBit = true
  let empty (x : Hart) : Prop := x.vq = [] ∧ x.flight = none ∧ x.sdest = none ∧ x.mq = [] ∧ x.castMask = none
  let quiet (s : State) (f : Nat) : Prop := (∀ p ∈ s.pendingWrites, p.agent.part s ≠ some f) ∧
    (∀ h, IsHart h → partOf s h = some f → h ≠ monitorHart s → empty (hart s h) ∨ (hart s h).freeze.halted = true) ∧
    ∀ c, c < 1300 → partOfIsland s (islandOfCore c) = some f → (Machine.core s c).deliveries = []
  (∀ (s : State) (f : Nat), f < 4 →
    (¬Resetting s f → Completes (.functionLevelReset f) s (begun s · f)) ∧
    (Resetting s f → Becomes (.functionLevelReset f) s s) ∧
    (∀ who v, IsMonitor s who → ¬Resetting s f → v = 1 → Completes (.flrctlWrite who f v) s (begun s · f)) ∧
    (∀ who v, ¬IsMonitor s who ∨ v ≠ 1 ∨ Resetting s f → Becomes (.flrctlWrite who f v) s s) ∧
    ((part s f).flr = .drain → ¬waits s f → quiet s f → Completes (.flrDrainDone f) s fun t =>
      ChangedPart s t f { part s f with flr := .scrub }) ∧
    ((part s f).flr ≠ .drain ∨ waits s f ∨ ¬quiet s f → Becomes (.flrDrainDone f) s s) ∧
    ((part s f).flr = .drain → 65536 ≤ (part s f).flrCycles → Completes (.flrDrainTimeout f) s fun t =>
      ∃ u, ChangedPart s u f { part s f with flr := .exceeded } ∧ t = report u f 0xDB) ∧
    ((part s f).flr ≠ .drain ∨ (part s f).flrCycles < 65536 → Becomes (.flrDrainTimeout f) s s) ∧
    ((part s f).flr ≠ .scrub ∨ waits s f → Becomes (.flrScrubDone f) s s) ∧
    ((part s f).flr = .scrub → ¬waits s f → Completes (.flrScrubDone f) s fun t =>
      (part t f).flr = .queues ∧ (∀ e ∈ t.tasks, e.part ≠ f) ∧ (∀ d, domain t f d = {}) ∧
      (∀ c, c < 1300 → partOfIsland s (islandOfCore c) = some f → coreCache t c = {} ∧ Machine.core t c =
        { ({} : Core) with
          cycleBase := s.time, disabled := (Machine.core s c).disabled, clockLowered := (Machine.core s c).clockLowered
          trace := (Machine.core t c).trace, engine := { freeze := (Machine.core s c).engine.freeze } } ∧
        (s.pendingWrites = [] → (Machine.core t c).trace = (Machine.core s c).trace)) ∧
      (∀ h, IsHart h → partOf s h = some f → h ≠ monitorHart s →
        (hart t h).v = Vector.replicate 32 0 ∧ (hart t h).k = Vector.replicate 8 0 ∧ (hart t h).vq = [] ∧ (hart t h).mq = [] ∧
        (hart t h).inbox0 = [] ∧ (hart t h).inbox1 = [] ∧ (hart t h).flags = 0 ∧ (hart t h).rm = 0 ∧ (hart t h).nbv = 3 ∧
        (hart t h).tvec = 0 ∧ (hart t h).epc = 0 ∧ (hart t h).ptbase = 0 ∧ (hart t h).prio = 0 ∧ (hart t h).vs = 0 ∧
        (hart t h).ms = 0 ∧ (hart t h).started = false ∧ (hart t h).imask = (hart s h).imask ∧
        (hart t h).x = Vector.replicate 32 0 ∧ (hart t h).f = Vector.replicate 32 0) ∧
      (Memory.wf s.mem = true → Memory.wf t.mem = true ∧ (∀ a, window s f a → memRead t.mem a = 0) ∧
        (∀ p ∈ t.poison, ¬window s f p.1) ∧
        (s.pendingWrites = [] → ∀ a, ¬window s f a →
          a < (part s f).errBase.toNat ∨ (part s f).errBase.toNat + 32 * (part s f).errSize.toNat ≤ a →
          memRead t.mem a = memRead s.mem a) ∧
        (s.pendingWrites = [] → (∀ d, d < 16 → (domain s f d).active = false) →
          t = { s with harts := t.harts, cores := t.cores, islands := t.islands, parts := t.parts, tasks := t.tasks
                       mem := t.mem, caches := t.caches, poison := t.poison } ∧
          part t f = { part s f with flr := .queues, domains := [] } ∧ (∀ v, v ≠ f → part t v = part s v) ∧
          (∀ h, ¬inside s f h → hart t h =
            if (hart s h).wait = some .conflict then { hart s h with wait := none } else hart s h) ∧
          (∀ c, ¬ofCore s f c → Machine.core t c = Machine.core s c) ∧
          (∀ n, island t n =
            if n < 20 ∧ partOfIsland s n = some f then { island s n with served := none, dispatchedAt := none }
            else island s n) ∧
          (∀ a, ¬window s f a → memRead t.mem a = memRead s.mem a) ∧
          ∀ p, p ∈ t.poison ↔ p ∈ s.poison ∧ ¬window s f p.1))) ∧
    ((part s f).flr ≠ .queues ∨ waits s f → Becomes (.flrQueuesDone f) s s) ∧
    ((part s f).flr = .queues → ¬waits s f → Completes (.flrQueuesDone f) s fun t => ∃ u, t = report u f 0xDA ∧
      (part u f).flr = .done ∧ (part u f).trafficFrozen = false ∧
      (∀ h, inside s f h → (hart u h).freeze = {} ∧ (5120 ≤ h → let k := (island s (islandOf h)).codeSeq
        (hart u h).started = true ∧ (hart u h).stopped = false ∧ (hart u h).pc = Config.stewardEntry k ∧
        (hart u h).mode = modeOfCode (Config.stewardMode k))) ∧
      (∀ c, ofCore s f c → (Machine.core u c).engine.freeze = {} ∧ (Machine.core u c).disabled = []) ∧
      (∀ n, ofIsland s f n → (island u n).slots = [] ∧ (island u n).gangs = []) ∧
      ((∀ n, ofIsland s f n → (island s n).gangs = [] ∧ ∀ p ∈ (island s n).slots, p.2.mapped = false) →
        u = { s with harts := u.harts, cores := u.cores, islands := u.islands, parts := u.parts } ∧
        part u f = { part s f with flr := .done, trafficFrozen := false } ∧ (∀ v, v ≠ f → part u v = part s v) ∧
        (∀ h, ¬inside s f h → hart u h = hart s h) ∧
        (∀ h, inside s f h → h < 5120 → hart u h = { hart s h with freeze := {} }) ∧
        (∀ c, ¬ofCore s f c → Machine.core u c = Machine.core s c) ∧
        (∀ c, ofCore s f c → Machine.core u c = { Machine.core s c with
          disabled := [], clockLowered := false, engine := { (Machine.core s c).engine with freeze := {} } }) ∧
        (∀ n, ¬ofIsland s f n → island u n = island s n) ∧
        ∀ n, ofIsland s f n → let i := island s n
          island u n = { ({} : Island) with
            timeAhead := i.timeAhead, nextRound := ((s.time + i.timeAhead.toNat) / 16384 + 1) * 16384
            codeSeq := i.codeSeq, completions := i.completions, freezeBit := i.freezeBit, trapRel := i.trapRel
            triggers := i.triggers })))

/-- With no task and no kept write in the way: a write of a virtual function whose traffic is not frozen, all of it in
backed HBM of its grant, writes exactly its bytes; a read of such bytes changes no more than where copies of their
lines stand; a request with a byte outside the grant and outside the MMIO region, or to an address there that no block
holds, does nothing but freeze the function's traffic, with a 0xD4 record in the function's ring (counted in ERRLOST
where the ring is full, or ERRSIZE is 0: log 28) and the code for the monitor hart; a request while the traffic is
frozen is not taken. A write of another member module whose link is up, all of it in backed HBM, writes exactly its
bytes, and a read of such bytes changes no more than where copies stand; any other request of it changes nothing (log
14). (12_traps.md R255; 13_edges.md R265; 13_edges.md R267; 13_edges.md R268; 13_edges.md R270; 09_ordering.md R187) -/
def Obligations.OutsideRequests : Prop :=
  let inHbm (s : State) (pa n : Nat) : Prop := ∀ i, i < n → pa + i ≤ 0xEE6B27FFFF ∧
    s.failedStacks.toNat.testBit ((pa + i) / 4096 % 16) = false
  let inGrant (s : State) (f pa n : Nat) : Prop := ∀ i, i < n → (part s f).hbmBase.toNat ≤ pa + i ∧
    pa + i < (part s f).hbmBase.toNat + (part s f).hbmSize.toNat
  let report (s : State) (f : Nat) (r : ErrRec) : State :=
    let u := errorRecord s (some f) ((islandsOf s f).headD 0) r
    if u.codes.length < 64 then { u with codes := u.codes ++ [r.code] } else u
  ∀ (s : State) (f m pa n : Nat) (bs : List Byte), Quiet s → Memory.wf s.mem = true → f < 4 → n ≠ 0 → bs ≠ [] →
    ((part s f).trafficFrozen = false → inHbm s pa bs.length → inGrant s f pa bs.length →
      Completes (.hostRequest f (.write pa bs)) s fun t =>
        t = { s with mem := t.mem, caches := t.caches } ∧ WroteBytes s t pa bs) ∧
    ((part s f).trafficFrozen = false → inHbm s pa n → inGrant s f pa n →
      Completes (.hostRequest f (.read pa n)) s fun t => t = { s with caches := t.caches }) ∧
    ((part s f).trafficFrozen = true → Becomes (.hostRequest f (.read pa n)) s s ∧
      Becomes (.hostRequest f (.write pa bs)) s s) ∧
    ((part s f).trafficFrozen = false → ¬(0x30000000000 ≤ pa ∧ pa < 0x40000000000) ∨ blockOf pa = none →
      let froze (t : State) : Prop := ∃ u, ChangedPart s u f { part s f with trafficFrozen := true } ∧
        t = report u f { code := 0xD4, master := 5, place := f, addr := pa }
      (¬(inHbm s pa bs.length ∧ inGrant s f pa bs.length) → Completes (.hostRequest f (.write pa bs)) s froze) ∧
      (¬(inHbm s pa n ∧ inGrant s f pa n) → Completes (.hostRequest f (.read pa n)) s froze)) ∧
    (isMember s m = true → tabGet s.peers m ≠ some false →
      (inHbm s pa bs.length → Completes (.peerModuleRequest m (.write pa bs)) s fun t =>
        t = { s with mem := t.mem, caches := t.caches } ∧ WroteBytes s t pa bs) ∧
      (inHbm s pa n → Completes (.peerModuleRequest m (.read pa n)) s fun t => t = { s with caches := t.caches })) ∧
    (isMember s m = false ∨ tabGet s.peers m = some false →
      Becomes (.peerModuleRequest m (.write pa bs)) s s ∧ Becomes (.peerModuleRequest m (.read pa n)) s s) ∧
    (¬inHbm s pa bs.length → Becomes (.peerModuleRequest m (.write pa bs)) s s) ∧
    (¬inHbm s pa n → Becomes (.peerModuleRequest m (.read pa n)) s s)

/-- networkStore, networkRetrieve, networkDelete, networkExist and networkCompletion complete so, with no task and no kept
write in the way. NQWR takes the count of entries, by its function or its supervisors. With an entry waiting, no
answer kept and traffic not frozen, the answer to a well-formed entry of the operation is kept as its STATUS, with the
bytes moved: VLEN of a store done, the whole length of a value retrieved, 0 of a delete or an exist and where the key
is absent; a retrieve that is done writes at most VLEN bytes of the value at VADDR. A malformed entry, or one naming
addresses outside the grant, keeps STATUS 4 and 0 bytes and changes nothing else. The completion then writes STATUS in
bits 63 to 56 and the bytes moved in bits 31 to 0 of the completion word, where that lies in the grant, and NQRD
counts the entry. With no bad data: what a bad entry does is log 95. How many bytes a failed store moved is a free
value (log 37), the engine's waits for frozen traffic and for a completion word outside the grant are the model's (log
70), and no event does anything else (log 14). (13_edges.md R271) -/
def Obligations.NetworkEngine : Prop :=
  ∀ (s : State) (f : Nat) (ans : NetAnswer) (value : List Byte), Quiet s → Memory.wf s.mem = true → f < 4 →
    let p := part s f
    let e := netEntryOf (memReadBytes s.mem (p.nqBase.toNat + 64 * (p.nqRd.toNat % 2 ^ p.nqLog2.toNat)) 64)
    let due := p.nqRd ≠ p.nqWr ∧ p.nqDone = none ∧ p.trafficFrozen = false
    let reaches (x n : Nat) : Prop := ∀ j, j < n → granted s f (x + j) = true ∧ answers s (x + j) = true
    let bad := ¬(reaches (p.nqBase.toNat + 64 * (p.nqRd.toNat % 2 ^ p.nqLog2.toNat)) 64 ∧ 1 ≤ e.op ∧ e.op ≤ 4 ∧ e.port ≤ 1 ∧
      1 ≤ e.klen ∧ e.klen ≤ 16 ∧ e.vlen ≤ 2097152 ∧ e.zeros = true ∧ e.mbxa % 8 = 0 ∧ reaches e.mbxa 8 ∧
      (e.op ≤ 2 → reaches e.vaddr e.vlen))
    let status : Nat := match ans with | .done => 1 | .keyAbsent => 2 | .transportError => 3
    let kept (u : State) (x moved : Nat) (t : State) : Prop := ChangedPart u t f { p with nqDone := some (x, moved) }
    let op (k : Nat) : Instr := match k with
      | 1 => .networkStore f ans
      | 2 => .networkRetrieve f ans value
      | 3 => .networkDelete f ans
      | _ => .networkExist f ans
    (∀ who v, (∃ h, who = .hart h ∧ (hart s h).mode = .supervisor ∧ partOf s h = some f) ∨ (who = .vf f ∧ p.trafficFrozen = false) →
      Completes (.nqwrDoorbell who f v) s fun t => ChangedPart s t f { p with nqWr := v }) ∧
    (∀ k, k ∈ [1, 2, 3, 4] → (¬due → Becomes (op k) s s) ∧ (due → bad → Completes (op k) s (kept s 4 0)) ∧
      (due → ¬bad → e.op ≠ k → Becomes (op k) s s)) ∧
    (due → ¬bad → e.op = 1 → ans ≠ .transportError →
      Completes (op 1) s (kept s status (if ans = .done then e.vlen else 0))) ∧
    (due → ¬bad → e.op = 1 → ans = .transportError → ∃ moved, moved ≤ e.vlen ∧
      Completes (op 1) s (kept { s with free := s.free + 1 } status moved)) ∧
    (due → ¬bad → e.op = 2 → ans ≠ .keyAbsent → Completes (op 2) s fun t => ∃ u, u = { s with mem := u.mem, caches := u.caches } ∧
      WroteBytes s u e.vaddr (value.take e.vlen) ∧
      kept u status (if ans = .done then value.length else min value.length e.vlen) t) ∧
    (due → ¬bad → e.op = 2 → ans = .keyAbsent → Completes (op 2) s (kept s status 0)) ∧
    (due → ¬bad → e.op = 3 → Completes (op 3) s (kept s status 0)) ∧
    (due → ¬bad → e.op = 4 → Completes (op 4) s (kept s status 0)) ∧
    (∀ x moved, p.nqDone = some (x, moved) → Completes (.networkCompletion f) s fun t => ∃ u, u = { s with mem := u.mem, caches := u.caches } ∧
      ChangedPart u t f { p with nqDone := none, nqRd := p.nqRd + 1 } ∧
      (reaches (p.nqBase.toNat + 64 * (p.nqRd.toNat % 2 ^ p.nqLog2.toNat)) 64 → e.mbxa % 8 = 0 → reaches e.mbxa 8 →
        WroteBytes s u e.mbxa ((List.range 8).map fun i => BitVec.ofNat 8 ((x * 2 ^ 56 + moved % 2 ^ 32) / 256 ^ i))) ∧
      (¬(reaches (p.nqBase.toNat + 64 * (p.nqRd.toNat % 2 ^ p.nqLog2.toNat)) 64 ∧ e.mbxa % 8 = 0 ∧ reaches e.mbxa 8) → u = s)) ∧
    (p.nqDone = none → Becomes (.networkCompletion f) s s)

/-- A write by a master that R265 lets make it: SCHEDCFG with QUANTUM and AGE not 0 and ROUND at least 12 is kept for the
round boundary; a notify pends on a mapped slot and on one unmapped in the same cycle, and sets DROP on another;
mapping reads the block at once, and one that is malformed or faults stops the slot with a record (outside the grant
it freezes the steward's hart for 0xD0 as well, log 29); unmapping an empty ring clears the slot and is recorded;
GEXIT by a launched hart of itself counts; TRTAIL moves; a debug freeze stops the island, and its release, with
TRAPREL set before or by it (log 34), raises 0xF2 at the boundary of each loaded hart. REGISTER_WRITE does the same;
it writes the registers of the log, the slots, IMASK, TIMECMP, IPEND (1 clears), the triggers and the traces, of the
containment blocks, of the grants and interrupt routes, and of an idle network queue, each with a legal value of its
rule (0 for a size, log 33), and a hart's own system registers in its mode, FPCTL once its queued work is done. In
every one of these registers an illegal value, and any other master, changes nothing, nor does a write of an offset
that the steward's or the containment block's table does not list (logs 33 and 14); GEXIT is open to user mode (log
22). (11_scheduling.md R226; 11_scheduling.md R227; 11_scheduling.md R231; 11_scheduling.md R235; 11_scheduling.md
R237; 12_traps.md R260; 13_edges.md R265; 13_edges.md R267; 13_edges.md R278; 13_edges.md R277; 13_edges.md R279;
13_edges.md R280) -/
def Obligations.RegisterEvents : Prop :=
  (∀ (s : State) (who : Who) (n q : Nat) (v : Word), n < 20 → q < 64 →
    let i := island s n
    let x := slot s n q
    let may := WritesIsland s who n false
    let free := lineHeld s (placementHart s n) x.qcbpa.toNat = false ∧ poisonAt s x.qcbpa.toNat 64 = none
    let legal := 0 < fieldOf v 24 8 ∧ 0 < fieldOf v 16 8 ∧ 12 ≤ fieldOf v 0 4
    (¬may → Becomes (.schedcfgWrite who n v) s s ∧ Becomes (.notifyWrite who n q) s s ∧ Becomes (.slotMap who n q) s s ∧
      (∀ r, Becomes (.slotUnmap who n q r) s s) ∧ Becomes (.debugFreeze who n v) s s ∧
      Becomes (.debugRelease who n v) s s) ∧
    (may → legal → Completes (.schedcfgWrite who n v) s fun t => ChangedIsland s t n
      { i with newCfg := some (BitVec.ofNat 8 (fieldOf v 24 8), BitVec.ofNat 8 (fieldOf v 16 8), BitVec.ofNat 4 (fieldOf v 0 4)) }) ∧
    (¬legal → Becomes (.schedcfgWrite who n v) s s) ∧
    (may → Completes (.notifyWrite who n q) s fun t => ChangedSlot s t n q
      (if x.mapped = true then { x with pend := true, look := true }
        else if x.clearedAt = some s.time then { x with pend := true } else { x with drop := true })) ∧
    (may → x.mapped = false → readQcb s n x.qcbpa.toNat ≠ none → Completes (.slotMap who n q) s fun t =>
      ChangedSlot s t n q { x with mapped := true, look := true }) ∧
    (may → x.mapped = false → readQcb s n x.qcbpa.toNat = none → free → Completes (.slotMap who n q) s fun t =>
      ∃ w v u, ChangedSlot s w n q { x with mapped := true, look := true } ∧ BlockFaults w v n x.qcbpa.toNat ∧
        ChangedSlot v u n q { x with err := true, pend := false, look := false } ∧
        t = decisionRecord u n { kind := 5, reason := 0x0B, slot := q }) ∧
    (∀ r c, may → x.mapped = true → readQcb s n x.qcbpa.toNat = some c → c.enabled = false ∨ c.rdIdx = c.wrIdx →
      free → x.closing = [] →
      Completes (.slotUnmap who n q r) s fun t =>
        ∃ u, ChangedSlot s u n q { x with mapped := false, pend := false, look := false, clearedAt := some s.time } ∧
          t = decisionRecord u n { kind := 6, slot := q }) ∧
    (may → Completes (.debugFreeze who n v) s fun t =>
      ChangedIsland s t n { i with trapRel := v.toNat.testBit 1, freezeBit := true }) ∧
    (may → Completes (.debugRelease who n v) s fun t => ∃ u,
      ChangedIsland s u n { i with trapRel := v.toNat.testBit 1, freezeBit := false } ∧ t = { u with harts := t.harts } ∧
      ∀ h, IsHart h → hart t h =
        if islandOf h = n ∧ i.freezeBit = true ∧ (i.trapRel = true ∨ v.toNat.testBit 1 = true) ∧
          ((hart s h).started = true ∨ (hart s h).stopped = true) then { hart s h with boundaryTrap := some 0xF2 }
        else hart s h) ∧
    (∀ h, who = .hart h → WritesIsland s who n true →
      let own := v.toNat = (if h < 5120 then h else 2 ^ 15 + (h - 5120)) ∧
        ∃ p ∈ (island s (islandOf h)).gangs, ∃ m ∈ p.2.harts, m.2 = h
      (own → Completes (.gexit who n v) s fun t => ChangedHart s t h { hart s h with exitAsked := true }) ∧
      (¬own → Becomes (.gexit who n v) s s)) ∧
    (¬WritesIsland s who n true → Becomes (.gexit who n v) s s) ∧
    (∀ c, c / 64 = n → (Machine.core s c).trace.truncated = false →
      (may → v.toNat % 8 = 0 → Completes (.trtailWrite who c v) s fun t =>
        ChangedCore s t c { Machine.core s c with trace := { (Machine.core s c).trace with tail := v } }) ∧
      (¬may ∨ v.toNat % 8 ≠ 0 → Becomes (.trtailWrite who c v) s s))) ∧
  (∀ (s : State) (who : Who) (n : Nat) (v : Word), n < 20 →
    let i := island s n
    let to_ (off : Nat) : Instr := .registerWrite who (.mmio (0x30000000000 + n * 0x100000 + off)) v
    let debug (off : Nat) : Instr := .registerWrite who (.mmio (0x30004000000 + n * 0x10000 + off)) v
    let sets := Sets s (WritesIsland s who n false)
    sets (to_ 0x8) (v.toNat % 4096 = 0) (fun t => ChangedIsland s t n { i with logBase := v, logHead := 0 }) ∧
    sets (to_ 0x10) (v = 0 ∨ PowerIn v 7 20) (fun t => ChangedIsland s t n { i with logSize := v }) ∧
    sets (to_ 0x20) True (fun t => ChangedIsland s t n { i with logTail := v }) ∧
    exec (to_ 0) s = exec (.schedcfgWrite who n v) s ∧
    (∀ q, q < 64 → let x := slot s n q
      sets (to_ (0x1000 + 0x20 * q)) (v.toNat % 64 = 0) (fun t => ChangedSlot s t n q { x with qcbpa := v }) ∧
      exec (to_ (0x1008 + 0x20 * q)) s = exec (.notifyWrite who n q) s ∧
      (v = 1 → exec (to_ (0x1010 + 0x20 * q)) s = exec (.slotMap who n q) s) ∧
      (x.mapped = true → v.toNat % 2 = 1 → sets (to_ (0x1010 + 0x20 * q)) True fun t => ChangedSlot s t n q
        { x with err := x.err && !v.getLsbD 3, drop := x.drop && !v.getLsbD 2 })) ∧
    (∀ off, off < 0x100000 → off ∉ [0, 0x8, 0x10, 0x20, 0x100] →
      off < 0x1000 ∨ 0x1800 ≤ off ∨ off % 8 ≠ 0 ∨ off % 0x20 = 0x18 → Becomes (to_ off) s s) ∧
    (∀ p, p < 256 → let h := 256 * n + p
      let irq (k : Nat) := debug (0x100 + 0x18 * p + k)
      sets (irq 0) True (fun t => ChangedHart s t h { hart s h with ipend := (hart s h).ipend &&& ~~~v }) ∧
      sets (irq 8) True (fun t => ChangedHart s t h { hart s h with imask := v }) ∧
      sets (irq 16) True fun t => ChangedHart s t h
        { hart s h with timecmp := v, ipend := (hart s h).ipend &&& BitVec.ofInt 64 (-5) }) ∧
    (∀ k, k < 16 →
      let to_ (off : Nat) := debug (0x4000 + 0x20 * k + off)
      let puts (x : Trigger) (t : State) : Prop := (∃ l, ChangedIsland s t n { i with triggers := l }) ∧ trigger t n k = x ∧
        ∀ j, j ≠ k → trigger t n j = trigger s n j
      sets (to_ 0) True (puts { trigger s n k with addr := v }) ∧ sets (to_ 8) True (puts { trigger s n k with mask := v }) ∧
      sets (to_ 16) (v.toNat / 2 ^ 22 = 0 ∧ fieldOf v 13 3 = 0 ∧ (8 ≤ k ∨ fieldOf v 18 4 = 0)) (puts { trigger s n k with ctl := v })) ∧
    (∀ c, c / 64 = n →
      let to_ (off : Nat) := debug (0x8000 + 0x40 * (c % 64) + off)
      let k := Machine.core s c
      let puts (x : Trace) (t : State) : Prop := ChangedCore s t c { k with trace := x }
      sets (to_ 0) True (puts { k.trace with ctl := v &&& 0x8000000000001FFF }) ∧
      sets (to_ 8) (v.toNat % 4096 = 0) (puts { k.trace with base := v, head := 0 }) ∧
      sets (to_ 16) (v = 0 ∨ PowerIn v 12 30) (puts { k.trace with size := v }))) ∧
  (∀ (s : State) (who : Who) (f : Nat) (v : Word), f < 4 →
    let p := part s f
    let host : Prop := who = .vf f ∧ p.trafficFrozen = false
    let puts (x : Part) (t : State) : Prop := ChangedPart s t f x
    (let to_ (off : Nat) : Instr := .registerWrite who (.mmio (0x30002000000 + f * 0x1000 + off)) v
      let sets := Sets s (IsMonitor s who ∨ host)
      sets (to_ 0) (v.toNat % 4096 = 0) (puts { p with errBase := v }) ∧
      sets (to_ 8) (v = 0 ∨ PowerIn v 6 16) (puts { p with errSize := v }) ∧ sets (to_ 0x18) True (puts { p with errTail := v }) ∧
      sets (to_ 0x28) True (puts { p with notify := v &&& 0x8000000000001FFF }) ∧
      sets (to_ 0x38) True (puts { p with ceLimit := v }) ∧
      ∀ off, off < 0x1000 → off ∉ [0, 8, 0x18, 0x28, 0x38, 0x40] → Becomes (to_ off) s s) ∧
    (let to_ (off : Nat) : Instr := .registerWrite who (.mmio (0x30003000000 + f * 0x1000 + off)) v
      let meets (base size : Nat) : Prop := ∃ o, o < 4 ∧ o ≠ f ∧ 0 < size ∧ 0 < (part s o).hbmSize.toNat ∧
        base < (part s o).hbmBase.toNat + (part s o).hbmSize.toNat ∧ (part s o).hbmBase.toNat < base + size
      let legal (base size : Nat) : Prop := base % 2 ^ 30 = 0 ∧ size % 2 ^ 30 = 0 ∧ ¬meets base size
      Sets s (IsMonitor s who) (to_ 8) (legal v.toNat p.hbmSize.toNat) (puts { p with hbmBase := v }) ∧
      Sets s (IsMonitor s who) (to_ 16) (legal p.hbmBase.toNat v.toNat) (puts { p with hbmSize := v }) ∧
      Sets s (IsMonitor s who) (to_ 24) True (puts { p with linkGrant := v.setWidth 16 &&& 0xFF01 }) ∧
      ∀ k, k < 8 → Sets s (WritesPartition s who f) (to_ (0x28 + 8 * k)) (fieldOf v 0 13 < 5120) fun t => ∃ l, puts { p with irqRoute := l } t ∧
        ∀ j, l[j]? = if j = k then some (v &&& 0x8000000000001FFF) else p.irqRoute[j]?) ∧
    (let to_ (off : Nat) : Instr := .registerWrite who (.mmio (0x30006000000 + f * 0x1000 + off)) v
      let may : Prop := host ∨ ∃ h, who = .hart h ∧ (hart s h).mode = .supervisor ∧ partOf s h = some f
      Sets s may (to_ 0) (p.nqRd = p.nqWr) (puts { p with nqBase := v &&& 0xFFFFFFFFFF000, nqWr := 0, nqRd := 0 }) ∧
      Sets s may (to_ 8) (p.nqRd = p.nqWr ∧ 4 ≤ fieldOf v 0 4 ∧ fieldOf v 0 4 ≤ 12)
        (puts { p with nqLog2 := BitVec.ofNat 4 (fieldOf v 0 4) }))) ∧
  (∀ (s : State) (h f : Nat) (n : BitVec 12) (v : Word) (x : Hart), srWritten (hart s h) n.toNat v = some x →
    (n = 4 → vectorQuiet (hart s h) = true ∧ matrixEmpty (hart s h) = true) →
    (n.toNat / 1024 ≤ (hart s h).mode.code.toNat →
      Completes (.registerWrite (.hart h) (.sr n) v) s fun t => ChangedHart s t h x) ∧
    ((hart s h).mode.code.toNat < n.toNat / 1024 → Becomes (.registerWrite (.hart h) (.sr n) v) s s) ∧
    Becomes (.registerWrite (.vf f) (.sr n) v) s s)

/-- In a hart that runs no speculative task. SEND raises 0xA3 where the operand names no loaded hart of the island, RECV
where it names a gang's member outside a gang or above index 63, and both where a bit is set that R241 wants zero,
then 0xA7 for a length above 4,096. Over plain memory, SEND waits while the inbox of the class is full; otherwise the
message, its bytes with the sender's position and member index, is the last of that inbox and the sender goes on (to
itself too). RECV waits while no message matches, as a hart that has not been blocked since the previous round;
otherwise the oldest that does leaves the inbox, min(LEN, L) of its bytes stand at xa, xd holds TRUNC, member,
position and length, and no other byte changes; a member's message is matched by its index wherever it has moved
since. The events do the same for a hart that waits, and nothing else (log 14); a SEND whose destination was unloaded
meanwhile still deposits (log 112). (11_scheduling.md R241; 11_scheduling.md R242; 11_scheduling.md R243;
18_reference_l_to_s.md R382; 12_traps.md R249) -/
def Obligations.Messages : Prop :=
  ∀ (s : State) (d a b : Reg) (u : Bool), Settled s →
    let dst := rx s d
    let f := rx s b
    let len := fieldOf f 0 13
    let n := (rx s b).toNat
    let sendBad := (∀ h, ¬Names s dst h) ∨ fieldOf dst 25 39 ≠ 0 ∨ fieldOf dst 0 16 ≠ 0
    let recvBad := fieldOf f 26 38 ≠ 0 ∨ fieldOf f 13 3 ≠ 0 ∨ 
      (f.toNat.testBit 24 = true ∧ ((∀ g, (me s).gang.valid = true →
        tabGet (island s (islandOf s.cur)).gangs ((me s).gang.gang.toNat % 256) ≠ some g) ∨
        (f.toNat.testBit 25 = false ∧ 64 ≤ fieldOf f 16 8)))
    let sent (s t : State) (dest : Nat) (u : Bool) (va : Word) (n : Nat) : Prop := UpToCaches s fun s => ∃ w,
      ChangedHart s w dest (withInbox u (inboxAt (hart s dest) u ++ [outgoing s dest va.toNat n]) (hart s dest)) ∧
      WentTo w t ((me s).pc + 4)
    let took (s t : State) (d : Reg) (va f : Word) (u : Bool) : Prop :=
      ∃ pre m post w, inboxAt (me s) u = pre ++ m :: post ∧ (∀ x ∈ pre, ¬Matches f x) ∧ Matches f m ∧
        w = { s with mem := w.mem, caches := w.caches } ∧ WroteBytes s w va.toNat (m.bytes.take (fieldOf f 0 13)) ∧
        WroteHart w t d (received m (fieldOf f 0 13)) (withInbox u (pre ++ post) (me s))
    (sendBad → Completes (.send d a b u) s fun t => Trapped s t 0xA3 (leadWord (.send d a b u))) ∧
    (¬sendBad → 4096 < n → Completes (.send d a b u) s fun t => Trapped s t 0xA7 (leadWord (.send d a b u))) ∧
    (∀ h, ¬sendBad → n ≤ 4096 → Names s dst h → PlainAt s (rx s a) n →
      (8 ≤ (inboxAt (hart s h) u).length → Completes (.send d a b u) s fun t => Waits s t (.send h u (rx s a) n)) ∧
      ((inboxAt (hart s h) u).length < 8 → Completes (.send d a b u) s (sent s · h u (rx s a) n))) ∧
    (recvBad → Completes (.recv d a b u) s fun t => Trapped s t 0xA3 (leadWord (.recv d a b u))) ∧
    (¬recvBad → 4096 < len → Completes (.recv d a b u) s fun t => Trapped s t 0xA7 (leadWord (.recv d a b u))) ∧
    (¬recvBad → len ≤ 4096 → PlainAt s (rx s a) len → (∀ m ∈ inboxAt (me s) u, ¬Matches f m) →
      Completes (.recv d a b u) s fun t => ∃ v, Waits v t (.recv d (rx s a) f u (leadWord (.recv d a b u))) ∧
        ChangedIsland s v (islandOf s.cur) { island s (islandOf s.cur) with
          blocked := (island s (islandOf s.cur)).blocked.filter (· != s.cur) }) ∧
    (¬recvBad → len ≤ 4096 → PlainAt s (rx s a) len → (∃ m ∈ inboxAt (me s) u, Matches f m) →
      Completes (.recv d a b u) s (took s · d (rx s a) f u)) ∧
    (∀ (h dest : Nat) (cls : Bool) (va : Word) (n : Nat), (hart s h).wait = some (.send dest cls va n) →
      let s1 : State := { s with cur := h }
      (8 ≤ (inboxAt (hart s dest) cls).length → Becomes (.sendDeposit h) s s) ∧
      ((inboxAt (hart s dest) cls).length < 8 → PlainAt s1 va n → Completes (.sendDeposit h) s (sent s1 · dest cls va n))) ∧
    (∀ (h : Nat) (d : Reg) (va f w : Word) (cls : Bool), (hart s h).wait = some (.recv d va f cls w) →
      let s1 : State := { s with cur := h }
      ((∀ m ∈ inboxAt (me s1) cls, ¬Matches f m) → Becomes (.recvTake h) s s) ∧
      ((∃ m ∈ inboxAt (me s1) cls, Matches f m) → PlainAt s1 va (fieldOf f 0 13) →
        Completes (.recvTake h) s (took s1 · d va f cls)))

/-- In a hart that runs no speculative task, GBAR raises 0xA6 outside a gang and 0xA5 in a broken one, and waits while the
hart has queued memory accesses. Otherwise, while another member has not arrived, it marks the arrival and waits, and
nothing else changes; when every other member has arrived, the last to arrive and each member that waits in its GBAR
and may go on (R251: no freeze, pre-emption or interrupt comes first) goes on with the number of barriers completed
before this one in its own xd, and the gang's count of barriers goes up by one. A member that may not, or that an
interrupt took out of its GBAR, holds none of them: when it executes GBAR again it goes on with its own count. The
release event does so for a gang whose members have all arrived, and otherwise nothing (log 14). A held convoy counts
for no wait (log 38). (11_scheduling.md R245; 17_reference_a_to_k.md R360) -/
def Obligations.GangBarrier : Prop :=
  let arrived (x : Hart) (g : Gang) : Prop := x.arrived = true ∧ x.barrierCount = g.barriers
  let released (s t : State) (n e : Nat) (g : Gang) (at_ : Nat → Reg → Prop) : Prop :=
    t = { s with harts := t.harts, islands := t.islands } ∧
    (∀ m ∈ members g, ∀ d, at_ m d → Released (hart s m) (hart t m) d g.barriers) ∧
    (∀ m ∈ members g, (∀ d, ¬at_ m d) → hart t m = hart s m) ∧
    (∀ k, k ∉ members g → hart t k = hart s k) ∧ (∀ k, k ≠ n → island t k = island s k) ∧
    island t n = { island s n with gangs := (island t n).gangs } ∧
    tabGet (island t n).gangs e = some { g with barriers := g.barriers + 1 } ∧
    ∀ k, k ≠ e → tabGet (island t n).gangs k = tabGet (island s n).gangs k
  (∀ (s : State) (d : Reg) (g : Gang), Settled s →
    let n := islandOf s.cur
    let e := (me s).gang.gang.toNat % 256
    let i : Instr := .gbar d
    let passed := (me s).arrived = true ∧ (me s).barrierCount ≠ g.barriers
    let others := ∀ m ∈ members g, m ≠ s.cur → arrived (hart s m) g
    ((me s).gang.valid = false ∨ tabGet (island s n).gangs e = none → Completes i s fun t => Trapped s t 0xA6 (leadWord i)) ∧
    ((me s).gang.valid = true → tabGet (island s n).gangs e = some g → s.cur ∈ members g →
      (passed → Completes i s fun t => WroteHart s t d (me s).barrierCount { me s with arrived := false }) ∧
      (¬passed → g.broken = true → Completes i s fun t => Trapped s t 0xA5 (leadWord i)) ∧
      (¬passed → g.broken = false → MemoryQueued (me s) → Completes i s fun t => Waits s t .queues) ∧
      (¬passed → g.broken = false → ¬MemoryQueued (me s) → ¬(others ∧ (members g).length = g.packet.size) →
        Completes i s fun t => ChangedHart s t s.cur
          { me s with arrived := true, wait := some (.gbar d), barrierCount := g.barriers }) ∧
      (¬passed → g.broken = false → ¬MemoryQueued (me s) → others → (members g).length = g.packet.size →
        Completes i s fun t => released s t n e g fun m dm =>
          (m = s.cur ∧ dm = d) ∨ (m ≠ s.cur ∧ waitGoes s m = true ∧ (hart s m).wait = some (.gbar dm))))) ∧
  (∀ (s : State) (n e : Nat) (g : Gang), tabGet (island s n).gangs e = some g →
    let all := (∀ m ∈ members g, arrived (hart s m) g) ∧ (members g).length = g.packet.size
    (all → Completes (.gbarRelease n e) s fun t => released s t n e g fun m dm =>
      waitGoes s m = true ∧ (hart s m).wait = some (.gbar dm)) ∧
    (¬all → Becomes (.gbarRelease n e) s s))

/-- In a hart that runs no speculative task: WAITT raises 0xA8 above TIME + 2³², goes on at or below TIME, and else waits;
WAITWM raises 0x26 at a misaligned address, and over plain memory goes on when the doubleword is at least xb,
unsigned, and else waits; IDLE, not after GEXIT, goes on when an enabled interrupt pends, whatever IE holds, and else
waits. FENCE.sv and .vv go on, .vv marking its place in the queues for younger accesses, .vs and .all wait while
vector or matrix memory accesses are queued (a held convoy's count for none, log 38). Going on changes nothing else
but the PC and the count. Each event looks again for a hart that waits: the hart goes on exactly when the condition
holds. A hart that waits for a migration looks again 256 cycles later while its page migrates, and runs its access
again after. No event does anything else (log 14). (09_ordering.md R196; 09_ordering.md R200; 17_reference_a_to_k.md
R356; 17_reference_a_to_k.md R359; 19_reference_t_to_z.md R427; 19_reference_t_to_z.md R428; 08_translation.md R184) -/
def Obligations.TimedWaits : Prop :=
  let now (s : State) (h : Nat) : Nat := s.time + (island s (islandOf h)).timeAhead.toNat
  let goesOn (s t : State) (h : Nat) : Prop := ChangedHart s { t with cur := s.cur } h
    { hart s h with pc := (hart s h).pc + 4, instret := (hart s h).instret + 1, wait := none }
  let enabled (s : State) (h : Nat) : Prop := ∃ k, 1 ≤ k ∧ k ≤ 15 ∧ (hart s h).imask.toNat.testBit k = true ∧
    ((hart s h).ipend.toNat.testBit k = true ∨ (k = 2 ∧ (hart s h).timecmp.toNat ≤ now s h % 2 ^ 64))
  (∀ (s : State) (a b : Reg) (dir : Dir) (sc : Scope), Settled s →
    let v := rx s a
    let on (t : State) : Prop := WentTo s t ((me s).pc + 4)
    (now s s.cur + 2 ^ 32 < v.toNat → Completes (.waitt a) s fun t => Trapped s t 0xA8 (leadWord (.waitt a))) ∧
    (v.toNat ≤ now s s.cur → Completes (.waitt a) s on) ∧
    (now s s.cur < v.toNat → v.toNat ≤ now s s.cur + 2 ^ 32 → Completes (.waitt a) s fun t => Waits s t (.waitt v)) ∧
    (v.toNat % 8 ≠ 0 → Completes (.waitwm a b sc) s fun t => Trapped s t 0x26 v) ∧
    (v.toNat % 8 = 0 → PlainAt s v 8 → (rx s b).toNat ≤ memNat s v.toNat 8 →
      Completes (.waitwm a b sc) s fun t => UpToCaches s fun s => WentTo s t ((me s).pc + 4)) ∧
    (v.toNat % 8 = 0 → PlainAt s v 8 → memNat s v.toNat 8 < (rx s b).toNat →
      Completes (.waitwm a b sc) s fun t => UpToCaches s fun s => Waits s t (.waitwm v (rx s b))) ∧
    ((me s).exitAsked = false → enabled s s.cur → Completes .idle s on) ∧
    ((me s).exitAsked = false → ¬enabled s s.cur → Completes .idle s fun t => Waits s t .idle) ∧
    (dir ≠ .vv → dir = .sv ∨ ¬MemoryQueued (me s) → Completes (.fence dir sc) s on) ∧
    Completes (.fence .vv sc) s (fun t => WroteHart s t 0 0 { me s with vvFence := (me s).queued }) ∧
    (dir = .vs ∨ dir = .all → MemoryQueued (me s) → Completes (.fence dir sc) s fun t => Waits s t (.fence dir))) ∧
  (∀ (s : State) (h : Nat) (v va bound : Word) (dir : Dir) (k : AccKind) (at_ : Nat),
    ((hart s h).wait = some (.waitt v) →
      (v.toNat ≤ now s h → Completes (.waittExpire h) s (goesOn s · h)) ∧
      (now s h < v.toNat → Becomes (.waittExpire h) s s)) ∧
    ((hart s h).wait = some (.waitwm va bound) → PlainAt { s with cur := h } va 8 →
      (bound.toNat ≤ memNat s va.toNat 8 → Completes (.waitwmSatisfied h) s fun t => UpToCaches s (goesOn · t h)) ∧
      (memNat s va.toNat 8 < bound.toNat → Completes (.waitwmSatisfied h) s fun t =>
        UpToCaches s fun s => ChangedHart s { t with cur := s.cur } h (hart s h))) ∧
    ((hart s h).wait = some .idle →
      (enabled s h → Completes (.idleWake h) s (goesOn s · h)) ∧ (¬enabled s h → Becomes (.idleWake h) s s)) ∧
    ((hart s h).wait = some (.fence dir) →
      (¬MemoryQueued (hart s h) → Completes (.fenceComplete h) s (goesOn s · h)) ∧
      (MemoryQueued (hart s h) → Becomes (.fenceComplete h) s s)) ∧
    ((hart s h).wait = some (.migration va k at_) →
      (s.time < at_ → Becomes (.migrationRecheck h) s s) ∧
      (at_ ≤ s.time → (∃ u, translate s (hartAccess s h k) va = .migrating u) →
        Completes (.migrationRecheck h) s fun t =>
          ∃ u, translate s (hartAccess s h k) va = .migrating u ∧
            ChangedHart u t h { hart u h with wait := some (.migration va k (s.time + 256)) }) ∧
      (at_ ≤ s.time → (∀ u, translate s (hartAccess s h k) va ≠ .migrating u) →
        Completes (.migrationRecheck h) s fun t => ChangedHart s t h { hart s h with wait := none })))

/-- In a hart that runs no speculative task, SETVL whose slot has in LANEPART no groups of its core (of a steward core's
one group: the model's choice, log 86) releases the groups held, with VDECL, VL and VLMAX zero, and raises 0x0C; with
VS off it raises 0x61, and REGS 3 raises 0x68. A change of the groups or of REGS waits for an empty vector queue with
no move between v and tiles queued, and new groups until no other hart of the core holds one. Otherwise it completes:
VL is the smaller of xa and VLMAX, VLMAX is LANES × 32,768 ÷ REGS ÷ EW with LANES four for each group, VSTART is 0, xd
is VL; new groups zero v and k and make VS initial, a new REGS zeroes v and makes a clean VS dirty. The event does so
for a hart that waits; LOCALSPLIT_RESIZE performs a waiting write of LOCALSPLIT once the engine is idle, no task holds
rows, and no queued access to the scratchpad checked under the old S is left (log 106); a supervisor's is ignored
where the core has become managed. (02_state.md R59; 05_vectors.md R100; 05_vectors.md R101; 18_reference_l_to_s.md
R386; 02_state.md R60) -/
def Obligations.VectorDeclaration : Prop :=
  let vEmpty (x : Hart) : Prop := x.vq = [] ∧ x.flight = none ∧ x.sdest = none ∧ x.heldConvoy = none ∧ movesPending x = false
  let ready (s : State) (h : Nat) (regs : BitVec 2) (g : BitVec 4) : Prop :=
    (g ≠ (hart s h).groups ∨ regs ≠ (hart s h).regs → vEmpty (hart s h)) ∧
    (g ≠ (hart s h).groups → ∀ o ∈ hartsOn (coreOf h), o ≠ h → (hart s o).groups &&& g = 0)
  (∀ (s : State) (d a : Reg) (regs : BitVec 2) (ew : Size), Settled s →
    let i : Instr := .setvl d a regs ew
    let g := laneFieldOf s s.cur
    (g = 0 → Completes i s fun t => ∃ u, ChangedHart s u s.cur
        { me s with groups := 0, lanes := 0, regs := 0, ew := 0, vl := 0, vlmax := 0, vlSeq := (me s).vlSeq + 1 } ∧
      Trapped u t 0x0C (leadWord i)) ∧
    (g ≠ 0 → (me s).vs = 0 → Completes i s fun t => Trapped s t 0x61 (leadWord i)) ∧
    (g ≠ 0 → (me s).vs ≠ 0 → regs = 3 → Completes i s fun t => Trapped s t 0x68 (leadWord i)) ∧
    (g ≠ 0 → (me s).vs ≠ 0 → regs ≠ 3 → ¬ready s s.cur regs g →
      Completes i s fun t => Waits s t (.lane d (rx s a) regs ew g)) ∧
    (g ≠ 0 → (me s).vs ≠ 0 → regs ≠ 3 → ready s s.cur regs g →
      Completes i s fun t => ChangedHart s t s.cur (declared (me s) d (rx s a).toNat regs ew g))) ∧
  (∀ (s : State) (h : Nat) (d : Reg) (avl v : Word) (regs : BitVec 2) (ew : Size) (g : BitVec 4),
    ((hart s h).wait = some (.lane d avl regs ew g) → regs ≠ 3 →
      (ready s h regs g → Completes (.laneGrant h) s fun t => ChangedHart s t h (declared (hart s h) d avl.toNat regs ew g)) ∧
      (¬ready s h regs g → Becomes (.laneGrant h) s s)) ∧
    ((hart s h).wait = some (.localsplit d v) → let c := Machine.core s (coreOf h)
      let inSpad (q : Pin) : Prop := 0x10000000 + 256 * coreOf h ≤ q.ppage ∧ q.ppage < 0x10000000 + 256 * (coreOf h + 1)
      let free := (c.engine.queue = [] ∧ c.engine.running = none ∧ c.engine.violating = none) ∧
        (∀ e ∈ s.tasks, e.rowCore = coreOf h → e.rows = []) ∧
        ∀ x ∈ s.harts.map (·.2), (∀ e ∈ x.mq, ∀ q ∈ e.pins, ¬inSpad q) ∧
          ∀ k ∈ (x.flight.map (·.convoy)).toList ++ x.vq, k.reprobe = none ∨ k.firstFault = true → ∀ q ∈ k.pins, ¬inSpad q
      let managed := (hart s h).mode = .supervisor ∧ ∃ p ∈ (island s (islandOf h)).gangs, ∃ g ∈ p.2.harts, coreOf g.2 = coreOf h
      (managed → Completes (.localsplitResize h) s fun t => WroteHart { s with cur := h } t d
        (c.split.setWidth 64) (hart s h)) ∧
      (¬managed → free → Completes (.localsplitResize h) s fun t =>
        (Machine.core t (coreOf h)).split = BitVec.ofNat 3 (fieldOf v 0 3) ∧ (hart t h).wait = none ∧
        (hart t h).pc = (hart s h).pc + 4 ∧
        (∀ r, getX (hart t h) r = if r = d ∧ d ≠ 0 then c.split.setWidth 64 else getX (hart s h) r) ∧
        ∀ k, k ≠ h → (hart s k).vq = [] → (hart s k).flight = none → hart t k = hart s k) ∧
      (¬managed → ¬free → Becomes (.localsplitResize h) s s)))

/-- For a hart below monitor mode with PTBASE.EN 1, a canonical address no cached translation serves, over tables in
backed HBM without uncorrectable data, a walk for an access that comes from PTBASE.ROOT through pointers to a leaf
that allows it: A is set in the leaf's entry, and D for a store, every other byte of memory as before; a leaf with MIG
0 is cached, in the shared TLB of 2,048 entries, 8 to a set, and in the 16-entry micro-TLB of the hart's slot, as a
page of its level's size (64 KiB with CH) with its number, ASID, G, R, W, X, U, D and FG, one with MIG 1 is not; no
older translation that shares an address with the page it read stays; nothing else changes but where copies of lines
stand. A walk that ends at a leaf that does not allow the access, or for a store at one that migrates, only drops
those; one that ends at an entry with V 0 or a malformed one, and one for an address that is not canonical, changes
nothing (log 14 for the event). That A and D are set and the page is cached whatever a later physical check finds, and
the set of a page by its low 8 bits, are the model's choices (log 10). (02_state.md R58; 08_translation.md R167;
08_translation.md R169; 08_translation.md R170; 08_translation.md R171; 08_translation.md R172; 08_translation.md
R173; 08_translation.md R175; 08_translation.md R184) -/
def Obligations.PageWalks : Prop :=
  ∀ (s : State) (h : Nat) (va : Word) (k : AccKind),
    let x := hart s h
    let c := Machine.core s (coreOf h)
    let v48 := va.toNat % 2 ^ 48
    let asid := BitVec.ofNat 12 (fieldOf x.ptbase 52 12)
    let root := fieldOf x.ptbase 12 40
    x.mode ≠ .monitor → x.ptbase.toNat.testBit 0 = true →
    s.failedStacks = 0 → s.poison = [] → s.lostLines = [] → (∀ e ∈ s.tasks, e.homeLines = [] ∧ e.reads = []) → Memory.wf s.mem = true →
    let here (l : List (TlbPort × TlbEntry)) := l.filter fun o => o.1 == .slot (slotOf h)
    (¬IsCanonical va.toNat → Becomes (.pageWalk h va k) s s) ∧
    (IsCanonical va.toNat → (∀ e ∈ c.tlb, ¬Serves e asid v48) → (∀ o ∈ here c.small, ¬Serves o.2 asid v48) →
      (WalkFails s v48 4 root → Becomes (.pageWalk h va k) s s) ∧
      ∀ lvl a e, WalkTo s v48 4 root (lvl, a, e) →
        let e1 := e ||| (if k = .store then 192 else 64)
        let n := leafLog2 lvl e
        let entry : TlbEntry :=
          { vpage := v48 / 2 ^ n, log2 := n, ppage := entryField e 12 40 / 2 ^ (n - 12), asid := asid
            global := e.testBit 10, r := e.testBit 1, w := e.testBit 2, x := e.testBit 3, u := e.testBit 4
            d := e1.testBit 7, fg := e.testBit 59 }
        let dropped (c1 : Core) : Prop := c1.tlb.Sublist c.tlb ∧ c1.small.Sublist c.small ∧
          (∀ o, o ∈ c1.tlb ↔ o ∈ c.tlb ∧ ¬Overlaps o entry) ∧ ∀ o, o ∈ c1.small ↔ o ∈ c.small ∧ ¬Overlaps o.2 entry
        (¬Allows e x.mode k ∨ (k = .store ∧ e.testBit 58 = true) → Completes (.pageWalk h va k) s fun t =>
          let c1 := Machine.core t (coreOf h)
          t = { s with cores := t.cores } ∧ (∀ o, o ≠ coreOf h → Machine.core t o = Machine.core s o) ∧
          c1 = { c with tlb := c1.tlb, small := c1.small } ∧ dropped c1) ∧
        (Allows e x.mode k → ¬(k = .store ∧ e.testBit 58 = true) → Completes (.pageWalk h va k) s fun t =>
          let c1 := Machine.core t (coreOf h)
          t = { s with mem := t.mem, cores := t.cores, caches := t.caches } ∧ memNat t a 8 = e1 ∧
          (∀ b, b < a ∨ a + 8 ≤ b → memRead t.mem b = memRead s.mem b) ∧ Memory.wf t.mem = true ∧
          (∀ o, o ≠ coreOf h → Machine.core t o = Machine.core s o) ∧ c1 = { c with tlb := c1.tlb, small := c1.small } ∧
          (e.testBit 58 = true → dropped c1) ∧
          (e.testBit 58 = false → c1.tlb.head? = some entry ∧ (here c1.small).head? = some (.slot (slotOf h), entry) ∧
            (∀ o ∈ c1.tlb.tail, o ∈ c.tlb ∧ ¬Overlaps o entry) ∧ (∀ o ∈ c1.small, o.2 = entry ∨ (o ∈ c.small ∧ ¬Overlaps o.2 entry)) ∧
            (SetsWithin 8 (·.vpage % 256) c.tlb → SetsWithin 8 (·.vpage % 256) c1.tlb) ∧
            ((here c.small).length ≤ 16 → (here c1.small).length ≤ 16))))

/-- PREF goes on in every state and changes no more than where copies of lines stand: a line of backed HBM stands then in
the L2 portion, where the core has one, and its directory lists that. In a hart that runs no speculative task, in
monitor mode, at an address of backed HBM: CACHEOP.wb leaves no modified copy of the line, at its home or elsewhere,
and CACHEOP.wbi no copy that the directory listed, in no cache and at no home; at one of a scratchpad, B-store or MMIO
window they change nothing. CACHEOP.il drops the line from its core's L1I with the loop records of the core's harts
that hold a word of it, and has a captured body with the line released at its next iteration; one at 2⁵² or above
raises 0x24. CACHEOP.ia raises 0x05 in user mode and otherwise does so for every line. TLBINV raises 0x05 in user mode
and waits while its hart has queued memory accesses; otherwise, where no hart has vector or matrix work, no task
exists and no write of an agent is kept, it goes on, and the TLBs of the cores in scope lose exactly the translations
of the page, of the address space that are not global, or all; nothing else changes. A held convoy counts for no wait
(log 38). (07_local_memory.md R145; 07_local_memory.md R148; 08_translation.md R182; 17_reference_a_to_k.md R357;
17_reference_a_to_k.md R358; 18_reference_l_to_s.md R370; 19_reference_t_to_z.md R397) -/
def Obligations.CachesAndInvalidation : Prop :=
  (∀ (s : State) (a : Reg) (off : BitVec 13),
    Completes (.pref a off) s (fun t => UpToCaches s fun s => WentTo s t ((me s).pc + 4)) ∧
    let c := coreOf s.cur
    let va := rx s a + off.signExtend 64
    let line := va.toNat / 64
    (PlainAt s va 1 → (Machine.core s c).split.toNat < 4 → Completes (.pref a off) s fun t =>
      inL2 t c line = true ∧ (inL2 s c line = false → ∃ e, dirEntryOf t line = some e ∧ .l2 c ∈ e.sharers))) ∧
  (∀ (s : State) (a : Reg), Settled s →
    let va := (rx s a).toNat
    let line := va / 64
    let window := (me s).mode = .monitor ∧
      ((0x10000000000 ≤ va ∧ va < 0x10000000000 + 20 * 0x4000000) ∨ (0x20000000000 ≤ va ∧ va < 0x20000000000 + 20 * 0x10000000) ∨
        (0x30000000000 ≤ va ∧ va < 0x40000000000))
    let on (t : State) (s : State) : Prop := WentTo s t ((me s).pc + 4)
    (window → Completes (.cacheopWb a) s (on · s) ∧ Completes (.cacheopWbi a) s (on · s)) ∧
    (PlainAt s (rx s a) 1 → Completes (.cacheopWb a) s fun t => UpToCaches s (on t) ∧ CleanAtHome t line) ∧
    (PlainAt s (rx s a) 1 → Completes (.cacheopWbi a) s fun t => UpToCaches s (on t) ∧
      dirEntryOf t line = none ∧ tabGet (homeCache t (homeOf (64 * line))).llc line = none ∧
      ∀ e, dirEntryOf s line = some e → ∀ c, .l2 c ∈ e.sharers → inL2 t c line = false ∧ line ∉ (coreCache t c).l1d) ∧
    (PlainAt s (rx s a) 1 ∨ window → Completes (.cacheopIl a) s fun t => DroppedCode s t
      (fun r => decide (r.1.toNat < 64 * line + 64 ∧ 64 * line < r.2.toNat + 4)) (· == line)) ∧
    ((me s).mode = .monitor → 2 ^ 52 ≤ va → ∀ i ∈ [Instr.cacheopWb a, .cacheopWbi a, .cacheopIl a],
      Completes i s fun t => Trapped s t 0x24 (rx s a)) ∧
    ((me s).mode = .user → Completes .cacheopIa s fun t => Trapped s t 0x05 (leadWord .cacheopIa)) ∧
    ((me s).mode ≠ .user → Completes .cacheopIa s fun t => DroppedCode s t (fun _ => true) fun _ => true)) ∧
  (∀ (s : State) (i : Instr) (sc : Scope), Settled s → IsHart s.cur → scopeOf i = some sc →
    ((me s).mode = .user → Completes i s fun t => Trapped s t 0x05 (leadWord i)) ∧
    ((me s).mode ≠ .user → MemoryQueued (me s) → Completes i s fun t => Waits s t .queues) ∧
    ((me s).mode ≠ .user → (∀ h, (hart s h).vq = [] ∧ (hart s h).flight = none ∧ (hart s h).mq = []) → s.tasks = [] → s.pendingWrites = [] →
      Completes i s fun t => t = { s with harts := t.harts, cores := t.cores } ∧ HartsKeptBut s.cur s t ∧
        me t = { me s with pc := (me s).pc + 4, instret := (me s).instret + 1, wait := none } ∧
        (∀ c, ¬InScope s sc c → Machine.core t c = Machine.core s c) ∧
        ∀ c, InScope s sc c → let k := Machine.core t c
          k = { Machine.core s c with tlb := k.tlb, small := k.small } ∧
          k.tlb.Sublist (Machine.core s c).tlb ∧ k.small.Sublist (Machine.core s c).small ∧
          (∀ e, e ∈ k.tlb ↔ e ∈ (Machine.core s c).tlb ∧ ¬Dropped s i e) ∧
          ∀ e, e ∈ k.small ↔ e ∈ (Machine.core s c).small ∧ ¬Dropped s i e.2))

/-- In a hart that runs no speculative task, the three kicks wait while the hart has queued memory accesses, and raise
0xA2 where xa is no multiple of 64. Over a plain descriptor (PlainAt) they raise 0xA2 where a field breaks its limit
for the operation, then 0xA9 where the core's engine is frozen or halted, and wait while it holds 16 commands, keeping
the command as it was checked. Otherwise they complete: the command the descriptor gives is the engine's last, and xd
is its promise by the formula of R161, from TIME, the engine's last promise, the figures of the two endpoints, and the
words and part words of all its rows, which are counted here one by one. Nothing else changes but where copies of
lines stand. The model's choices: the 16 commands count the one in progress (log 52), the endpoints are those of the
first source and destination byte (log 100), with the figures of cacheable memory for MMIO and unassigned space (log
101), and a held convoy counts for no wait (log 38). (07_local_memory.md R157; 07_local_memory.md R158;
07_local_memory.md R159; 07_local_memory.md R161; 18_reference_l_to_s.md R383; 18_reference_l_to_s.md R384) -/
def Obligations.StreamKicks : Prop :=
  ∀ (s : State) (d a : Reg) (op : Nat) (i : Instr), (op, i) ∈ [(1, Instr.scopy d a), (2, .smap d a), (3, .sput d a)] →
    Settled s →
    let va := (rx s a).toNat
    let c := coreOf s.cur
    let e := (Machine.core s c).engine
    (MemoryQueued (me s) → Completes i s fun t => Waits s t .queues) ∧
    (¬MemoryQueued (me s) → va % 64 ≠ 0 → Completes i s fun t => Trapped s t 0xA2 (leadWord i)) ∧
    (¬MemoryQueued (me s) → va % 64 = 0 → PlainAt s (rx s a) 64 →
      (¬ValidDescriptor s va op → Completes i s fun t => UpToCaches s fun s => Trapped s t 0xA2 (leadWord i)) ∧
      (ValidDescriptor s va op → EngineStopped e →
        Completes i s fun t => UpToCaches s fun s => Trapped s t 0xA9 (leadWord i)) ∧
      (ValidDescriptor s va op → ¬EngineStopped e → 16 ≤ (unfinished e).length →
        Completes i s fun t => UpToCaches s fun s => Waits s t (.engineRoom d (commandAt s va op) (leadWord i))) ∧
      (ValidDescriptor s va op → ¬EngineStopped e → (unfinished e).length < 16 →
        let k := commandAt s va op
        (op ≠ 3 → k.src.toNat < 2 ^ 52) → k.dst.toNat < 2 ^ 52 →
        let p := BitVec.ofNat 64 (promiseAt s c k)
        Completes i s fun t => UpToCaches s fun s => ∃ u, ChangedCore s u c { Machine.core s c with
            engine := { e with queue := e.queue ++ [{ k with promise := p }], lastPromise := p } } ∧
          WroteHart u t d p (me s)))

/-- With no task and no kept write in the way, the next command of an engine that is idle, not frozen, not gated and not
stalled at a page under migration starts: an untranslated one over backed HBM moves its rows in order (SCOPY and SMAP
the bytes of their sources, SPUT the bytes of its pattern by the address), every other byte as before, and is in
progress until its promise (the model's time for it, log 8) with its words counted; nothing else changes but where
copies of lines stand. One that consumes a parity error of the engine's buffers moves nothing (log 17). When TIME
reaches that end the command ends: the mailbox, if it has one, holds STATUS in bits 63 to 56 and the words below, no
other byte changes, and a fault is kept for SWAIT of its hart with its promise; before then nothing changes. SWAIT
waits while TIME is below xa; from then on, in a hart that runs no speculative task, it raises 0xA1 with the smallest
promise at most xa of a failed command of the hart that it has not reported, and that one is reported; else 0xA0 with
xa where a command of the core's engine with a promise at most xa has not ended; else it goes on; the check of a hart
that waits does the same. No event does anything else (log 14). (07_local_memory.md R156; 07_local_memory.md R158;
07_local_memory.md R160; 07_local_memory.md R163; 07_local_memory.md R165; 18_reference_l_to_s.md R385) -/
def Obligations.StreamCommands : Prop :=
  let outcome (s : State) (v : Word) (t : State) : Prop :=
    let late := ∃ k ∈ unfinished (Machine.core s (coreOf s.cur)).engine, k.promise.toNat ≤ v.toNat
    (∀ p ∈ (me s).failed, p.toNat ≤ v.toNat → (∀ q ∈ (me s).failed, q.toNat ≤ v.toNat → p.toNat ≤ q.toNat) →
      ∃ u, ChangedHart s u s.cur { me s with failed := (me s).failed.erase p } ∧ Trapped u t 0xA1 p) ∧
    ((∀ p ∈ (me s).failed, v.toNat < p.toNat) → late → Trapped s t 0xA0 v) ∧
    ((∀ p ∈ (me s).failed, v.toNat < p.toNat) → ¬late → WentTo s t ((me s).pc + 4))
  (∀ (s : State) (c : Nat) (k : StreamCmd) (rest : List StreamCmd), let e := (Machine.core s c).engine
    Quiet s → s.failedStacks = 0 → Memory.wf s.mem = true → e.queue = k :: rest →
    let idle := e.running = none ∧ e.violating = none ∧ ¬EngineStopped e ∧ (island s (islandOfCore c)).freezeBit = false ∧
      e.recheck ≤ s.time
    let run (r : StreamEnd) (w : Nat) : StreamRun :=
      { cmd := k, result := r, words := w, ends := max k.promise.toNat (nowAt s c) }
    (¬idle → Becomes (.streamCommandStart c) s s) ∧
    (idle → e.badBuffer = true → Completes (.streamCommandStart c) s fun t => ChangedCore s t c { Machine.core s c with
      engine := { e with queue := rest, badBuffer := false, running := some (run (.uncorrectable 0) 0) } }) ∧
    (idle → e.badBuffer = false → k.mode = .monitor →
      1 ≤ k.len → k.len < 2 ^ 32 → (k.op ≠ 3 → ∀ r ∈ streamRows k, r.1 + k.len ≤ 0xEE6B280000) →
      (∀ r ∈ streamRows k, r.2 + k.len ≤ 0xEE6B280000) →
      Completes (.streamCommandStart c) s fun t => ∃ u, ChangedCore s u c { Machine.core s c with
          engine := { e with queue := rest, running := some (run .complete (wordsOf k).1) } } ∧
        t = { u with mem := t.mem, caches := t.caches } ∧ Memory.wf t.mem = true ∧ Moved k (streamRows k) s t)) ∧
  (∀ (s : State) (c : Nat) (r : StreamRun), let e := (Machine.core s c).engine
    let k := r.cmd
    Quiet s → s.failedStacks = 0 → Memory.wf s.mem = true → e.running = some r → e.violating = none →
    (nowAt s c < r.ends ∨ EngineStopped e ∨ (island s (islandOfCore c)).freezeBit = true ∨ s.time < e.recheck →
      Becomes (.streamCommandEnd c) s s) ∧
    (r.ends ≤ nowAt s c → ¬EngineStopped e → (island s (islandOfCore c)).freezeBit = false → e.recheck ≤ s.time →
      r.result = .complete ∨ r.result = .pageFault → r.words < 2 ^ 56 →
      (k.mbx = true → k.mode = .monitor ∧ k.mbxa.toNat % 8 = 0 ∧ k.mbxa.toNat + 8 ≤ 0xEE6B280000) →
      Completes (.streamCommandEnd c) s fun t => ∃ u v,
        ChangedCore s u c { Machine.core s c with engine := { e with running := none } } ∧
        v = { u with harts := v.harts } ∧
        (∀ h, hart v h = if h = k.hart ∧ r.result = .pageFault then
          { hart s h with failed := (hart s h).failed ++ [k.promise] } else hart s h) ∧
        t = { v with mem := t.mem, caches := t.caches } ∧
        (k.mbx = false → t.mem = s.mem) ∧
        (k.mbx = true → WroteBytes s t k.mbxa.toNat ((List.range 8).map fun j =>
          BitVec.ofNat 8 (((if r.result = .complete then 1 else 2) * 2 ^ 56 + r.words) / 256 ^ j))))) ∧
  (∀ (s : State) (a : Reg), let v := rx s a
    (nowAt s (coreOf s.cur) < v.toNat → Completes (.swait a) s fun t => Waits s t (.swait v)) ∧
    (v.toNat ≤ nowAt s (coreOf s.cur) → Settled s → Completes (.swait a) s (outcome s v))) ∧
  (∀ (s : State) (h : Nat) (v : Word), (hart s h).wait = some (.swait v) →
    (nowAt s (coreOf h) < v.toNat → Becomes (.swaitCheck h) s s) ∧
    (v.toNat ≤ nowAt s (coreOf h) → Settled { s with cur := h } → Completes (.swaitCheck h) s fun t =>
      ∃ u, ChangedHart { s with cur := h } u h { hart s h with wait := none } ∧ outcome u v t))

/-- In a hart that runs no speculative task. OPEN in task mode raises 0x82, at a misaligned or invalid descriptor 0x87,
with no number free 0x83; otherwise the lowest free number is active and seeding with its counts zero, and stands in
xd and TDOM. ENTER of no active domain, or in task mode, raises 0x82; of an empty one it writes COMMITS to xd; else
the hart is in task mode under the captured ENTER. CLOSE raises 0x82 where the domain is not active, not empty,
entered, or stopped (the model's choice, log 89); else it writes the four results at offset 16 of the descriptor and
no other byte, frees the number and writes COMMITS. TSPAWN raises 0x86, 0x80, 0x82, 0x85 and 0x84 (outside a task also
where no unit and no spill region has room) in the order of R395; otherwise exactly one entry is new, READY, with its
function, arguments and key: (xb, NEXTID), or (xb, pending, creator, child index) with the creator's count up. A held
convoy counts for no wait (log 38). (10_tasks.md R204; 10_tasks.md R205; 10_tasks.md R206; 10_tasks.md R207;
10_tasks.md R208; 19_reference_t_to_z.md R392; 19_reference_t_to_z.md R394; 19_reference_t_to_z.md R395) -/
def Obligations.TaskCreation : Prop :=
  ∀ (s : State) (d a b : Reg) (n : BitVec 2) (v : Nat), Settled s → partOf s s.cur = some v →
    let k := (me s).dom.toNat
    let dm := domain s v k
    let va := (rx s a).toNat
    let f (o m : Nat) : Nat := memNat s (va + o) m
    let valid := f 0 8 % 4096 = 0 ∧ 1024 ≤ f 8 4 ∧ f 8 4 ≤ 16777216 ∧ f 12 4 = 0 ∧ (∀ j, j < 22 → f (42 + j) 1 = 0)
    let entered := ∃ h, (hart s h).tmode = true ∧ partOf s h = some v ∧ ∃ c, (hart s h).enter = some c ∧ c.dom = k
    let fn := rx s a
    let ts := (rx s b).toNat
    let sp : Instr := .tspawn a b n
    let w := leadWord (.tdomainOpen d a)
    let traps (i : Instr) (code : Byte) : Prop := Completes i s fun t => Trapped s t code (leadWord i)
    let made := (tabGet (me s).seeded k).getD 0
    ((me s).tmode = true → traps (.tdomainOpen d a) 0x82 ∧ traps (.tdomainEnter d) 0x82 ∧ traps (.tdomainClose d) 0x82) ∧
    ((me s).tmode = false → va % 64 ≠ 0 → traps (.tdomainOpen d a) 0x87) ∧
    ((me s).tmode = false → va % 64 = 0 → PlainAt s (rx s a) 64 →
      (¬valid → Completes (.tdomainOpen d a) s fun t => UpToCaches s fun s => Trapped s t 0x87 w) ∧
      (valid → (∀ j, j < 16 → (domain s v j).active = true) →
        Completes (.tdomainOpen d a) s fun t => UpToCaches s fun s => Trapped s t 0x83 w) ∧
      (∀ j, valid → j < 16 → (domain s v j).active = false → (∀ i, i < j → (domain s v i).active = true) →
        Completes (.tdomainOpen d a) s fun t =>
          domain t v j = { active := true, seeding := true, desc := rx s a, ptbase := (me s).ptbase
                           qbase := BitVec.ofNat 64 (f 0 8), qcap := f 8 4 } ∧
          (∀ i, i ≠ j → domain t v i = domain s v i) ∧
          t = { s with harts := t.harts, parts := t.parts, caches := t.caches } ∧
          HartsKeptBut s.cur s t ∧ (me t).dom = BitVec.ofNat 4 j ∧ (me t).pc = (me s).pc + 4 ∧
          ∀ r, getX (me t) r = if r = d ∧ d ≠ 0 then BitVec.ofNat 64 j else getX (me s) r)) ∧
    ((me s).tmode = false → dm.active = false → traps (.tdomainEnter d) 0x82) ∧
    ((me s).tmode = false → dm.active = true → entriesOf s v k = [] →
      Completes (.tdomainEnter d) s fun t => WroteHart s t d dm.commits (me s)) ∧
    ((me s).tmode = false → dm.active = true → entriesOf s v k ≠ [] → Completes (.tdomainEnter d) s fun t =>
      ChangedHart s t s.cur { me s with
        tmode := true, task := none
        enter := some { d := d, x2 := getX (me s) 2, x3 := getX (me s) 3, rm := (me s).rm, nbv := (me s).nbv
                        srseed := (me s).srseed, mode := (me s).mode, pc := (me s).pc, dom := k } }) ∧
    ((me s).tmode = false → dm.active = false ∨ dm.stopped = true ∨ entriesOf s v k ≠ [] ∨ entered → traps (.tdomainClose d) 0x82) ∧
    ((me s).tmode = false → dm.active = true → dm.stopped = false → entriesOf s v k = [] → ¬entered → MemoryQueued (me s) →
      Completes (.tdomainClose d) s fun t => Waits s t .queues) ∧
    ((me s).tmode = false → dm.active = true → dm.stopped = false → entriesOf s v k = [] → ¬entered →
      ¬MemoryQueued (me s) → PlainAt s (dm.desc + 16) 26 → Completes (.tdomainClose d) s fun t =>
        WroteBytes s t (dm.desc + 16).toNat ((List.range 26).map fun i => BitVec.ofNat 8 (
          (dm.commits.toNat + 2 ^ 64 * dm.aborts.toNat + 2 ^ 128 * dm.discards.toNat + 2 ^ 192 * dm.flags.toNat) / 256 ^ i)) ∧
        domain t v k = {} ∧ (∀ i, i ≠ k → domain t v i = domain s v i) ∧
        t = { s with mem := t.mem, caches := t.caches, harts := t.harts, parts := t.parts } ∧ HartsKeptBut s.cur s t ∧
        (me t).pc = (me s).pc + 4 ∧ ∀ r, getX (me t) r = if r = d ∧ d ≠ 0 then dm.commits else getX (me s) r) ∧
    (fn.toNat % 4 ≠ 0 → traps sp 0x86) ∧
    (fn.toNat % 4 = 0 → ts = 2 ^ 64 - 1 → traps sp 0x80) ∧
    (fn.toNat % 4 = 0 → ts ≠ 2 ^ 64 - 1 → taskAt s s.cur = none →
      (ts < dm.topTs → traps sp 0x80) ∧
      (dm.topTs ≤ ts → dm.active = false ∨ dm.seeding = false → traps sp 0x82) ∧
      (dm.topTs ≤ ts → dm.active = true → dm.seeding = true →
        (65535 ≤ made → traps sp 0x85) ∧
        (made < 65535 → 2 ^ 32 - 1 < dm.nextId + childrenOf s v k + 1 ∨ NoRoom s (islandOf s.cur) v k → traps sp 0x84) ∧
        (made < 65535 → dm.nextId + childrenOf s v k + 1 ≤ 2 ^ 32 - 1 → inUnit s (islandOf s.cur) < 8192 →
          ¬MemoryQueued (me s) → Completes sp s fun t => ∃ new,
            Spawned s new v k (.ident ts dm.nextId) none fn n.toNat ∧ t.tasks = s.tasks ++ [new] ∧
            domain t v k = { dm with nextId := dm.nextId + 1 } ∧ (∀ i, i ≠ k → domain t v i = domain s v i) ∧
            t = { s with harts := t.harts, parts := t.parts, tasks := t.tasks, nextUid := s.nextUid + 1 } ∧
            HartsKeptBut s.cur s t ∧ me t = { me s with
              pc := (me s).pc + 4, instret := (me s).instret + 1, wait := none, seeded := (me t).seeded } ∧
            tabGet (me t).seeded k = some (made + 1)))) ∧
    (∀ e, fn.toNat % 4 = 0 → ts ≠ 2 ^ 64 - 1 → taskAt s s.cur = some e →
      (ts < e.key.ts → traps sp 0x80) ∧
      (e.key.ts ≤ ts → 65535 ≤ e.children → traps sp 0x85) ∧
      (e.key.ts ≤ ts → e.children < 65535 →
        2 ^ 32 - 1 < (domain s e.part e.dom).nextId + childrenOf s e.part e.dom + 1 → traps sp 0x84) ∧
      (e.key.ts ≤ ts → e.children < 65535 → (domain s e.part e.dom).nextId + childrenOf s e.part e.dom + 1 ≤ 2 ^ 32 - 1 →
        inUnit s (islandOf s.cur) < 8192 → Completes sp s fun t => ∃ new,
          Spawned s new e.part e.dom (.pending ts e.key e.children) (some e.uid) fn n.toNat ∧
          t.tasks = s.tasks.map (fun x => if x.uid = e.uid then { x with children := e.children + 1 } else x) ++ [new] ∧
          t = { s with harts := t.harts, tasks := t.tasks, nextUid := s.nextUid + 1 } ∧ HartsKeptBut s.cur s t ∧
          me t = { me s with pc := (me s).pc + 4, instret := (me s).instret + 1, wait := none }))

/-- A hart whose task is RUNNING and not the earliest holds each instruction that is always irrevocable: the entry is HELD
and nothing else changes; if it is the earliest, the entry is IRREV and the instruction is performed. There a fault of
a class below 0xC0 (shown for JALR to a misaligned target, TSPAWN of a misaligned function and LEND with LC 0) is kept
in the entry with its cause, TVAL and PC, the entry is HELD, a handler beside it has been left, and nothing else
changes, while BREAK is taken at once. TDONE, TIRREV and TABORT raise 0x81 with no task. TDONE waits while a queue of
the hart holds work; then the entry is FINISHED with the hart's flags and the hart is idle, and so when a waiting
TDONE finds the queues empty. TIRREV of an IRREV task goes on. A TSPAWN of such a task without room waits, its task as
before (the model's choice, log 109). TABORT waits while the hart's matrix queue holds work (a reading, log 107);
after it the task and its children are gone, the hart is idle (a reduction or scan in flight completes), memory is as
before, and ABORTS counts a task without children once. That an irrevocable action is held before the checks of its
instruction is log 54, the handler beside a held instruction log 35; no event does anything else (log 14).
(10_tasks.md R214; 10_tasks.md R217; 10_tasks.md R221; 10_tasks.md R222; 10_tasks.md R223; 19_reference_t_to_z.md
R393; 19_reference_t_to_z.md R395; 16_pseudocode.md R339) -/
def Obligations.TaskControl : Prop :=
  (∀ (s : State) (e : TaskEntry) (i : Instr), taskAt s s.cur = some e → e.st = .running → AlwaysIrrevocable i →
    (¬Earliest s e → Completes i s fun t => ChangedTask s t e fun x => { x with st := .held }) ∧
    (Earliest s e → e.fault = none → (∀ x ∈ s.tasks, x.uid = e.uid → x = e) →
      ∀ u, ChangedTask s u e (fun x => { x with st := .irrev, wasIrrev := false, fault := none }) → exec i s = exec i u)) ∧
  (∀ (s : State) (e : TaskEntry) (d a b : Reg) (imm : BitVec 16) (n : BitVec 2) (k : BitVec 12),
    taskAt s s.cur = some e → e.st ≠ .irrev →
    let held (i : Instr) (code : Byte) (tval : Word) : Prop := Completes i s fun t =>
      t = { s with harts := t.harts, tasks := s.tasks.map fun x => if x.uid = e.uid then
        { x with fault := some { cause := code, tval := tval, pc := (me s).pc }, st := .held } else x } ∧
      HartsKeptBut s.cur s t ∧ me t = { me s with aside := none }
    let dest := BitVec.ofInt 64 ((rx s a).toNat + imm.toInt)
    (dest.toNat % 4 ≠ 0 → held (.jalr d a imm) 0x0B dest) ∧
    ((rx s a).toNat % 4 ≠ 0 → held (.tspawn a b n) 0x86 (leadWord (.tspawn a b n))) ∧
    ((me s).lc = 0 → held .lend 0x0E 0x44000000) ∧
    ((rx s a).toNat % 4 = 0 → e.key.ts ≤ (rx s b).toNat → rx s b ≠ BitVec.allOnes 64 → e.children < 65535 → e.children ≠ 64 →
      (domain s e.part e.dom).nextId + childrenOf s e.part e.dom + 1 ≤ 2 ^ 32 - 1 →
      NoRoom s (islandOf s.cur) e.part e.dom → ¬Earliest s e → Completes (.tspawn a b n) s fun t => Waits s t .conflict) ∧
    ((me s).mode ≠ .monitor → Completes (.brk k) s fun t =>
      EnteredSupervisor s t 0xF0 (BitVec.ofNat 64 (0x54000001 + 16 * k.toNat)))) ∧
  (∀ s : State, taskAt s s.cur = none → ∀ i ∈ [Instr.tdone, .tirrev, .tabort],
    Completes i s fun t => Trapped s t 0x81 (leadWord i)) ∧
  (∀ (s : State) (e : TaskEntry), taskAt s s.cur = some e →
    let x := me s
    let empty := x.vq = [] ∧ x.flight = none ∧ x.sdest = none ∧ x.heldConvoy = none ∧ x.mq = [] ∧ x.castMask = none
    let finished (s t : State) : Prop := t = { s with harts := t.harts, tasks := t.tasks } ∧
      t.tasks = s.tasks.map (fun y => if y.uid = e.uid then
        { y with st := .finished, flags := (me s).flags, hart := none } else y) ∧
      HartsKeptBut s.cur s t ∧ Idle (me t) ∧ (me t).x = x.x ∧ (me t).f = x.f ∧ (me t).instret = x.instret + 1
    (¬empty → Completes .tdone s fun t => Waits s t .tdone) ∧
    (empty → Completes .tdone s (finished s)) ∧
    (∀ w : State, s = { w with cur := s.cur } → x.wait = some .tdone →
      (empty → Completes (.taskFinish s.cur) w (finished s)) ∧ (¬empty → Becomes (.taskFinish s.cur) w w)) ∧
    (e.st = .irrev → Completes .tirrev s fun t => WentTo s t (x.pc + 4)) ∧
    (¬(x.mq = [] ∧ x.castMask = none) → Completes .tabort s fun t => Waits s t .mqEmpty) ∧
    (e.hart = some s.cur → x.mq = [] → x.castMask = none → Completes .tabort s fun t =>
      (∀ y ∈ t.tasks, y.uid ≠ e.uid ∧ y.parent ≠ some e.uid) ∧ t.mem = s.mem ∧
      ((me s).flight = none → Idle (me t)) ∧ (me t).mq = [] ∧
      (∀ f, (me s).flight = some f → f.convoy.folds = true → (me t).flight = some f ∧ (me t).task = none ∧ (me t).vq = []) ∧
      ((∀ y ∈ s.tasks, y.parent ≠ some e.uid) → s.tasks.filter (fun y => y.uid == e.uid) = [e] →
        (domain t e.part e.dom).aborts = (domain s e.part e.dom).aborts + 1 ∧
        t.tasks.map (·.uid) = (s.tasks.filter fun y => y.uid != e.uid).map (·.uid))))

/-- taskDispatch, frontierExchange, frontierApply, commitBatch, taskSpill, taskRefill and hartReclaim complete under the
conditions of their rules. A dispatch, at most one a cycle and island and none under a debug freeze, gives the domain
served next its lowest READY entry on the lowest idle hart, with the context of R213. At an exchange due, each active
domain's least key of an unfinished entry is sent, to be applied Lp later; when that comes it is the frontier, and a
HELD task it makes the earliest is IRREV, its fault delivered with the deferred code and ORIG. A batch due, every task
being of its domain: the finished tasks below the frontier that were there at the exchange commit in key order, their
bytes stand in memory and no other byte changes, COMMITS, TOPTS, FLAGS and NEXTID count them, and their entries are
free; where nothing is left SEEDING is set. Above 7,680 entries a spill into an open region of the one domain goes on
down to 7,168, or to the entries that are not READY, the highest keys first; a refill moves the lowest spilled entry
into the unit of an island with an idle hart and no READY entry; where the earliest entry, whose key is the frontier,
is READY and no hart of the domain is idle on any island, a reclaim aborts the latest speculative task on a hart and
holds dispatch back for the earliest (log 92). Where its condition does not hold an event changes nothing (log 14). Lp
is 0 in a partition of one island (log 24), which entries a frontier commits is log 25, and the spill region's bytes
are not written (log 26). (10_tasks.md R207; 10_tasks.md R210; 10_tasks.md R212; 10_tasks.md R213; 10_tasks.md R214;
10_tasks.md R218; 10_tasks.md R219; 10_tasks.md R220; 10_tasks.md R221; 10_tasks.md R224) -/
def Obligations.TaskEvents : Prop :=
  (∀ (s : State) (n v d h : Nat) (e : TaskEntry) (c : EnterCtx),
    ((island s n).dispatchedAt = some s.time ∨ (island s n).freezeBit = true ∨ partOfIsland s n = none ∨
        (partOfIsland s n = some v ∧ nextServed s n v = none) → Becomes (.taskDispatch n) s s) ∧
    ((island s n).dispatchedAt ≠ some s.time → (island s n).freezeBit = false → partOfIsland s n = some v →
      nextServed s n v = some d → readyOn s n v d = some e → (idleOn s n v d).head? = some h → (hart s h).enter = some c →
      e.uid ∈ s.tasks.map (·.uid) → Completes (.taskDispatch n) s fun t =>
        t = { s with harts := t.harts, tasks := t.tasks, parts := t.parts, islands := t.islands } ∧
        t.tasks = s.tasks.map (fun y => if y.uid = e.uid then { y with st := .running, hart := some h } else y) ∧
        (∀ k, k ≠ h → hart t k = hart s k) ∧
        hart t h = { hart s h with
          x := (hart t h).x, f := Vector.replicate 32 0, pc := e.fn, mode := c.mode, flags := 0, rm := c.rm, nbv := c.nbv
          srseed := c.srseed, seedSeq := (hart s h).seedSeq + 1, vl := 0, vlSeq := (hart t h).vlSeq, vstart := 0, lc := 0, loops := [], body := none, badX := 0
          badF := 0, task := some e.uid, wait := none } ∧
        (∀ r : Reg, getX (hart t h) r = if r = 2 then c.x2 else if r = 3 then c.x3 else if r = 10 then e.args.getD 0 0
          else if r = 11 then e.args.getD 1 0 else if r = 12 then e.args.getD 2 0 else 0) ∧
        (domain t v d).seeding = false ∧ (island t n).served = some d ∧ (island t n).dispatchedAt = some s.time)) ∧
  (∀ (s : State) (n v d h : Nat) (e : TaskEntry) (c : EnterCtx), n < 20 → (island s n).dispatchedAt ≠ some s.time →
    (island s n).freezeBit = false → partOfIsland s n = some v → d < 16 →
    (∀ j, j < 16 → ((domain s v j).active = true ↔ j = d)) → (domain s v d).stopped = false → (domain s v d).holdFor = none →
    ReadyAt s n v d e → (∀ y, ReadyAt s n v d y → y = e ∨ e.key.lt y.key = true) → CanTake s v d h → islandOf h = n →
    (∀ k, k < h → islandOf k = n → ¬CanTake s v d k) → (hart s h).enter = some c → Completes (.taskDispatch n) s fun t =>
      (hart t h).task = some e.uid ∧ (hart t h).pc = e.fn ∧ (hart t h).mode = c.mode ∧ (∀ k, k ≠ h → hart t k = hart s k) ∧
      t.tasks = s.tasks.map (fun y => if y.uid = e.uid then { y with st := .running, hart := some h } else y)) ∧
  (∀ (s : State) (v : Nat), let p := part s v
    let act := ∃ d, d < 16 ∧ (domain s v d).active = true
    (s.time < p.nextExchange ∨ ¬act → Becomes (.frontierExchange v) s s) ∧
    (p.nextExchange ≤ s.time → act → Completes (.frontierExchange v) s fun t =>
      t = { s with parts := t.parts } ∧ (part t v).nextExchange = (s.time / 128 + 1) * 128 ∧
      ∀ d, d < 16 → (domain s v d).active = true → ∃ k, (domain t v d).sent = some (s.time + latencyOf s v, k, s.nextUid) ∧
        (k = none ↔ ∀ e ∈ entriesOf s v d, e.st = .finished) ∧
        ∀ x, k = some x → (∃ e ∈ entriesOf s v d, e.st ≠ .finished ∧ e.key = x) ∧
          ∀ e ∈ entriesOf s v d, e.st ≠ .finished → e.key.lt x = false)) ∧
  (∀ (s : State) (v d at_ b : Nat) (k : Option Key), d < 16 → (domain s v d).active = true →
    (∀ j, j < 16 → j ≠ d → (domain s v j).active = false) → (domain s v d).sent = some (at_, k, b) →
    let dm : Domain := { domain s v d with frontier := k, sent := none, applied := b, commitDue := true }
    Completes (.frontierApply v) s (fun t => domain t v d = if at_ ≤ s.time then dm else domain s v d) ∧
    (s.time < at_ → Becomes (.frontierApply v) s s) ∧
    (at_ ≤ s.time → (∀ e ∈ entriesOf s v d, e.st ≠ .held) → Completes (.frontierApply v) s fun t =>
      t = { s with parts := t.parts } ∧ domain t v d = dm ∧ ∀ j, j ≠ d → domain t v j = domain s v j) ∧
    (∀ e h, at_ ≤ s.time → s.tasks = [e] → e.part = v → e.dom = d → e.st = .held → k = some e.key → e.hart = some h →
      (hart s h).preempted = false → Completes (.frontierApply v) s fun t =>
        domain t v d = dm ∧ t.tasks = [{ e with st := .irrev, fault := none }] ∧
        (e.fault = none → ∀ j, hart t j = hart s j) ∧
        ∀ f, e.fault = some f → (∀ j, j ≠ h → hart t j = hart s j) ∧
          hart t h = trapHart (BitVec.ofNat 8 (0x88 + f.cause.toNat / 32)) f.cause f.tval f.pc (hart s h))) ∧
  (∀ (s : State) (v : Nat), Completes (.frontierApply v) s fun t =>
    t = { s with harts := t.harts, tasks := t.tasks, parts := t.parts } ∧
    ∀ d, d < 16 → (domain s v d).active = true → ∀ at_ k b, (domain s v d).sent = some (at_, k, b) → at_ ≤ s.time →
      domain t v d = { domain s v d with frontier := k, sent := none, applied := b, commitDue := true }) ∧
  (∀ (s : State) (v d : Nat), let dm := domain s v d
    let batch := byKey ((entriesOf s v d).filter fun e => decide (e.st = .finished ∧ e.uid < dm.applied ∧
      ∀ k, dm.frontier = some k → e.key.lt k = true))
    (dm.commitDue = true → (∀ e ∈ s.tasks, e.part = v ∧ e.dom = d) → (s.tasks.map (·.uid)).Nodup → s.pendingWrites = [] →
      Memory.wf s.mem = true → Completes (.commitBatch v d) s fun t =>
        t.tasks.map (·.uid) = (s.tasks.filter fun e => !(batch.map (·.uid)).contains e.uid).map (·.uid) ∧
        Memory.wf t.mem = true ∧ (∀ x, memRead t.mem x =
          (((batch.flatMap (·.buf)).reverse.find? fun c => c.1 == x).map (·.2)).getD (memRead s.mem x)) ∧
        (domain t v d).commitDue = false ∧ (domain t v d).commits = dm.commits + BitVec.ofNat 64 batch.length ∧
        (domain t v d).nextId = dm.nextId + (batch.map (·.children)).sum ∧
        (domain t v d).topTs = batch.foldl (fun m e => max m e.key.ts) dm.topTs ∧
        (domain t v d).flags = batch.foldl (fun m e => m ||| e.flags) dm.flags) ∧
    (dm.commitDue = false → Becomes (.commitBatch v d) s s) ∧
    (∀ e k, dm.commitDue = true → s.tasks = [e] → e.part = v → e.dom = d → e.st = .finished → e.uid < dm.applied → e.parent ≠ some e.uid →
      dm.frontier = k → (k = none ∨ ∃ x, k = some x ∧ e.key.ts < x.ts) → s.pendingWrites = [] → s.poison = [] →
      s.lostLines = [] → Memory.wf s.mem = true → dm.active = true → (∀ h, (hart s h).enter = none) →
      Completes (.commitBatch v d) s fun t => t.tasks = [] ∧ Memory.wf t.mem = true ∧
        (∀ x, memRead t.mem x = ((e.buf.reverse.find? fun c => c.1 == x).map (·.2)).getD (memRead s.mem x)) ∧
        domain t v d = { dm with
          commitDue := false, seeding := true, nextId := dm.nextId + e.children, commits := dm.commits + 1
          topTs := max dm.topTs e.key.ts, flags := dm.flags ||| e.flags })) ∧
  (∀ (s : State) (n d : Nat),
    let works := (island s n).freezeBit = false ∧ (hart s (placementHart s n)).freeze = {} ∧ (island s n).recheck ≤ s.time
    (inUnit s n ≤ 7680 ∨ ¬works → Becomes (.taskSpill n) s s) ∧
    (∀ v k, 7680 < inUnit s n → (∀ e ∈ s.tasks, e.part = v ∧ e.dom = k) → (s.tasks.map (·.uid)).Nodup →
      (domain s v k).active = true → (domain s v k).stopped = false → s.tasks.length ≤ (domain s v k).qcap →
      SpillOpen s n v k (domain s v k).qcap → Completes (.taskSpill n) s fun t =>
        t = { s with tasks := t.tasks } ∧ inUnit t n = max 7168 (keptInUnit s n) ∧
        ∀ e ∈ t.tasks, ∃ o ∈ s.tasks, e = { o with spilled := e.spilled } ∧ (o.spilled = true → e.spilled = true) ∧
          (e.spilled = true → o.spilled = false → ReadyAt s n v k o ∧ ∀ y, ReadyAt t n v k y → e.key.lt y.key = false)) ∧
    ((∀ e ∈ s.tasks, e.reads = []) → Completes (.taskSpill n) s fun t =>
      t.tasks.map (fun e => (e.uid, e.key, e.st)) = s.tasks.map (fun e => (e.uid, e.key, e.st)) ∧ inUnit t n ≤ inUnit s n) ∧
    (partOfIsland s n = none → Becomes (.taskRefill n d) s s) ∧
    (∀ v, partOfIsland s n = some v →
      (idleOn s n v d = [] ∨ ¬works ∨ (∃ y, ReadyAt s n v d y) ∨ (domain s v d).stopped = true ∨ 8192 ≤ inUnit s n ∨
        (∀ e ∈ entriesOf s v d, e.spilled = false) → Becomes (.taskRefill n d) s s) ∧
      (∀ e h, CanTake s v d h → islandOf h = n → (∀ y, ¬ReadyAt s n v d y) → (domain s v d).stopped = false →
        inUnit s n < 8192 → e ∈ entriesOf s v d → e.spilled = true →
        (∀ y ∈ entriesOf s v d, y.spilled = true → y = e ∨ e.key.lt y.key = true) → SpillOpen s n v d 1 →
        Becomes (.taskRefill n d) s { s with tasks := s.tasks.map fun y =>
          if y.uid = e.uid then { y with spilled := false, island := n } else y }))) ∧
  (∀ (s : State) (v d : Nat),
    let idle := ∃ h, CanTake s v d h
    let un := byKey ((entriesOf s v d).filter fun e => decide (e.st ≠ .finished))
    (un = [] → Becomes (.hartReclaim v d) s s) ∧
    (∀ e, un.head? = some e → idle ∨ (domain s v d).stopped = true ∨ e.st ≠ .ready ∨ ¬Earliest s e →
      Becomes (.hartReclaim v d) s s) ∧
    (∀ e x h, un.head? = some e → e.st = .ready → Earliest s e → ¬idle → (domain s v d).stopped = false →
      (un.filter fun y => decide (y.st ≠ .ready ∧ y.st ≠ .irrev ∧ y.hart ≠ none)).getLast? = some x → x.hart = some h →
      Completes (.hartReclaim v d) s fun t => t.mem = s.mem ∧ (hart t h).task = none ∧
        (domain t v d).holdFor = some e.uid ∧
        ∀ y ∈ t.tasks, y.uid = x.uid → y.st = .ready ∧ y.hart = none ∧ y.buf = [] ∧ y.rows = []))

/-- packetParse, roundBoundary and gangPreemptSave complete so, with no task and no kept write in the way, and change
nothing while the steward's hart is frozen or gated. The hart of a steward core that runs the placement code, and the
mode of its accesses, are the model's choice (log 29). A look at a mapped slot's block: a malformed block stops the
slot with a record, and one outside the partition's grant freezes that hart for 0xD0 as well; one that is disabled or
empty clears the notify; otherwise one packet, read without translation from the partition's HBM, is parsed, RDIDX
counts it, and it is rejected with the first code of R233 whose condition holds (bits above 47 as log 30 reads them):
CNTREJECT counts it, the gang table is as before, and where their places can be written the completion record holds
STATUS 0x01 and that CODE, with CPLIDX counting it, and the rejection record that REASON; or it stands in the lowest
free entry of the gang table, waiting. A round boundary before its time changes nothing; with nothing to schedule it
sets the next boundary and takes a waiting SCHEDCFG; a waiting gang of one hart on an idle island is started on its
first core with the registers of R229 and R252, and counted in CNTPLACE (log 31). A pre-emption whose harts have not
all stopped changes nothing; once they have, and the save area is open without translation, the gang waits as saved
with its slots empty, each hart's x registers and PC at their places in its region (shown with no log ring, empty
inboxes and no bad data); with any save area the gang is saved, or it ends, or the save waits. No event does anything
else (log 14). (11_scheduling.md R228; 11_scheduling.md R229; 11_scheduling.md R230; 11_scheduling.md R233;
11_scheduling.md R234; 11_scheduling.md R236; 11_scheduling.md R237; 11_scheduling.md R238; 11_scheduling.md R239;
11_scheduling.md R247) -/
def Obligations.StewardEvents : Prop :=
  (∀ (s : State) (n q : Nat), Quiet s → Memory.wf s.mem = true → n < 20 → let x := slot s n q
    let i := island s n
    (x.mapped = false ∨ x.look = false ∨ ¬Works s n → Becomes (.packetParse n q) s s) ∧
    (x.mapped = true → x.look = true → Works s n →
      (readQcb s n x.qcbpa.toNat = none → Completes (.packetParse n q) s fun t => ∃ v u, BlockFaults s v n x.qcbpa.toNat ∧
        ChangedSlot v u n q { x with err := true, mapped := false, pend := false, look := false } ∧
        t = decisionRecord u n { kind := 5, reason := 0x0B, slot := q }) ∧
      (∀ c, readQcb s n x.qcbpa.toNat = some c →
        (c.enabled = false ∨ c.rdIdx = c.wrIdx → Completes (.packetParse n q) s fun t =>
          ChangedSlot s t n q { x with look := false, pend := false }) ∧
        (let at_ := (c.ringBase + BitVec.ofNat 64 (64 * (c.rdIdx % 2 ^ c.ringLog2))).toNat
          let bs := bytesAt s at_ 64
          c.enabled = true → c.rdIdx ≠ c.wrIdx → Reaches s n c.ptroot at_ 64 →
          let room := ∃ e, e < 256 ∧ tabGet i.gangs e = none
          let cpl := (c.cplBase + BitVec.ofNat 64 (32 * (c.cplIdx % 2 ^ c.cplLog2))).toNat
          let log := i.logBase.toNat + 32 * (i.logHead.toNat % i.logSize.toNat)
          let block := x.qcbpa.toNat
          (∀ code, packetFault bs c.maxPrio room code → Completes (.packetParse n q) s fun t =>
            memNat t (block + 24) 8 = c.rdIdx + 1 ∧
            (island t n).gangs = i.gangs ∧ (island t n).cntReject = i.cntReject + 1 ∧
            (i.completions = [] → Reaches s n c.ptroot cpl 32 → Apart block 64 cpl 32 → Apart block 64 log 32 → Apart cpl 32 log 32 →
              bytesAt t cpl 32 = bytesAt s (at_ + 48) 8 ++ [1, BitVec.ofNat 8 code, 0xFF, 0xFF, 0, 0, 0, 0]
                ++ (List.range 8).map (fun j => BitVec.ofNat 8 (timeOf s n / 256 ^ j)) ++ List.replicate 8 0 ∧
              memNat t (block + 56) 8 = (c.cplIdx + 1) % 2 ^ 64 ∧
              (i.logSize ≠ 0 → i.logHead - i.logTail ≠ i.logSize → answers s log = true →
                (∀ v, partOfIsland s n = some v → granted s v log = true) → (island t n).logHead = i.logHead + 1 ∧
                memNat t (log + 8) 1 = 5 ∧ memNat t (log + 11) 1 = code ∧ memNat t (log + 12) 2 = q % 2 ^ 16))) ∧
          ((¬∃ code, packetFault bs c.maxPrio room code) → ∀ e, e < 256 → tabGet i.gangs e = none → (∀ j, j < e → tabGet i.gangs j ≠ none) →
            Completes (.packetParse n q) s fun t => ∃ g, tabGet (island t n).gangs e = some g ∧
              (∀ j, j ≠ e → tabGet (island t n).gangs j = tabGet i.gangs j) ∧
              (∀ k, hart t k = hart s k) ∧ memNat t (x.qcbpa.toNat + 24) 8 = c.rdIdx + 1 ∧
              (∀ a, a < x.qcbpa.toNat + 24 ∨ x.qcbpa.toNat + 32 ≤ a → memRead t.mem a = memRead s.mem a) ∧
              g.phase = .waiting ∧ g.slot = q ∧ g.qcb = x.qcbpa.toNat ∧ g.ptroot = c.ptroot ∧ g.harts = [] ∧ g.saved = false ∧
              g.packet = { level := byteField bs 1 1, size := byteField bs 2 1, lgroups := byteField bs 3 1
                           hpc := byteField bs 4 1, tileharts := byteField bs 5 1, srows := byteField bs 8 2
                           brows := byteField bs 10 2, pc := BitVec.ofNat 64 (byteField bs 16 8)
                           arg0 := BitVec.ofNat 64 (byteField bs 24 8), arg1 := BitVec.ofNat 64 (byteField bs 32 8)
                           save := BitVec.ofNat 64 (byteField bs 40 8), cookie := BitVec.ofNat 64 (byteField bs 48 8)
                           stack := BitVec.ofNat 64 (byteField bs 56 8) }))))) ∧
  (∀ (s : State) (n : Nat) (ranking : List Nat), Quiet s → n < 20 → let i := island s n
    let now := s.time + i.timeAhead.toNat
    let cfg := i.newCfg.getD (i.quantum, i.age, i.roundLog2)
    let next := (now / 2 ^ cfg.2.2.toNat + 1) * 2 ^ cfg.2.2.toNat
    let still := Works s n ∧ i.codeSeq = s.placements ∧ (∀ c, (Machine.core s c).clockLowered = false) ∧
      ∀ h, (hart s h).wait = none
    (now < i.nextRound ∨ ¬Works s n → ∀ hot cool, Becomes (.roundBoundary n ranking hot cool) s s) ∧
    (i.nextRound ≤ now → still → i.gangs = [] → Completes (.roundBoundary n ranking [] []) s fun t => ChangedIsland s t n
      { i with quantum := cfg.1, age := cfg.2.1, roundLog2 := cfg.2.2, newCfg := none, nextRound := next, blocked := []
               head := none }) ∧
    (∀ e g, i.nextRound ≤ now → still → i.gangs = [(e, g)] → g.phase = .waiting → g.reserved = [] →
      g.saved = false → g.packet.size = 1 → g.packet.hpc = 1 → g.packet.lgroups = 0 → g.packet.tileharts = 0 →
      (∀ h, h / 256 = n → hart s h = {}) → (∀ c, c / 64 = n → Machine.core s c = {}) → g.packet.srows = 0 →
      let at_ := (g.packet.save + 0x3FFF0).toNat
      Reaches s n g.ptroot at_ 16 →
      Completes (.roundBoundary n ranking [] []) s fun t => let y := hart t (256 * n)
        y.started = true ∧ y.mode = .user ∧ y.pc = g.packet.pc ∧ y.nbv = 3 ∧ y.flags = 0 ∧ y.rm = 0 ∧ y.vs = 0 ∧ y.ms = 0 ∧
        y.prio = BitVec.ofNat 2 g.packet.level ∧ y.f = Vector.replicate 32 0 ∧
        y.tvec.toNat / 4 = memNat s at_ 8 / 4 ∧ y.scratch = BitVec.ofNat 64 (memNat s (at_ + 8) 8) ∧
        (∀ r : Reg, getX y r = if r = 2 then g.packet.stack else if r = 10 then g.packet.arg0
          else if r = 11 then g.packet.arg1 else 0) ∧
        (∃ g1, tabGet (island t n).gangs e = some g1 ∧ g1.phase = .running ∧ g1.harts = [(0, 256 * n)]) ∧
        (island t n).cntPlace = i.cntPlace + 1 ∧ ∀ h, h ≠ 256 * n → hart t h = hart s h)) ∧
  (∀ (s : State) (n e : Nat), Quiet s → n < 20 →
    (tabGet (island s n).gangs e = none → Becomes (.gangPreemptSave n e) s s) ∧
    (∀ g, tabGet (island s n).gangs e = some g →
      (g.phase ≠ .stopping ∨ ¬Works s n ∨ (∃ p ∈ g.harts, (hart s p.2).preempted = false) →
        Becomes (.gangPreemptSave n e) s s) ∧
      (g.phase = .stopping → Works s n → (∀ p ∈ g.harts, (hart s p.2).preempted = true) →
        (∀ c, (Machine.core s c).engine.queue = [] ∧ (Machine.core s c).engine.running = none ∧
          (Machine.core s c).engine.violating = none ∧ (Machine.core s c).deliveries = []) →
        let saved (t : State) : Prop := ∃ g1, tabGet (island t n).gangs e = some g1 ∧ g1.phase = .waiting ∧
          g1.saved = true ∧ g1.harts = [] ∧ g1.preempts = g.preempts + 1
        let unloads (t : State) : Prop := ∀ p ∈ g.harts, (hart t p.2).started = false
        Completes (.gangPreemptSave n e) s (fun t => t = { s with islands := t.islands } ∨
          (unloads t ∧ (tabGet (island t n).gangs e = none ∨ saved t))) ∧
        (Memory.wf s.mem = true → Reaches s n g.ptroot g.packet.save.toNat 0x1C000000 → (island s n).logSize = 0 →
          (g.harts.map (·.1)).Nodup → g.packet.srows ≤ 4096 → g.packet.brows ≤ 4096 →
          (∀ p ∈ g.harts, p.1 < 256 ∧ (hart s p.2).inbox0 = [] ∧ (hart s p.2).inbox1 = [] ∧ (hart s p.2).badX = 0 ∧
            (hart s p.2).badF = 0 ∧ (hart s p.2).badV = 0 ∧ (Machine.core s (coreOf p.2)).badTiles = [] ∧
            (Machine.core s (coreOf p.2)).badSides = []) →
          Completes (.gangPreemptSave n e) s fun t => unloads t ∧ saved t ∧ ∀ p ∈ g.harts,
            let region := g.packet.save.toNat + 0x40000 * p.1
            memNat t (region + 0x200) 8 = (hart s p.2).pc.toNat ∧
            ∀ r : Reg, memNat t (region + 8 * r.toNat) 8 = ((hart s p.2).x[r.toNat]).toNat))))

/-- preemptionTake, monitorCodeTake, lateVectorFault, notAnInstruction and instructionFetchFault complete so. A
pre-emption request of a running hart with no late fault, no stream command of its slot and not leaving its gang, once
its queues are drained, stops it at its boundary with a wait ended and its loops left; before that it changes nothing,
but that a KPOPC or KFIRST whose register is still to be written stands to run again, not counted meanwhile (log 84).
The monitor hart, running and handling no containment code (nor a trap its handler took), takes the oldest code into
monitor mode with TVAL 0 (log 48) and its own PC saved (over another monitor trap's registers: the model's choice, log
90), and that code leaves the queue; otherwise nothing changes (log 14). A late vector fault sets VSTART, VEPC and
LATE, puts SRSEED back to what the held convoy drew from, and takes its cause with its TVAL and EPC at the hart's next
instruction. In a hart that runs no speculative task, words that are no instruction and of no vector major raise their
cause with the leading word as TVAL, and a failed fetch of a class below 0xC0 raises its cause with the address.
(08_translation.md R174; 08_translation.md R179; 12_traps.md R249; 12_traps.md R251; 12_traps.md R254; 12_traps.md
R257; 14_encoding.md R294; 01_machine.md R31; 10_tasks.md R223; 03_numbers.md R76) -/
def Obligations.BoundaryEvents : Prop :=
  (∀ (s : State) (h : Nat), let x := hart s h
    let commands := ∃ k ∈ unfinished (Machine.core s (coreOf h)).engine, k.hart = h
    let due := Runs s h ∧ x.preemptReq = true ∧ x.late = false ∧ x.lateFault = none ∧ ¬commands ∧ isLeaving s h = false
    let empty := x.vq = [] ∧ x.flight = none ∧ x.sdest = none ∧ x.mq = [] ∧ x.castMask = none ∧ x.wait ≠ some .dest
    let counts (m : VMember) : Prop := (∃ d a, m.act = .kpopc d a) ∨ ∃ d a, m.act = .kfirst d a
    let redo := (∃ c ∈ x.vq, ∃ m ∈ c.members, counts m) ∨ (∃ f, x.flight = some f ∧ ∃ m ∈ f.convoy.members, counts m) ∨
      ∃ d, x.sdest = some d ∧ d.redo = true
    (¬due ∨ (¬empty ∧ ¬redo) → Becomes (.preemptionTake h) s s) ∧
    (due → redo → Completes (.preemptionTake h) s fun t => (∀ k, k ≠ h → hart t k = hart s k) ∧
      (hart t h).pc = x.pc - 4 ∧ (hart t h).instret = x.instret - 1 ∧ (hart t h).wait = none ∧ (hart t h).x = x.x ∧
      (∀ d, (hart t h).sdest = some d → d.redo = false)) ∧
    (due → empty → Completes (.preemptionTake h) s fun t => ChangedHart s t h { x with
        preempted := true, wait := none, loops := [], body := none
        enter := if x.task = none then none else x.enter
        tmode := if x.enter ≠ none ∧ x.task = none then false else x.tmode })) ∧
  (∀ s : State, let m := monitorHart s
    let x := hart s m
    let ready := x.started = true ∧ (island s (islandOf m)).freezeBit = false ∧ x.wait ≠ some .dest ∧
      ∀ c ∈ x.mon.traps, ¬(0xD0 ≤ c.toNat ∧ c.toNat ≤ 0xDF)
    (s.codes = [] ∨ ¬ready → Becomes .monitorCodeTake s s) ∧
    (∀ c rest, s.codes = c :: rest → ready → 0xD0 ≤ c.toNat → c.toNat ≤ 0xDF → x.enter = none →
      Completes .monitorCodeTake s fun t => ∃ u, u = { s with codes := rest } ∧ ChangedHart u t m (monitorEntry x c 0))) ∧
  (∀ (s : State) (h : Nat), let x := hart s h
    (x.lateFault = none → Becomes (.lateVectorFault h) s s) ∧
    (∀ f c, x.lateFault = some f → x.heldConvoy = some c → Settled { s with cur := h } → x.enter = none →
      x.mode ≠ .monitor → f.cause.toNat < 0xD0 → f.cause.toNat ≠ 6 → f.cause.toNat ≠ 7 →
      Completes (.lateVectorFault h) s fun t => ChangedHart s t h
        (supervisorEntry { x with
          vstart := BitVec.ofNat 14 f.start, vepc := f.pc, late := true, lateFault := none
          srseed := (drewFrom c).getD x.srseed, heldAdvance := (drewFrom c).elim 0 (x.srseed - ·) } f.cause f.tval x.pc))) ∧
  (∀ (s : State) (w : Word32) (cause : Byte) (addr : Word), Settled s →
    (w.toNat / 2 ^ 26 < 56 → Completes (.notAnInstruction w cause) s fun t => Trapped s t cause (w.setWidth 64)) ∧
    (cause.toNat < 0xC0 → Completes (.instructionFetchFault cause addr) s fun t => Trapped s t cause addr))

/-- For every vector instruction alone in its convoy (memberOf names them: the 60 of 64 bits with CV = 0, KAND, KOR, KXOR,
KNOT, KPOPC, KFIRST, KSET, VSAVE and VREST), in a hart that runs no speculative task. It waits for the mask of an
MCAST in a register it uses, takes 0xC6 for a bad register it reads, and waits while the queue has no room or a convoy
is exposed. Else the first failing check of R399 raises its cause, TVAL the leading word. With all passed, one that
accesses no memory enters the queue: its convoy stands last with what it captured, SRSEED advances if it draws, VSTART
is 0, the PC and counts advance, the hart waits if it writes a scalar, and nothing else changes (of VREST also
caches). So does one over plain memory (PlainAt), its pages pinned; where a queued instruction is still to write the
index or mask its probe needs it first waits for that one, VREST for every older convoy and for a queued MSTC or MSAVE
to the page of its header, and behind a FENCE.VV each waits for the accesses older than it. VSAVE, VREST and SETWM
check alignment (0x46, 0x26), VREST its header (0x69). An element of VLDFF beyond HBM shortens VL, with the captured
VL kept, or raises 0x45 where no active element stands before it. SETWM enters the queue and keeps VSTART. The model's
choices: the 64 entries count what has not drained (log 64), INSTRET counts at queue entry (log 84), and a held convoy
keeps others waiting (log 102). (02_state.md R39; 05_vectors.md R110; 05_vectors.md R115; 08_translation.md R177;
08_translation.md R178; 19_reference_t_to_z.md R399; 19_reference_t_to_z.md R400; 19_reference_t_to_z.md R401;
19_reference_t_to_z.md R405; 19_reference_t_to_z.md R406; 09_ordering.md R199) -/
def Obligations.VectorQueue : Prop :=
  ∀ (s : State) (i : Instr), i.wf = true → Settled s →
    let h := me s
    let roomy := queuedVector h + 1 ≤ 64 ∧ Unexposed s
    let flow (act : Prop) : Prop :=
      (64 < queuedVector h + 1 → Completes i s fun t => Waits s t .vqRoom) ∧
      (queuedVector h + 1 ≤ 64 → ¬Unexposed s → Completes i s fun t => Waits s t .exposed) ∧ (roomy → act)
    let entry (act : Prop) : Prop :=
      (castHolds h i = true → Completes i s fun t => Waits s t .castMask) ∧
      (castHolds h i = false → consumesBad h i = true → Completes i s fun t => TookBad s t) ∧
      (castHolds h i = false → consumesBad h i = false → flow act)
    (∀ hd a, memberOf h i = some (hd, a) → hd.cv = false →
      let m : VMember := ⟨a, hd.km, captured s⟩
      let seed := if drawsSeed h i = true then h.srseed + h.vl.setWidth 64 else h.srseed
      let queued (limit : Option Nat) (bs : List (Nat × Word × Nat)) : Prop := Completes i s fun t =>
        QueuedConvoy s t [m] i.length seed 0 limit bs
      entry ((∀ c, Fails (vectorChecks h i a) c → Completes i s fun t => Trapped s t c (leadWord i)) ∧
        (Passes (vectorChecks h i a) →
          (vectorBytes h i = none → queued none []) ∧
          (∀ bs, vectorBytes h i = some bs →
            (∀ x, i = .vsave x ∨ i = .vrest x → (rx s x).toNat % 64 ≠ 0 →
              Completes i s fun t => Trapped s t 0x46 (rx s x)) ∧
            ((∀ x, i = .vsave x ∨ i = .vrest x → (rx s x).toNat % 64 = 0) →
              ((∃ n, ProbeAwaits h i n) → Completes i s fun t => ∃ n, ProbeAwaits h i n ∧ Waits s t (.older n)) ∧
              ((∀ n, ¬ProbeAwaits h i n) → FencedOff h → Completes i s fun t => Waits s t .vvFence) ∧
              ((∀ n, ¬ProbeAwaits h i n) → ¬FencedOff h →
                ((∀ p ∈ bs, PlainAt s p.2.1 p.2.2) →
                  let header (x : Reg) : Prop := memNat s (rx s x).toNat 2 = 3 ∧
                    memNat s ((rx s x).toNat + 2) 2 = h.lanes.toNat * 32768 / (8 * 2 ^ h.regs.toNat) / 64 ∧
                    memNat s ((rx s x).toNat + 4) 1 = h.regs.toNat
                  ((∀ x, i ≠ .vrest x) → queued none bs) ∧
                  (∀ x, i = .vrest x → let ahead := StoreAhead h (rx s x).toNat 64
                    ((∃ n, ahead n) → Completes i s fun t => ∃ n, ahead n ∧ Waits s t (.older n)) ∧
                    ((∀ n, ¬ahead n) → header x → Completes i s fun t => UpToCaches s fun s =>
                      QueuedConvoy s t [m] i.length seed 0 none bs) ∧
                    ((∀ n, ¬ahead n) → ¬header x → Completes i s fun t => Trapped s t 0x69 (leadWord i)))) ∧
                (∀ hd d x ty pre e va n post, i = .vldff hd d x ty → bs = pre ++ (e, va, n) :: post →
                  (∀ p ∈ pre, PlainAt s p.2.1 p.2.2) → h.mode = .monitor → h.task = none → s.tasks = [] →
                  (island s (islandOf s.cur)).triggers = [] → 0xEE6B280000 ≤ va.toNat →
                  va.toNat + n ≤ 0x10000000000 →
                  (pre = [] → Completes i s fun t => Trapped s t 0x45 va) ∧ (pre ≠ [] → queued (some e) pre)))))))) ∧
    (∀ a b sc, i = .setwm a b sc →
      entry (((rx s a).toNat % 8 ≠ 0 → Completes i s fun t => Trapped s t 0x26 (rx s a)) ∧
        ((rx s a).toNat % 8 = 0 → FencedOff h → Completes i s fun t => Waits s t .vvFence) ∧
        ((rx s a).toNat % 8 = 0 → ¬FencedOff h → PlainAt s (rx s a) 8 → Completes i s fun t =>
          QueuedConvoy s t [⟨.setwm (rx s a) (rx s b) sc, 0, captured s⟩] 4 h.srseed h.vstart none [(0, rx s a, 8)])))

/-- In a hart that runs no speculative task, holds no captured loop body and fetches untranslated, with no trigger set on
its island: a 64-bit vector instruction with CV = 1 whose next word has a major below 56 raises 0x02 with that word in
TVAL (rule 2). Followed by a decodable 64-bit vector instruction with CV = 0, it raises 0x02 with that one's leading
word where two members may not stand together (rules 3 to 7); else, with room, no MCAST mask to come, no bad register
and neither accessing memory, the first failing check of the first member, then of the second, raises its cause with
the leading word of the member; and with every check passed both enter the queue as one convoy, the second with the
seed the first left, and the hart goes on behind both. Nothing else changes but copies in the L1I and in caches. The
model's choices: a member's leading word as TVAL (log 44), the order of the checks of a convoy (log 74), one VBPLD or
VBPST alone is legal (log 45), the entries of the queue (log 64), and INSTRET at queue entry (log 84). (05_vectors.md
R110; 05_vectors.md R112; 05_vectors.md R114; 14_encoding.md R295; 02_state.md R39) -/
def Obligations.ConvoyPairs : Prop :=
  ∀ (s : State) (i : Instr) (hd : VHdr) (a : VAct), Settled s → memberOf (me s) i = some (hd, a) → hd.cv = true →
    let h := me s
    let q := h.pc + BitVec.ofNat 64 i.length
    FetchesPlain s q →
    (wordOf s q 0 / 2 ^ 26 < 56 → Completes i s fun t => UpToFetch s (Trapped · t 0x02 (BitVec.ofNat 64 (wordOf s q 0)))) ∧
    (∀ j hd2 b, 56 ≤ wordOf s q 0 / 2 ^ 26 → decodeWords (wordsAt s q) = .ok j → memberOf h j = some (hd2, b) →
      hd2.cv = false →
      let k := hd2.km
      let clash := Clash a b ∨ (b.isCross = true ∧ k.toNat ∈ a.writesK)
      (clash → Completes i s fun t => UpToFetch s (Trapped · t 0x02 (leadWord j))) ∧
      (¬clash → h.castMask = none → h.badX = 0 → h.badF = 0 → a.isMem = false → b.isMem = false → queuedVector h + 2 ≤ 64 → Unexposed s →
        (∀ c, Fails (vectorChecks h i a) c → Completes i s fun t => UpToFetch s (Trapped · t c (leadWord i))) ∧
        (Passes (vectorChecks h i a) → ∀ c, Fails (vectorChecks h j b) c →
          Completes i s fun t => UpToFetch s (Trapped · t c (leadWord j))) ∧
        (Passes (vectorChecks h i a) → Passes (vectorChecks h j b) →
          let next (x : Instr) (v : Word) : Word := if drawsSeed h x = true then v + h.vl.setWidth 64 else v
          let cap := captured s
          Completes i s fun t => UpToFetch s fun s =>
            QueuedConvoy s t [⟨a, hd.km, cap⟩, ⟨b, k, { cap with seed := next i h.srseed }⟩]
              (i.length + 4 * (wordsAt s q).length) (next j (next i h.srseed)) 0 none [])))

/-- In a hart that runs no speculative task: the first failing check of a matrix instruction (0x62 with MS off, 0x63 on a
steward hart, and those of its entry) raises its cause, TVAL the leading word. It then waits while the queue holds 32
or a convoy is exposed, and one that accesses memory for the accesses older than a FENCE.VV before it. MTMAP, MSAVE
and MREST raise 0x46 at a misaligned address; MREST waits for older matrix instructions, and both MTMAP and MREST for
a queued store to a page they read before they enter the queue; MTMAP raises 0x6C for an illegal map, MREST 0x6E for
an illegal image. MLDW takes its map from the last older MTMAP or MREST queued. Over plain memory (PlainAt), or with
none to access, it enters the queue: it stands last with its operands and what it captured, its pages pinned, the PC
and counts advance, nothing else changes (but MREST has written TSHAPE, SHORT and MS at once; after MTMAP and MREST
also caches). A row of MLDAFF beyond HBM raises 0x45 if it is the first, else shortens M and sets SHORT. MSHAPE grants
the shape of R127 at once; MWAIT goes on when the queue is empty and no MCAST is in flight, and else waits. The
model's choices: reserved bits of an image (log 40), the entries that count (log 64), INSTRET at queue entry (log 84),
the 64 bytes of MTMAP (log 88), the engine's time (log 9), a held convoy (logs 38 and 102); no event does anything
else (log 14). (06_matrix.md R127; 06_matrix.md R130; 06_matrix.md R131; 06_matrix.md R137; 06_matrix.md R139;
06_matrix.md R140; 18_reference_l_to_s.md R376; 18_reference_l_to_s.md R377; 18_reference_l_to_s.md R378;
18_reference_l_to_s.md R379; 18_reference_l_to_s.md R380; 18_reference_l_to_s.md R381) -/
def Obligations.MatrixQueue : Prop :=
  ∀ (s : State) (i : Instr), i.wf = true → Settled s →
    let h := me s
    let c := Machine.core s (coreOf s.cur)
    let w := leadWord i
    let own : Prop × Byte := if 5120 ≤ s.cur then (True, 0x63) else (h.ms = 0, 0x62)
    let flow (checks : List (Prop × Byte)) (mem : Bool) (act : Prop) : Prop :=
      (∀ code, Fails checks code → Completes i s fun t => Trapped s t code w) ∧
      (Passes checks → (32 ≤ h.mq.length → Completes i s fun t => Waits s t .mqRoom) ∧
        (h.mq.length < 32 → ¬Unexposed s → Completes i s fun t => Waits s t .exposed) ∧
        (h.mq.length < 32 → Unexposed s → mem = true → FencedOff h → Completes i s fun t => Waits s t .vvFence) ∧
        (h.mq.length < 32 → Unexposed s → mem = false ∨ ¬FencedOff h → act))
    (∀ checks bs a, matrixForm s i = some (checks, bs, a) →
      flow checks a.isMem ((∀ p ∈ bs, PlainAt s p.2.1 p.2.2) → Completes i s fun t => QueuedMatrix s t a bs)) ∧
    (∀ a n act off len, imageForm s i = some (a, n, act, off, len) →
      let va := rx s a
      let legal (i : Instr) : Prop :=
        match i with
        | .mtmap _ _ => LegalMap (memNat s va.toNat 64)
        | .mrest _ => LegalImage s va.toNat
        | _ => True
      let code : Byte := match i with
        | .mtmap _ _ => 0x6C
        | _ => 0x6E
      flow [own] true ((va.toNat % 64 ≠ 0 → Completes i s fun t => Trapped s t 0x46 va) ∧
        (va.toNat % 64 = 0 → restWaits h i → Completes i s fun t => Waits s t .mqEmpty) ∧
        (va.toNat % 64 = 0 → ¬restWaits h i → PlainAt s va n → (∃ k, entryAhead s k i) →
          Completes i s fun t => ∃ k, entryAhead s k i ∧ Waits s t (.older k)) ∧
        (va.toNat % 64 = 0 → ¬restWaits h i → PlainAt s va n → (∀ k, ¬entryAhead s k i) →
          ((∀ x, i ≠ .mrest x) → legal i → Completes i s fun t => UpToCaches s fun s => QueuedMatrix s t act [(0, va, n)]) ∧
          (∀ x, i = .mrest x → legal i → Completes i s fun t => UpToCaches s fun s => ∃ u y,
            ChangedCore s u (coreOf s.cur) { c with
              kb := BitVec.ofNat 8 (memNat s (va.toNat + 10) 1), n := BitVec.ofNat 6 (memNat s (va.toNat + 9) 1)
              m := BitVec.ofNat 6 (memNat s (va.toNat + 8) 1), short := decide (memNat s (va.toNat + 16) 1 = 1)
              shapeSeq := c.shapeSeq + 1 } ∧
            ChangedHart u y s.cur { h with ms := 2 } ∧ OnlyActing y t ∧
            ∃ e, me t = { me y with mq := h.mq ++ [e], queued := h.queued + 1, pc := h.pc + 4
                                    instret := h.instret + 1, wait := none } ∧
              e.act = act ∧ e.cap = captured s ∧ e.pc = h.pc ∧ e.seq = h.queued ∧ e.after = h.vvFence ∧
              PinnedThere e.pins [(0, va + BitVec.ofNat 64 off, len)]) ∧
          (¬legal i → Completes i s fun t => UpToCaches s fun s => Trapped s t code w)))) ∧
    (∀ d a b f, i = .mldaff d a b → Passes [own] → h.mq.length < 32 → Unexposed s → ¬FencedOff h → c.kb ≠ 0 →
      let row (k : Nat) : Word := rx s a + BitVec.ofNat 64 k * rx s b
      f < c.m.toNat → (∀ k, k < f → PlainAt s (row k) c.kb.toNat) → h.mode = .monitor → h.task = none → s.tasks = [] →
      (island s (islandOf s.cur)).triggers = [] → 0xEE6B280000 ≤ (row f).toNat →
      (row f).toNat + c.kb.toNat ≤ 0x10000000000 →
      (f = 0 → Completes i s fun t => ProbeTrap s t 0x45 (row 0)) ∧
      (f ≠ 0 → Completes i s fun t => ∃ u x, QueuedMatrix s u (.ldaFF d (rx s a) (rx s b) f)
          ((List.range f).map fun k => (k, row k, c.kb.toNat)) ∧
        ChangedCore u x (coreOf s.cur) { c with m := BitVec.ofNat 6 f, short := true } ∧
        ChangedHart x t s.cur { me u with ms := 2 })) ∧
    (∀ d a b, i = .mshape d a b →
      let v (r : Reg) : Nat := (rx s r).toNat
      let none_ := v d = 0 ∨ v a = 0 ∨ v b = 0
      let kb := if none_ then 0 else min 128 (v d)
      let m := if none_ then 0 else min 32 (v a)
      let n := if none_ then 0 else min 32 (v b)
      (∀ code, Fails [own] code → Completes i s fun t => Trapped s t code w) ∧
      (Passes [own] → Completes i s fun t => ∃ u,
        ChangedCore s u (coreOf s.cur) { c with
          kb := BitVec.ofNat 8 kb, n := BitVec.ofNat 6 n, m := BitVec.ofNat 6 m, shapeSeq := c.shapeSeq + 1 } ∧
        WroteHart u t d (BitVec.ofNat 64 (kb * 65536 + n * 256 + m)) { h with ms := 2 })) ∧
    (i = .mwait →
      (∀ code, Fails [own] code → Completes i s fun t => Trapped s t code w) ∧
      (Passes [own] → h.mq = [] → h.castMask = none → Completes i s fun t => WentTo s t (h.pc + 4)) ∧
      (Passes [own] → h.mq ≠ [] ∨ h.castMask ≠ none → Completes i s fun t => Waits s t .mwait)) ∧
    (∀ n, (hart s n).wait = some .mwait →
      ((hart s n).mq = [] ∧ (hart s n).castMask = none → Completes (.mwaitComplete n) s fun t => ChangedHart s t n
        { hart s n with pc := (hart s n).pc + 4, instret := (hart s n).instret + 1, wait := none }) ∧
      (¬((hart s n).mq = [] ∧ (hart s n).castMask = none) → Becomes (.mwaitComplete n) s s))

/-- For an instruction alone in its convoy. It issues the cycle after the last drain (a held convoy stops only those
behind it) and drains at t0 + beats − 1 + latency + slide time. When it drains: each element that the rules have it
write (active ones, or those its entry names) holds its result, computed here from the elements before; every other
element, mask bit and register is undisturbed, the flags merge, VS is dirty if anything was written, and nothing else
changes. So for the integer, floating-point, conversion, special-function, dequantisation, permute, VBPDOT and
VBPCVT.packed forms, the compares and the mask operations (the other instructions: VectorResults, VectorMemory). An
instruction with a scalar destination takes its value as it issues; 14 cycles after the drain the register receives
it, good data again, and the hart goes on in the next cycle. With no uncorrectable v register, no trace and no
LOCALSPLIT write in progress. SETWM's store waits for its own event. The model's choices: the stated figures as exact
(log 9), performing at the drain (log 11), VS dirty then (log 12), VSAR's top bit (log 63); no event does anything
else (log 14). (05_vectors.md R105; 05_vectors.md R107; 05_vectors.md R113; 05_vectors.md R115; 02_state.md R55;
17_reference_a_to_k.md R363; 19_reference_t_to_z.md R411; 19_reference_t_to_z.md R412; 19_reference_t_to_z.md R413;
19_reference_t_to_z.md R422; 19_reference_t_to_z.md R424) -/
def Obligations.VectorDrains : Prop :=
  (∀ (s : State) (h : Nat) (i : Instr) (y : Hart) (c : Captured) (f : Flight), InFlight s h i y c f → 8192 ≤ f.convoy.limit →
    let x := hart s h
    let ev : Instr := .convoyDrain h
    (∀ d w g, elementWrites x y c i = some (d, w, g) → w * c.vl ≤ 65536 → Completes ev s fun t => WroteElements s t h d w g) ∧
    (∀ d g, bitWrites x y c i = some (d, g) → Completes ev s fun t =>
      DrainedAs s t h { x with k := (hart t h).k, vs := (hart t h).vs, flags := (hart t h).flags } ∧
      (d ≠ 0 ∧ (∃ e, g e ≠ none) → (hart t h).vs = 2) ∧ (¬(d ≠ 0 ∧ ∃ e, g e ≠ none) → (hart t h).vs = x.vs) ∧
      (∀ r, r ≠ d ∨ r = 0 → getK (hart t h) r = getK x r) ∧
      Merged x (hart t h) (fun e => (g e).map fun b => ⟨0, b.2⟩) ∧
      (d ≠ 0 → ∀ e, e < 8192 → (getK (hart t h) d).getLsbD e = (g e).elim ((getK x d).getLsbD e) (·.1))) ∧
    (∀ v, isVectorFloat i = false → ScalarResult x y c i v 0 → Completes ev s fun t => DrainedAs s t h x)) ∧
  (∀ (s : State) (h : Nat) (c : Convoy) (m : VMember), (hart s h).vq.head? = some c → c.members = [m] →
    let x := hart s h
    let free := x.flight = none ∧ (∀ o, x.heldConvoy = some o → c.seq ≤ o.seq) ∧ x.lastDrain < s.time
    (¬free → Becomes (.convoyIssue h) s s) ∧
    (free → x.mq = [] → c.reprobe = none → m.act.isMem = false →
      Completes (.convoyIssue h) s fun t => ∃ f, f.convoy = c ∧ f.todo = none ∧ f.issued = s.time ∧
        f.drains = s.time + m.beats - 1 + m.act.latency + m.slideTime ∧
        (m.act.scalarDest = none → f.dest = none) ∧
        (∀ i y hd d, c.start = 0 → c.begun = none → memberOf y i = some (hd, m.act) → hd.km = m.km → i.wf = true →
          (isVectorFloat i = true → m.cap.nbv.toNat ∈ [1, 2, 3]) → (roundsVector i = true → m.cap.rm.toNat < 6) → m.act.scalarDest = some d → m.cap.vl ≤ 8192 →
          ∃ v, f.dest = some ⟨d.1, d.2, v, f.drains + 14, runsAgain i, reduces i⟩ ∧
            match i with
            | .vscan sd _ a cc st st2 => ∃ g, ScanResult x y m.cap sd a cc st st2 g v
            | _ => ∃ fl, ScalarResult x y m.cap i v fl) ∧
        ChangedHart s t h { x with vq := x.vq.filter (·.seq != c.seq), flight := some f, sdest := f.dest })) ∧
  (∀ (s : State) (h : Nat), let x := hart s h
    (x.flight = none ∨ (∃ f, x.flight = some f ∧ s.time < f.drains) →
      Becomes (.convoyDrain h) s s ∧ Becomes (.watermarkStore h) s s) ∧
    (x.sdest = none → Becomes (.scalarDestinationWrite h) s s) ∧
    (∀ d, x.sdest = some d → s.time < d.at_ → Becomes (.scalarDestinationWrite h) s s) ∧
    (∀ d, x.sdest = some d → d.at_ ≤ s.time → Completes (.scalarDestinationWrite h) s fun t =>
      let v := d.value.getD 0
      let toX (r : Reg) : Prop := d.isF = false ∧ d.value.isSome = true ∧ r = d.reg
      let toF (r : Reg) : Prop := d.isF = true ∧ d.value.isSome = true ∧ r = d.reg
      ChangedHart s t h { x with
        x := (hart t h).x, f := (hart t h).f, badX := (hart t h).badX, badF := (hart t h).badF, sdest := none
        wait := if x.wait = some .dest then some (.written s.time) else x.wait } ∧
      (∀ r, (toX r ∧ r ≠ 0 → getX (hart t h) r = v) ∧ (¬(toX r ∧ r ≠ 0) → getX (hart t h) r = getX x r)) ∧
      (∀ r, (toF r → getF (hart t h) r = v) ∧ (¬toF r → getF (hart t h) r = getF x r)) ∧
      ∀ r : Reg, ((hart t h).badX.getLsbD r.toNat = true ↔ x.badX.getLsbD r.toNat = true ∧ ¬toX r) ∧
        ((hart t h).badF.getLsbD r.toNat = true ↔ x.badF.getLsbD r.toNat = true ∧ ¬toF r))) ∧
  (∀ (s : State) (h : Nat) (f : Flight) (va v : Word) (sc : Scope) (c : Captured) (k : BitVec 3),
    (hart s h).flight = some f → f.convoy.members = [⟨.setwm va v sc, k, c⟩] → f.convoy.start = 0 → f.convoy.begun = none → f.todo = none →
    f.drains ≤ s.time → PlainAt { s with cur := h } va 8 → PinnedAt f.convoy.pins va 8 → Unheld s h →
    Becomes (.convoyDrain h) s s ∧
    Completes (.watermarkStore h) s fun t => ∃ u, u = { s with mem := t.mem, caches := t.caches } ∧
      WroteBytes s u va.toNat ((List.range 8).map fun j => BitVec.ofNat 8 (v.toNat / 256 ^ j)) ∧
      DrainedAs u t h (hart s h))

/-- For an instruction alone in its convoy, when it drains. VFREDSUM folds its present elements block by block of eight
into the accumulator (FP32, FP16, BF16 or FP64; one not boxed reads as NaN): under NB1 one rounded addition after
another, under NB2 a balanced tree of rounded additions and then the accumulator, under NB3 the rounded window sum of
42 or 106 fraction bits, with NaNs, infinities, zeros and NX as R88 and R93 say. VFREDMIN and VFREDMAX select the
least or greatest, −0 below +0, NaNs left out. Each merges the flags of every step into FPCTL and changes nothing else
now; the value, boxed, is what the f register later receives (VectorDrains), none where VL is 0. VSCAN writes each
present element what the accumulator would hold if its block ended there, an integer VSCAN the running sum, wrapped.
VBQ writes, for each group of 32 elements from 0 on that VL touches, the scale byte and 32 codes of R83 (absent
elements +0, specials 0xFF, stochastic draws by position, clamped to the largest magnitude) and nothing behind them.
VBPCVT toward planes writes bit j of each element below VL to plane j, sign-extended above the width of a signed type.
VS is dirty if anything is written. (03_numbers.md R83; 04_numeric_versions.md R92; 04_numeric_versions.md R93;
04_numeric_versions.md R94; 04_numeric_versions.md R95; 04_numeric_versions.md R96; 19_reference_t_to_z.md R410;
19_reference_t_to_z.md R419; 19_reference_t_to_z.md R420; 19_reference_t_to_z.md R421; 19_reference_t_to_z.md R425) -/
def Obligations.VectorResults : Prop :=
  (∀ (s : State) (h : Nat) (i : Instr) (y : Hart) (c : Captured) (f : Flight), InFlight s h i y c f → 8192 ≤ f.convoy.limit →
    let x := hart s h
    let ev : Instr := .convoyDrain h
    (match i with
      | .vfredsum .. | .vfredmin .. | .vfredmax .. => Completes ev s fun t => ∃ v fl, ScalarResult x y c i v fl ∧
          DrainedAs s t h { x with flags := x.flags ||| fl }
      | _ => True) ∧
    (∀ hd d a cc t t2, i = .vscan hd d a cc t t2 →
      let w := elemBits (if t.isAnyFp then t2 else t)
      w * c.vl ≤ 65536 → Completes ev s fun u => ∃ g v, ScanResult x y c hd a cc t t2 g v ∧ WroteElements s u h d w g) ∧
    (∀ hd d a k t t2, i = .vbq hd d a k t t2 →
      let w := elemBits t2
      let groups := (c.vl + 31) / 32
      Completes ev s fun u => ∃ (scale : Nat → Nat) (code : Nat → FRes),
        (∀ g, g < groups → Quantises t2 c.rm (fun j => drawFrom c.seed.toNat (32 * g + j))
          (fun j => presentIn x c hd.km a t (32 * g + j)) (scale g) fun j => code (32 * g + j)) ∧
        DrainedAs s u h { x with v := (hart u h).v, vs := if c.vl = 0 then x.vs else 2, flags := (hart u h).flags } ∧
        Merged x (hart u h) (fun e => if e < 32 * groups then some (code e) else none) ∧
        (∀ r, r ≠ d → r ≠ k → getV (hart u h) r = getV x r) ∧
        (∀ e, w * e < 65536 → elementAt (hart u h) d w e =
          if e < 32 * groups then (code e).enc % 2 ^ w else elementAt x d w e) ∧
        ∀ g, g < 8192 → elementAt (hart u h) k 8 g = if g < groups then scale g else elementAt x k 8 g) ∧
    (∀ cv d a t w, i = .vbpcvtToplanes cv d a t w → Completes ev s fun u =>
      DrainedAs s u h { x with v := (hart u h).v, vs := if c.vl = 0 then x.vs else 2 } ∧
      (∀ r : Reg, (r.toNat < d.toNat ∨ d.toNat + w.toNat < r.toNat) → getV (hart u h) r = getV x r) ∧
      ∀ j e, j ≤ w.toNat → e < 65536 → elementAt (hart u h) (d + BitVec.ofNat 5 j) 1 e =
        if e < c.vl then (asInt t (elementAt x a t.bits e) / (2 : Int) ^ j % 2).toNat
        else elementAt x (d + BitVec.ofNat 5 j) 1 e))

/-- For an instruction alone in its convoy, over plain pinned memory, when it drains: a load writes each active element,
VLDFF those below the element where it was cut, with the bytes at its address (unit-stride, strided or indexed; 4-bit
elements two to a byte) and no other element; a store writes each active element's bytes, of overlapping ones the
highest element last; a store of 4-bit elements writes only the nibble of each. VBPLD reads w planes of RLEN bits into
w registers and VBPST writes them out; VSAVE writes the image of R118, header included, and VREST takes the declared
length of every v register and k1 to k7 from it. VS is dirty where a load writes anything. Beside that only caches
change, no other byte of memory and no other register; bits of a v register above the declared length are left open
for VREST. The model's choices: performing at the drain (log 11), VS dirty then (log 12). (05_vectors.md R118;
05_vectors.md R119; 09_ordering.md R191; 19_reference_t_to_z.md R403; 19_reference_t_to_z.md R404;
19_reference_t_to_z.md R405; 19_reference_t_to_z.md R406; 19_reference_t_to_z.md R408) -/
def Obligations.VectorMemory : Prop :=
  (∀ (s : State) (h : Nat) (i : Instr) (y : Hart) (c : Captured) (f : Flight) (t : Ty) (hd : VHdr) (d a : Reg)
      (at_ : Nat → Word), InFlight s h i y c f →
    let x := hart s h
    let w := elemBits t
    let n := if w = 4 then 1 else w / 8
    let act (e : Nat) : Prop := c.vstart ≤ e ∧ e < min c.vl f.convoy.limit ∧ selects x hd.km e = true
    let stride (b : VSrc) : Word := match b with
      | .reg r => getX y r
      | .imm v => v.signExtend 64
    let index (b : Reg) (iw : Size) (e : Nat) : Word := getX y a + BitVec.ofNat 64 (elementAt x b (8 * accBytes iw) e)
    let unit (e : Nat) : Word := getX y a + BitVec.ofNat 64 (if w = 4 then e / 2 else e * n)
    (∀ e, act e → PlainAt { s with cur := h } (at_ e) n ∧ PinnedAt f.convoy.pins (at_ e) n) → s.tasks = [] → w * c.vl ≤ 65536 →
    ((i = .vld hd d a t ∧ ∀ e, at_ e = unit e) ∨ (i = .vldff hd d a t ∧ ∀ e, at_ e = unit e) ∨
      (∃ b, i = .vlds hd d a b t ∧ ∀ e, at_ e = getX y a + BitVec.ofNat 64 e * stride b) ∨
      (∃ b iw, i = .vldx hd d a b t iw ∧ ∀ e, at_ e = index b iw e) →
      Completes (.convoyDrain h) s fun u => UpToCaches s fun s =>
        DrainedAs s u h { x with v := (hart u h).v, vs := (hart u h).vs } ∧
        ((∃ e, act e) → (hart u h).vs = 2) ∧ ((∀ e, ¬act e) → (hart u h).vs = x.vs) ∧
        (∀ r, r ≠ d → getV (hart u h) r = getV x r) ∧
        ∀ e, w * e < 65536 → (act e → elementAt (hart u h) d w e =
          memNat s (at_ e).toNat n / (if w = 4 then 16 ^ (e % 2) else 1) % 2 ^ w) ∧
          (¬act e → elementAt (hart u h) d w e = elementAt x d w e)) ∧
    ((i = .vst hd d a t ∧ ∀ e, at_ e = unit e) ∨
      (∃ b, i = .vsts hd d a b t ∧ ∀ e, at_ e = getX y a + BitVec.ofNat 64 e * stride b) ∨
      (∃ b iw, i = .vstx hd d a b t iw ∧ ∀ e, at_ e = index b iw e) →
      let holds (e p : Nat) : Prop := act e ∧ (at_ e).toNat ≤ p ∧ p < (at_ e).toNat + n
      Completes (.convoyDrain h) s fun u => ∃ v, v = { s with mem := u.mem, caches := u.caches } ∧ DrainedAs v u h x ∧
        Memory.wf u.mem = true ∧ ∀ p,
          ((∀ e, ¬holds e p) → memRead u.mem p = memRead s.mem p) ∧
          (w ≠ 4 → ∀ e, holds e p → (∀ e', e < e' → ¬holds e' p) →
            memRead u.mem p = BitVec.ofNat 8 (elementAt x d w e / 256 ^ (p - (at_ e).toNat))) ∧
          (w = 4 → ∀ k, k < 2 → let nibble (m : List Host.Cell) : Nat := (memRead m p).toNat / 16 ^ k % 16
            ((∀ e, e % 2 = k → ¬holds e p) → nibble u.mem = nibble s.mem) ∧
            ∀ e, e % 2 = k → holds e p → nibble u.mem = elementAt x d 4 e))) ∧
  (∀ (s : State) (h : Nat) (i : Instr) (y : Hart) (c : Captured) (f : Flight) (base : Word) (n : Nat), InFlight s h i y c f →
    8192 ≤ f.convoy.limit → PlainAt { s with cur := h } base n → PinnedAt f.convoy.pins base n → s.tasks = [] →
    let x := hart s h
    let regs := 8 * 2 ^ c.regs.toNat
    let bits := c.lanes * 32768 / regs
    let byte (v : Nat) (k : Nat) : Byte := BitVec.ofNat 8 (v / 256 ^ k)
    let loads (p : State → State → Prop) : Prop := Completes (.convoyDrain h) s fun u => UpToCaches s fun s => p s u
    let stores (b : Nat → Byte) : Prop := Completes (.convoyDrain h) s fun u =>
      ∃ v, v = { s with mem := u.mem, caches := u.caches } ∧ DrainedAs v u h x ∧ WroteBytes s v base.toNat ((List.range n).map b)
    (∀ cv d a w, i = .vbpld cv d a w → base = getX y a → n = (w.toNat + 1) * bits / 8 → loads fun s u =>
      DrainedAs s u h { x with v := (hart u h).v, vs := 2 } ∧
      (∀ r : Reg, (r.toNat < d.toNat ∨ d.toNat + w.toNat < r.toNat) → getV (hart u h) r = getV x r) ∧
      ∀ j k, j ≤ w.toNat → 8 * k < 65536 → elementAt (hart u h) (d + BitVec.ofNat 5 j) 8 k =
        if 8 * k < bits then memNat s (base.toNat + j * bits / 8 + k) 1 else elementAt x (d + BitVec.ofNat 5 j) 8 k) ∧
    (∀ cv d a w, i = .vbpst cv d a w → base = getX y a → n = (w.toNat + 1) * bits / 8 →
      stores fun p => byte (elementAt x (d + BitVec.ofNat 5 (p / (bits / 8))) 8 (p % (bits / 8))) 0) ∧
    (∀ a, i = .vsave a → base = getX y a → n = 64 + c.lanes * 4096 + 7168 →
      stores fun p =>
        if p < 2 then byte 3 p
        else if p < 4 then byte (bits / 64) (p - 2)
        else if p = 4 then byte c.regs.toNat 0
        else if p < 64 then 0
        else if p < 64 + c.lanes * 4096 then
          byte (elementAt x (BitVec.ofNat 5 ((p - 64) / (bits / 8))) 8 ((p - 64) % (bits / 8))) 0
        else
          let q := p - 64 - c.lanes * 4096
          byte (getK x (BitVec.ofNat 3 (1 + q / 1024))).toNat (q % 1024)) ∧
    (∀ a, i = .vrest a → base = getX y a → n = 64 + c.lanes * 4096 + 7168 → loads fun s u =>
      DrainedAs s u h { x with v := (hart u h).v, k := (hart u h).k, vs := 2 } ∧
      (∀ r : Reg, regs ≤ r.toNat → getV (hart u h) r = getV x r) ∧
      (∀ r : Reg, r.toNat < regs → ∀ k, 8 * k < bits →
        elementAt (hart u h) r 8 k = memNat s (base.toNat + 64 + r.toNat * (bits / 8) + k) 1) ∧
      ∀ r : BitVec 3, r ≠ 0 → (getK (hart u h) r).toNat = memNat s (base.toNat + 64 + c.lanes * 4096 + 1024 * (r.toNat - 1)) 1024))

/-- A lone entry whose resource is free, with no delivery for it, no convoy before it and no page of a scratchpad, starts:
the resource is taken for the cycles of R134 and R135, and an MMA's tile is ready 6 later; else it waits. Once its
last cycle is over, with no uncorrectable data and no trace, it takes effect and leaves the queue, and nothing else
changes: MZERO zeroes the granted positions; MTMAP writes its map; MMA adds to each granted position its dot product:
in .b and .i4 the integer sum, clamped once with SAT; else the exact products (times both block scales) in groups of
4, 16 or 32, each folded by R88 to R90 with the window sum, one rounding and NB1's flush; flags merge. MMOVC moves the
active elements. MS, or VS, is then dirty if anything was written. With an all-zero TSHAPE those of the shape only
leave. MCAST sends its tile or its B-store rows, sidecars with them, to each other member, or, where there is none,
gives its mask at once. A delivery, never while one of the member's entries is in flight, is applied whole where the
member owns the engine and else dropped; the sender's last gives its mask. The model's choices: the stated figures as
exact (log 9), performing after the last cycle (log 11), MS dirty then (log 12); no event does anything else (log 14).
Accesses to memory: MatrixMemory. (06_matrix.md R131; 06_matrix.md R133; 06_matrix.md R135; 06_matrix.md R137;
06_matrix.md R138; 06_matrix.md R140; 04_numeric_versions.md R88; 04_numeric_versions.md R89; 04_numeric_versions.md
R90; 04_numeric_versions.md R91; 18_reference_l_to_s.md R377; 18_reference_l_to_s.md R380) -/
def Obligations.MatrixExecutes : Prop :=
  (∀ (s : State) (h : Nat) (e : MEntry), LastCycle s h e →
    let x := hart s h
    let n := coreOf h
    let c := Machine.core s n
    let cap := e.cap
    let ev : Instr := .matrixExecute h
    let dirty : Hart := { x with ms := 2 }
    let full := cap.kb ≠ 0
    let tile (d : BitVec 3) (x : Hart) (g : Nat → Nat → Option Nat) (t : State) : Prop := ∃ v,
      Performed1 s t h x { c with c := v } ∧ (∀ k : BitVec 3, k ≠ d → v[k.toNat] = c.c[k.toNat]) ∧
      ∀ i j, i < 32 → j < 32 → cAt { c with c := v } d i j = (g i j).getD (cAt c d i j)
    let granted (i j : Nat) : Prop := i < cap.m ∧ j < cap.n
    (cap.kb = 0 → (∃ d, e.act = .zero d) ∨ (∃ d p q r, e.act = .lda d p q r) ∨ (∃ d p q r, e.act = .ldaFF d p q r) ∨
        (∃ d p q f, e.act = .ldaScale d p q f) ∨ (∃ d p q m, e.act = .ldw d p q m) ∨ (∃ d a r f, e.act = .mma d a r f) ∨
        (∃ r p q, e.act = .ldb r p q) ∨ (∃ r p q f, e.act = .ldbScale r p q f) ∨ (∃ d p q f, e.act = .stc d p q f) →
      Completes ev s fun t => ChangedHart s t h { x with mq := [] }) ∧
    (∀ d, e.act = .zero d → full → Completes ev s (tile d dirty fun i j => if i < cap.m ∧ j < cap.n then some 0 else none)) ∧
    (∀ d m, e.act = .tmap d m → Completes ev s fun t => Performed1 s t h dirty { c with tm := c.tm.set d.toNat m }) ∧
    (∀ d a r f, e.act = .mma d a r f → full → r + (cap.kb + 31) / 32 ≤ 4096 → cap.nbv.toNat ∈ [1, 2, 3] →
      (f ≠ .b ∧ f ≠ .i4 → cap.rm.toNat < 6) → f ∈ [Ty.bf, .hf, .e4, .e5, .f6a, .f6b, .f4, .b, .i4, .mx8e4, .mx8e5, .mx6a, .mx6b, .mx4] →
      Completes ev s fun t => ∃ value : Nat → Nat → FRes,
        (∀ i j, granted i j → Accumulates s n cap d a r f i j (value i j)) ∧
        tile d { dirty with flags := (hart t h).flags } (fun i j => if i < cap.m ∧ j < cap.n then some (value i j).enc else none) t ∧
        ∀ k, (hart t h).flags.getLsbD k = true ↔
          x.flags.getLsbD k = true ∨ ∃ i j, granted i j ∧ (value i j).fl.getLsbD k = true) ∧
    (∀ d k v r, e.act = .toTile d v r k →
      let moves (o : Nat) : Prop := o < cap.vl ∧ selects x k o = true ∧ r + o / 32 < 32
      ((∀ o, ¬moves o) → Completes ev s fun t => ChangedHart s t h { x with mq := [] }) ∧
      ((∃ o, moves o) → Completes ev s (tile d dirty fun i j =>
        let o := 32 * (i - r) + j
        if r ≤ i ∧ o < cap.vl ∧ selects x k o = true then some (elementAt x v 32 o) else none))) ∧
    (∀ d k v r, e.act = .toVector v d r k →
      let moves (o : Nat) : Prop := o < cap.vl ∧ selects x k o = true ∧ r + o / 32 < 32
      Completes ev s fun t =>
        ChangedHart s t h { x with mq := [], v := (hart t h).v, vs := (hart t h).vs } ∧
        ((∃ o, moves o) → (hart t h).vs = 2) ∧ ((∀ o, ¬moves o) → (hart t h).vs = x.vs) ∧
        (∀ q, q ≠ v → getV (hart t h) q = getV x q) ∧
        ∀ o, o < 2048 → (moves o → elementAt (hart t h) v 32 o = cAt c d (r + o / 32) (o % 32)) ∧
          (¬moves o → elementAt (hart t h) v 32 o = elementAt x v 32 o)) ∧
    (∀ d g, x.gang.valid = true → tabGet (island s (islandOf h)).gangs (x.gang.gang.toNat % 256) = some g →
      g.harts.Nodup → (∀ p ∈ g.harts, ∀ q ∈ g.harts, coreOf p.2 = coreOf q.2 → p = q) →
      (∀ p ∈ g.harts, islandOf p.2 = islandOf h ∧ IsHart p.2 ∧ p.2 < 5120) →
      (∀ k, ∀ y ∈ (Machine.core s k).deliveries, y.sender ≠ h) →
      let own : Word := BitVec.ofNat 64 (2 ^ x.gang.member.toNat)
      let sent (t : State) : Prop := t = { s with harts := t.harts, cores := t.cores } ∧ HartsKeptBut h s t ∧
        hart t h = { x with mq := [], castMask := some (d, own) }
      let others : Prop := ∃ p ∈ g.harts, p.1 < 64 ∧ p.2 ≠ h
      ((∃ a, e.act = .castTile d a) ∨ (∃ r, e.act = .castRows d r) → ¬others ∨ (cap.kb = 0 ∧ ∃ r, e.act = .castRows d r) →
        Completes ev s fun t => ChangedHart s t h { Machine.setX x d own with mq := [] }) ∧
      (∀ a, e.act = .castTile d a → others → Completes ev s fun t => sent t ∧
        Sent s t h g fun q m => ⟨h, q, m, some (a, c.a[a.toNat], c.asc[a.toNat]), [], []⟩) ∧
      (∀ r, e.act = .castRows d r → full → others → Completes ev s fun t => sent t ∧ ∃ cells sides,
        (∀ o b, (o, b) ∈ cells ↔ ∃ j k, j < 32 ∧ k < 32 * ((cap.kb + 31) / 32) ∧ o = 0x20000 * j + 32 * r + k ∧
          b = memRead s.mem (bWindow n + o)) ∧
        (∀ o b, (o, b) ∈ sides ↔ ∃ j k, j < 32 ∧ k < 2 * ((cap.kb + 31) / 32) ∧ o = 0x2000 * j + 2 * r + k ∧
          b = memRead c.bsc o) ∧
        Sent s t h g fun q m => ⟨h, q, m, none, cells, sides⟩))) ∧
  (∀ (s : State) (h : Nat) (e : MEntry), h < 5120 → (hart s h).mq = [e] → e.ends = none → e.reprobe = none → (hart s h).vq = [] →
    (hart s h).flight = none → (hart s h).heldConvoy = none → (hart s h).castMask = none →
    (∀ p ∈ e.pins, p.ppage < 0x10000000) →
    let k := Machine.core s (coreOf h)
    let p := engineTime e.cap e.act
    let cycles := max 1 p.2
    (s.time < freeAt k p.1 ∨ (∃ y ∈ k.deliveries, y.target = h) → Becomes (.matrixExecute h) s s) ∧
    (freeAt k p.1 ≤ s.time → (∀ y ∈ k.deliveries, y.target ≠ h) → (∀ c t, (c, t) ∈ k.tileReady → t ≤ s.time) →
      k.trace.ctl.getLsbD 63 = false →
      Completes (.matrixExecute h) s fun t => ∃ u k',
        ChangedHart s u h { hart s h with mq := [{ e with ends := some (s.time + cycles - 1) }] } ∧
        ChangedCore u t (coreOf h) k' ∧ freeAt k' p.1 = s.time + cycles ∧
        (∀ q, q ≠ p.1 → freeAt k' q = freeAt k q) ∧
        (∀ d a r f, e.act = .mma d a r f → tabGet k'.tileReady d.toNat = some (s.time + cycles + 6)))) ∧
  (∀ (s : State) (c : Nat) (d : Delivery) (rest : List Delivery),
    (Machine.core s c).deliveries = d :: rest → c < 1280 → coreOf d.target = c → d.sender ≠ d.target → d.member < 64 →
    let k := Machine.core s c
    let deliver := Completes (.mcastDelivery c) s
    ((∃ e ∈ (hart s d.target).mq, e.ends ≠ none) → Becomes (.mcastDelivery c) s s) ∧
    ((∀ e ∈ (hart s d.target).mq, e.ends = none) → ∀ x m, (hart s d.sender).castMask = some (x, m) → islandOf d.sender = c / 64 →
      let last : Prop := (∀ y ∈ rest, y.sender ≠ d.sender) ∧ ∀ i, i ≠ c → ∀ y ∈ (Machine.core s i).deliveries, y.sender ≠ d.sender
      let gone (v : Word) (z u : State) : Prop :=
        (last → ChangedHart z u d.sender { Machine.setX (hart s d.sender) x v with castMask := none }) ∧
        ((∃ y ∈ rest, y.sender = d.sender) → ChangedHart z u d.sender { hart s d.sender with castMask := some (x, v) })
      let got : Word := m ||| BitVec.ofNat 64 (2 ^ d.member)
      ((hart s d.target).ms = 0 → deliver fun u => ∃ z, ChangedCore s z c { k with deliveries := rest } ∧ gone m z u) ∧
      ((hart s d.target).ms ≠ 0 → ∀ n t sc, d.tile = some (n, t, sc) → deliver fun u => ∃ z y,
        ChangedCore s z c { k with
          deliveries := rest, a := k.a.set n.toNat t, asc := k.asc.set n.toNat sc
          badTiles := k.badTiles.filter fun p => p.1 != n.toNat && p.1 != 4 + n.toNat } ∧
        ChangedHart z y d.target { hart s d.target with ms := 2 } ∧ gone got y u) ∧
      ((hart s d.target).ms ≠ 0 → d.tile = none → s.poison = [] → s.lostLines = [] → k.badSides = [] → Memory.wf s.mem = true →
        Memory.wf k.bsc = true →
        (∀ o b b', ((o, b) ∈ d.cells ∧ (o, b') ∈ d.cells ∨ (o, b) ∈ d.sides ∧ (o, b') ∈ d.sides) → b = b') → deliver fun u => ∃ y z side,
        y = { s with mem := u.mem } ∧ ChangedCore y z c { k with deliveries := rest, bsc := side } ∧ gone got z u ∧
        (∀ o b, (o, b) ∈ d.cells → memRead u.mem (bWindow c + o) = b) ∧
        (∀ p, (∀ o b, (o, b) ∈ d.cells → p ≠ bWindow c + o) → memRead u.mem p = memRead s.mem p) ∧
        (∀ o b, (o, b) ∈ d.sides → memRead side o = b) ∧
        ∀ p, (∀ b, (p, b) ∉ d.sides) → memRead side p = memRead k.bsc p))) ∧
  (∀ (s : State) (c : Nat), (Machine.core s c).deliveries = [] → Becomes (.mcastDelivery c) s s)

/-- For a lone entry whose last cycle is over, over plain memory under identity pins, no uncorrectable data and no trace:
MLDA, and MLDAFF for the rows its probe left, writes its rows' bytes below KB and zeroes the rest of the tile; the
scale forms write the sidecar byte of each block of each row, or of each column of the B-store's sidecars, and no
other; MLDB writes whole B-store rows, zero from KB on; MLDW writes each byte of the tile inside the grant and the
image from the address of R132, and zero elsewhere; MSTC writes each row's granted elements, .sf and .w as they are,
.bf and .hf converted by R78 (0b101 as 0b000) with their flags merged, of overlapping rows the last standing; MSAVE
writes the image of R381 with the shape it captured; MREST takes the tiles and sidecars from the image and the four
maps that its checks have read. MS is dirty but by MLDB, MSTC and MSAVE; beside that only caches change. The model's
choices: performing after the last cycle (log 11), MS dirty then (log 12). (06_matrix.md R129; 06_matrix.md R130;
06_matrix.md R132; 06_matrix.md R136; 03_numbers.md R78; 18_reference_l_to_s.md R378; 18_reference_l_to_s.md R379;
18_reference_l_to_s.md R381) -/
def Obligations.MatrixMemory : Prop :=
  ∀ (s : State) (h : Nat) (e : MEntry), LastCycle s h e → e.cap.kb ≠ 0 → PlainAt { s with cur := h } 0 0 →
    let x := hart s h
    let n := coreOf h
    let c := Machine.core s n
    let cap := e.cap
    let ev : Instr := .matrixExecute h
    let dirty : Hart := { x with ms := 2 }
    let plain (a : Word) (len : Nat) : Prop := PlainAt { s with cur := h } a len ∧ PinnedAt e.pins a len
    let row (p q : Word) (i : Nat) : Word := p + BitVec.ofNat 64 i * q
    let rows (p q : Word) (count len : Nat) : Prop := ∀ i, i < count → plain (row p q i) len
    let byteOf (p q : Word) (i o : Nat) : Nat := memNat s ((row p q i).toNat + o) 1
    let loads (p : State → State → Prop) : Prop := Completes ev s fun t => UpToCaches s fun s => p s t
    let fills (d : BitVec 2) (b : Nat → Nat → Nat) : Prop := loads fun s t => ∃ v,
      Performed1 s t h dirty { c with a := v } ∧ (∀ k : BitVec 2, k ≠ d → v[k.toNat] = c.a[k.toNat]) ∧
      ∀ i o, i < 32 → o < 128 → aAt { c with a := v } d i o = b i o
    let stores (p : State → State → Prop) : Prop := Completes ev s fun t =>
      ∃ u, u = { s with mem := t.mem, caches := t.caches } ∧ Memory.wf t.mem = true ∧ p u t
    (∀ d p q r, (e.act = .lda d p q r ∨ e.act = .ldaFF d p q r) → r ≤ 32 → rows p q r cap.kb →
      fills d fun i o => if i < r ∧ o < cap.kb then byteOf p q i o else 0) ∧
    (∀ d p q m, e.act = .ldw d p q m →
      let at_ (i o : Nat) : Option Word := if i < cap.m ∧ o < cap.kb then windowAt c.tm[m.toNat] p.toNat q.toNat i o else none
      (∀ i o a, at_ i o = some a → plain a 1) → fills d fun i o => (at_ i o).elim 0 fun a => memNat s a.toNat 1) ∧
    (∀ d p q f, e.act = .ldaScale d p q f →
      let g := blockBytes f
      rows p q cap.m (cap.kb / g) → loads fun s t => ∃ v,
        Performed1 s t h dirty { c with asc := v } ∧ (∀ k : BitVec 2, k ≠ d → v[k.toNat] = c.asc[k.toNat]) ∧
        ∀ i b, i < 32 → b < 8 → asAt { c with asc := v } d i b =
          if i < cap.m ∧ 16 * b % g = 0 ∧ 16 * b / g < cap.kb / g then byteOf p q i (16 * b / g) else asAt c d i b) ∧
    (∀ r p q, e.act = .ldb r p q → r + (cap.kb + 31) / 32 ≤ 4096 → rows p q cap.n cap.kb →
      let inside (j o : Nat) : Prop := j < cap.n ∧ o < 32 * ((cap.kb + 31) / 32)
      stores fun u t => ChangedHart u t h { x with mq := [] } ∧
        (∀ j o, inside j o → (memRead t.mem (bAddr n r j o)).toNat = if o < cap.kb then byteOf p q j o else 0) ∧
        ∀ b, (∀ j o, inside j o → b ≠ bAddr n r j o) → memRead t.mem b = memRead s.mem b) ∧
    (∀ r p q f, e.act = .ldbScale r p q f → r + (cap.kb + 31) / 32 ≤ 4096 → Memory.wf c.bsc = true →
      let g := blockBytes f
      let place (j b : Nat) : Nat := 0x2000 * j + (32 * r + b * g) / 16
      rows p q cap.n (cap.kb / g) → loads fun s t => ∃ v, Performed1 s t h x { c with bsc := v } ∧ Memory.wf v = true ∧
        (∀ j b, j < cap.n → b < cap.kb / g → (memRead v (place j b)).toNat = byteOf p q j b) ∧
        ∀ k, (∀ j b, j < cap.n → b < cap.kb / g → k ≠ place j b) → memRead v k = memRead c.bsc k) ∧
    (∀ d p q f, e.act = .stc d p q f → f ∈ [Ty.w, .sf, .bf, .hf] → (f = .bf ∨ f = .hf → cap.rm.toNat < 6) →
      let eb := if f = .bf ∨ f = .hf then 2 else 4
      let holds (i b : Nat) : Prop := i < cap.m ∧ (row p q i).toNat ≤ b ∧ b < (row p q i).toNat + eb * cap.n
      rows p q cap.m (eb * cap.n) → stores fun u t => ∃ value : Nat → Nat → FRes,
        (∀ i j, if f = .bf ∨ f = .hf then Converts (fmtOf f) cap.rm none false (reading fmtSf (cAt c d i j)) (value i j)
          else value i j = ⟨cAt c d i j, 0⟩) ∧
        ChangedHart u t h { x with mq := [], flags := (hart t h).flags } ∧
        (∀ k, (hart t h).flags.getLsbD k = true ↔ x.flags.getLsbD k = true ∨
          ∃ i j, i < cap.m ∧ j < cap.n ∧ (value i j).fl.getLsbD k = true) ∧
        ∀ b, ((∀ i, ¬holds i b) → memRead t.mem b = memRead s.mem b) ∧
          ∀ i, holds i b → (∀ i', i < i' → ¬holds i' b) → let o := b - (row p q i).toNat
            memRead t.mem b = BitVec.ofNat 8 ((value i (o / eb)).enc / 256 ^ (o % eb))) ∧
    (∀ p, e.act = .save p → plain p 50496 → stores fun u t => ChangedHart u t h { x with mq := [] } ∧
      WroteBytes s u p.toNat ((List.range 50496).map fun o => BitVec.ofNat 8 (imageByte c cap o))) ∧
    (∀ p maps, e.act = .restore p maps → plain (p + 64) 50176 → loads fun s t => ∃ va vs vc vt,
      Performed1 s t h dirty { c with a := va, asc := vs, c := vc, tm := vt } ∧
      (∀ (d : Fin 4) (o : Nat), o < 4096 → va[d].toNat / 256 ^ o % 256 = memNat s ((p + 64).toNat + 4096 * d.val + o) 1) ∧
      (∀ (d : Fin 4) (o : Nat), o < 256 → vs[d].toNat / 256 ^ o % 256 = memNat s ((p + 64).toNat + 16384 + 256 * d.val + o) 1) ∧
      (∀ (d : Fin 8) (o : Nat), o < 4096 → vc[d].toNat / 256 ^ o % 256 = memNat s ((p + 64).toNat + 17408 + 4096 * d.val + o) 1) ∧
      ∀ d : Fin 4, vt[d] = maps.getD d.val 0)

end
end

