-- ==== Sys2Proof/Laws/Cache.lean ====
section
/-!
SUPPORT. What the operations on the data caches can do: they change the caches and nothing else, so that memory, the
registers and every check of an access are as before.
-/
namespace Sys2Proof.Machine

/-- The two states differ at most in the copies that their data caches and directories hold (R145, R148). -/
def CachesOnly (s t : State) : Prop := t = { s with caches := t.caches }

namespace CachesOnly

theorem refl (s : State) : CachesOnly s s := rfl

theorem trans {s t u : State} (h : CachesOnly s t) (k : CachesOnly t u) : CachesOnly s u := by
  unfold CachesOnly at *
  rw [h] at k
  exact k

theorem mem {s t : State} (h : CachesOnly s t) : t.mem = s.mem := by rw [h]
theorem harts {s t : State} (h : CachesOnly s t) : t.harts = s.harts := by rw [h]
theorem cores {s t : State} (h : CachesOnly s t) : t.cores = s.cores := by rw [h]
theorem tasks {s t : State} (h : CachesOnly s t) : t.tasks = s.tasks := by rw [h]
theorem poison {s t : State} (h : CachesOnly s t) : t.poison = s.poison := by rw [h]
theorem cur {s t : State} (h : CachesOnly s t) : t.cur = s.cur := by rw [h]

/-- What holds of a state holds up to the caches of one that differs in its caches at most. -/
theorem upTo {s t : State} {P : State → Prop} (h : CachesOnly s t) (hp : P t) : UpToCaches s P :=
  ⟨t.caches, by rw [← h]; exact hp⟩

/-- One after another. -/
theorem foldl {α : Type} (f : State → α → State) (hf : ∀ s a, CachesOnly s (f s a)) (l : List α) (s : State) :
    CachesOnly s (l.foldl f s) := by
  induction l generalizing s with
  | nil => exact refl s
  | cons a l ih => exact (hf s a).trans (ih (f s a))

end CachesOnly

theorem onCoreCache_cachesOnly (s : State) (c : Nat) (f : CoreCache → CoreCache) : CachesOnly s (onCoreCache s c f) := rfl
theorem onHome_cachesOnly (s : State) (l : Nat) (f : HomeCache → HomeCache) : CachesOnly s (onHome s l f) := rfl
theorem fillLlc_cachesOnly (s : State) (l : Nat) (d : Bool) : CachesOnly s (fillLlc s l d) := rfl
theorem setEntry_cachesOnly (s : State) (e : DirEntry) : CachesOnly s (setEntry s e) := rfl

theorem dropCopy_cachesOnly (l : Nat) (s : State) (a : Sharer) : CachesOnly s (dropCopy l s a) := by
  cases a <;> rfl

theorem invalidateLine_cachesOnly (s : State) (l : Nat) (k : Option Sharer) : CachesOnly s (invalidateLine s l k) := by
  unfold invalidateLine
  split
  · exact .refl s
  · refine .trans ?_ (setEntry_cachesOnly _ _)
    split
    · exact (CachesOnly.foldl _ (dropCopy_cachesOnly l) _ s).trans (fillLlc_cachesOnly _ _ _)
    · exact CachesOnly.foldl _ (dropCopy_cachesOnly l) _ s

theorem directoryRoom_cachesOnly (s : State) (l : Nat) : CachesOnly s (directoryRoom s l) := by
  simp only [directoryRoom]
  split
  · exact invalidateLine_cachesOnly _ _ _
  · exact .refl s

theorem shareLine_cachesOnly (s : State) (a : Sharer) (l : Nat) : CachesOnly s (shareLine s a l) := by
  unfold shareLine
  split
  · exact ((directoryRoom_cachesOnly s l).trans (fillLlc_cachesOnly _ _ _)).trans (setEntry_cachesOnly _ _)
  · split
    · exact .refl s
    · exact (fillLlc_cachesOnly _ _ _).trans (setEntry_cachesOnly _ _)

theorem ownLine_cachesOnly (s : State) (a : Sharer) (l : Nat) : CachesOnly s (ownLine s a l) := by
  have h := invalidateLine_cachesOnly s l (some a)
  simp only [ownLine]
  refine h.trans (.trans ?_ (setEntry_cachesOnly _ _))
  split
  · exact .refl _
  · exact (directoryRoom_cachesOnly _ l).trans (fillLlc_cachesOnly _ _ _)

theorem leaveLine_cachesOnly (s : State) (a : Sharer) (l : Nat) : CachesOnly s (leaveLine s a l) := by
  unfold leaveLine
  split
  · exact .refl s
  · refine .trans ?_ (setEntry_cachesOnly _ _)
    split
    · exact fillLlc_cachesOnly _ _ _
    · exact .refl s

theorem readHome_cachesOnly (s : State) (l : Nat) : CachesOnly s (readHome s l) := by
  unfold readHome
  split
  · split
    · exact (fillLlc_cachesOnly _ _ _).trans (setEntry_cachesOnly _ _)
    · exact fillLlc_cachesOnly _ _ _
  · exact fillLlc_cachesOnly _ _ _

theorem writeHome_cachesOnly (s : State) (l : Nat) (k : Option Sharer) : CachesOnly s (writeHome s l k) := by
  have h := (invalidateLine_cachesOnly s l k).trans (fillLlc_cachesOnly _ l true)
  simp only [writeHome]
  split
  · exact h.trans (setEntry_cachesOnly _ _)
  · exact h

theorem cleanLine_cachesOnly (s : State) (l : Nat) : CachesOnly s (cleanLine s l) := by
  unfold cleanLine
  refine .trans ?_ (onHome_cachesOnly _ _ _)
  split
  · split
    · exact setEntry_cachesOnly _ _
    · exact .refl s
  · exact .refl s

theorem purgeLine_cachesOnly (s : State) (l : Nat) : CachesOnly s (purgeLine s l) :=
  (invalidateLine_cachesOnly s l none).trans (onHome_cachesOnly _ _ _)

theorem dropL2_cachesOnly (s : State) (c l : Nat) : CachesOnly s (dropL2 s c l) :=
  (leaveLine_cachesOnly s _ l).trans (dropCopy_cachesOnly _ _ _)

theorem fillL2_cachesOnly (s : State) (c l : Nat) : CachesOnly s (fillL2 s c l) := by
  unfold fillL2
  refine .trans ?_ (onCoreCache_cachesOnly _ _ _)
  split
  · exact dropL2_cachesOnly _ _ _
  · exact .refl s

theorem loadL2_cachesOnly (s : State) (c l : Nat) : CachesOnly s (loadL2 s c l) := by
  unfold loadL2
  split
  · exact .refl s
  · split
    · exact (shareLine_cachesOnly _ _ _).trans (fillL2_cachesOnly _ _ _)
    · exact readHome_cachesOnly _ _

theorem storeL2_cachesOnly (s : State) (c l : Nat) : CachesOnly s (storeL2 s c l) := by
  unfold storeL2
  split
  · exact ownLine_cachesOnly _ _ _
  · split
    · exact (ownLine_cachesOnly _ _ _).trans (fillL2_cachesOnly _ _ _)
    · exact writeHome_cachesOnly _ _ _

theorem trimL2_cachesOnly (s : State) (c l : Nat) : CachesOnly s (trimL2 s c l) := by
  simp only [trimL2]
  split
  · exact dropL2_cachesOnly _ _ _
  · exact .refl s

theorem fillL1d_cachesOnly (s : State) (c l : Nat) : CachesOnly s (fillL1d s c l) := by
  unfold fillL1d
  refine .trans ?_ (onCoreCache_cachesOnly _ _ _)
  split
  · refine .trans ?_ (onCoreCache_cachesOnly _ _ _)
    split
    · exact .refl s
    · exact leaveLine_cachesOnly _ _ _
  · exact .refl s

/-- A scalar load changes the caches alone. -/
theorem loadScalarLine_cachesOnly (c : Nat) (s : State) (l : Nat) : CachesOnly s (loadScalarLine c s l) := by
  unfold loadScalarLine
  split
  · exact .refl s
  · split
    · dsimp only
      split
      · exact (loadL2_cachesOnly _ _ _).trans (fillL1d_cachesOnly _ _ _)
      · exact loadL2_cachesOnly _ _ _
    · exact (shareLine_cachesOnly _ _ _).trans (fillL1d_cachesOnly _ _ _)

/-- What a scalar store does beside its bytes changes the caches alone. -/
theorem storeScalarLine_cachesOnly (c : Nat) (s : State) (l : Nat) : CachesOnly s (storeScalarLine c s l) := by
  unfold storeScalarLine
  split
  · exact storeL2_cachesOnly _ _ _
  · exact writeHome_cachesOnly _ _ _

/-- A vector or matrix load, a fetch or a table read changes the caches alone. -/
theorem loadVectorLine_cachesOnly (c : Nat) (s : State) (l : Nat) : CachesOnly s (loadVectorLine c s l) := by
  unfold loadVectorLine
  split
  · exact loadL2_cachesOnly _ _ _
  · exact readHome_cachesOnly _ _

/-- What a vector or matrix store does beside its bytes changes the caches alone. -/
theorem storeVectorLine_cachesOnly (c : Nat) (s : State) (l : Nat) : CachesOnly s (storeVectorLine c s l) := by
  unfold storeVectorLine
  split
  · refine .trans ?_ (storeL2_cachesOnly _ _ _)
    split
    · exact onCoreCache_cachesOnly _ _ _
    · exact .refl s
  · exact writeHome_cachesOnly _ _ _

theorem prefetchLine_cachesOnly (c : Nat) (s : State) (l : Nat) : CachesOnly s (prefetchLine c s l) := by
  unfold prefetchLine
  split
  · exact readHome_cachesOnly _ _
  · split
    · exact loadL2_cachesOnly _ _ _
    · exact .refl s

theorem flushCore_cachesOnly (s : State) (c : Nat) : CachesOnly s (flushCore s c) := by
  unfold flushCore
  exact (CachesOnly.foldl _ (fun s l => dropL2_cachesOnly s c l) _ s).trans
    (CachesOnly.foldl _ (fun s l => (leaveLine_cachesOnly s _ l).trans (dropCopy_cachesOnly _ _ _)) _ _)

/-- An access acts on the lines it touches, and changes the caches alone. -/
theorem touch_cachesOnly (f : State → Nat → State) (hf : ∀ s l, CachesOnly s (f s l)) (s : State)
    (l : List (Nat × Nat)) : CachesOnly s (touch f s l) := CachesOnly.foldl f hf _ s

end Sys2Proof.Machine
end

