-- ==== Sys2Proof/Laws/Tables.lean ====
section
/-!
SUPPORT. The numbered tables and the accessors over them: reading what was written, and everything else kept.
-/
namespace Sys2Proof.Machine

@[simp] theorem tabGet_tabSet_same {α : Type} (l : List (Nat × α)) (n : Nat) (x : α) :
    tabGet (tabSet l n x) n = some x := by
  induction l with
  | nil => simp [tabSet, tabGet]
  | cons p t ih =>
    obtain ⟨k, v⟩ := p
    by_cases h : k = n
    · simp [tabSet, tabGet, h]
    · by_cases h2 : n < k <;> simp [tabSet, tabGet, h, h2, ih]

theorem tabGet_tabSet_other {α : Type} (l : List (Nat × α)) (n m : Nat) (x : α) (h : m ≠ n) :
    tabGet (tabSet l n x) m = tabGet l m := by
  induction l with
  | nil => simp [tabSet, tabGet, Ne.symm h]
  | cons p t ih =>
    obtain ⟨k, v⟩ := p
    by_cases hk : k = n
    · subst hk; simp [tabSet, tabGet, Ne.symm h]
    · by_cases h2 : n < k
      · simp [tabSet, tabGet, hk, h2, Ne.symm h]
      · simp [tabSet, tabGet, hk, h2, ih]

theorem tabGet_tabSet {α : Type} (l : List (Nat × α)) (n m : Nat) (x : α) :
    tabGet (tabSet l n x) m = if m = n then some x else tabGet l m := by
  by_cases h : m = n
  · subst h; simp
  · simp [h, tabGet_tabSet_other l n m x h]

@[simp] theorem hart_onHart_same (s : State) (h : Nat) (f : Hart → Hart) :
    hart (onHart s h f) h = f (hart s h) := by simp [hart, onHart]

theorem hart_onHart_other (s : State) (h k : Nat) (f : Hart → Hart) (hk : k ≠ h) :
    hart (onHart s h f) k = hart s k := by simp [hart, onHart, tabGet_tabSet_other _ _ _ _ hk]

@[simp] theorem me_onMe (s : State) (f : Hart → Hart) : me (onMe s f) = f (me s) := by
  simp [me, onMe, onHart, hart]

theorem hart_onMe_other (s : State) (k : Nat) (f : Hart → Hart) (hk : k ≠ s.cur) :
    hart (onMe s f) k = hart s k := hart_onHart_other s s.cur k f hk

@[simp] theorem core_onCore_same (s : State) (c : Nat) (f : Core → Core) :
    core (onCore s c f) c = f (core s c) := by simp [core, onCore]

theorem core_onCore_other (s : State) (c k : Nat) (f : Core → Core) (hk : k ≠ c) :
    core (onCore s c f) k = core s k := by simp [core, onCore, tabGet_tabSet_other _ _ _ _ hk]

@[simp] theorem island_onIsland_same (s : State) (n : Nat) (f : Island → Island) :
    island (onIsland s n f) n = f (island s n) := by simp [island, onIsland]

theorem island_onIsland_other (s : State) (n k : Nat) (f : Island → Island) (hk : k ≠ n) :
    island (onIsland s n f) k = island s k := by simp [island, onIsland, tabGet_tabSet_other _ _ _ _ hk]

@[simp] theorem part_onPart_same (s : State) (v : Nat) (f : Part → Part) :
    part (onPart s v f) v = f (part s v) := by simp [part, onPart]

theorem part_onPart_other (s : State) (v k : Nat) (f : Part → Part) (hk : k ≠ v) :
    part (onPart s v f) k = part s k := by simp [part, onPart, tabGet_tabSet_other _ _ _ _ hk]

@[simp] theorem domain_onDomain_same (s : State) (v d : Nat) (f : Domain → Domain) :
    domain (onDomain s v d f) v d = f (domain s v d) := by simp [domain, onDomain]

theorem domain_onDomain_other (s : State) (v d e : Nat) (f : Domain → Domain) (he : e ≠ d) :
    domain (onDomain s v d f) v e = domain s v e := by
  simp [domain, onDomain, tabGet_tabSet_other _ _ _ _ he]

@[simp] theorem slot_onSlot_same (s : State) (n q : Nat) (f : Slot → Slot) :
    slot (onSlot s n q f) n q = f (slot s n q) := by simp [slot, onSlot]

theorem slot_onSlot_other (s : State) (n q r : Nat) (f : Slot → Slot) (hr : r ≠ q) :
    slot (onSlot s n q f) n r = slot s n r := by simp [slot, onSlot, tabGet_tabSet_other _ _ _ _ hr]

end Sys2Proof.Machine
end

