-- ==== Sys2Proof/Laws/Memory.lean ====
section
/-!
SUPPORT. Physical memory: a read after a write, a write leaves every other byte alone, and every memory operation
keeps the canonical form.
-/
namespace Sys2Proof.Machine

/-- The canonical form with a strict lower bound on the addresses. -/
theorem memSorted_weaken {lo lo' : Nat} {m : List Host.Cell} (h : lo' ≤ lo) (hm : memSorted (some lo) m = true) :
    memSorted (some lo') m = true := by
  cases m with
  | nil => simp [memSorted]
  | cons c t =>
    obtain ⟨a, v⟩ := c
    simp only [memSorted, Bool.and_eq_true, decide_eq_true_eq] at hm ⊢
    exact ⟨⟨by omega, hm.1.2⟩, hm.2⟩

theorem memSorted_none {lo : Nat} {m : List Host.Cell} (hm : memSorted (some lo) m = true) :
    memSorted none m = true := by
  cases m with
  | nil => simp [memSorted]
  | cons c t =>
    obtain ⟨a, v⟩ := c
    simp only [memSorted, Bool.and_eq_true] at hm ⊢
    exact ⟨hm.1.2, hm.2⟩

/-- A byte at or below the bound is not listed. -/
theorem memRead_below {lo : Nat} {m : List Host.Cell} (hm : memSorted (some lo) m = true) {a : Nat} (ha : a ≤ lo) :
    memRead m a = 0 := by
  cases m with
  | nil => rfl
  | cons c t =>
    obtain ⟨b, v⟩ := c
    simp only [memSorted, Bool.and_eq_true, decide_eq_true_eq] at hm
    have h1 : a ≠ b := by omega
    have h2 : a < b := by omega
    simp [memRead, h1, h2]

theorem memWrite_sorted (lo : Option Nat) (m : List Host.Cell) (a : Nat) (v : Byte)
    (hlo : ∀ l, lo = some l → l < a) (hm : memSorted lo m = true) : memSorted lo (memWrite m a v) = true := by
  induction m generalizing lo with
  | nil =>
    by_cases hv : v = 0#8
    · simp [memWrite, hv, memSorted]
    · cases lo with
      | none => simp [memWrite, hv, memSorted]
      | some l => simp [memWrite, hv, memSorted, hlo l rfl]
  | cons c t ih =>
    obtain ⟨b, w⟩ := c
    have hbt : memSorted (some b) t = true := by cases lo <;> simp_all [memSorted]
    have hw : w ≠ 0#8 := by cases lo <;> simp_all [memSorted]
    by_cases hab : a = b
    · subst hab
      by_cases hv : v = 0#8
      · simp only [memWrite, hv, if_true]
        cases lo with
        | none => exact memSorted_none hbt
        | some l => exact memSorted_weaken (Nat.le_of_lt (hlo l rfl)) hbt
      · cases lo with
        | none => simp [memWrite, hv, memSorted, hbt]
        | some l => simp [memWrite, hv, memSorted, hbt, hlo l rfl]
    · by_cases hlt : a < b
      · by_cases hv : v = 0#8
        · simpa [memWrite, hab, hlt, hv] using hm
        · cases lo with
          | none => simp [memWrite, hab, hlt, hv, memSorted, hbt, hw]
          | some l => simp [memWrite, hab, hlt, hv, memSorted, hbt, hw, hlo l rfl]
      · have hb : ∀ l, some b = some l → l < a := by rintro l ⟨⟩; omega
        have := ih (some b) hb hbt
        cases lo with
        | none => simp [memWrite, hab, hlt, memSorted, this, hw]
        | some l =>
          have : l < b := by simp_all [memSorted]
          simp [memWrite, memSorted, *]

/-- A write of one byte keeps the canonical form. -/
theorem memWrite_wf {m : List Host.Cell} (a : Nat) (v : Byte) (hm : Memory.wf m = true) :
    Memory.wf (memWrite m a v) = true := memWrite_sorted none m a v (by simp) hm

theorem memRead_memWrite_same (m : List Host.Cell) (a : Nat) (v : Byte) (hm : Memory.wf m = true) :
    memRead (memWrite m a v) a = v := by
  suffices H : ∀ lo, memSorted lo m = true → memRead (memWrite m a v) a = v from H none hm
  clear hm
  intro lo hm
  induction m generalizing lo with
  | nil => by_cases hv : v = 0#8 <;> simp [memWrite, hv, memRead]
  | cons c t ih =>
    obtain ⟨b, w⟩ := c
    have hbt : memSorted (some b) t = true := by cases lo <;> simp_all [memSorted]
    by_cases hab : a = b
    · subst hab
      by_cases hv : v = 0#8
      · simp [memWrite, hv, memRead_below hbt (Nat.le_refl _)]
      · simp [memWrite, hv, memRead]
    · by_cases hlt : a < b
      · by_cases hv : v = 0#8 <;> simp [memWrite, hab, hlt, hv, memRead]
      · simp [memWrite, hab, hlt, memRead, ih _ hbt]

theorem memRead_memWrite_other (m : List Host.Cell) (a a' : Nat) (v : Byte) (hm : Memory.wf m = true) (h : a' ≠ a) :
    memRead (memWrite m a v) a' = memRead m a' := by
  suffices H : ∀ lo, memSorted lo m = true → memRead (memWrite m a v) a' = memRead m a' from H none hm
  clear hm
  intro lo hm
  induction m generalizing lo with
  | nil => by_cases hv : v = 0#8 <;> simp [memWrite, hv, memRead, h]
  | cons c t ih =>
    obtain ⟨b, w⟩ := c
    have hbt : memSorted (some b) t = true := by cases lo <;> simp_all [memSorted]
    by_cases hab : a = b
    · subst hab
      by_cases hv : v = 0#8
      · subst hv
        by_cases hlt : a' < a
        · simp [memWrite, memRead, h, hlt, memRead_below hbt (Nat.le_of_lt hlt)]
        · simp [memWrite, memRead, h, hlt]
      · simp [memWrite, hv, memRead, h]
    · by_cases hlt : a < b
      · by_cases hv : v = 0#8
        · simp [memWrite, hab, hlt, hv]
        · by_cases h2 : a' < a
          · have h3 : a' ≠ b := by omega
            have h4 : a' < b := by omega
            simp [memWrite, hab, hlt, hv, memRead, h, h2, h3, h4]
          · simp [memWrite, hab, hlt, hv, memRead, h, h2]
      · by_cases h2 : a' = b
        · simp [memWrite, hab, hlt, memRead, h2]
        · by_cases h3 : a' < b <;> simp [memWrite, hab, hlt, memRead, h2, h3, ih _ hbt]

/-- A read after a write: the byte written, every other byte as before. -/
theorem memRead_memWrite (m : List Host.Cell) (a a' : Nat) (v : Byte) (hm : Memory.wf m = true) :
    memRead (memWrite m a v) a' = if a' = a then v else memRead m a' := by
  by_cases h : a' = a
  · subst h; simp [memRead_memWrite_same m a' v hm]
  · simp [h, memRead_memWrite_other m a a' v hm h]

theorem memWriteBytes_wf (bs : List Byte) {m : List Host.Cell} (a : Nat) (hm : Memory.wf m = true) :
    Memory.wf (memWriteBytes m a bs) = true := by
  induction bs generalizing m a with
  | nil => exact hm
  | cons b bs ih => exact ih (a + 1) (memWrite_wf a b hm)

/-- What bytes written from an address on read as. -/
theorem memRead_memWriteBytes (bs : List Byte) (m : List Host.Cell) (a a' : Nat) (hm : Memory.wf m = true) :
    memRead (memWriteBytes m a bs) a' = if a ≤ a' ∧ a' < a + bs.length then bs.getD (a' - a) 0 else memRead m a' := by
  induction bs generalizing m a with
  | nil => rw [if_neg (by simp)]; rfl
  | cons b bs ih =>
    rw [memWriteBytes, ih _ _ (memWrite_wf a b hm), memRead_memWrite m a a' b hm]
    by_cases h : a' = a
    · subst h
      have h0 : ¬(a' + 1 ≤ a' ∧ a' < a' + 1 + bs.length) := by omega
      rw [if_neg h0]; simp
    · by_cases h2 : a + 1 ≤ a' ∧ a' < a + 1 + bs.length
      · have h3 : a ≤ a' ∧ a' < a + (b :: bs).length := by simp; omega
        have h4 : a' - a = (a' - (a + 1)) + 1 := by omega
        rw [if_pos h2, if_pos h3, h4, List.getD_cons_succ]
      · have h3 : ¬(a ≤ a' ∧ a' < a + (b :: bs).length) := by simp; omega
        rw [if_neg h2, if_neg h3, if_neg h]

theorem memWriteNat_wf {m : List Host.Cell} (a n v : Nat) (hm : Memory.wf m = true) :
    Memory.wf (memWriteNat m a n v) = true := memWriteBytes_wf _ a hm

theorem memSorted_filter (p : Host.Cell → Bool) (lo : Option Nat) (m : List Host.Cell)
    (hm : memSorted lo m = true) : memSorted lo (m.filter p) = true := by
  induction m generalizing lo with
  | nil => simp [memSorted]
  | cons c t ih =>
    obtain ⟨b, w⟩ := c
    have hbt : memSorted (some b) t = true := by cases lo <;> simp_all [memSorted]
    by_cases hp : p (b, w)
    · have := ih (some b) hbt
      cases lo <;> simp_all [memSorted, List.filter_cons_of_pos]
    · rw [List.filter_cons_of_neg hp]
      apply ih
      cases lo with
      | none => exact memSorted_none hbt
      | some l => exact memSorted_weaken (Nat.le_of_lt (by simp_all [memSorted])) hbt

/-- Dropping cells keeps the canonical form. -/
theorem filter_wf (p : Host.Cell → Bool) {m : List Host.Cell} (hm : Memory.wf m = true) :
    Memory.wf (m.filter p) = true := memSorted_filter p none m hm

theorem memClear_wf {m : List Host.Cell} (a n : Nat) (hm : Memory.wf m = true) :
    Memory.wf (memClear m a n) = true := filter_wf _ hm

/-- Writing cells one after another keeps the canonical form. -/
theorem writeCells_wf (cells : List Host.Cell) {m : List Host.Cell} (hm : Memory.wf m = true) :
    Memory.wf (cells.foldl (fun m c => memWrite m c.1 c.2) m) = true := by
  induction cells generalizing m with
  | nil => exact hm
  | cons c t ih => exact ih (memWrite_wf c.1 c.2 hm)

end Sys2Proof.Machine
end

