-- ==== Sys2Proof/Laws/State.lean ====
section
/-!
SUPPORT. One lemma for each field and each update of the state and of a hart, so that no proof unfolds a record update.
-/
namespace Sys2Proof.Machine

/-! ### onHart -/

@[simp] theorem onHart_cores (s : State) (h : Nat) (f : Hart → Hart) : (onHart s h f).cores = s.cores := rfl
@[simp] theorem onHart_islands (s : State) (h : Nat) (f : Hart → Hart) : (onHart s h f).islands = s.islands := rfl
@[simp] theorem onHart_parts (s : State) (h : Nat) (f : Hart → Hart) : (onHart s h f).parts = s.parts := rfl
@[simp] theorem onHart_tags (s : State) (h : Nat) (f : Hart → Hart) : (onHart s h f).tags = s.tags := rfl
@[simp] theorem onHart_tasks (s : State) (h : Nat) (f : Hart → Hart) : (onHart s h f).tasks = s.tasks := rfl
@[simp] theorem onHart_nextUid (s : State) (h : Nat) (f : Hart → Hart) : (onHart s h f).nextUid = s.nextUid := rfl
@[simp] theorem onHart_mem (s : State) (h : Nat) (f : Hart → Hart) : (onHart s h f).mem = s.mem := rfl
@[simp] theorem onHart_caches (s : State) (h : Nat) (f : Hart → Hart) : (onHart s h f).caches = s.caches := rfl
@[simp] theorem onHart_poison (s : State) (h : Nat) (f : Hart → Hart) : (onHart s h f).poison = s.poison := rfl
@[simp] theorem onHart_lostLines (s : State) (h : Nat) (f : Hart → Hart) : (onHart s h f).lostLines = s.lostLines := rfl
@[simp] theorem onHart_freezeKind (s : State) (h : Nat) (f : Hart → Hart) : (onHart s h f).freezeKind = s.freezeKind := rfl
@[simp] theorem onHart_freezeTarget (s : State) (h : Nat) (f : Hart → Hart) : (onHart s h f).freezeTarget = s.freezeTarget := rfl
@[simp] theorem onHart_keyState (s : State) (h : Nat) (f : Hart → Hart) : (onHart s h f).keyState = s.keyState := rfl
@[simp] theorem onHart_keyAddr (s : State) (h : Nat) (f : Hart → Hart) : (onHart s h f).keyAddr = s.keyAddr := rfl
@[simp] theorem onHart_keyHash (s : State) (h : Nat) (f : Hart → Hart) : (onHart s h f).keyHash = s.keyHash := rfl
@[simp] theorem onHart_fwState (s : State) (h : Nat) (f : Hart → Hart) : (onHart s h f).fwState = s.fwState := rfl
@[simp] theorem onHart_fwAddr (s : State) (h : Nat) (f : Hart → Hart) : (onHart s h f).fwAddr = s.fwAddr := rfl
@[simp] theorem onHart_fwOp (s : State) (h : Nat) (f : Hart → Hart) : (onHart s h f).fwOp = s.fwOp := rfl
@[simp] theorem onHart_securityCounter (s : State) (h : Nat) (f : Hart → Hart) : (onHart s h f).securityCounter = s.securityCounter := rfl
@[simp] theorem onHart_firmware (s : State) (h : Nat) (f : Hart → Hart) : (onHart s h f).firmware = s.firmware := rfl
@[simp] theorem onHart_flash (s : State) (h : Nat) (f : Hart → Hart) : (onHart s h f).flash = s.flash := rfl
@[simp] theorem onHart_placements (s : State) (h : Nat) (f : Hart → Hart) : (onHart s h f).placements = s.placements := rfl
@[simp] theorem onHart_monhart (s : State) (h : Nat) (f : Hart → Hart) : (onHart s h f).monhart = s.monhart := rfl
@[simp] theorem onHart_newMonhart (s : State) (h : Nat) (f : Hart → Hart) : (onHart s h f).newMonhart = s.newMonhart := rfl
@[simp] theorem onHart_hartctlMode (s : State) (h : Nat) (f : Hart → Hart) : (onHart s h f).hartctlMode = s.hartctlMode := rfl
@[simp] theorem onHart_hartctlSteward (s : State) (h : Nat) (f : Hart → Hart) : (onHart s h f).hartctlSteward = s.hartctlSteward := rfl
@[simp] theorem onHart_hartctlNum (s : State) (h : Nat) (f : Hart → Hart) : (onHart s h f).hartctlNum = s.hartctlNum := rfl
@[simp] theorem onHart_hartpc (s : State) (h : Nat) (f : Hart → Hart) : (onHart s h f).hartpc = s.hartpc := rfl
@[simp] theorem onHart_codes (s : State) (h : Nat) (f : Hart → Hart) : (onHart s h f).codes = s.codes := rfl
@[simp] theorem onHart_cxlUp (s : State) (h : Nat) (f : Hart → Hart) : (onHart s h f).cxlUp = s.cxlUp := rfl
@[simp] theorem onHart_peers (s : State) (h : Nat) (f : Hart → Hart) : (onHart s h f).peers = s.peers := rfl
@[simp] theorem onHart_failedStacks (s : State) (h : Nat) (f : Hart → Hart) : (onHart s h f).failedStacks = s.failedStacks := rfl
@[simp] theorem onHart_term (s : State) (h : Nat) (f : Hart → Hart) : (onHart s h f).term = s.term := rfl
@[simp] theorem onHart_election (s : State) (h : Nat) (f : Hart → Hart) : (onHart s h f).election = s.election := rfl
@[simp] theorem onHart_heard (s : State) (h : Nat) (f : Hart → Hart) : (onHart s h f).heard = s.heard := rfl
@[simp] theorem onHart_reElections (s : State) (h : Nat) (f : Hart → Hart) : (onHart s h f).reElections = s.reElections := rfl
@[simp] theorem onHart_gotBlock (s : State) (h : Nat) (f : Hart → Hart) : (onHart s h f).gotBlock = s.gotBlock := rfl
@[simp] theorem onHart_imageWhole (s : State) (h : Nat) (f : Hart → Hart) : (onHart s h f).imageWhole = s.imageWhole := rfl
@[simp] theorem onHart_lastHello (s : State) (h : Nat) (f : Hart → Hart) : (onHart s h f).lastHello = s.lastHello := rfl
@[simp] theorem onHart_lastBlock (s : State) (h : Nat) (f : Hart → Hart) : (onHart s h f).lastBlock = s.lastBlock := rfl
@[simp] theorem onHart_electionStart (s : State) (h : Nat) (f : Hart → Hart) : (onHart s h f).electionStart = s.electionStart := rfl
@[simp] theorem onHart_hellosSent (s : State) (h : Nat) (f : Hart → Hart) : (onHart s h f).hellosSent = s.hellosSent := rfl
@[simp] theorem onHart_helloOut (s : State) (h : Nat) (f : Hart → Hart) : (onHart s h f).helloOut = s.helloOut := rfl
@[simp] theorem onHart_streamTo (s : State) (h : Nat) (f : Hart → Hart) : (onHart s h f).streamTo = s.streamTo := rfl
@[simp] theorem onHart_clockStopped (s : State) (h : Nat) (f : Hart → Hart) : (onHart s h f).clockStopped = s.clockStopped := rfl
@[simp] theorem onHart_pendingWrites (s : State) (h : Nat) (f : Hart → Hart) : (onHart s h f).pendingWrites = s.pendingWrites := rfl
@[simp] theorem onHart_time (s : State) (h : Nat) (f : Hart → Hart) : (onHart s h f).time = s.time := rfl
@[simp] theorem onHart_cur (s : State) (h : Nat) (f : Hart → Hart) : (onHart s h f).cur = s.cur := rfl
@[simp] theorem onHart_scan (s : State) (h : Nat) (f : Hart → Hart) : (onHart s h f).scan = s.scan := rfl
@[simp] theorem onHart_early (s : State) (h : Nat) (f : Hart → Hart) : (onHart s h f).early = s.early := rfl
@[simp] theorem onHart_inputs (s : State) (h : Nat) (f : Hart → Hart) : (onHart s h f).inputs = s.inputs := rfl
@[simp] theorem onHart_free (s : State) (h : Nat) (f : Hart → Hart) : (onHart s h f).free = s.free := rfl

/-! ### onCore -/

@[simp] theorem onCore_harts (s : State) (c : Nat) (f : Core → Core) : (onCore s c f).harts = s.harts := rfl
@[simp] theorem onCore_islands (s : State) (c : Nat) (f : Core → Core) : (onCore s c f).islands = s.islands := rfl
@[simp] theorem onCore_parts (s : State) (c : Nat) (f : Core → Core) : (onCore s c f).parts = s.parts := rfl
@[simp] theorem onCore_tags (s : State) (c : Nat) (f : Core → Core) : (onCore s c f).tags = s.tags := rfl
@[simp] theorem onCore_tasks (s : State) (c : Nat) (f : Core → Core) : (onCore s c f).tasks = s.tasks := rfl
@[simp] theorem onCore_nextUid (s : State) (c : Nat) (f : Core → Core) : (onCore s c f).nextUid = s.nextUid := rfl
@[simp] theorem onCore_mem (s : State) (c : Nat) (f : Core → Core) : (onCore s c f).mem = s.mem := rfl
@[simp] theorem onCore_caches (s : State) (c : Nat) (f : Core → Core) : (onCore s c f).caches = s.caches := rfl
@[simp] theorem onCore_poison (s : State) (c : Nat) (f : Core → Core) : (onCore s c f).poison = s.poison := rfl
@[simp] theorem onCore_lostLines (s : State) (c : Nat) (f : Core → Core) : (onCore s c f).lostLines = s.lostLines := rfl
@[simp] theorem onCore_freezeKind (s : State) (c : Nat) (f : Core → Core) : (onCore s c f).freezeKind = s.freezeKind := rfl
@[simp] theorem onCore_freezeTarget (s : State) (c : Nat) (f : Core → Core) : (onCore s c f).freezeTarget = s.freezeTarget := rfl
@[simp] theorem onCore_keyState (s : State) (c : Nat) (f : Core → Core) : (onCore s c f).keyState = s.keyState := rfl
@[simp] theorem onCore_keyAddr (s : State) (c : Nat) (f : Core → Core) : (onCore s c f).keyAddr = s.keyAddr := rfl
@[simp] theorem onCore_keyHash (s : State) (c : Nat) (f : Core → Core) : (onCore s c f).keyHash = s.keyHash := rfl
@[simp] theorem onCore_fwState (s : State) (c : Nat) (f : Core → Core) : (onCore s c f).fwState = s.fwState := rfl
@[simp] theorem onCore_fwAddr (s : State) (c : Nat) (f : Core → Core) : (onCore s c f).fwAddr = s.fwAddr := rfl
@[simp] theorem onCore_fwOp (s : State) (c : Nat) (f : Core → Core) : (onCore s c f).fwOp = s.fwOp := rfl
@[simp] theorem onCore_securityCounter (s : State) (c : Nat) (f : Core → Core) : (onCore s c f).securityCounter = s.securityCounter := rfl
@[simp] theorem onCore_firmware (s : State) (c : Nat) (f : Core → Core) : (onCore s c f).firmware = s.firmware := rfl
@[simp] theorem onCore_flash (s : State) (c : Nat) (f : Core → Core) : (onCore s c f).flash = s.flash := rfl
@[simp] theorem onCore_placements (s : State) (c : Nat) (f : Core → Core) : (onCore s c f).placements = s.placements := rfl
@[simp] theorem onCore_monhart (s : State) (c : Nat) (f : Core → Core) : (onCore s c f).monhart = s.monhart := rfl
@[simp] theorem onCore_newMonhart (s : State) (c : Nat) (f : Core → Core) : (onCore s c f).newMonhart = s.newMonhart := rfl
@[simp] theorem onCore_hartctlMode (s : State) (c : Nat) (f : Core → Core) : (onCore s c f).hartctlMode = s.hartctlMode := rfl
@[simp] theorem onCore_hartctlSteward (s : State) (c : Nat) (f : Core → Core) : (onCore s c f).hartctlSteward = s.hartctlSteward := rfl
@[simp] theorem onCore_hartctlNum (s : State) (c : Nat) (f : Core → Core) : (onCore s c f).hartctlNum = s.hartctlNum := rfl
@[simp] theorem onCore_hartpc (s : State) (c : Nat) (f : Core → Core) : (onCore s c f).hartpc = s.hartpc := rfl
@[simp] theorem onCore_codes (s : State) (c : Nat) (f : Core → Core) : (onCore s c f).codes = s.codes := rfl
@[simp] theorem onCore_cxlUp (s : State) (c : Nat) (f : Core → Core) : (onCore s c f).cxlUp = s.cxlUp := rfl
@[simp] theorem onCore_peers (s : State) (c : Nat) (f : Core → Core) : (onCore s c f).peers = s.peers := rfl
@[simp] theorem onCore_failedStacks (s : State) (c : Nat) (f : Core → Core) : (onCore s c f).failedStacks = s.failedStacks := rfl
@[simp] theorem onCore_term (s : State) (c : Nat) (f : Core → Core) : (onCore s c f).term = s.term := rfl
@[simp] theorem onCore_election (s : State) (c : Nat) (f : Core → Core) : (onCore s c f).election = s.election := rfl
@[simp] theorem onCore_heard (s : State) (c : Nat) (f : Core → Core) : (onCore s c f).heard = s.heard := rfl
@[simp] theorem onCore_reElections (s : State) (c : Nat) (f : Core → Core) : (onCore s c f).reElections = s.reElections := rfl
@[simp] theorem onCore_gotBlock (s : State) (c : Nat) (f : Core → Core) : (onCore s c f).gotBlock = s.gotBlock := rfl
@[simp] theorem onCore_imageWhole (s : State) (c : Nat) (f : Core → Core) : (onCore s c f).imageWhole = s.imageWhole := rfl
@[simp] theorem onCore_lastHello (s : State) (c : Nat) (f : Core → Core) : (onCore s c f).lastHello = s.lastHello := rfl
@[simp] theorem onCore_lastBlock (s : State) (c : Nat) (f : Core → Core) : (onCore s c f).lastBlock = s.lastBlock := rfl
@[simp] theorem onCore_electionStart (s : State) (c : Nat) (f : Core → Core) : (onCore s c f).electionStart = s.electionStart := rfl
@[simp] theorem onCore_hellosSent (s : State) (c : Nat) (f : Core → Core) : (onCore s c f).hellosSent = s.hellosSent := rfl
@[simp] theorem onCore_helloOut (s : State) (c : Nat) (f : Core → Core) : (onCore s c f).helloOut = s.helloOut := rfl
@[simp] theorem onCore_streamTo (s : State) (c : Nat) (f : Core → Core) : (onCore s c f).streamTo = s.streamTo := rfl
@[simp] theorem onCore_clockStopped (s : State) (c : Nat) (f : Core → Core) : (onCore s c f).clockStopped = s.clockStopped := rfl
@[simp] theorem onCore_pendingWrites (s : State) (c : Nat) (f : Core → Core) : (onCore s c f).pendingWrites = s.pendingWrites := rfl
@[simp] theorem onCore_time (s : State) (c : Nat) (f : Core → Core) : (onCore s c f).time = s.time := rfl
@[simp] theorem onCore_cur (s : State) (c : Nat) (f : Core → Core) : (onCore s c f).cur = s.cur := rfl
@[simp] theorem onCore_scan (s : State) (c : Nat) (f : Core → Core) : (onCore s c f).scan = s.scan := rfl
@[simp] theorem onCore_early (s : State) (c : Nat) (f : Core → Core) : (onCore s c f).early = s.early := rfl
@[simp] theorem onCore_inputs (s : State) (c : Nat) (f : Core → Core) : (onCore s c f).inputs = s.inputs := rfl
@[simp] theorem onCore_free (s : State) (c : Nat) (f : Core → Core) : (onCore s c f).free = s.free := rfl

/-! ### onIsland -/

@[simp] theorem onIsland_harts (s : State) (n : Nat) (f : Island → Island) : (onIsland s n f).harts = s.harts := rfl
@[simp] theorem onIsland_cores (s : State) (n : Nat) (f : Island → Island) : (onIsland s n f).cores = s.cores := rfl
@[simp] theorem onIsland_parts (s : State) (n : Nat) (f : Island → Island) : (onIsland s n f).parts = s.parts := rfl
@[simp] theorem onIsland_tags (s : State) (n : Nat) (f : Island → Island) : (onIsland s n f).tags = s.tags := rfl
@[simp] theorem onIsland_tasks (s : State) (n : Nat) (f : Island → Island) : (onIsland s n f).tasks = s.tasks := rfl
@[simp] theorem onIsland_nextUid (s : State) (n : Nat) (f : Island → Island) : (onIsland s n f).nextUid = s.nextUid := rfl
@[simp] theorem onIsland_mem (s : State) (n : Nat) (f : Island → Island) : (onIsland s n f).mem = s.mem := rfl
@[simp] theorem onIsland_caches (s : State) (n : Nat) (f : Island → Island) : (onIsland s n f).caches = s.caches := rfl
@[simp] theorem onIsland_poison (s : State) (n : Nat) (f : Island → Island) : (onIsland s n f).poison = s.poison := rfl
@[simp] theorem onIsland_lostLines (s : State) (n : Nat) (f : Island → Island) : (onIsland s n f).lostLines = s.lostLines := rfl
@[simp] theorem onIsland_freezeKind (s : State) (n : Nat) (f : Island → Island) : (onIsland s n f).freezeKind = s.freezeKind := rfl
@[simp] theorem onIsland_freezeTarget (s : State) (n : Nat) (f : Island → Island) : (onIsland s n f).freezeTarget = s.freezeTarget := rfl
@[simp] theorem onIsland_keyState (s : State) (n : Nat) (f : Island → Island) : (onIsland s n f).keyState = s.keyState := rfl
@[simp] theorem onIsland_keyAddr (s : State) (n : Nat) (f : Island → Island) : (onIsland s n f).keyAddr = s.keyAddr := rfl
@[simp] theorem onIsland_keyHash (s : State) (n : Nat) (f : Island → Island) : (onIsland s n f).keyHash = s.keyHash := rfl
@[simp] theorem onIsland_fwState (s : State) (n : Nat) (f : Island → Island) : (onIsland s n f).fwState = s.fwState := rfl
@[simp] theorem onIsland_fwAddr (s : State) (n : Nat) (f : Island → Island) : (onIsland s n f).fwAddr = s.fwAddr := rfl
@[simp] theorem onIsland_fwOp (s : State) (n : Nat) (f : Island → Island) : (onIsland s n f).fwOp = s.fwOp := rfl
@[simp] theorem onIsland_securityCounter (s : State) (n : Nat) (f : Island → Island) : (onIsland s n f).securityCounter = s.securityCounter := rfl
@[simp] theorem onIsland_firmware (s : State) (n : Nat) (f : Island → Island) : (onIsland s n f).firmware = s.firmware := rfl
@[simp] theorem onIsland_flash (s : State) (n : Nat) (f : Island → Island) : (onIsland s n f).flash = s.flash := rfl
@[simp] theorem onIsland_placements (s : State) (n : Nat) (f : Island → Island) : (onIsland s n f).placements = s.placements := rfl
@[simp] theorem onIsland_monhart (s : State) (n : Nat) (f : Island → Island) : (onIsland s n f).monhart = s.monhart := rfl
@[simp] theorem onIsland_newMonhart (s : State) (n : Nat) (f : Island → Island) : (onIsland s n f).newMonhart = s.newMonhart := rfl
@[simp] theorem onIsland_hartctlMode (s : State) (n : Nat) (f : Island → Island) : (onIsland s n f).hartctlMode = s.hartctlMode := rfl
@[simp] theorem onIsland_hartctlSteward (s : State) (n : Nat) (f : Island → Island) : (onIsland s n f).hartctlSteward = s.hartctlSteward := rfl
@[simp] theorem onIsland_hartctlNum (s : State) (n : Nat) (f : Island → Island) : (onIsland s n f).hartctlNum = s.hartctlNum := rfl
@[simp] theorem onIsland_hartpc (s : State) (n : Nat) (f : Island → Island) : (onIsland s n f).hartpc = s.hartpc := rfl
@[simp] theorem onIsland_codes (s : State) (n : Nat) (f : Island → Island) : (onIsland s n f).codes = s.codes := rfl
@[simp] theorem onIsland_cxlUp (s : State) (n : Nat) (f : Island → Island) : (onIsland s n f).cxlUp = s.cxlUp := rfl
@[simp] theorem onIsland_peers (s : State) (n : Nat) (f : Island → Island) : (onIsland s n f).peers = s.peers := rfl
@[simp] theorem onIsland_failedStacks (s : State) (n : Nat) (f : Island → Island) : (onIsland s n f).failedStacks = s.failedStacks := rfl
@[simp] theorem onIsland_term (s : State) (n : Nat) (f : Island → Island) : (onIsland s n f).term = s.term := rfl
@[simp] theorem onIsland_election (s : State) (n : Nat) (f : Island → Island) : (onIsland s n f).election = s.election := rfl
@[simp] theorem onIsland_heard (s : State) (n : Nat) (f : Island → Island) : (onIsland s n f).heard = s.heard := rfl
@[simp] theorem onIsland_reElections (s : State) (n : Nat) (f : Island → Island) : (onIsland s n f).reElections = s.reElections := rfl
@[simp] theorem onIsland_gotBlock (s : State) (n : Nat) (f : Island → Island) : (onIsland s n f).gotBlock = s.gotBlock := rfl
@[simp] theorem onIsland_imageWhole (s : State) (n : Nat) (f : Island → Island) : (onIsland s n f).imageWhole = s.imageWhole := rfl
@[simp] theorem onIsland_lastHello (s : State) (n : Nat) (f : Island → Island) : (onIsland s n f).lastHello = s.lastHello := rfl
@[simp] theorem onIsland_lastBlock (s : State) (n : Nat) (f : Island → Island) : (onIsland s n f).lastBlock = s.lastBlock := rfl
@[simp] theorem onIsland_electionStart (s : State) (n : Nat) (f : Island → Island) : (onIsland s n f).electionStart = s.electionStart := rfl
@[simp] theorem onIsland_hellosSent (s : State) (n : Nat) (f : Island → Island) : (onIsland s n f).hellosSent = s.hellosSent := rfl
@[simp] theorem onIsland_helloOut (s : State) (n : Nat) (f : Island → Island) : (onIsland s n f).helloOut = s.helloOut := rfl
@[simp] theorem onIsland_streamTo (s : State) (n : Nat) (f : Island → Island) : (onIsland s n f).streamTo = s.streamTo := rfl
@[simp] theorem onIsland_clockStopped (s : State) (n : Nat) (f : Island → Island) : (onIsland s n f).clockStopped = s.clockStopped := rfl
@[simp] theorem onIsland_pendingWrites (s : State) (n : Nat) (f : Island → Island) : (onIsland s n f).pendingWrites = s.pendingWrites := rfl
@[simp] theorem onIsland_time (s : State) (n : Nat) (f : Island → Island) : (onIsland s n f).time = s.time := rfl
@[simp] theorem onIsland_cur (s : State) (n : Nat) (f : Island → Island) : (onIsland s n f).cur = s.cur := rfl
@[simp] theorem onIsland_scan (s : State) (n : Nat) (f : Island → Island) : (onIsland s n f).scan = s.scan := rfl
@[simp] theorem onIsland_early (s : State) (n : Nat) (f : Island → Island) : (onIsland s n f).early = s.early := rfl
@[simp] theorem onIsland_inputs (s : State) (n : Nat) (f : Island → Island) : (onIsland s n f).inputs = s.inputs := rfl
@[simp] theorem onIsland_free (s : State) (n : Nat) (f : Island → Island) : (onIsland s n f).free = s.free := rfl

/-! ### onPart -/

@[simp] theorem onPart_harts (s : State) (v : Nat) (f : Part → Part) : (onPart s v f).harts = s.harts := rfl
@[simp] theorem onPart_cores (s : State) (v : Nat) (f : Part → Part) : (onPart s v f).cores = s.cores := rfl
@[simp] theorem onPart_islands (s : State) (v : Nat) (f : Part → Part) : (onPart s v f).islands = s.islands := rfl
@[simp] theorem onPart_tags (s : State) (v : Nat) (f : Part → Part) : (onPart s v f).tags = s.tags := rfl
@[simp] theorem onPart_tasks (s : State) (v : Nat) (f : Part → Part) : (onPart s v f).tasks = s.tasks := rfl
@[simp] theorem onPart_nextUid (s : State) (v : Nat) (f : Part → Part) : (onPart s v f).nextUid = s.nextUid := rfl
@[simp] theorem onPart_mem (s : State) (v : Nat) (f : Part → Part) : (onPart s v f).mem = s.mem := rfl
@[simp] theorem onPart_caches (s : State) (v : Nat) (f : Part → Part) : (onPart s v f).caches = s.caches := rfl
@[simp] theorem onPart_poison (s : State) (v : Nat) (f : Part → Part) : (onPart s v f).poison = s.poison := rfl
@[simp] theorem onPart_lostLines (s : State) (v : Nat) (f : Part → Part) : (onPart s v f).lostLines = s.lostLines := rfl
@[simp] theorem onPart_freezeKind (s : State) (v : Nat) (f : Part → Part) : (onPart s v f).freezeKind = s.freezeKind := rfl
@[simp] theorem onPart_freezeTarget (s : State) (v : Nat) (f : Part → Part) : (onPart s v f).freezeTarget = s.freezeTarget := rfl
@[simp] theorem onPart_keyState (s : State) (v : Nat) (f : Part → Part) : (onPart s v f).keyState = s.keyState := rfl
@[simp] theorem onPart_keyAddr (s : State) (v : Nat) (f : Part → Part) : (onPart s v f).keyAddr = s.keyAddr := rfl
@[simp] theorem onPart_keyHash (s : State) (v : Nat) (f : Part → Part) : (onPart s v f).keyHash = s.keyHash := rfl
@[simp] theorem onPart_fwState (s : State) (v : Nat) (f : Part → Part) : (onPart s v f).fwState = s.fwState := rfl
@[simp] theorem onPart_fwAddr (s : State) (v : Nat) (f : Part → Part) : (onPart s v f).fwAddr = s.fwAddr := rfl
@[simp] theorem onPart_fwOp (s : State) (v : Nat) (f : Part → Part) : (onPart s v f).fwOp = s.fwOp := rfl
@[simp] theorem onPart_securityCounter (s : State) (v : Nat) (f : Part → Part) : (onPart s v f).securityCounter = s.securityCounter := rfl
@[simp] theorem onPart_firmware (s : State) (v : Nat) (f : Part → Part) : (onPart s v f).firmware = s.firmware := rfl
@[simp] theorem onPart_flash (s : State) (v : Nat) (f : Part → Part) : (onPart s v f).flash = s.flash := rfl
@[simp] theorem onPart_placements (s : State) (v : Nat) (f : Part → Part) : (onPart s v f).placements = s.placements := rfl
@[simp] theorem onPart_monhart (s : State) (v : Nat) (f : Part → Part) : (onPart s v f).monhart = s.monhart := rfl
@[simp] theorem onPart_newMonhart (s : State) (v : Nat) (f : Part → Part) : (onPart s v f).newMonhart = s.newMonhart := rfl
@[simp] theorem onPart_hartctlMode (s : State) (v : Nat) (f : Part → Part) : (onPart s v f).hartctlMode = s.hartctlMode := rfl
@[simp] theorem onPart_hartctlSteward (s : State) (v : Nat) (f : Part → Part) : (onPart s v f).hartctlSteward = s.hartctlSteward := rfl
@[simp] theorem onPart_hartctlNum (s : State) (v : Nat) (f : Part → Part) : (onPart s v f).hartctlNum = s.hartctlNum := rfl
@[simp] theorem onPart_hartpc (s : State) (v : Nat) (f : Part → Part) : (onPart s v f).hartpc = s.hartpc := rfl
@[simp] theorem onPart_codes (s : State) (v : Nat) (f : Part → Part) : (onPart s v f).codes = s.codes := rfl
@[simp] theorem onPart_cxlUp (s : State) (v : Nat) (f : Part → Part) : (onPart s v f).cxlUp = s.cxlUp := rfl
@[simp] theorem onPart_peers (s : State) (v : Nat) (f : Part → Part) : (onPart s v f).peers = s.peers := rfl
@[simp] theorem onPart_failedStacks (s : State) (v : Nat) (f : Part → Part) : (onPart s v f).failedStacks = s.failedStacks := rfl
@[simp] theorem onPart_term (s : State) (v : Nat) (f : Part → Part) : (onPart s v f).term = s.term := rfl
@[simp] theorem onPart_election (s : State) (v : Nat) (f : Part → Part) : (onPart s v f).election = s.election := rfl
@[simp] theorem onPart_heard (s : State) (v : Nat) (f : Part → Part) : (onPart s v f).heard = s.heard := rfl
@[simp] theorem onPart_reElections (s : State) (v : Nat) (f : Part → Part) : (onPart s v f).reElections = s.reElections := rfl
@[simp] theorem onPart_gotBlock (s : State) (v : Nat) (f : Part → Part) : (onPart s v f).gotBlock = s.gotBlock := rfl
@[simp] theorem onPart_imageWhole (s : State) (v : Nat) (f : Part → Part) : (onPart s v f).imageWhole = s.imageWhole := rfl
@[simp] theorem onPart_lastHello (s : State) (v : Nat) (f : Part → Part) : (onPart s v f).lastHello = s.lastHello := rfl
@[simp] theorem onPart_lastBlock (s : State) (v : Nat) (f : Part → Part) : (onPart s v f).lastBlock = s.lastBlock := rfl
@[simp] theorem onPart_electionStart (s : State) (v : Nat) (f : Part → Part) : (onPart s v f).electionStart = s.electionStart := rfl
@[simp] theorem onPart_hellosSent (s : State) (v : Nat) (f : Part → Part) : (onPart s v f).hellosSent = s.hellosSent := rfl
@[simp] theorem onPart_helloOut (s : State) (v : Nat) (f : Part → Part) : (onPart s v f).helloOut = s.helloOut := rfl
@[simp] theorem onPart_streamTo (s : State) (v : Nat) (f : Part → Part) : (onPart s v f).streamTo = s.streamTo := rfl
@[simp] theorem onPart_clockStopped (s : State) (v : Nat) (f : Part → Part) : (onPart s v f).clockStopped = s.clockStopped := rfl
@[simp] theorem onPart_pendingWrites (s : State) (v : Nat) (f : Part → Part) : (onPart s v f).pendingWrites = s.pendingWrites := rfl
@[simp] theorem onPart_time (s : State) (v : Nat) (f : Part → Part) : (onPart s v f).time = s.time := rfl
@[simp] theorem onPart_cur (s : State) (v : Nat) (f : Part → Part) : (onPart s v f).cur = s.cur := rfl
@[simp] theorem onPart_scan (s : State) (v : Nat) (f : Part → Part) : (onPart s v f).scan = s.scan := rfl
@[simp] theorem onPart_early (s : State) (v : Nat) (f : Part → Part) : (onPart s v f).early = s.early := rfl
@[simp] theorem onPart_inputs (s : State) (v : Nat) (f : Part → Part) : (onPart s v f).inputs = s.inputs := rfl
@[simp] theorem onPart_free (s : State) (v : Nat) (f : Part → Part) : (onPart s v f).free = s.free := rfl

/-! ### onTask -/

@[simp] theorem onTask_harts (s : State) (u : Nat) (f : TaskEntry → TaskEntry) : (onTask s u f).harts = s.harts := rfl
@[simp] theorem onTask_cores (s : State) (u : Nat) (f : TaskEntry → TaskEntry) : (onTask s u f).cores = s.cores := rfl
@[simp] theorem onTask_islands (s : State) (u : Nat) (f : TaskEntry → TaskEntry) : (onTask s u f).islands = s.islands := rfl
@[simp] theorem onTask_parts (s : State) (u : Nat) (f : TaskEntry → TaskEntry) : (onTask s u f).parts = s.parts := rfl
@[simp] theorem onTask_tags (s : State) (u : Nat) (f : TaskEntry → TaskEntry) : (onTask s u f).tags = s.tags := rfl
@[simp] theorem onTask_nextUid (s : State) (u : Nat) (f : TaskEntry → TaskEntry) : (onTask s u f).nextUid = s.nextUid := rfl
@[simp] theorem onTask_mem (s : State) (u : Nat) (f : TaskEntry → TaskEntry) : (onTask s u f).mem = s.mem := rfl
@[simp] theorem onTask_caches (s : State) (u : Nat) (f : TaskEntry → TaskEntry) : (onTask s u f).caches = s.caches := rfl
@[simp] theorem onTask_poison (s : State) (u : Nat) (f : TaskEntry → TaskEntry) : (onTask s u f).poison = s.poison := rfl
@[simp] theorem onTask_lostLines (s : State) (u : Nat) (f : TaskEntry → TaskEntry) : (onTask s u f).lostLines = s.lostLines := rfl
@[simp] theorem onTask_freezeKind (s : State) (u : Nat) (f : TaskEntry → TaskEntry) : (onTask s u f).freezeKind = s.freezeKind := rfl
@[simp] theorem onTask_freezeTarget (s : State) (u : Nat) (f : TaskEntry → TaskEntry) : (onTask s u f).freezeTarget = s.freezeTarget := rfl
@[simp] theorem onTask_keyState (s : State) (u : Nat) (f : TaskEntry → TaskEntry) : (onTask s u f).keyState = s.keyState := rfl
@[simp] theorem onTask_keyAddr (s : State) (u : Nat) (f : TaskEntry → TaskEntry) : (onTask s u f).keyAddr = s.keyAddr := rfl
@[simp] theorem onTask_keyHash (s : State) (u : Nat) (f : TaskEntry → TaskEntry) : (onTask s u f).keyHash = s.keyHash := rfl
@[simp] theorem onTask_fwState (s : State) (u : Nat) (f : TaskEntry → TaskEntry) : (onTask s u f).fwState = s.fwState := rfl
@[simp] theorem onTask_fwAddr (s : State) (u : Nat) (f : TaskEntry → TaskEntry) : (onTask s u f).fwAddr = s.fwAddr := rfl
@[simp] theorem onTask_fwOp (s : State) (u : Nat) (f : TaskEntry → TaskEntry) : (onTask s u f).fwOp = s.fwOp := rfl
@[simp] theorem onTask_securityCounter (s : State) (u : Nat) (f : TaskEntry → TaskEntry) : (onTask s u f).securityCounter = s.securityCounter := rfl
@[simp] theorem onTask_firmware (s : State) (u : Nat) (f : TaskEntry → TaskEntry) : (onTask s u f).firmware = s.firmware := rfl
@[simp] theorem onTask_flash (s : State) (u : Nat) (f : TaskEntry → TaskEntry) : (onTask s u f).flash = s.flash := rfl
@[simp] theorem onTask_placements (s : State) (u : Nat) (f : TaskEntry → TaskEntry) : (onTask s u f).placements = s.placements := rfl
@[simp] theorem onTask_monhart (s : State) (u : Nat) (f : TaskEntry → TaskEntry) : (onTask s u f).monhart = s.monhart := rfl
@[simp] theorem onTask_newMonhart (s : State) (u : Nat) (f : TaskEntry → TaskEntry) : (onTask s u f).newMonhart = s.newMonhart := rfl
@[simp] theorem onTask_hartctlMode (s : State) (u : Nat) (f : TaskEntry → TaskEntry) : (onTask s u f).hartctlMode = s.hartctlMode := rfl
@[simp] theorem onTask_hartctlSteward (s : State) (u : Nat) (f : TaskEntry → TaskEntry) : (onTask s u f).hartctlSteward = s.hartctlSteward := rfl
@[simp] theorem onTask_hartctlNum (s : State) (u : Nat) (f : TaskEntry → TaskEntry) : (onTask s u f).hartctlNum = s.hartctlNum := rfl
@[simp] theorem onTask_hartpc (s : State) (u : Nat) (f : TaskEntry → TaskEntry) : (onTask s u f).hartpc = s.hartpc := rfl
@[simp] theorem onTask_codes (s : State) (u : Nat) (f : TaskEntry → TaskEntry) : (onTask s u f).codes = s.codes := rfl
@[simp] theorem onTask_cxlUp (s : State) (u : Nat) (f : TaskEntry → TaskEntry) : (onTask s u f).cxlUp = s.cxlUp := rfl
@[simp] theorem onTask_peers (s : State) (u : Nat) (f : TaskEntry → TaskEntry) : (onTask s u f).peers = s.peers := rfl
@[simp] theorem onTask_failedStacks (s : State) (u : Nat) (f : TaskEntry → TaskEntry) : (onTask s u f).failedStacks = s.failedStacks := rfl
@[simp] theorem onTask_term (s : State) (u : Nat) (f : TaskEntry → TaskEntry) : (onTask s u f).term = s.term := rfl
@[simp] theorem onTask_election (s : State) (u : Nat) (f : TaskEntry → TaskEntry) : (onTask s u f).election = s.election := rfl
@[simp] theorem onTask_heard (s : State) (u : Nat) (f : TaskEntry → TaskEntry) : (onTask s u f).heard = s.heard := rfl
@[simp] theorem onTask_reElections (s : State) (u : Nat) (f : TaskEntry → TaskEntry) : (onTask s u f).reElections = s.reElections := rfl
@[simp] theorem onTask_gotBlock (s : State) (u : Nat) (f : TaskEntry → TaskEntry) : (onTask s u f).gotBlock = s.gotBlock := rfl
@[simp] theorem onTask_imageWhole (s : State) (u : Nat) (f : TaskEntry → TaskEntry) : (onTask s u f).imageWhole = s.imageWhole := rfl
@[simp] theorem onTask_lastHello (s : State) (u : Nat) (f : TaskEntry → TaskEntry) : (onTask s u f).lastHello = s.lastHello := rfl
@[simp] theorem onTask_lastBlock (s : State) (u : Nat) (f : TaskEntry → TaskEntry) : (onTask s u f).lastBlock = s.lastBlock := rfl
@[simp] theorem onTask_electionStart (s : State) (u : Nat) (f : TaskEntry → TaskEntry) : (onTask s u f).electionStart = s.electionStart := rfl
@[simp] theorem onTask_hellosSent (s : State) (u : Nat) (f : TaskEntry → TaskEntry) : (onTask s u f).hellosSent = s.hellosSent := rfl
@[simp] theorem onTask_helloOut (s : State) (u : Nat) (f : TaskEntry → TaskEntry) : (onTask s u f).helloOut = s.helloOut := rfl
@[simp] theorem onTask_streamTo (s : State) (u : Nat) (f : TaskEntry → TaskEntry) : (onTask s u f).streamTo = s.streamTo := rfl
@[simp] theorem onTask_clockStopped (s : State) (u : Nat) (f : TaskEntry → TaskEntry) : (onTask s u f).clockStopped = s.clockStopped := rfl
@[simp] theorem onTask_pendingWrites (s : State) (u : Nat) (f : TaskEntry → TaskEntry) : (onTask s u f).pendingWrites = s.pendingWrites := rfl
@[simp] theorem onTask_time (s : State) (u : Nat) (f : TaskEntry → TaskEntry) : (onTask s u f).time = s.time := rfl
@[simp] theorem onTask_cur (s : State) (u : Nat) (f : TaskEntry → TaskEntry) : (onTask s u f).cur = s.cur := rfl
@[simp] theorem onTask_scan (s : State) (u : Nat) (f : TaskEntry → TaskEntry) : (onTask s u f).scan = s.scan := rfl
@[simp] theorem onTask_early (s : State) (u : Nat) (f : TaskEntry → TaskEntry) : (onTask s u f).early = s.early := rfl
@[simp] theorem onTask_inputs (s : State) (u : Nat) (f : TaskEntry → TaskEntry) : (onTask s u f).inputs = s.inputs := rfl
@[simp] theorem onTask_free (s : State) (u : Nat) (f : TaskEntry → TaskEntry) : (onTask s u f).free = s.free := rfl

/-! ### onMe -/

@[simp] theorem onMe_cores (s : State) (f : Hart → Hart) : (onMe s f).cores = s.cores := rfl
@[simp] theorem onMe_islands (s : State) (f : Hart → Hart) : (onMe s f).islands = s.islands := rfl
@[simp] theorem onMe_parts (s : State) (f : Hart → Hart) : (onMe s f).parts = s.parts := rfl
@[simp] theorem onMe_tags (s : State) (f : Hart → Hart) : (onMe s f).tags = s.tags := rfl
@[simp] theorem onMe_tasks (s : State) (f : Hart → Hart) : (onMe s f).tasks = s.tasks := rfl
@[simp] theorem onMe_nextUid (s : State) (f : Hart → Hart) : (onMe s f).nextUid = s.nextUid := rfl
@[simp] theorem onMe_mem (s : State) (f : Hart → Hart) : (onMe s f).mem = s.mem := rfl
@[simp] theorem onMe_caches (s : State) (f : Hart → Hart) : (onMe s f).caches = s.caches := rfl
@[simp] theorem onMe_poison (s : State) (f : Hart → Hart) : (onMe s f).poison = s.poison := rfl
@[simp] theorem onMe_lostLines (s : State) (f : Hart → Hart) : (onMe s f).lostLines = s.lostLines := rfl
@[simp] theorem onMe_freezeKind (s : State) (f : Hart → Hart) : (onMe s f).freezeKind = s.freezeKind := rfl
@[simp] theorem onMe_freezeTarget (s : State) (f : Hart → Hart) : (onMe s f).freezeTarget = s.freezeTarget := rfl
@[simp] theorem onMe_keyState (s : State) (f : Hart → Hart) : (onMe s f).keyState = s.keyState := rfl
@[simp] theorem onMe_keyAddr (s : State) (f : Hart → Hart) : (onMe s f).keyAddr = s.keyAddr := rfl
@[simp] theorem onMe_keyHash (s : State) (f : Hart → Hart) : (onMe s f).keyHash = s.keyHash := rfl
@[simp] theorem onMe_fwState (s : State) (f : Hart → Hart) : (onMe s f).fwState = s.fwState := rfl
@[simp] theorem onMe_fwAddr (s : State) (f : Hart → Hart) : (onMe s f).fwAddr = s.fwAddr := rfl
@[simp] theorem onMe_fwOp (s : State) (f : Hart → Hart) : (onMe s f).fwOp = s.fwOp := rfl
@[simp] theorem onMe_securityCounter (s : State) (f : Hart → Hart) : (onMe s f).securityCounter = s.securityCounter := rfl
@[simp] theorem onMe_firmware (s : State) (f : Hart → Hart) : (onMe s f).firmware = s.firmware := rfl
@[simp] theorem onMe_flash (s : State) (f : Hart → Hart) : (onMe s f).flash = s.flash := rfl
@[simp] theorem onMe_placements (s : State) (f : Hart → Hart) : (onMe s f).placements = s.placements := rfl
@[simp] theorem onMe_monhart (s : State) (f : Hart → Hart) : (onMe s f).monhart = s.monhart := rfl
@[simp] theorem onMe_newMonhart (s : State) (f : Hart → Hart) : (onMe s f).newMonhart = s.newMonhart := rfl
@[simp] theorem onMe_hartctlMode (s : State) (f : Hart → Hart) : (onMe s f).hartctlMode = s.hartctlMode := rfl
@[simp] theorem onMe_hartctlSteward (s : State) (f : Hart → Hart) : (onMe s f).hartctlSteward = s.hartctlSteward := rfl
@[simp] theorem onMe_hartctlNum (s : State) (f : Hart → Hart) : (onMe s f).hartctlNum = s.hartctlNum := rfl
@[simp] theorem onMe_hartpc (s : State) (f : Hart → Hart) : (onMe s f).hartpc = s.hartpc := rfl
@[simp] theorem onMe_codes (s : State) (f : Hart → Hart) : (onMe s f).codes = s.codes := rfl
@[simp] theorem onMe_cxlUp (s : State) (f : Hart → Hart) : (onMe s f).cxlUp = s.cxlUp := rfl
@[simp] theorem onMe_peers (s : State) (f : Hart → Hart) : (onMe s f).peers = s.peers := rfl
@[simp] theorem onMe_failedStacks (s : State) (f : Hart → Hart) : (onMe s f).failedStacks = s.failedStacks := rfl
@[simp] theorem onMe_term (s : State) (f : Hart → Hart) : (onMe s f).term = s.term := rfl
@[simp] theorem onMe_election (s : State) (f : Hart → Hart) : (onMe s f).election = s.election := rfl
@[simp] theorem onMe_heard (s : State) (f : Hart → Hart) : (onMe s f).heard = s.heard := rfl
@[simp] theorem onMe_reElections (s : State) (f : Hart → Hart) : (onMe s f).reElections = s.reElections := rfl
@[simp] theorem onMe_gotBlock (s : State) (f : Hart → Hart) : (onMe s f).gotBlock = s.gotBlock := rfl
@[simp] theorem onMe_imageWhole (s : State) (f : Hart → Hart) : (onMe s f).imageWhole = s.imageWhole := rfl
@[simp] theorem onMe_lastHello (s : State) (f : Hart → Hart) : (onMe s f).lastHello = s.lastHello := rfl
@[simp] theorem onMe_lastBlock (s : State) (f : Hart → Hart) : (onMe s f).lastBlock = s.lastBlock := rfl
@[simp] theorem onMe_electionStart (s : State) (f : Hart → Hart) : (onMe s f).electionStart = s.electionStart := rfl
@[simp] theorem onMe_hellosSent (s : State) (f : Hart → Hart) : (onMe s f).hellosSent = s.hellosSent := rfl
@[simp] theorem onMe_helloOut (s : State) (f : Hart → Hart) : (onMe s f).helloOut = s.helloOut := rfl
@[simp] theorem onMe_streamTo (s : State) (f : Hart → Hart) : (onMe s f).streamTo = s.streamTo := rfl
@[simp] theorem onMe_clockStopped (s : State) (f : Hart → Hart) : (onMe s f).clockStopped = s.clockStopped := rfl
@[simp] theorem onMe_pendingWrites (s : State) (f : Hart → Hart) : (onMe s f).pendingWrites = s.pendingWrites := rfl
@[simp] theorem onMe_time (s : State) (f : Hart → Hart) : (onMe s f).time = s.time := rfl
@[simp] theorem onMe_cur (s : State) (f : Hart → Hart) : (onMe s f).cur = s.cur := rfl
@[simp] theorem onMe_scan (s : State) (f : Hart → Hart) : (onMe s f).scan = s.scan := rfl
@[simp] theorem onMe_early (s : State) (f : Hart → Hart) : (onMe s f).early = s.early := rfl
@[simp] theorem onMe_inputs (s : State) (f : Hart → Hart) : (onMe s f).inputs = s.inputs := rfl
@[simp] theorem onMe_free (s : State) (f : Hart → Hart) : (onMe s f).free = s.free := rfl

/-! ### setF -/

@[simp] theorem setF_x (h : Hart) (r : Reg) (v : Word) : (setF h r v).x = h.x := rfl
@[simp] theorem setF_pc (h : Hart) (r : Reg) (v : Word) : (setF h r v).pc = h.pc := rfl
@[simp] theorem setF_mode (h : Hart) (r : Reg) (v : Word) : (setF h r v).mode = h.mode := rfl
@[simp] theorem setF_started (h : Hart) (r : Reg) (v : Word) : (setF h r v).started = h.started := rfl
@[simp] theorem setF_stopped (h : Hart) (r : Reg) (v : Word) : (setF h r v).stopped = h.stopped := rfl
@[simp] theorem setF_wait (h : Hart) (r : Reg) (v : Word) : (setF h r v).wait = h.wait := rfl
@[simp] theorem setF_freeze (h : Hart) (r : Reg) (v : Word) : (setF h r v).freeze = h.freeze := rfl
@[simp] theorem setF_vl (h : Hart) (r : Reg) (v : Word) : (setF h r v).vl = h.vl := rfl
@[simp] theorem setF_vstart (h : Hart) (r : Reg) (v : Word) : (setF h r v).vstart = h.vstart := rfl
@[simp] theorem setF_vlmax (h : Hart) (r : Reg) (v : Word) : (setF h r v).vlmax = h.vlmax := rfl
@[simp] theorem setF_vlSeq (h : Hart) (r : Reg) (v : Word) : (setF h r v).vlSeq = h.vlSeq := rfl
@[simp] theorem setF_lanes (h : Hart) (r : Reg) (v : Word) : (setF h r v).lanes = h.lanes := rfl
@[simp] theorem setF_regs (h : Hart) (r : Reg) (v : Word) : (setF h r v).regs = h.regs := rfl
@[simp] theorem setF_ew (h : Hart) (r : Reg) (v : Word) : (setF h r v).ew = h.ew := rfl
@[simp] theorem setF_flags (h : Hart) (r : Reg) (v : Word) : (setF h r v).flags = h.flags := rfl
@[simp] theorem setF_rm (h : Hart) (r : Reg) (v : Word) : (setF h r v).rm = h.rm := rfl
@[simp] theorem setF_nbv (h : Hart) (r : Reg) (v : Word) : (setF h r v).nbv = h.nbv := rfl
@[simp] theorem setF_srseed (h : Hart) (r : Reg) (v : Word) : (setF h r v).srseed = h.srseed := rfl
@[simp] theorem setF_seedSeq (h : Hart) (r : Reg) (v : Word) : (setF h r v).seedSeq = h.seedSeq := rfl
@[simp] theorem setF_lc (h : Hart) (r : Reg) (v : Word) : (setF h r v).lc = h.lc := rfl
@[simp] theorem setF_loops (h : Hart) (r : Reg) (v : Word) : (setF h r v).loops = h.loops := rfl
@[simp] theorem setF_body (h : Hart) (r : Reg) (v : Word) : (setF h r v).body = h.body := rfl
@[simp] theorem setF_instret (h : Hart) (r : Reg) (v : Word) : (setF h r v).instret = h.instret := rfl
@[simp] theorem setF_tmode (h : Hart) (r : Reg) (v : Word) : (setF h r v).tmode = h.tmode := rfl
@[simp] theorem setF_dom (h : Hart) (r : Reg) (v : Word) : (setF h r v).dom = h.dom := rfl
@[simp] theorem setF_cfrid (h : Hart) (r : Reg) (v : Word) : (setF h r v).cfrid = h.cfrid := rfl
@[simp] theorem setF_enter (h : Hart) (r : Reg) (v : Word) : (setF h r v).enter = h.enter := rfl
@[simp] theorem setF_task (h : Hart) (r : Reg) (v : Word) : (setF h r v).task = h.task := rfl
@[simp] theorem setF_aside (h : Hart) (r : Reg) (v : Word) : (setF h r v).aside = h.aside := rfl
@[simp] theorem setF_late (h : Hart) (r : Reg) (v : Word) : (setF h r v).late = h.late := rfl
@[simp] theorem setF_ms (h : Hart) (r : Reg) (v : Word) : (setF h r v).ms = h.ms := rfl
@[simp] theorem setF_vs (h : Hart) (r : Reg) (v : Word) : (setF h r v).vs = h.vs := rfl
@[simp] theorem setF_pmode (h : Hart) (r : Reg) (v : Word) : (setF h r v).pmode = h.pmode := rfl
@[simp] theorem setF_pie (h : Hart) (r : Reg) (v : Word) : (setF h r v).pie = h.pie := rfl
@[simp] theorem setF_ie (h : Hart) (r : Reg) (v : Word) : (setF h r v).ie = h.ie := rfl
@[simp] theorem setF_tvec (h : Hart) (r : Reg) (v : Word) : (setF h r v).tvec = h.tvec := rfl
@[simp] theorem setF_epc (h : Hart) (r : Reg) (v : Word) : (setF h r v).epc = h.epc := rfl
@[simp] theorem setF_causeCode (h : Hart) (r : Reg) (v : Word) : (setF h r v).causeCode = h.causeCode := rfl
@[simp] theorem setF_causeOrig (h : Hart) (r : Reg) (v : Word) : (setF h r v).causeOrig = h.causeOrig := rfl
@[simp] theorem setF_tval (h : Hart) (r : Reg) (v : Word) : (setF h r v).tval = h.tval := rfl
@[simp] theorem setF_vepc (h : Hart) (r : Reg) (v : Word) : (setF h r v).vepc = h.vepc := rfl
@[simp] theorem setF_scratch (h : Hart) (r : Reg) (v : Word) : (setF h r v).scratch = h.scratch := rfl
@[simp] theorem setF_ptbase (h : Hart) (r : Reg) (v : Word) : (setF h r v).ptbase = h.ptbase := rfl
@[simp] theorem setF_gang (h : Hart) (r : Reg) (v : Word) : (setF h r v).gang = h.gang := rfl
@[simp] theorem setF_prio (h : Hart) (r : Reg) (v : Word) : (setF h r v).prio = h.prio := rfl
@[simp] theorem setF_mon (h : Hart) (r : Reg) (v : Word) : (setF h r v).mon = h.mon := rfl
@[simp] theorem setF_groups (h : Hart) (r : Reg) (v : Word) : (setF h r v).groups = h.groups := rfl
@[simp] theorem setF_ipend (h : Hart) (r : Reg) (v : Word) : (setF h r v).ipend = h.ipend := rfl
@[simp] theorem setF_imask (h : Hart) (r : Reg) (v : Word) : (setF h r v).imask = h.imask := rfl
@[simp] theorem setF_timecmp (h : Hart) (r : Reg) (v : Word) : (setF h r v).timecmp = h.timecmp := rfl
@[simp] theorem setF_inbox0 (h : Hart) (r : Reg) (v : Word) : (setF h r v).inbox0 = h.inbox0 := rfl
@[simp] theorem setF_inbox1 (h : Hart) (r : Reg) (v : Word) : (setF h r v).inbox1 = h.inbox1 := rfl
@[simp] theorem setF_arrived (h : Hart) (r : Reg) (v : Word) : (setF h r v).arrived = h.arrived := rfl
@[simp] theorem setF_barrierCount (h : Hart) (r : Reg) (v : Word) : (setF h r v).barrierCount = h.barrierCount := rfl
@[simp] theorem setF_failed (h : Hart) (r : Reg) (v : Word) : (setF h r v).failed = h.failed := rfl
@[simp] theorem setF_seeded (h : Hart) (r : Reg) (v : Word) : (setF h r v).seeded = h.seeded := rfl
@[simp] theorem setF_preemptReq (h : Hart) (r : Reg) (v : Word) : (setF h r v).preemptReq = h.preemptReq := rfl
@[simp] theorem setF_stopReq (h : Hart) (r : Reg) (v : Word) : (setF h r v).stopReq = h.stopReq := rfl
@[simp] theorem setF_boundaryTrap (h : Hart) (r : Reg) (v : Word) : (setF h r v).boundaryTrap = h.boundaryTrap := rfl
@[simp] theorem setF_lateFault (h : Hart) (r : Reg) (v : Word) : (setF h r v).lateFault = h.lateFault := rfl
@[simp] theorem setF_passed (h : Hart) (r : Reg) (v : Word) : (setF h r v).passed = h.passed := rfl
@[simp] theorem setF_preempted (h : Hart) (r : Reg) (v : Word) : (setF h r v).preempted = h.preempted := rfl
@[simp] theorem setF_exitAsked (h : Hart) (r : Reg) (v : Word) : (setF h r v).exitAsked = h.exitAsked := rfl
@[simp] theorem setF_v (h : Hart) (r : Reg) (v : Word) : (setF h r v).v = h.v := rfl
@[simp] theorem setF_k (h : Hart) (r : Reg) (v : Word) : (setF h r v).k = h.k := rfl
@[simp] theorem setF_vq (h : Hart) (r : Reg) (v : Word) : (setF h r v).vq = h.vq := rfl
@[simp] theorem setF_flight (h : Hart) (r : Reg) (v : Word) : (setF h r v).flight = h.flight := rfl
@[simp] theorem setF_lastDrain (h : Hart) (r : Reg) (v : Word) : (setF h r v).lastDrain = h.lastDrain := rfl
@[simp] theorem setF_sdest (h : Hart) (r : Reg) (v : Word) : (setF h r v).sdest = h.sdest := rfl
@[simp] theorem setF_heldConvoy (h : Hart) (r : Reg) (v : Word) : (setF h r v).heldConvoy = h.heldConvoy := rfl
@[simp] theorem setF_heldAdvance (h : Hart) (r : Reg) (v : Word) : (setF h r v).heldAdvance = h.heldAdvance := rfl
@[simp] theorem setF_mq (h : Hart) (r : Reg) (v : Word) : (setF h r v).mq = h.mq := rfl
@[simp] theorem setF_queued (h : Hart) (r : Reg) (v : Word) : (setF h r v).queued = h.queued := rfl
@[simp] theorem setF_vvFence (h : Hart) (r : Reg) (v : Word) : (setF h r v).vvFence = h.vvFence := rfl
@[simp] theorem setF_castMask (h : Hart) (r : Reg) (v : Word) : (setF h r v).castMask = h.castMask := rfl
@[simp] theorem setF_badX (h : Hart) (r : Reg) (v : Word) : (setF h r v).badX = h.badX := rfl
@[simp] theorem setF_badF (h : Hart) (r : Reg) (v : Word) : (setF h r v).badF = h.badF := rfl
@[simp] theorem setF_badV (h : Hart) (r : Reg) (v : Word) : (setF h r v).badV = h.badV := rfl

/-! ### retireHart -/

@[simp] theorem retireHart_x (n : Nat) (h : Hart) : (retireHart n h).x = h.x := rfl
@[simp] theorem retireHart_f (n : Nat) (h : Hart) : (retireHart n h).f = h.f := rfl
@[simp] theorem retireHart_mode (n : Nat) (h : Hart) : (retireHart n h).mode = h.mode := rfl
@[simp] theorem retireHart_started (n : Nat) (h : Hart) : (retireHart n h).started = h.started := rfl
@[simp] theorem retireHart_stopped (n : Nat) (h : Hart) : (retireHart n h).stopped = h.stopped := rfl
@[simp] theorem retireHart_freeze (n : Nat) (h : Hart) : (retireHart n h).freeze = h.freeze := rfl
@[simp] theorem retireHart_vl (n : Nat) (h : Hart) : (retireHart n h).vl = h.vl := rfl
@[simp] theorem retireHart_vstart (n : Nat) (h : Hart) : (retireHart n h).vstart = h.vstart := rfl
@[simp] theorem retireHart_vlmax (n : Nat) (h : Hart) : (retireHart n h).vlmax = h.vlmax := rfl
@[simp] theorem retireHart_vlSeq (n : Nat) (h : Hart) : (retireHart n h).vlSeq = h.vlSeq := rfl
@[simp] theorem retireHart_lanes (n : Nat) (h : Hart) : (retireHart n h).lanes = h.lanes := rfl
@[simp] theorem retireHart_regs (n : Nat) (h : Hart) : (retireHart n h).regs = h.regs := rfl
@[simp] theorem retireHart_ew (n : Nat) (h : Hart) : (retireHart n h).ew = h.ew := rfl
@[simp] theorem retireHart_flags (n : Nat) (h : Hart) : (retireHart n h).flags = h.flags := rfl
@[simp] theorem retireHart_rm (n : Nat) (h : Hart) : (retireHart n h).rm = h.rm := rfl
@[simp] theorem retireHart_nbv (n : Nat) (h : Hart) : (retireHart n h).nbv = h.nbv := rfl
@[simp] theorem retireHart_srseed (n : Nat) (h : Hart) : (retireHart n h).srseed = h.srseed := rfl
@[simp] theorem retireHart_seedSeq (n : Nat) (h : Hart) : (retireHart n h).seedSeq = h.seedSeq := rfl
@[simp] theorem retireHart_lc (n : Nat) (h : Hart) : (retireHart n h).lc = h.lc := rfl
@[simp] theorem retireHart_loops (n : Nat) (h : Hart) : (retireHart n h).loops = h.loops := rfl
@[simp] theorem retireHart_body (n : Nat) (h : Hart) : (retireHart n h).body = h.body := rfl
@[simp] theorem retireHart_tmode (n : Nat) (h : Hart) : (retireHart n h).tmode = h.tmode := rfl
@[simp] theorem retireHart_dom (n : Nat) (h : Hart) : (retireHart n h).dom = h.dom := rfl
@[simp] theorem retireHart_cfrid (n : Nat) (h : Hart) : (retireHart n h).cfrid = h.cfrid := rfl
@[simp] theorem retireHart_enter (n : Nat) (h : Hart) : (retireHart n h).enter = h.enter := rfl
@[simp] theorem retireHart_task (n : Nat) (h : Hart) : (retireHart n h).task = h.task := rfl
@[simp] theorem retireHart_aside (n : Nat) (h : Hart) : (retireHart n h).aside = h.aside := rfl
@[simp] theorem retireHart_late (n : Nat) (h : Hart) : (retireHart n h).late = h.late := rfl
@[simp] theorem retireHart_ms (n : Nat) (h : Hart) : (retireHart n h).ms = h.ms := rfl
@[simp] theorem retireHart_vs (n : Nat) (h : Hart) : (retireHart n h).vs = h.vs := rfl
@[simp] theorem retireHart_pmode (n : Nat) (h : Hart) : (retireHart n h).pmode = h.pmode := rfl
@[simp] theorem retireHart_pie (n : Nat) (h : Hart) : (retireHart n h).pie = h.pie := rfl
@[simp] theorem retireHart_ie (n : Nat) (h : Hart) : (retireHart n h).ie = h.ie := rfl
@[simp] theorem retireHart_tvec (n : Nat) (h : Hart) : (retireHart n h).tvec = h.tvec := rfl
@[simp] theorem retireHart_epc (n : Nat) (h : Hart) : (retireHart n h).epc = h.epc := rfl
@[simp] theorem retireHart_causeCode (n : Nat) (h : Hart) : (retireHart n h).causeCode = h.causeCode := rfl
@[simp] theorem retireHart_causeOrig (n : Nat) (h : Hart) : (retireHart n h).causeOrig = h.causeOrig := rfl
@[simp] theorem retireHart_tval (n : Nat) (h : Hart) : (retireHart n h).tval = h.tval := rfl
@[simp] theorem retireHart_vepc (n : Nat) (h : Hart) : (retireHart n h).vepc = h.vepc := rfl
@[simp] theorem retireHart_scratch (n : Nat) (h : Hart) : (retireHart n h).scratch = h.scratch := rfl
@[simp] theorem retireHart_ptbase (n : Nat) (h : Hart) : (retireHart n h).ptbase = h.ptbase := rfl
@[simp] theorem retireHart_gang (n : Nat) (h : Hart) : (retireHart n h).gang = h.gang := rfl
@[simp] theorem retireHart_prio (n : Nat) (h : Hart) : (retireHart n h).prio = h.prio := rfl
@[simp] theorem retireHart_mon (n : Nat) (h : Hart) : (retireHart n h).mon = h.mon := rfl
@[simp] theorem retireHart_groups (n : Nat) (h : Hart) : (retireHart n h).groups = h.groups := rfl
@[simp] theorem retireHart_ipend (n : Nat) (h : Hart) : (retireHart n h).ipend = h.ipend := rfl
@[simp] theorem retireHart_imask (n : Nat) (h : Hart) : (retireHart n h).imask = h.imask := rfl
@[simp] theorem retireHart_timecmp (n : Nat) (h : Hart) : (retireHart n h).timecmp = h.timecmp := rfl
@[simp] theorem retireHart_inbox0 (n : Nat) (h : Hart) : (retireHart n h).inbox0 = h.inbox0 := rfl
@[simp] theorem retireHart_inbox1 (n : Nat) (h : Hart) : (retireHart n h).inbox1 = h.inbox1 := rfl
@[simp] theorem retireHart_arrived (n : Nat) (h : Hart) : (retireHart n h).arrived = h.arrived := rfl
@[simp] theorem retireHart_barrierCount (n : Nat) (h : Hart) : (retireHart n h).barrierCount = h.barrierCount := rfl
@[simp] theorem retireHart_failed (n : Nat) (h : Hart) : (retireHart n h).failed = h.failed := rfl
@[simp] theorem retireHart_seeded (n : Nat) (h : Hart) : (retireHart n h).seeded = h.seeded := rfl
@[simp] theorem retireHart_preemptReq (n : Nat) (h : Hart) : (retireHart n h).preemptReq = h.preemptReq := rfl
@[simp] theorem retireHart_stopReq (n : Nat) (h : Hart) : (retireHart n h).stopReq = h.stopReq := rfl
@[simp] theorem retireHart_boundaryTrap (n : Nat) (h : Hart) : (retireHart n h).boundaryTrap = h.boundaryTrap := rfl
@[simp] theorem retireHart_lateFault (n : Nat) (h : Hart) : (retireHart n h).lateFault = h.lateFault := rfl
@[simp] theorem retireHart_passed (n : Nat) (h : Hart) : (retireHart n h).passed = h.passed := rfl
@[simp] theorem retireHart_preempted (n : Nat) (h : Hart) : (retireHart n h).preempted = h.preempted := rfl
@[simp] theorem retireHart_exitAsked (n : Nat) (h : Hart) : (retireHart n h).exitAsked = h.exitAsked := rfl
@[simp] theorem retireHart_v (n : Nat) (h : Hart) : (retireHart n h).v = h.v := rfl
@[simp] theorem retireHart_k (n : Nat) (h : Hart) : (retireHart n h).k = h.k := rfl
@[simp] theorem retireHart_vq (n : Nat) (h : Hart) : (retireHart n h).vq = h.vq := rfl
@[simp] theorem retireHart_flight (n : Nat) (h : Hart) : (retireHart n h).flight = h.flight := rfl
@[simp] theorem retireHart_lastDrain (n : Nat) (h : Hart) : (retireHart n h).lastDrain = h.lastDrain := rfl
@[simp] theorem retireHart_sdest (n : Nat) (h : Hart) : (retireHart n h).sdest = h.sdest := rfl
@[simp] theorem retireHart_heldConvoy (n : Nat) (h : Hart) : (retireHart n h).heldConvoy = h.heldConvoy := rfl
@[simp] theorem retireHart_heldAdvance (n : Nat) (h : Hart) : (retireHart n h).heldAdvance = h.heldAdvance := rfl
@[simp] theorem retireHart_mq (n : Nat) (h : Hart) : (retireHart n h).mq = h.mq := rfl
@[simp] theorem retireHart_queued (n : Nat) (h : Hart) : (retireHart n h).queued = h.queued := rfl
@[simp] theorem retireHart_vvFence (n : Nat) (h : Hart) : (retireHart n h).vvFence = h.vvFence := rfl
@[simp] theorem retireHart_castMask (n : Nat) (h : Hart) : (retireHart n h).castMask = h.castMask := rfl
@[simp] theorem retireHart_badX (n : Nat) (h : Hart) : (retireHart n h).badX = h.badX := rfl
@[simp] theorem retireHart_badF (n : Nat) (h : Hart) : (retireHart n h).badF = h.badF := rfl
@[simp] theorem retireHart_badV (n : Nat) (h : Hart) : (retireHart n h).badV = h.badV := rfl

/-! ### setX -/

@[simp] theorem setX_f (h : Hart) (r : Reg) (v : Word) : (setX h r v).f = h.f := by unfold setX; split <;> rfl
@[simp] theorem setX_pc (h : Hart) (r : Reg) (v : Word) : (setX h r v).pc = h.pc := by unfold setX; split <;> rfl
@[simp] theorem setX_mode (h : Hart) (r : Reg) (v : Word) : (setX h r v).mode = h.mode := by unfold setX; split <;> rfl
@[simp] theorem setX_started (h : Hart) (r : Reg) (v : Word) : (setX h r v).started = h.started := by unfold setX; split <;> rfl
@[simp] theorem setX_stopped (h : Hart) (r : Reg) (v : Word) : (setX h r v).stopped = h.stopped := by unfold setX; split <;> rfl
@[simp] theorem setX_wait (h : Hart) (r : Reg) (v : Word) : (setX h r v).wait = h.wait := by unfold setX; split <;> rfl
@[simp] theorem setX_freeze (h : Hart) (r : Reg) (v : Word) : (setX h r v).freeze = h.freeze := by unfold setX; split <;> rfl
@[simp] theorem setX_vl (h : Hart) (r : Reg) (v : Word) : (setX h r v).vl = h.vl := by unfold setX; split <;> rfl
@[simp] theorem setX_vstart (h : Hart) (r : Reg) (v : Word) : (setX h r v).vstart = h.vstart := by unfold setX; split <;> rfl
@[simp] theorem setX_vlmax (h : Hart) (r : Reg) (v : Word) : (setX h r v).vlmax = h.vlmax := by unfold setX; split <;> rfl
@[simp] theorem setX_vlSeq (h : Hart) (r : Reg) (v : Word) : (setX h r v).vlSeq = h.vlSeq := by unfold setX; split <;> rfl
@[simp] theorem setX_lanes (h : Hart) (r : Reg) (v : Word) : (setX h r v).lanes = h.lanes := by unfold setX; split <;> rfl
@[simp] theorem setX_regs (h : Hart) (r : Reg) (v : Word) : (setX h r v).regs = h.regs := by unfold setX; split <;> rfl
@[simp] theorem setX_ew (h : Hart) (r : Reg) (v : Word) : (setX h r v).ew = h.ew := by unfold setX; split <;> rfl
@[simp] theorem setX_flags (h : Hart) (r : Reg) (v : Word) : (setX h r v).flags = h.flags := by unfold setX; split <;> rfl
@[simp] theorem setX_rm (h : Hart) (r : Reg) (v : Word) : (setX h r v).rm = h.rm := by unfold setX; split <;> rfl
@[simp] theorem setX_nbv (h : Hart) (r : Reg) (v : Word) : (setX h r v).nbv = h.nbv := by unfold setX; split <;> rfl
@[simp] theorem setX_srseed (h : Hart) (r : Reg) (v : Word) : (setX h r v).srseed = h.srseed := by unfold setX; split <;> rfl
@[simp] theorem setX_seedSeq (h : Hart) (r : Reg) (v : Word) : (setX h r v).seedSeq = h.seedSeq := by unfold setX; split <;> rfl
@[simp] theorem setX_lc (h : Hart) (r : Reg) (v : Word) : (setX h r v).lc = h.lc := by unfold setX; split <;> rfl
@[simp] theorem setX_loops (h : Hart) (r : Reg) (v : Word) : (setX h r v).loops = h.loops := by unfold setX; split <;> rfl
@[simp] theorem setX_body (h : Hart) (r : Reg) (v : Word) : (setX h r v).body = h.body := by unfold setX; split <;> rfl
@[simp] theorem setX_instret (h : Hart) (r : Reg) (v : Word) : (setX h r v).instret = h.instret := by unfold setX; split <;> rfl
@[simp] theorem setX_tmode (h : Hart) (r : Reg) (v : Word) : (setX h r v).tmode = h.tmode := by unfold setX; split <;> rfl
@[simp] theorem setX_dom (h : Hart) (r : Reg) (v : Word) : (setX h r v).dom = h.dom := by unfold setX; split <;> rfl
@[simp] theorem setX_cfrid (h : Hart) (r : Reg) (v : Word) : (setX h r v).cfrid = h.cfrid := by unfold setX; split <;> rfl
@[simp] theorem setX_enter (h : Hart) (r : Reg) (v : Word) : (setX h r v).enter = h.enter := by unfold setX; split <;> rfl
@[simp] theorem setX_task (h : Hart) (r : Reg) (v : Word) : (setX h r v).task = h.task := by unfold setX; split <;> rfl
@[simp] theorem setX_aside (h : Hart) (r : Reg) (v : Word) : (setX h r v).aside = h.aside := by unfold setX; split <;> rfl
@[simp] theorem setX_late (h : Hart) (r : Reg) (v : Word) : (setX h r v).late = h.late := by unfold setX; split <;> rfl
@[simp] theorem setX_ms (h : Hart) (r : Reg) (v : Word) : (setX h r v).ms = h.ms := by unfold setX; split <;> rfl
@[simp] theorem setX_vs (h : Hart) (r : Reg) (v : Word) : (setX h r v).vs = h.vs := by unfold setX; split <;> rfl
@[simp] theorem setX_pmode (h : Hart) (r : Reg) (v : Word) : (setX h r v).pmode = h.pmode := by unfold setX; split <;> rfl
@[simp] theorem setX_pie (h : Hart) (r : Reg) (v : Word) : (setX h r v).pie = h.pie := by unfold setX; split <;> rfl
@[simp] theorem setX_ie (h : Hart) (r : Reg) (v : Word) : (setX h r v).ie = h.ie := by unfold setX; split <;> rfl
@[simp] theorem setX_tvec (h : Hart) (r : Reg) (v : Word) : (setX h r v).tvec = h.tvec := by unfold setX; split <;> rfl
@[simp] theorem setX_epc (h : Hart) (r : Reg) (v : Word) : (setX h r v).epc = h.epc := by unfold setX; split <;> rfl
@[simp] theorem setX_causeCode (h : Hart) (r : Reg) (v : Word) : (setX h r v).causeCode = h.causeCode := by unfold setX; split <;> rfl
@[simp] theorem setX_causeOrig (h : Hart) (r : Reg) (v : Word) : (setX h r v).causeOrig = h.causeOrig := by unfold setX; split <;> rfl
@[simp] theorem setX_tval (h : Hart) (r : Reg) (v : Word) : (setX h r v).tval = h.tval := by unfold setX; split <;> rfl
@[simp] theorem setX_vepc (h : Hart) (r : Reg) (v : Word) : (setX h r v).vepc = h.vepc := by unfold setX; split <;> rfl
@[simp] theorem setX_scratch (h : Hart) (r : Reg) (v : Word) : (setX h r v).scratch = h.scratch := by unfold setX; split <;> rfl
@[simp] theorem setX_ptbase (h : Hart) (r : Reg) (v : Word) : (setX h r v).ptbase = h.ptbase := by unfold setX; split <;> rfl
@[simp] theorem setX_gang (h : Hart) (r : Reg) (v : Word) : (setX h r v).gang = h.gang := by unfold setX; split <;> rfl
@[simp] theorem setX_prio (h : Hart) (r : Reg) (v : Word) : (setX h r v).prio = h.prio := by unfold setX; split <;> rfl
@[simp] theorem setX_mon (h : Hart) (r : Reg) (v : Word) : (setX h r v).mon = h.mon := by unfold setX; split <;> rfl
@[simp] theorem setX_groups (h : Hart) (r : Reg) (v : Word) : (setX h r v).groups = h.groups := by unfold setX; split <;> rfl
@[simp] theorem setX_ipend (h : Hart) (r : Reg) (v : Word) : (setX h r v).ipend = h.ipend := by unfold setX; split <;> rfl
@[simp] theorem setX_imask (h : Hart) (r : Reg) (v : Word) : (setX h r v).imask = h.imask := by unfold setX; split <;> rfl
@[simp] theorem setX_timecmp (h : Hart) (r : Reg) (v : Word) : (setX h r v).timecmp = h.timecmp := by unfold setX; split <;> rfl
@[simp] theorem setX_inbox0 (h : Hart) (r : Reg) (v : Word) : (setX h r v).inbox0 = h.inbox0 := by unfold setX; split <;> rfl
@[simp] theorem setX_inbox1 (h : Hart) (r : Reg) (v : Word) : (setX h r v).inbox1 = h.inbox1 := by unfold setX; split <;> rfl
@[simp] theorem setX_arrived (h : Hart) (r : Reg) (v : Word) : (setX h r v).arrived = h.arrived := by unfold setX; split <;> rfl
@[simp] theorem setX_barrierCount (h : Hart) (r : Reg) (v : Word) : (setX h r v).barrierCount = h.barrierCount := by unfold setX; split <;> rfl
@[simp] theorem setX_failed (h : Hart) (r : Reg) (v : Word) : (setX h r v).failed = h.failed := by unfold setX; split <;> rfl
@[simp] theorem setX_seeded (h : Hart) (r : Reg) (v : Word) : (setX h r v).seeded = h.seeded := by unfold setX; split <;> rfl
@[simp] theorem setX_preemptReq (h : Hart) (r : Reg) (v : Word) : (setX h r v).preemptReq = h.preemptReq := by unfold setX; split <;> rfl
@[simp] theorem setX_stopReq (h : Hart) (r : Reg) (v : Word) : (setX h r v).stopReq = h.stopReq := by unfold setX; split <;> rfl
@[simp] theorem setX_boundaryTrap (h : Hart) (r : Reg) (v : Word) : (setX h r v).boundaryTrap = h.boundaryTrap := by unfold setX; split <;> rfl
@[simp] theorem setX_lateFault (h : Hart) (r : Reg) (v : Word) : (setX h r v).lateFault = h.lateFault := by unfold setX; split <;> rfl
@[simp] theorem setX_passed (h : Hart) (r : Reg) (v : Word) : (setX h r v).passed = h.passed := by unfold setX; split <;> rfl
@[simp] theorem setX_preempted (h : Hart) (r : Reg) (v : Word) : (setX h r v).preempted = h.preempted := by unfold setX; split <;> rfl
@[simp] theorem setX_exitAsked (h : Hart) (r : Reg) (v : Word) : (setX h r v).exitAsked = h.exitAsked := by unfold setX; split <;> rfl
@[simp] theorem setX_v (h : Hart) (r : Reg) (v : Word) : (setX h r v).v = h.v := by unfold setX; split <;> rfl
@[simp] theorem setX_k (h : Hart) (r : Reg) (v : Word) : (setX h r v).k = h.k := by unfold setX; split <;> rfl
@[simp] theorem setX_vq (h : Hart) (r : Reg) (v : Word) : (setX h r v).vq = h.vq := by unfold setX; split <;> rfl
@[simp] theorem setX_flight (h : Hart) (r : Reg) (v : Word) : (setX h r v).flight = h.flight := by unfold setX; split <;> rfl
@[simp] theorem setX_lastDrain (h : Hart) (r : Reg) (v : Word) : (setX h r v).lastDrain = h.lastDrain := by unfold setX; split <;> rfl
@[simp] theorem setX_sdest (h : Hart) (r : Reg) (v : Word) : (setX h r v).sdest = h.sdest := by unfold setX; split <;> rfl
@[simp] theorem setX_heldConvoy (h : Hart) (r : Reg) (v : Word) : (setX h r v).heldConvoy = h.heldConvoy := by unfold setX; split <;> rfl
@[simp] theorem setX_heldAdvance (h : Hart) (r : Reg) (v : Word) : (setX h r v).heldAdvance = h.heldAdvance := by unfold setX; split <;> rfl
@[simp] theorem setX_mq (h : Hart) (r : Reg) (v : Word) : (setX h r v).mq = h.mq := by unfold setX; split <;> rfl
@[simp] theorem setX_queued (h : Hart) (r : Reg) (v : Word) : (setX h r v).queued = h.queued := by unfold setX; split <;> rfl
@[simp] theorem setX_vvFence (h : Hart) (r : Reg) (v : Word) : (setX h r v).vvFence = h.vvFence := by unfold setX; split <;> rfl
@[simp] theorem setX_castMask (h : Hart) (r : Reg) (v : Word) : (setX h r v).castMask = h.castMask := by unfold setX; split <;> rfl
@[simp] theorem setX_badX (h : Hart) (r : Reg) (v : Word) : (setX h r v).badX = h.badX := by unfold setX; split <;> rfl
@[simp] theorem setX_badF (h : Hart) (r : Reg) (v : Word) : (setX h r v).badF = h.badF := by unfold setX; split <;> rfl
@[simp] theorem setX_badV (h : Hart) (r : Reg) (v : Word) : (setX h r v).badV = h.badV := by unfold setX; split <;> rfl

/-! ### setV -/

@[simp] theorem setV_x (h : Hart) (r : Reg) (v : BitVec 65536) : (setV h r v).x = h.x := rfl
@[simp] theorem setV_f (h : Hart) (r : Reg) (v : BitVec 65536) : (setV h r v).f = h.f := rfl
@[simp] theorem setV_pc (h : Hart) (r : Reg) (v : BitVec 65536) : (setV h r v).pc = h.pc := rfl
@[simp] theorem setV_mode (h : Hart) (r : Reg) (v : BitVec 65536) : (setV h r v).mode = h.mode := rfl
@[simp] theorem setV_started (h : Hart) (r : Reg) (v : BitVec 65536) : (setV h r v).started = h.started := rfl
@[simp] theorem setV_stopped (h : Hart) (r : Reg) (v : BitVec 65536) : (setV h r v).stopped = h.stopped := rfl
@[simp] theorem setV_wait (h : Hart) (r : Reg) (v : BitVec 65536) : (setV h r v).wait = h.wait := rfl
@[simp] theorem setV_freeze (h : Hart) (r : Reg) (v : BitVec 65536) : (setV h r v).freeze = h.freeze := rfl
@[simp] theorem setV_vl (h : Hart) (r : Reg) (v : BitVec 65536) : (setV h r v).vl = h.vl := rfl
@[simp] theorem setV_vstart (h : Hart) (r : Reg) (v : BitVec 65536) : (setV h r v).vstart = h.vstart := rfl
@[simp] theorem setV_vlmax (h : Hart) (r : Reg) (v : BitVec 65536) : (setV h r v).vlmax = h.vlmax := rfl
@[simp] theorem setV_vlSeq (h : Hart) (r : Reg) (v : BitVec 65536) : (setV h r v).vlSeq = h.vlSeq := rfl
@[simp] theorem setV_lanes (h : Hart) (r : Reg) (v : BitVec 65536) : (setV h r v).lanes = h.lanes := rfl
@[simp] theorem setV_regs (h : Hart) (r : Reg) (v : BitVec 65536) : (setV h r v).regs = h.regs := rfl
@[simp] theorem setV_ew (h : Hart) (r : Reg) (v : BitVec 65536) : (setV h r v).ew = h.ew := rfl
@[simp] theorem setV_flags (h : Hart) (r : Reg) (v : BitVec 65536) : (setV h r v).flags = h.flags := rfl
@[simp] theorem setV_rm (h : Hart) (r : Reg) (v : BitVec 65536) : (setV h r v).rm = h.rm := rfl
@[simp] theorem setV_nbv (h : Hart) (r : Reg) (v : BitVec 65536) : (setV h r v).nbv = h.nbv := rfl
@[simp] theorem setV_srseed (h : Hart) (r : Reg) (v : BitVec 65536) : (setV h r v).srseed = h.srseed := rfl
@[simp] theorem setV_seedSeq (h : Hart) (r : Reg) (v : BitVec 65536) : (setV h r v).seedSeq = h.seedSeq := rfl
@[simp] theorem setV_lc (h : Hart) (r : Reg) (v : BitVec 65536) : (setV h r v).lc = h.lc := rfl
@[simp] theorem setV_loops (h : Hart) (r : Reg) (v : BitVec 65536) : (setV h r v).loops = h.loops := rfl
@[simp] theorem setV_body (h : Hart) (r : Reg) (v : BitVec 65536) : (setV h r v).body = h.body := rfl
@[simp] theorem setV_instret (h : Hart) (r : Reg) (v : BitVec 65536) : (setV h r v).instret = h.instret := rfl
@[simp] theorem setV_tmode (h : Hart) (r : Reg) (v : BitVec 65536) : (setV h r v).tmode = h.tmode := rfl
@[simp] theorem setV_dom (h : Hart) (r : Reg) (v : BitVec 65536) : (setV h r v).dom = h.dom := rfl
@[simp] theorem setV_cfrid (h : Hart) (r : Reg) (v : BitVec 65536) : (setV h r v).cfrid = h.cfrid := rfl
@[simp] theorem setV_enter (h : Hart) (r : Reg) (v : BitVec 65536) : (setV h r v).enter = h.enter := rfl
@[simp] theorem setV_task (h : Hart) (r : Reg) (v : BitVec 65536) : (setV h r v).task = h.task := rfl
@[simp] theorem setV_aside (h : Hart) (r : Reg) (v : BitVec 65536) : (setV h r v).aside = h.aside := rfl
@[simp] theorem setV_late (h : Hart) (r : Reg) (v : BitVec 65536) : (setV h r v).late = h.late := rfl
@[simp] theorem setV_ms (h : Hart) (r : Reg) (v : BitVec 65536) : (setV h r v).ms = h.ms := rfl
@[simp] theorem setV_pmode (h : Hart) (r : Reg) (v : BitVec 65536) : (setV h r v).pmode = h.pmode := rfl
@[simp] theorem setV_pie (h : Hart) (r : Reg) (v : BitVec 65536) : (setV h r v).pie = h.pie := rfl
@[simp] theorem setV_ie (h : Hart) (r : Reg) (v : BitVec 65536) : (setV h r v).ie = h.ie := rfl
@[simp] theorem setV_tvec (h : Hart) (r : Reg) (v : BitVec 65536) : (setV h r v).tvec = h.tvec := rfl
@[simp] theorem setV_epc (h : Hart) (r : Reg) (v : BitVec 65536) : (setV h r v).epc = h.epc := rfl
@[simp] theorem setV_causeCode (h : Hart) (r : Reg) (v : BitVec 65536) : (setV h r v).causeCode = h.causeCode := rfl
@[simp] theorem setV_causeOrig (h : Hart) (r : Reg) (v : BitVec 65536) : (setV h r v).causeOrig = h.causeOrig := rfl
@[simp] theorem setV_tval (h : Hart) (r : Reg) (v : BitVec 65536) : (setV h r v).tval = h.tval := rfl
@[simp] theorem setV_vepc (h : Hart) (r : Reg) (v : BitVec 65536) : (setV h r v).vepc = h.vepc := rfl
@[simp] theorem setV_scratch (h : Hart) (r : Reg) (v : BitVec 65536) : (setV h r v).scratch = h.scratch := rfl
@[simp] theorem setV_ptbase (h : Hart) (r : Reg) (v : BitVec 65536) : (setV h r v).ptbase = h.ptbase := rfl
@[simp] theorem setV_gang (h : Hart) (r : Reg) (v : BitVec 65536) : (setV h r v).gang = h.gang := rfl
@[simp] theorem setV_prio (h : Hart) (r : Reg) (v : BitVec 65536) : (setV h r v).prio = h.prio := rfl
@[simp] theorem setV_mon (h : Hart) (r : Reg) (v : BitVec 65536) : (setV h r v).mon = h.mon := rfl
@[simp] theorem setV_groups (h : Hart) (r : Reg) (v : BitVec 65536) : (setV h r v).groups = h.groups := rfl
@[simp] theorem setV_ipend (h : Hart) (r : Reg) (v : BitVec 65536) : (setV h r v).ipend = h.ipend := rfl
@[simp] theorem setV_imask (h : Hart) (r : Reg) (v : BitVec 65536) : (setV h r v).imask = h.imask := rfl
@[simp] theorem setV_timecmp (h : Hart) (r : Reg) (v : BitVec 65536) : (setV h r v).timecmp = h.timecmp := rfl
@[simp] theorem setV_inbox0 (h : Hart) (r : Reg) (v : BitVec 65536) : (setV h r v).inbox0 = h.inbox0 := rfl
@[simp] theorem setV_inbox1 (h : Hart) (r : Reg) (v : BitVec 65536) : (setV h r v).inbox1 = h.inbox1 := rfl
@[simp] theorem setV_arrived (h : Hart) (r : Reg) (v : BitVec 65536) : (setV h r v).arrived = h.arrived := rfl
@[simp] theorem setV_barrierCount (h : Hart) (r : Reg) (v : BitVec 65536) : (setV h r v).barrierCount = h.barrierCount := rfl
@[simp] theorem setV_failed (h : Hart) (r : Reg) (v : BitVec 65536) : (setV h r v).failed = h.failed := rfl
@[simp] theorem setV_seeded (h : Hart) (r : Reg) (v : BitVec 65536) : (setV h r v).seeded = h.seeded := rfl
@[simp] theorem setV_preemptReq (h : Hart) (r : Reg) (v : BitVec 65536) : (setV h r v).preemptReq = h.preemptReq := rfl
@[simp] theorem setV_stopReq (h : Hart) (r : Reg) (v : BitVec 65536) : (setV h r v).stopReq = h.stopReq := rfl
@[simp] theorem setV_boundaryTrap (h : Hart) (r : Reg) (v : BitVec 65536) : (setV h r v).boundaryTrap = h.boundaryTrap := rfl
@[simp] theorem setV_lateFault (h : Hart) (r : Reg) (v : BitVec 65536) : (setV h r v).lateFault = h.lateFault := rfl
@[simp] theorem setV_passed (h : Hart) (r : Reg) (v : BitVec 65536) : (setV h r v).passed = h.passed := rfl
@[simp] theorem setV_preempted (h : Hart) (r : Reg) (v : BitVec 65536) : (setV h r v).preempted = h.preempted := rfl
@[simp] theorem setV_exitAsked (h : Hart) (r : Reg) (v : BitVec 65536) : (setV h r v).exitAsked = h.exitAsked := rfl
@[simp] theorem setV_k (h : Hart) (r : Reg) (v : BitVec 65536) : (setV h r v).k = h.k := rfl
@[simp] theorem setV_vq (h : Hart) (r : Reg) (v : BitVec 65536) : (setV h r v).vq = h.vq := rfl
@[simp] theorem setV_flight (h : Hart) (r : Reg) (v : BitVec 65536) : (setV h r v).flight = h.flight := rfl
@[simp] theorem setV_lastDrain (h : Hart) (r : Reg) (v : BitVec 65536) : (setV h r v).lastDrain = h.lastDrain := rfl
@[simp] theorem setV_sdest (h : Hart) (r : Reg) (v : BitVec 65536) : (setV h r v).sdest = h.sdest := rfl
@[simp] theorem setV_heldConvoy (h : Hart) (r : Reg) (v : BitVec 65536) : (setV h r v).heldConvoy = h.heldConvoy := rfl
@[simp] theorem setV_heldAdvance (h : Hart) (r : Reg) (v : BitVec 65536) : (setV h r v).heldAdvance = h.heldAdvance := rfl
@[simp] theorem setV_mq (h : Hart) (r : Reg) (v : BitVec 65536) : (setV h r v).mq = h.mq := rfl
@[simp] theorem setV_queued (h : Hart) (r : Reg) (v : BitVec 65536) : (setV h r v).queued = h.queued := rfl
@[simp] theorem setV_vvFence (h : Hart) (r : Reg) (v : BitVec 65536) : (setV h r v).vvFence = h.vvFence := rfl
@[simp] theorem setV_castMask (h : Hart) (r : Reg) (v : BitVec 65536) : (setV h r v).castMask = h.castMask := rfl
@[simp] theorem setV_badX (h : Hart) (r : Reg) (v : BitVec 65536) : (setV h r v).badX = h.badX := rfl
@[simp] theorem setV_badF (h : Hart) (r : Reg) (v : BitVec 65536) : (setV h r v).badF = h.badF := rfl
@[simp] theorem setV_badV (h : Hart) (r : Reg) (v : BitVec 65536) : (setV h r v).badV = h.badV := rfl

/-! ### setK -/

@[simp] theorem setK_x (h : Hart) (r : BitVec 3) (v : BitVec 8192) : (setK h r v).x = h.x := by unfold setK; split <;> rfl
@[simp] theorem setK_f (h : Hart) (r : BitVec 3) (v : BitVec 8192) : (setK h r v).f = h.f := by unfold setK; split <;> rfl
@[simp] theorem setK_pc (h : Hart) (r : BitVec 3) (v : BitVec 8192) : (setK h r v).pc = h.pc := by unfold setK; split <;> rfl
@[simp] theorem setK_mode (h : Hart) (r : BitVec 3) (v : BitVec 8192) : (setK h r v).mode = h.mode := by unfold setK; split <;> rfl
@[simp] theorem setK_started (h : Hart) (r : BitVec 3) (v : BitVec 8192) : (setK h r v).started = h.started := by unfold setK; split <;> rfl
@[simp] theorem setK_stopped (h : Hart) (r : BitVec 3) (v : BitVec 8192) : (setK h r v).stopped = h.stopped := by unfold setK; split <;> rfl
@[simp] theorem setK_wait (h : Hart) (r : BitVec 3) (v : BitVec 8192) : (setK h r v).wait = h.wait := by unfold setK; split <;> rfl
@[simp] theorem setK_freeze (h : Hart) (r : BitVec 3) (v : BitVec 8192) : (setK h r v).freeze = h.freeze := by unfold setK; split <;> rfl
@[simp] theorem setK_vl (h : Hart) (r : BitVec 3) (v : BitVec 8192) : (setK h r v).vl = h.vl := by unfold setK; split <;> rfl
@[simp] theorem setK_vstart (h : Hart) (r : BitVec 3) (v : BitVec 8192) : (setK h r v).vstart = h.vstart := by unfold setK; split <;> rfl
@[simp] theorem setK_vlmax (h : Hart) (r : BitVec 3) (v : BitVec 8192) : (setK h r v).vlmax = h.vlmax := by unfold setK; split <;> rfl
@[simp] theorem setK_vlSeq (h : Hart) (r : BitVec 3) (v : BitVec 8192) : (setK h r v).vlSeq = h.vlSeq := by unfold setK; split <;> rfl
@[simp] theorem setK_lanes (h : Hart) (r : BitVec 3) (v : BitVec 8192) : (setK h r v).lanes = h.lanes := by unfold setK; split <;> rfl
@[simp] theorem setK_regs (h : Hart) (r : BitVec 3) (v : BitVec 8192) : (setK h r v).regs = h.regs := by unfold setK; split <;> rfl
@[simp] theorem setK_ew (h : Hart) (r : BitVec 3) (v : BitVec 8192) : (setK h r v).ew = h.ew := by unfold setK; split <;> rfl
@[simp] theorem setK_flags (h : Hart) (r : BitVec 3) (v : BitVec 8192) : (setK h r v).flags = h.flags := by unfold setK; split <;> rfl
@[simp] theorem setK_rm (h : Hart) (r : BitVec 3) (v : BitVec 8192) : (setK h r v).rm = h.rm := by unfold setK; split <;> rfl
@[simp] theorem setK_nbv (h : Hart) (r : BitVec 3) (v : BitVec 8192) : (setK h r v).nbv = h.nbv := by unfold setK; split <;> rfl
@[simp] theorem setK_srseed (h : Hart) (r : BitVec 3) (v : BitVec 8192) : (setK h r v).srseed = h.srseed := by unfold setK; split <;> rfl
@[simp] theorem setK_seedSeq (h : Hart) (r : BitVec 3) (v : BitVec 8192) : (setK h r v).seedSeq = h.seedSeq := by unfold setK; split <;> rfl
@[simp] theorem setK_lc (h : Hart) (r : BitVec 3) (v : BitVec 8192) : (setK h r v).lc = h.lc := by unfold setK; split <;> rfl
@[simp] theorem setK_loops (h : Hart) (r : BitVec 3) (v : BitVec 8192) : (setK h r v).loops = h.loops := by unfold setK; split <;> rfl
@[simp] theorem setK_body (h : Hart) (r : BitVec 3) (v : BitVec 8192) : (setK h r v).body = h.body := by unfold setK; split <;> rfl
@[simp] theorem setK_instret (h : Hart) (r : BitVec 3) (v : BitVec 8192) : (setK h r v).instret = h.instret := by unfold setK; split <;> rfl
@[simp] theorem setK_tmode (h : Hart) (r : BitVec 3) (v : BitVec 8192) : (setK h r v).tmode = h.tmode := by unfold setK; split <;> rfl
@[simp] theorem setK_dom (h : Hart) (r : BitVec 3) (v : BitVec 8192) : (setK h r v).dom = h.dom := by unfold setK; split <;> rfl
@[simp] theorem setK_cfrid (h : Hart) (r : BitVec 3) (v : BitVec 8192) : (setK h r v).cfrid = h.cfrid := by unfold setK; split <;> rfl
@[simp] theorem setK_enter (h : Hart) (r : BitVec 3) (v : BitVec 8192) : (setK h r v).enter = h.enter := by unfold setK; split <;> rfl
@[simp] theorem setK_task (h : Hart) (r : BitVec 3) (v : BitVec 8192) : (setK h r v).task = h.task := by unfold setK; split <;> rfl
@[simp] theorem setK_aside (h : Hart) (r : BitVec 3) (v : BitVec 8192) : (setK h r v).aside = h.aside := by unfold setK; split <;> rfl
@[simp] theorem setK_late (h : Hart) (r : BitVec 3) (v : BitVec 8192) : (setK h r v).late = h.late := by unfold setK; split <;> rfl
@[simp] theorem setK_ms (h : Hart) (r : BitVec 3) (v : BitVec 8192) : (setK h r v).ms = h.ms := by unfold setK; split <;> rfl
@[simp] theorem setK_pmode (h : Hart) (r : BitVec 3) (v : BitVec 8192) : (setK h r v).pmode = h.pmode := by unfold setK; split <;> rfl
@[simp] theorem setK_pie (h : Hart) (r : BitVec 3) (v : BitVec 8192) : (setK h r v).pie = h.pie := by unfold setK; split <;> rfl
@[simp] theorem setK_ie (h : Hart) (r : BitVec 3) (v : BitVec 8192) : (setK h r v).ie = h.ie := by unfold setK; split <;> rfl
@[simp] theorem setK_tvec (h : Hart) (r : BitVec 3) (v : BitVec 8192) : (setK h r v).tvec = h.tvec := by unfold setK; split <;> rfl
@[simp] theorem setK_epc (h : Hart) (r : BitVec 3) (v : BitVec 8192) : (setK h r v).epc = h.epc := by unfold setK; split <;> rfl
@[simp] theorem setK_causeCode (h : Hart) (r : BitVec 3) (v : BitVec 8192) : (setK h r v).causeCode = h.causeCode := by unfold setK; split <;> rfl
@[simp] theorem setK_causeOrig (h : Hart) (r : BitVec 3) (v : BitVec 8192) : (setK h r v).causeOrig = h.causeOrig := by unfold setK; split <;> rfl
@[simp] theorem setK_tval (h : Hart) (r : BitVec 3) (v : BitVec 8192) : (setK h r v).tval = h.tval := by unfold setK; split <;> rfl
@[simp] theorem setK_vepc (h : Hart) (r : BitVec 3) (v : BitVec 8192) : (setK h r v).vepc = h.vepc := by unfold setK; split <;> rfl
@[simp] theorem setK_scratch (h : Hart) (r : BitVec 3) (v : BitVec 8192) : (setK h r v).scratch = h.scratch := by unfold setK; split <;> rfl
@[simp] theorem setK_ptbase (h : Hart) (r : BitVec 3) (v : BitVec 8192) : (setK h r v).ptbase = h.ptbase := by unfold setK; split <;> rfl
@[simp] theorem setK_gang (h : Hart) (r : BitVec 3) (v : BitVec 8192) : (setK h r v).gang = h.gang := by unfold setK; split <;> rfl
@[simp] theorem setK_prio (h : Hart) (r : BitVec 3) (v : BitVec 8192) : (setK h r v).prio = h.prio := by unfold setK; split <;> rfl
@[simp] theorem setK_mon (h : Hart) (r : BitVec 3) (v : BitVec 8192) : (setK h r v).mon = h.mon := by unfold setK; split <;> rfl
@[simp] theorem setK_groups (h : Hart) (r : BitVec 3) (v : BitVec 8192) : (setK h r v).groups = h.groups := by unfold setK; split <;> rfl
@[simp] theorem setK_ipend (h : Hart) (r : BitVec 3) (v : BitVec 8192) : (setK h r v).ipend = h.ipend := by unfold setK; split <;> rfl
@[simp] theorem setK_imask (h : Hart) (r : BitVec 3) (v : BitVec 8192) : (setK h r v).imask = h.imask := by unfold setK; split <;> rfl
@[simp] theorem setK_timecmp (h : Hart) (r : BitVec 3) (v : BitVec 8192) : (setK h r v).timecmp = h.timecmp := by unfold setK; split <;> rfl
@[simp] theorem setK_inbox0 (h : Hart) (r : BitVec 3) (v : BitVec 8192) : (setK h r v).inbox0 = h.inbox0 := by unfold setK; split <;> rfl
@[simp] theorem setK_inbox1 (h : Hart) (r : BitVec 3) (v : BitVec 8192) : (setK h r v).inbox1 = h.inbox1 := by unfold setK; split <;> rfl
@[simp] theorem setK_arrived (h : Hart) (r : BitVec 3) (v : BitVec 8192) : (setK h r v).arrived = h.arrived := by unfold setK; split <;> rfl
@[simp] theorem setK_barrierCount (h : Hart) (r : BitVec 3) (v : BitVec 8192) : (setK h r v).barrierCount = h.barrierCount := by unfold setK; split <;> rfl
@[simp] theorem setK_failed (h : Hart) (r : BitVec 3) (v : BitVec 8192) : (setK h r v).failed = h.failed := by unfold setK; split <;> rfl
@[simp] theorem setK_seeded (h : Hart) (r : BitVec 3) (v : BitVec 8192) : (setK h r v).seeded = h.seeded := by unfold setK; split <;> rfl
@[simp] theorem setK_preemptReq (h : Hart) (r : BitVec 3) (v : BitVec 8192) : (setK h r v).preemptReq = h.preemptReq := by unfold setK; split <;> rfl
@[simp] theorem setK_stopReq (h : Hart) (r : BitVec 3) (v : BitVec 8192) : (setK h r v).stopReq = h.stopReq := by unfold setK; split <;> rfl
@[simp] theorem setK_boundaryTrap (h : Hart) (r : BitVec 3) (v : BitVec 8192) : (setK h r v).boundaryTrap = h.boundaryTrap := by unfold setK; split <;> rfl
@[simp] theorem setK_lateFault (h : Hart) (r : BitVec 3) (v : BitVec 8192) : (setK h r v).lateFault = h.lateFault := by unfold setK; split <;> rfl
@[simp] theorem setK_passed (h : Hart) (r : BitVec 3) (v : BitVec 8192) : (setK h r v).passed = h.passed := by unfold setK; split <;> rfl
@[simp] theorem setK_preempted (h : Hart) (r : BitVec 3) (v : BitVec 8192) : (setK h r v).preempted = h.preempted := by unfold setK; split <;> rfl
@[simp] theorem setK_exitAsked (h : Hart) (r : BitVec 3) (v : BitVec 8192) : (setK h r v).exitAsked = h.exitAsked := by unfold setK; split <;> rfl
@[simp] theorem setK_v (h : Hart) (r : BitVec 3) (v : BitVec 8192) : (setK h r v).v = h.v := by unfold setK; split <;> rfl
@[simp] theorem setK_vq (h : Hart) (r : BitVec 3) (v : BitVec 8192) : (setK h r v).vq = h.vq := by unfold setK; split <;> rfl
@[simp] theorem setK_flight (h : Hart) (r : BitVec 3) (v : BitVec 8192) : (setK h r v).flight = h.flight := by unfold setK; split <;> rfl
@[simp] theorem setK_lastDrain (h : Hart) (r : BitVec 3) (v : BitVec 8192) : (setK h r v).lastDrain = h.lastDrain := by unfold setK; split <;> rfl
@[simp] theorem setK_sdest (h : Hart) (r : BitVec 3) (v : BitVec 8192) : (setK h r v).sdest = h.sdest := by unfold setK; split <;> rfl
@[simp] theorem setK_heldConvoy (h : Hart) (r : BitVec 3) (v : BitVec 8192) : (setK h r v).heldConvoy = h.heldConvoy := by unfold setK; split <;> rfl
@[simp] theorem setK_heldAdvance (h : Hart) (r : BitVec 3) (v : BitVec 8192) : (setK h r v).heldAdvance = h.heldAdvance := by unfold setK; split <;> rfl
@[simp] theorem setK_mq (h : Hart) (r : BitVec 3) (v : BitVec 8192) : (setK h r v).mq = h.mq := by unfold setK; split <;> rfl
@[simp] theorem setK_queued (h : Hart) (r : BitVec 3) (v : BitVec 8192) : (setK h r v).queued = h.queued := by unfold setK; split <;> rfl
@[simp] theorem setK_vvFence (h : Hart) (r : BitVec 3) (v : BitVec 8192) : (setK h r v).vvFence = h.vvFence := by unfold setK; split <;> rfl
@[simp] theorem setK_castMask (h : Hart) (r : BitVec 3) (v : BitVec 8192) : (setK h r v).castMask = h.castMask := by unfold setK; split <;> rfl
@[simp] theorem setK_badX (h : Hart) (r : BitVec 3) (v : BitVec 8192) : (setK h r v).badX = h.badX := by unfold setK; split <;> rfl
@[simp] theorem setK_badF (h : Hart) (r : BitVec 3) (v : BitVec 8192) : (setK h r v).badF = h.badF := by unfold setK; split <;> rfl
@[simp] theorem setK_badV (h : Hart) (r : BitVec 3) (v : BitVec 8192) : (setK h r v).badV = h.badV := by unfold setK; split <;> rfl

/-! ### What the accessors read after an update -/

@[simp] theorem hart_onCore (s : State) (c : Nat) (f : Core → Core) (h : Nat) : hart (onCore s c f) h = hart s h := rfl
@[simp] theorem hart_onIsland (s : State) (n : Nat) (f : Island → Island) (h : Nat) :
    hart (onIsland s n f) h = hart s h := rfl
@[simp] theorem hart_onPart (s : State) (v : Nat) (f : Part → Part) (h : Nat) : hart (onPart s v f) h = hart s h := rfl
@[simp] theorem hart_onTask (s : State) (u : Nat) (f : TaskEntry → TaskEntry) (h : Nat) :
    hart (onTask s u f) h = hart s h := rfl
@[simp] theorem core_onHart (s : State) (h : Nat) (f : Hart → Hart) (c : Nat) : core (onHart s h f) c = core s c := rfl
@[simp] theorem core_onMe (s : State) (f : Hart → Hart) (c : Nat) : core (onMe s f) c = core s c := rfl
@[simp] theorem core_onIsland (s : State) (n : Nat) (f : Island → Island) (c : Nat) :
    core (onIsland s n f) c = core s c := rfl
@[simp] theorem core_onPart (s : State) (v : Nat) (f : Part → Part) (c : Nat) : core (onPart s v f) c = core s c := rfl
@[simp] theorem island_onHart (s : State) (h : Nat) (f : Hart → Hart) (n : Nat) :
    island (onHart s h f) n = island s n := rfl
@[simp] theorem island_onMe (s : State) (f : Hart → Hart) (n : Nat) : island (onMe s f) n = island s n := rfl
@[simp] theorem island_onCore (s : State) (c : Nat) (f : Core → Core) (n : Nat) :
    island (onCore s c f) n = island s n := rfl
@[simp] theorem island_onPart (s : State) (v : Nat) (f : Part → Part) (n : Nat) :
    island (onPart s v f) n = island s n := rfl
@[simp] theorem part_onHart (s : State) (h : Nat) (f : Hart → Hart) (v : Nat) : part (onHart s h f) v = part s v := rfl
@[simp] theorem part_onMe (s : State) (f : Hart → Hart) (v : Nat) : part (onMe s f) v = part s v := rfl
@[simp] theorem part_onCore (s : State) (c : Nat) (f : Core → Core) (v : Nat) : part (onCore s c f) v = part s v := rfl
@[simp] theorem part_onIsland (s : State) (n : Nat) (f : Island → Island) (v : Nat) :
    part (onIsland s n f) v = part s v := rfl

/-! ### The numbered registers -/

@[simp] theorem getX_zero (h : Hart) : getX h 0 = 0 := rfl
@[simp] theorem setX_zero (h : Hart) (v : Word) : setX h 0 v = h := rfl

theorem getX_setX (h : Hart) (r q : Reg) (v : Word) :
    getX (setX h r v) q = if q = r ∧ r ≠ 0 then v else getX h q := by
  by_cases hr : r = 0#5
  · subst hr; simp [setX]
  · by_cases hqr : q = r
    · subst hqr; simp [getX, setX, hr]
    · have : r.toNat ≠ q.toNat := fun h => hqr (BitVec.eq_of_toNat_eq h.symm)
      by_cases hq : q = 0#5
      · subst hq; simp [getX, Ne.symm hr]
      · simp [getX, setX, hr, hq, hqr, this]

theorem getF_setF (h : Hart) (r q : Reg) (v : Word) : getF (setF h r v) q = if q = r then v else getF h q := by
  by_cases hqr : q = r
  · subst hqr; simp [getF, setF]
  · have : r.toNat ≠ q.toNat := fun h => hqr (BitVec.eq_of_toNat_eq h.symm)
    simp [getF, setF, hqr, this]

@[simp] theorem getX_setF (h : Hart) (r q : Reg) (v : Word) : getX (setF h r v) q = getX h q := rfl
@[simp] theorem getX_retireHart (n : Nat) (h : Hart) (q : Reg) : getX (retireHart n h) q = getX h q := rfl
@[simp] theorem getF_retireHart (n : Nat) (h : Hart) (q : Reg) : getF (retireHart n h) q = getF h q := rfl
@[simp] theorem getF_setX (h : Hart) (r q : Reg) (v : Word) : getF (setX h r v) q = getF h q := by
  unfold setX; split <;> rfl

@[simp] theorem retireHart_pc (n : Nat) (h : Hart) : (retireHart n h).pc = h.pc + BitVec.ofNat 64 n := rfl
@[simp] theorem retireHart_instret (n : Nat) (h : Hart) : (retireHart n h).instret = h.instret + 1 := rfl
@[simp] theorem retireHart_wait (n : Nat) (h : Hart) : (retireHart n h).wait = none := rfl

/-- What a register instruction leaves: its destination, and the acting hart at the next instruction. -/
theorem me_retireX (d : Reg) (v : Word) (s : State) : me (retireX d v s) = retireHart 4 (setX (me s) d v) := by
  simp [retireX, retire, wx]

@[simp] theorem retireX_mem (d : Reg) (v : Word) (s : State) : (retireX d v s).mem = s.mem := rfl
@[simp] theorem retireX_cur (d : Reg) (v : Word) (s : State) : (retireX d v s).cur = s.cur := rfl

end Sys2Proof.Machine
end

