-- ==== Sys2Proof/Laws/Ops.lean ====
section
/-!
SUPPORT. What each shared operation can do, once: writing a register and going on, taking or holding a trap, waiting,
going on elsewhere, and the hold of an irrevocable action.
-/
namespace Sys2Proof.Machine

/-! ### The acting hart alone -/

/-- An update of the acting hart changes nothing else. -/
theorem onlyActing_onMe (s : State) (f : Hart → Hart) : OnlyActing s (onMe s f) :=
  ⟨rfl, fun k hk => hart_onMe_other s k f hk, fun _ => rfl⟩

/-- Two updates of the acting hart are one. -/
theorem onlyActing_trans {s t u : State} (h1 : OnlyActing s t) (h2 : OnlyActing t u) : OnlyActing s u := by
  have ht : t.cur = s.cur := by rw [h1.1]
  have hm : t.mem = s.mem := by rw [h1.1]
  refine ⟨?_, fun k hk => ?_, fun a => ?_⟩
  · rw [h2.1, h1.1]
  · rw [h2.2.1 k (by rw [ht]; exact hk), h1.2.1 k hk]
  · rw [h2.2.2 a, h1.2.2 a]

@[simp] theorem me_wx (s : State) (r : Reg) (v : Word) : me (wx s r v) = setX (me s) r v := me_onMe s _
@[simp] theorem me_wf (s : State) (r : Reg) (v : Word) : me (wf s r v) = setF (me s) r v := me_onMe s _
@[simp] theorem me_retire (s : State) : me (retire s) = retireHart 4 (me s) := me_onMe s _
@[simp] theorem me_raiseFlags (f : BitVec 6) (s : State) : me (raiseFlags f s) = mergeFlags f (me s) := me_onMe s _
@[simp] theorem me_waitOn (w : Wait) (s : State) : me (waitOn w s) = { me s with wait := some w } := me_onMe s _
@[simp] theorem me_takeTrap (code orig : Byte) (tval : Word) (s : State) :
    me (takeTrap code orig tval s) = trapHart code orig tval (me s).pc (me s) := me_onMe s _
@[simp] theorem me_retireTo (pc : Word) (s : State) :
    me (retireTo pc s) = { me s with
      pc := pc, instret := (me s).instret + 1, wait := none, body := (me s).body.filter (·.holds pc) } := me_onMe s _

/-- A write of an x register changes that field of the hart alone. -/
theorem setX_eq (h : Hart) (r : Reg) (v : Word) : setX h r v = { h with x := (setX h r v).x } := by
  unfold setX; split <;> rfl

/-! ### How an instruction ends -/

/-- Writing x and going on (R40, R51). -/
theorem outX_next (d : Reg) (v : Word) (s : State) : ∃ t, outX d v s = .next t ∧ WroteX s t d v := by
  refine ⟨_, rfl, ?_, fun r => ?_, ?_⟩
  · exact onlyActing_trans (onlyActing_onMe s _) (onlyActing_onMe (wx s d v) _)
  · simp only [retireX, me_retire, me_wx, getX_retireHart]
    exact getX_setX _ _ _ _
  · simp only [retireX, me_retire, me_wx]
    unfold setX; split <;> rfl

/-- Writing f with flags and going on (R41, R82). -/
theorem outF_next (t : Ty) (d : Reg) (r : FRes) (s : State) :
    ∃ u, outF t d r s = .next u ∧ WroteF s u d (boxF t r.enc) r.fl := by
  refine ⟨_, rfl, ?_, fun q => ?_, ?_⟩
  · exact onlyActing_trans (onlyActing_trans (onlyActing_onMe s _) (onlyActing_onMe (wf s d (boxF t r.enc)) _))
      (onlyActing_onMe (raiseFlags r.fl (wf s d (boxF t r.enc))) _)
  · simp only [me_retire, me_raiseFlags, me_wf, getF_retireHart]
    exact getF_setF _ _ _ _
  · simp only [me_retire, me_raiseFlags, me_wf, retireHart, mergeFlags, setF]
    rfl

/-- Writing x with flags and going on. -/
theorem outXF_next (d : Reg) (v : Word) (fl : BitVec 6) (s : State) :
    ∃ u, outXF d v fl s = .next u ∧ WroteXFlags s u d v fl := by
  refine ⟨_, rfl, ?_, fun q => ?_, ?_⟩
  · exact onlyActing_trans (onlyActing_trans (onlyActing_onMe s _) (onlyActing_onMe (wx s d v) _))
      (onlyActing_onMe (raiseFlags fl (wx s d v)) _)
  · simp only [me_retire, me_raiseFlags, me_wx, getX_retireHart]
    exact getX_setX _ _ _ _
  · simp only [me_retire, me_raiseFlags, me_wx]
    unfold setX; split <;> rfl

/-- Going on at the next instruction with nothing written. -/
theorem retire_wentTo (s : State) : WentTo s (retire s) ((me s).pc + 4) := ⟨onlyActing_onMe s _, me_retire s⟩
/-- Going on at another address, with no captured loop body to leave (R116). -/
theorem retireTo_wentTo (pc : Word) {s : State} (hb : (me s).body = none) : WentTo s (retireTo pc s) pc :=
  ⟨onlyActing_onMe s _, by simp [hb]⟩
/-- Waiting at the same instruction (R20). -/
theorem waitOn_waits (w : Wait) (s : State) : Waits s (waitOn w s) w := ⟨onlyActing_onMe s _, me_waitOn w s⟩

/-! ### Traps (R248, R339) -/

theorem takeTrap_trapped (code : Byte) (tval : Word) (s : State) : Trapped s (takeTrap code 0 tval s) code tval :=
  ⟨onlyActing_onMe s _, me_takeTrap code 0 tval s⟩

/-- Where no task of the hart is speculative, every cause is taken at once. -/
theorem raise_settled {s : State} (h : Settled s) (code : Byte) (tval : Word) :
    raise code tval s = takeTrap code 0 tval s := by
  unfold raise
  unfold Settled speculative at h
  split
  · next e he => rw [he] at h; simp_all
  · rfl

theorem raise_trapped {s : State} (h : Settled s) (code : Byte) (tval : Word) : Trapped s (raise code tval s) code tval :=
  raise_settled h code tval ▸ takeTrap_trapped code tval s

/-- A speculative task holds a cause of a class below 0xC0 with its TVAL and PC (R223). -/
theorem raise_held {s : State} {e : TaskEntry} (he : taskAt s s.cur = some e) (hst : e.st ≠ .irrev) {code : Byte}
    (hc : code < 0xC0) (tval : Word) :
    raise code tval s = onTask (onMe s fun h => { h with aside := none }) e.uid fun e =>
      { e with fault := some ⟨code, tval, (me s).pc⟩, st := .held } := by
  unfold raise
  rw [he]
  exact if_pos (by rw [Bool.and_eq_true]; exact ⟨by simpa using hst, decide_eq_true hc⟩)

/-- A cause of a class from 0xC0 up is taken at once even there. -/
theorem raise_taken {s : State} {code : Byte} (hc : ¬code < 0xC0) (tval : Word) :
    raise code tval s = takeTrap code 0 tval s := by
  unfold raise; split
  · exact if_neg fun h => hc (of_decide_eq_true (Bool.and_eq_true _ _ ▸ h).2)
  · rfl

theorem outTrap_next {s : State} (h : Settled s) (code : Byte) (tval : Word) :
    ∃ t, outTrap code tval s = .next t ∧ Trapped s t code tval := ⟨_, rfl, raise_trapped h code tval⟩

/-! ### Guards -/

/-- With legal FPCTL and NBV the guard of a floating-point instruction is its effect (R344). -/
theorem fpGuard_pass {i : Instr} {rounds : Bool} {s : State} (k : Out) (hn : badNbv (me s).nbv = false)
    (hr : rounds = true → badRm (me s).rm = false) : fpGuard i rounds s k = k := by
  unfold fpGuard; rw [hn]; cases rounds <;> simp_all

theorem fpGuard_badNbv {i : Instr} {rounds : Bool} {s : State} (k : Out) (hn : badNbv (me s).nbv = true) :
    fpGuard i rounds s k = outTrap 0x60 (leadWord i) s := by simp [fpGuard, hn]

theorem fpGuard_badRm {i : Instr} {s : State} (k : Out) (hn : badNbv (me s).nbv = false) (hr : badRm (me s).rm = true) :
    fpGuard i true s k = outTrap 0x64 (leadWord i) s := by simp [fpGuard, hn, hr]

/-- A hart that runs no speculative task may act irrevocably, and nothing changes (R222). -/
theorem irrevocable_settled {s : State} (h : Settled s) : irrevocable s = .go s := by
  unfold irrevocable
  unfold Settled speculative at h
  split
  · rfl
  · next e he =>
    rw [he] at h
    exact if_pos (by simp_all [TaskEntry.isIrrev])

/-- Any other task holds, unless it is the earliest, which becomes irrevocable (R221, R222). -/
theorem irrevocable_speculative {s : State} {e : TaskEntry} (he : taskAt s s.cur = some e) (hi : e.isIrrev = false) :
    irrevocable s = if isEarliest s e then .go (makeIrrev s e)
      else .stop (onTask s e.uid fun e => { e with st := .held }) := by
  simp [irrevocable, he, hi]

theorem irrevocably_settled {s : State} (h : Settled s) (k : State → State) : irrevocably s k = k s := by
  simp [irrevocably, irrevocable_settled h]

end Sys2Proof.Machine
end

