-- ==== Sys2Proof/Laws/Access.lean ====
section
/-!
SUPPORT. What the accesses of the acting hart and of other agents do once they are checked: reads and writes of a hart
without a task, and the writes of agents that are no harts.
-/
namespace Sys2Proof.Machine

/-- A hart without a task reads tracked memory at once, unless a line of it is held at its home (R222). -/
theorem trackRead_noTask {s : State} {ps : List Piece} (ht : taskAt s s.cur = none) (hh : homeHeld s none ps = false) :
    trackRead s ps = .go s := by
  simp [trackRead, readWaits, ht, hh]

/-- Otherwise it waits. -/
theorem trackRead_held {s : State} {ps : List Piece} (ht : taskAt s s.cur = none) (hh : homeHeld s none ps = true) :
    trackRead s ps = .stop (waitOn .conflict s) := by
  simp [trackRead, readWaits, ht, hh]

/-- A hart without a task writes tracked memory at once, unless a protected task has read it (R217). -/
theorem trackWrite_noTask {s : State} {ps : List Piece} {cells : List Host.Cell} (ht : taskAt s s.cur = none)
    (hb : writeBlocked s {} (cellUnits cells) = false) : trackWrite s ps cells = .go (foreignStore s {} cells) := by
  simp [trackWrite, ht, hb]

/-- Otherwise it waits. -/
theorem trackWrite_blocked {s : State} {ps : List Piece} {cells : List Host.Cell} (ht : taskAt s s.cur = none)
    (hb : writeBlocked s {} (cellUnits cells) = true) : trackWrite s ps cells = .stop (waitOn .conflict s) := by
  simp [trackWrite, ht, hb]

/-- A hart without a task reads what memory holds. -/
theorem readCells_noTask {s : State} (ht : taskAt s s.cur = none) (as : List Nat) :
    readCells s as = as.map (memRead s.mem) := by
  simp [readCells, ht]

/-- Good storage holds no uncorrectable data. -/
theorem poisonIn_good {s : State} (hp : s.poison = []) (hl : s.lostLines = []) (as : List Nat) : poisonIn s as = none := by
  simp [poisonIn, hp, hl]

/-- A checked read of a hart without a task gives the bytes of memory, and changes the caches alone. -/
theorem readScalar_noTask {s : State} {ps : List Piece} (ht : taskAt s s.cur = none)
    (hh : homeHeld s none (ps.filter fun p => tracked p.pa) = false) (hp : poisonIn s (pieceBytes ps) = none) :
    ∃ t, readScalar s ps = .ok (t, (pieceBytes ps).map (memRead s.mem)) ∧ CachesOnly s t :=
  ⟨touch (loadScalarLine (coreOf s.cur)) s (spansOf ps),
    by simp only [readScalar, trackRead_noTask ht hh, takeBytes, hp, readCells_noTask ht],
    touch_cachesOnly _ (loadScalarLine_cachesOnly _) _ _⟩

/-- A write of an agent that is no hart is performed at once where no protected task is in its way and none of the
agent's own writes is kept (R217). -/
theorem agentStore_performed {s : State} {ag : Agent} {pa : Nat} {bs : List Byte} {b : Option Bump}
    (hb : writeBlocked s {} (cellUnits (cellsAt pa bs)) = false) (hk : s.pendingWrites = []) :
    agentStore s ag pa bs b = applyBump (homeStore s {} (cellsAt pa bs)) b := by
  simp [agentStore, hb, hk]

/-- Otherwise it is kept, behind those of before, and nothing else changes. -/
theorem agentStore_kept {s : State} {ag : Agent} {pa : Nat} {bs : List Byte} {b : Option Bump} {l : Bool}
    {q : List Pin} (hb : writeBlocked s {} (cellUnits (cellsAt pa bs)) = true) :
    agentStore s ag pa bs b l q = { s with pendingWrites := s.pendingWrites ++ [⟨ag, pa, bs, b, l, q⟩] } := by
  simp [agentStore, hb]

/-- Writing bytes touches memory and what is recorded of bad storage, and nothing else. -/
theorem storeBytes_eq (s : State) (cells : List Host.Cell) :
    storeBytes s cells = { s with
      mem := (storeBytes s cells).mem, poison := (storeBytes s cells).poison, lostLines := (storeBytes s cells).lostLines } :=
  rfl

/-- Writing bytes keeps the canonical form of memory. -/
theorem storeBytes_wf {s : State} (cells : List Host.Cell) (hm : Memory.wf s.mem = true) :
    Memory.wf (storeBytes s cells).mem = true := writeCells_wf cells hm

end Sys2Proof.Machine
end

