-- ==== Sys2Proof/Laws/PerInstr.lean ====
section
/-!
SUPPORT. Facts about each instruction as syntax: the length in bytes of its words is the one that its own leading and
second word fix (R282), and each of its words is a word of 32 bits. An event has no words.
-/
namespace Sys2Proof.Laws.Words
open Sys2Proof

/-- The words of an instruction fix its length (R282), and each is below 2³². -/
def Statement (i : Instr) : Prop :=
  ∀ w0 ws, encode i = w0 :: ws →
    i.length = lengthOf w0 (ws.headD 0) ∧ ∀ w ∈ w0 :: ws, w < 2 ^ 32

theorem ty_code_lt (t : Ty) : t.code < 32 := by cases t <;> decide
theorem ty_ft_lt (t : Ty) : t.ft < 4 := by cases t <;> decide
theorem scope_code_lt (c : Scope) : c.code < 5 := by cases c <;> decide
theorem size_code_lt (k : Size) : k.code < 4 := by cases k <;> decide
theorem memW_code_lt (k : MemW) : k.code < 8 := by cases k <;> decide
theorem dir_code_lt (w : Dir) : w.code < 4 := by cases w <;> decide
theorem cond_code_lt (w : Cond) : w.code < 8 := by cases w <;> decide
theorem vcond_code_lt (w : VCond) : w.code < 4 := by cases w <;> decide
theorem fcond_code_lt (w : FCond) : w.code < 5 := by cases w <;> decide
theorem sfFn_code_lt (w : SfFn) : w.code < 5 := by cases w <;> decide
theorem form_code_lt (w : FmaForm) : w.code < 4 := by cases w <;> decide
theorem dwCode_lt (w : Bool) : dwCode w < 4 := by cases w <;> decide
theorem bool_lt (b : Bool) : b.toNat < 2 := by cases b <;> decide

/-- An event has no words. -/
theorem of_none {i : Instr} (e : encode i = []) : Statement i := by
  intro w0 ws h; rw [e] at h; exact absurd h (by simp)

/-- One word with a major below 56. -/
theorem of_one {i : Instr} {w : Nat} (e : encode i = [w]) (h : w < 56 * 2 ^ 26) : Statement i := by
  intro w0 ws g
  rw [e] at g
  obtain ⟨rfl, rfl⟩ := List.cons.inj g
  refine ⟨?_, fun v hv => ?_⟩
  · rw [Instr.length, e, lengthOf, fld, if_pos]
    · rfl
    · omega
  · rw [List.mem_singleton.mp hv]; omega

/-- The fields of a format V instruction lie within their widths. -/
structure Fits (e : VEnc) : Prop where
  op : 56 ≤ e.op ∧ e.op < 64
  fn : e.fn < 64
  km : e.km < 8
  d : e.d < 32
  a : e.a < 32
  b : e.b < 32
  c : e.c < 32
  t2 : e.t2 < 32
  sub : e.sub < 512

theorem lengthOf_two {w0 w1 : Nat} (h : 56 ≤ fld w0 26 6) (g : fld w1 17 1 = 0) : lengthOf w0 w1 = 8 := by
  rw [lengthOf, if_neg (Nat.not_lt.mpr h), if_pos g]

theorem lengthOf_three {w0 w1 : Nat} (h : 56 ≤ fld w0 26 6) (g : fld w1 17 1 ≠ 0) : lengthOf w0 w1 = 12 := by
  rw [lengthOf, if_neg (Nat.not_lt.mpr h), if_neg g]

theorem lit {a b : Nat} (h : Nat.blt a b = true) : a < b := Nat.blt_eq.mp h

/-- Two or three words with a major from 56 up. -/
theorem of_two {i : Instr} {e : VEnc} (h : encode i = encV e) (f : Fits e) : Statement i := by
  intro w0 ws g
  obtain ⟨op, fn, km, d, a, b, c, t2, sub⟩ := f
  have ht := ty_code_lt e.t
  have hcv := bool_lt e.cv
  have hl : lengthOf w0 (ws.headD 0) = 4 * (encV e).length := by
    rw [h] at g; rw [encV] at g ⊢
    split at g <;> obtain ⟨rfl, rfl⟩ := List.cons.inj g
    · exact (lengthOf_two (by simp only [fld, leadWordOf]; omega) (by simp only [fld, secondWordOf, List.headD_cons]; omega)).trans rfl
    · exact (lengthOf_three (by simp only [fld, leadWordOf]; omega)
        (by simp only [fld, secondWordOf, List.headD_cons]; omega)).trans rfl
  refine ⟨by rw [Instr.length, h, hl], fun w hw => ?_⟩
  rw [← g, h, encV] at hw
  split at hw
  · simp only [List.mem_cons, List.not_mem_nil, or_false] at hw
    obtain rfl | rfl := hw <;> simp only [leadWordOf, secondWordOf] <;> omega
  · rename_i im _
    simp only [List.mem_cons, List.not_mem_nil, or_false] at hw
    obtain rfl | rfl | rfl := hw
    · simp only [leadWordOf]; omega
    · simp only [secondWordOf]; omega
    · exact im.isLt

theorem vsrc_lt (b : VSrc) : b.field < 32 := by
  cases b with
  | reg b => exact b.isLt
  | imm i => exact Nat.zero_lt_succ _

theorem addImm (d a : Reg) (i : BitVec 16) : Statement (.addImm d a i) :=
  of_one rfl (by have := BitVec.isLt d; have := BitVec.isLt a; have := BitVec.isLt i; omega)
theorem andImm (d a : Reg) (i : BitVec 12) : Statement (.andImm d a i) :=
  of_one rfl (by have := BitVec.isLt d; have := BitVec.isLt a; have := BitVec.isLt i; omega)
theorem orImm (d a : Reg) (i : BitVec 12) : Statement (.orImm d a i) :=
  of_one rfl (by have := BitVec.isLt d; have := BitVec.isLt a; have := BitVec.isLt i; omega)
theorem xorImm (d a : Reg) (i : BitVec 12) : Statement (.xorImm d a i) :=
  of_one rfl (by have := BitVec.isLt d; have := BitVec.isLt a; have := BitVec.isLt i; omega)
theorem sltImm (d a : Reg) (i : BitVec 12) : Statement (.sltImm d a i) :=
  of_one rfl (by have := BitVec.isLt d; have := BitVec.isLt a; have := BitVec.isLt i; omega)
theorem sltuImm (d a : Reg) (i : BitVec 12) : Statement (.sltuImm d a i) :=
  of_one rfl (by have := BitVec.isLt d; have := BitVec.isLt a; have := BitVec.isLt i; omega)
theorem shlImm (d a : Reg) (i : BitVec 6) : Statement (.shlImm d a i) :=
  of_one rfl (by have := BitVec.isLt d; have := BitVec.isLt a; have := BitVec.isLt i; omega)
theorem shrImm (d a : Reg) (i : BitVec 6) : Statement (.shrImm d a i) :=
  of_one rfl (by have := BitVec.isLt d; have := BitVec.isLt a; have := BitVec.isLt i; omega)
theorem sarImm (d a : Reg) (i : BitVec 6) : Statement (.sarImm d a i) :=
  of_one rfl (by have := BitVec.isLt d; have := BitVec.isLt a; have := BitVec.isLt i; omega)
theorem rolImm (d a : Reg) (i : BitVec 6) : Statement (.rolImm d a i) :=
  of_one rfl (by have := BitVec.isLt d; have := BitVec.isLt a; have := BitVec.isLt i; omega)
theorem rorImm (d a : Reg) (i : BitVec 6) : Statement (.rorImm d a i) :=
  of_one rfl (by have := BitVec.isLt d; have := BitVec.isLt a; have := BitVec.isLt i; omega)
theorem minImm (d a : Reg) (i : BitVec 12) : Statement (.minImm d a i) :=
  of_one rfl (by have := BitVec.isLt d; have := BitVec.isLt a; have := BitVec.isLt i; omega)
theorem minuImm (d a : Reg) (i : BitVec 12) : Statement (.minuImm d a i) :=
  of_one rfl (by have := BitVec.isLt d; have := BitVec.isLt a; have := BitVec.isLt i; omega)
theorem maxImm (d a : Reg) (i : BitVec 12) : Statement (.maxImm d a i) :=
  of_one rfl (by have := BitVec.isLt d; have := BitVec.isLt a; have := BitVec.isLt i; omega)
theorem maxuImm (d a : Reg) (i : BitVec 12) : Statement (.maxuImm d a i) :=
  of_one rfl (by have := BitVec.isLt d; have := BitVec.isLt a; have := BitVec.isLt i; omega)
theorem add (d a b : Reg) : Statement (.add d a b) :=
  of_one rfl (by have := BitVec.isLt d; have := BitVec.isLt a; have := BitVec.isLt b; simp only [leadWordOf]; omega)
theorem sub (d a b : Reg) : Statement (.sub d a b) :=
  of_one rfl (by have := BitVec.isLt d; have := BitVec.isLt a; have := BitVec.isLt b; simp only [leadWordOf]; omega)
theorem and (d a b : Reg) : Statement (.and d a b) :=
  of_one rfl (by have := BitVec.isLt d; have := BitVec.isLt a; have := BitVec.isLt b; simp only [leadWordOf]; omega)
theorem or (d a b : Reg) : Statement (.or d a b) :=
  of_one rfl (by have := BitVec.isLt d; have := BitVec.isLt a; have := BitVec.isLt b; simp only [leadWordOf]; omega)
theorem xor (d a b : Reg) : Statement (.xor d a b) :=
  of_one rfl (by have := BitVec.isLt d; have := BitVec.isLt a; have := BitVec.isLt b; simp only [leadWordOf]; omega)
theorem shl (d a b : Reg) : Statement (.shl d a b) :=
  of_one rfl (by have := BitVec.isLt d; have := BitVec.isLt a; have := BitVec.isLt b; simp only [leadWordOf]; omega)
theorem shr (d a b : Reg) : Statement (.shr d a b) :=
  of_one rfl (by have := BitVec.isLt d; have := BitVec.isLt a; have := BitVec.isLt b; simp only [leadWordOf]; omega)
theorem sar (d a b : Reg) : Statement (.sar d a b) :=
  of_one rfl (by have := BitVec.isLt d; have := BitVec.isLt a; have := BitVec.isLt b; simp only [leadWordOf]; omega)
theorem rol (d a b : Reg) : Statement (.rol d a b) :=
  of_one rfl (by have := BitVec.isLt d; have := BitVec.isLt a; have := BitVec.isLt b; simp only [leadWordOf]; omega)
theorem ror (d a b : Reg) : Statement (.ror d a b) :=
  of_one rfl (by have := BitVec.isLt d; have := BitVec.isLt a; have := BitVec.isLt b; simp only [leadWordOf]; omega)
theorem slt (d a b : Reg) : Statement (.slt d a b) :=
  of_one rfl (by have := BitVec.isLt d; have := BitVec.isLt a; have := BitVec.isLt b; simp only [leadWordOf]; omega)
theorem sltu (d a b : Reg) : Statement (.sltu d a b) :=
  of_one rfl (by have := BitVec.isLt d; have := BitVec.isLt a; have := BitVec.isLt b; simp only [leadWordOf]; omega)
theorem min (d a b : Reg) : Statement (.min d a b) :=
  of_one rfl (by have := BitVec.isLt d; have := BitVec.isLt a; have := BitVec.isLt b; simp only [leadWordOf]; omega)
theorem minu (d a b : Reg) : Statement (.minu d a b) :=
  of_one rfl (by have := BitVec.isLt d; have := BitVec.isLt a; have := BitVec.isLt b; simp only [leadWordOf]; omega)
theorem max (d a b : Reg) : Statement (.max d a b) :=
  of_one rfl (by have := BitVec.isLt d; have := BitVec.isLt a; have := BitVec.isLt b; simp only [leadWordOf]; omega)
theorem maxu (d a b : Reg) : Statement (.maxu d a b) :=
  of_one rfl (by have := BitVec.isLt d; have := BitVec.isLt a; have := BitVec.isLt b; simp only [leadWordOf]; omega)
theorem mul (d a b : Reg) : Statement (.mul d a b) :=
  of_one rfl (by have := BitVec.isLt d; have := BitVec.isLt a; have := BitVec.isLt b; simp only [leadWordOf]; omega)
theorem mulh (d a b : Reg) : Statement (.mulh d a b) :=
  of_one rfl (by have := BitVec.isLt d; have := BitVec.isLt a; have := BitVec.isLt b; simp only [leadWordOf]; omega)
theorem mulhu (d a b : Reg) : Statement (.mulhu d a b) :=
  of_one rfl (by have := BitVec.isLt d; have := BitVec.isLt a; have := BitVec.isLt b; simp only [leadWordOf]; omega)
theorem div (d a b : Reg) : Statement (.div d a b) :=
  of_one rfl (by have := BitVec.isLt d; have := BitVec.isLt a; have := BitVec.isLt b; simp only [leadWordOf]; omega)
theorem divu (d a b : Reg) : Statement (.divu d a b) :=
  of_one rfl (by have := BitVec.isLt d; have := BitVec.isLt a; have := BitVec.isLt b; simp only [leadWordOf]; omega)
theorem rem (d a b : Reg) : Statement (.rem d a b) :=
  of_one rfl (by have := BitVec.isLt d; have := BitVec.isLt a; have := BitVec.isLt b; simp only [leadWordOf]; omega)
theorem remu (d a b : Reg) : Statement (.remu d a b) :=
  of_one rfl (by have := BitVec.isLt d; have := BitVec.isLt a; have := BitVec.isLt b; simp only [leadWordOf]; omega)
theorem clz (d a : Reg) : Statement (.clz d a) :=
  of_one rfl (by have := BitVec.isLt d; have := BitVec.isLt a; simp only [leadWordOf]; omega)
theorem ctz (d a : Reg) : Statement (.ctz d a) :=
  of_one rfl (by have := BitVec.isLt d; have := BitVec.isLt a; simp only [leadWordOf]; omega)
theorem popc (d a : Reg) : Statement (.popc d a) :=
  of_one rfl (by have := BitVec.isLt d; have := BitVec.isLt a; simp only [leadWordOf]; omega)
theorem exts (d a : Reg) (q : Ty) : Statement (.exts d a q) :=
  of_one rfl (by have := BitVec.isLt d; have := BitVec.isLt a; have := ty_code_lt q; simp only [leadWordOf]; omega)
theorem extz (d a : Reg) (q : Ty) : Statement (.extz d a q) :=
  of_one rfl (by have := BitVec.isLt d; have := BitVec.isLt a; have := ty_code_lt q; simp only [leadWordOf]; omega)
theorem select (d a b : Reg) : Statement (.select d a b) :=
  of_one rfl (by have := BitVec.isLt d; have := BitVec.isLt a; have := BitVec.isLt b; simp only [leadWordOf]; omega)
theorem bswap (d a : Reg) (q : Ty) : Statement (.bswap d a q) :=
  of_one rfl (by have := BitVec.isLt d; have := BitVec.isLt a; have := ty_code_lt q; simp only [leadWordOf]; omega)
theorem ldhi (d : Reg) (i : BitVec 21) : Statement (.ldhi d i) :=
  of_one rfl (by have := BitVec.isLt d; have := BitVec.isLt i; omega)
theorem addpc (d : Reg) (i : BitVec 21) : Statement (.addpc d i) :=
  of_one rfl (by have := BitVec.isLt d; have := BitVec.isLt i; omega)
theorem fadd (d a b : Reg) (t : Ty) : Statement (.fadd d a b t) :=
  of_one rfl (by have := BitVec.isLt d; have := BitVec.isLt a; have := BitVec.isLt b; have := ty_code_lt t; simp only [leadWordOf]; omega)
theorem fsub (d a b : Reg) (t : Ty) : Statement (.fsub d a b t) :=
  of_one rfl (by have := BitVec.isLt d; have := BitVec.isLt a; have := BitVec.isLt b; have := ty_code_lt t; simp only [leadWordOf]; omega)
theorem fmul (d a b : Reg) (t : Ty) : Statement (.fmul d a b t) :=
  of_one rfl (by have := BitVec.isLt d; have := BitVec.isLt a; have := BitVec.isLt b; have := ty_code_lt t; simp only [leadWordOf]; omega)
theorem fdiv (d a b : Reg) (t : Ty) : Statement (.fdiv d a b t) :=
  of_one rfl (by have := BitVec.isLt d; have := BitVec.isLt a; have := BitVec.isLt b; have := ty_code_lt t; simp only [leadWordOf]; omega)
theorem fsqrt (d a : Reg) (t : Ty) : Statement (.fsqrt d a t) :=
  of_one rfl (by have := BitVec.isLt d; have := BitVec.isLt a; have := ty_code_lt t; simp only [leadWordOf]; omega)
theorem fmin (d a b : Reg) (t : Ty) : Statement (.fmin d a b t) :=
  of_one rfl (by have := BitVec.isLt d; have := BitVec.isLt a; have := BitVec.isLt b; have := ty_code_lt t; simp only [leadWordOf]; omega)
theorem fmax (d a b : Reg) (t : Ty) : Statement (.fmax d a b t) :=
  of_one rfl (by have := BitVec.isLt d; have := BitVec.isLt a; have := BitVec.isLt b; have := ty_code_lt t; simp only [leadWordOf]; omega)
theorem fcmpEq (d a b : Reg) (t : Ty) : Statement (.fcmpEq d a b t) :=
  of_one rfl (by have := BitVec.isLt d; have := BitVec.isLt a; have := BitVec.isLt b; have := ty_code_lt t; simp only [leadWordOf]; omega)
theorem fcmpLt (d a b : Reg) (t : Ty) : Statement (.fcmpLt d a b t) :=
  of_one rfl (by have := BitVec.isLt d; have := BitVec.isLt a; have := BitVec.isLt b; have := ty_code_lt t; simp only [leadWordOf]; omega)
theorem fcmpLe (d a b : Reg) (t : Ty) : Statement (.fcmpLe d a b t) :=
  of_one rfl (by have := BitVec.isLt d; have := BitVec.isLt a; have := BitVec.isLt b; have := ty_code_lt t; simp only [leadWordOf]; omega)
theorem fclass (d a : Reg) (t : Ty) : Statement (.fclass d a t) :=
  of_one rfl (by have := BitVec.isLt d; have := BitVec.isLt a; have := ty_code_lt t; simp only [leadWordOf]; omega)
theorem fsgnJ (d a b : Reg) (t : Ty) : Statement (.fsgnJ d a b t) :=
  of_one rfl (by have := BitVec.isLt d; have := BitVec.isLt a; have := BitVec.isLt b; have := ty_code_lt t; simp only [leadWordOf]; omega)
theorem fsgnN (d a b : Reg) (t : Ty) : Statement (.fsgnN d a b t) :=
  of_one rfl (by have := BitVec.isLt d; have := BitVec.isLt a; have := BitVec.isLt b; have := ty_code_lt t; simp only [leadWordOf]; omega)
theorem fsgnX (d a b : Reg) (t : Ty) : Statement (.fsgnX d a b t) :=
  of_one rfl (by have := BitVec.isLt d; have := BitVec.isLt a; have := BitVec.isLt b; have := ty_code_lt t; simp only [leadWordOf]; omega)
theorem fmovxToX (d a : Reg) : Statement (.fmovxToX d a) :=
  of_one rfl (by have := BitVec.isLt d; have := BitVec.isLt a; simp only [leadWordOf]; omega)
theorem fmovxToF (d a : Reg) : Statement (.fmovxToF d a) :=
  of_one rfl (by have := BitVec.isLt d; have := BitVec.isLt a; simp only [leadWordOf]; omega)
theorem fcvtToFloat (d a : Reg) (dst src : Ty) : Statement (.fcvtToFloat d a dst src) :=
  of_one rfl (by have := BitVec.isLt d; have := BitVec.isLt a; have := ty_code_lt dst; have := ty_ft_lt dst; have := ty_code_lt src; have := ty_ft_lt src; simp only [leadWordOf]; omega)
theorem fcvtToInteger (d a : Reg) (dst src : Ty) : Statement (.fcvtToInteger d a dst src) :=
  of_one rfl (by have := BitVec.isLt d; have := BitVec.isLt a; have := ty_code_lt dst; have := ty_ft_lt dst; have := ty_code_lt src; have := ty_ft_lt src; simp only [leadWordOf]; omega)
theorem fma (d a b c : Reg) (t : Ty) : Statement (.fma d a b c t) :=
  of_one rfl (by have := BitVec.isLt d; have := BitVec.isLt a; have := BitVec.isLt b; have := BitVec.isLt c; have := ty_code_lt t; have := ty_ft_lt t; simp only [leadWordOf]; omega)
theorem fmaS (d a b c : Reg) (t : Ty) : Statement (.fmaS d a b c t) :=
  of_one rfl (by have := BitVec.isLt d; have := BitVec.isLt a; have := BitVec.isLt b; have := BitVec.isLt c; have := ty_code_lt t; have := ty_ft_lt t; simp only [leadWordOf]; omega)
theorem fmaN (d a b c : Reg) (t : Ty) : Statement (.fmaN d a b c t) :=
  of_one rfl (by have := BitVec.isLt d; have := BitVec.isLt a; have := BitVec.isLt b; have := BitVec.isLt c; have := ty_code_lt t; have := ty_ft_lt t; simp only [leadWordOf]; omega)
theorem fmaNs (d a b c : Reg) (t : Ty) : Statement (.fmaNs d a b c t) :=
  of_one rfl (by have := BitVec.isLt d; have := BitVec.isLt a; have := BitVec.isLt b; have := BitVec.isLt c; have := ty_code_lt t; have := ty_ft_lt t; simp only [leadWordOf]; omega)
theorem ld (d a : Reg) (wd : MemW) (off : BitVec 13) : Statement (.ld d a wd off) :=
  of_one rfl (by have := BitVec.isLt d; have := BitVec.isLt a; have := memW_code_lt wd; have := BitVec.isLt off; omega)
theorem st (d a : Reg) (wd : Size) (off : BitVec 13) : Statement (.st d a wd off) :=
  of_one rfl (by have := BitVec.isLt d; have := BitVec.isLt a; have := size_code_lt wd; have := BitVec.isLt off; omega)
theorem pref (a : Reg) (off : BitVec 13) : Statement (.pref a off) :=
  of_one rfl (by have := BitVec.isLt a; have := BitVec.isLt off; omega)
theorem ldAq (d a : Reg) (wd : Size) (sc : Scope) : Statement (.ldAq d a wd sc) :=
  of_one rfl (by have := bool_lt true; have := bool_lt false; have := BitVec.isLt d; have := BitVec.isLt a; have := size_code_lt wd; have := scope_code_lt sc; omega)
theorem stRl (a b : Reg) (wd : Size) (sc : Scope) : Statement (.stRl a b wd sc) :=
  of_one rfl (by have := bool_lt true; have := bool_lt false; have := BitVec.isLt a; have := BitVec.isLt b; have := size_code_lt wd; have := scope_code_lt sc; omega)
theorem amoSwap (d a b : Reg) (aq rl dw : Bool) (sc : Scope) : Statement (.amoSwap d a b aq rl dw sc) :=
  of_one rfl (by have := bool_lt true; have := bool_lt false; have := BitVec.isLt d; have := BitVec.isLt a; have := BitVec.isLt b; have := bool_lt aq; have := bool_lt rl; have := dwCode_lt dw; have := scope_code_lt sc; omega)
theorem amoAdd (d a b : Reg) (aq rl dw : Bool) (sc : Scope) : Statement (.amoAdd d a b aq rl dw sc) :=
  of_one rfl (by have := bool_lt true; have := bool_lt false; have := BitVec.isLt d; have := BitVec.isLt a; have := BitVec.isLt b; have := bool_lt aq; have := bool_lt rl; have := dwCode_lt dw; have := scope_code_lt sc; omega)
theorem amoAnd (d a b : Reg) (aq rl dw : Bool) (sc : Scope) : Statement (.amoAnd d a b aq rl dw sc) :=
  of_one rfl (by have := bool_lt true; have := bool_lt false; have := BitVec.isLt d; have := BitVec.isLt a; have := BitVec.isLt b; have := bool_lt aq; have := bool_lt rl; have := dwCode_lt dw; have := scope_code_lt sc; omega)
theorem amoOr (d a b : Reg) (aq rl dw : Bool) (sc : Scope) : Statement (.amoOr d a b aq rl dw sc) :=
  of_one rfl (by have := bool_lt true; have := bool_lt false; have := BitVec.isLt d; have := BitVec.isLt a; have := BitVec.isLt b; have := bool_lt aq; have := bool_lt rl; have := dwCode_lt dw; have := scope_code_lt sc; omega)
theorem amoXor (d a b : Reg) (aq rl dw : Bool) (sc : Scope) : Statement (.amoXor d a b aq rl dw sc) :=
  of_one rfl (by have := bool_lt true; have := bool_lt false; have := BitVec.isLt d; have := BitVec.isLt a; have := BitVec.isLt b; have := bool_lt aq; have := bool_lt rl; have := dwCode_lt dw; have := scope_code_lt sc; omega)
theorem amoMin (d a b : Reg) (aq rl dw : Bool) (sc : Scope) : Statement (.amoMin d a b aq rl dw sc) :=
  of_one rfl (by have := bool_lt true; have := bool_lt false; have := BitVec.isLt d; have := BitVec.isLt a; have := BitVec.isLt b; have := bool_lt aq; have := bool_lt rl; have := dwCode_lt dw; have := scope_code_lt sc; omega)
theorem amoMax (d a b : Reg) (aq rl dw : Bool) (sc : Scope) : Statement (.amoMax d a b aq rl dw sc) :=
  of_one rfl (by have := bool_lt true; have := bool_lt false; have := BitVec.isLt d; have := BitVec.isLt a; have := BitVec.isLt b; have := bool_lt aq; have := bool_lt rl; have := dwCode_lt dw; have := scope_code_lt sc; omega)
theorem amoMinu (d a b : Reg) (aq rl dw : Bool) (sc : Scope) : Statement (.amoMinu d a b aq rl dw sc) :=
  of_one rfl (by have := bool_lt true; have := bool_lt false; have := BitVec.isLt d; have := BitVec.isLt a; have := BitVec.isLt b; have := bool_lt aq; have := bool_lt rl; have := dwCode_lt dw; have := scope_code_lt sc; omega)
theorem amoMaxu (d a b : Reg) (aq rl dw : Bool) (sc : Scope) : Statement (.amoMaxu d a b aq rl dw sc) :=
  of_one rfl (by have := bool_lt true; have := bool_lt false; have := BitVec.isLt d; have := BitVec.isLt a; have := BitVec.isLt b; have := bool_lt aq; have := bool_lt rl; have := dwCode_lt dw; have := scope_code_lt sc; omega)
theorem cas (d a b : Reg) (aq rl dw : Bool) (sc : Scope) : Statement (.cas d a b aq rl dw sc) :=
  of_one rfl (by have := bool_lt true; have := bool_lt false; have := BitVec.isLt d; have := BitVec.isLt a; have := BitVec.isLt b; have := bool_lt aq; have := bool_lt rl; have := dwCode_lt dw; have := scope_code_lt sc; omega)
theorem fence (dir : Dir) (sc : Scope) : Statement (.fence dir sc) :=
  of_one rfl (by have := bool_lt true; have := bool_lt false; have := dir_code_lt dir; have := scope_code_lt sc; omega)
theorem ldb (d a : Reg) (wm1 : BitVec 4) (sx : Bool) : Statement (.ldb d a wm1 sx) :=
  of_one rfl (by have := BitVec.isLt d; have := BitVec.isLt a; have := BitVec.isLt wm1; have := bool_lt sx; omega)
theorem stb (a b : Reg) (wm1 : BitVec 4) : Statement (.stb a b wm1) :=
  of_one rfl (by have := BitVec.isLt a; have := BitVec.isLt b; have := BitVec.isLt wm1; omega)
theorem br (a b : Reg) (c : Cond) (disp : BitVec 13) : Statement (.br a b c disp) :=
  of_one rfl (by have := BitVec.isLt a; have := BitVec.isLt b; have := cond_code_lt c; have := BitVec.isLt disp; omega)
theorem jal (d : Reg) (disp : BitVec 21) : Statement (.jal d disp) :=
  of_one rfl (by have := BitVec.isLt d; have := BitVec.isLt disp; omega)
theorem jalr (d a : Reg) (i : BitVec 16) : Statement (.jalr d a i) :=
  of_one rfl (by have := BitVec.isLt d; have := BitVec.isLt a; have := BitVec.isLt i; omega)
theorem loop (a : Reg) (i : BitVec 16) : Statement (.loop a i) :=
  of_one rfl (by have := BitVec.isLt a; have := BitVec.isLt i; omega)
theorem lend : Statement (.lend) :=
  of_one rfl (by simp only [leadWordOf]; omega)
theorem send (d a b : Reg) (u : Bool) : Statement (.send d a b u) :=
  of_one rfl (by have := BitVec.isLt d; have := BitVec.isLt a; have := BitVec.isLt b; have := bool_lt u; simp only [leadWordOf]; omega)
theorem recv (d a b : Reg) (u : Bool) : Statement (.recv d a b u) :=
  of_one rfl (by have := BitVec.isLt d; have := BitVec.isLt a; have := BitVec.isLt b; have := bool_lt u; simp only [leadWordOf]; omega)
theorem gbar (d : Reg) : Statement (.gbar d) :=
  of_one rfl (by have := BitVec.isLt d; simp only [leadWordOf]; omega)
theorem setwm (a b : Reg) (sc : Scope) : Statement (.setwm a b sc) :=
  of_one rfl (by have := BitVec.isLt a; have := BitVec.isLt b; have := scope_code_lt sc; simp only [leadWordOf]; omega)
theorem waitwm (a b : Reg) (sc : Scope) : Statement (.waitwm a b sc) :=
  of_one rfl (by have := BitVec.isLt a; have := BitVec.isLt b; have := scope_code_lt sc; simp only [leadWordOf]; omega)
theorem waitt (a : Reg) : Statement (.waitt a) :=
  of_one rfl (by have := BitVec.isLt a; simp only [leadWordOf]; omega)
theorem tspawn (a b : Reg) (n : BitVec 2) : Statement (.tspawn a b n) :=
  of_one rfl (by have := BitVec.isLt a; have := BitVec.isLt b; have := BitVec.isLt n; simp only [leadWordOf]; omega)
theorem tdone : Statement (.tdone) :=
  of_one rfl (by simp only [leadWordOf]; omega)
theorem tirrev : Statement (.tirrev) :=
  of_one rfl (by simp only [leadWordOf]; omega)
theorem tabort : Statement (.tabort) :=
  of_one rfl (by simp only [leadWordOf]; omega)
theorem tdomainOpen (d a : Reg) : Statement (.tdomainOpen d a) :=
  of_one rfl (by have := BitVec.isLt d; have := BitVec.isLt a; simp only [leadWordOf]; omega)
theorem tdomainEnter (d : Reg) : Statement (.tdomainEnter d) :=
  of_one rfl (by have := BitVec.isLt d; simp only [leadWordOf]; omega)
theorem tdomainClose (d : Reg) : Statement (.tdomainClose d) :=
  of_one rfl (by have := BitVec.isLt d; simp only [leadWordOf]; omega)
theorem scopy (d a : Reg) : Statement (.scopy d a) :=
  of_one rfl (by have := BitVec.isLt d; have := BitVec.isLt a; simp only [leadWordOf]; omega)
theorem smap (d a : Reg) : Statement (.smap d a) :=
  of_one rfl (by have := BitVec.isLt d; have := BitVec.isLt a; simp only [leadWordOf]; omega)
theorem sput (d a : Reg) : Statement (.sput d a) :=
  of_one rfl (by have := BitVec.isLt d; have := BitVec.isLt a; simp only [leadWordOf]; omega)
theorem swait (a : Reg) : Statement (.swait a) :=
  of_one rfl (by have := BitVec.isLt a; simp only [leadWordOf]; omega)
theorem syscall (i : BitVec 12) : Statement (.syscall i) :=
  of_one rfl (by have := BitVec.isLt i; omega)
theorem brk (i : BitVec 12) : Statement (.brk i) :=
  of_one rfl (by have := BitVec.isLt i; omega)
theorem getsr (d : Reg) (sr : BitVec 12) : Statement (.getsr d sr) :=
  of_one rfl (by have := BitVec.isLt d; have := BitVec.isLt sr; omega)
theorem setsr (a : Reg) (sr : BitVec 12) : Statement (.setsr a sr) :=
  of_one rfl (by have := BitVec.isLt a; have := BitVec.isLt sr; omega)
theorem swapsr (d a : Reg) (sr : BitVec 12) : Statement (.swapsr d a sr) :=
  of_one rfl (by have := BitVec.isLt d; have := BitVec.isLt a; have := BitVec.isLt sr; omega)
theorem tret : Statement (.tret) :=
  of_one rfl (by simp only [leadWordOf]; omega)
theorem idle : Statement (.idle) :=
  of_one rfl (by simp only [leadWordOf]; omega)
theorem tlbinvPage (a b : Reg) (sc : Scope) : Statement (.tlbinvPage a b sc) :=
  of_one rfl (by have := BitVec.isLt a; have := BitVec.isLt b; have := scope_code_lt sc; simp only [leadWordOf]; omega)
theorem tlbinvAsid (b : Reg) (sc : Scope) : Statement (.tlbinvAsid b sc) :=
  of_one rfl (by have := BitVec.isLt b; have := scope_code_lt sc; simp only [leadWordOf]; omega)
theorem tlbinvAll (sc : Scope) : Statement (.tlbinvAll sc) :=
  of_one rfl (by have := scope_code_lt sc; simp only [leadWordOf]; omega)
theorem cacheopIl (a : Reg) : Statement (.cacheopIl a) :=
  of_one rfl (by have := BitVec.isLt a; simp only [leadWordOf]; omega)
theorem cacheopIa : Statement (.cacheopIa) :=
  of_one rfl (by simp only [leadWordOf]; omega)
theorem cacheopWb (a : Reg) : Statement (.cacheopWb a) :=
  of_one rfl (by have := BitVec.isLt a; simp only [leadWordOf]; omega)
theorem cacheopWbi (a : Reg) : Statement (.cacheopWbi a) :=
  of_one rfl (by have := BitVec.isLt a; simp only [leadWordOf]; omega)
theorem kand (d a b : BitVec 3) : Statement (.kand d a b) :=
  of_one rfl (by have := BitVec.isLt d; have := BitVec.isLt a; have := BitVec.isLt b; simp only [leadWordOf]; omega)
theorem kor (d a b : BitVec 3) : Statement (.kor d a b) :=
  of_one rfl (by have := BitVec.isLt d; have := BitVec.isLt a; have := BitVec.isLt b; simp only [leadWordOf]; omega)
theorem kxor (d a b : BitVec 3) : Statement (.kxor d a b) :=
  of_one rfl (by have := BitVec.isLt d; have := BitVec.isLt a; have := BitVec.isLt b; simp only [leadWordOf]; omega)
theorem knot (d a : BitVec 3) : Statement (.knot d a) :=
  of_one rfl (by have := BitVec.isLt d; have := BitVec.isLt a; simp only [leadWordOf]; omega)
theorem kpopc (d : Reg) (a : BitVec 3) : Statement (.kpopc d a) :=
  of_one rfl (by have := BitVec.isLt d; have := BitVec.isLt a; simp only [leadWordOf]; omega)
theorem kfirst (d : Reg) (a : BitVec 3) : Statement (.kfirst d a) :=
  of_one rfl (by have := BitVec.isLt d; have := BitVec.isLt a; simp only [leadWordOf]; omega)
theorem kset (d : BitVec 3) (a : Reg) : Statement (.kset d a) :=
  of_one rfl (by have := BitVec.isLt d; have := BitVec.isLt a; simp only [leadWordOf]; omega)
theorem setvl (d a : Reg) (regs : BitVec 2) (ew : Size) : Statement (.setvl d a regs ew) :=
  of_one rfl (by have := BitVec.isLt d; have := BitVec.isLt a; have := BitVec.isLt regs; have := size_code_lt ew; omega)
theorem vsave (a : Reg) : Statement (.vsave a) :=
  of_one rfl (by have := BitVec.isLt a; simp only [leadWordOf]; omega)
theorem vrest (a : Reg) : Statement (.vrest a) :=
  of_one rfl (by have := BitVec.isLt a; simp only [leadWordOf]; omega)
theorem mshape (d a b : Reg) : Statement (.mshape d a b) :=
  of_one rfl (by have := BitVec.isLt d; have := BitVec.isLt a; have := BitVec.isLt b; simp only [leadWordOf]; omega)
theorem mzero (c : BitVec 3) : Statement (.mzero c) :=
  of_one rfl (by have := BitVec.isLt c; simp only [leadWordOf]; omega)
theorem mlda (d : BitVec 2) (a b : Reg) : Statement (.mlda d a b) :=
  of_one rfl (by have := BitVec.isLt d; have := BitVec.isLt a; have := BitVec.isLt b; simp only [leadWordOf]; omega)
theorem mldaScale (d : BitVec 2) (a b : Reg) (q : Ty) : Statement (.mldaScale d a b q) :=
  of_one rfl (by have := BitVec.isLt d; have := BitVec.isLt a; have := BitVec.isLt b; have := ty_code_lt q; simp only [leadWordOf]; omega)
theorem mldaff (d : BitVec 2) (a b : Reg) : Statement (.mldaff d a b) :=
  of_one rfl (by have := BitVec.isLt d; have := BitVec.isLt a; have := BitVec.isLt b; simp only [leadWordOf]; omega)
theorem mldb (d a b : Reg) : Statement (.mldb d a b) :=
  of_one rfl (by have := BitVec.isLt d; have := BitVec.isLt a; have := BitVec.isLt b; simp only [leadWordOf]; omega)
theorem mldbScale (d a b : Reg) (q : Ty) : Statement (.mldbScale d a b q) :=
  of_one rfl (by have := BitVec.isLt d; have := BitVec.isLt a; have := BitVec.isLt b; have := ty_code_lt q; simp only [leadWordOf]; omega)
theorem mldw (d : BitVec 2) (a b : Reg) (m : BitVec 2) : Statement (.mldw d a b m) :=
  of_one rfl (by have := BitVec.isLt d; have := BitVec.isLt a; have := BitVec.isLt b; have := BitVec.isLt m; simp only [leadWordOf]; omega)
theorem mtmap (d : BitVec 2) (a : Reg) : Statement (.mtmap d a) :=
  of_one rfl (by have := BitVec.isLt d; have := BitVec.isLt a; simp only [leadWordOf]; omega)
theorem mma (c : BitVec 3) (a : BitVec 2) (b : Reg) (f : Ty) : Statement (.mma c a b f) :=
  of_one rfl (by have := BitVec.isLt c; have := BitVec.isLt a; have := BitVec.isLt b; have := ty_code_lt f; simp only [leadWordOf]; omega)
theorem mstc (c : BitVec 3) (a b : Reg) (f : Ty) : Statement (.mstc c a b f) :=
  of_one rfl (by have := BitVec.isLt c; have := BitVec.isLt a; have := BitVec.isLt b; have := ty_code_lt f; simp only [leadWordOf]; omega)
theorem mmovcToVector (d : Reg) (c : BitVec 3) (b : Reg) (k : BitVec 3) : Statement (.mmovcToVector d c b k) :=
  of_one rfl (by have := BitVec.isLt d; have := BitVec.isLt c; have := BitVec.isLt b; have := BitVec.isLt k; simp only [leadWordOf]; omega)
theorem mmovcToTile (c : BitVec 3) (a b : Reg) (k : BitVec 3) : Statement (.mmovcToTile c a b k) :=
  of_one rfl (by have := BitVec.isLt c; have := BitVec.isLt a; have := BitVec.isLt b; have := BitVec.isLt k; simp only [leadWordOf]; omega)
theorem mcastTile (d : Reg) (a : BitVec 2) : Statement (.mcastTile d a) :=
  of_one rfl (by have := BitVec.isLt d; have := BitVec.isLt a; simp only [leadWordOf]; omega)
theorem mcastRows (d a : Reg) : Statement (.mcastRows d a) :=
  of_one rfl (by have := BitVec.isLt d; have := BitVec.isLt a; simp only [leadWordOf]; omega)
theorem mwait : Statement (.mwait) :=
  of_one rfl (by simp only [leadWordOf]; omega)
theorem msave (a : Reg) : Statement (.msave a) :=
  of_one rfl (by have := BitVec.isLt a; simp only [leadWordOf]; omega)
theorem mrest (a : Reg) : Statement (.mrest a) :=
  of_one rfl (by have := BitVec.isLt a; simp only [leadWordOf]; omega)
theorem vld (h : VHdr) (d a : Reg) (t : Ty) : Statement (.vld h d a t) :=
  of_two (e := { op := 56, fn := 0, t := t, cv := h.cv, km := h.km.toNat, d := d.toNat, a := a.toNat }) rfl ⟨⟨Nat.le_of_ble_eq_true rfl, lit rfl⟩, lit rfl, BitVec.isLt _, BitVec.isLt _, BitVec.isLt _, lit rfl, lit rfl, lit rfl, lit rfl⟩
theorem vlds (h : VHdr) (d a : Reg) (b : VSrc) (t : Ty) : Statement (.vlds h d a b t) :=
  of_two (e := { op := 56, fn := 1, t := t, cv := h.cv, km := h.km.toNat, d := d.toNat, a := a.toNat, b := b.field, imm := b.word }) rfl ⟨⟨Nat.le_of_ble_eq_true rfl, lit rfl⟩, lit rfl, BitVec.isLt _, BitVec.isLt _, BitVec.isLt _, vsrc_lt _, lit rfl, lit rfl, lit rfl⟩
theorem vldx (h : VHdr) (d a b : Reg) (t : Ty) (iw : Size) : Statement (.vldx h d a b t iw) :=
  of_two (e := { op := 56, fn := 2, t := t, cv := h.cv, km := h.km.toNat, d := d.toNat, a := a.toNat, b := b.toNat, sub := iw.code }) rfl ⟨⟨Nat.le_of_ble_eq_true rfl, lit rfl⟩, lit rfl, BitVec.isLt _, BitVec.isLt _, BitVec.isLt _, BitVec.isLt _, lit rfl, lit rfl, by have := size_code_lt iw; simp only; omega⟩
theorem vldff (h : VHdr) (d a : Reg) (t : Ty) : Statement (.vldff h d a t) :=
  of_two (e := { op := 56, fn := 3, t := t, cv := h.cv, km := h.km.toNat, d := d.toNat, a := a.toNat }) rfl ⟨⟨Nat.le_of_ble_eq_true rfl, lit rfl⟩, lit rfl, BitVec.isLt _, BitVec.isLt _, BitVec.isLt _, lit rfl, lit rfl, lit rfl, lit rfl⟩
theorem vst (h : VHdr) (d a : Reg) (t : Ty) : Statement (.vst h d a t) :=
  of_two (e := { op := 56, fn := 4, t := t, cv := h.cv, km := h.km.toNat, d := d.toNat, a := a.toNat }) rfl ⟨⟨Nat.le_of_ble_eq_true rfl, lit rfl⟩, lit rfl, BitVec.isLt _, BitVec.isLt _, BitVec.isLt _, lit rfl, lit rfl, lit rfl, lit rfl⟩
theorem vsts (h : VHdr) (d a : Reg) (b : VSrc) (t : Ty) : Statement (.vsts h d a b t) :=
  of_two (e := { op := 56, fn := 5, t := t, cv := h.cv, km := h.km.toNat, d := d.toNat, a := a.toNat, b := b.field, imm := b.word }) rfl ⟨⟨Nat.le_of_ble_eq_true rfl, lit rfl⟩, lit rfl, BitVec.isLt _, BitVec.isLt _, BitVec.isLt _, vsrc_lt _, lit rfl, lit rfl, lit rfl⟩
theorem vstx (h : VHdr) (d a b : Reg) (t : Ty) (iw : Size) : Statement (.vstx h d a b t iw) :=
  of_two (e := { op := 56, fn := 6, t := t, cv := h.cv, km := h.km.toNat, d := d.toNat, a := a.toNat, b := b.toNat, sub := iw.code }) rfl ⟨⟨Nat.le_of_ble_eq_true rfl, lit rfl⟩, lit rfl, BitVec.isLt _, BitVec.isLt _, BitVec.isLt _, BitVec.isLt _, lit rfl, lit rfl, by have := size_code_lt iw; simp only; omega⟩
theorem vbpld (cv : Bool) (d a : Reg) (wm1 : BitVec 4) : Statement (.vbpld cv d a wm1) :=
  of_two (e := { op := 57, fn := 0, t := .b, cv := cv, d := d.toNat, a := a.toNat, sub := wm1.toNat }) rfl ⟨⟨Nat.le_of_ble_eq_true rfl, lit rfl⟩, lit rfl, lit rfl, BitVec.isLt _, BitVec.isLt _, lit rfl, lit rfl, lit rfl, by have := BitVec.isLt wm1; simp only; omega⟩
theorem vbpst (cv : Bool) (d a : Reg) (wm1 : BitVec 4) : Statement (.vbpst cv d a wm1) :=
  of_two (e := { op := 57, fn := 1, t := .b, cv := cv, d := d.toNat, a := a.toNat, sub := wm1.toNat }) rfl ⟨⟨Nat.le_of_ble_eq_true rfl, lit rfl⟩, lit rfl, lit rfl, BitVec.isLt _, BitVec.isLt _, lit rfl, lit rfl, lit rfl, by have := BitVec.isLt wm1; simp only; omega⟩
theorem vbpdot (cv : Bool) (d a b : Reg) (t : Ty) (wam1 wbm1 : BitVec 4) : Statement (.vbpdot cv d a b t wam1 wbm1) :=
  of_two (e := { op := 57, fn := 2, t := t, cv := cv, d := d.toNat, a := a.toNat, b := b.toNat, sub := wam1.toNat * 16 + wbm1.toNat }) rfl ⟨⟨Nat.le_of_ble_eq_true rfl, lit rfl⟩, lit rfl, lit rfl, BitVec.isLt _, BitVec.isLt _, BitVec.isLt _, lit rfl, lit rfl, by have := BitVec.isLt wam1; have := BitVec.isLt wbm1; simp only; omega⟩
theorem vbpcvtToplanes (cv : Bool) (d a : Reg) (t : Ty) (wm1 : BitVec 4) : Statement (.vbpcvtToplanes cv d a t wm1) :=
  of_two (e := { op := 57, fn := 3, t := t, cv := cv, d := d.toNat, a := a.toNat, sub := wm1.toNat }) rfl ⟨⟨Nat.le_of_ble_eq_true rfl, lit rfl⟩, lit rfl, lit rfl, BitVec.isLt _, BitVec.isLt _, lit rfl, lit rfl, lit rfl, by have := BitVec.isLt wm1; simp only; omega⟩
theorem vbpcvtTopacked (cv : Bool) (d a : Reg) (t : Ty) (wm1 : BitVec 4) : Statement (.vbpcvtTopacked cv d a t wm1) :=
  of_two (e := { op := 57, fn := 3, t := t, cv := cv, d := d.toNat, a := a.toNat, sub := 256 + wm1.toNat }) rfl ⟨⟨Nat.le_of_ble_eq_true rfl, lit rfl⟩, lit rfl, lit rfl, BitVec.isLt _, BitVec.isLt _, lit rfl, lit rfl, lit rfl, by have := BitVec.isLt wm1; simp only; omega⟩
theorem vadd (h : VHdr) (d a : Reg) (b : VSrc) (t : Ty) : Statement (.vadd h d a b t) :=
  of_two (e := { op := 58, fn := 0, t := t, cv := h.cv, km := h.km.toNat, d := d.toNat, a := a.toNat, b := b.field, imm := b.word }) rfl ⟨⟨Nat.le_of_ble_eq_true rfl, lit rfl⟩, lit rfl, BitVec.isLt _, BitVec.isLt _, BitVec.isLt _, vsrc_lt _, lit rfl, lit rfl, lit rfl⟩
theorem vsub (h : VHdr) (d a : Reg) (b : VSrc) (t : Ty) : Statement (.vsub h d a b t) :=
  of_two (e := { op := 58, fn := 1, t := t, cv := h.cv, km := h.km.toNat, d := d.toNat, a := a.toNat, b := b.field, imm := b.word }) rfl ⟨⟨Nat.le_of_ble_eq_true rfl, lit rfl⟩, lit rfl, BitVec.isLt _, BitVec.isLt _, BitVec.isLt _, vsrc_lt _, lit rfl, lit rfl, lit rfl⟩
theorem vmul (h : VHdr) (d a : Reg) (b : VSrc) (t : Ty) : Statement (.vmul h d a b t) :=
  of_two (e := { op := 58, fn := 2, t := t, cv := h.cv, km := h.km.toNat, d := d.toNat, a := a.toNat, b := b.field, imm := b.word }) rfl ⟨⟨Nat.le_of_ble_eq_true rfl, lit rfl⟩, lit rfl, BitVec.isLt _, BitVec.isLt _, BitVec.isLt _, vsrc_lt _, lit rfl, lit rfl, lit rfl⟩
theorem vmulh (h : VHdr) (d a b : Reg) (t : Ty) : Statement (.vmulh h d a b t) :=
  of_two (e := { op := 58, fn := 3, t := t, cv := h.cv, km := h.km.toNat, d := d.toNat, a := a.toNat, b := b.toNat }) rfl ⟨⟨Nat.le_of_ble_eq_true rfl, lit rfl⟩, lit rfl, BitVec.isLt _, BitVec.isLt _, BitVec.isLt _, BitVec.isLt _, lit rfl, lit rfl, lit rfl⟩
theorem vmadd (h : VHdr) (d a b c : Reg) (t : Ty) : Statement (.vmadd h d a b c t) :=
  of_two (e := { op := 58, fn := 4, t := t, cv := h.cv, km := h.km.toNat, d := d.toNat, a := a.toNat, b := b.toNat, c := c.toNat }) rfl ⟨⟨Nat.le_of_ble_eq_true rfl, lit rfl⟩, lit rfl, BitVec.isLt _, BitVec.isLt _, BitVec.isLt _, BitVec.isLt _, BitVec.isLt _, lit rfl, lit rfl⟩
theorem vmin (h : VHdr) (d a : Reg) (b : VSrc) (t : Ty) : Statement (.vmin h d a b t) :=
  of_two (e := { op := 58, fn := 5, t := t, cv := h.cv, km := h.km.toNat, d := d.toNat, a := a.toNat, b := b.field, imm := b.word }) rfl ⟨⟨Nat.le_of_ble_eq_true rfl, lit rfl⟩, lit rfl, BitVec.isLt _, BitVec.isLt _, BitVec.isLt _, vsrc_lt _, lit rfl, lit rfl, lit rfl⟩
theorem vmax (h : VHdr) (d a : Reg) (b : VSrc) (t : Ty) : Statement (.vmax h d a b t) :=
  of_two (e := { op := 58, fn := 6, t := t, cv := h.cv, km := h.km.toNat, d := d.toNat, a := a.toNat, b := b.field, imm := b.word }) rfl ⟨⟨Nat.le_of_ble_eq_true rfl, lit rfl⟩, lit rfl, BitVec.isLt _, BitVec.isLt _, BitVec.isLt _, vsrc_lt _, lit rfl, lit rfl, lit rfl⟩
theorem vand (h : VHdr) (d a : Reg) (b : VSrc) (t : Ty) : Statement (.vand h d a b t) :=
  of_two (e := { op := 58, fn := 7, t := t, cv := h.cv, km := h.km.toNat, d := d.toNat, a := a.toNat, b := b.field, imm := b.word }) rfl ⟨⟨Nat.le_of_ble_eq_true rfl, lit rfl⟩, lit rfl, BitVec.isLt _, BitVec.isLt _, BitVec.isLt _, vsrc_lt _, lit rfl, lit rfl, lit rfl⟩
theorem vor (h : VHdr) (d a : Reg) (b : VSrc) (t : Ty) : Statement (.vor h d a b t) :=
  of_two (e := { op := 58, fn := 8, t := t, cv := h.cv, km := h.km.toNat, d := d.toNat, a := a.toNat, b := b.field, imm := b.word }) rfl ⟨⟨Nat.le_of_ble_eq_true rfl, lit rfl⟩, lit rfl, BitVec.isLt _, BitVec.isLt _, BitVec.isLt _, vsrc_lt _, lit rfl, lit rfl, lit rfl⟩
theorem vxor (h : VHdr) (d a : Reg) (b : VSrc) (t : Ty) : Statement (.vxor h d a b t) :=
  of_two (e := { op := 58, fn := 9, t := t, cv := h.cv, km := h.km.toNat, d := d.toNat, a := a.toNat, b := b.field, imm := b.word }) rfl ⟨⟨Nat.le_of_ble_eq_true rfl, lit rfl⟩, lit rfl, BitVec.isLt _, BitVec.isLt _, BitVec.isLt _, vsrc_lt _, lit rfl, lit rfl, lit rfl⟩
theorem vshl (h : VHdr) (d a : Reg) (b : VSrc) (t : Ty) : Statement (.vshl h d a b t) :=
  of_two (e := { op := 58, fn := 10, t := t, cv := h.cv, km := h.km.toNat, d := d.toNat, a := a.toNat, b := b.field, imm := b.word }) rfl ⟨⟨Nat.le_of_ble_eq_true rfl, lit rfl⟩, lit rfl, BitVec.isLt _, BitVec.isLt _, BitVec.isLt _, vsrc_lt _, lit rfl, lit rfl, lit rfl⟩
theorem vshr (h : VHdr) (d a : Reg) (b : VSrc) (t : Ty) : Statement (.vshr h d a b t) :=
  of_two (e := { op := 58, fn := 11, t := t, cv := h.cv, km := h.km.toNat, d := d.toNat, a := a.toNat, b := b.field, imm := b.word }) rfl ⟨⟨Nat.le_of_ble_eq_true rfl, lit rfl⟩, lit rfl, BitVec.isLt _, BitVec.isLt _, BitVec.isLt _, vsrc_lt _, lit rfl, lit rfl, lit rfl⟩
theorem vsar (h : VHdr) (d a : Reg) (b : VSrc) (t : Ty) : Statement (.vsar h d a b t) :=
  of_two (e := { op := 58, fn := 12, t := t, cv := h.cv, km := h.km.toNat, d := d.toNat, a := a.toNat, b := b.field, imm := b.word }) rfl ⟨⟨Nat.le_of_ble_eq_true rfl, lit rfl⟩, lit rfl, BitVec.isLt _, BitVec.isLt _, BitVec.isLt _, vsrc_lt _, lit rfl, lit rfl, lit rfl⟩
theorem vadds (h : VHdr) (d a : Reg) (b : VSrc) (t : Ty) : Statement (.vadds h d a b t) :=
  of_two (e := { op := 58, fn := 13, t := t, cv := h.cv, km := h.km.toNat, d := d.toNat, a := a.toNat, b := b.field, imm := b.word }) rfl ⟨⟨Nat.le_of_ble_eq_true rfl, lit rfl⟩, lit rfl, BitVec.isLt _, BitVec.isLt _, BitVec.isLt _, vsrc_lt _, lit rfl, lit rfl, lit rfl⟩
theorem vsubs (h : VHdr) (d a : Reg) (b : VSrc) (t : Ty) : Statement (.vsubs h d a b t) :=
  of_two (e := { op := 58, fn := 14, t := t, cv := h.cv, km := h.km.toNat, d := d.toNat, a := a.toNat, b := b.field, imm := b.word }) rfl ⟨⟨Nat.le_of_ble_eq_true rfl, lit rfl⟩, lit rfl, BitVec.isLt _, BitVec.isLt _, BitVec.isLt _, vsrc_lt _, lit rfl, lit rfl, lit rfl⟩
theorem vabsd (h : VHdr) (d a b : Reg) (t : Ty) : Statement (.vabsd h d a b t) :=
  of_two (e := { op := 58, fn := 15, t := t, cv := h.cv, km := h.km.toNat, d := d.toNat, a := a.toNat, b := b.toNat }) rfl ⟨⟨Nat.le_of_ble_eq_true rfl, lit rfl⟩, lit rfl, BitVec.isLt _, BitVec.isLt _, BitVec.isLt _, BitVec.isLt _, lit rfl, lit rfl, lit rfl⟩
theorem vwiden (h : VHdr) (d a : Reg) (t t2 : Ty) : Statement (.vwiden h d a t t2) :=
  of_two (e := { op := 58, fn := 16, t := t, cv := h.cv, km := h.km.toNat, d := d.toNat, a := a.toNat, t2 := t2.code }) rfl ⟨⟨Nat.le_of_ble_eq_true rfl, lit rfl⟩, lit rfl, BitVec.isLt _, BitVec.isLt _, BitVec.isLt _, lit rfl, lit rfl, ty_code_lt _, lit rfl⟩
theorem vnarrow (h : VHdr) (d a : Reg) (t t2 : Ty) (sat : Bool) : Statement (.vnarrow h d a t t2 sat) :=
  of_two (e := { op := 58, fn := 17, t := t, cv := h.cv, km := h.km.toNat, d := d.toNat, a := a.toNat, t2 := t2.code, sub := sat.toNat }) rfl ⟨⟨Nat.le_of_ble_eq_true rfl, lit rfl⟩, lit rfl, BitVec.isLt _, BitVec.isLt _, BitVec.isLt _, lit rfl, lit rfl, ty_code_lt _, by have := bool_lt sat; simp only; omega⟩
theorem vcmp (h : VHdr) (d : BitVec 3) (a : Reg) (b : VSrc) (t : Ty) (c : VCond) : Statement (.vcmp h d a b t c) :=
  of_two (e := { op := 58, fn := 18, t := t, cv := h.cv, km := h.km.toNat, d := d.toNat, a := a.toNat, b := b.field, imm := b.word, sub := c.code }) rfl ⟨⟨Nat.le_of_ble_eq_true rfl, lit rfl⟩, lit rfl, BitVec.isLt _, Nat.lt_trans (BitVec.isLt _) (lit rfl), BitVec.isLt _, vsrc_lt _, lit rfl, lit rfl, by have := vcond_code_lt c; simp only; omega⟩
theorem vfadd (h : VHdr) (d a : Reg) (b : VSrc) (t : Ty) : Statement (.vfadd h d a b t) :=
  of_two (e := { op := 59, fn := 0, t := t, cv := h.cv, km := h.km.toNat, d := d.toNat, a := a.toNat, b := b.field, imm := b.word }) rfl ⟨⟨Nat.le_of_ble_eq_true rfl, lit rfl⟩, lit rfl, BitVec.isLt _, BitVec.isLt _, BitVec.isLt _, vsrc_lt _, lit rfl, lit rfl, lit rfl⟩
theorem vfsub (h : VHdr) (d a : Reg) (b : VSrc) (t : Ty) : Statement (.vfsub h d a b t) :=
  of_two (e := { op := 59, fn := 1, t := t, cv := h.cv, km := h.km.toNat, d := d.toNat, a := a.toNat, b := b.field, imm := b.word }) rfl ⟨⟨Nat.le_of_ble_eq_true rfl, lit rfl⟩, lit rfl, BitVec.isLt _, BitVec.isLt _, BitVec.isLt _, vsrc_lt _, lit rfl, lit rfl, lit rfl⟩
theorem vfmul (h : VHdr) (d a : Reg) (b : VSrc) (t : Ty) : Statement (.vfmul h d a b t) :=
  of_two (e := { op := 59, fn := 2, t := t, cv := h.cv, km := h.km.toNat, d := d.toNat, a := a.toNat, b := b.field, imm := b.word }) rfl ⟨⟨Nat.le_of_ble_eq_true rfl, lit rfl⟩, lit rfl, BitVec.isLt _, BitVec.isLt _, BitVec.isLt _, vsrc_lt _, lit rfl, lit rfl, lit rfl⟩
theorem vfma (h : VHdr) (d a b c : Reg) (t : Ty) (form : FmaForm) : Statement (.vfma h d a b c t form) :=
  of_two (e := { op := 59, fn := 3, t := t, cv := h.cv, km := h.km.toNat, d := d.toNat, a := a.toNat, b := b.toNat, c := c.toNat, sub := form.code }) rfl ⟨⟨Nat.le_of_ble_eq_true rfl, lit rfl⟩, lit rfl, BitVec.isLt _, BitVec.isLt _, BitVec.isLt _, BitVec.isLt _, BitVec.isLt _, lit rfl, by have := form_code_lt form; simp only; omega⟩
theorem vfdiv (h : VHdr) (d a b : Reg) (t : Ty) : Statement (.vfdiv h d a b t) :=
  of_two (e := { op := 59, fn := 4, t := t, cv := h.cv, km := h.km.toNat, d := d.toNat, a := a.toNat, b := b.toNat }) rfl ⟨⟨Nat.le_of_ble_eq_true rfl, lit rfl⟩, lit rfl, BitVec.isLt _, BitVec.isLt _, BitVec.isLt _, BitVec.isLt _, lit rfl, lit rfl, lit rfl⟩
theorem vfsqrt (h : VHdr) (d a : Reg) (t : Ty) : Statement (.vfsqrt h d a t) :=
  of_two (e := { op := 59, fn := 5, t := t, cv := h.cv, km := h.km.toNat, d := d.toNat, a := a.toNat }) rfl ⟨⟨Nat.le_of_ble_eq_true rfl, lit rfl⟩, lit rfl, BitVec.isLt _, BitVec.isLt _, BitVec.isLt _, lit rfl, lit rfl, lit rfl, lit rfl⟩
theorem vfmin (h : VHdr) (d a : Reg) (b : VSrc) (t : Ty) : Statement (.vfmin h d a b t) :=
  of_two (e := { op := 59, fn := 6, t := t, cv := h.cv, km := h.km.toNat, d := d.toNat, a := a.toNat, b := b.field, imm := b.word }) rfl ⟨⟨Nat.le_of_ble_eq_true rfl, lit rfl⟩, lit rfl, BitVec.isLt _, BitVec.isLt _, BitVec.isLt _, vsrc_lt _, lit rfl, lit rfl, lit rfl⟩
theorem vfmax (h : VHdr) (d a : Reg) (b : VSrc) (t : Ty) : Statement (.vfmax h d a b t) :=
  of_two (e := { op := 59, fn := 7, t := t, cv := h.cv, km := h.km.toNat, d := d.toNat, a := a.toNat, b := b.field, imm := b.word }) rfl ⟨⟨Nat.le_of_ble_eq_true rfl, lit rfl⟩, lit rfl, BitVec.isLt _, BitVec.isLt _, BitVec.isLt _, vsrc_lt _, lit rfl, lit rfl, lit rfl⟩
theorem vfcmp (h : VHdr) (d : BitVec 3) (a : Reg) (b : VSrc) (t : Ty) (c : FCond) : Statement (.vfcmp h d a b t c) :=
  of_two (e := { op := 59, fn := 8, t := t, cv := h.cv, km := h.km.toNat, d := d.toNat, a := a.toNat, b := b.field, imm := b.word, sub := c.code }) rfl ⟨⟨Nat.le_of_ble_eq_true rfl, lit rfl⟩, lit rfl, BitVec.isLt _, Nat.lt_trans (BitVec.isLt _) (lit rfl), BitVec.isLt _, vsrc_lt _, lit rfl, lit rfl, by have := fcond_code_lt c; simp only; omega⟩
theorem vfcvt (h : VHdr) (d a : Reg) (t t2 : Ty) : Statement (.vfcvt h d a t t2) :=
  of_two (e := { op := 59, fn := 9, t := t, cv := h.cv, km := h.km.toNat, d := d.toNat, a := a.toNat, t2 := t2.code }) rfl ⟨⟨Nat.le_of_ble_eq_true rfl, lit rfl⟩, lit rfl, BitVec.isLt _, BitVec.isLt _, BitVec.isLt _, lit rfl, lit rfl, ty_code_lt _, lit rfl⟩
theorem vsf (h : VHdr) (d a : Reg) (t : Ty) (fn : SfFn) : Statement (.vsf h d a t fn) :=
  of_two (e := { op := 59, fn := 10, t := t, cv := h.cv, km := h.km.toNat, d := d.toNat, a := a.toNat, sub := fn.code }) rfl ⟨⟨Nat.le_of_ble_eq_true rfl, lit rfl⟩, lit rfl, BitVec.isLt _, BitVec.isLt _, BitVec.isLt _, lit rfl, lit rfl, lit rfl, by have := sfFn_code_lt fn; simp only; omega⟩
theorem vredsum (h : VHdr) (d a : Reg) (t : Ty) : Statement (.vredsum h d a t) :=
  of_two (e := { op := 60, fn := 0, t := t, cv := h.cv, km := h.km.toNat, d := d.toNat, a := a.toNat }) rfl ⟨⟨Nat.le_of_ble_eq_true rfl, lit rfl⟩, lit rfl, BitVec.isLt _, BitVec.isLt _, BitVec.isLt _, lit rfl, lit rfl, lit rfl, lit rfl⟩
theorem vredmin (h : VHdr) (d a : Reg) (t : Ty) : Statement (.vredmin h d a t) :=
  of_two (e := { op := 60, fn := 1, t := t, cv := h.cv, km := h.km.toNat, d := d.toNat, a := a.toNat }) rfl ⟨⟨Nat.le_of_ble_eq_true rfl, lit rfl⟩, lit rfl, BitVec.isLt _, BitVec.isLt _, BitVec.isLt _, lit rfl, lit rfl, lit rfl, lit rfl⟩
theorem vredmax (h : VHdr) (d a : Reg) (t : Ty) : Statement (.vredmax h d a t) :=
  of_two (e := { op := 60, fn := 2, t := t, cv := h.cv, km := h.km.toNat, d := d.toNat, a := a.toNat }) rfl ⟨⟨Nat.le_of_ble_eq_true rfl, lit rfl⟩, lit rfl, BitVec.isLt _, BitVec.isLt _, BitVec.isLt _, lit rfl, lit rfl, lit rfl, lit rfl⟩
theorem vfredsum (h : VHdr) (d a : Reg) (t t2 : Ty) : Statement (.vfredsum h d a t t2) :=
  of_two (e := { op := 60, fn := 3, t := t, cv := h.cv, km := h.km.toNat, d := d.toNat, a := a.toNat, t2 := t2.code }) rfl ⟨⟨Nat.le_of_ble_eq_true rfl, lit rfl⟩, lit rfl, BitVec.isLt _, BitVec.isLt _, BitVec.isLt _, lit rfl, lit rfl, ty_code_lt _, lit rfl⟩
theorem vfredmin (h : VHdr) (d a : Reg) (t t2 : Ty) : Statement (.vfredmin h d a t t2) :=
  of_two (e := { op := 60, fn := 4, t := t, cv := h.cv, km := h.km.toNat, d := d.toNat, a := a.toNat, t2 := t2.code }) rfl ⟨⟨Nat.le_of_ble_eq_true rfl, lit rfl⟩, lit rfl, BitVec.isLt _, BitVec.isLt _, BitVec.isLt _, lit rfl, lit rfl, ty_code_lt _, lit rfl⟩
theorem vfredmax (h : VHdr) (d a : Reg) (t t2 : Ty) : Statement (.vfredmax h d a t t2) :=
  of_two (e := { op := 60, fn := 5, t := t, cv := h.cv, km := h.km.toNat, d := d.toNat, a := a.toNat, t2 := t2.code }) rfl ⟨⟨Nat.le_of_ble_eq_true rfl, lit rfl⟩, lit rfl, BitVec.isLt _, BitVec.isLt _, BitVec.isLt _, lit rfl, lit rfl, ty_code_lt _, lit rfl⟩
theorem vscan (h : VHdr) (d a c : Reg) (t t2 : Ty) : Statement (.vscan h d a c t t2) :=
  of_two (e := { op := 60, fn := 6, t := t, cv := h.cv, km := h.km.toNat, d := d.toNat, a := a.toNat, c := c.toNat, t2 := t2.code }) rfl ⟨⟨Nat.le_of_ble_eq_true rfl, lit rfl⟩, lit rfl, BitVec.isLt _, BitVec.isLt _, BitVec.isLt _, lit rfl, BitVec.isLt _, ty_code_lt _, lit rfl⟩
theorem vslideup (h : VHdr) (d a : Reg) (b : VSrc) (t : Ty) : Statement (.vslideup h d a b t) :=
  of_two (e := { op := 61, fn := 0, t := t, cv := h.cv, km := h.km.toNat, d := d.toNat, a := a.toNat, b := b.field, imm := b.word }) rfl ⟨⟨Nat.le_of_ble_eq_true rfl, lit rfl⟩, lit rfl, BitVec.isLt _, BitVec.isLt _, BitVec.isLt _, vsrc_lt _, lit rfl, lit rfl, lit rfl⟩
theorem vslidedn (h : VHdr) (d a : Reg) (b : VSrc) (t : Ty) : Statement (.vslidedn h d a b t) :=
  of_two (e := { op := 61, fn := 1, t := t, cv := h.cv, km := h.km.toNat, d := d.toNat, a := a.toNat, b := b.field, imm := b.word }) rfl ⟨⟨Nat.le_of_ble_eq_true rfl, lit rfl⟩, lit rfl, BitVec.isLt _, BitVec.isLt _, BitVec.isLt _, vsrc_lt _, lit rfl, lit rfl, lit rfl⟩
theorem vgather (h : VHdr) (d a b : Reg) (t : Ty) (iw : Size) : Statement (.vgather h d a b t iw) :=
  of_two (e := { op := 61, fn := 2, t := t, cv := h.cv, km := h.km.toNat, d := d.toNat, a := a.toNat, b := b.toNat, sub := iw.code }) rfl ⟨⟨Nat.le_of_ble_eq_true rfl, lit rfl⟩, lit rfl, BitVec.isLt _, BitVec.isLt _, BitVec.isLt _, BitVec.isLt _, lit rfl, lit rfl, by have := size_code_lt iw; simp only; omega⟩
theorem vcompress (h : VHdr) (d a : Reg) (t : Ty) : Statement (.vcompress h d a t) :=
  of_two (e := { op := 61, fn := 3, t := t, cv := h.cv, km := h.km.toNat, d := d.toNat, a := a.toNat }) rfl ⟨⟨Nat.le_of_ble_eq_true rfl, lit rfl⟩, lit rfl, BitVec.isLt _, BitVec.isLt _, BitVec.isLt _, lit rfl, lit rfl, lit rfl, lit rfl⟩
theorem vexpand (h : VHdr) (d a : Reg) (t : Ty) : Statement (.vexpand h d a t) :=
  of_two (e := { op := 61, fn := 4, t := t, cv := h.cv, km := h.km.toNat, d := d.toNat, a := a.toNat }) rfl ⟨⟨Nat.le_of_ble_eq_true rfl, lit rfl⟩, lit rfl, BitVec.isLt _, BitVec.isLt _, BitVec.isLt _, lit rfl, lit rfl, lit rfl, lit rfl⟩
theorem vmerge (h : VHdr) (d a : Reg) (b : VSrc) (t : Ty) : Statement (.vmerge h d a b t) :=
  of_two (e := { op := 61, fn := 5, t := t, cv := h.cv, km := h.km.toNat, d := d.toNat, a := a.toNat, b := b.field, imm := b.word }) rfl ⟨⟨Nat.le_of_ble_eq_true rfl, lit rfl⟩, lit rfl, BitVec.isLt _, BitVec.isLt _, BitVec.isLt _, vsrc_lt _, lit rfl, lit rfl, lit rfl⟩
theorem vbcast (h : VHdr) (d : Reg) (a : VSrc) (t : Ty) : Statement (.vbcast h d a t) :=
  of_two (e := { op := 61, fn := 6, t := t, cv := h.cv, km := h.km.toNat, d := d.toNat, a := a.field, imm := a.word }) rfl ⟨⟨Nat.le_of_ble_eq_true rfl, lit rfl⟩, lit rfl, BitVec.isLt _, BitVec.isLt _, vsrc_lt _, lit rfl, lit rfl, lit rfl, lit rfl⟩
theorem vmvx (h : VHdr) (d a : Reg) (t : Ty) : Statement (.vmvx h d a t) :=
  of_two (e := { op := 61, fn := 7, t := t, cv := h.cv, km := h.km.toNat, d := d.toNat, a := a.toNat }) rfl ⟨⟨Nat.le_of_ble_eq_true rfl, lit rfl⟩, lit rfl, BitVec.isLt _, BitVec.isLt _, BitVec.isLt _, lit rfl, lit rfl, lit rfl, lit rfl⟩
theorem vmvs (h : VHdr) (d a : Reg) (b : VSrc) (t : Ty) : Statement (.vmvs h d a b t) :=
  of_two (e := { op := 61, fn := 8, t := t, cv := h.cv, km := h.km.toNat, d := d.toNat, a := a.toNat, b := b.field, imm := b.word }) rfl ⟨⟨Nat.le_of_ble_eq_true rfl, lit rfl⟩, lit rfl, BitVec.isLt _, BitVec.isLt _, BitVec.isLt _, vsrc_lt _, lit rfl, lit rfl, lit rfl⟩
theorem vmov (h : VHdr) (d a : Reg) (t : Ty) : Statement (.vmov h d a t) :=
  of_two (e := { op := 61, fn := 9, t := t, cv := h.cv, km := h.km.toNat, d := d.toNat, a := a.toNat }) rfl ⟨⟨Nat.le_of_ble_eq_true rfl, lit rfl⟩, lit rfl, BitVec.isLt _, BitVec.isLt _, BitVec.isLt _, lit rfl, lit rfl, lit rfl, lit rfl⟩
theorem viota (h : VHdr) (d : Reg) (t : Ty) : Statement (.viota h d t) :=
  of_two (e := { op := 61, fn := 10, t := t, cv := h.cv, km := h.km.toNat, d := d.toNat }) rfl ⟨⟨Nat.le_of_ble_eq_true rfl, lit rfl⟩, lit rfl, BitVec.isLt _, BitVec.isLt _, lit rfl, lit rfl, lit rfl, lit rfl, lit rfl⟩
theorem vbq (h : VHdr) (d a c : Reg) (t t2 : Ty) : Statement (.vbq h d a c t t2) :=
  of_two (e := { op := 62, fn := 0, t := t, cv := h.cv, km := h.km.toNat, d := d.toNat, a := a.toNat, c := c.toNat, t2 := t2.code }) rfl ⟨⟨Nat.le_of_ble_eq_true rfl, lit rfl⟩, lit rfl, BitVec.isLt _, BitVec.isLt _, BitVec.isLt _, lit rfl, BitVec.isLt _, ty_code_lt _, lit rfl⟩
theorem vbdq (h : VHdr) (d a : Reg) (t t2 : Ty) : Statement (.vbdq h d a t t2) :=
  of_two (e := { op := 62, fn := 1, t := t, cv := h.cv, km := h.km.toNat, d := d.toNat, a := a.toNat, t2 := t2.code }) rfl ⟨⟨Nat.le_of_ble_eq_true rfl, lit rfl⟩, lit rfl, BitVec.isLt _, BitVec.isLt _, BitVec.isLt _, lit rfl, lit rfl, ty_code_lt _, lit rfl⟩
theorem powerOnReset : Statement (.powerOnReset) := of_none rfl
theorem hartctlStart (v : Word) : Statement (.hartctlStart v) := of_none rfl
theorem hartctlStop (v : Word) : Statement (.hartctlStop v) := of_none rfl
theorem hartStop (h : Nat) : Statement (.hartStop h) := of_none rfl
theorem monhartWrite (v : Word) : Statement (.monhartWrite v) := of_none rfl
theorem freezeMaster (v : Word) : Statement (.freezeMaster v) := of_none rfl
theorem freezeRelease (v : Word) : Statement (.freezeRelease v) := of_none rfl
theorem fwctlWriteImage (v : Word) : Statement (.fwctlWriteImage v) := of_none rfl
theorem fwctlReloadPlacement (v : Word) : Statement (.fwctlReloadPlacement v) := of_none rfl
theorem imageVerifyDone (signer : Signer) (version : Word32) (security : Word32) : Statement (.imageVerifyDone signer version security) := of_none rfl
theorem keyctlEnrol (v : Word) : Statement (.keyctlEnrol v) := of_none rfl
theorem keyctlRevoke (v : Word) : Statement (.keyctlRevoke v) := of_none rfl
theorem registerWrite (who : Who) (r : RegAddr) (v : Word) : Statement (.registerWrite who r v) := of_none rfl
theorem localsplitResize (h : Nat) : Statement (.localsplitResize h) := of_none rfl
theorem laneGrant (h : Nat) : Statement (.laneGrant h) := of_none rfl
theorem interruptTake (h : Nat) : Statement (.interruptTake h) := of_none rfl
theorem timecmpMatch (h : Nat) : Statement (.timecmpMatch h) := of_none rfl
theorem swisetWrite (who : Who) (island : Nat) (v : Word) : Statement (.swisetWrite who island v) := of_none rfl
theorem doorbellWrite (who : Who) (f : Nat) (v : Word) : Statement (.doorbellWrite who f v) := of_none rfl
theorem hostirqWrite (who : Who) (f : Nat) (v : Word) : Statement (.hostirqWrite who f v) := of_none rfl
theorem externalInterrupt (f : Nat) (line : BitVec 3) : Statement (.externalInterrupt f line) := of_none rfl
theorem preemptionTake (h : Nat) : Statement (.preemptionTake h) := of_none rfl
theorem lateVectorFault (h : Nat) : Statement (.lateVectorFault h) := of_none rfl
theorem convoyIssue (h : Nat) : Statement (.convoyIssue h) := of_none rfl
theorem convoyDrain (h : Nat) : Statement (.convoyDrain h) := of_none rfl
theorem scalarDestinationWrite (h : Nat) : Statement (.scalarDestinationWrite h) := of_none rfl
theorem matrixExecute (h : Nat) : Statement (.matrixExecute h) := of_none rfl
theorem mcastDelivery (core : Nat) : Statement (.mcastDelivery core) := of_none rfl
theorem mwaitComplete (h : Nat) : Statement (.mwaitComplete h) := of_none rfl
theorem streamCommandStart (core : Nat) : Statement (.streamCommandStart core) := of_none rfl
theorem streamCommandEnd (core : Nat) : Statement (.streamCommandEnd core) := of_none rfl
theorem swaitCheck (h : Nat) : Statement (.swaitCheck h) := of_none rfl
theorem pageWalk (h : Nat) (va : Word) (k : AccKind) : Statement (.pageWalk h va k) := of_none rfl
theorem migrationRecheck (h : Nat) : Statement (.migrationRecheck h) := of_none rfl
theorem sendDeposit (h : Nat) : Statement (.sendDeposit h) := of_none rfl
theorem recvTake (h : Nat) : Statement (.recvTake h) := of_none rfl
theorem gbarRelease (island entry : Nat) : Statement (.gbarRelease island entry) := of_none rfl
theorem idleWake (h : Nat) : Statement (.idleWake h) := of_none rfl
theorem waittExpire (h : Nat) : Statement (.waittExpire h) := of_none rfl
theorem waitwmSatisfied (h : Nat) : Statement (.waitwmSatisfied h) := of_none rfl
theorem watermarkStore (h : Nat) : Statement (.watermarkStore h) := of_none rfl
theorem fenceComplete (h : Nat) : Statement (.fenceComplete h) := of_none rfl
theorem taskFinish (h : Nat) : Statement (.taskFinish h) := of_none rfl
theorem taskDispatch (island : Nat) : Statement (.taskDispatch island) := of_none rfl
theorem frontierExchange (f : Nat) : Statement (.frontierExchange f) := of_none rfl
theorem frontierApply (f : Nat) : Statement (.frontierApply f) := of_none rfl
theorem commitBatch (f dom : Nat) : Statement (.commitBatch f dom) := of_none rfl
theorem taskSpill (island : Nat) : Statement (.taskSpill island) := of_none rfl
theorem taskRefill (island dom : Nat) : Statement (.taskRefill island dom) := of_none rfl
theorem hartReclaim (f dom : Nat) : Statement (.hartReclaim f dom) := of_none rfl
theorem notifyWrite (who : Who) (island slot : Nat) : Statement (.notifyWrite who island slot) := of_none rfl
theorem slotMap (who : Who) (island slot : Nat) : Statement (.slotMap who island slot) := of_none rfl
theorem slotUnmap (who : Who) (island slot : Nat) (retire : Bool) : Statement (.slotUnmap who island slot retire) := of_none rfl
theorem packetParse (island slot : Nat) : Statement (.packetParse island slot) := of_none rfl
theorem schedcfgWrite (who : Who) (island : Nat) (v : Word) : Statement (.schedcfgWrite who island v) := of_none rfl
theorem roundBoundary (island : Nat) (ranking hot cool : List Nat) : Statement (.roundBoundary island ranking hot cool) := of_none rfl
theorem gangPreemptSave (island entry : Nat) : Statement (.gangPreemptSave island entry) := of_none rfl
theorem gexit (who : Who) (island : Nat) (v : Word) : Statement (.gexit who island v) := of_none rfl
theorem monitorCodeTake : Statement (.monitorCodeTake) := of_none rfl
theorem meshWriteLost (h : Nat) (engine : Bool) : Statement (.meshWriteLost h engine) := of_none rfl
theorem directoryError (pa : Nat) : Statement (.directoryError pa) := of_none rfl
theorem taskUnitError (f dom : Nat) : Statement (.taskUnitError f dom) := of_none rfl
theorem correctedError (f : Nat) : Statement (.correctedError f) := of_none rfl
theorem linkDown (l : Link) : Statement (.linkDown l) := of_none rfl
theorem hbmStackFailure (stack : BitVec 4) : Statement (.hbmStackFailure stack) := of_none rfl
theorem thermalTrip : Statement (.thermalTrip) := of_none rfl
theorem powerRailFault : Statement (.powerRailFault) := of_none rfl
theorem functionLevelReset (f : Nat) : Statement (.functionLevelReset f) := of_none rfl
theorem flrctlWrite (who : Who) (f : Nat) (v : Word) : Statement (.flrctlWrite who f v) := of_none rfl
theorem flrDrainDone (f : Nat) : Statement (.flrDrainDone f) := of_none rfl
theorem flrDrainTimeout (f : Nat) : Statement (.flrDrainTimeout f) := of_none rfl
theorem flrScrubDone (f : Nat) : Statement (.flrScrubDone f) := of_none rfl
theorem flrQueuesDone (f : Nat) : Statement (.flrQueuesDone f) := of_none rfl
theorem hostRequest (f : Nat) (r : ExtReq) : Statement (.hostRequest f r) := of_none rfl
theorem nqwrDoorbell (who : Who) (f : Nat) (v : Word) : Statement (.nqwrDoorbell who f v) := of_none rfl
theorem networkStore (f : Nat) (ans : NetAnswer) : Statement (.networkStore f ans) := of_none rfl
theorem networkRetrieve (f : Nat) (ans : NetAnswer) (value : List Byte) : Statement (.networkRetrieve f ans value) := of_none rfl
theorem networkDelete (f : Nat) (ans : NetAnswer) : Statement (.networkDelete f ans) := of_none rfl
theorem networkExist (f : Nat) (ans : NetAnswer) : Statement (.networkExist f ans) := of_none rfl
theorem networkCompletion (f : Nat) : Statement (.networkCompletion f) := of_none rfl
theorem helloSend : Statement (.helloSend) := of_none rfl
theorem helloReceive (serial : Word) (term : Nat) (claims : Bool) : Statement (.helloReceive serial term claims) := of_none rfl
theorem electionTimeout : Statement (.electionTimeout) := of_none rfl
theorem leaderSilenceTimeout : Statement (.leaderSilenceTimeout) := of_none rfl
theorem imageBlockReceive : Statement (.imageBlockReceive) := of_none rfl
theorem imageBlockTimeout : Statement (.imageBlockTimeout) := of_none rfl
theorem recoveryImage (signer : Signer) (version : Word32) (security : Word32) : Statement (.recoveryImage signer version security) := of_none rfl
theorem debugFreeze (who : Who) (island : Nat) (v : Word) : Statement (.debugFreeze who island v) := of_none rfl
theorem debugRelease (who : Who) (island : Nat) (v : Word) : Statement (.debugRelease who island v) := of_none rfl
theorem trtailWrite (who : Who) (core : Nat) (v : Word) : Statement (.trtailWrite who core v) := of_none rfl
theorem notAnInstruction (w : Word32) (cause : Byte) : Statement (.notAnInstruction w cause) := of_none rfl
theorem instructionFetchFault (cause : Byte) (addr : Word) : Statement (.instructionFetchFault cause addr) := of_none rfl
theorem linkTrained (l : Link) : Statement (.linkTrained l) := of_none rfl
theorem peerModuleRequest (m : Nat) (r : ExtReq) : Statement (.peerModuleRequest m r) := of_none rfl
theorem performanceCounterOverflow (h : Nat) : Statement (.performanceCounterOverflow h) := of_none rfl

end Sys2Proof.Laws.Words
end

