-- ==== Sys2Proof/Tests/Slice0.lean ====
section
/-!
SUPPORT. Tests of the decoder on words of the spec, of the checks of WellFormed, of results the spec prints, and, for
each statement that has premises, states that meet them.
-/
namespace Sys2Proof.Tests

set_option Elab.async false
open Sys2Proof Sys2Proof.Machine Sys2Proof.Claim

/-! ### Words of the spec -/

/-- Words the spec prints (R287 to R290, R295, R308 to R324, R342 to R429), each with what it says the word is. -/
theorem test_words_printed_1 :
    decodeWords [0x04A6FFFC] = .ok (.addImm 5 6 (-4)) ∧
    decodeWords [0x10E01235] = .ok (.ldhi 7 0x1235) ∧
    decodeWords [0x04E78000] = .ok (.addImm 7 7 0x8000) ∧
    decodeWords [0x34A03FFD] = .ok (.br 5 0 .ne 0x1FFD) ∧
    decodeWords [0x0CA63801] = .ok (.sub 5 6 7) ∧
    decodeWords [0x0CA63811] = .ok (.mulh 5 6 7) ∧
    decodeWords [0x0CA6381C] = .ok (.select 5 6 7) ∧
    decodeWords [0x08A63FFF] = .ok (.sltImm 5 6 0xFFF) ∧
    decodeWords [0x08A65003] = .ok (.shlImm 5 6 3) ∧
    decodeWords [0x0CA600DD] = .ok (.bswap 5 6 .d) ∧
    decodeWords [0x0CA63804] = .ok (.xor 5 6 7) ∧
    decodeWords [0x08A62FFF] = .ok (.xorImm 5 6 0xFFF) ∧
    decodeWords [0x18221A40] = .ok (.fadd 1 2 3 .sf) ∧
    decodeWords [0x18A11248] = .ok (.fcmpLt 5 1 2 .sf) ∧
    decodeWords [0x18640091] = .ok (.fcvtToFloat 3 4 .sf .w) ∧
    decodeWords [0x18A10095] = .ok (.fcvtToInteger 5 1 .w .sf) ∧
    decodeWords [0x1C221910] = .ok (.fma 1 2 3 4 .sf) ∧
    decodeWords [0x20A64008] = .ok (.ld 5 6 .w 8) ∧
    decodeWords [0x24E27FF8] = .ok (.st 7 2 .d 0x1FF8) ∧
    decodeWords [0x2CA604E0] = .ok (.ldAq 5 6 .w .device) ∧
    decodeWords [0x2C063AF1] = .ok (.stRl 6 7 .d .device) ∧
    decodeWords [0x2CA63EF3] = .ok (.amoAdd 5 6 7 true true true .device) ∧
    decodeWords [0x30A605C0] = .ok (.ldb 5 6 11 true) ∧
    decodeWords [0x30063D81] = .ok (.stb 6 7 11) := by decide +kernel

/-- Words the spec prints (R287 to R290, R295, R308 to R324, R342 to R429), each with what it says the word is. -/
theorem test_words_printed_2 :
    decodeWords [0x383FFC00] = .ok (.jal 1 0x1FFC00) ∧
    decodeWords [0x3C010000] = .ok (.jalr 0 1 0) ∧
    decodeWords [0x40090005] = .ok (.loop 9 5) ∧
    decodeWords [0x44000000] = .ok (.lend) ∧
    decodeWords [0x48A63800] = .ok (.send 5 6 7 false) ∧
    decodeWords [0x48A63841] = .ok (.recv 5 6 7 true) ∧
    decodeWords [0x48A00002] = .ok (.gbar 5) ∧
    decodeWords [0x48053083] = .ok (.setwm 5 6 .island) ∧
    decodeWords [0x480530C4] = .ok (.waitwm 5 6 .device) ∧
    decodeWords [0x48050005] = .ok (.waitt 5) ∧
    decodeWords [0x4C053080] = .ok (.tspawn 5 6 2) ∧
    decodeWords [0x4CA60004] = .ok (.tdomainOpen 5 6) ∧
    decodeWords [0x4CA00044] = .ok (.tdomainEnter 5) ∧
    decodeWords [0x4CA00084] = .ok (.tdomainClose 5) ∧
    decodeWords [0x54000030] = .ok (.syscall 3) ∧
    decodeWords [0x54000051] = .ok (.brk 5) ∧
    decodeWords [0x54A00102] = .ok (.getsr 5 0x010) ∧
    decodeWords [0x54060053] = .ok (.setsr 6 0x005) ∧
    decodeWords [0x54A60044] = .ok (.swapsr 5 6 0x004) ∧
    decodeWords [0x58000000] = .ok (.tret) ∧
    decodeWords [0x58000001] = .ok (.idle) ∧
    decodeWords [0x580530C2] = .ok (.tlbinvPage 5 6 .device) ∧
    decodeWords [0x58003282] = .ok (.tlbinvAsid 6 .island) ∧
    decodeWords [0x58000502] = .ok (.tlbinvAll .system) := by decide +kernel

/-- Words the spec prints (R287 to R290, R295, R308 to R324, R342 to R429), each with what it says the word is. -/
theorem test_words_printed_3 :
    decodeWords [0x58050003] = .ok (.cacheopIl 5) ∧
    decodeWords [0x5C221800] = .ok (.kand 1 2 3) ∧
    decodeWords [0x5CA10005] = .ok (.kfirst 5 1) ∧
    decodeWords [0x64050000] = .ok (.vsave 5) ∧
    decodeWords [0x64050001] = .ok (.vrest 5) ∧
    decodeWords [0xE0250080, 0x80000000] = .ok (.vld ⟨true, 0⟩ 1 5 .w) ∧
    decodeWords [0xEC411A40, 0x20000000] = .ok (.vfadd ⟨false, 2⟩ 2 1 (.reg 3) .sf) ∧
    decodeWords [0xE8240092, 0x00020300, 0x00000600] = .ok (.vcmp ⟨false, 0⟩ 1 4 (.imm 1536) .w .ge) ∧
    decodeWords [0xE0250083, 0x00000000] = .ok (.vldff ⟨false, 0⟩ 1 5 .w) ∧
    decodeWords [0xE5002082, 0x00003100] = .ok (.vbpdot false 8 0 4 .w 3 1) ∧
    decodeWords [0xE8411880, 0x00000000] = .ok (.vadd ⟨false, 0⟩ 2 1 (.reg 3) .w) ∧
    decodeWords [0xEC410249, 0x002C0000] = .ok (.vfcvt ⟨false, 0⟩ 2 1 .sf .bf) ∧
    decodeWords [0xF02202C3, 0x10240000] = .ok (.vfredsum ⟨false, 1⟩ 1 2 .bf .sf) ∧
    decodeWords [0xF4821882, 0x10000100] = .ok (.vgather ⟨false, 1⟩ 4 2 3 .w .h) ∧
    decodeWords [0xF8220240, 0x0F580000] = .ok (.vbq ⟨false, 0⟩ 1 2 30 .sf .mx4) ∧
    decodeWords [0xF8610581, 0x00240000] = .ok (.vbdq ⟨false, 0⟩ 3 1 .mx4 .sf) := by decide +kernel

/-- One word for each other 32-bit row, put together from its major, its function and its fields (R286, R309 to R318). -/
theorem test_words_short_1 :
    decodeWords [0x0BB20AA9] = .ok (.andImm 29 18 0xAA9) ∧
    decodeWords [0x0BB21AA9] = .ok (.orImm 29 18 0xAA9) ∧
    decodeWords [0x0BB24AA9] = .ok (.sltuImm 29 18 0xAA9) ∧
    decodeWords [0x0BB26029] = .ok (.shrImm 29 18 0x29) ∧
    decodeWords [0x0BB27029] = .ok (.sarImm 29 18 0x29) ∧
    decodeWords [0x0BB28029] = .ok (.rolImm 29 18 0x29) ∧
    decodeWords [0x0BB29029] = .ok (.rorImm 29 18 0x29) ∧
    decodeWords [0x0BB2AAA9] = .ok (.minImm 29 18 0xAA9) ∧
    decodeWords [0x0BB2BAA9] = .ok (.minuImm 29 18 0xAA9) ∧
    decodeWords [0x0BB2CAA9] = .ok (.maxImm 29 18 0xAA9) ∧
    decodeWords [0x0BB2DAA9] = .ok (.maxuImm 29 18 0xAA9) ∧
    decodeWords [0x0FB25800] = .ok (.add 29 18 11) ∧
    decodeWords [0x0FB25802] = .ok (.and 29 18 11) ∧
    decodeWords [0x0FB25803] = .ok (.or 29 18 11) ∧
    decodeWords [0x0FB25805] = .ok (.shl 29 18 11) ∧
    decodeWords [0x0FB25806] = .ok (.shr 29 18 11) ∧
    decodeWords [0x0FB25807] = .ok (.sar 29 18 11) ∧
    decodeWords [0x0FB25808] = .ok (.rol 29 18 11) ∧
    decodeWords [0x0FB25809] = .ok (.ror 29 18 11) ∧
    decodeWords [0x0FB2580A] = .ok (.slt 29 18 11) ∧
    decodeWords [0x0FB2580B] = .ok (.sltu 29 18 11) ∧
    decodeWords [0x0FB2580C] = .ok (.min 29 18 11) ∧
    decodeWords [0x0FB2580D] = .ok (.minu 29 18 11) ∧
    decodeWords [0x0FB2580E] = .ok (.max 29 18 11) := by decide +kernel

/-- One word for each other 32-bit row, put together from its major, its function and its fields (R286, R309 to R318). -/
theorem test_words_short_2 :
    decodeWords [0x0FB2580F] = .ok (.maxu 29 18 11) ∧
    decodeWords [0x0FB25810] = .ok (.mul 29 18 11) ∧
    decodeWords [0x0FB25812] = .ok (.mulhu 29 18 11) ∧
    decodeWords [0x0FB25813] = .ok (.div 29 18 11) ∧
    decodeWords [0x0FB25814] = .ok (.divu 29 18 11) ∧
    decodeWords [0x0FB25815] = .ok (.rem 29 18 11) ∧
    decodeWords [0x0FB25816] = .ok (.remu 29 18 11) ∧
    decodeWords [0x0FB20017] = .ok (.clz 29 18) ∧
    decodeWords [0x0FB20018] = .ok (.ctz 29 18) ∧
    decodeWords [0x0FB20019] = .ok (.popc 29 18) ∧
    decodeWords [0x0FB2009A] = .ok (.exts 29 18 .w) ∧
    decodeWords [0x0FB2009B] = .ok (.extz 29 18 .w) ∧
    decodeWords [0x17AAAAA9] = .ok (.addpc 29 0xAAAA9) ∧
    decodeWords [0x1BB25A81] = .ok (.fsub 29 18 11 .hf) ∧
    decodeWords [0x1BB25A82] = .ok (.fmul 29 18 11 .hf) ∧
    decodeWords [0x1BB25A83] = .ok (.fdiv 29 18 11 .hf) ∧
    decodeWords [0x1BB20284] = .ok (.fsqrt 29 18 .hf) ∧
    decodeWords [0x1BB25A85] = .ok (.fmin 29 18 11 .hf) ∧
    decodeWords [0x1BB25A86] = .ok (.fmax 29 18 11 .hf) ∧
    decodeWords [0x1BB25A87] = .ok (.fcmpEq 29 18 11 .hf) ∧
    decodeWords [0x1BB25A89] = .ok (.fcmpLe 29 18 11 .hf) ∧
    decodeWords [0x1BB2028A] = .ok (.fclass 29 18 .hf) ∧
    decodeWords [0x1BB25A8B] = .ok (.fsgnJ 29 18 11 .hf) ∧
    decodeWords [0x1BB25A8C] = .ok (.fsgnN 29 18 11 .hf) := by decide +kernel

/-- One word for each other 32-bit row, put together from its major, its function and its fields (R286, R309 to R318). -/
theorem test_words_short_3 :
    decodeWords [0x1BB25A8D] = .ok (.fsgnX 29 18 11 .hf) ∧
    decodeWords [0x1BB2000E] = .ok (.fmovxToX 29 18) ∧
    decodeWords [0x1BB2000F] = .ok (.fmovxToF 29 18) ∧
    decodeWords [0x1FB25DF1] = .ok (.fmaS 29 18 11 23 .bf) ∧
    decodeWords [0x1FB25DF2] = .ok (.fmaN 29 18 11 23 .bf) ∧
    decodeWords [0x1FB25DF3] = .ok (.fmaNs 29 18 11 23 .bf) ∧
    decodeWords [0x28121234] = .ok (.pref 18 0x1234) ∧
    decodeWords [0x2FB25C62] = .ok (.amoSwap 29 18 11 true false false .core) ∧
    decodeWords [0x2FB25C64] = .ok (.amoAnd 29 18 11 true false false .core) ∧
    decodeWords [0x2FB25C65] = .ok (.amoOr 29 18 11 true false false .core) ∧
    decodeWords [0x2FB25C66] = .ok (.amoXor 29 18 11 true false false .core) ∧
    decodeWords [0x2FB25C67] = .ok (.amoMin 29 18 11 true false false .core) ∧
    decodeWords [0x2FB25C68] = .ok (.amoMax 29 18 11 true false false .core) ∧
    decodeWords [0x2FB25C69] = .ok (.amoMinu 29 18 11 true false false .core) ∧
    decodeWords [0x2FB25C6A] = .ok (.amoMaxu 29 18 11 true false false .core) ∧
    decodeWords [0x2FB25C6B] = .ok (.cas 29 18 11 true false false .core) ∧
    decodeWords [0x2C0000AC] = .ok (.fence .vv .island) ∧
    decodeWords [0x4C000001] = .ok (.tdone) ∧
    decodeWords [0x4C000002] = .ok (.tirrev) ∧
    decodeWords [0x4C000003] = .ok (.tabort) ∧
    decodeWords [0x53B20000] = .ok (.scopy 29 18) ∧
    decodeWords [0x53B20001] = .ok (.smap 29 18) ∧
    decodeWords [0x53B20002] = .ok (.sput 29 18) ∧
    decodeWords [0x50120003] = .ok (.swait 18) := by decide +kernel

/-- One word for each other 32-bit row, put together from its major, its function and its fields (R286, R309 to R318). -/
theorem test_words_short_4 :
    decodeWords [0x58000004] = .ok (.cacheopIa) ∧
    decodeWords [0x58120005] = .ok (.cacheopWb 18) ∧
    decodeWords [0x58120006] = .ok (.cacheopWbi 18) ∧
    decodeWords [0x5C662801] = .ok (.kor 3 6 5) ∧
    decodeWords [0x5C662802] = .ok (.kxor 3 6 5) ∧
    decodeWords [0x5C660003] = .ok (.knot 3 6) ∧
    decodeWords [0x5FA60004] = .ok (.kpopc 29 6) ∧
    decodeWords [0x5C720006] = .ok (.kset 3 18) ∧
    decodeWords [0x63B20021] = .ok (.setvl 29 18 2 .h) ∧
    decodeWords [0x6BB25800] = .ok (.mshape 29 18 11) ∧
    decodeWords [0x68C00001] = .ok (.mzero 6) ∧
    decodeWords [0x68725802] = .ok (.mlda 3 18 11) ∧
    decodeWords [0x68725D42] = .ok (.mldaScale 3 18 11 .mx6b) ∧
    decodeWords [0x68725803] = .ok (.mldaff 3 18 11) ∧
    decodeWords [0x6BB25804] = .ok (.mldb 29 18 11) ∧
    decodeWords [0x6BB25D84] = .ok (.mldbScale 29 18 11 .mx4) ∧
    decodeWords [0x68725845] = .ok (.mldw 3 18 11 1) ∧
    decodeWords [0x68720006] = .ok (.mtmap 3 18) ∧
    decodeWords [0x68C25CC7] = .ok (.mma 6 2 11 .mx8e5) ∧
    decodeWords [0x68D25888] = .ok (.mstc 6 18 11 .w) ∧
    decodeWords [0x6BA65949] = .ok (.mmovcToVector 29 6 11 5) ∧
    decodeWords [0x68D2594A] = .ok (.mmovcToTile 6 18 11 5) ∧
    decodeWords [0x6BA2000B] = .ok (.mcastTile 29 2) ∧
    decodeWords [0x6BB2000C] = .ok (.mcastRows 29 18) := by decide +kernel

/-- One word for each other 32-bit row, put together from its major, its function and its fields (R286, R309 to R318). -/
theorem test_words_short_5 :
    decodeWords [0x6800000D] = .ok (.mwait) ∧
    decodeWords [0x6812000E] = .ok (.msave 18) ∧
    decodeWords [0x6812000F] = .ok (.mrest 18) := by decide +kernel

/-- The words of each other 64-bit row, put together from R290 and R319 to R324. -/
theorem test_words_long_1 :
    decodeWords [0xE12A0281, 0x30020000, 0xFFFFFFF0] = .ok (.vlds ⟨false, 3⟩ 9 10 (.imm 0xFFFFFFF0) .hf) ∧
    decodeWords [0xE12A58C2, 0x30000300] = .ok (.vldx ⟨false, 3⟩ 9 10 11 .d .d) ∧
    decodeWords [0xE12A0404, 0x30000000] = .ok (.vst ⟨false, 3⟩ 9 10 .f4) ∧
    decodeWords [0xE12A5B45, 0x30000000] = .ok (.vsts ⟨false, 3⟩ 9 10 (.reg 11) .e5) ∧
    decodeWords [0xE12A5986, 0x30000200] = .ok (.vstx ⟨false, 3⟩ 9 10 11 .wu .w) ∧
    decodeWords [0xE52A0000, 0x80000700] = .ok (.vbpld true 9 10 7) ∧
    decodeWords [0xE52A0001, 0x00000F00] = .ok (.vbpst false 9 10 15) ∧
    decodeWords [0xE5340043, 0x00000700] = .ok (.vbpcvtToplanes false 9 20 .h 7) ∧
    decodeWords [0xE5340103, 0x00010700] = .ok (.vbpcvtTopacked false 9 20 .bu 7) ∧
    decodeWords [0xE92A5941, 0x30000000] = .ok (.vsub ⟨false, 3⟩ 9 10 (.reg 11) .hu) ∧
    decodeWords [0xE92A5942, 0x30000000] = .ok (.vmul ⟨false, 3⟩ 9 10 (.reg 11) .hu) ∧
    decodeWords [0xE92A5945, 0x30000000] = .ok (.vmin ⟨false, 3⟩ 9 10 (.reg 11) .hu) ∧
    decodeWords [0xE92A5946, 0x30000000] = .ok (.vmax ⟨false, 3⟩ 9 10 (.reg 11) .hu) ∧
    decodeWords [0xE92A5947, 0x30000000] = .ok (.vand ⟨false, 3⟩ 9 10 (.reg 11) .hu) ∧
    decodeWords [0xE92A5948, 0x30000000] = .ok (.vor ⟨false, 3⟩ 9 10 (.reg 11) .hu) ∧
    decodeWords [0xE92A5949, 0x30000000] = .ok (.vxor ⟨false, 3⟩ 9 10 (.reg 11) .hu) ∧
    decodeWords [0xE92A594A, 0x30000000] = .ok (.vshl ⟨false, 3⟩ 9 10 (.reg 11) .hu) ∧
    decodeWords [0xE92A594B, 0x30000000] = .ok (.vshr ⟨false, 3⟩ 9 10 (.reg 11) .hu) ∧
    decodeWords [0xE92A594C, 0x30000000] = .ok (.vsar ⟨false, 3⟩ 9 10 (.reg 11) .hu) ∧
    decodeWords [0xE92A594D, 0x30000000] = .ok (.vadds ⟨false, 3⟩ 9 10 (.reg 11) .hu) ∧
    decodeWords [0xE92A594E, 0x30000000] = .ok (.vsubs ⟨false, 3⟩ 9 10 (.reg 11) .hu) ∧
    decodeWords [0xE92A58C3, 0x30000000] = .ok (.vmulh ⟨false, 3⟩ 9 10 11 .d) ∧
    decodeWords [0xE92A580F, 0x30000000] = .ok (.vabsd ⟨false, 3⟩ 9 10 11 .b) ∧
    decodeWords [0xE92A58C4, 0x36000000] = .ok (.vmadd ⟨false, 3⟩ 9 10 11 12 .d) := by decide +kernel

/-- The words of each other 64-bit row, put together from R290 and R319 to R324. -/
theorem test_words_long_2 :
    decodeWords [0xE92A0110, 0x300C0000] = .ok (.vwiden ⟨false, 3⟩ 9 10 .bu .d) ∧
    decodeWords [0xE92A00D1, 0x30040100] = .ok (.vnarrow ⟨false, 3⟩ 9 10 .d .h true) ∧
    decodeWords [0xED2A5A81, 0x30000000] = .ok (.vfsub ⟨false, 3⟩ 9 10 (.reg 11) .hf) ∧
    decodeWords [0xED2A5A82, 0x30000000] = .ok (.vfmul ⟨false, 3⟩ 9 10 (.reg 11) .hf) ∧
    decodeWords [0xED2A5A86, 0x30000000] = .ok (.vfmin ⟨false, 3⟩ 9 10 (.reg 11) .hf) ∧
    decodeWords [0xED2A5A87, 0x30000000] = .ok (.vfmax ⟨false, 3⟩ 9 10 (.reg 11) .hf) ∧
    decodeWords [0xED2A5A03, 0x36000300] = .ok (.vfma ⟨false, 3⟩ 9 10 11 12 .df .ns) ∧
    decodeWords [0xED2A5A04, 0x30000000] = .ok (.vfdiv ⟨false, 3⟩ 9 10 11 .df) ∧
    decodeWords [0xED2A0205, 0x30000000] = .ok (.vfsqrt ⟨false, 3⟩ 9 10 .df) ∧
    decodeWords [0xECCA5AC8, 0x30000400] = .ok (.vfcmp ⟨false, 3⟩ 6 10 (.reg 11) .bf .un) ∧
    decodeWords [0xED2A024A, 0x30000400] = .ok (.vsf ⟨false, 3⟩ 9 10 .sf .tanh) ∧
    decodeWords [0xF12A0140, 0x30000000] = .ok (.vredsum ⟨false, 3⟩ 9 10 .hu) ∧
    decodeWords [0xF12A0141, 0x30000000] = .ok (.vredmin ⟨false, 3⟩ 9 10 .hu) ∧
    decodeWords [0xF12A0142, 0x30000000] = .ok (.vredmax ⟨false, 3⟩ 9 10 .hu) ∧
    decodeWords [0xF12A0284, 0x30200000] = .ok (.vfredmin ⟨false, 3⟩ 9 10 .hf .df) ∧
    decodeWords [0xF12A0285, 0x30200000] = .ok (.vfredmax ⟨false, 3⟩ 9 10 .hf .df) ∧
    decodeWords [0xF12A0246, 0x36200000] = .ok (.vscan ⟨false, 3⟩ 9 10 12 .sf .df) ∧
    decodeWords [0xF52A5B00, 0x30000000] = .ok (.vslideup ⟨false, 3⟩ 9 10 (.reg 11) .e4) ∧
    decodeWords [0xF52A5B01, 0x30000000] = .ok (.vslidedn ⟨false, 3⟩ 9 10 (.reg 11) .e4) ∧
    decodeWords [0xF52A5B05, 0x30000000] = .ok (.vmerge ⟨false, 3⟩ 9 10 (.reg 11) .e4) ∧
    decodeWords [0xF52A0308, 0x30020000, 0x00000005] = .ok (.vmvs ⟨false, 3⟩ 9 10 (.imm 5) .e4) ∧
    decodeWords [0xF52A0443, 0x30000000] = .ok (.vcompress ⟨false, 3⟩ 9 10 .i4) ∧
    decodeWords [0xF52A0444, 0x30000000] = .ok (.vexpand ⟨false, 3⟩ 9 10 .i4) ∧
    decodeWords [0xF52A0447, 0x30000000] = .ok (.vmvx ⟨false, 3⟩ 9 10 .i4) := by decide +kernel

/-- The words of each other 64-bit row, put together from R290 and R319 to R324. -/
theorem test_words_long_3 :
    decodeWords [0xF52A0449, 0x30000000] = .ok (.vmov ⟨false, 3⟩ 9 10 .i4) ∧
    decodeWords [0xF5200246, 0x30020000, 0x3F800000] = .ok (.vbcast ⟨false, 3⟩ 9 (.imm 0x3F800000) .sf) ∧
    decodeWords [0xF520004A, 0x30000000] = .ok (.viota ⟨false, 3⟩ 9 .h) := by decide +kernel

/-- Words that are no instruction, with their causes (R294, R295 and the examples after R324). -/
theorem test_words_refused :
    (match decodeWords [0x00000000] with | .error r => r.cause == 0 | .ok _ => false) = true ∧
    (match decodeWords [0xFC000000, 0x00020000] with | .error r => r.cause == 0 | .ok _ => false) = true ∧
    (match decodeWords [0xE8240092, 0x00020400, 0x00000600] with | .error r => r.cause == 1 | .ok _ => false) = true ∧
    (match decodeWords [0xE9240092, 0x00020300, 0x00000600] with | .error r => r.cause == 1 | .ok _ => false) = true ∧
    (match decodeWords [0x0CA63028] with | .error r => r.cause == 1 | .ok _ => false) = true ∧
    (match decodeWords [0x0CA6001D] with | .error r => r.cause == 1 | .ok _ => false) = true ∧
    (match decodeWords [0x30063DC1] with | .error r => r.cause == 1 | .ok _ => false) = true := by decide +kernel

/-! ### The checks of WellFormed -/

theorem test_ill_formed_scalar :
    (Instr.exts 5 6 .d).wf = false ∧ (Instr.extz 5 6 .bu).wf = false ∧ (Instr.bswap 5 6 .b).wf = false ∧
    (Instr.fadd 1 2 3 .e4).wf = false ∧ (Instr.fma 1 2 3 4 .w).wf = false ∧ (Instr.fcvtToFloat 1 2 .sf .sf).wf = false ∧
    (Instr.fcvtToInteger 1 2 .sf .w).wf = false ∧ (Instr.amoAdd 5 6 7 false false true .core).wf = false ∧ (Instr.loop 9 0).wf = false ∧
    (Instr.tlbinvAll .hart).wf = false ∧ (Instr.mldaScale 1 2 3 .bf).wf = false ∧ (Instr.mldbScale 1 2 3 .b).wf = false ∧
    (Instr.mma 1 2 3 .sf).wf = false ∧ (Instr.mstc 1 2 3 .df).wf = false := by decide

theorem test_ill_formed_vector :
    let h : VHdr := ⟨false, 0⟩
    (Instr.vld h 1 2 .mx4).wf = false ∧ (Instr.vlds h 1 2 (.reg 3) .f4).wf = false ∧ (Instr.vldx h 1 2 3 .i4 .b).wf = false ∧
    (Instr.vbpld false 25 2 7).wf = false ∧ (Instr.vbpdot false 1 2 3 .h 0 0).wf = false ∧ (Instr.vbpdot false 5 2 8 .w 3 0).wf = false ∧
    (Instr.vbpcvtToplanes false 9 12 .h 7).wf = false ∧ (Instr.vbpcvtTopacked false 12 9 .h 7).wf = false ∧ (Instr.vadd h 1 2 (.reg 3) .sf).wf = false ∧
    (Instr.vwiden h 1 2 .w .w).wf = false ∧ (Instr.vnarrow h 1 2 .b .h true).wf = false ∧ (Instr.vfadd h 1 2 (.reg 3) .e5).wf = false ∧
    (Instr.vfcvt h 1 2 .w .d).wf = false ∧ (Instr.vsf h 1 2 .hf .rcp).wf = false ∧ (Instr.vredsum h 1 2 .sf).wf = false ∧
    (Instr.vfredsum h 1 2 .sf .bf).wf = false ∧ (Instr.vscan h 1 2 3 .w .w).wf = false ∧ (Instr.vmov h 1 2 .mx4).wf = false ∧
    (Instr.vbq h 4 2 4 .sf .mx4).wf = false ∧ (Instr.vbdq h 1 2 .b .sf).wf = false := by decide

theorem test_ill_formed_event :
    (Instr.interruptTake 5160).wf = false ∧ (Instr.mcastDelivery 1300).wf = false ∧ (Instr.taskDispatch 20).wf = false ∧
    (Instr.packetParse 19 64).wf = false ∧ (Instr.frontierApply 4).wf = false ∧ (Instr.commitBatch 3 16).wf = false ∧
    (Instr.taskRefill 0 16).wf = false := by decide

/-! ### Small states -/

/-- A started hart of a mode, with a vector state declared for 8 lanes and the matrix engine owned. -/
def inMode (m : Mode) : Hart :=
  { mode := m, started := true, pc := 0x1000, vs := 3, ms := 2, groups := 3, lanes := 8, regs := 1, ew := 2
    vl := 12, vlmax := 512 }
/-- x registers of a hart set. -/
def withX (l : List (Reg × Word)) (h : Hart) : Hart := l.foldl (fun h p => setX h p.1 p.2) h
/-- The reset state with hart 0 as given and acting. -/
def st (h : Hart) : State := { State.reset with harts := [(0, h)], cur := 0 }
/-- The same with the island of hart 0 holding an island as given. -/
def stI (h : Hart) (i : Island) : State := { st h with islands := [(0, i)] }
/-- The same with hart 0's core as given. -/
def stC (h : Hart) (c : Core) : State := { st h with cores := [(0, c)] }
/-- The same with function 0 as given. -/
def stP (h : Hart) (p : Part) : State := { st h with parts := [(0, p)] }
/-- The same with bytes of memory. -/
def withMem (a : Nat) (bs : List Byte) (s : State) : State := { s with mem := memWriteBytes s.mem a bs }
/-- The same with a number in little-endian bytes of memory. -/
def withNum (a n v : Nat) (s : State) : State := { s with mem := memWriteNat s.mem a n v }
/-- A running task of hart 0. -/
def task0 : TaskEntry :=
  { uid := 5, part := 0, dom := 0, island := 0, spilled := false, key := .ident 3 1, fn := 0x4000, args := [7, 8, 9]
    st := .running, wasIrrev := false, hart := some 0, parent := none, children := 0, fault := none, flags := 0
    buf := [], rows := [], rowCore := 0, reads := [], writes := [], homeLines := [], pins := [] }
/-- A convoy with no member. -/
def convoy0 : Convoy :=
  { pc := 0x1000, members := [], pins := [], seq := 0, after := 0, mem := false, exposed := false, start := 0, reprobe := none }
/-- An entry of the matrix queue. -/
def entry0 : MEntry :=
  { pc := 0x1000, act := .zero 0, cap := {}, pins := [], seq := 0, after := 0, mem := false, ends := none, todo := none }
/-- A running gang of a launch of so many harts. -/
def gangOf (size : Nat) (harts : List (Nat × Nat)) : Gang :=
  { packet := ⟨0, size, 0, 1, 0, 0, 0, 0x4000, 0, 0, 0x100000, 0, 0⟩, slot := 0, qcb := 0, ringIndex := 0, ptroot := 0, phase := .running
    admitted := 0, waited := 0, ran := 0, harts := harts, saved := false, budget := 0, reason := 0, barriers := 9
    broken := false, preempts := 0, migrates := 0 }
/-- An outcome is a next state. -/
def goes (o : Out) : Bool := match o with | .next _ => true | _ => false
theorem of_goes {o : Out} (h : goes o = true) : ∃ t, o = .next t := by
  cases o with
  | next t => exact ⟨t, rfl⟩
  | fault f => simp [goes] at h
  | refused r => simp [goes] at h
theorem hart_st (h : Hart) (k : Nat) : hart (st h) k = if k = 0 then h else {} := by
  by_cases hk : k = 0
  · subst hk; rfl
  · have : (0 : Nat) ≠ k := fun e => hk e.symm
    simp [hart, st, tabGet, hk, this]
theorem core_st (h : Hart) (c : Nat) : Machine.core (st h) c = {} := rfl
theorem island_st (h : Hart) (n : Nat) : island (st h) n = {} := rfl
theorem me_st (h : Hart) : me (st h) = h := rfl
theorem settled_st (h : Hart) (e : h.task = none) : Settled (st h) := by
  have : (hart (st h) (st h).cur).task = none := e
  simp [Settled, speculative, taskAt, this]
theorem hart_of {s : State} {h : Hart} (e : s.harts = [(0, h)]) (k : Nat) : hart s k = if k = 0 then h else {} := by
  have : hart s k = hart (st h) k := by rw [hart, hart, e]; rfl
  rw [this, hart_st]

/-! ### Results the spec prints -/

/-- The next state of an outcome. -/
def nextOf (o : Out) : State := match o with | .next t => t | _ => State.reset
/-- A number's elements of 16 bits, repeated. -/
def fill (w n v : Nat) : BitVec 65536 := BitVec.ofNat 65536 ((List.range n).foldl (fun a i => a + v * 2 ^ (w * i)) 0)

/-- The examples of BSWAP (R342), LDHI and ADDPC with their partners (R342), MULH and SELECT's corners. -/
theorem test_integer :
    let s := st (withX [(6, 0x1234ABCD)] { inMode .user with pc := 0x40000 })
    rx (nextOf (exec (.bswap 5 6 .w) s)) 5 = 0xCDAB3412 ∧ rx (nextOf (exec (.bswap 5 6 .h) s)) 5 = 0xCDAB ∧
    rx (nextOf (exec (.exts 5 6 .h) s)) 5 = 0xFFFFFFFFFFFFABCD ∧ rx (nextOf (exec (.addpc 5 1) s)) 5 = 0x50000 ∧
    rx (nextOf (exec (.divu 5 6 0) s)) 5 = 0xFFFFFFFFFFFFFFFF ∧ (me (nextOf (exec (.divu 5 6 0) s))).pc = 0x40004 := by decide +kernel

/-- The worked example of STB and LDB (R372). -/
theorem test_bit_fields :
    let s := nextOf (exec (.stb 6 7 7) (st (withX [(6, 0x803C), (7, 0xAB)] (inMode .monitor))))
    s.mem = [(0x1007, 0xB0), (0x1008, 0x0A)] ∧ rx (nextOf (exec (.ldb 5 6 7 true) s)) 5 = 0xFFFFFFFFFFFFFFAB := by decide +kernel

/-- The convolution's steps of MSHAPE (R128). -/
theorem test_mshape :
    let s (k : Word) := nextOf (exec (.mshape 5 10 11) (st (withX [(5, k), (10, 25), (11, 16)] (inMode .user))))
    rx (s 288) 5 = 0x00801019 ∧ rx (s 32) 5 = 0x00201019 ∧ (Machine.core (s 288) 0).kb = 128 := by decide +kernel

/-- The worked example of MLDW's window (R132): bytes of rows 6 and 0 in steps 1 and 2. -/
theorem test_window :
    let b : Nat := 0x10000
    let tm : BitVec 512 := BitVec.ofNat 512 (b + (10 + 10 * 2 ^ 16 + 16 * 2 ^ 32 + 2 * 2 ^ 48 + 3 * 2 ^ 56) * 2 ^ 64
      + (3 + 2 * 2 ^ 8 + 2 * 2 ^ 16 + 1 * 2 ^ 24 + 1 * 2 ^ 32 + 1 * 2 ^ 40 + 1 * 2 ^ 48) * 2 ^ 128 + (5 + 5 * 2 ^ 16) * 2 ^ 192
      + 320 * 2 ^ 256 + 32 * 2 ^ 320)
    windowByte tm 0 128 6 0 = some (BitVec.ofNat 64 (b + 704)) ∧ windowByte tm 0 128 6 32 = some (BitVec.ofNat 64 (b + 736)) ∧
    windowByte tm 0 128 6 64 = some (BitVec.ofNat 64 (b + 992)) ∧ windowByte tm 0 0 0 127 = none ∧ windowByte tm 0 128 0 0 = some 0x10000 ∧
    windowByte tm 0 128 0 64 = none ∧ windowByte tm 0 128 0 96 = some (BitVec.ofNat 64 (b + 320)) := by decide +kernel

/-- The MMA of R380: in FP4 blocks with scales 1.0 × 2.0, and with a scale of NaN. -/
theorem test_mma_mx4 :
    let r (v : BitVec 8) (sc : Nat) := dotOf .mx4 { kb := 16, n := 2, m := 1, nbv := v } 0 (0x22 * ((2 ^ 128 - 1) / 255)) (0x11 * ((2 ^ 128 - 1) / 255))
      (fun _ => 0x7F) (fun _ => sc)
    r 3 0x80 = ⟨0x42000000, 0⟩ ∧ r 3 0xFF = ⟨0x7FC00000, 0⟩ ∧ r 1 0x80 = ⟨0x42000000, 0⟩ := by decide +kernel

/-- Where the numeric versions part (R91): eight products of 0.375 ulp beside 1.0, and a subnormal group sum. -/
theorem test_versions :
    let row : Nat := (List.range 8).foldl (fun a i => a + 0x3340 * 2 ^ (64 * i)) 0
    let col : Nat := (List.range 64).foldl (fun a i => a + 0x3F80 * 2 ^ (16 * i)) 0
    let r (v : BitVec 8) := dotOf .bf { kb := 128, n := 1, m := 1, nbv := v } 0x3F800000 row col (fun _ => 0) (fun _ => 0)
    let q (v : BitVec 8) := dotOf .bf { kb := 128, n := 1, m := 1, nbv := v } 0 0x1F00 0x1F00 (fun _ => 0) (fun _ => 0)
    r 1 = ⟨0x3F800000, fNX⟩ ∧ r 2 = ⟨0x3F800004, fNX⟩ ∧ r 3 = ⟨0x3F800003, 0⟩ ∧
    q 1 = ⟨0, fUF ||| fNX⟩ ∧ q 2 = ⟨0x00080000, 0⟩ ∧ q 3 = ⟨0x00080000, 0⟩ := by decide +kernel

/-- VFREDSUM of R421 under the three versions: what f1 receives, and the flags. -/
theorem test_vfredsum :
    let c (v : BitVec 8) : Convoy :=
      { convoy0 with members := [⟨.fred .sum 1 2 .bf .sf 0xFFFFFFFF3F800000, 1, { vl := 12, lanes := 8, regs := 1, ew := 2, nbv := v }⟩] }
    let s (v : BitVec 8) := nextOf (exec (.convoyIssue 0) { st { inMode .user with
      vq := [c v], v := (Vector.replicate 32 0).set 2 (fill 16 12 0x3380), k := (Vector.replicate 8 0).set 1 0xDF7 } with time := 1 })
    let t (v : BitVec 8) := nextOf (exec (.convoyDrain 0) { s v with time := 99 })
    ((me (s 1)).sdest.bind (·.value)) = some 0xFFFFFFFF3F800000 ∧ ((me (s 2)).sdest.bind (·.value)) = some 0xFFFFFFFF3F800006 ∧
    ((me (s 3)).sdest.bind (·.value)) = some 0xFFFFFFFF3F800006 ∧ (me (t 1)).flags = fNX ∧ (me (t 3)).flags = fNX := by decide +kernel

/-- The convoy of R114: it drains at cycle 49 where it issues at 0. -/
theorem test_convoy_timing :
    let cap : Captured := { vl := 512, lanes := 8, regs := 1, ew := 2, nbv := 3 }
    let m (a : VAct) : VMember := ⟨a, 0, cap⟩
    let ms : List VMember := [m (.load 1 .w (.unit 0x4000)), m (.fp .add 2 1 (.vreg 3) .sf), m (.fp .min 7 1 (.vreg 3) .sf), m (.fma 4 2 5 4 .sf .plain)]
    let c : Convoy := { convoy0 with members := ms, pins := [⟨4, 4, false, 12, none, false⟩], mem := true }
    ((me (nextOf (exec (.convoyIssue 0) { st { inMode .monitor with vq := [c] } with time := 1 }))).flight.map (·.drains)) = some 50 := by
  decide +kernel

/-- The promise of R385: a gather of four rows of 20 bytes into the scratchpad at TIME 2,000,000. -/
theorem test_promise :
    let s := withNum 0x2028 8 0x1400000100 (withNum 0x2020 8 0x9000 (withNum 0x2018 8 0x10000000000 (withNum 0x2010 8 0x8000 (withNum 0x2008 8 20
      (withNum 0x2000 8 0x1000400000102 (st (withX [(6, 0x2000)] (inMode .monitor))))))))
    rx (nextOf (exec (.smap 5 6) { s with time := 2000000 })) 5 = 2000443 := by decide +kernel

/-- BREAK's TVAL and EPC (R354), and the vectored entry of R57. -/
theorem test_trap :
    let t := nextOf (exec (.brk 5) (st { inMode .user with tvec := 0x8001 }))
    (me t).tval = 0x54000051 ∧ (me t).epc = 0x1000 ∧ (me t).causeCode = 0xF0 ∧ (me t).pc = 0x81C0 ∧ (me t).mode = .supervisor := by decide +kernel

/-- The reset machine runs the word placed at the boot hart's PC: XORI x5, x6, −1. -/
theorem test_first_step :
    let t := nextOf (step (State.reset.withFetchWord 32 0x08A62FFF))
    getX (hart t bootHart) 5 = 0xFFFFFFFFFFFFFFFF ∧ (hart t bootHart).pc = 0x1004 := by decide +kernel

/-! ### States that meet the premises of each statement -/

theorem witness_DecodeEncode :
    (Instr.br 0 31 .geu 0x1FFF).wf = true ∧ (Instr.br 0 31 .geu 0x1FFF).isEvent = false ∧
    (Instr.vlds ⟨true, 7⟩ 31 31 (.imm 0xFFFFFFFF) .hf).wf = true ∧
    (Instr.vlds ⟨true, 7⟩ 31 31 (.imm 0xFFFFFFFF) .hf).isEvent = false := by decide

theorem witness_EncodeDecode :
    decode 0x0CA63804 0xFFFFFFFF 0 = .ok (.xor 5 6 7) ∧
    decode 0xE12A0281 0x30020000 0xFFFFFFF0 = .ok (.vlds ⟨false, 3⟩ 9 10 (.imm 0xFFFFFFF0) .hf) := by decide +kernel

theorem witness_SpecWords :
    (match decode 0x04000000 0 0, decode 0x37FFFFFF 0 0, decode 0x68000010 0 0 with
      | .ok _, .error r, .error q => r.cause == 1 && q.cause == 1 | _, _, _ => false) = true ∧
    (match decode 0x6C000000 0 0, decode 0xDFFFFFFF 0 0 with
      | .error r, .error q => r.cause == 0 && q.cause == 0 | _, _ => false) = true := by decide +kernel

/-- The reset machine with a word at the boot hart's PC, about to issue. -/
def fetching (w : Nat) : State := { State.reset.withFetchWord 32 w with scan := 1 }
theorem witness_StepRunsDecoded :
    let s := fetching 0x0CA63804
    let s0 : State := { State.reset.withFetchWord 32 0x0CA63804 with harts := [(0, inMode .monitor), (5121, Hart.boot)] }
    s.inputs = [] ∧ s.clockStopped = false ∧ nextIssue s = some (1280, 5121) ∧ (hart s 5121).boundaryTrap = none ∧
    (match fetchInstr (issueSlot 1280 5121 s) 5121 (hart s 5121).pc with
      | .ok (s1, ws) => (match pcTriggers [(hart s 5121).pc] s1 with
          | .go s2 => !castHolds (me s2) (.xor 5 6 7) && (me s2).badX == 0 && (me s2).badF == 0
          | _ => false) && decodeWords ws == .ok (.xor 5 6 7)
      | .error _ => false) = true ∧
    (match fetchInstr (issueSlot 1280 5121 (fetching 0)) 5121 (hart (fetching 0) 5121).pc with
      | .ok (_, ws) => (match decodeWords ws with | .error _ => true | .ok _ => false)
      | .error _ => false) = true ∧
    castHolds { inMode .monitor with castMask := some (5, 1) } (.xor 5 6 7) = true ∧
    s0.scan = 0 ∧ nextInternal s0 = none ∧ nextIssue s0 = some (0, 0) := by decide +kernel

theorem witness_FetchReadsBytes :
    let s := st { inMode .monitor with pc := 0xEE6B27FFF4 }
    (hart s 0).mode = .monitor ∧ (hart s 0).pc.toNat + 12 = 0xEE6B280000 ∧ s.failedStacks = 0 ∧ s.poison = [] ∧
    s.lostLines = [] ∧ s.tasks = [] ∧ (hart s 0).pc.toNat % 4 = 0 ∧ (hart s 0).body = none ∧
    (let b : LoopBody := { start := 0x2000, end_ := 0x2004, code := [(0x2000, [0x0CA63804]), (0x2004, [0x44000000])], lines := [128], released := false }
     (b.code.find? fun p => p.1 == 0x2000) = some (0x2000, [0x0CA63804]) ∧
      ∀ r ∈ (hart (st { inMode .user with body := some b, loops := [(0x2000, 0x2004)] }) 0).loops, r = (b.start, b.end_)) :=
  ⟨by rfl, by decide +kernel, by rfl, by rfl, by rfl, by rfl, by decide +kernel, by rfl, by rfl, fun _ h => List.mem_singleton.1 h⟩

theorem witness_StepKeepsMemoryForm :
    let s := State.reset.withFetchWord 32 0x0CA63804
    Memory.wf s.mem = true ∧ ∃ t, step s = .next t :=
  ⟨by decide +kernel, of_goes (by decide +kernel)⟩

theorem witness_StepKeepsFields :
    let s := withMem 0x1000 [4, 0x38, 0xA6, 0x0C] (st { inMode .monitor with pmode := 1, epc := 0xFFFFFFFFFFFFFFFC, tvec := 0x2001 })
    FieldsLegal s ∧ ∃ t, step s = .next t := by
  refine ⟨⟨fun h => ?_, fun c => ?_, ?_⟩, of_goes (by decide +kernel)⟩
  · change (hart (st _) h).pmode ≠ 3 ∧ _
    rw [show ∀ x y z, hart (withMem x y (st z)) h = hart (st z) h from fun _ _ _ => rfl, hart_st]
    split <;> simp [inMode]
  · exact (by decide : (({} : Core).split.toNat ≤ 4))
  · decide +kernel

theorem witness_ConditionField : (0 = 6 ∨ 7 = 7) ∧ (5, Cond.geu) ∈ [(0, Cond.eq), (1, .ne), (2, .lt), (3, .ge), (4, .ltu), (5, .geu)] := by
  decide

theorem witness_IntegerResults :
    let s := st (withX [(1, 0x8000000000000000), (2, 0xFFFFFFFFFFFFFFFF), (4, 0x1234ABCD)] (inMode .user))
    integerResult s (.add 3 1 2) = some (3, 0x7FFFFFFFFFFFFFFF) ∧ integerResult s (.div 3 1 2) = some (3, 0x8000000000000000) ∧
    integerResult s (.div 0 1 0) = some (0, 0xFFFFFFFFFFFFFFFF) ∧ integerResult s (.rem 3 1 2) = some (3, 0) ∧
    integerResult s (.select 0 1 2) = some (0, 0xFFFFFFFFFFFFFFFF) ∧ integerResult s (.sarImm 31 1 63) = some (31, 0xFFFFFFFFFFFFFFFF) ∧
    integerResult s (.ror 3 1 0) = some (3, 0x8000000000000000) ∧ integerResult s (.bswap 3 4 .w) = some (3, 0xCDAB3412) ∧
    integerResult s (.addpc 3 (-1)) = some (3, 0xFFFFFFFFFFFF1000) := by decide +kernel

/-- In FP4, whose largest magnitude is 6: a sum that stays below it, a product that rounds above it, and the others. -/
theorem witness_FloatCorrectlyRounded :
    let r (e : Nat) : ℝ := realOf (fmtOf .f4) e
    Ty.f4 ∈ floatTypes ∧ (5 : BitVec 3).toNat < 6 ∧ IsFinite (fmtOf .f4) 4 ∧ IsFinite (fmtOf .f4) 2 ∧ IsFinite (fmtOf .f4) 15 ∧
    r (fmtOf .f4).maxEnc = 6 ∧ (r 4 + r 2 ≠ 0 ∧ |r 4 + r 2| ≤ r 7) ∧ r 4 - r 2 ≠ 0 ∧ (r 4 * r 15 ≠ 0 ∧ r 7 < |r 4 * r 15|) ∧
    (r 4 ≠ 0 ∧ r 2 / r 4 ≠ 0) ∧ (0 < r 4 ∧ Real.sqrt (r 4) ≠ 0) ∧ r 4 * r 2 + r 15 ≠ 0 ∧ -(r 4 * r 2) - r 15 ≠ 0 := by
  have h4 : realOf (fmtOf .f4) 4 = 2 := by norm_num [realOf, fmtOf, Fmt.signBit, Fmt.width]
  have h2 : realOf (fmtOf .f4) 2 = 1 := by norm_num [realOf, fmtOf, Fmt.signBit, Fmt.width]
  have h7 : realOf (fmtOf .f4) 7 = 6 := by norm_num [realOf, fmtOf, Fmt.signBit, Fmt.width]
  have h15 : realOf (fmtOf .f4) 15 = -6 := by norm_num [realOf, fmtOf, Fmt.signBit, Fmt.width]
  refine ⟨by decide, by decide, ⟨by decide, by decide⟩, ⟨by decide, by decide⟩, ⟨by decide, by decide⟩, h7, ?_⟩
  simp only [h4, h2, h7, h15]
  refine ⟨⟨by norm_num, by norm_num [abs_le]⟩, by norm_num, ⟨by norm_num, by norm_num⟩, ⟨by norm_num, by norm_num⟩,
    ⟨by norm_num, by positivity⟩, by norm_num, by norm_num⟩

/-- In half precision: a quiet and a signalling NaN, an infinity, a zero, a negative number, and 1, 2, −1. -/
theorem witness_FloatSpecials :
    let f := fmtOf .hf
    IsNan f 0x7E00 ∧ ¬IsSignalling f 0x7E00 ∧ IsSignalling f 0xFC01 ∧ IsInf f 0x7C00 ∧ IsInf f 0xFC00 ∧
    signOf f 0x7C00 ≠ signOf f 0xFC00 ∧ IsZero f 0x8000 ∧ IsFinite f 0xBC00 ∧ realOf f 0xBC00 < 0 ∧ IsFinite f 0x3C00 ∧
    realOf f 0x3C00 ≠ 0 ∧ realOf f 0x3C00 + realOf f 0xBC00 = 0 ∧ realOf f 0x3C00 < realOf f 0x4000 ∧
    IsFinite f 0x4000 := by
  have h1 : realOf (fmtOf .hf) 0x3C00 = 1 := by norm_num [realOf, fmtOf, Fmt.signBit, Fmt.width]
  have h2 : realOf (fmtOf .hf) 0xBC00 = -1 := by norm_num [realOf, fmtOf, Fmt.signBit, Fmt.width]
  have h3 : realOf (fmtOf .hf) 0x4000 = 2 := by norm_num [realOf, fmtOf, Fmt.signBit, Fmt.width]
  simp only [h1, h2, h3]
  norm_num [IsNan, IsSignalling, IsInf, IsZero, IsFinite, signOf, fmtOf, Fmt.signBit, Fmt.width, Fmt.infEnc, Fmt.maxEnc]

theorem witness_FloatResults :
    let s (n : BitVec 8) (r : BitVec 3) := st { inMode .user with nbv := n, rm := r, f := Vector.replicate 32 0xFFFFFFFF3F800000 }
    Settled (s 0 0) ∧ (me (s 0 0)).nbv.toNat ∉ [1, 2, 3] ∧ (me (s 4 0)).nbv.toNat ∉ [1, 2, 3] ∧ Settled (s 3 6) ∧
    (me (s 3 6)).nbv.toNat ∈ [1, 2, 3] ∧ 6 ≤ (me (s 3 6)).rm.toNat ∧ roundsScalar (.fadd 1 2 3 .sf) = true ∧
    isScalarFloat (.fadd 1 2 3 .sf) = true ∧ (Instr.fadd 1 2 3 .sf).wf = true ∧ (me (s 1 5)).rm.toNat ≤ 5 ∧
    floatResult (s 1 5) (.fadd 1 2 3 .sf) = some (true, 1, 0xFFFFFFFF40000000, 0) ∧
    floatResult (s 3 0) (.fcmpEq 0 2 3 .sf) = some (false, 0, 1, 0) ∧
    floatResult (s 3 0) (.fclass 7 2 .hf) = some (false, 7, 20, 0) ∧
    (Instr.fcvtToFloat 3 4 .sf .w).wf = true ∧ (me (s 2 5)).rm = 5 := by
  unfold Settled; decide +kernel

/-- A stochastic conversion between the narrowest types, one without a draw, a block element and its scale at their ends. -/
theorem witness_Conversions :
    Ty.f4 ∈ floatTypes ∧ Ty.i4 ∈ integerTypes ∧ Ty.f4 ∈ floatTypes ++ integerTypes ∧ Ty.i4 ∈ floatTypes ++ integerTypes ∧
    (5 : BitVec 3).toNat < 6 ∧ 15 < 2 ^ elemBits .i4 ∧ ((some 7 : Option Nat).isSome = true → (5 : BitVec 3) = 5 ∧ Ty.f4 ∈ floatTypes) ∧
    ((none : Option Nat).isSome = true → (0 : BitVec 3) = 5 ∧ Ty.i4 ∈ floatTypes) ∧
    Ty.mx4 ∈ [Ty.mx8e4, .mx8e5, .mx6a, .mx6b, .mx4] ∧ Ty.bf ∈ [Ty.sf, .bf] ∧ 255 < 256 ∧ 15 < 2 ^ elemBits .mx4 := by decide

/-- In BF16: a zero, the infinities, NaNs of both kinds, a negative number, powers of two, an integer and none, and numbers
beyond 2000 on either side. -/
theorem witness_SpecialFunctions :
    let f := fmtOf .bf
    let v (a : Nat) : ℝ := realOf f a
    Ty.bf ∈ [Ty.sf, .bf] ∧ (5 : BitVec 3).toNat < 6 ∧ (∀ a ∈ [0x8000, 0x7F80, 0xFF80, 0xFFC1, 0xFF81, 0xBF80, 0x4040], a < 2 * f.signBit) ∧
    IsZero f 0x8000 ∧ f.infEnc = 0x7F80 ∧ f.signBit + f.infEnc = 0xFF80 ∧ (IsNan f 0xFFC1 ∧ ¬IsSignalling f 0xFFC1) ∧
    (IsNan f 0xFF81 ∧ IsSignalling f 0xFF81) ∧ (∀ a ∈ [0xBF80, 0x3F80, 0x4040, 0x4500, 0xC500], IsFinite f a) ∧ v 0xBF80 < 0 ∧
    v 0x3F80 = (2 : ℝ) ^ (0 : ℤ) ∧ v 0x4500 = (2 : ℝ) ^ (11 : ℤ) ∧ (0 < v 0x4040 ∧ ∀ n : ℤ, v 0x4040 ≠ (2 : ℝ) ^ n) ∧
    v 0x4040 = (3 : ℤ) ∧ ((∀ n : ℤ, v 0x3F00 ≠ n) ∧ |v 0x3F00| ≤ 2000) ∧ 2000 < v 0x4500 ∧ v 0xC500 < -2000 := by
  have h1 : realOf (fmtOf .bf) 0xBF80 = -1 := by norm_num [realOf, fmtOf, Fmt.signBit, Fmt.width]
  have h2 : realOf (fmtOf .bf) 0x3F80 = 1 := by norm_num [realOf, fmtOf, Fmt.signBit, Fmt.width]
  have h3 : realOf (fmtOf .bf) 0x4500 = 2048 := by norm_num [realOf, fmtOf, Fmt.signBit, Fmt.width]
  have h4 : realOf (fmtOf .bf) 0x4040 = 3 := by norm_num [realOf, fmtOf, Fmt.signBit, Fmt.width]
  have h5 : realOf (fmtOf .bf) 0x3F00 = 1 / 2 := by norm_num [realOf, fmtOf, Fmt.signBit, Fmt.width]
  have h6 : realOf (fmtOf .bf) 0xC500 = -2048 := by norm_num [realOf, fmtOf, Fmt.signBit, Fmt.width]
  simp only [h1, h2, h3, h4, h5, h6]
  refine ⟨by decide, by decide, by decide, .inr (by decide), by decide, by decide, by simp only [IsSignalling, IsNan]; decide,
    by simp only [IsSignalling, IsNan]; decide, by simp only [IsFinite]; decide, by norm_num, by norm_num, by norm_num, ⟨by norm_num, fun n h => ?_⟩,
    by norm_num, ⟨fun n h => ?_, by norm_num [abs_le]⟩, by norm_num, by norm_num⟩
  · have a : (2 : ℝ) ^ (1 : ℤ) < (2 : ℝ) ^ n := by rw [← h]; norm_num
    have b : (2 : ℝ) ^ n < (2 : ℝ) ^ (2 : ℤ) := by rw [← h]; norm_num
    have := (zpow_lt_zpow_iff_right₀ (by norm_num : (1 : ℝ) < 2)).1 a
    have := (zpow_lt_zpow_iff_right₀ (by norm_num : (1 : ℝ) < 2)).1 b
    omega
  · have a : (1 : ℝ) = ((2 * n : ℤ) : ℝ) := by push_cast; linarith
    have : (1 : ℤ) = 2 * n := by exact_mod_cast a
    omega

theorem witness_PlainAccesses :
    let s := withNum 0x2000 8 0xFEDCBA9876543280 (st (withX [(1, 0x2008), (2, 0x10009), (3, 0xEE6B27FFF8)] (inMode .monitor)))
    PlainAt s (rx s 1 + (-8 : BitVec 13).signExtend 64) (widthBytes .d) ∧ PlainAt s (rx s 3) (accBytes .d) ∧
    (rx s 3).toNat % accBytes .d = 0 ∧
    (let p := fieldAt (rx s 2) 16; PlainAt s p.1 p.2.2 ∧ p = (0x2001, 1, 3)) := by
  unfold PlainAt; decide +kernel

theorem witness_PlainAccesses_stores :
    let s := st (withX [(1, 0x2008), (2, 0x1000F), (3, 0xEE6B27FFF8)] (inMode .monitor))
    PlainAt s (rx s 1 + (0xFFF : BitVec 13).signExtend 64) (accBytes .w) ∧ PlainAt s (rx s 3) (accBytes .d) ∧
    (rx s 3).toNat % accBytes .d = 0 ∧ (let p := fieldAt (rx s 2) 1; PlainAt s p.1 p.2.2 ∧ p = (0x2001, 7, 1)) := by
  unfold PlainAt; decide +kernel

theorem witness_PlainAtomics :
    let s := withNum 0x2000 8 0x80000000FFFFFFFF (st (withX [(1, 0x2000), (2, 1), (4, 0x80000000FFFFFFFF)] (inMode .monitor)))
    atomicForm (.amoMin 3 1 2 true true false .core) = some (3, 1, 2, false) ∧ PlainAt s (rx s 1) 4 ∧ (rx s 1).toNat % 4 = 0 ∧
    atomicForm (.cas 4 1 2 true true true .system) = some (4, 1, 2, true) ∧ PlainAt s (rx s 1) 8 ∧ (rx s 1).toNat % 8 = 0 ∧
    atomicNew (.cas 4 1 2 true true true .system) 8 0x80000000FFFFFFFF 1 0x80000000FFFFFFFF = some 1 ∧
    atomicNew (.amoMin 3 1 2 true true false .core) 4 0xFFFFFFFF 1 0 = some 0xFFFFFFFF := by
  unfold PlainAt; decide +kernel

theorem witness_AccessFaults :
    let s (a : Word) := st (withX [(1, a)] (inMode .monitor))
    let i : Instr := .ld 3 1 .d 0
    let j : Instr := .amoAdd 3 1 2 true true true .core
    Settled (s 0x2004) ∧ alignedForm j = some (1, 8) ∧ (rx (s 0x2004) 1).toNat % 8 ≠ 0 ∧
    (∀ a : Word, scalarForm (s a) i = some (rx (s a) 1 + 0, 8, true, false, false)) ∧ alignedForm i = none ∧
    scalarForm (s 0x30000000000) j = some (0x30000000000, 8, true, true, true) ∧
    (∀ a, (me (s a)).mode = .monitor ∧ (me (s a)).task = none) ∧
    (∀ va ∈ [0x10000000000000, 0x10003FFFFF8, 0xEE6B280000, 0xFFFFFFFFF8, 0x20000000000, 0x2FFFFFFFFF8, 0x80000000000, 0xFFFFFFFFFF8,
      0x180000000000, 0xFFFFFFFFFFFF8, 0x100FFFFFFF8, 0x10004000000, 0x30000000000, 0x40000000000],
      rx (s (BitVec.ofNat 64 va)) 1 = BitVec.ofNat 64 va ∧ va % 4096 + 8 ≤ 4096) ∧
    spadBytes (s 0) 63 ≤ 0x10003FFFFF8 % 0x100000 ∧ 0x10003FFFFF8 < 0x10000000000 + 0x100000 * 64 ∧
    0x10004000000 % 0x100000 < spadBytes { s 0 with cores := [(64, { split := 1 })] } 64 ∧
    ¬(8 = 8 ∧ 0x30000000004 % 8 = 0) ∧ ({ s 0 with cxlUp := false } : State).cxlUp = false := by
  refine ⟨by unfold Settled; decide +kernel, by decide, by decide +kernel, fun a => ?_, rfl, by decide +kernel,
    fun a => ⟨by rfl, by rfl⟩, by decide +kernel, by decide +kernel, by decide, by decide +kernel, by decide, rfl⟩
  simp [scalarForm, widthBytes]

/-- A load, a store and an atomic of hart 0 at 0x2000 in monitor mode over plain memory pass their checks. -/
theorem witness_OpenedAccess :
    let s := withNum 0x2000 8 0x0102030405060708 (st (withX [(1, 0x2000)] (inMode .monitor)))
    (island s (islandOf s.cur)).triggers = [] ∧ Memory.wf s.mem = true ∧
    (match openScalar true true true (rx s 1) 8 s with | .go _ ps => decide ((pieceBytes ps).length = 8) | _ => false) = true ∧
    translated (me s).mode (me s).ptbase = false ∧
    (match openScalar true false false (rx s 1) 8 s with
      | .go s1 ps => (match readAny s1 ps with | .ok (_, bs) => decide (leNat bs = 0x0102030405060708) | _ => false)
      | _ => false) = true := by decide +kernel

theorem witness_AccessesComplete :
    let s := withNum 0x2000 8 0x0102030405060708 (st (withX [(1, 0x2000), (2, 0x10009)] (inMode .monitor)))
    (match openScalar true false false (rx s 1 + (8 : BitVec 13).signExtend 64) (widthBytes .hu) s with
      | .go s1 ps => (match readAny s1 ps with | .ok (_, bs) => decide (bs.length = 2) | _ => false) | _ => false) = true ∧
    (match openScalar true false false (rx s 1) (accBytes .d) s with
      | .go s1 ps => (match readAny s1 ps with | .ok (_, bs) => decide (bs.length = 8) | _ => false) | _ => false) = true ∧
    (match openScalar true false false (fieldAt (rx s 2) 16).1 (fieldAt (rx s 2) 16).2.2 s with
      | .go s1 ps => (match readAny s1 ps with | .ok (_, bs) => decide (bs.length = 3) | _ => false) | _ => false) = true := by
  decide +kernel

theorem witness_AccessesComplete_stores :
    let s := withNum 0x2000 8 0x0102030405060708 (st (withX [(1, 0x2000), (2, 0x10009)] (inMode .monitor)))
    (match openScalar false true false (rx s 1) 8 s with
      | .go s1 ps => (match writeAny s1 ps (bytesOfNat 8 7) 0 with | .ok _ => true | _ => false) | _ => false) = true ∧
    (match openScalar true true false (fieldAt (rx s 2) 16).1 3 s with
      | .go s1 ps => (match readScalar s1 ps with
        | .ok (s2, bs) => decide (bs.length = 3) && (match writeScalar s2 ps (bytesOfNat 3 7) with | .ok _ => true | _ => false)
        | _ => false) | _ => false) = true ∧
    (match openScalar true true true (rx s 1) 8 s with
      | .go s1 ps => (match readScalar s1 ps with
        | .ok (s2, bs) => decide (bs.length = 8) && (match writeScalar s2 ps (bytesOfNat 8 7) with | .ok _ => true | _ => false)
        | _ => false) | _ => false) = true ∧
    atomicNew (.cas 3 1 4 true true true .core) 8 0x0102030405060708 0 0 = none ∧
    atomicNew (.amoAdd 3 1 4 true true true .core) 8 0x0102030405060708 1 0 = some 0x0102030405060709 := by decide +kernel

/-- Outside task mode, and in a task for whose line the pool and the set have just room: 255 rows are held, 7 of its set. -/
theorem witness_WrittenBytes :
    let s := st (withX [(1, 0x2000)] (inMode .monitor))
    let rows : List Nat := ((List.range 7).map fun k => 0x2000 + 64 * 992 * (k + 1)) ++ (List.range 248).map fun k => 0x100000 + 64 * k
    let e : TaskEntry := { task0 with rows := rows }
    let t : State := { st { withX [(1, 0x2000)] (inMode .monitor) with task := some 5 } with tasks := [e] }
    taskAt s s.cur = none ∧ Memory.wf s.mem = true ∧
    (match openScalar false true false (rx s 1) 8 s with
      | .go s1 ps => decide ((pieceBytes ps).Nodup ∧ (pieceBytes ps).length = 8) &&
        (match writeScalar s1 ps (bytesOfNat 8 7) with | .ok _ => true | _ => false) | _ => false) = true ∧
    taskAt t t.cur = some e ∧
    (match openScalar false true false (rx t 1) 8 t with
      | .go s1 ps => decide ((pieceBytes ps).Nodup ∧ (pieceBytes ps).length = 8) &&
        (pieceBytes ps).all (fun a => tracked a && decide (a / 64 * 64 = 0x2000)) &&
        (match writeScalar s1 ps (bytesOfNat 8 7) with | .ok _ => true | _ => false) | _ => false) = true ∧
    0x2000 ∉ e.rows ∧ l2Sets (Machine.core t 0).split ≠ 0 ∧ (t.tasks.flatMap fun o => if o.uid = e.uid then o.rows else []).length = 255 ∧
    (rows.filter fun r => r / 64 % l2Sets (Machine.core t 0).split == 0x2000 / 64 % l2Sets (Machine.core t 0).split).length = 7 := by
  decide +kernel

theorem witness_ControlFlow :
    let s := st (withX [(1, 0x8000000000000000), (2, 1)] (inMode .user))
    branchTaken .lt (rx s 1) (rx s 2) ∧ ¬branchTaken .ltu (rx s 1) (rx s 2) ∧ Settled s ∧
    (BitVec.ofInt 64 ((rx s 2).toNat + (-1 : BitVec 16).toInt)).toNat % 4 = 0 ∧
    (BitVec.ofInt 64 ((rx s 2).toNat + (0 : BitVec 16).toInt)).toNat % 4 ≠ 0 := by
  unfold branchTaken Settled; decide +kernel

/-- A LOOP of distance 65,535 as far before its LEND as one can stand, and a LOOP word two words before. -/
theorem witness_ControlFlow_loops :
    let b := withNum 0x1004 4 0x0CA63804 (withNum 0x1008 4 0x44000000 (st (withX [(9, 2)] (inMode .monitor))))
    (bodyAt (me b) ((me b).pc + 4) = none ∧ PlainAt b ((me b).pc + 4) 8 ∧ (me b).pc.toNat % 4 = 0 ∧
      (Machine.core b (coreOf b.cur)).l1i = [] ∧ isVectorWord (wordAfter b 1) = false ∧
      wordAfter b 2 = (leadWord .lend).toNat ∧ 2 ≤ (rx b 9).toNat % 2 ^ 32) ∧
    (∃ r ∈ (me (st { inMode .user with lc := 1, loops := [(0xFF8, 0x1000)] })).loops, r.2 = (0x1000 : Word)) ∧
    let h (lc : BitVec 32) (pc : Word) : Hart := { withX [(9, 0x300000001)] (inMode .monitor) with lc := lc, pc := pc }
    let s := withNum 0x100000 4 0x4009FFFF (st (h 2 0x13FFFC))
    (rx (st (h 0 0)) 0).toNat % 2 ^ 32 = 0 ∧ (rx (st (h 0 0)) 9).toNat % 2 ^ 32 ≠ 0 ∧ (me (st (h 1 0))).lc = 1 ∧
    Settled (st (h 0 0)) ∧ (me (st (h 0 0))).lc = 0 ∧
    2 ≤ (me s).lc.toNat ∧ (me s).loops = [] ∧ PlainAt s ((me s).pc - 262140) 262140 ∧ 262140 ≤ (me s).pc.toNat ∧
    (me s).pc.toNat % 4 = 0 ∧ IsLoopWord s ((me s).pc.toNat - 4 * 65535) 65535 ∧
    (∀ j, 1 ≤ j → j < 3 → ¬IsLoopWord s ((me s).pc.toNat - 4 * j) j) := by
  refine ⟨by unfold PlainAt; decide +kernel, by decide +kernel, ?_⟩
  refine ⟨by decide +kernel, by decide +kernel, by rfl, by unfold Settled; decide +kernel, by rfl, by decide +kernel, by rfl,
    by unfold PlainAt; decide +kernel, by decide +kernel, by decide +kernel, ⟨9, by decide +kernel⟩, ?_⟩
  rintro j h1 h2 ⟨a, ha⟩
  have hj : j = 1 ∨ j = 2 := by omega
  have h0 : memNat (withNum 0x100000 4 0x4009FFFF (st { withX [(9, 0x300000001)] (inMode .monitor) with lc := 2, pc := 0x13FFFC }))
      (0x13FFFC - 4 * j) 4 = 0 := by rcases hj with rfl | rfl <;> decide +kernel
  have h3 := h0.symm.trans ha
  omega

theorem witness_TrapsAndReturns :
    ∀ m : Mode, Settled (st (inMode m)) ∧ (me (st (inMode m))).enter = none ∧ (me (st (inMode m))).mode = m := by
  intro m; exact ⟨by rfl, by rfl, by rfl⟩

theorem witness_TrapsAndReturns_return :
    let s (h : Hart) := st h
    (∀ h, h.task = none → Settled (s h)) ∧ (inMode .user).mode = .user ∧ (inMode .monitor).mon.handling = false ∧
    (me (s { inMode .supervisor with late := true })).heldConvoy = none ∧
    (me (s { inMode .supervisor with pmode := 1 })).late = false ∧
    (me (s { inMode .supervisor with late := true, heldConvoy := some convoy0 })).heldConvoy = some convoy0 ∧
    (me (s { inMode .monitor with mon := { traps := [0xD0] } })).mon.handling = true ∧
    (me (s { inMode .monitor with mon := { traps := [0xD0] }, late := true, heldConvoy := some convoy0 })).heldConvoy = some convoy0 ∧
    (inMode .monitor).aside = none ∧ (s (inMode .monitor)).newMonhart = none := by
  exact ⟨settled_st, by decide +kernel⟩

theorem witness_SystemRegisterReads :
    let s := st { inMode .monitor with flags := 0x21, rm := 4, vq := [] }
    srValue s 0x004 = some 0x424 ∧ srValue s 0x804 = some 1 ∧ srValue s 0x018 = some (2 ^ 64 - 1) ∧ srValue s 0x407 = some 0 ∧
    0x804 / 1024 ≤ (me s).mode.code.toNat ∧ readsAfterQueues s 0x004 ∧ readsAfterQueues s 0x009 ∧ srValue s 0x007 = none ∧
    FrontierSettled (stP (inMode .user) { domains := [(0, { active := true })] }) 0x018 := by
  refine ⟨by rfl, by rfl, by rfl, by rfl, by decide +kernel, ?_, ?_, by rfl, fun _ v hv _ => ?_⟩
  · unfold readsAfterQueues; decide +kernel
  · unfold readsAfterQueues; decide +kernel
  · cases (show some 0 = some v from hv); rfl

theorem witness_SystemRegisterWrites :
    let s := st (withX [(1, 0xFFFFFFFFFFFFFFFF)] (inMode .supervisor))
    Settled s ∧ 0x402 / 1024 ≤ (me s).mode.code.toNat ∧
    srWritten (me s) 0x402 (rx s 1) = some { me s with epc := 0xFFFFFFFFFFFFFFFC } ∧
    srWritten (me s) 0x401 (rx s 1) = some { me s with tvec := 0xFFFFFFFFFFFFFFFC } ∧
    srWritten (me s) 0x001 (rx s 1) = some { me s with vstart := 8191 } ∧ srWritten (me s) 0x010 (rx s 1) = some (me s) ∧
    srValue s 0x018 = some (2 ^ 64 - 1) ∧ readsAfterQueues s 0x018 ∧
    (srWritten { me s with cfrid := some 0xFFFFFFFF } 0x018 (rx s 1)).isSome = true := by
  unfold readsAfterQueues Settled; decide +kernel

theorem witness_SystemRegisterReads_privilege :
    let s := st (inMode .supervisor)
    Settled s ∧ Instr.getsr 5 0xC00 ∈ [Instr.getsr 5 0xC00, .setsr 6 0xC00, .swapsr 5 6 0xC00] ∧ 0xC00 / 1024 = 3 ∧ 0xBFF / 1024 < 3 ∧
    (me s).mode.code.toNat < 0x800 / 1024 ∧ 0x7FF / 1024 ≤ (me s).mode.code.toNat ∧ srValue s 0x7FF = none := by
  unfold Settled; decide +kernel

/-- Another hart of the core owns the engine; queues with and without work; and a write with everything clear. -/
theorem witness_StatusWrites :
    let s (v : Word) (h : Hart) := st (withX [(1, v)] h)
    let taken : State := { s 0xC0 { inMode .supervisor with ms := 0 } with harts := [(0, withX [(1, 0xC0)] { inMode .supervisor with ms := 0 }), (3, inMode .user)] }
    (me taken).ms = 0 ∧ fieldOf (rx taken 1) 6 2 ≠ 0 ∧ 3 ∈ hartsOn (coreOf taken.cur) ∧ 3 ≠ taken.cur ∧ (hart taken 3).ms ≠ 0 ∧
    (me (s 0xD0 { inMode .supervisor with vq := [convoy0] })).vq ≠ [] ∧ fieldOf (rx (s 0xD0 (inMode .supervisor)) 1) 4 2 = 1 ∧
    (∃ e ∈ (me (s 0xD0 { inMode .supervisor with mq := [{ entry0 with act := .toVector 1 2 3 0 }] })).mq, e.act = .toVector 1 2 3 0) ∧
    (me (s 0x70 { inMode .supervisor with mq := [entry0] })).mq ≠ [] ∧ fieldOf (rx (s 0x70 (inMode .supervisor)) 1) 6 2 = 1 ∧
    (∀ v, Settled (st (withX [(1, v)] (inMode .supervisor)))) ∧
    (me (s 0x5F (inMode .supervisor))).vq = [] ∧ (me (s 0x5F (inMode .supervisor))).mq = [] ∧
    fieldOf (rx (s 0x5F (inMode .supervisor)) 1) 2 2 = 3 ∧ (me (s 0 { inMode .supervisor with late := true })).late = true := by
  have all : ∀ v, Settled (st (withX [(1, v)] (inMode .supervisor))) := fun v => settled_st _ (by rfl)
  simp only [all, implies_true, true_and]
  decide +kernel

theorem witness_CoreRegisterWrites :
    let s (v : Word) (c : Core) : State := { st (withX [(1, v)] (inMode .supervisor)) with cores := [(0, c)] }
    (∀ v c, (me (s v c)).ms ≠ 0 ∧ (me (s v c)).mode ≠ .user) ∧ (me (st { inMode .user with ms := 0 })).ms = 0 ∧
    (fieldOf 0x802020 16 8 = 128 ∧ fieldOf 0x802020 8 6 = 32 ∧ fieldOf 0x802020 0 6 = 32) ∧ 128 < fieldOf 0x812020 16 8 ∧
    (fieldOf 0x12021 0 6 = 33) ∧ (2 : Word).toNat.testBit 1 = true ∧
    LanepartLegal 0x8421 ∧ LanepartLegal 0xF ∧ ¬LanepartLegal 0x11 ∧ ¬LanepartLegal 0x5 ∧
    4 < fieldOf 5 0 3 ∧ fieldOf 4 0 3 ≤ 4 ∧ Managed (stI (inMode .supervisor) { gangs := [(0, gangOf 1 [(0, 3)])] }) 0 ∧ ¬Managed (s 4 {}) 0 ∧
    (Machine.core (s 4 {}) 0).split.toNat ≠ fieldOf 4 0 3 ∧ (Machine.core (s 4 {}) 0).engine.queue = [] ∧
    (∀ e ∈ (s 4 {}).tasks, e.rowCore = 0 → e.rows = []) ∧ Memory.wf (s 4 {}).mem = true := by
  have l1 : LanepartLegal 0x8421 := by
    refine ⟨by decide, fun i j h1 h2 g h3 => ?_⟩
    rcases (by omega : (i = 0 ∨ i = 1 ∨ i = 2) ∧ (j = 1 ∨ j = 2 ∨ j = 3) ∧ (g = 0 ∨ g = 1 ∨ g = 2 ∨ g = 3)) with
      ⟨rfl | rfl | rfl, rfl | rfl | rfl, rfl | rfl | rfl | rfl⟩ <;> first | omega | decide
  have l2 : LanepartLegal 0xF := by
    refine ⟨by decide, fun i j h1 h2 g h3 => ?_⟩
    rcases (by omega : (i = 0 ∨ i = 1 ∨ i = 2) ∧ (j = 1 ∨ j = 2 ∨ j = 3) ∧ (g = 0 ∨ g = 1 ∨ g = 2 ∨ g = 3)) with
      ⟨rfl | rfl | rfl, rfl | rfl | rfl, rfl | rfl | rfl | rfl⟩ <;> first | omega | decide
  have l3 : ¬LanepartLegal 0x11 := fun h => h.2 0 1 (by decide) (by decide) 0 (by decide) (by decide)
  have l4 : ¬LanepartLegal 0x5 := fun h => by simpa using h.1 0 (by decide)
  refine ⟨fun v c => ⟨(by decide : (2 : BitVec 2) ≠ 0), (by decide : Mode.supervisor ≠ .user)⟩, by decide +kernel, by decide, by decide, by decide, by decide, l1, l2, l3, l4, by decide, by decide, ⟨_, List.mem_singleton.2 rfl, _, List.mem_singleton.2 rfl, by decide⟩,
    fun h => (nomatch h.choose_spec.1), ?_⟩
  decide +kernel

theorem witness_MonitorRegisters :
    let s (v : Word) (h : Hart) : State := { st (withX [(1, v)] h) with harts := [(0, withX [(1, v)] h), (255, inMode .user)] }
    let m := inMode .monitor
    (me (s 0 m)).mode = .monitor ∧ (me (s 0 m)).task = none ∧ islandOf (s 0 m).cur < 20 ∧ fieldOf 4 0 3 ∈ [4, 5, 6] ∧
    fieldOf 7 0 3 ∉ [4, 5, 6] ∧ (∃ h, h / 256 = 0 ∧ h ≠ (s 3 m).cur ∧ (hart (s 3 m) h).started = true) ∧
    (¬∃ h, h / 256 = 0 ∧ h ≠ (st m).cur ∧ (hart (st m) h).started = true) ∧
    40 ≤ fieldOf 40 0 6 ∧ fieldOf 39 0 6 < 40 ∧ (me (s 39 m)).mon.handling = false ∧
    (hart (s 39 m) (monitorHart (s 39 m))).mon.handling = false ∧
    (let t : State := { s 39 m with harts := (5121, { Hart.boot with mon := { traps := [0xD0] } }) :: (s 39 m).harts }
     (hart t (monitorHart t)).mon.handling = true) ∧
    (me (s 39 { m with mon := { traps := [0xD0] } })).mon.handling = true ∧ fieldOf 4 2 2 = 1 ∧ (s 4 m).keyState = 0 ∧
    fieldOf 8 2 2 = 2 ∧ ({ s 8 m with keyState := 1 } : State).keyState = 1 ∧ ({ s 4 m with fwState := 1 } : State).fwState = 1 := by
  refine ⟨by rfl, by rfl, by decide, by decide, by decide, ⟨255, by decide, by decide, by decide +kernel⟩, ?_, by decide, by decide,
    by rfl, by rfl, by rfl, by rfl, by decide, by rfl, by decide, by rfl, by rfl⟩
  rintro ⟨h, -, h1, h2⟩
  rw [hart_st, if_neg (show ¬h = 0 from h1)] at h2
  exact absurd h2 (by decide)

theorem witness_InterruptEvents :
    let s := stI { inMode .user with ie := true, ipend := 0x8002, imask := 0xFFFE, timecmp := 5 } { timeAhead := 1 }
    let sup : Who := .hart 0
    WritesIsland s sup 0 true ∧ (255 : Word).toNat < 256 ∧ ¬WritesIsland s sup 5 true ∧ WritesIsland s (.vf 1) 5 true ∧
    WritesPartition s (.vf 3) 3 ∧ fieldOf 5119 0 13 < 5120 ∧ ¬fieldOf 5120 0 13 < 5120 ∧ ¬WritesPartition s sup 0 ∧
    (part (stP (inMode .user) { irqRoute := Vector.replicate 8 0x80000000000013FF }) 0).irqRoute[7].toNat.testBit 63 = true ∧
    (part s 0).irqRoute[0].toNat.testBit 63 = false ∧ (hart s 1).timecmp.toNat = 2 ^ 64 - 1 ∧
    (hart { s with time := 4 } 0).timecmp.toNat = ({ s with time := 4 } : State).time + (island s (islandOf 0)).timeAhead.toNat ∧
    (hart s 0).started = true ∧ (hart s 0).freeze = {} ∧ (island s (islandOf 0)).freezeBit = false ∧ (hart s 0).ie = true ∧
    (hart s 0).mode ≠ .monitor ∧ (hart s 0).wait ≠ some .dest ∧ (hart s 0).ipend.toNat.testBit 1 = true ∧
    (hart s 0).imask.toNat.testBit 1 = true ∧ (hart s 0).ipend.toNat.testBit 15 = true ∧
    (hart (st { inMode .user with wait := some .idle }) 0).wait = some .idle := by
  refine ⟨⟨⟨0, by decide +kernel, by decide +kernel⟩, .inl rfl⟩, by decide, ?_, ⟨by decide +kernel, by decide +kernel⟩,
    ⟨rfl, by decide +kernel⟩, by decide, by decide, ?_, ?_⟩
  · rintro ⟨⟨v, h1, h2⟩, -⟩
    rw [(by decide +kernel : partOfIsland (stI _ _) 5 = some 1)] at h1
    cases h1
    exact absurd h2 (by decide +kernel)
  · rintro (h | ⟨h, -⟩)
    · exact absurd h (by decide +kernel)
    · exact absurd h (by decide +kernel)
  · decide +kernel

theorem witness_HartControl :
    let v : Word := 0x113FF
    let s := st (withX [(1, v ||| 0x4000000000000000)] (inMode .monitor))
    fieldOf v 0 13 = 5119 ∧ v.toNat.testBit 15 = false ∧ fieldOf v 16 2 ≠ 3 ∧ (hart s 5119).started = false ∧ partOf s 5119 = some 3 ∧
    partOf ({ s with tags := Vector.replicate 20 7 }) 5119 = none ∧ (0x8027 : Word).toNat.testBit 15 = true ∧ fieldOf 0x8027 0 13 < 40 ∧
    ¬fieldOf 0x8028 0 13 < 40 ∧ ¬fieldOf 0x1400 0 13 < 5120 ∧ fieldOf 0x30000 16 2 = 3 ∧ 0 ≠ monitorHart s ∧ 5121 = monitorHart s ∧
    (me s).mode = .monitor ∧ (me s).task = none ∧ fieldOf (rx s 1) 62 2 = 1 ∧
    (hart (st { inMode .user with stopReq := true }) 0).stopReq = true ∧ (hart (st { inMode .user with stopReq := true }) 0).vq = [] ∧
    40 ≤ fieldOf 40 0 6 ∧ (hart s (monitorHart s)).mon.handling = false ∧
    (hart { s with harts := [(5121, { Hart.boot with mon := { traps := [0xD0] } })] } 5121).mon.handling = true := by
  decide +kernel

theorem witness_FreezeControl :
    let s (h : Hart) := st h
    let f (x : Freeze) := s { inMode .user with freeze := x }
    (fieldOf 0x10013FF 24 3 = 1 ∧ fieldOf 0x10013FF 0 13 < 5120) ∧ (fieldOf 0x20004FF 24 3 = 2 ∧ fieldOf 0x20004FF 0 13 < 1280) ∧
    (fieldOf 0x3000003 24 3 = 3 ∧ fieldOf 0x4000003 24 3 = 4 ∧ fieldOf 0x4000003 0 13 < 4) ∧ fieldOf 0x5000000 24 3 = 5 ∧
    ¬fieldOf 0x1001400 0 13 < 5120 ∧ ¬fieldOf 0x2000500 0 13 < 1280 ∧ (hart (f { halted := true }) 0).freeze.halted = true ∧
    (hart (f { byFreeze := true }) 0).freeze.halted = false ∧ (hart (f { byFreeze := true }) 0).freeze.violation = none ∧
    partOf (f {}) 0 = some 0 ∧ ¬Resetting (f {}) 0 ∧ (hart (f { violation := some (0xD0, 8) }) 0).freeze.violation = some (0xD0, 8) ∧
    taskAt (f {}) 0 = none ∧ (me (st (withX [(1, 0x41000000)] (inMode .monitor)))).mode = .monitor ∧
    fieldOf (rx (st (withX [(1, 0x41000000)] (inMode .monitor))) 1) 30 2 = 1 ∧ fieldOf 0x81000000 30 2 = 2 := by
  unfold Resetting; decide +kernel

theorem witness_PowerAndImages :
    let s := State.reset
    let e (x : Election) : State := { s with election := x, time := 40000000 }
    (s.fwState ≠ 1 ∧ s.keyState = 0) ∧ (∀ made, made < 2 ^ 32 → max (7 : Word32).toNat made ≤ (0xFFFFFFFF : Word32).toNat) ∧
    (∀ made, ¬max (7 : Word32).toNat made ≤ (6 : Word32).toNat) ∧ (∀ made, max (0 : Word32).toNat made ≤ made) ∧
    (∃ p ∈ ({ s with peers := [(1, true)] } : State).peers, p.2 = true) ∧ s.hellosSent * 1600000 ≤ s.time ∧
    ({ s with hellosSent := 1 } : State).time < 1 * 1600000 ∧ s.heard.length < 7 ∧
    ((e .electing).electionStart + 20 * 1600000 ≤ (e .electing).time ∧ (e .electing).election = .electing) ∧
    (s.term < 2) ∧ ((e .follower).gotBlock = false ∧ (e .follower).lastHello + 20 * 1600000 ≤ (e .follower).time ∧
      (e .follower).reElections < 3 ∧ ({ e .follower with heard := [(9, 2, true)] } : State).heard = [(9, 2, true)]) ∧
    3 ≤ ({ e .follower with reElections := 3 } : State).reElections ∧
    (Signer.owner s.keyHash ≠ .brynkan ∧ ({ s with keyState := 1, fwState := 1, fwOp := 2 } : State).keyState = 1) ∧
    ((e .follower).election = .follower ∧ ({ e .follower with gotBlock := true } : State).gotBlock = true) ∧
    (∃ serial : Word, serial ≠ Config.serial ∧ s.term < 1 + s.term) ∧
    ((e .follower).imageWhole = false ∧ s.lastBlock + 200 * 1600000 ≤ ({ e .follower with time := 320000000 } : State).time) := by
  refine ⟨by decide, fun m h => ?_, fun m => ?_, fun m => ?_, ⟨(1, true), by simp, rfl⟩, by decide, by decide, by decide, by decide, by decide,
    by decide, by decide, ⟨by decide, by rfl⟩, ⟨by rfl, by rfl⟩, ⟨Config.serial + 1, by simp, by decide⟩, by decide⟩
  · rw [show (7 : Word32).toNat = 7 from rfl, show (0xFFFFFFFF : Word32).toNat = 2 ^ 32 - 1 from rfl]; omega
  · rw [show (7 : Word32).toNat = 7 from rfl, show (6 : Word32).toNat = 6 from rfl]; omega
  · rw [show (0 : Word32).toNat = 0 from rfl]; omega

theorem witness_ErrorRecords :
    let p : Part := { errBase := 0x3000, errSize := 64, errHead := 65, errTail := 2, notify := 0x8000000000000003 }
    let i : Island := { logBase := 0x5000, logSize := 128, logHead := 130, logTail := 3, gap := true }
    Quiet (stP (inMode .user) p) ∧ Memory.wf (stP (inMode .user) p).mem = true ∧ p.errHead - p.errTail ≠ p.errSize ∧
    p.errHead.toNat % p.errSize.toNat = 1 ∧ p.notify.toNat.testBit 63 = true ∧ ({ p with errTail := 1 } : Part).errHead - 1 = p.errSize ∧
    Quiet (stI (inMode .user) i) ∧ i.logSize ≠ 0 ∧ i.logHead - i.logTail ≠ i.logSize ∧ i.logHead - 2 = i.logSize := by
  unfold Quiet; decide +kernel

theorem witness_ErrorEvents :
    let s := st (inMode .user)
    (0 ≠ monitorHart s) ∧ tracked (0xEE6B27FFFF / 64 * 64) = true ∧ 0xEE6B27FFFF / 64 * 64 ∉ s.lostLines ∧
    (domain (stP (inMode .user) { domains := [(15, { active := true })] }) 0 15).active = true ∧ s.codes.length < 64 ∧
    (part s 0).linkGrant.toNat.testBit 0 = true ∧ (s.heard = [] ∧ s.peers = [] ∧ s.election = .leader) ∧
    ({ s with peers := [(1, false)] } : State).peers ≠ [] := by decide +kernel

theorem witness_FunctionLevelReset :
    let p (x : FlrStep) : State := stP (inMode .user) { flr := x, flrCycles := 65536 }
    ¬Resetting (p .idle) 0 ∧ ¬Resetting (p .done) 0 ∧ Resetting (p .drain) 0 ∧ (part (p .drain) 0).flr = .drain ∧
    IsMonitor (st (inMode .monitor)) (.hart 0) ∧ (p .drain).pendingWrites = [] ∧
    (¬∃ n, n < 20 ∧ partOfIsland (p .drain) n = some 0 ∧ (island (p .drain) n).freezeBit = true) ∧
    (∀ h, (hart (p .drain) h).vq = [] ∧ (hart (p .drain) h).flight = none ∧ (hart (p .drain) h).sdest = none ∧
      (hart (p .drain) h).mq = [] ∧ (hart (p .drain) h).castMask = none) ∧
    (∀ c, (Machine.core (p .drain) c).deliveries = []) ∧ 65536 ≤ (part (p .drain) 0).flrCycles ∧
    (part (p .scrub) 0).flr = .scrub ∧ (part (p .queues) 0).flr = .queues ∧ (∀ d, (domain (p .scrub) 0 d).active = false) := by
  refine ⟨by unfold Resetting; decide, by unfold Resetting; decide, by unfold Resetting; decide, by rfl, ⟨0, rfl, by rfl⟩, by rfl,
    ?_, fun h => ?_, fun c => by rfl, by decide, by rfl, by rfl, fun d => by rfl⟩
  · rintro ⟨n, -, -, h⟩; cases h
  · change (hart (st (inMode .user)) h).vq = [] ∧ _
    rw [show hart (stP (inMode .user) { flr := .drain, flrCycles := 65536 }) h = hart (st (inMode .user)) h from rfl, hart_st]
    split <;> exact ⟨rfl, rfl, rfl, rfl, rfl⟩

/-- Of two modules, one is not this one. -/
theorem some_member (s : State) (h : 1 ≤ s.heard.length) : ∃ m, isMember s m = true := by
  by_cases e : modnum s = 0
  · exact ⟨1, by simp [isMember, e, h]⟩
  · exact ⟨0, by simp [isMember, Ne.symm e]⟩

theorem witness_OutsideRequests :
    let s := stP (inMode .user) { hbmBase := 0x3B80000000, hbmSize := 0x1000 }
    Quiet s ∧ Memory.wf s.mem = true ∧ (part s 0).trafficFrozen = false ∧
    (∀ i, i < 8 → 0x3B80000FF8 + i ≤ 0xEE6B27FFFF ∧ s.failedStacks.toNat.testBit ((0x3B80000FF8 + i) / 4096 % 16) = false) ∧
    (∀ i, i < 8 → (part s 0).hbmBase.toNat ≤ 0x3B80000FF8 + i ∧ 0x3B80000FF8 + i < (part s 0).hbmBase.toNat + (part s 0).hbmSize.toNat) ∧
    ¬(0x3B80000FF9 + 7 < (part s 0).hbmBase.toNat + (part s 0).hbmSize.toNat) ∧ ¬(0x30000000000 ≤ 0x3B80000FF9) ∧
    (part s 0).errSize = 0 ∧ (part s 0).errHead = (part s 0).errTail ∧
    (∃ m, isMember { s with heard := [(4, 1, false)] } m = true) ∧ tabGet s.peers 1 ≠ some false ∧
    isMember { s with heard := [(4, 1, false)] } 2 = false ∧
    tabGet ({ s with peers := [(1, false)] } : State).peers 1 = some false := by
  refine ⟨by unfold Quiet; decide +kernel, by rfl, by rfl, by decide +kernel, by decide +kernel, by decide +kernel, by decide,
    by rfl, by rfl, ?_, by decide +kernel, by rfl, by rfl⟩
  exact some_member _ (by decide)

/-- A store and a retrieve entry of a function, whole and malformed, and a kept answer. -/
theorem witness_NetworkEngine :
    let p : Part := { nqBase := 0x3000, nqLog2 := 1, nqWr := 4, nqRd := 3 }
    let s (op : Nat) := withNum 0x3068 8 0x6000 (withNum 0x3060 8 0x200000 (withNum 0x3058 8 0x5000 (withNum 0x3040 8 (0x100100 + op) (stP (inMode .supervisor) p))))
    Quiet (s 1) ∧ Memory.wf (s 1).mem = true ∧ p.nqRd ≠ p.nqWr ∧ p.nqDone = none ∧ p.trafficFrozen = false ∧
    p.nqBase.toNat + 64 * (p.nqRd.toNat % 2 ^ p.nqLog2.toNat) = 0x3040 ∧
    (netEntryOf (memReadBytes (s 1).mem 0x3040 64)).klen = 16 ∧ (netEntryOf (memReadBytes (s 1).mem 0x3040 64)).vlen = 2097152 ∧
    netMalformed (s 5) 0 (netEntryOf (memReadBytes (s 5).mem 0x3040 64)) = true ∧
    netMalformed (withNum 0x3060 8 8 (s 1)) 0 (netEntryOf (memReadBytes (withNum 0x3060 8 8 (s 1)).mem 0x3040 64)) = false ∧
    netMalformed (s 3) 0 (netEntryOf (memReadBytes (s 3).mem 0x3040 64)) = false ∧
    (hart (s 1) 0).mode = .supervisor ∧ partOf (s 1) 0 = some 0 ∧ netReach (s 1) 0 0x3040 64 = true ∧ netReach (s 1) 0 0x6000 8 = true ∧
    ({ p with nqDone := some (4, 0) } : Part).nqDone = some (4, 0) ∧
    (let t := withNum 0x3060 8 16 (s 1)
     let e := netEntryOf (memReadBytes t.mem 0x3040 64)
     let reaches (x n : Nat) : Prop := ∀ j, j < n → granted t 0 (x + j) = true ∧ answers t (x + j) = true
     reaches 0x3040 64 ∧ (1 ≤ e.op ∧ e.op ≤ 4 ∧ e.port ≤ 1 ∧ 1 ≤ e.klen ∧ e.klen ≤ 16 ∧ e.vlen = 16 ∧ e.zeros = true ∧ e.mbxa % 8 = 0) ∧
      reaches e.mbxa 8 ∧ reaches e.vaddr e.vlen) := by
  unfold Quiet; decide +kernel

/-- A queue control block that maps, one that is malformed, a slot mapped, and register values at their bounds. -/
theorem witness_RegisterEvents :
    let sup := inMode .supervisor
    let q (x : Slot) : State := withNum 0x3030 8 4 (withNum 0x3008 8 0x10000000010 (withNum 0x3000 8 0x4000 (stI sup { slots := [(63, x)] })))
    WritesIsland (q {}) (.hart 0) 0 false ∧ (0 < fieldOf 0x0101000C 24 8 ∧ 0 < fieldOf 0x0101000C 16 8 ∧ 12 ≤ fieldOf 0x0101000C 0 4) ∧
    ¬12 ≤ fieldOf 0x0101000B 0 4 ∧ (lineHeld (q {}) 1280 0x3000 = false ∧ poisonAt (q {}) 0x3000 64 = none ∧ (slot (q {}) 0 63).closing = []) ∧
    (slot (q { clearedAt := some 0 }) 0 63).clearedAt = some (q {}).time ∧ vectorQuiet (hart (q {}) 0) = true ∧ matrixEmpty (hart (q {}) 0) = true ∧
    (slot (q {}) 0 63).mapped = false ∧ (slot (q { mapped := true }) 0 63).mapped = true ∧
    (readQcb (withNum 0x3028 8 0x5000 (q {})) 0 0x3000) ≠ none ∧ readQcb (q {}) 0 0x1000 = none ∧
    (∃ c, readQcb (q { mapped := true, qcbpa := 0x3000 }) 0 0x3000 = some c ∧ c.rdIdx = c.wrIdx) ∧
(∃ p ∈ [(7, gangOf 1 [(0, 0)])], ∃ m ∈ p.2.harts, m.2 = 0) ∧
    (Machine.core (q {}) 63).trace.truncated = false ∧ 63 / 64 = 0 ∧ (0x3000 : Word).toNat % 4096 = 0 ∧
    (∃ k, 7 ≤ k ∧ k ≤ 20 ∧ (128 : Word).toNat = 2 ^ k) ∧ (∃ k, 6 ≤ k ∧ k ≤ 16 ∧ (65536 : Word).toNat = 2 ^ k) ∧
    IsMonitor (st (inMode .monitor)) (.hart 0) ∧ 0x406 / 1024 ≤ (hart (q {}) 0).mode.code.toNat ∧
    srWritten (hart (q {}) 0) 0x406 9 = some { hart (q {}) 0 with scratch := 9 } ∧ (hart (q {}) 1).mode.code.toNat < 0x406 / 1024 ∧
    (¬WritesIsland (stI (inMode .user) {}) (.hart 0) 0 false ∧ WritesIsland (stI (inMode .user) {}) (.hart 0) 0 true) ∧
    (PowerIn 128 7 20 ∧ PowerIn 0x100000 7 20 ∧ ¬PowerIn 64 7 20 ∧ PowerIn 0x40000000 12 30 ∧ PowerIn 65536 6 16) ∧
    ((0x3FFFFF : Word).toNat / 2 ^ 22 = 0 ∧ fieldOf 0x3C1FFF 13 3 = 0 ∧ fieldOf 0x3C1FFF 18 4 ≠ 0 ∧ fieldOf 0x001FFF 18 4 = 0 ∧ fieldOf 5119 0 13 < 5120 ∧
      ¬fieldOf 5120 0 13 < 5120) ∧
    ((part (q {}) 0).trafficFrozen = false ∧ WritesPartition (q {}) (.hart 0) 0 ∧ ¬WritesPartition (q {}) (.hart 0) 1 ∧ partOf (q {}) 0 = some 0 ∧
      (part (q {}) 0).nqRd = (part (q {}) 0).nqWr ∧ 4 ≤ fieldOf 4 0 4 ∧ fieldOf 12 0 4 ≤ 12 ∧ ¬fieldOf 13 0 4 ≤ 12) ∧
    (let p : Part := { hbmBase := 0x40000000, hbmSize := 0x40000000 }
     let g : State := { st (inMode .monitor) with parts := [(1, p)] }
     (p.hbmBase.toNat < p.hbmBase.toNat + 1 ∧ (part g 1) = p ∧ (0x80000000 : Word).toNat % 2 ^ 30 = 0 ∧
      ¬(0x80000000 < p.hbmBase.toNat + p.hbmSize.toNat) ∧ 0x7FFFFFFF < p.hbmBase.toNat + p.hbmSize.toNat ∧ p.hbmBase.toNat < 0x7FFFFFFF + 1)) := by
  refine ⟨⟨⟨0, by decide +kernel, by decide +kernel⟩, .inr (by rfl)⟩, by decide, by decide, by decide +kernel, by rfl, by rfl, by rfl, by rfl, by rfl, by decide +kernel,
    by decide +kernel, ⟨_, by rfl, by decide +kernel⟩, ⟨_, List.mem_singleton.2 rfl, ⟨(0, 0), by simp [gangOf], rfl⟩⟩, by rfl, by decide, by decide,
    ⟨7, by decide, by decide, by decide⟩, ⟨16, by decide, by decide, by decide⟩, ⟨0, rfl, by rfl⟩, by decide +kernel, by rfl, by decide +kernel,
    ⟨fun h => ?_, ⟨0, by decide +kernel, by decide +kernel⟩, .inl rfl⟩,
    ⟨⟨7, by decide, by decide, by decide⟩, ⟨20, by decide, by decide, by decide⟩, fun ⟨k, a, _, c⟩ => ?_, ⟨30, by decide, by decide, by decide⟩,
      16, by decide, by decide, by decide⟩, by decide, ⟨by rfl, .inr ⟨by rfl, by decide +kernel⟩, fun h => ?_, by decide +kernel, by rfl, by decide, by decide, by decide⟩,
    by decide, by rfl, by decide⟩
  · rcases h.2 with h | h <;> cases h
  · have : 2 ^ 7 ≤ 2 ^ k := Nat.pow_le_pow_right (by decide) a
    rw [← c] at this
    exact absurd this (by decide)
  · rcases h with h | ⟨-, h⟩
    · cases h
    · exact absurd h (by decide +kernel)

/-- A message from another hart of the gang, inboxes empty and full, and operands that name a hart and none. -/
theorem witness_Messages :
    let g := gangOf 2 [(0, 0), (1, 4)]
    let m : Message := { bytes := [1, 2], sender := 4, member := some 1, own := true }
    let h : Hart := { withX [(1, 0x1010000), (2, 0x2000), (3, 4096), (4, 0x1011000), (5, 0x2011001), (6, 0x50000)] (inMode .monitor) with
      gang := { valid := true, gang := 3, size := 1, member := 0 } }
    let s (a b : List Message) : State := { stI { h with inbox0 := b } { gangs := [(3, g)] } with
      harts := [(0, { h with inbox0 := b }), (4, { inMode .user with inbox0 := a })] }
    Settled (s [] []) ∧ Names (s [] []) (rx (s [] []) 1) 4 ∧ fieldOf (rx (s [] []) 1) 25 39 = 0 ∧ fieldOf (rx (s [] []) 1) 0 16 = 0 ∧
    (rx (s [] []) 3).toNat = 4096 ∧ PlainAt (s [] []) (rx (s [] []) 2) 4096 ∧ (inboxAt (hart (s [] []) 4) false).length < 8 ∧
    8 ≤ (inboxAt (hart (s (List.replicate 8 m) []) 4) false).length ∧
    fieldOf (rx (s [] []) 4) 0 13 = 4096 ∧ fieldOf (rx (s [] []) 4) 26 38 = 0 ∧ fieldOf (rx (s [] []) 4) 13 3 = 0 ∧
    Names (s [] []) (rx (s [] []) 4) 4 ∧ (∃ x ∈ inboxAt (me (s [] [m])) false, Matches (rx (s [] [m]) 4) x) ∧
    (∀ x ∈ inboxAt (me (s [] [])) false, ¬Matches (rx (s [] []) 4) x) ∧ fieldOf (rx (s [] []) 5) 0 13 = 4097 ∧
    (∀ k, ¬Names (s [] []) (rx (s [] []) 6) k) := by
  refine ⟨by rfl, ⟨.inl (by rfl), .inr ⟨by decide +kernel, by decide +kernel, by rfl, _, by rfl, by rfl⟩⟩, by decide +kernel, by decide +kernel,
    by decide +kernel, by unfold PlainAt; decide +kernel, by decide +kernel, by decide +kernel, by decide +kernel, by decide +kernel,
    by decide +kernel, ⟨.inl (by rfl), .inr ⟨by decide +kernel, by decide +kernel, by rfl, _, by rfl, by rfl⟩⟩,
    ⟨_, List.mem_singleton.2 rfl, .inr (.inl ⟨by decide +kernel, rfl, by decide +kernel⟩)⟩,
    List.forall_mem_nil _, by decide +kernel, ?_⟩
  rintro k ⟨h1, ⟨-, h2⟩ | ⟨h2, -⟩⟩
  · have : k = 5 := h2.trans (by decide +kernel)
    subst this
    revert h1; unfold Loaded; decide +kernel
  · exact absurd h2 (by decide +kernel)

/-- A gang of two: neither, one and both at the barrier. -/
theorem witness_GangBarrier :
    let g (b : Bool) : Gang := { gangOf 2 [(0, 0), (1, 4)] with broken := b }
    let h : Hart := { inMode .user with gang := { valid := true, gang := 3, size := 1, member := 0 } }
    let w : Hart := { h with arrived := true, wait := some (.gbar 7), barrierCount := 9 }
    let s (b : Bool) (x y : Hart) : State := { stI x { gangs := [(3, g b)] } with harts := [(0, x), (4, y)] }
    Settled (s false h h) ∧ (me (st (inMode .user))).gang.valid = false ∧ (me (s false h h)).gang.valid = true ∧
    tabGet (island (s true h h) 0).gangs ((me (s true h h)).gang.gang.toNat % 256) = some (g true) ∧ 0 ∈ members (g false) ∧
    (g true).broken = true ∧ (g false).broken = false ∧ ¬MemoryQueued (me (s false h h)) ∧
    ¬(∀ m ∈ members (g false), m ≠ 0 → (hart (s false h h) m).arrived = true ∧ (hart (s false h h) m).barrierCount = (g false).barriers) ∧
    (∀ m ∈ members (g false), m ≠ 0 → (hart (s false h w) m).arrived = true ∧ (hart (s false h w) m).barrierCount = (g false).barriers) ∧
    (members (g false)).length = (g false).packet.size ∧
    (∀ m ∈ members (g false), (hart (s false w w) m).arrived = true ∧ (hart (s false w w) m).barrierCount = (g false).barriers) ∧
    ((me (s false { w with barrierCount := 8 } h)).arrived = true ∧ (me (s false { w with barrierCount := 8 } h)).barrierCount ≠ (g false).barriers) ∧
    (hart (s false w w) 4).wait = some (.gbar 7) := by
  refine ⟨by rfl, by rfl, by rfl, by rfl, by decide, rfl, rfl, ?_, by decide +kernel, by decide +kernel, by decide, by decide +kernel,
    by decide +kernel, by rfl⟩
  rintro (⟨e, h, -⟩ | ⟨f, h, -⟩ | ⟨e, h, -⟩) <;> cases h

theorem witness_TimedWaits :
    let s (v b : Word) (h : Hart) : State := { withNum 0x2000 8 9 (st (withX [(1, v), (2, b)] h)) with time := 100 }
    let m := inMode .monitor
    Settled (s 0 0 m) ∧ (s 0 0 m).time + 2 ^ 32 < (0x100000065 : Word).toNat ∧ (0x100000064 : Word).toNat ≤ (s 0 0 m).time + 2 ^ 32 ∧
    (100 : Word).toNat ≤ (s 0 0 m).time ∧ (s 0 0 m).time < (101 : Word).toNat ∧ (0x2004 : Word).toNat % 8 ≠ 0 ∧
    PlainAt (s 0x2000 9 m) 0x2000 8 ∧ (9 : Word).toNat ≤ memNat (s 0x2000 9 m) 0x2000 8 ∧ memNat (s 0x2000 9 m) 0x2000 8 < (10 : Word).toNat ∧
    (me (s 0 0 m)).exitAsked = false ∧ (me (s 0 0 { m with imask := 0x8000, ipend := 0x8000 })).ipend.toNat.testBit 15 = true ∧
    (me (s 0 0 { m with vq := [{ convoy0 with mem := true }] })).vq = [{ convoy0 with mem := true }] ∧ (me (s 0 0 { m with wait := some (.waitt 100) })).wait = some (.waitt 100) ∧
    (me (s 0 0 { m with wait := some (.waitwm 0x2000 9) })).wait = some (.waitwm 0x2000 9) ∧
    (me (s 0 0 { m with wait := some (.migration 0x2000 .load 100) })).wait = some (.migration 0x2000 .load 100) ∧
    (match Machine.translate (s 0 0 m) (hartAccess (s 0 0 m) 0 .load) 0x2000 with | TransResult.migrating _ => false | _ => true) = true ∧
    (let h : Hart := { inMode .supervisor with ptbase := 0x5001, wait := some (.migration 0 .store 100) }
     let t := withNum 0x2000 8 0x40000000000000F (withNum 0x3000 8 0x2001 (withNum 0x4000 8 0x3001 (withNum 0x5000 8 0x4001 (st h))))
     match Machine.translate t (hartAccess t 0 .store) 0 with | TransResult.migrating _ => true | _ => false) = true := by
  refine ⟨by rfl, by decide, by decide, by decide, by decide, by decide, by unfold PlainAt; decide +kernel, by decide +kernel,
    by decide +kernel, by rfl, by decide +kernel, by rfl, by rfl, by rfl, by rfl, by decide +kernel, by decide +kernel⟩

theorem witness_VectorDeclaration :
    let s (l : BitVec 16) (h : Hart) : State := { stC h { lanepart := l } with harts := [(0, h), (1, { inMode .user with groups := 4 })] }
    laneFieldOf (s 0x8420 (inMode .user)) 0 = 0 ∧ laneFieldOf (s 3 (inMode .user)) 0 = 3 ∧ (me (s 3 { inMode .user with vs := 0 })).vs = 0 ∧
    Settled (s 3 (inMode .user)) ∧ (me (s 3 (inMode .user))).vs ≠ 0 ∧ (2 : BitVec 2) ≠ 3 ∧
    (me (s 3 { inMode .user with vq := [convoy0] })).regs ≠ 2 ∧ (me (s 3 { inMode .user with vq := [convoy0] })).vq ≠ [] ∧
    laneFieldOf (s 12 (inMode .user)) 0 = 12 ∧ (hart (s 12 (inMode .user)) 1).groups &&& 12 ≠ 0 ∧
    (laneFieldOf (s 3 (inMode .user)) 0 = (me (s 3 (inMode .user))).groups ∧ (me (s 3 (inMode .user))).vq = []) ∧
    movesPending (inMode .user) = false ∧ movesPending { inMode .user with mq := [{ entry0 with act := .toVector 1 2 3 0 }] } = true ∧
    laneFieldOf { st {} with cores := [(1280, { lanepart := 0xF })] } 5120 = 1 ∧
    (∀ o ∈ hartsOn 0, o ≠ 0 → (hart (s 3 { inMode .user with groups := 0 }) o).groups &&& 3 = 0) ∧
    (hart (s 3 { inMode .user with wait := some (.localsplit 5 4) }) 0).wait = some (.localsplit 5 4) ∧ fieldOf 4 0 3 = 4 ∧
    (Machine.core (s 3 (inMode .user)) 0).engine.queue = [] ∧ ∀ e ∈ (s 3 (inMode .user)).tasks, e.rowCore = 0 → e.rows = [] := by
  unfold Settled; decide +kernel

/-- Queued accesses to the scratchpad: under the checks of the old S they hold a LOCALSPLIT write up; an exposed convoy, which
is checked again, does not; and a core that has become managed. -/
theorem witness_LocalsplitQueues :
    let inSpad (q : Pin) : Prop := 0x10000000 ≤ q.ppage ∧ q.ppage < 0x10000000 + 256
    let q : Pin := ⟨0x100000FF, 0x100000FF, false, 12, none, false⟩
    let held (x : Hart) : Prop := (∃ e ∈ x.mq, ∃ p ∈ e.pins, inSpad p) ∨
      ∃ k ∈ (x.flight.map (·.convoy)).toList ++ x.vq, (k.reprobe = none ∨ k.firstFault = true) ∧ ∃ p ∈ k.pins, inSpad p
    held { mq := [{ entry0 with pins := [q] }] } ∧ held { vq := [{ convoy0 with pins := [q] }] } ∧
    ¬held { vq := [{ convoy0 with pins := [q], reprobe := some 3 }] } ∧ q.ppage * 4096 / 0x100000 = 0x100000 ∧
    (let s := stI { inMode .supervisor with wait := some (.localsplit 5 4) } { gangs := [(0, gangOf 1 [(0, 3)])] }
     (hart s 0).wait = some (.localsplit 5 4) ∧ (hart s 0).mode = .supervisor ∧
      ∃ p ∈ (island s (islandOf 0)).gangs, ∃ g ∈ p.2.harts, coreOf g.2 = coreOf 0) := by
  decide +kernel

/-- A walk through three pointers to a leaf of level 1 at the last entry of its table; a 16-page leaf; an invalid entry. -/
theorem witness_PageWalks :
    let s (leaf : Nat) : State := withNum 0x2FF8 8 leaf (withNum 0x3FF8 8 0x2001 (withNum 0x4FF8 8 0x3001 (withNum 0x57F8 8 0x4001 (st { inMode .user with ptbase := 0x0FF0000000005001 }))))
    let va : Nat := 0x7FFFFFFFFFFF
    (hart (s 0) 0).mode ≠ .monitor ∧ (hart (s 0) 0).ptbase.toNat.testBit 0 = true ∧ (s 0).failedStacks = 0 ∧ (s 0).poison = [] ∧
    (s 0).lostLines = [] ∧ Memory.wf (s 0).mem = true ∧ ¬IsCanonical (va + 1) ∧ IsCanonical va ∧ IsCanonical 0xFFFF800000000000 ∧
    (Machine.core (s 0) 0).tlb = [] ∧ (Machine.core (s 0) 0).small = [] ∧ (∀ e ∈ (s 0).tasks, e.homeLines = []) ∧ WalkFails (s 0) va 4 5 ∧
    WalkTo (s 0x400000000C1F) va 4 5 (1, 0x2FF8, 0x400000000C1F) ∧ Allows 0x400000000C1F .user .fetch ∧ Allows 0x400000000C1F .user .store ∧
    ¬Allows 0xF .user .load ∧ ¬Allows 0x1F .supervisor .fetch ∧ (0x400000000000017).testBit 58 = true := by
  refine ⟨by decide, by decide +kernel, by rfl, by rfl, by rfl, by decide +kernel, by unfold IsCanonical; decide, by unfold IsCanonical; decide,
    by unfold IsCanonical; decide, by rfl, by rfl, fun _ h => (nomatch h), ?_, ?_, by unfold Allows; decide, by unfold Allows; decide, by unfold Allows; decide,
    by unfold Allows; decide, by decide⟩
  · refine ⟨by decide, .inr ⟨?_, by decide +kernel, .inr ⟨?_, by decide +kernel, .inr ⟨?_, by decide +kernel, .inl ⟨?_, ?_⟩⟩⟩⟩⟩ <;>
      simp only [IsPointer, IsLeaf] <;> decide +kernel
  · refine ⟨by decide, .inr ⟨?_, by decide +kernel, .inr ⟨?_, by decide +kernel, .inr ⟨?_, by decide +kernel, .inl ⟨?_, ?_⟩⟩⟩⟩⟩ <;>
      simp only [IsPointer, IsLeaf] <;> decide +kernel

theorem witness_CachesAndInvalidation :
    let s (a : Word) (m : Mode) := st (withX [(1, a)] (inMode m))
    Settled (s 0 .monitor) ∧ ((Machine.core (s 0 .monitor) 0).split.toNat < 4 ∧ inL2 (s 0 .monitor) 0 0x3B9AC9FFF = false) ∧
    dirEntryOf { s 0 .monitor with caches := { homes := [(0, { dir := [⟨0, .shared, [.l2 3]⟩] })] } } 0 = some ⟨0, .shared, [.l2 3]⟩ ∧
    PlainAt (s 0xEE6B27FFFF .monitor) 0xEE6B27FFFF 1 ∧ (me (s 0x10000000000 .monitor)).mode = .monitor ∧
    0x104FFFFFFF < 0x10000000000 + 20 * 0x4000000 ∧ 0x20000000000 ≤ (0x213FFFFFFFF : Word).toNat ∧ 2 ^ 52 ≤ (0x10000000000000 : Word).toNat ∧
    (me (s 0 .user)).mode = .user ∧ (me (s 0 .supervisor)).mode ≠ .user ∧ IsHart (s 0 .user).cur ∧
    scopeOf (.tlbinvPage 1 2 .system) = some .system ∧ scopeOf (.tlbinvAll .hart) = some .hart ∧
    MemoryQueued (me (st { inMode .supervisor with mq := [{ entry0 with mem := true }] })) ∧
    (∀ h, (hart (s 0 .supervisor) h).vq = [] ∧ (hart (s 0 .supervisor) h).flight = none ∧ (hart (s 0 .supervisor) h).mq = []) ∧
    ((s 0 .supervisor).tasks = [] ∧ (s 0 .supervisor).pendingWrites = []) ∧ InScope (s 0 .supervisor) .island 63 ∧ InScope (s 0 .supervisor) .island 1280 ∧
    InScope (s 0 .supervisor) .device 64 ∧ ¬InScope (s 0 .supervisor) .core 1 ∧
    Dropped (s 0x1234 .supervisor) (.tlbinvPage 1 0 .hart) ⟨1, 12, 0, 0, false, true, true, true, true, true, false⟩ := by
  refine ⟨by rfl, by decide +kernel, by rfl, by unfold PlainAt; decide +kernel, by rfl, by decide, by decide, by decide, by rfl, by decide +kernel, by unfold IsHart; decide,
    rfl, rfl, .inr (.inr ⟨_, List.mem_singleton.2 rfl, rfl⟩), fun h => ?_, ⟨by rfl, by rfl⟩, ⟨by decide, by decide +kernel⟩, ⟨by decide, by decide +kernel⟩,
    ⟨by decide, .inr ⟨0, by decide +kernel, by decide +kernel⟩⟩, fun h => absurd (show (1 : Nat) = 0 from h) (by decide), ⟨.inr (by decide +kernel), by decide +kernel⟩⟩
  change (hart (st (withX [(1, 0)] (inMode .supervisor))) h).vq = [] ∧ _
  rw [show hart (st (withX [(1, 0)] (inMode .supervisor))) h = if h = 0 then withX [(1, 0)] (inMode .supervisor) else {} from hart_st _ _]
  split <;> exact ⟨by rfl, by rfl, by rfl⟩

/-- A kick's descriptor: whole, with a field of another operation set, and an engine full and halted. -/
theorem witness_StreamKicks :
    let k : StreamCmd := { op := 1, mbx := false, cnt1 := 0, cnt2 := 0, len := 8, src := 0, dst := 0, mbxa := 0, sstr1 := 0, dstr1 := 0
                           sstr2 := 0, dstr2 := 0, descAddr := 0, ptbase := 0, mode := .monitor, hart := 0, promise := 9, irrev := false }
    let s (w : Nat) (e : Engine) : State := withNum 0x2020 8 0x9000 (withNum 0x2018 8 0x8000 (withNum 0x2010 8 0x7000 (withNum 0x2008 8 0xFFFFFFFF (withNum 0x2000 8 w
      (stC (withX [(1, 0x2000)] (inMode .monitor)) { engine := e })))))
    Settled (s 0x101 {}) ∧ ¬MemoryQueued (me (s 0x101 {})) ∧ (rx (s 0x101 {}) 1).toNat % 64 = 0 ∧ (0x2008 : Word).toNat % 64 ≠ 0 ∧
    PlainAt (s 0x101 {}) 0x2000 64 ∧ (∀ p ∈ [(0x101, 1), (0x1000100000102, 2), (0x103, 3)], ValidDescriptor (s p.1 {}) 0x2000 p.2) ∧
    (∀ p ∈ [(1, 1), (0x100000102, 2)], ¬ValidDescriptor (s p.1 {}) 0x2000 p.2) ∧
    EngineStopped (Machine.core (s 0x101 { freeze := { halted := true } }) 0).engine ∧ ¬EngineStopped (Machine.core (s 0x101 {}) 0).engine ∧
    16 ≤ (unfinished (Machine.core (s 0x101 { queue := List.replicate 16 k }) 0).engine).length ∧
    (unfinished (Machine.core (s 0x101 { queue := List.replicate 15 k }) 0).engine).length < 16 ∧
    (commandAt (s 0x101 {}) 0x2000 1).src.toNat < 2 ^ 52 ∧ (commandAt (s 0x101 {}) 0x2000 1).dst.toNat < 2 ^ 52 := by
  refine ⟨by rfl, ?_, by decide +kernel, by decide, by unfold PlainAt; decide +kernel, by simp only [ValidDescriptor]; decide +kernel,
    by simp only [ValidDescriptor]; decide +kernel, by unfold EngineStopped; decide +kernel, by unfold EngineStopped; decide +kernel, by decide +kernel,
    by decide +kernel, by decide +kernel, by decide +kernel⟩
  rintro (⟨e, h, -⟩ | ⟨f, h, -⟩ | ⟨e, h, -⟩) <;> cases h

theorem witness_StreamCommands :
    let k : StreamCmd := { op := 2, mbx := true, cnt1 := 2, cnt2 := 1, len := 8, src := 0x7000, dst := 0xEE6B27FFF0, mbxa := 0x9000, sstr1 := 16
                           dstr1 := 8, sstr2 := 0, dstr2 := 0, descAddr := 0x2000, ptbase := 0, mode := .monitor, hart := 0, promise := 9, irrev := false }
    let r (x : StreamEnd) : StreamRun := { cmd := k, result := x, words := 2, ends := 9 }
    let s (t : Nat) (h : Hart) (e : Engine) : State := { stC h { engine := e } with time := t }
    let m := inMode .monitor
    Quiet (s 0 m { queue := [k] }) ∧ Memory.wf (s 0 m {}).mem = true ∧ (s 0 m {}).failedStacks = 0 ∧
    ¬EngineStopped { queue := [k] } ∧ (island (s 0 m {}) 0).freezeBit = false ∧ (1 ≤ k.len ∧ k.len < 2 ^ 32) ∧
    (∀ p ∈ streamRows k, p.1 + k.len ≤ 0xEE6B280000) ∧ (∀ p ∈ streamRows k, p.2 + k.len ≤ 0xEE6B280000) ∧ (streamRows k).length = 2 ∧
    (Machine.core (s 9 m { running := some (r .complete) }) 0).engine.running = some (r .complete) ∧
    nowAt (s 8 m {}) 0 < (r .complete).ends ∧ (r .pageFault).ends ≤ nowAt (s 9 m {}) 0 ∧ (r .complete).words < 2 ^ 56 ∧
    (k.mbxa.toNat % 8 = 0 ∧ k.mbxa.toNat + 8 ≤ 0xEE6B280000) ∧
    nowAt (s 8 m {}) 0 < (9 : Word).toNat ∧ Settled (s 9 m {}) ∧
    ((9 : Word) ∈ (me (s 9 { m with failed := [12, 9] } {})).failed ∧ ∀ q ∈ ([12, 9] : List Word), q.toNat ≤ 9 → (9 : Word).toNat ≤ q.toNat) ∧
    (∃ c ∈ unfinished { queue := [k] }, c.promise.toNat ≤ 9) ∧ (¬∃ c ∈ unfinished { queue := [k] }, c.promise.toNat ≤ 8) ∧
    (hart (s 9 { m with wait := some (.swait 9) } {}) 0).wait = some (.swait 9) ∧
    (let e := (Machine.core (s 0 m { queue := [k], badBuffer := true }) 0).engine
     e.queue = [k] ∧ e.running = none ∧ e.violating = none ∧ e.recheck ≤ (s 0 m {}).time ∧ e.badBuffer = true) ∧
    (let e := (Machine.core (s 0 m { queue := [k] }) 0).engine
     e.running = none ∧ e.violating = none ∧ e.recheck ≤ (s 0 m {}).time ∧ e.badBuffer = false) := by
  refine ⟨by unfold Quiet; decide +kernel, by decide +kernel, by decide +kernel, by unfold EngineStopped; decide +kernel, by decide +kernel, by decide +kernel,
    by decide +kernel, by decide +kernel, by decide +kernel, by rfl, by decide +kernel, by decide +kernel, by decide +kernel, by decide +kernel, by decide +kernel,
    by rfl, ⟨.tail _ (.head _), by simp⟩, by decide +kernel, by decide +kernel, by rfl, ⟨by rfl, by rfl, by rfl, by decide, by rfl⟩,
    ⟨by rfl, by rfl, by decide, by rfl⟩⟩

/-- An OPEN's descriptor at its bounds, domains free and taken, and TSPAWNs outside and inside a task. -/
theorem witness_TaskCreation :
    let d (w : Nat) : State := withNum 0x2008 8 w (withNum 0x2000 8 0x8000 (st (withX [(1, 0x2000), (2, 0xFFFFFFFFFFFFFFFE), (3, 0x4000)] (inMode .monitor))))
    let x := withX [(1, 0x2000), (2, 0xFFFFFFFFFFFFFFFE), (3, 0x4000)] { inMode .monitor with dom := 15, seeded := [(15, 65534)] }
    let s (m : Domain) (ts : List TaskEntry) (h : Hart) : State := { stP h { domains := [(15, m)] } with tasks := ts }
    let a : Domain := { active := true, seeding := true, topTs := 0xFFFFFFFFFFFFFFFE, nextId := 0xFFFFFFFE, desc := 0x2000 }
    let ft (w : Nat) (o m : Nat) : Nat := memNat (d w) (0x2000 + o) m
    let valid (w : Nat) : Prop := ft w 0 8 % 4096 = 0 ∧ 1024 ≤ ft w 8 4 ∧ ft w 8 4 ≤ 16777216 ∧ ft w 12 4 = 0 ∧ (∀ j, j < 22 → ft w (42 + j) 1 = 0)
    Settled (s a [] x) ∧ partOf (s a [] x) 0 = some 0 ∧ (me (s a [] { x with tmode := true })).tmode = true ∧ (0x2008 : Word).toNat % 64 ≠ 0 ∧
    PlainAt (d 1024) 0x2000 64 ∧ valid 1024 ∧ valid 16777216 ∧ ¬valid 1023 ∧ ¬valid 16777217 ∧
    (∀ j, j < 15 → (domain { d 1024 with parts := [(0, { domains := (List.range 15).map fun k => (k, a) })] } 0 j).active = true) ∧
    (domain { d 1024 with parts := [(0, { domains := (List.range 15).map fun k => (k, a) })] } 0 15).active = false ∧
    (domain (s a [] x) 0 15).active = true ∧ (domain (s a [] x) 0 14).active = false ∧ entriesOf (s a [] x) 0 15 = [] ∧
    entriesOf (s a [{ task0 with dom := 15 }] x) 0 15 ≠ [] ∧ ¬MemoryQueued (me (s a [] x)) ∧ PlainAt (s a [] x) (a.desc + 16) 26 ∧
    (¬∃ h, (hart (s a [] x) h).tmode = true ∧ partOf (s a [] x) h = some 0 ∧ ∃ c, (hart (s a [] x) h).enter = some c ∧ c.dom = 15) ∧
    (rx (s a [] x) 3).toNat % 4 = 0 ∧ (rx (s a [] x) 2).toNat ≠ 2 ^ 64 - 1 ∧ taskAt (s a [] x) 0 = none ∧ a.topTs ≤ (rx (s a [] x) 2).toNat ∧
    (tabGet (me (s a [] x)).seeded 15).getD 0 < 65535 ∧ a.nextId + childrenOf (s a [] x) 0 15 + 1 ≤ 2 ^ 32 - 1 ∧
    2 ^ 32 - 1 < a.nextId + 1 + childrenOf (s a [] x) 0 15 + 1 ∧ inUnit (s a [] x) 0 < 8192 ∧
    taskAt (s a [{ task0 with st := .irrev }] { x with task := some 5 }) 0 = some { task0 with st := .irrev } ∧
    Settled (s a [{ task0 with st := .irrev }] { x with task := some 5 }) ∧ task0.key.ts ≤ (rx (s a [] x) 2).toNat ∧ task0.children < 65535 ∧
    (domain (s a [] x) 0 15).stopped = false ∧ (domain (s { a with stopped := true } [] x) 0 15).stopped = true := by
  refine ⟨by rfl, by rfl, by rfl, by decide, by unfold PlainAt; decide +kernel, by decide +kernel, by decide +kernel, by decide +kernel,
    by decide +kernel, by decide +kernel, by rfl, by rfl, by rfl, by rfl, by decide, ?_, by unfold PlainAt; decide +kernel, ?_, by decide +kernel,
    by decide +kernel, by rfl, by decide +kernel, by decide +kernel, by decide +kernel, by decide +kernel, by decide +kernel, by rfl,
    by unfold Settled; decide +kernel, by decide +kernel, by decide, by rfl, by rfl⟩
  · rintro (⟨e, h, -⟩ | ⟨f, h, -⟩ | ⟨e, h, -⟩) <;> cases h
  · rintro ⟨h, h1, -⟩
    rw [hart_of (by rfl)] at h1
    revert h1; split <;> exact fun h => nomatch h

theorem witness_TaskControl :
    let s (h : Hart) (e : TaskEntry) (f : Option Key) : State :=
      { stP { h with task := some 5 } { domains := [(0, { active := true, frontier := f })] } with tasks := [e] }
    let u := withX [(1, 2)] (inMode .user)
    let c : Convoy := convoy0
    taskAt (s u task0 none) 0 = some task0 ∧ task0.st ≠ .irrev ∧ AlwaysIrrevocable .tret ∧ ¬Earliest (s u task0 none) task0 ∧
    Earliest (s u task0 (some (.ident 3 1))) task0 ∧ (BitVec.ofInt 64 ((rx (s u task0 none) 1).toNat + (0 : BitVec 16).toInt)).toNat % 4 ≠ 0 ∧
    (me (s u task0 none)).lc = 0 ∧ taskAt (st u) 0 = none ∧ (me (s { u with vq := [c] } task0 none)).vq ≠ [] ∧
    ((me (s u task0 none)).vq = [] ∧ (me (s u task0 none)).flight = none ∧ (me (s u task0 none)).castMask = none) ∧
    (hart (s { u with wait := some .tdone } task0 none) 0).wait = some .tdone ∧
    taskAt (s u { task0 with st := .irrev } none) 0 = some { task0 with st := .irrev } ∧ task0.hart = some 0 ∧
    (∀ y ∈ (s u task0 none).tasks, y.parent ≠ some task0.uid) ∧ ((s u task0 none).tasks.filter fun y => y.uid == task0.uid) = [task0] ∧
    task0.fault = none ∧ (∀ x ∈ (s u task0 none).tasks, x.uid = task0.uid → x = task0) ∧ task0.st = .running ∧
    ((me (s u task0 none)).sdest = none ∧ (me (s u task0 none)).heldConvoy = none ∧ (me (s u task0 none)).mq = []) ∧
    ¬((me (s { u with mq := [entry0] } task0 none)).mq = [] ∧ (me (s { u with mq := [entry0] } task0 none)).castMask = none) ∧
    (let f : Flight := { convoy := { c with members := [⟨.red .sum 4 5 .w 0, 0, {}⟩] }, issued := 0, lsStart := 0, lsBeats := 0, drains := 9
                         todo := none, dest := none }
     (me (s { u with flight := some f } task0 none)).flight = some f ∧ f.convoy.folds = true) := by
  refine ⟨by rfl, by decide, trivial, fun h => ?_, ⟨by decide, by rfl⟩, by decide +kernel, by rfl, by rfl, by decide +kernel, ⟨by rfl, by rfl, by rfl⟩,
    by rfl, by rfl, by rfl, by decide +kernel, by decide +kernel, by rfl, fun x h _ => List.mem_singleton.1 h, by rfl, ⟨by rfl, by rfl, by rfl⟩,
    (fun h => nomatch h.1), by rfl, by rfl⟩
  cases (show (none : Option Key) = some (.ident 3 1) from h.2)

theorem witness_TaskEvents :
    let c : EnterCtx := { d := 0, x2 := 1, x3 := 2, rm := 0, nbv := 3, srseed := 4, mode := .user, pc := 0x1000, dom := 0 }
    let idle : Hart := { inMode .user with tmode := true, enter := some c }
    let ready : TaskEntry := { task0 with st := .ready, hart := none }
    let s (h : Hart) (ts : List TaskEntry) (m : Domain) : State := { stP h { domains := [(0, m)] } with tasks := ts, nextUid := 9 }
    let d : Domain := { active := true }
    let k : Key := .ident 3 1
    let fin : TaskEntry := { task0 with st := .finished, hart := none, buf := [(0x2000, 7)] }
    partOfIsland (s idle [ready] d) 0 = some 0 ∧ nextServed (s idle [ready] d) 0 0 = some 0 ∧ readyOn (s idle [ready] d) 0 0 0 = some ready ∧
    (idleOn (s idle [ready] d) 0 0 0).head? = some 0 ∧ (hart (s idle [ready] d) 0).enter = some c ∧ ready.uid ∈ (s idle [ready] d).tasks.map (·.uid) ∧
    nextServed (s idle [] d) 0 0 = none ∧ (part { s idle [ready] d with time := 128 } 0).nextExchange ≤ 128 ∧
    (∃ j, j < 16 ∧ (domain (s idle [ready] d) 0 j).active = true) ∧
    (domain (s idle [] { d with sent := some (10, some k, 9) }) 0 0).sent = some (10, some k, 9) ∧
    (∀ j, j < 16 → j ≠ 0 → (domain (s idle [] { d with sent := some (10, some k, 9) }) 0 j).active = false) ∧
    ({ task0 with st := .held } : TaskEntry).key = k ∧ (hart (s { idle with task := some 5 } [{ task0 with st := .held }] d) 0).preempted = false ∧
    (domain (s {} [fin] { d with commitDue := true, applied := 6, frontier := some (.ident 4 2) }) 0 0).commitDue = true ∧
    fin.uid < 6 ∧ fin.parent ≠ some fin.uid ∧ fin.key.ts < Key.ts (.ident 4 2) ∧ (∀ h, (hart (s {} [fin] d) h).enter = none) ∧
    inUnit (s idle [ready] d) 0 ≤ 7680 ∧ (∀ e ∈ (s idle [ready] d).tasks, e.reads = []) ∧
    partOfIsland { s idle [] d with tags := Vector.replicate 20 7 } 0 = none ∧
    (let q : TaskEntry := { ready with spilled := true }
     let t : State := s idle [q] { d with ptbase := 0, qbase := 0x8000, qcap := 1024 }
     readyOn t 0 0 0 = none ∧ inUnit t 0 < 8192 ∧ CanTake t 0 0 0 ∧ (∀ y, ¬ReadyAt t 0 0 0 y) ∧ (domain t 0 0).stopped = false ∧
      q ∈ entriesOf t 0 0 ∧ (∀ y ∈ entriesOf t 0 0, y.spilled = true → y = q ∨ q.key.lt y.key = true) ∧ SpillOpen t 0 0 0 1) ∧
    ((island (s idle [ready] d) 0).dispatchedAt ≠ some (s idle [ready] d).time ∧ (island (s idle [ready] d) 0).freezeBit = false ∧
      (∀ j, j < 16 → ((domain (s idle [ready] d) 0 j).active = true ↔ j = 0)) ∧ (domain (s idle [ready] d) 0 0).holdFor = none ∧
      ReadyAt (s idle [ready] d) 0 0 0 ready ∧ (∀ y, ReadyAt (s idle [ready] d) 0 0 0 y → y = ready ∨ ready.key.lt y.key = true) ∧
      CanTake (s idle [ready] d) 0 0 0) ∧
    (let many : List TaskEntry := (List.range 7681).map fun u => { ready with uid := u }
     let t : State := s idle many { d with qbase := 0x8000, qcap := 8192 }
     7680 < inUnit t 0 ∧ (∀ e ∈ t.tasks, e.part = 0 ∧ e.dom = 0) ∧ (t.tasks.map (·.uid)).Nodup ∧ (domain t 0 0).active = true ∧
      (domain t 0 0).stopped = false ∧ t.tasks.length ≤ (domain t 0 0).qcap ∧ SpillOpen t 0 0 0 (domain t 0 0).qcap) ∧
    (let t : State := s {} [fin] { d with commitDue := true, applied := 6, frontier := some (.ident 4 2) }
     (∀ e ∈ t.tasks, e.part = 0 ∧ e.dom = 0) ∧ (t.tasks.map (·.uid)).Nodup ∧ t.pendingWrites = [] ∧ t.poison = [] ∧ t.lostLines = [] ∧
      Memory.wf t.mem = true) ∧
    (let t : State := s { inMode .user with task := some 5, tmode := true, enter := some c } [{ task0 with key := .ident 8 8 }, { ready with uid := 6 }] { d with frontier := some k }
     (byKey ((entriesOf t 0 0).filter fun e => decide (e.st ≠ .finished))).head? = some { ready with uid := 6 } ∧
      (((byKey ((entriesOf t 0 0).filter fun e => decide (e.st ≠ .finished))).filter
        fun y => decide (y.st ≠ .ready ∧ y.st ≠ .irrev ∧ y.hart ≠ none)).getLast? = some { task0 with key := .ident 8 8 }) ∧
      Earliest t { ready with uid := 6 } ∧ ¬∃ h, CanTake t 0 0 h) := by
  refine ⟨by rfl, by decide +kernel, by decide +kernel, by decide +kernel, by rfl, by decide +kernel, by decide +kernel, by decide +kernel,
    ⟨0, by decide, by rfl⟩, by rfl, by decide +kernel, by rfl, by rfl, by rfl, by decide, by decide, by decide, fun h => ?_, by decide +kernel,
    by decide +kernel, by decide +kernel, ⟨by decide +kernel, by decide +kernel, ?_, ?_, by rfl, by decide +kernel, by decide +kernel, ?_⟩,
    ⟨by decide +kernel, by rfl, by decide +kernel, by rfl, ?_, ?_, ?_⟩,
    ⟨?_, ?_, ?_, by rfl, by rfl, ?_, ?_⟩, ⟨by decide +kernel, by decide +kernel, by rfl, by rfl, by rfl, by rfl⟩,
    by decide +kernel, by decide +kernel, ⟨by decide, by rfl⟩, ?_⟩
  · rw [hart_of (by rfl)]
    split <;> rfl
  · exact ⟨by decide, by rfl, by rfl, by rfl, by rfl, by rfl, by rfl, by rfl, ⟨_, by rfl, by rfl⟩, by rfl, by rfl, by rfl, by rfl, by rfl, by rfl⟩
  · rintro y ⟨hy, -, -, -, hs, -⟩
    rw [List.mem_singleton.1 hy] at hs
    cases hs
  · exact ⟨by decide, by rfl, by rfl, by rfl, by decide +kernel, by rfl, by rfl, by decide +kernel, by decide +kernel, by decide +kernel⟩
  · exact ⟨.head _, by rfl, by rfl, by rfl, by rfl, by rfl⟩
  · exact fun y hy => .inl (List.mem_singleton.1 hy.1)
  · exact ⟨by decide, by rfl, by rfl, by rfl, by rfl, by rfl, by rfl, by rfl, ⟨_, by rfl, by rfl⟩, by rfl, by rfl, by rfl, by rfl, by rfl, by rfl⟩
  · simp [inUnit, task0, List.filter_map, Function.comp_def]
  · simp [task0]
  · simp [Function.comp_def, List.nodup_range]
  · simp [domain, part, tabGet, stP, st]
  · exact ⟨by decide, by rfl, by rfl, by rfl, by decide +kernel, by rfl, by rfl, by decide +kernel, by decide +kernel, by decide +kernel⟩
  · rintro ⟨h, -, h1, h2, -⟩
    rw [hart_of (by rfl)] at h1 h2
    revert h1 h2; split
    · exact fun _ h => nomatch h
    · exact fun h => nomatch h

/-- A block with one packet in its ring, whole and failing check 10; a waiting gang at a due round; a pre-emption. -/
theorem witness_StewardEvents :
    let i (x : Island) : Island := { x with slots := [(63, { qcbpa := 0x3000, mapped := true, look := true })] }
    let q (w : Nat) (x : Island) : State := withNum 0x4018 8 0x1000 (withNum 0x4010 8 0x5000 (withNum 0x4000 8 0x10104030401 (withNum 0x3030 8 4 (withNum 0x3028 8 0x6000
      (withNum 0x3010 8 1 (withNum 0x3008 8 w (withNum 0x3000 8 0x4000 (stI (inMode .supervisor) (i x)))))))))
    let good : List Byte := [1, 3, 64, 1, 4, 0, 0, 0, 0, 16, 0, 16, 0, 0, 0, 0] ++ List.replicate 48 0
    let wait : Gang := { gangOf 1 [] with phase := .waiting, slot := 63, qcb := 0x3000 }
    let r : State := { (({ stI {} { gangs := [(5, wait)] } with harts := [] }) : State) with time := 16384 }
    let stop : Gang := { gangOf 1 [(0, 0)] with phase := .stopping }
    let p (b : Bool) : State := stI { inMode .user with preempted := b } { gangs := [(255, stop)] }
    Quiet (q 0x10300000004 {}) ∧ Memory.wf (q 0x10300000004 {}).mem = true ∧ (slot (q 0x10300000004 {}) 0 63).mapped = true ∧
    (slot (q 0x10300000004 {}) 0 63).look = true ∧ readQcb (q 0x20300000004 {}) 0 0x3000 = none ∧
    (∃ c, readQcb (q 0x300000004 {}) 0 0x3000 = some c ∧ c.enabled = false) ∧
    (∃ c, readQcb (q 0x10300000004 {}) 0 0x3000 = some c ∧ c.enabled = true ∧ c.rdIdx ≠ c.wrIdx ∧
      Reaches (q 0x10300000004 {}) 0 c.ptroot (c.ringBase + BitVec.ofNat 64 (64 * (c.rdIdx % 2 ^ c.ringLog2))).toNat 64) ∧
    Works (q 0x10300000004 {}) 0 ∧ ¬Works (q 0x10300000004 { freezeBit := true }) 0 ∧ Works r 0 ∧ Works (p true) 0 ∧
    (¬∃ code, packetFault good 3 True code) ∧ packetFault good 3 False 10 ∧ packetFault good 2 True 8 ∧
    tabGet (island (q 0x10300000004 {}) 0).gangs 0 = none ∧ (island r 0).nextRound ≤ r.time + (island r 0).timeAhead.toNat ∧
    Quiet r ∧ (∀ c, (Machine.core r c).clockLowered = false) ∧ (∀ h, (hart r h).wait = none) ∧ (island r 0).codeSeq = r.placements ∧
    (island r 0).gangs = [(5, wait)] ∧ partOfIsland r 0 ≠ none ∧ wait.phase = .waiting ∧ wait.saved = false ∧ wait.packet.size = 1 ∧
    (∀ h, h / 256 = 0 → hart r h = {}) ∧
    (∀ c, c / 64 = 0 → Machine.core r c = {}) ∧ (wait.reserved = [] ∧ wait.packet.hpc = 1 ∧ wait.packet.lgroups = 0 ∧ wait.packet.tileharts = 0 ∧
      wait.packet.srows = 0) ∧ Reaches r 0 wait.ptroot (wait.packet.save + 0x3FFF0).toNat 16 ∧
    tabGet (island (p true) 0).gangs 255 = some stop ∧ stop.phase = .stopping ∧ (∀ x ∈ stop.harts, (hart (p true) x.2).preempted = true) ∧
    (∃ x ∈ stop.harts, (hart (p false) x.2).preempted = false) ∧
    (∀ c, (Machine.core (p true) c).engine.queue = [] ∧ (Machine.core (p true) c).engine.running = none ∧
      (Machine.core (p true) c).engine.violating = none ∧ (Machine.core (p true) c).deliveries = []) ∧
    Quiet (p true) ∧ Memory.wf (p true).mem = true ∧ Reaches (p true) 0 stop.ptroot stop.packet.save.toNat 0x1C000000 ∧
    (island (p true) 0).logSize = 0 ∧ (stop.harts.map (·.1)).Nodup ∧ stop.packet.srows ≤ 4096 ∧ stop.packet.brows ≤ 4096 ∧
    (∀ x ∈ stop.harts, x.1 < 256 ∧ (hart (p true) x.2).inbox0 = [] ∧ (hart (p true) x.2).inbox1 = []) := by
  have grant : ∀ (s : State) (a n : Nat), s.failedStacks = 0 → a + n ≤ 0x3B80000000 → partOfIsland s 0 = some 0 → part s 0 = {} →
      Reaches s 0 0 a n := by
    intro s a n h1 h2 h3 h4
    refine ⟨by decide, h1, Nat.le_trans h2 (by decide), 0, h3, ?_⟩
    rw [h4]
    exact ⟨Nat.zero_le _, by have e : (({} : Part).hbmSize).toNat = 0x3B80000000 := rfl
                             have e0 : (({} : Part).hbmBase).toNat = 0 := rfl
                             omega⟩
  refine ⟨by unfold Quiet; decide +kernel, by decide +kernel, by rfl, by rfl, by decide +kernel, ⟨_, by rfl, by decide +kernel⟩,
    ⟨_, by rfl, by decide +kernel, by decide +kernel, ?_⟩, ⟨by rfl, by rfl⟩, fun h => (by decide : ¬true = false) h.1, ⟨by rfl, by rfl⟩, ⟨by rfl, by rfl⟩, ?_, ?_, ?_, by rfl,
    by decide +kernel,
    by unfold Quiet; decide +kernel, fun c => by rfl, fun h => by rfl, by rfl, by rfl, by decide +kernel, rfl, rfl, rfl, fun h _ => by rfl,
    fun c _ => by rfl, ⟨by rfl, by rfl, by rfl, by rfl, by rfl⟩, ?_, by rfl, by rfl, by decide +kernel, ⟨(0, 0), by simp [gangOf], by rfl⟩,
    fun c => ⟨by rfl, by rfl, by rfl, by rfl⟩, by unfold Quiet; decide +kernel, by decide +kernel, ?_, by rfl, by decide, by decide, by decide, by decide⟩
  · exact grant _ _ _ (by rfl) (by decide +kernel) (by rfl) (by rfl)
  · rintro ⟨code, h⟩
    revert h; simp [packetFault, byteField, leNat]
  · simp [packetFault, byteField, leNat]
  · simp [packetFault, byteField, leNat]
  · exact grant _ _ _ (by rfl) (by decide +kernel) (by rfl) (by rfl)
  · exact grant _ _ _ (by rfl) (by decide +kernel) (by rfl) (by rfl)

/-- A packet with no lane member in its ring, whose completion and rejection records have their places apart. -/
theorem witness_StewardEvents_records :
    let i : Island := { slots := [(63, { qcbpa := 0x3000, mapped := true, look := true })], logBase := 0x8000, logSize := 128, logHead := 127 }
    let s : State := withNum 0x4000 8 0x10104000301 (withNum 0x3030 8 4 (withNum 0x3028 8 0x6000
      (withNum 0x3010 8 1 (withNum 0x3008 8 0x10300000004 (withNum 0x3000 8 0x4000 (stI (inMode .supervisor) i))))))
    (∃ c, readQcb s 0 0x3000 = some c ∧ c.enabled = true ∧ c.rdIdx ≠ c.wrIdx ∧
      Reaches s 0 c.ptroot (c.ringBase + BitVec.ofNat 64 (64 * (c.rdIdx % 2 ^ c.ringLog2))).toNat 64 ∧
      packetFault (bytesAt s 0x4000 64) c.maxPrio True 2 ∧ (c.cplBase + BitVec.ofNat 64 (32 * (c.cplIdx % 2 ^ c.cplLog2))).toNat = 0x6000 ∧
      Reaches s 0 c.ptroot 0x6000 32) ∧
    i.logBase.toNat + 32 * (i.logHead.toNat % i.logSize.toNat) = 0x8FE0 ∧ Apart 0x3000 64 0x6000 32 ∧ Apart 0x3000 64 0x8FE0 32 ∧ Apart 0x6000 32 0x8FE0 32 ∧
    i.completions = [] ∧ i.logSize ≠ 0 ∧ i.logHead - i.logTail ≠ i.logSize ∧ answers s 0x8FE0 = true ∧
    (∀ v, partOfIsland s 0 = some v → granted s v 0x8FE0 = true) := by
  have grant : ∀ (s : State) (a n : Nat), s.failedStacks = 0 → a + n ≤ 0x3B80000000 → partOfIsland s 0 = some 0 → part s 0 = {} →
      Reaches s 0 0 a n := by
    intro s a n h1 h2 h3 h4
    refine ⟨by decide, h1, Nat.le_trans h2 (by decide), 0, h3, ?_⟩
    rw [h4]
    have e : (({} : Part).hbmSize).toNat = 0x3B80000000 := rfl
    have e0 : (({} : Part).hbmBase).toNat = 0 := rfl
    omega
  refine ⟨⟨_, by rfl, by decide +kernel, by decide +kernel, ?_, ?_, by decide +kernel, ?_⟩, by decide, .inl (by decide), .inl (by decide), .inl (by decide), rfl, by decide, by decide,
    by decide +kernel, fun v h => ?_⟩
  · exact grant _ _ _ (by rfl) (by decide +kernel) (by rfl) (by rfl)
  · exact .inr (.inl ⟨rfl, by decide +kernel, by decide +kernel⟩)
  · exact grant _ _ _ (by rfl) (by decide) (by rfl) (by rfl)
  · cases (show some 0 = some v from h)
    decide +kernel

theorem witness_BoundaryEvents :
    let s (h : Hart) := st h
    let u := inMode .user
    let m (x : Hart) : State := { State.reset with harts := [(5121, x)], codes := [0xD0, 0xDF] }
    let lf : LateFault := { cause := 0x45, tval := 8, start := 3, pc := 0x1000 }
    let draws : Convoy := { convoy0 with members := [⟨.fcvt 5 6 .sf .bf, 0, { rm := 5, seed := 40 }⟩] }
    Runs (s { u with preemptReq := true }) 0 ∧ (hart (s { u with preemptReq := true }) 0).vq = [] ∧
    (¬∃ k ∈ unfinished (Machine.core (s u) 0).engine, k.hart = 0) ∧ ¬Runs (s { u with started := false }) 0 ∧
    (m Hart.boot).codes = [0xD0, 0xDF] ∧ (hart (m Hart.boot) (monitorHart (m Hart.boot))).started = true ∧
    (hart (m Hart.boot) (monitorHart (m Hart.boot))).mon.handling = false ∧ (island (m Hart.boot) 0).freezeBit = false ∧
    (hart (m { Hart.boot with mon := { traps := [0xD0] } }) 5121).mon.handling = true ∧
    ((hart (s { u with lateFault := some lf, heldConvoy := some draws }) 0).heldConvoy = some draws ∧ drewFrom draws = some 40 ∧ drewFrom convoy0 = none) ∧
    (hart (s { u with lateFault := some lf }) 0).lateFault = some lf ∧ Settled { s { u with lateFault := some lf } with cur := 0 } ∧
    lf.cause.toNat < 0xD0 ∧ lf.cause.toNat ≠ 6 ∧ (0xDFFFFFFF : Word32).toNat / 2 ^ 26 = 55 ∧ (0xBF : Byte).toNat < 0xC0 ∧
    (let k : Convoy := { convoy0 with members := [⟨.kpopc 5 1, 0, {}⟩] }
     let x : Hart := { u with preemptReq := true, vq := [k] }
     x.late = false ∧ x.lateFault = none ∧ isLeaving (s x) 0 = false ∧ k ∈ (hart (s x) 0).vq ∧ ∃ m ∈ k.members, ∃ d a, m.act = .kpopc d a) ∧
    (¬(∀ c ∈ (hart (m { Hart.boot with mon := { traps := [7, 0xD0], cause := 7 } }) 5121).mon.traps, ¬(0xD0 ≤ c.toNat ∧ c.toNat ≤ 0xDF)) ∧
      (∀ c ∈ (hart (m { Hart.boot with mon := { traps := [7] } }) 5121).mon.traps, ¬(0xD0 ≤ c.toNat ∧ c.toNat ≤ 0xDF)) ∧
      Hart.boot.enter = none ∧ Hart.boot.wait ≠ some .dest) ∧ u.enter = none ∧ u.mode ≠ .monitor ∧ u.heldConvoy = none := by
  refine ⟨⟨by rfl, by rfl, by rfl, by rfl⟩, by rfl, ?_, fun h => ?_, by rfl, by rfl, by rfl, by rfl, by rfl, ⟨by rfl, by rfl, by rfl⟩, by rfl, by rfl, by decide, by decide,
    by decide, by decide, ⟨by rfl, by rfl, by decide +kernel, .head _, _, .head _, 5, 1, by rfl⟩, ⟨by decide +kernel, by decide +kernel, by rfl, by decide⟩, by rfl, by decide, by rfl⟩
  · rintro ⟨k, h, -⟩; cases h
  · exact absurd h.1 (by decide +kernel)

/-- A hart with x1 at memory and a queue of so many convoys of one instruction. -/
def vhart (x : Word) (n : Nat) : Hart :=
  { withX [(1, x)] (inMode .monitor) with vq := List.replicate n { convoy0 with members := [⟨.kset 1 0, 0, {}⟩] } }
theorem witness_VectorQueue :
    let s (x : Word) (n : Nat) := st (vhart x n)
    let hd : VHdr := ⟨false, 0⟩
    let ld : Instr := .vld hd 2 1 .w
    let ff : Instr := .vldff hd 2 1 .d
    let rest : Instr := .vrest 1
    let image := withNum 0x2000 8 0x101000003 (s 0x2000 0)
    ld.wf = true ∧ Settled (s 0 0) ∧ (memberOf (me (s 0 0)) ld).map (·.1) = some hd ∧ 64 < queuedVector (me (s 0 64)) + 1 ∧
    queuedVector (me (s 0 63)) + 1 ≤ 64 ∧ Unexposed (s 0 63) ∧ ¬Unexposed (st { vhart 0 0 with vq := [{ convoy0 with exposed := true }] }) ∧
    (∃ hd a, memberOf (vhart 0 0) ld = some (hd, a) ∧ Passes (vectorChecks (vhart 0 0) ld a)) ∧
    Fails (vectorChecks { vhart 0 0 with lanes := 0 } (.kand 1 2 3) (.kop .and 1 2 3)) 0x0C ∧
    Fails (vectorChecks { vhart 0 0 with vs := 0, nbv := 3 } (.kand 1 2 3) (.kop .and 1 2 3)) 0x61 ∧
    vectorBytes (vhart 0 0) (.kand 1 2 3) = none ∧ (∃ bs, vectorBytes (vhart 0xEE6B27FFD0 0) ld = some bs ∧ bs.length = 12 ∧
      ∀ p ∈ bs, PlainAt (s 0xEE6B27FFD0 0) p.2.1 p.2.2) ∧
    (rx (s 0x2008 0) 1).toNat % 64 ≠ 0 ∧ (rx (s 0x2000 0) 1).toNat % 64 = 0 ∧
    ProbeAwaits (vhart 0 1) rest 0 ∧ ProbeAwaits (vhart 0 1) (.vst ⟨false, 1⟩ 2 1 .w) 0 ∧
    (∀ i ∈ [rest, ld, ff], ∀ n, ¬ProbeAwaits (vhart 0 0) i n) ∧
    FencedOff { vhart 0 0 with vq := [{ convoy0 with mem := true }], vvFence := 1 } ∧ ¬FencedOff (vhart 0 0) ∧
    StoreAhead { vhart 0 0 with mq := [{ entry0 with act := .save 0x2000, pins := [⟨2, 2, false, 12, none, false⟩] }] } 0x2000 64 0 ∧
    (∀ n, ¬StoreAhead (vhart 0 0) 0x2000 64 n) ∧
    (castHolds { vhart 0 0 with castMask := some (1, 0) } ld = true ∧ castHolds (vhart 0 0) ld = false ∧
      consumesBad { vhart 0 0 with badX := 2 } ld = true ∧ consumesBad (vhart 0 0) ld = false) ∧
    (memNat image 0x2000 2 = 3 ∧ memNat image 0x2002 2 = 8 * 32768 / (8 * 2 ^ 1) / 64 ∧ memNat image 0x2004 1 = 1) ∧
    (∃ bs, vectorBytes (vhart 0xEE6B27FFF8 0) ff = some bs ∧ bs.take 1 = [(0, 0xEE6B27FFF8, 8)] ∧ (bs.drop 1).take 1 = [(1, 0xEE6B280000, 8)]) ∧
    PlainAt (s 0 0) 0xEE6B27FFF8 8 := by
  refine ⟨by decide, by rfl, by rfl, by decide +kernel, by decide +kernel, ?_, ?_, ⟨_, _, by rfl, ?_⟩, ⟨[], _, _, rfl, by rfl, by simp⟩,
    ⟨[_, _], _, _, rfl, by rfl, by simp [isVectorFloat, vhart, inMode, withX, setX]⟩, by rfl, ⟨_, by rfl, by decide +kernel, by unfold PlainAt; decide +kernel⟩, by decide +kernel,
    by decide +kernel, by rfl, .inl ⟨_, .head _, by rfl, _, .head _, .inr (.inr ⟨by decide, by decide⟩)⟩, fun i hi n => ?_,
    .inl ⟨_, .head _, rfl, by decide⟩, ?_, .inr ⟨_, .head _, rfl, by rfl, _, .head _, 0, by decide, by decide⟩, fun n => ?_, by decide +kernel,
    by decide +kernel, ⟨_, by rfl, by decide +kernel, by decide +kernel⟩, by unfold PlainAt; decide +kernel⟩
  · exact ⟨by decide +kernel, by rfl, fun f h => nomatch h⟩
  · intro h; exact absurd (h.1 _ (.head _)) (by decide)
  · intro q hq
    simp only [vectorChecks, List.mem_cons, List.not_mem_nil, or_false] at hq
    rcases hq with rfl | rfl | rfl | rfl | rfl | rfl <;> dsimp only <;> decide +kernel
  · simp only [List.mem_cons, List.not_mem_nil, or_false] at hi
    rcases hi with rfl | rfl | rfl
    · exact fun h => nomatch h
    all_goals rintro (⟨c, h, -⟩ | ⟨e, h, -⟩) <;> cases h
  · rintro (⟨c, h, -⟩ | ⟨f, h, -⟩ | ⟨e, h, -⟩) <;> cases h
  · rintro (⟨c, h, -⟩ | ⟨e, h, -⟩) <;> cases h

/-- A convoy's first member with CV = 1 and words behind it: another member that may and that may not join it, and a
word that is no member. -/
theorem witness_ConvoyPairs :
    let s (w0 w1 : Nat) : State := withNum 0x100C 4 w1 (withNum 0x1008 4 w0 (st (inMode .monitor)))
    let i : Instr := .vadd ⟨true, 0⟩ 4 5 (.reg 6) .w
    let a : VAct := .int .add 4 5 (.vreg 6) .w
    let q : Word := 0x1008
    Settled (s 0 0) ∧ memberOf (me (s 0 0)) i = some (⟨true, 0⟩, a) ∧ (me (s 0 0)).pc + BitVec.ofNat 64 i.length = q ∧
    FetchesPlain (s 0 0) q ∧ (me (s 0 0)).castMask = none ∧ (me (s 0 0)).badX = 0 ∧ (me (s 0 0)).badF = 0 ∧ wordOf (s 0xDFFFFFFF 0) q 0 / 2 ^ 26 < 56 ∧ 56 ≤ wordOf (s 0xE8A64082 0) q 0 / 2 ^ 26 ∧
    (∃ j b, decodeWords (wordsAt (s 0xE8A64082 0) q) = .ok j ∧ memberOf (me (s 0 0)) j = some (⟨false, 0⟩, b) ∧ j = .vmul ⟨false, 0⟩ 5 6 (.reg 8) .w ∧
      ¬Clash a b ∧ a.isMem = false ∧ b.isMem = false ∧ b.isCross = false) ∧
    (∃ j b, decodeWords (wordsAt (s 0xF4A40080 0) q) = .ok j ∧ memberOf (me (s 0 0)) j = some (⟨false, 0⟩, b) ∧
      j = .vslideup ⟨false, 0⟩ 5 4 (.reg 0) .w ∧ Clash a b) ∧
    queuedVector (me (s 0 0)) + 2 ≤ 64 ∧ Unexposed (s 0 0) ∧ Passes (vectorChecks (me (s 0 0)) i a) := by
  refine ⟨by rfl, by rfl, by rfl, ⟨by rfl, by rfl, by decide, by decide, by rfl, by rfl, by rfl, by rfl, by rfl⟩, by rfl, by rfl, by rfl, by decide +kernel, by decide +kernel,
    ⟨.vmul ⟨false, 0⟩ 5 6 (.reg 8) .w, _, by decide +kernel, by rfl, rfl, ?_, by rfl, by rfl, by rfl⟩,
    ⟨.vslideup ⟨false, 0⟩ 5 4 (.reg 0) .w, _, by decide +kernel, by rfl, rfl, .inr (.inr (.inl ⟨by rfl, 4, by decide, by decide⟩))⟩, by decide +kernel,
    ⟨by decide +kernel, by rfl, fun f h => nomatch h⟩, ?_⟩
  · rintro (⟨h, -⟩ | ⟨h, -⟩ | ⟨h, -⟩ | ⟨h, -⟩ | ⟨h, -⟩ | ⟨_, _, _, h⟩ | ⟨_, _, _, h⟩) <;> cases h
  · intro q hq
    simp only [vectorChecks, List.mem_cons, List.not_mem_nil, or_false] at hq
    rcases hq with rfl | rfl | rfl | rfl | rfl | rfl <;> dsimp only <;> decide +kernel

/-- The largest shape over plain rows, B-store rows that fit and one that does not, images, and a full queue. -/
theorem witness_MatrixQueue :
    let c : Core := { kb := 128, n := 32, m := 32 }
    let s (x y : Word) (h : Hart) : State := { stC h c with harts := [(0, withX [(1, x), (2, y)] h)] }
    let m := inMode .monitor
    let map : Nat := 2 ^ 321 + 2 ^ 208 + 2 ^ 192 + 0x0F01010F01 * 2 ^ 128 + 0x0102000100010001 * 2 ^ 64 + 0xFFFFFFFFFFFF
    let image := withNum 0x2000 8 0x13 (withNum 0x2008 8 0x802020 (s 0x2000 0 m))
    Settled (s 0 0 m) ∧ (Instr.mlda 3 1 2).wf = true ∧
    (∃ ck bs a, matrixForm (s 0x3000 0x80 m) (.mlda 3 1 2) = some (ck, bs, a) ∧ Passes ck ∧ bs.length = 32 ∧
      ∀ p ∈ bs, PlainAt (s 0x3000 0x80 m) p.2.1 p.2.2) ∧
    (∃ ck bs a, matrixForm (s 4092 0 m) (.mma 7 3 1 .bf) = some (ck, bs, a) ∧ Passes ck ∧ bs = []) ∧
    (∃ ck bs a, matrixForm (s 4093 0 m) (.mma 7 3 1 .bf) = some (ck, bs, a) ∧ Fails ck 0x6B) ∧
    (∃ ck bs a, matrixForm (s 0 0 { m with ms := 0 }) (.mzero 7) = some (ck, bs, a) ∧ Fails ck 0x62) ∧
    32 ≤ (me (s 0 0 { m with mq := List.replicate 32 entry0 })).mq.length ∧ (me (s 0 0 m)).mq.length < 32 ∧ Unexposed (s 0 0 m) ∧
    imageForm (s 0x2000 0 m) (.msave 1) = some (1, 50496, .save 0x2000, 0, 50496) ∧ PlainAt (s 0x2000 0 m) 0x2000 50496 ∧
    ¬restWaits m (.mrest 1) ∧ restWaits { m with mq := [entry0] } (.mrest 1) ∧ (∀ k, ¬entryAhead (s 0x2000 0 m) k (.mrest 1)) ∧
    entryAhead (s 0x2000 0 { m with mq := [{ entry0 with act := .save 0xE000, pins := [⟨14, 14, false, 12, none, false⟩] }] }) 0 (.mrest 1) ∧
    ¬FencedOff m ∧ FencedOff { m with mq := [{ entry0 with mem := true }], vvFence := 1 } ∧ (rx (s 0x2020 0 m) 1).toNat % 64 ≠ 0 ∧
    LegalMap map ∧ ¬LegalMap 0 ∧ LegalImage image 0x2000 ∧ ¬LegalImage (s 0x2000 0 m) 0x2000 ∧
    (Machine.core (s 0 0 m) 0).kb ≠ 0 ∧ 0xEE6B280000 ≤ (rx (s 0xEE6B27FF80 0x80 m) 1 + BitVec.ofNat 64 1 * rx (s 0xEE6B27FF80 0x80 m) 2).toNat ∧
    PlainAt (s 0xEE6B27FF80 0x80 m) 0xEE6B27FF80 128 ∧ 1 < (Machine.core (s 0 0 m) 0).m.toNat ∧
    (hart (s 0 0 { m with wait := some .mwait }) 0).wait = some .mwait := by
  refine ⟨by rfl, by rfl, ⟨_, _, _, by rfl, ?_, by decide +kernel, by unfold PlainAt; decide +kernel⟩, ⟨_, _, _, by rfl, ?_, by rfl⟩,
    ⟨_, _, _, by rfl, [_, _, _, _], _, [], rfl, ?_, ?_⟩, ⟨_, _, _, by rfl, [], _, [], rfl, by rfl, fun q h => nomatch h⟩, by decide +kernel, by decide +kernel,
    ⟨by decide +kernel, by rfl, fun f h => nomatch h⟩, by rfl, by unfold PlainAt; decide +kernel, ?_, .inl (by decide +kernel),
    ?_, .inr (.inr ⟨_, .head _, rfl, by rfl, _, .head _, 0, by decide, by decide⟩), ?_, .inr (.inr ⟨_, .head _, rfl, by decide⟩), by decide +kernel,
    by unfold LegalMap; decide +kernel, by unfold LegalMap; decide +kernel, by simp only [LegalImage, LegalMap]; decide +kernel, by simp only [LegalImage, LegalMap]; decide +kernel,
    by decide +kernel, by decide +kernel, by unfold PlainAt; decide +kernel, by decide +kernel, by rfl⟩
  · intro q hq
    rcases List.mem_singleton.1 hq with rfl
    exact (by decide : ¬(2 : BitVec 2) = 0)
  · intro q hq
    simp only [List.mem_cons, List.not_mem_nil, or_false] at hq
    rcases hq with rfl | rfl | rfl | rfl | rfl
    all_goals first | exact (by decide : ¬(2 : BitVec 2) = 0) | (dsimp only; decide +kernel) | (simp only [PastEnd]; decide +kernel)
  · simp only [PastEnd]; decide +kernel
  · intro q hq
    simp only [List.mem_cons, List.not_mem_nil, or_false] at hq
    rcases hq with rfl | rfl | rfl | rfl
    all_goals first | exact (by decide : ¬(2 : BitVec 2) = 0) | (dsimp only; decide +kernel)
  · rintro (h | h)
    all_goals exact h rfl
  · rintro k ((⟨c, h, -⟩ | ⟨e, h, -⟩) | ⟨c, h, -⟩ | ⟨e, h, -⟩) <;> cases h
  · rintro (⟨c, h, -⟩ | ⟨f, h, -⟩ | ⟨e, h, -⟩) <;> cases h

/-- What a full-length vector instruction of 32-bit elements has captured. -/
def full : Captured := { vl := 2048, lanes := 16, regs := 1, ew := 2, nbv := 3 }
/-- A flight of one instruction that drains now, cut at an element. -/
def flightOf (a : VAct) (pins : List Pin) (limit : Nat := 8192) : Flight :=
  { convoy := { convoy0 with members := [⟨a, 0, full⟩], pins := pins, mem := a.isMem, limit := limit }
    issued := 0, lsStart := 0, lsBeats := 1, drains := 9, todo := none, dest := none }
/-- Hart 0 at the cycle in which such a flight drains, with x1 at memory. -/
def drainHart : Hart := withX [(1, 0x3000)] (inMode .monitor)
/-- The machine at that cycle. -/
def draining (a : VAct) (pins : List Pin) (limit : Nat := 8192) : State :=
  { st { drainHart with flight := some (flightOf a pins limit) } with time := 9 }
/-- Nothing holds what is due in hart 0 where it is the only hart. -/
theorem unheld_of {s : State} {h : Hart} (e : s.harts = [(0, h)]) (x : h.badV = 0) (b : (Machine.core s (coreOf 0)).badBeat = false)
    (c : (Machine.core s (coreOf 0)).trace.ctl.getLsbD 63 = false) (w : ∀ d v, h.wait ≠ some (.localsplit d v)) : Unheld s 0 := by
  refine ⟨by rw [hart_of e]; exact x, b, c, fun k d v => ?_⟩
  rw [hart_of e]
  split
  · exact w d v
  · exact fun h => nomatch h
/-- Such a flight meets the premise of the statements about draining. -/
theorem inFlight_of {a : VAct} {i : Instr} (pins : List Pin) (n : Nat) (w : i.wf = true) (m : memberOf drainHart i = some (⟨false, 0⟩, a)) :
    InFlight (draining a pins n) 0 i drainHart full (flightOf a pins n) :=
  ⟨by rfl, by rfl, by rfl, by rfl, Nat.le_refl 9, w, unheld_of rfl rfl rfl (by decide : BitVec.getLsbD ({} : Core).trace.ctl 63 = false) (fun d v h => nomatch h), fun e h => (nomatch h),
    by decide, by decide, by decide, fun _ => by decide, fun _ => by decide, _, _, m, by rfl⟩
/-- So do all that a list names, each with the element that cuts it. -/
theorem inFlight_all {l : List (Nat × VAct × Instr)} (pins : List Pin)
    (h : ∀ p ∈ l, p.2.2.wf = true ∧ memberOf drainHart p.2.2 = some (⟨false, 0⟩, p.2.1)) :
    ∀ p ∈ l, InFlight (draining p.2.1 pins p.1) 0 p.2.2 drainHart full (flightOf p.2.1 pins p.1) :=
  fun p hp => inFlight_of pins p.1 (h p hp).1 (h p hp).2
/-- A page pinned to itself. -/
def pin (n : Nat) : Pin := ⟨n, n, false, 12, none, false⟩
/-- The pages from the fourth on, pinned. -/
def pinned (n : Nat) : List Pin := (List.range n).map fun k => pin (3 + k)
theorem pinnedAt_of {pins : List Pin} {va : Word} {n : Nat}
    (h : ∀ g, g < (va.toNat + n) / 4096 + 1 → va.toNat / 4096 ≤ g → pins.find? (fun q => q.vpage == g) = some ⟨g, g, false, 12, none, false⟩) :
    PinnedAt pins va n := by
  intro j hj
  exact h _ (by omega) (by omega)

/-- Full-length integer, compare, mask and scalar members in flight, a convoy that issues, and the events. -/
theorem witness_VectorDrains :
    let c : Captured := full
    let hd : VHdr := ⟨false, 0⟩
    let y := drainHart
    let inFlight (a : VAct) (pins : List Pin) (i : Instr) := InFlight (draining a pins) 0 i y c (flightOf a pins)
    let red : VAct := .red .sum 4 5 .w 0
    let d : ScalarDest := { isF := true, reg := 31, value := some 7, at_ := 9, redo := false, folds := false }
    inFlight (.int .add 31 5 (.vreg 6) .w) [] (.vadd hd 31 5 (.reg 6) .w) ∧ 32 * c.vl ≤ 65536 ∧ (flightOf red []).convoy.limit = 8192 ∧
    (∃ g, elementWrites y y c (.vadd hd 31 5 (.reg 6) .w) = some (31, 32, g)) ∧
    inFlight (.cmp 7 5 (.vreg 6) .w .lt) [] (.vcmp hd 7 5 (.reg 6) .w .lt) ∧ (∃ g, bitWrites y y c (.vcmp hd 7 5 (.reg 6) .w .lt) = some (7, g)) ∧
    inFlight (.fcvt 5 6 .sf .bf) [] (.vfcvt hd 5 6 .sf .bf) ∧ (∃ w g, elementWrites y y c (.vfcvt hd 5 6 .sf .bf) = some (5, w, g) ∧ w * c.vl ≤ 65536) ∧
    inFlight red [] (.vredsum hd 4 5 .w) ∧ (∃ v, ScalarResult y y c (.vredsum hd 4 5 .w) v 0) ∧ isVectorFloat (.vredsum hd 4 5 .w) = false ∧
    (let q : Convoy := { convoy0 with members := [⟨red, 0, c⟩], seq := 4 }
     let t (o : Option Convoy) (n : Nat) : State := { st { y with vq := [q], heldConvoy := o, lastDrain := n } with time := 9 }
     (hart (t none 8) 0).vq.head? = some q ∧ (hart (t none 8) 0).flight = none ∧ (hart (t none 8) 0).lastDrain < (t none 8).time ∧
      (∀ o, (hart (t (some { q with seq := 5 }) 8) 0).heldConvoy = some o → q.seq ≤ o.seq) ∧
      ¬(∀ o, (hart (t (some { q with seq := 3 }) 8) 0).heldConvoy = some o → q.seq ≤ o.seq) ∧
      ¬(hart (t none 9) 0).lastDrain < (t none 9).time ∧
      (hart (t none 8) 0).mq = [] ∧ q.reprobe = none ∧ q.start = 0 ∧ q.begun = none ∧ red.isMem = false ∧ red.scalarDest = some (false, 4) ∧
      memberOf y (.vredsum hd 4 5 .w) = some (hd, red) ∧ c.vl ≤ 8192) ∧
    ((hart (st { y with sdest := some d, wait := some .dest }) 0).sdest = some d ∧ d.at_ ≤ 9 ∧ ¬d.at_ ≤ 8) ∧
    (let a : VAct := .setwm 0x3000 5 .core
     (flightOf a [pin 3]).drains ≤ (draining a [pin 3]).time ∧ PlainAt { draining a [pin 3] with cur := 0 } 0x3000 8 ∧ PinnedAt [pin 3] 0x3000 8 ∧
      Unheld (draining a [pin 3]) 0) := by
  refine ⟨inFlight_of _ _ (by decide) (by rfl), by decide, by rfl, ⟨_, by rfl⟩, inFlight_of _ _ (by decide) (by rfl), ⟨_, by rfl⟩,
    inFlight_of _ _ (by decide) (by rfl), ⟨16, _, by rfl, by decide⟩, inFlight_of _ _ (by decide) (by rfl), ⟨_, by rfl, by rfl⟩, by rfl, ?_,
    ⟨by rfl, by decide⟩, Nat.le_refl 9, by unfold PlainAt; decide +kernel, by unfold PinnedAt; decide +kernel, unheld_of rfl rfl rfl (by rfl) (fun d v h => nomatch h)⟩
  refine ⟨by rfl, by rfl, by decide, fun o h => ?_, fun h => ?_, by decide, by rfl, by rfl, by rfl, by rfl, by rfl, by rfl, by rfl, by decide⟩
  · cases h; decide
  · exact absurd (h _ rfl) (by decide)

/-- A floating-point reduction under every numeric version it may have captured, a scan, a quantisation and planes. -/
theorem witness_VectorResults :
    let hd : VHdr := ⟨false, 0⟩
    (∀ p ∈ [(8192, VAct.fred .sum 4 5 .bf .sf 0, Instr.vfredsum hd 4 5 .bf .sf), (8192, .fred .max 4 5 .sf .sf 0, .vfredmax hd 4 5 .sf .sf),
      (8192, .scan 5 6 4 .w .w 0, .vscan hd 5 6 4 .w .b), (8192, .scan 5 6 4 .bf .sf 0, .vscan hd 5 6 4 .bf .sf),
      (8192, .quant 5 6 7 .sf .mx4, .vbq hd 5 6 7 .sf .mx4), (8192, .toPlanes 0 31 .w 16, .vbpcvtToplanes false 0 31 .w 15)],
      InFlight (draining p.2.1 [] p.1) 0 p.2.2 drainHart full (flightOf p.2.1 [] p.1)) ∧
    elemBits .sf * full.vl ≤ 65536 ∧ full.vl ≠ 0 ∧ (flightOf (.toPlanes 0 31 .w 16) []).convoy.limit = 8192 :=
  ⟨inFlight_all _ (by decide +kernel), by decide, by decide, rfl⟩

/-- Every kind of vector access over plain pinned pages: whole-length, one cut at its sixth element, two that step by
zero, 4-bit elements, the widest planes, and images. -/
theorem witness_VectorMemory :
    let hd : VHdr := ⟨false, 0⟩
    let y := drainHart
    let plain (a : VAct) (va : Word) (n : Nat) : Prop := PlainAt { draining a (pinned 19) with cur := 0 } va n ∧ PinnedAt (pinned 19) va n
    let ld : VAct := .load 31 .w (.unit 0x3000)
    (∀ p ∈ [(8192, ld, Instr.vld hd 31 1 .w), (5, .loadFF 31 .w (.unit 0x3000), .vldff hd 31 1 .w), (8192, .load 31 .i4 (.unit 0x3000), .vld hd 31 1 .i4),
      (8192, .store 31 .i4 (.unit 0x3000), .vst hd 31 1 .i4), (8192, .load 31 .w (.strided 0x3000 0), .vlds hd 31 1 (.reg 0) .w),
      (8192, .store 31 .w (.strided 0x3000 0), .vsts hd 31 1 (.imm 0) .w), (8192, .load 31 .w (.indexed 0x3000 4 .d), .vldx hd 31 1 4 .w .d),
      (8192, .store 31 .w (.indexed 0x3000 4 .d), .vstx hd 31 1 4 .w .d), (8192, .store 31 .w (.unit 0x3000), .vst hd 31 1 .w),
      (8192, .planeLoad 16 0x3000 16, .vbpld false 16 1 15), (8192, .planeStore 16 0x3000 16, .vbpst false 16 1 15), (8192, .save 0x3000, .vsave 1),
      (8192, .restore 0x3000, .vrest 1)],
      InFlight (draining p.2.1 (pinned 19) p.1) 0 p.2.2 y full (flightOf p.2.1 (pinned 19) p.1)) ∧
    (∀ e, e < 2048 → plain ld (0x3000 + BitVec.ofNat 64 (e * 4)) 4 ∧ plain ld (0x3000 + BitVec.ofNat 64 (e / 2)) 1) ∧ plain ld 0x3000 4 ∧
    (∀ e : Nat, getX y 1 + BitVec.ofNat 64 e * getX y 0 = 0x3000) ∧ (∀ e, e < 1024 → getX y 1 + BitVec.ofNat 64 (elementAt y 4 64 e) = 0x3000) ∧
    (full.vstart ≤ 2047 ∧ 2047 < full.vl ∧ selects y 0 2047 = true) ∧ 32 * full.vl ≤ 65536 ∧ ld.isMem = true ∧
    plain ld 0x3000 (16 * (full.lanes * 32768 / 16) / 8) ∧ plain ld 0x3000 (64 + full.lanes * 4096 + 7168) ∧ (draining ld []).tasks = [] := by
  have plain : ∀ (va : Word) (n : Nat), va.toNat + n ≤ 0xEE6B280000 →
      PlainAt { draining (.load 31 .w (.unit 0x3000)) (pinned 19) with cur := 0 } va n :=
    fun va n h => ⟨by rfl, by rfl, by rfl, by rfl, by rfl, by rfl, by rfl, h, by decide +kernel⟩
  have pages : ∀ g, g < 22 → 3 ≤ g → (pinned 19).find? (fun q => q.vpage == g) = some ⟨g, g, false, 12, none, false⟩ := by decide +kernel
  have both : ∀ (va : Word) (n : Nat), 0x3000 ≤ va.toNat → va.toNat + n < 22 * 4096 →
      PlainAt { draining (.load 31 .w (.unit 0x3000)) (pinned 19) with cur := 0 } va n ∧ PinnedAt (pinned 19) va n :=
    fun va n l u => ⟨plain va n (by omega), pinnedAt_of fun g h k => pages g (by omega) (by omega)⟩
  have at_ : ∀ k, k < 8192 → (0x3000 + BitVec.ofNat 64 k : Word).toNat = 0x3000 + k := fun k h => by
    rw [BitVec.toNat_add, BitVec.toNat_ofNat]
    have : BitVec.toNat (0x3000 : Word) = 0x3000 := rfl
    omega
  refine ⟨inFlight_all _ (by decide +kernel), fun e he => ⟨both _ _ ?_ ?_, both _ _ ?_ ?_⟩, both _ _ (by decide) (by decide), fun e => ?_, fun e he => ?_,
    ⟨by decide, by decide, by decide +kernel⟩, by decide, by rfl, both _ _ (by decide) (by decide), both _ _ (by decide) (by decide), by rfl⟩
  all_goals first | (rw [at_ _ (by omega)]; omega) | skip
  · show (0x3000 + BitVec.ofNat 64 e * 0 : Word) = 0x3000
    simp
  · revert e; decide +kernel

/-- The machine with a lone entry in the matrix queue of hart 0, of the largest shape, at the end of its time or before. -/
def engineAt (a : MAct) (ends : Option Nat) (pins : List Pin) (h : Hart) (c : Core) : State :=
  { stC { h with mq := [{ entry0 with act := a, cap := { kb := 128, n := 32, m := 32, vl := 2048, nbv := 3 }, ends := ends, pins := pins
                                      mem := a.isMem }] } c with time := 9 }
/-- Such an entry meets the premise of the statements about taking effect. -/
theorem lastCycle_of (a : MAct) (pins : List Pin) : LastCycle (engineAt a (some 8) pins (inMode .monitor) {}) 0
    { entry0 with act := a, cap := { kb := 128, n := 32, m := 32, vl := 2048, nbv := 3 }, ends := some 8, pins := pins, mem := a.isMem } :=
  ⟨by rfl, unheld_of rfl rfl rfl (by decide : BitVec.getLsbD ({} : Core).trace.ctl 63 = false) (fun d v h => nomatch h), by rfl, by rfl, by rfl, by rfl,
    ⟨8, by rfl, (by decide : 8 < 9)⟩, by rfl,
    fun k h => (nomatch h), Nat.le_refl 128, Nat.le_refl 32, Nat.le_refl 32, Nat.le_refl 2048, by decide⟩

/-- Entries at the bounds of the largest shape in their last cycle, a gang that receives an MCAST, an entry that starts and
one that waits, and deliveries: the sender's last and one before it, of a tile and of rows, and one that waits. -/
theorem witness_MatrixExecutes :
    let m := inMode .monitor
    let last (a : MAct) := LastCycle (engineAt a (some 8) [] m {}) 0
      { entry0 with act := a, cap := { kb := 128, n := 32, m := 32, vl := 2048, nbv := 3 }, ends := some 8, pins := [], mem := a.isMem }
    let g := gangOf 2 [(0, 0), (1, 4)]
    let k (a : MAct) : State :=
      { engineAt a (some 8) [] { m with gang := { valid := true, gang := 3, size := 1, member := 0 } } {} with islands := [(0, { gangs := [(3, g)] })] }
    let z := engineAt (.zero 7) none [] m
    (∀ a ∈ [MAct.zero 7, .mma 7 3 4092 .b, .mma 7 3 4092 .mx4, .tmap 3 0, .toTile 7 31 31 0, .toVector 31 7 31 0, .castTile 5 3, .castRows 5 4092], last a) ∧
    4092 + (128 + 31) / 32 = 4096 ∧ (31 < 2048 ∧ selects m 0 31 = true ∧ 31 + 31 / 32 < 32) ∧
    (hart (k (.castTile 5 3)) 0).gang.valid = true ∧ tabGet (island (k (.castTile 5 3)) 0).gangs ((hart (k (.castTile 5 3)) 0).gang.gang.toNat % 256) = some g ∧
    g.harts.Nodup ∧ (∀ p ∈ g.harts, ∀ q ∈ g.harts, coreOf p.2 = coreOf q.2 → p = q) ∧ (∃ p ∈ g.harts, p.1 < 64 ∧ p.2 ≠ 0) ∧
    (∀ p ∈ g.harts, islandOf p.2 = 0 ∧ IsHart p.2 ∧ p.2 < 5120) ∧ (∀ i, ∀ y ∈ (Machine.core (k (.castTile 5 3)) i).deliveries, y.sender ≠ 0) ∧
    ((hart (z {}) 0).vq = [] ∧ (hart (z {}) 0).flight = none ∧ (hart (z {}) 0).heldConvoy = none ∧ (hart (z {}) 0).castMask = none) ∧
    (z { arrayFree := 10 }).time < freeAt { arrayFree := 10 } .array ∧ freeAt {} .array ≤ (z {}).time ∧
    (∀ c t, (c, t) ∈ ({} : Core).tileReady → t ≤ 9) ∧ (Machine.core (z {}) 0).trace.ctl.getLsbD 63 = false ∧
    (let tile : Delivery := ⟨0, 4, 1, some (3, 5, 6), [], []⟩
     let rows : Delivery := ⟨0, 4, 1, none, [(0, 7), (0x20001, 8)], [(2, 9)]⟩
     let t (l : List Delivery) (e : List MEntry) (ms : BitVec 2) : State :=
       { st m with harts := [(0, { m with castMask := some (5, 1) }), (4, { m with mq := e, ms := ms })], cores := [(1, { deliveries := l })] }
     (∀ l, (Machine.core (t l [] 2) 1).deliveries = l) ∧ coreOf tile.target = 1 ∧ tile.sender ≠ tile.target ∧ tile.member < 64 ∧
      (∃ e ∈ (hart (t [tile] [{ entry0 with ends := some 8 }] 2) 4).mq, e.ends ≠ none) ∧ (∀ e ∈ (hart (t [tile] [entry0] 2) 4).mq, e.ends = none) ∧
      (hart (t [tile] [] 2) 0).castMask = some (5, 1) ∧ islandOf tile.sender = 1 / 64 ∧
      (hart (t [tile] [] 0) 4).ms = 0 ∧ (hart (t [rows] [] 2) 4).ms ≠ 0 ∧
      (∀ i, i ≠ 1 → ∀ y ∈ (Machine.core (t [tile] [] 2) i).deliveries, y.sender ≠ 0) ∧ (∃ y ∈ [rows], y.sender = tile.sender) ∧
      ((t [rows] [] 2).poison = [] ∧ (t [rows] [] 2).lostLines = [] ∧ (Machine.core (t [rows] [] 2) 1).badSides = [] ∧
        Memory.wf (t [rows] [] 2).mem = true ∧ Memory.wf (Machine.core (t [rows] [] 2) 1).bsc = true) ∧
      (∀ c ∈ rows.cells, ∀ c' ∈ rows.cells, c.1 = c'.1 → c.2 = c'.2) ∧ ∀ c ∈ rows.sides, ∀ c' ∈ rows.sides, c.1 = c'.1 → c.2 = c'.2) := by
  have none_ : ∀ (s : State) (c i : Nat) (v : Core), s.cores = [(c, v)] → i ≠ c → Machine.core s i = {} := by
    intro s c i v h hi
    simp [Machine.core, h, tabGet, Ne.symm hi]
  refine ⟨fun a _ => lastCycle_of a _, by decide, by decide, by rfl, by rfl, by decide, by decide, ⟨(1, 4), by simp [gangOf], by decide, by decide⟩, by simp only [IsHart]; decide +kernel, ?_,
    ⟨by rfl, by rfl, by rfl, by rfl⟩, by decide, by decide, fun c t h => (nomatch h), by rfl, ?_⟩
  · intro i y hy
    by_cases hi : i = 0
    · subst hi; cases hy
    · rw [none_ _ 0 i _ rfl hi] at hy; cases hy
  · refine ⟨fun l => by rfl, by rfl, by decide, by decide, ⟨_, .head _, by decide⟩, by decide, by rfl, by rfl, by rfl, by decide, ?_,
      ⟨_, .head _, by rfl⟩, ⟨by rfl, by rfl, by rfl, by rfl, by rfl⟩, by decide, by decide⟩
    intro i hi y hy
    rw [none_ _ 1 i _ rfl hi] at hy; cases hy

/-- Every kind of matrix access over plain pinned pages in its last cycle: the largest shape, rows that coincide, a window
of one pixel, and images. -/
theorem witness_MatrixMemory :
    let m := inMode .monitor
    let map : BitVec 512 := 0x100000000000000010000000000010001000000010101010101010001000100010000000000003000
    let last (a : MAct) := LastCycle (engineAt a (some 8) (pinned 14) m {}) 0
      { entry0 with act := a, cap := { kb := 128, n := 32, m := 32, vl := 2048, nbv := 3 }, ends := some 8, pins := pinned 14, mem := a.isMem }
    let plain (va : Word) (n : Nat) : Prop := PlainAt { engineAt (.zero 7) (some 8) (pinned 14) m {} with cur := 0 } va n ∧ PinnedAt (pinned 14) va n
    (∀ a ∈ [MAct.lda 3 0x3000 0x80 32, .ldaFF 3 0x3000 0x80 1, .ldw 3 0 0 0, .ldaScale 3 0x3000 0x80 .mx4, .ldb 4092 0x3000 0x80,
      .ldbScale 4092 0x3000 0x80 .mx8e4, .stc 7 0x3000 0x80 .w, .stc 7 0x3000 0 .bf, .save 0x3000, .restore 0x3000 []], last a) ∧ (∀ i, i < 32 → plain (0x3000 + BitVec.ofNat 64 i * 0x80) 128) ∧ plain 0x3000 128 ∧
    4092 + (128 + 31) / 32 = 4096 ∧ PlainAt { engineAt (.zero 7) (some 8) (pinned 14) m {} with cur := 0 } 0 0 ∧ plain 0x3000 50496 ∧
    plain (0x3000 + 64) 50176 ∧ (∀ i, i < 32 → ∀ o, o < 128 → windowAt map 0 0 i o = if i = 0 ∧ o = 0 then some 0x3000 else none) := by
  have pages : ∀ g, g < 17 → 3 ≤ g → (pinned 14).find? (fun q => q.vpage == g) = some ⟨g, g, false, 12, none, false⟩ := by decide +kernel
  have both : ∀ (va : Word) (n : Nat), 0x3000 ≤ va.toNat → va.toNat + n < 17 * 4096 →
      PlainAt { engineAt (.zero 7) (some 8) (pinned 14) (inMode .monitor) {} with cur := 0 } va n ∧ PinnedAt (pinned 14) va n :=
    fun va n l u => ⟨⟨by rfl, by rfl, by rfl, by rfl, by rfl, by rfl, by rfl, by omega, by decide +kernel⟩,
      pinnedAt_of fun g h k => pages g (by omega) (by omega)⟩
  refine ⟨fun a _ => lastCycle_of a _, fun i hi => both _ _ ?_ ?_, both _ _ (by decide) (by decide), by decide,
    by unfold PlainAt; decide +kernel, both _ _ (by decide) (by decide), both _ _ (by decide) (by decide), by decide +kernel⟩
  · revert i; decide
  · revert i; decide

/-! ### The further clauses of statements with more premises than one state can meet -/

/-- An early TABORT of the acting hart's task, at the start of a cycle. -/
theorem witness_EarlyAbort :
    let s : State := withNum 0x1000 4 (leadWord .tabort).toNat { st { inMode .user with task := some 5 } with
      tasks := [{ task0 with st := .irrev }], scan := 0 }
    s.inputs = [] ∧ s.clockStopped = false ∧ abortNext s = some (0, 0) ∧ (hart s 0).boundaryTrap = none ∧
    (match fetchInstr (earlySlot 0 0 s) 0 (hart s 0).pc with
      | .ok (s1, ws) => decodeWords ws == .ok .tabort && (match pcTriggers [(hart s 0).pc] s1 with
          | .go s2 => !castHolds (me s2) .tabort && (me s2).badX == 0 && (me s2).badF == 0
          | _ => false)
      | .error _ => false) = true := by decide +kernel

/-- SETSR and SWAPSR of every register that the statements on writes name, and a held convoy that a write of STATUS drops. -/
theorem witness_WritesSr :
    let s (v : Word) (h : Hart) := st (withX [(1, v)] h)
    let m := inMode .monitor
    (∀ n ∈ [(0x400 : BitVec 12), 0x008, 0x009, 0x409, 0x40A, 0x800, 0x804, 0x806, 0x802, 0x803, 0x805, 0x801],
      WritesSr (s 7 m) (.setsr 1 n) n 1 0 0 ∧ ∃ old : Word, WritesSr (s 7 m) (.swapsr 5 1 n) n 1 5 old) ∧
    (let x := s 0 { m with late := true, heldConvoy := some convoy0 }
     (me x).late = true ∧ (rx x 1).toNat.testBit 10 = false ∧ (me x).heldConvoy ≠ none ∧ fieldOf (rx x 1) 4 2 = 0 ∧
      WritesSr x (.swapsr 5 1 0x400) 0x400 1 5 (BitVec.ofNat 64 ((srValue x 0x400).getD 0))) := by
  have rd : ∀ n ∈ [(0x400 : BitVec 12), 0x008, 0x009, 0x409, 0x40A, 0x800, 0x804, 0x806, 0x802, 0x803, 0x805, 0x801],
      (srValue (st (withX [(1, 7)] (inMode .monitor))) n.toNat = some
        (BitVec.ofNat 64 ((srValue (st (withX [(1, 7)] (inMode .monitor))) n.toNat).getD 0)).toNat) ∧
      readsAfterQueues (st (withX [(1, 7)] (inMode .monitor))) n.toNat := by
    unfold readsAfterQueues; decide +kernel
  refine ⟨fun n h => ⟨.inl ⟨rfl, rfl⟩, _, .inr ⟨rfl, rd n h⟩⟩, by rfl, by decide +kernel, by decide +kernel, by decide +kernel,
    .inr ⟨rfl, by decide +kernel, by unfold readsAfterQueues; decide +kernel⟩⟩

/-- An interrupt in monitor mode, and in a hart whose task is held. -/
theorem witness_InterruptPlaces :
    let x : Hart := { inMode .monitor with ie := true, ipend := 8, imask := 0xFFFE, timecmp := BitVec.allOnes 64 }
    let held : TaskEntry := { task0 with st := .held }
    let t : State := { st { x with mode := .user, task := some 5 } with tasks := [held] }
    (x.started = true ∧ x.preempted = false ∧ x.freeze = {} ∧ x.ie = true ∧ x.wait ≠ some .dest ∧ x.preemptReq = false) ∧
    (x.ipend.toNat.testBit 3 = true ∧ x.imask.toNat.testBit 3 = true) ∧ (∀ j, 1 ≤ j → j < 3 → x.ipend.toNat.testBit j = false) ∧
    (0 : Nat) % 2 ^ 64 < x.timecmp.toNat ∧ (st x).time + (island (st x) 0).timeAhead.toNat = 0 ∧
    taskAt (st x) 0 = none ∧ taskAt t 0 = some held ∧ held.st ≠ .running ∧ held.st ≠ .irrev ∧ (hart t 0).aside = none := by
  refine ⟨by decide, by decide, fun j h1 h2 => ?_, by decide, by rfl, by rfl, by rfl, by decide, by decide, by rfl⟩
  rcases (by omega : j = 1 ∨ j = 2) with rfl | rfl <;> decide

/-- Releases of an engine, with a violating command and without, and of a partition; a FREEZE of KIND 0 with OP 0. -/
theorem witness_FreezeReleases :
    let k : StreamCmd := { op := 1, mbx := false, cnt1 := 0, cnt2 := 0, len := 8, src := 0, dst := 0, mbxa := 0, sstr1 := 0, dstr1 := 0
                           sstr2 := 0, dstr2 := 0, descAddr := 0, ptbase := 0, mode := .monitor, hart := 0, promise := 9, irrev := false }
    let r : StreamRun := { cmd := k, result := .violation 0x5000, words := 2, ends := 9 }
    let s (e : Engine) : State := stC (withX [(1, 0), (2, 0xC4000003)] (inMode .monitor)) { engine := e }
    (fieldOf 0x82000000 24 3 = 2 ∧ fieldOf 0x82000000 0 13 < 1280) ∧ partOfIsland (s {}) (islandOfCore 0) = some 0 ∧ ¬Resetting (s {}) 0 ∧
    (Machine.core (s {}) 0).engine.violating = none ∧ (Machine.core (s { violating := some r }) 0).engine.violating = some r ∧
    r.result = .violation 0x5000 ∧ r.cmd.mbx = false ∧ (∀ w ∈ (s {}).pendingWrites, w.agent ≠ .engine 0) ∧
    (fieldOf 0x84000003 24 3 = 4 ∧ fieldOf 0x84000003 0 13 < 4) ∧ (∀ h, (hart (s {}) h).freeze.violation = none) ∧
    (∀ c, (Machine.core (s {}) c).engine.violating = none) ∧ fieldOf (rx (s {}) 1) 24 3 = 0 ∧ fieldOf (rx (s {}) 1) 30 2 = 0 ∧
    fieldOf (rx (s {}) 2) 24 3 = 4 ∧ fieldOf (rx (s {}) 2) 30 2 = 3 ∧ (me (s {})).mode = .monitor ∧ (me (s {})).task = none := by
  refine ⟨by decide, by rfl, by unfold Resetting; decide +kernel, by rfl, by rfl, rfl, rfl, fun w h => (nomatch h), by decide, fun h => ?_, fun c => ?_,
    by decide +kernel, by decide +kernel, by decide +kernel, by decide +kernel, by rfl, by rfl⟩
  · rw [hart_of (by rfl)]
    split <;> rfl
  · by_cases e : c = 0
    · subst e; rfl
    · have : (0 : Nat) ≠ c := fun h => e h.symm
      simp [Machine.core, stC, tabGet, this]

/-- An error ring on granted memory and one past the grant, a full one, and a placement block past the grant. -/
theorem witness_Rings :
    let p : Part := { hbmBase := 0x100000, hbmSize := 0x100000, errBase := 0x100000, errSize := 64 }
    let far : Part := { p with errBase := 0x200000 }
    let s (p : Part) := stP (inMode .user) p
    (answers (s p) (p.errBase.toNat + 32 * (p.errHead.toNat % p.errSize.toNat)) = true ∧
      granted (s p) 0 (p.errBase.toNat + 32 * (p.errHead.toNat % p.errSize.toNat)) = true ∧ p.errHead - p.errTail ≠ p.errSize) ∧
    (answers (s far) 0x200000 = true ∧ granted (s far) 0 0x200000 = false) ∧ ({ p with errHead := 64 } : Part).errHead - p.errTail = p.errSize ∧
    (∀ v, partOfIsland (s p) 0 = some v → granted (s p) v 0x300000 = false) ∧ answers (s p) 0x300000 = true ∧
    readQcb (s p) 0 0x300000 = none ∧ p.trafficFrozen = false ∧
    ¬(∀ i, i < 8 → p.hbmBase.toNat ≤ 0x1FFFFC + i ∧ 0x1FFFFC + i < p.hbmBase.toNat + p.hbmSize.toNat) ∧
    ¬(0x30000000000 ≤ 0x1FFFFC ∧ (0x1FFFFC : Nat) < 0x40000000000) := by
  refine ⟨by decide +kernel, by decide +kernel, by decide +kernel, fun v h => ?_, by decide +kernel, by decide +kernel, by rfl, ?_, by decide⟩
  · cases (show some 0 = some v from h)
    decide +kernel
  · intro h
    exact absurd (h 4 (by decide)).2 (by decide)

/-- A scrub of a partition with no active domain, and its queues step with nothing mapped and no gang. -/
theorem witness_ScrubFrame :
    let s (f : FlrStep) : State := stP (inMode .user) { flr := f, errBase := 0x5000, errSize := 64 }
    Memory.wf (s .scrub).mem = true ∧ (s .scrub).pendingWrites = [] ∧ (∀ d, d < 16 → (domain (s .scrub) 0 d).active = false) ∧
    (part (s .scrub) 0).flr = .scrub ∧ (∀ n, (island (s .scrub) n).freezeBit = false) ∧ (part (s .queues) 0).flr = .queues ∧
    (∀ n, (island (s .queues) n).gangs = [] ∧ ∀ p ∈ (island (s .queues) n).slots, p.2.mapped = false) ∧
    (∃ n, n < 20 ∧ partOfIsland (s .scrub) n = some 0) ∧ (0x5000 : Word).toNat + 32 * (64 : Word32).toNat ≤ 0x6000 := by
  refine ⟨by rfl, by rfl, fun d _ => by rfl, by rfl, fun n => by rfl, by rfl, fun n => ⟨by rfl, fun p h => (nomatch h)⟩, ⟨0, by decide, by rfl⟩, by decide⟩

/-- A unit whose entries are all in use, over a spill region that takes none; and accesses behind a FENCE.VV. -/
theorem witness_WaitsForRoom :
    let many : List TaskEntry := (List.range 8192).map fun u => { task0 with uid := u + 6, dom := 1, st := .ready, hart := none }
    let s : State := { stP { inMode .user with task := some 5 } { domains := [(0, { active := true, qcap := 0 })] } with
      tasks := task0 :: many }
    NoRoom s 0 0 0 ∧ taskAt s s.cur = some task0 ∧ ¬Earliest s task0 ∧
    FencedOff { inMode .monitor with vq := [{ convoy0 with mem := true, seq := 3 }], vvFence := 4 } ∧
    FencedOff { inMode .monitor with mq := [{ entry0 with mem := true, seq := 3 }], vvFence := 4 } ∧
    ¬FencedOff { inMode .monitor with mq := [{ entry0 with mem := true, seq := 3 }], vvFence := 3 } := by
  refine ⟨⟨?_, .inr ?_⟩, by rfl, fun h => ?_, .inl ⟨_, .head _, rfl, by decide⟩, .inr (.inr ⟨_, .head _, rfl, by decide⟩), ?_⟩
  · simp [List.filter_map, task0, Function.comp_def]
  · exact Nat.zero_le _
  · cases (show (none : Option Key) = some (.ident 3 1) from h.2)
  · rintro (⟨c, h, -⟩ | ⟨f, h, -⟩ | ⟨e, h, -, h2⟩)
    · cases h
    · cases h
    · cases h with
      | head => exact absurd h2 (by decide)
      | tail _ h => cases h

end Sys2Proof.Tests
end

/-!
SUPPORT. What system registers read, as the layouts of Claim give them, and what a write leaves in the acting hart, for the
registers that are the hart's own (02_state.md R44 to R63; 17_reference_a_to_k.md R355; 18_reference_l_to_s.md R389).
-/
namespace Sys2Proof.Machine
open Sys2Proof.Claim

/-! ### Words with cleared low bits (R54, R57, R58) -/

/-- Clearing the k low bits leaves the greatest multiple of 2ᵏ that is not above the word. -/
theorem and_not_lowMask (v : Word) (k : Nat) :
    v &&& ~~~BitVec.ofNat 64 (2 ^ k - 1) = BitVec.ofNat 64 (v.toNat / 2 ^ k * 2 ^ k) := by
  refine BitVec.eq_of_getLsbD_eq fun i hi => ?_
  rw [BitVec.getLsbD_and, BitVec.getLsbD_not, BitVec.getLsbD_ofNat, BitVec.getLsbD_ofNat, Nat.testBit_mul_two_pow,
    Nat.testBit_two_pow_sub_one, Nat.testBit_div_two_pow]
  by_cases hk : k ≤ i
  · rw [Nat.sub_add_cancel hk]
    simp [hi, hk, BitVec.testBit_toNat]
  · simp [hi, hk, Nat.lt_of_not_le hk]

/-- The lowest bit of a word as a number. -/
theorem and_one_eq (v : Word) : v &&& 1#64 = BitVec.ofNat 64 (v.toNat % 2) := by
  refine BitVec.eq_of_toNat_eq ?_
  rw [BitVec.toNat_and, BitVec.toNat_ofNat, BitVec.toNat_ofNat]
  simp only [Nat.reducePow, Nat.reduceMod, Nat.and_one_is_mod]
  omega

/-- What clears the two low bits of an address of code (R54). -/
theorem alignedWord_eq (v : Word) : v &&& ~~~3#64 = BitVec.ofNat 64 (v.toNat / 4 * 4) := and_not_lowMask v 2

/-- TVEC keeps its base and MODE 1, and any other MODE becomes 0 (R57). -/
theorem tvecOf_eq (v : Word) :
    tvecOf v = BitVec.ofNat 64 (v.toNat / 4 * 4 + if v.toNat % 4 = 1 then 1 else 0) := by
  have hmode : v &&& 3 = 1 ↔ v.toNat % 4 = 1 := by
    rw [← BitVec.toNat_inj, BitVec.toNat_and]
    exact iff_of_eq (congrArg (· = 1) (Nat.and_two_pow_sub_one_eq_mod v.toNat 2))
  unfold tvecOf
  by_cases h : v.toNat % 4 = 1
  · rw [if_pos (hmode.2 h), if_pos h]
    refine BitVec.eq_of_toNat_eq ?_
    rw [BitVec.toNat_ofNat]
    omega
  · rw [if_neg (mt hmode.1 h), if_neg h]
    exact alignedWord_eq v

/-- PTBASE keeps the root's page and EN (R58). -/
theorem ptbaseOf_eq (v : Word) : ptbaseOf v = BitVec.ofNat 64 (2 ^ 12 * fieldOf v 12 52 + fieldOf v 0 1) := by
  have hmask : (0xFFFFFFFFFFFFF001 : Word) = ~~~BitVec.ofNat 64 (2 ^ 12 - 1) ||| 1#64 := by decide
  have hdisjoint : (v &&& ~~~BitVec.ofNat 64 (2 ^ 12 - 1)) &&& (v &&& 1#64) = 0#64 := by
    rw [show (v &&& ~~~BitVec.ofNat 64 (2 ^ 12 - 1)) &&& (v &&& 1#64)
      = v &&& v &&& (~~~BitVec.ofNat 64 (2 ^ 12 - 1) &&& 1#64) by ac_rfl]
    simp
  calc ptbaseOf v = (v &&& ~~~BitVec.ofNat 64 (2 ^ 12 - 1)) ||| (v &&& 1#64) := by
        rw [ptbaseOf, hmask, BitVec.and_or_distrib_left]
    _ = (v &&& ~~~BitVec.ofNat 64 (2 ^ 12 - 1)) + (v &&& 1#64) := (BitVec.add_eq_or_of_and_eq_zero _ _ hdisjoint).symm
    _ = BitVec.ofNat 64 (v.toNat / 2 ^ 12 * 2 ^ 12 + v.toNat % 2) := by
        rw [and_not_lowMask, and_one_eq, BitVec.ofNat_add]
    _ = BitVec.ofNat 64 (2 ^ 12 * fieldOf v 12 52 + fieldOf v 0 1) := by
        have hlt : v.toNat / 2 ^ 12 % 2 ^ 52 = v.toNat / 2 ^ 12 := Nat.mod_eq_of_lt (by omega)
        simp only [fieldOf, hlt, Nat.mul_comm (2 ^ 12)]
        simp

/-! ### The layouts of the registers that are read (R46 to R63) -/

theorem ite_eq_mul_flag (b : Bool) (k : Nat) : (if b = true then k else 0) = k * flag b := by cases b <;> simp [flag]

theorem vdeclWord_layout (h : Hart) :
    vdeclWord h = BitVec.ofNat 64 (2 ^ 8 * h.lanes.toNat + 2 ^ 4 * h.regs.toNat + h.ew.toNat) :=
  congrArg w64 (by omega)

theorem fpctlWord_layout (h : Hart) : fpctlWord h = BitVec.ofNat 64 (2 ^ 5 * h.flags.toNat + h.rm.toNat) :=
  congrArg w64 (by omega)

theorem tshapeWord_layout (c : Core) :
    tshapeWord c = BitVec.ofNat 64 (2 ^ 16 * c.kb.toNat + 2 ^ 8 * c.n.toNat + c.m.toNat) :=
  congrArg w64 (by omega)

theorem statusWord_layout (h : Hart) :
    statusWord h = BitVec.ofNat 64 (2 ^ 10 * flag h.late + 2 ^ 9 * flag (h.vs == 2 || h.ms == 2) + 2 ^ 6 * h.ms.toNat
      + 2 ^ 4 * h.vs.toNat + 2 ^ 2 * h.pmode.toNat + 2 * flag h.pie + flag h.ie) := by
  simp only [statusWord, ite_eq_mul_flag]
  exact congrArg w64 (by omega)

theorem causeWord_layout (h : Hart) :
    causeWord h = BitVec.ofNat 64 (2 ^ 8 * h.causeOrig.toNat + h.causeCode.toNat) := congrArg w64 (by omega)

theorem tdomWord_layout (h : Hart) : tdomWord h = BitVec.ofNat 64 (2 ^ 63 * flag h.tmode + h.dom.toNat) := by
  simp only [tdomWord, ite_eq_mul_flag, w64]

theorem gangWord_layout (g : GangCtl) :
    gangWord g = BitVec.ofNat 64 (2 ^ 63 * flag g.valid + 2 ^ 16 * g.gang.toNat + 2 ^ 6 * g.size.toNat + g.member.toNat) := by
  simp only [gangWord, ite_eq_mul_flag]
  exact congrArg w64 (by omega)

theorem hartIdWord_layout (h : Nat) : hartIdWord h = BitVec.ofNat 64 (if h < 5120 then h else 2 ^ 15 + (h - 5120)) := by
  unfold hartIdWord isSteward
  by_cases hs : 5120 ≤ h
  · simp [hs, Nat.not_lt_of_le hs, w64]
  · simp [hs, Nat.lt_of_not_le hs, w64]

theorem freezeWord_layout (s : State) :
    freezeWord s = BitVec.ofNat 64 (2 ^ 24 * s.freezeKind.toNat + 2 ^ 13 * flag (freezeState s) + s.freezeTarget.toNat) := by
  simp only [freezeWord, ite_eq_mul_flag]
  exact congrArg w64 (by omega)

theorem tstatWord_layout (s : State) :
    tstatWord s = BitVec.ofNat 64 (if (me s).ms ≠ 0 then
      2 ^ 16 + 2 ^ 8 * (me s).mq.length + 2 * flag (myCore s).short + flag (!(me s).mq.isEmpty) else 0) := by
  have hbusy : (if (me s).mq.length = 0 then 0 else 1) = flag (!(me s).mq.isEmpty) := by cases (me s).mq <;> rfl
  unfold tstatWord ownsEngine
  by_cases ho : (me s).ms = 0
  · rw [ho]; rfl
  · simp only [bne_iff_ne.2 ho, Bool.not_true, Bool.false_eq_true, if_false, if_pos ho, hbusy, ite_eq_mul_flag]
    exact congrArg w64 (by omega)

/-- CFR and CFRID read the selected domain's frontier, or all ones (R52). -/
theorem frontierWord_eq (s : State) :
    frontierWord s = (BitVec.ofNat 64 (frontierRead s).1, BitVec.ofNat 32 (frontierRead s).2) := by
  unfold frontierWord frontierRead
  cases partOf s s.cur with
  | none => rfl
  | some p =>
    simp only [Option.map_some]
    cases (domain s p (me s).dom.toNat).active with
    | false => rfl
    | true => cases (domain s p (me s).dom.toNat).frontier <;> rfl

/-- CFRID reads what a read of CFR latched, or all ones (R52). -/
theorem cfridWord_eq (s : State) :
    (if selectedActive s then (me s).cfrid.getD (BitVec.allOnes 32) else BitVec.allOnes 32).setWidth 64 =
      BitVec.ofNat 64 (if (partOf s s.cur).any (fun v => (domain s v (me s).dom.toNat).active) = true then
        (me s).cfrid.elim (2 ^ 32 - 1) fun i => i.toNat else 2 ^ 32 - 1) := by
  unfold selectedActive
  split
  · cases (me s).cfrid with
    | none => rfl
    | some i => exact (BitVec.ofNat_toNat 64 i).symm
  · rfl

/-- TSHAPE reads zero in a hart that does not own the engine (R50). -/
theorem tshapeRead_layout (s : State) :
    (if ownsEngine s then tshapeWord (myCore s) else 0) = BitVec.ofNat 64 (if (me s).ms ≠ 0 then
      2 ^ 16 * (myCore s).kb.toNat + 2 ^ 8 * (myCore s).n.toNat + (myCore s).m.toNat else 0) := by
  unfold ownsEngine
  by_cases ho : (me s).ms = 0
  · rw [ho]; rfl
  · rw [if_pos (bne_iff_ne.2 ho), if_pos ho, tshapeWord_layout]

/-- KEYCTL and FWCTL read a page's number above a state (R274). -/
theorem pageState_layout (page : BitVec 40) (st : BitVec 2) :
    w64 (page.toNat * 4096 + st.toNat) = BitVec.ofNat 64 (2 ^ 12 * page.toNat + st.toNat) := congrArg w64 (by omega)

/-- HARTCTL reads its mode and the hart it names (R63). -/
theorem hartctl_layout (s : State) :
    w64 (s.hartctlMode.toNat * 65536 + (if s.hartctlSteward then 32768 else 0) + s.hartctlNum.toNat) =
      BitVec.ofNat 64 (2 ^ 16 * s.hartctlMode.toNat + 2 ^ 15 * flag s.hartctlSteward + s.hartctlNum.toNat) := by
  simp only [ite_eq_mul_flag]
  exact congrArg w64 (by omega)

/-- PARTTAG reads the tag of the hart's island (R266). -/
theorem parttag_layout (s : State) (n : Nat) :
    (if hn : n < 20 then s.tags[n].setWidth 64 else 0) = BitVec.ofNat 64 (if hn : n < 20 then s.tags[n].toNat else 0) := by
  split
  · exact (BitVec.ofNat_toNat 64 _).symm
  · rfl

/-! ### Reads (R355) -/

theorem onlyActing_refl (s : State) : OnlyActing s s := ⟨rfl, fun _ _ => rfl, fun _ => rfl⟩

/-- The state that the read of a system register leaves: CFR latches CFRID, no other read changes anything (R52). -/
def afterRead (s : State) (n : Nat) : State :=
  if n = 0x018 then onMe s fun h => { h with cfrid := some (BitVec.ofNat 32 (frontierRead s).2) } else s

theorem afterRead_onlyActing (s : State) (n : Nat) : OnlyActing s (afterRead s n) := by
  unfold afterRead
  split
  · exact onlyActing_onMe s _
  · exact onlyActing_refl s

theorem me_afterRead (s : State) (n : Nat) : me (afterRead s n) =
    if n = 0x018 then { me s with cfrid := some (BitVec.ofNat 32 (frontierRead s).2) } else me s := by
  unfold afterRead
  split
  · exact me_onMe s _
  · rfl

theorem afterRead_keeps (s : State) (n : Nat) : (me (afterRead s n)).x = (me s).x ∧ (me (afterRead s n)).pc = (me s).pc ∧
    (me (afterRead s n)).instret = (me s).instret := by
  rw [me_afterRead]
  split <;> exact ⟨rfl, rfl, rfl⟩

/-- Every assigned number reads as its layout says. -/
theorem readSr_of_srValue {s : State} {n v : Nat} (h : srValue s n = some v) :
    readSr s n = some (afterRead s n, BitVec.ofNat 64 v) := by
  revert h
  fun_cases srValue s n
  all_goals intro h
  all_goals cases h
  all_goals simp only [readSr, afterRead, reduceIte, Nat.reduceEqDiff, vdeclWord_layout, fpctlWord_layout,
    tshapeRead_layout, tstatWord_layout, frontierWord_eq, tdomWord_layout, cfridWord_eq, statusWord_layout,
    causeWord_layout, hartIdWord_layout, gangWord_layout, parttag_layout, freezeWord_layout, pageState_layout,
    hartctl_layout, BitVec.ofNat_toNat, BitVec.setWidth_eq]
  -- the key of the hart's task, if there is one (0x019, 0x01A), and MONHART, if a number is to come (0x804)
  case case15 => cases taskAt s s.cur <;> rfl
  case case16 => cases taskAt s s.cur <;> rfl
  case case36 => cases s.newMonhart <;> simp only [Option.elim, BitVec.ofNat_toNat]
  all_goals rfl

/-- The registers of the hart's own are assigned numbers. -/
theorem readSr_isSome_of_srWritten (s : State) {n : Nat} {v : Word} {h h' : Hart} (hw : srWritten h n v = some h') :
    (readSr s n).isSome = true := by
  revert hw
  fun_cases srWritten h n v
  all_goals intro hw
  -- every other number
  case case27 => cases hw
  all_goals rfl

/-! ### Checks and waits (R37, R39, R202) -/

/-- A readable number whose mode is not above the hart's passes the check (R37). -/
theorem srCheck_pass {s : State} {n : Nat} (hm : n / 1024 ≤ (me s).mode.code.toNat) (hr : (readSr s n).isSome = true) :
    srCheck s n = none := by
  have hmode : (me s).mode.code.toNat ≤ 2 := by cases (me s).mode <;> decide
  rw [srCheck, if_neg (by omega), if_neg (by omega), if_neg (by simpa using Option.isSome_iff_ne_none.1 hr)]

/-- Empty queues hold up no read (R39). -/
theorem srReadWaits_false {s : State} {n : Nat} (hq : readsAfterQueues s n) : srReadWaits s n = false := by
  by_cases hn : n = 0x004 ∨ n = 0x009
  · obtain ⟨hvq, hflight, hsdest, hmq, hcast⟩ := hq hn
    simp [srReadWaits, vectorQuiet, matrixEmpty, hvq, hflight, hsdest, hmq, hcast]
  · obtain ⟨h4, h9⟩ := not_or.1 hn
    simp [srReadWaits, h4, h9]

theorem srWriteWaits_false {s : State} {n : Nat} (hq : readsAfterQueues s n) : srWriteWaits s n = false := by
  rw [srWriteWaits, srReadWaits_false hq, Bool.and_false]

theorem frontierWaits_false {s : State} {n : Nat} (hf : FrontierSettled s n) : frontierWaits s n = false := by
  by_cases hn : n = 0x018
  · cases hp : partOf s s.cur with
    | none => simp [frontierWaits, hp]
    | some p =>
      simp only [frontierWaits, hp, Option.any_some, hn, beq_self_eq_true, Bool.true_and, Bool.and_eq_false_imp]
      exact hf hn p hp
  · simp [frontierWaits, hn]

/-! ### Writes of the hart's own registers (R389) -/

/-- The write of a register of the hart's own leaves the hart as its layout says, and everything else as it was. -/
theorem writeSr_of_srWritten {s : State} {n : Nat} {v : Word} {h : Hart} (d : Reg)
    (hw : srWritten (me s) n v = some h) : ∃ t, writeSr s n d v = .ok t ∧ OnlyActing s t ∧ me t = h := by
  have put (f : Hart → Hart) (hf : f (me s) = h) : ∃ t, SrWrite.ok (onMe s f) = .ok t ∧ OnlyActing s t ∧ me t = h :=
    ⟨_, rfl, onlyActing_onMe s f, (me_onMe s f).trans hf⟩
  have keep (hk : me s = h) : ∃ t, SrWrite.ok s = .ok t ∧ OnlyActing s t ∧ me t = h := ⟨s, rfl, onlyActing_refl s, hk⟩
  revert hw
  fun_cases srWritten (me s) n v
  all_goals intro hw
  all_goals cases hw
  all_goals simp only [writeSr, tvecOf_eq, alignedWord_eq, ptbaseOf_eq]
  -- the read-only registers, which ignore the write, and then those that have fields to write
  any_goals exact keep rfl
  all_goals exact put _ rfl

/-- No write of a register of the hart's own reaches an x register, the PC or INSTRET. -/
theorem srWritten_keeps {h h' : Hart} {n : Nat} {v : Word} (hw : srWritten h n v = some h') :
    h'.x = h.x ∧ h'.pc = h.pc ∧ h'.instret = h.instret := by
  revert hw
  fun_cases srWritten h n v
  all_goals intro hw
  all_goals cases hw
  all_goals exact ⟨rfl, rfl, rfl⟩

/-- Writing x and going on, after changes of the acting hart that leave its x registers, its PC and INSTRET. -/
theorem retireX_wroteHart {s u : State} (d : Reg) (old : Word) (hu : OnlyActing s u) (hx : (me u).x = (me s).x)
    (hpc : (me u).pc = (me s).pc) (hret : (me u).instret = (me s).instret) :
    WroteHart s (retireX d old u) d old (me u) := by
  refine ⟨onlyActing_trans hu (onlyActing_trans (onlyActing_onMe u _) (onlyActing_onMe (wx u d old) _)), fun r => ?_, ?_⟩
  · rw [me_retireX, getX_retireHart, getX_setX, getX, getX, hx]
  · rw [me_retireX, setX_eq, ← hpc, ← hret]
    rfl

/-- The write of a SETSR or SWAPSR in u, which differs from s in what the read of a SWAPSR has latched. -/
theorem srStore_wroteHart {s u : State} {n : Nat} {v : Word} {h : Hart} (d : Reg) (old w : Word) (hu : OnlyActing s u)
    (hx : (me u).x = (me s).x) (hpc : (me u).pc = (me s).pc) (hret : (me u).instret = (me s).instret)
    (hw : srWritten (me u) n v = some h) : WroteHart s (srStore d old n v w u) d old h := by
  obtain ⟨t, ht, hacts, rfl⟩ := writeSr_of_srWritten d hw
  obtain ⟨kx, kpc, kret⟩ := srWritten_keeps hw
  rw [srStore, ht]
  exact retireX_wroteHart d old (onlyActing_trans hu hacts) (kx.trans hx) (kpc.trans hpc) (kret.trans hret)

/-! ### SETSR and SWAPSR (R389) -/

/-- SETSR of a register of the hart's own. -/
theorem execSetsr_wroteHart {s : State} {a : Reg} {n : BitVec 12} {h : Hart} (hs : Settled s)
    (hm : n.toNat / 1024 ≤ (me s).mode.code.toNat) (hq : readsAfterQueues s n.toNat)
    (hw : srWritten (me s) n.toNat (rx s a) = some h) :
    Completes (.setsr a n) s fun t => WroteHart s t 0 0 h := by
  have hrun : exec (.setsr a n) s = .next (srStore 0 0 n.toNat (rx s a) (leadWord (.setsr a n)) s) := by
    change execSetsr a n s = _
    simp only [execSetsr, irrevocably_settled hs, srCheck_pass hm (readSr_isSome_of_srWritten s hw),
      srWriteWaits_false hq, Bool.false_eq_true, if_false]
  exact ⟨_, hrun, srStore_wroteHart 0 0 _ (onlyActing_refl s) rfl rfl rfl hw⟩

/-- SWAPSR of a register of the hart's own, whose read leaves its state to the write. -/
theorem execSwapsr_wroteHart {s : State} {d a : Reg} {n : BitVec 12} {old : Nat} {h : Hart} (hs : Settled s)
    (hm : n.toNat / 1024 ≤ (me s).mode.code.toNat) (hr : srValue s n.toNat = some old)
    (hq : readsAfterQueues s n.toNat) (hf : FrontierSettled s n.toNat)
    (hw : srWritten (me (afterRead s n.toNat)) n.toNat (rx s a) = some h) :
    Completes (.swapsr d a n) s fun t => WroteHart s t d (BitVec.ofNat 64 old) h := by
  have hrun : exec (.swapsr d a n) s = .next (srStore d (BitVec.ofNat 64 old) n.toNat (rx s a)
      (leadWord (.swapsr d a n)) (afterRead s n.toNat)) := by
    change execSwapsr d a n s = _
    simp only [execSwapsr, irrevocably_settled hs, srCheck_pass hm (readSr_isSome_of_srWritten s hw),
      srReadWaits_false hq, frontierWaits_false hf, readSr_of_srValue hr, Bool.false_eq_true, if_false]
  obtain ⟨kx, kpc, kret⟩ := afterRead_keeps s n.toNat
  exact ⟨_, hrun, srStore_wroteHart d _ _ (afterRead_onlyActing s n.toNat) kx kpc kret hw⟩

/-- Settles O26: the checks and waits pass, the read of SWAPSR gives the layout's value, and the write leaves the hart
as its layout says. -/
theorem systemRegisterWrites : Obligations.SystemRegisterWrites := by
  intro s d a n h hs hm
  have hcfr : n.toNat = 0x018 ↔ n = 0x018 := BitVec.toNat_inj (y := 0x018#12)
  constructor
  · intro hw hq
    exact execSetsr_wroteHart hs hm hq hw
  · intro old hr hq hf h0 hw
    exact execSwapsr_wroteHart hs hm hr hq hf (by simpa only [me_afterRead, hcfr] using hw)

end Sys2Proof.Machine

/-!
SUPPORT. The hart that acts next, and the run of its instruction (01_machine.md R20; 14_encoding.md R284, R294).
-/
namespace Sys2Proof.Machine

/-- The hart h of the core c is the next to act, and u is the state in which it has its issue slot: its instruction is a
TABORT that acts before the cycle's other events, or no event is due and it issues (R20, log 8). -/
def ActsNext (s u : State) (c h : Nat) : Prop :=
  ((s.scan = 0 → abortNext s = none ∧ nextInternal s = none) ∧ nextIssue s = some (c, h) ∧ u = issueSlot c h s) ∨
    (s.scan = 0 ∧ abortNext s = some (c, h) ∧ u = earlySlot c h s)

@[simp] theorem issueSlot_cur (c h : Nat) (s : State) : (issueSlot c h s).cur = h := rfl
@[simp] theorem earlySlot_cur (c h : Nat) (s : State) : (earlySlot c h s).cur = h := rfl
@[simp] theorem me_issueSlot (c h : Nat) (s : State) : me (issueSlot c h s) = hart s h := rfl
@[simp] theorem me_earlySlot (c h : Nat) (s : State) : me (earlySlot c h s) = hart s h := rfl

/-- With no event from outside and the clock running, a step is what happens next by itself. -/
theorem step_of_noInput {s : State} (hi : s.inputs = []) (hc : s.clockStopped = false) : step s = advance s := by
  rw [step, hi, hc]
  rfl

theorem issueNext_of_issues {s : State} {c h : Nat} (hn : nextIssue s = some (c, h)) :
    issueNext s = runHart (issueSlot c h s) := by
  rw [issueNext, hn]

theorem advance_of_aborts {s : State} {c h : Nat} (h0 : s.scan = 0) (ha : abortNext s = some (c, h)) :
    advance s = runHart (earlySlot c h s) := by
  rw [advance, if_pos h0, ha]

/-- Where no TABORT acts early and no event is due, or the cycle's instructions have begun, the next thing is an
instruction. -/
theorem advance_of_noneDue {s : State} (hd : s.scan = 0 → abortNext s = none ∧ nextInternal s = none) :
    advance s = issueNext s := by
  by_cases h0 : s.scan = 0
  · obtain ⟨ha, hn⟩ := hd h0
    rw [advance, if_pos h0, ha, hn]
  · rw [advance, if_neg h0]

namespace ActsNext
variable {s u : State} {c h : Nat}

theorem cur_eq (ha : ActsNext s u c h) : u.cur = h := by
  obtain ⟨-, -, rfl⟩ | ⟨-, -, rfl⟩ := ha
  · exact issueSlot_cur c h s
  · exact earlySlot_cur c h s

/-- Taking the issue slot changes nothing of the hart. -/
theorem me_eq (ha : ActsNext s u c h) : me u = hart s h := by
  obtain ⟨-, -, rfl⟩ | ⟨-, -, rfl⟩ := ha
  · exact me_issueSlot c h s
  · exact me_earlySlot c h s

theorem advance_eq (ha : ActsNext s u c h) : advance s = runHart u := by
  obtain ⟨hd, hn, rfl⟩ | ⟨h0, ha, rfl⟩ := ha
  · exact (advance_of_noneDue hd).trans (issueNext_of_issues hn)
  · exact advance_of_aborts h0 ha

end ActsNext

/-- A hart whose fetch succeeds and that no trap or trigger stops runs the words fetched. -/
theorem runHart_of_fetched {u s1 s2 : State} {ws : List Nat} (hb : (me u).boundaryTrap = none)
    (hf : fetchInstr u u.cur (me u).pc = .ok (s1, ws)) (ht : pcTriggers [(me u).pc] s1 = .go s2) :
    runHart u = runWords ws s2 := by
  simp only [runHart, hb, hf, ht]

theorem runWords_ok {ws : List Nat} {i : Instr} (s : State) (hd : decodeWords ws = .ok i) :
    runWords ws s = runInstr i s := by
  rw [runWords, hd]

theorem runWords_error {ws : List Nat} {r : DecodeRefusal} (s : State) (hd : decodeWords ws = .error r) :
    runWords ws s = exec (.notAnInstruction (BitVec.ofNat 32 (ws.headD 0)) r.cause) s := by
  rw [runWords, hd]
  rfl

/-- An instruction that the mask of an MCAST holds waits for it, unless it heads a convoy (R140). -/
theorem runInstr_of_held {i : Instr} {s : State} (hc : castHolds (me s) i = true) (hm : memberOf (me s) i = none) :
    runInstr i s = .next (waitOn .castMask s) := by
  rw [runInstr, hm, hc]
  rfl

/-- An instruction that no mask holds, or that heads a convoy, is executed where every register holds good data. -/
theorem runInstr_eq_exec {i : Instr} {s : State} (hc : castHolds (me s) i = false ∨ (memberOf (me s) i).isSome = true)
    (hx : (me s).badX = 0) (hf : (me s).badF = 0) : runInstr i s = exec i s := by
  have hgoes : ¬((!(memberOf (me s) i).isSome && castHolds (me s) i) = true) := by
    obtain hc | hm := hc
    · simp [hc]
    · simp [hm]
  rw [runInstr, if_neg hgoes, if_pos ⟨hx, hf⟩]

/-- Settles O4: the step is the run of the hart that acts next, whose fetch gives the words; the cases are those of what
the words decode to. -/
theorem stepRunsDecoded : Obligations.StepRunsDecoded := by
  intro s u s1 s2 c h ws hi hc hnext hb hf ht
  have hact : ActsNext s u c h := hnext
  have hstep : step s = runWords ws s2 := by
    rw [step_of_noInput hi hc, hact.advance_eq]
    apply runHart_of_fetched (s1 := s1)
    · rw [hact.me_eq, hb]
    · rw [hact.cur_eq, hact.me_eq, hf]
    · rw [hact.me_eq, ht]
  rw [hstep]
  refine ⟨hact.cur_eq, fun i hd => ?_, fun r hd => runWords_error s2 hd⟩
  rw [runWords_ok s2 hd]
  exact ⟨runInstr_of_held, runInstr_eq_exec⟩

end Sys2Proof.Machine

/-!
SUPPORT. What GETSR, SETSR and SWAPSR do of every register: the refusals, the read of an assigned register, and the write
that a SETSR or SWAPSR hands to its register (02_state.md R37, R39, R44; 18_reference_l_to_s.md R389).
-/
namespace Sys2Proof.Machine
open Sys2Proof.Claim

/-! ### Refusals (R37, R44) -/

/-- A number that no layout names is not assigned. -/
theorem readSr_of_srValue_none {s : State} {n : Nat} : srValue s n = none → readSr s n = none := by
  fun_cases readSr s n
  all_goals intro h
  -- a number that is not assigned
  case case39 => rfl
  all_goals cases h

/-- The numbers 0xC00 to 0xFFF are assigned in no mode. -/
theorem srCheck_reserved {s : State} {n : Nat} (h : n / 1024 = 3) : srCheck s n = some 0x04 := if_pos h

theorem srCheck_aboveMode {s : State} {n : Nat} (h3 : n / 1024 < 3) (hm : (me s).mode.code.toNat < n / 1024) :
    srCheck s n = some 0x03 := by
  rw [srCheck, if_neg (Nat.ne_of_lt h3), if_pos hm]

theorem srCheck_unassigned {s : State} {n : Nat} (hm : n / 1024 ≤ (me s).mode.code.toNat) (hv : srValue s n = none) :
    srCheck s n = some 0x04 := by
  have hmode : (me s).mode.code.toNat ≤ 2 := by cases (me s).mode <;> decide
  rw [srCheck, if_neg (by omega), if_neg (by omega), readSr_of_srValue_none hv]
  rfl

/-- GETSR, SETSR and SWAPSR take the cause of the check, with the number as TVAL. -/
theorem systemRegister_refused {s : State} {d a : Reg} {n : BitVec 12} {i : Instr} {c : Byte} (hs : Settled s)
    (hi : i ∈ [Instr.getsr d n, .setsr a n, .swapsr d a n]) (hc : srCheck s n.toNat = some c) :
    Completes i s fun t => Trapped s t c (n.setWidth 64) := by
  refine ⟨_, ?_, raise_trapped hs c (n.setWidth 64)⟩
  simp only [List.mem_cons, List.not_mem_nil, or_false] at hi
  obtain rfl | rfl | rfl := hi
  · change execGetsr d n s = _
    rw [execGetsr, hc]
    rfl
  · change execSetsr a n s = _
    rw [execSetsr, irrevocably_settled hs, hc]
  · change execSwapsr d a n s = _
    rw [execSwapsr, irrevocably_settled hs, hc]

/-! ### Reads (R355) -/

theorem readSr_isSome_of_srValue {s : State} {n v : Nat} (hv : srValue s n = some v) : (readSr s n).isSome = true := by
  rw [readSr_of_srValue hv]
  rfl

theorem execGetsr_wroteHart {s : State} {d : Reg} {n : BitVec 12} {v : Nat} (hv : srValue s n.toNat = some v)
    (hm : n.toNat / 1024 ≤ (me s).mode.code.toNat) (hq : readsAfterQueues s n.toNat) (hf : FrontierSettled s n.toNat) :
    Completes (.getsr d n) s fun t => WroteHart s t d (BitVec.ofNat 64 v) (me (afterRead s n.toNat)) := by
  have hrun : exec (.getsr d n) s = .next (retireX d (BitVec.ofNat 64 v) (afterRead s n.toNat)) := by
    change execGetsr d n s = _
    simp only [execGetsr, srCheck_pass hm (readSr_isSome_of_srValue hv), srReadWaits_false hq, frontierWaits_false hf,
      readSr_of_srValue hv, Bool.false_eq_true, if_false]
    rfl
  obtain ⟨kx, kpc, kret⟩ := afterRead_keeps s n.toNat
  exact ⟨_, hrun, retireX_wroteHart d _ (afterRead_onlyActing s n.toNat) kx kpc kret⟩

/-- Settles O25: an assigned number reads as its layout says, and the check refuses the others in the order of R37. -/
theorem systemRegisterReads : Obligations.SystemRegisterReads := by
  refine ⟨fun s d n v hv hm hq hf => ?_, fun s d a n i hs hi => ⟨fun h3 => ?_, fun h3 hm => ?_, fun hm hv => ?_⟩⟩
  · have hcfr : n.toNat = 0x018 ↔ n = 0x018 := BitVec.toNat_inj (y := 0x018#12)
    simpa only [me_afterRead, hcfr] using execGetsr_wroteHart hv hm hq hf
  · exact systemRegister_refused hs hi (srCheck_reserved h3)
  · exact systemRegister_refused hs hi (srCheck_aboveMode h3 hm)
  · exact systemRegister_refused hs hi (srCheck_unassigned hm hv)

end Sys2Proof.Machine
/-!
SUPPORT. What a SETSR or SWAPSR does once the write of its register is known: it traps, waits, or writes xd and goes on
(18_reference_l_to_s.md R389).
-/
namespace Sys2Proof.Machine
open Sys2Proof.Claim

/-! ### From the register's write to the instruction's end -/

/-- A hart that is not in user mode may name the supervisor's registers (R37). -/
theorem supervisor_le {s : State} (hm : (me s).mode ≠ .user) : 1 ≤ (me s).mode.code.toNat := by
  cases h : (me s).mode with
  | user => exact absurd h hm
  | supervisor | monitor => decide

theorem settled_of_noTask {s : State} (h : (me s).task = none) : Settled s := by
  have ht : taskAt s s.cur = none := by
    rw [taskAt, show (hart s s.cur).task = none from h]
  rw [Settled, speculative, ht]

theorem retireX_zero (v w : Word) (s : State) : retireX 0 v s = retireX 0 w s := by
  rw [retireX, retireX, wx, wx, funext fun h => setX_zero h v, funext fun h => setX_zero h w]

/-- SETSR writes no x register, so that what the register held before is nothing to it. -/
theorem srStore_zero (old : Word) (n : Nat) (v w : Word) (s : State) : srStore 0 0 n v w s = srStore 0 old n v w s := by
  unfold srStore
  split
  · exact retireX_zero 0 old _
  · rfl
  · rfl

/-- SETSR and SWAPSR of a register that the mode may name, with no wait of its own before the write. -/
theorem exec_of_writesSr {s : State} {i : Instr} {n : BitVec 12} {a d : Reg} {old : Word} (hs : Settled s)
    (hw : WritesSr s i n a d old) (hm : n.toNat / 1024 ≤ (me s).mode.code.toNat) (hr : (readSr s n.toNat).isSome = true)
    (h4 : n.toNat ≠ 0x004) (h18 : n.toNat ≠ 0x018) :
    exec i s = .next (srStore d old n.toNat (rx s a) (leadWord i) s) := by
  obtain ⟨rfl, rfl⟩ | ⟨rfl, hv, hq⟩ := hw
  · have hwait : srWriteWaits s n.toNat = false := by simp [srWriteWaits, h4]
    change execSetsr a n s = _
    simp only [execSetsr, irrevocably_settled hs, srCheck_pass hm hr, hwait, Bool.false_eq_true, if_false,
      srStore_zero old]
  · have hf : FrontierSettled s n.toNat := fun h => absurd h h18
    have hread : afterRead s n.toNat = s := if_neg h18
    change execSwapsr d a n s = _
    simp only [execSwapsr, irrevocably_settled hs, srCheck_pass hm hr, srReadWaits_false hq, frontierWaits_false hf,
      readSr_of_srValue hv, hread, Bool.false_eq_true, if_false, BitVec.ofNat_toNat, BitVec.setWidth_eq]

theorem srStore_ok {s u : State} {n : Nat} {d : Reg} {v : Word} (h : writeSr s n d v = .ok u) (old w : Word) :
    srStore d old n v w s = retireX d old u := by rw [srStore, h]

theorem srStore_trap {s : State} {n : Nat} {d : Reg} {v : Word} {c : Byte} (h : writeSr s n d v = .trap c) (old w : Word) :
    srStore d old n v w s = raise c w s := by rw [srStore, h]

theorem srStore_wait {s : State} {n : Nat} {d : Reg} {v : Word} {x : Wait} (h : writeSr s n d v = .wait x) (old w : Word) :
    srStore d old n v w s = waitOn x s := by rw [srStore, h]

/-- Writing xd and going on, in the state that the write has left. -/
theorem retireX_goesOn (u : State) (d : Reg) (old : Word) : WroteHart u (retireX d old u) d old (me u) :=
  retireX_wroteHart d old (onlyActing_refl u) rfl rfl rfl

/-- Writing xd and going on, where the acting hart's core has changed. -/
theorem retireX_wroteCore (u : State) (d : Reg) (old : Word) (f : Core → Core) :
    WroteCore u (retireX d old (onCore u (coreOf u.cur) f)) d old (f (Machine.core u (coreOf u.cur))) := by
  obtain ⟨⟨-, hharts, -⟩, hx, hme⟩ := retireX_goesOn (onCore u (coreOf u.cur) f) d old
  exact ⟨rfl, hharts, hx, hme, core_onCore_same u _ f, fun k hk => core_onCore_other u _ k f hk⟩

/-- A SETSR or SWAPSR of register n of the acting hart, which may make it now. -/
structure MayWrite (s : State) (i : Instr) (n : BitVec 12) (a d : Reg) (old : Word) : Prop where
  settled : Settled s
  writes : WritesSr s i n a d old
  mode : n.toNat / 1024 ≤ (me s).mode.code.toNat
  assigned : (readSr s n.toNat).isSome = true
  notFpctl : n.toNat ≠ 0x004
  notFrontier : n.toNat ≠ 0x018

namespace MayWrite
variable {s : State} {i : Instr} {n : BitVec 12} {a d : Reg} {old : Word} (h : MayWrite s i n a d old)
include h

theorem exec_eq : exec i s = .next (srStore d old n.toNat (rx s a) (leadWord i) s) :=
  exec_of_writesSr h.settled h.writes h.mode h.assigned h.notFpctl h.notFrontier

theorem completes_of_ok {u : State} {P : State → Prop} (hw : writeSr s n.toNat d (rx s a) = .ok u)
    (hp : P (retireX d old u)) : Completes i s P :=
  ⟨_, by rw [h.exec_eq, srStore_ok hw], hp⟩

theorem completes_of_trap {c : Byte} (hw : writeSr s n.toNat d (rx s a) = .trap c) :
    Completes i s fun t => Trapped s t c (leadWord i) :=
  ⟨_, by rw [h.exec_eq, srStore_trap hw], raise_trapped h.settled c _⟩

theorem completes_of_wait {x : Wait} (hw : writeSr s n.toNat d (rx s a) = .wait x) :
    Completes i s fun t => Waits s t x :=
  ⟨_, by rw [h.exec_eq, srStore_wait hw], waitOn_waits x s⟩

/-- A write that leaves a state goes on in it. -/
theorem wroteHart_of_ok {u : State} (hw : writeSr s n.toNat d (rx s a) = .ok u) :
    Completes i s fun t => WroteHart u t d old (me u) := h.completes_of_ok hw (retireX_goesOn u d old)

end MayWrite
end Sys2Proof.Machine

/-!
SUPPORT. TSHAPE, TSTAT, LANEPART and LOCALSPLIT (02_state.md R50, R56, R59, R60).
-/
namespace Sys2Proof.Machine
open Sys2Proof.Claim

/-! ### Memory after a range has been cleared -/

/-- Dropping cells by their addresses leaves the kept ones, and the others read zero. -/
theorem memRead_filter (p : Nat → Bool) (x : Nat) {m : List Host.Cell} {lo : Option Nat} (hm : memSorted lo m = true) :
    memRead (m.filter fun c => p c.1) x = if p x = true then memRead m x else 0 := by
  induction m generalizing lo with
  | nil => simp [memRead]
  | cons c m ih =>
    obtain ⟨b, v⟩ := c
    have hbm : memSorted (some b) m = true := by
      cases lo with
      | none => exact ((Bool.and_eq_true _ _).mp hm).2
      | some l => exact ((Bool.and_eq_true _ _).mp hm).2
    by_cases hp : p b = true
    · rw [List.filter_cons_of_pos (by exact hp), memRead, memRead, ih hbm]
      by_cases hxb : x = b
      · rw [if_pos hxb, if_pos hxb, if_pos (hxb ▸ hp)]
      · rw [if_neg hxb, if_neg hxb]
        split <;> split <;> rfl
    · rw [List.filter_cons_of_neg (by exact hp), memRead, ih hbm]
      by_cases hxb : x = b
      · rw [if_neg (hxb ▸ hp), if_neg (hxb ▸ hp)]
      · rw [if_neg hxb]
        split
        · split
          · next hlt => exact memRead_below hbm (Nat.le_of_lt hlt)
          · rfl
        · rfl

theorem memRead_memClear {m : List Host.Cell} (hm : Memory.wf m = true) (a n x : Nat) :
    memRead (memClear m a n) x = if a ≤ x ∧ x < a + n then 0 else memRead m x := by
  rw [memClear, memRead_filter (fun b => decide (b < a) || decide (a + n ≤ b)) x hm]
  by_cases hx : a ≤ x ∧ x < a + n
  · rw [if_pos hx, if_neg]
    simp only [Bool.or_eq_true, decide_eq_true_eq]
    omega
  · rw [if_neg hx, if_pos]
    simp only [Bool.or_eq_true, decide_eq_true_eq]
    omega

/-! ### A core whose caches are emptied -/

theorem coreCache_onCoreCache (s : State) (c : Nat) (f : CoreCache → CoreCache) :
    coreCache (onCoreCache s c f) c = f (coreCache s c) := by
  simp [coreCache, onCoreCache]

/-- Leaving a line changes the home's copies alone. -/
theorem coreCache_leaveLine (s : State) (w : Sharer) (l c : Nat) : coreCache (leaveLine s w l) c = coreCache s c := by
  unfold leaveLine
  split
  · rfl
  · dsimp only
    split <;> rfl

theorem coreCache_dropL2 (s : State) (c l : Nat) : coreCache (dropL2 s c l) c =
    { l1d := (coreCache s c).l1d.filter (· != l), l2 := tabDel (coreCache s c).l2 l } := by
  rw [dropL2, dropCopy, coreCache_onCoreCache, coreCache_leaveLine]

theorem coreCache_dropL1d (s : State) (c l : Nat) : coreCache (dropCopy l (leaveLine s (.l1d c) l) (.l1d c)) c =
    { coreCache s c with l1d := (coreCache s c).l1d.filter (· != l) } := by
  rw [dropCopy, coreCache_onCoreCache, coreCache_leaveLine]

theorem decide_notMem_cons (k l : Nat) (ls : List Nat) :
    (decide (k ∉ ls) && k != l) = decide (k ∉ l :: ls) := by
  by_cases hk : k = l <;> simp [hk]

/-- Dropping every line of a list from the L2 leaves no line of it. -/
theorem coreCache_foldl_dropL2 (c : Nat) (ls : List Nat) (s : State) :
    (coreCache (ls.foldl (fun s l => dropL2 s c l) s) c).l2 = (coreCache s c).l2.filter (fun p => p.1 ∉ ls) ∧
      ∀ l ∈ (coreCache (ls.foldl (fun s l => dropL2 s c l) s) c).l1d, l ∈ (coreCache s c).l1d := by
  induction ls generalizing s with
  | nil => simp
  | cons l ls ih =>
    obtain ⟨h2, h1⟩ := ih (dropL2 s c l)
    rw [coreCache_dropL2] at h1 h2
    constructor
    · rw [List.foldl_cons, h2, tabDel, List.filter_filter]
      exact List.filter_congr fun p _ => decide_notMem_cons p.1 l ls
    · exact fun k hk => List.mem_of_mem_filter (h1 k hk)

theorem coreCache_foldl_dropL1d (c : Nat) (ls : List Nat) (s : State) :
    coreCache (ls.foldl (fun s l => dropCopy l (leaveLine s (.l1d c) l) (.l1d c)) s) c =
      { coreCache s c with l1d := (coreCache s c).l1d.filter (fun l => l ∉ ls) } := by
  induction ls generalizing s with
  | nil => simp
  | cons l ls ih =>
    rw [List.foldl_cons, ih, coreCache_dropL1d, CoreCache.mk.injEq]
    refine ⟨?_, rfl⟩
    rw [List.filter_filter]
    exact List.filter_congr fun k _ => decide_notMem_cons k l ls

/-- A core that is flushed holds no line (R60). -/
theorem coreCache_flushCore (s : State) (c : Nat) : coreCache (flushCore s c) c = { l1d := [], l2 := [] } := by
  obtain ⟨h2, h1⟩ := coreCache_foldl_dropL2 c ((coreCache s c).l2.map (·.1)) s
  rw [flushCore, coreCache_foldl_dropL1d, CoreCache.mk.injEq, h2]
  constructor
  · refine List.filter_eq_nil_iff.2 fun l hl => ?_
    simpa using h1 l hl
  · refine List.filter_eq_nil_iff.2 fun p hp => ?_
    simp only [List.mem_map_of_mem hp, not_true_eq_false, decide_false, Bool.false_eq_true, not_false_eq_true]

/-! ### What the writes make of their values -/

theorem bits_eq_fieldOf (v : Word) (hi lo : Nat) : bits v hi lo = fieldOf v lo (hi - lo + 1) := rfl

theorem managedWrite_iff (s : State) :
    managedWrite s = true ↔ Managed s (coreOf s.cur) ∧ (me s).mode = .supervisor := by
  simp [managedWrite, isManaged, Managed]

/-- Two fields of four bits that share no bit. -/
theorem and_eq_zero_iff_disjoint {m n : Nat} (hm : m < 2 ^ 4) :
    m &&& n = 0 ↔ ∀ g, g < 4 → ¬(m.testBit g = true ∧ n.testBit g = true) := by
  constructor
  · intro h g _
    rw [← Bool.and_eq_true, ← Nat.testBit_and, h, Nat.zero_testBit]
    exact Bool.false_ne_true
  · intro h
    refine Nat.eq_of_testBit_eq fun g => ?_
    rw [Nat.testBit_and, Nat.zero_testBit]
    by_cases hg : g < 4
    · exact Bool.eq_false_iff.2 (by simpa using h g hg)
    · have hbit : m.testBit g = false :=
        Nat.testBit_lt_two_pow (lt_of_lt_of_le hm (Nat.pow_le_pow_right (by decide) (Nat.le_of_not_lt hg)))
      rw [hbit, Bool.false_and]

/-- The check of a LANEPART value is R59's rule. -/
theorem lanepartOk_iff (v : Nat) : lanepartOk v = true ↔ LanepartLegal v := by
  have hlt (i : Nat) : v / 16 ^ i % 16 < 2 ^ 4 := Nat.mod_lt _ (by decide)
  simp only [lanepartOk, laneFieldOk, Bool.and_eq_true, List.all_eq_true, List.mem_range, decide_eq_true_eq,
    Bool.or_eq_true, beq_iff_eq, LanepartLegal]
  refine and_congr_right fun _ => ⟨fun h i j hij hj => ?_, fun h i hi j hj => ?_⟩
  · exact (and_eq_zero_iff_disjoint (hlt i)).1 ((h i (by omega) j hj).resolve_left (Nat.ne_of_lt hij))
  · rcases Nat.lt_trichotomy i j with hij | hij | hij
    · exact .inr ((and_eq_zero_iff_disjoint (hlt i)).2 (h i j hij hj))
    · exact .inl hij
    · exact .inr (Nat.and_comm _ _ ▸ (and_eq_zero_iff_disjoint (hlt j)).2 (h j i hij hi))

theorem tshapeLegal_iff (v : Word) : tshapeLegal v.toNat = true ↔
    (fieldOf v 16 8 ≤ 128 ∧ fieldOf v 8 6 ≤ 32 ∧ fieldOf v 0 6 ≤ 32 ∧ (fieldOf v 16 8 = 0 ↔ fieldOf v 8 6 = 0) ∧
      (fieldOf v 8 6 = 0 ↔ fieldOf v 0 6 = 0)) := by
  simp only [tshapeLegal, tshapeOk, fieldOf, Nat.reducePow, Nat.div_one, Bool.and_eq_true, Bool.or_eq_true,
    decide_eq_true_eq, beq_iff_eq, bne_iff_ne]
  omega

/-! ### LOCALSPLIT (R60, log 106) -/

/-- A page stands in a core's scratchpad. -/
theorem inSpad_iff (c : Nat) (q : Pin) : q.inSpad c = true ↔ q.ppage * 4096 / 0x100000 = 0x100000 + c := by
  have hbase : spadBase c = 0x10000000000 + c * 0x100000 := rfl
  simp only [Pin.inSpad, Bool.and_eq_true, decide_eq_true_eq]
  omega

/-- The pages that a hart's queued accesses have been checked for stand outside a core's scratchpad. -/
theorem queuedPins_outside_iff (x : Hart) (c : Nat) : (queuedPins x).any (Pin.inSpad c) = false ↔
    (∀ e ∈ x.mq, ∀ q ∈ e.pins, ¬q.ppage * 4096 / 0x100000 = 0x100000 + c) ∧
      ∀ k ∈ (x.flight.map (·.convoy)).toList ++ x.vq, k.reprobe = none ∨ k.firstFault = true →
        ∀ q ∈ k.pins, ¬q.ppage * 4096 / 0x100000 = 0x100000 + c := by
  simp only [← inSpad_iff, queuedPins, convoysOf, List.any_append, List.any_flatMap, List.any_filter,
    Bool.or_eq_false_iff, List.any_eq_false, Bool.and_eq_true, Bool.or_eq_true, Option.isNone_iff_eq_none,
    List.any_eq_true, not_exists, not_and, List.forall_mem_append]
  exact and_comm

/-- Nothing on a core is still to use its scratchpad under the old split. -/
theorem splitFree_iff (s : State) (c : Nat) : splitFree s c = true ↔
    ((Machine.core s c).engine.queue = [] ∧ (Machine.core s c).engine.running = none ∧
      (Machine.core s c).engine.violating = none) ∧
    (∀ e ∈ s.tasks, e.rowCore = c → e.rows = []) ∧
    ∀ x ∈ s.harts.map (·.2), (∀ e ∈ x.mq, ∀ q ∈ e.pins, ¬q.ppage * 4096 / 0x100000 = 0x100000 + c) ∧
      ∀ k ∈ (x.flight.map (·.convoy)).toList ++ x.vq, k.reprobe = none ∨ k.firstFault = true →
        ∀ q ∈ k.pins, ¬q.ppage * 4096 / 0x100000 = 0x100000 + c := by
  have hengine : (unended (Machine.core s c).engine).isEmpty = true ↔ (Machine.core s c).engine.queue = [] ∧
      (Machine.core s c).engine.running = none ∧ (Machine.core s c).engine.violating = none := by
    simp only [unended, List.isEmpty_iff, List.append_eq_nil_iff, Option.toList_eq_nil_iff, Option.map_eq_none_iff]
    tauto
  have hrows : (rowsOn s c).isEmpty = true ↔ ∀ e ∈ s.tasks, e.rowCore = c → e.rows = [] := by
    simp only [rowsOn, List.isEmpty_iff, List.flatMap_eq_nil_iff, ite_eq_right_iff]
  have hpins : (!s.harts.any fun p => (queuedPins p.2).any (Pin.inSpad c)) = true ↔
      ∀ x ∈ s.harts.map (·.2), (queuedPins x).any (Pin.inSpad c) = false := by
    simp only [Bool.not_eq_true', List.any_eq_false, Bool.not_eq_true, List.forall_mem_map]
  simp only [splitFree, Bool.and_eq_true, hengine, hrows, hpins, queuedPins_outside_iff, and_assoc]

/-- The state around a core whose split changes: its caches are flushed and its scratchpad cleared (R60). -/
def splitCleared (s : State) (c : Nat) : State := clearRange (flushCore s c) (spadBase c) 0x100000

theorem clearRange_eq {s u : State} (h : CachesOnly s u) (a n : Nat) : clearRange u a n = { s with
    mem := (clearRange u a n).mem, caches := (clearRange u a n).caches, poison := (clearRange u a n).poison } := by
  rw [h]
  rfl

theorem splitCleared_eq (s : State) (c : Nat) : splitCleared s c = { s with
    mem := (splitCleared s c).mem, caches := (splitCleared s c).caches, poison := (splitCleared s c).poison } :=
  clearRange_eq (flushCore_cachesOnly s c) _ _

/-- The cleared scratchpad reads zero, and every other byte as before (R60). -/
theorem memRead_splitCleared {s : State} (c : Nat) (hm : Memory.wf s.mem = true) (x : Nat) :
    (x / 0x100000 = 0x100000 + c → memRead (splitCleared s c).mem x = 0) ∧
      (¬x / 0x100000 = 0x100000 + c → memRead (splitCleared s c).mem x = memRead s.mem x) := by
  have hbase : spadBase c = 0x10000000000 + c * 0x100000 := rfl
  have hmem : (splitCleared s c).mem = memClear s.mem (spadBase c) 0x100000 := by
    rw [← (flushCore_cachesOnly s c).mem]
    rfl
  rw [hmem, memRead_memClear hm]
  exact ⟨fun h => if_pos (by omega), fun h => if_neg (by omega)⟩

/-- No bad data stands in the cleared scratchpad, and what stands elsewhere stays. -/
theorem mem_splitCleared_poison (s : State) (c : Nat) (p : Nat × Nat) :
    p ∈ (splitCleared s c).poison ↔ p ∈ s.poison ∧ ¬p.1 / 0x100000 = 0x100000 + c := by
  have hbase : spadBase c = 0x10000000000 + c * 0x100000 := rfl
  have hpoison : (splitCleared s c).poison =
      s.poison.filter fun p => p.1 < spadBase c || spadBase c + 0x100000 ≤ p.1 := by
    rw [← (flushCore_cachesOnly s c).poison]
    rfl
  rw [hpoison, List.mem_filter, Bool.or_eq_true, decide_eq_true_eq, decide_eq_true_eq]
  exact and_congr_right fun _ => by omega

/-! ### The four registers -/

section
variable {s : State} {i : Instr} {a d : Reg} {old : Word}

/-- A hart that does not own the engine changes no TSHAPE (log 53). -/
theorem tshape_ignored (h : MayWrite s i 0x008 a d old) (ho : (me s).ms = 0) :
    Completes i s fun t => WroteHart s t d old (me s) := by
  refine h.wroteHart_of_ok ?_
  change writeTshape s _ = _
  simp [writeTshape, ownsEngine, ho]

theorem tshape_illegal (h : MayWrite s i 0x008 a d old) (ho : (me s).ms ≠ 0)
    (hl : ¬tshapeLegal (rx s a).toNat = true) : Completes i s fun t => Trapped s t 0x65 (leadWord i) := by
  refine h.completes_of_trap ?_
  change writeTshape s _ = _
  rw [writeTshape, ownsEngine, bne_iff_ne.2 ho, Bool.eq_false_iff.2 hl]
  rfl

theorem tshape_written (h : MayWrite s i 0x008 a d old) (ho : (me s).ms ≠ 0)
    (hl : tshapeLegal (rx s a).toNat = true) : Completes i s fun t =>
      WroteCore (dirtyMatrix s) t d old { myCore s with
        kb := BitVec.ofNat 8 (fieldOf (rx s a) 16 8), n := BitVec.ofNat 6 (fieldOf (rx s a) 8 6)
        m := BitVec.ofNat 6 (fieldOf (rx s a) 0 6), shapeSeq := (myCore s).shapeSeq + 1 } := by
  refine h.completes_of_ok ?_ (retireX_wroteCore (dirtyMatrix s) d old fun c => { c with
    kb := BitVec.ofNat 8 (bits (rx s a) 23 16), n := BitVec.ofNat 6 (bits (rx s a) 13 8)
    m := BitVec.ofNat 6 (bits (rx s a) 5 0), shapeSeq := c.shapeSeq + 1 })
  change writeTshape s _ = _
  rw [writeTshape, ownsEngine, bne_iff_ne.2 ho, hl]
  rfl

theorem tstat_cleared (h : MayWrite s i 0x009 a d old) (ho : (me s).ms ≠ 0) (hb : (rx s a).toNat.testBit 1 = true) :
    Completes i s fun t => WroteCore (dirtyMatrix s) t d old { myCore s with short := false } := by
  refine h.completes_of_ok ?_ (retireX_wroteCore (dirtyMatrix s) d old fun c => { c with short := false })
  have hwrites : (ownsEngine s && bit (rx s a) 1) = true := Bool.and_eq_true_iff.2 ⟨bne_iff_ne.2 ho, hb⟩
  exact if_pos hwrites

theorem tstat_kept (h : MayWrite s i 0x009 a d old) (hk : (me s).ms = 0 ∨ (rx s a).toNat.testBit 1 = false) :
    Completes i s fun t => WroteHart s t d old (me s) := by
  refine h.wroteHart_of_ok ?_
  have hno : ¬(ownsEngine s && bit (rx s a) 1) = true := by
    obtain ho | hb := hk
    · simp [ownsEngine, ho]
    · simp [bit, hb]
  exact if_neg hno

/-- A write of LANEPART goes by R59's rule and by whose core it is. -/
theorem writeSr_lanepart (s : State) (d : Reg) (v : Word) : writeSr s 0x409 d v =
    if (!lanepartOk (fieldOf v 0 16)) = true then .trap 0x65 else if managedWrite s = true then .ok s
    else .ok (onCore s (coreOf s.cur) fun c => { c with lanepart := BitVec.ofNat 16 (fieldOf v 0 16) }) := rfl

theorem lanepart_illegal (h : MayWrite s i 0x409 a d old) (hl : ¬LanepartLegal (fieldOf (rx s a) 0 16)) :
    Completes i s fun t => Trapped s t 0x65 (leadWord i) := by
  refine h.completes_of_trap ((writeSr_lanepart s d _).trans ?_)
  rw [Bool.eq_false_iff.2 (mt (lanepartOk_iff _).1 hl), Bool.not_false, if_pos rfl]

theorem lanepart_ignored (h : MayWrite s i 0x409 a d old) (hl : LanepartLegal (fieldOf (rx s a) 0 16))
    (hg : Managed s (coreOf s.cur) ∧ (me s).mode = .supervisor) :
    Completes i s fun t => WroteHart s t d old (me s) := by
  refine h.wroteHart_of_ok ((writeSr_lanepart s d _).trans ?_)
  rw [(lanepartOk_iff _).2 hl, Bool.not_true, if_neg Bool.false_ne_true, if_pos ((managedWrite_iff s).2 hg)]

theorem lanepart_written (h : MayWrite s i 0x409 a d old) (hl : LanepartLegal (fieldOf (rx s a) 0 16))
    (hg : ¬(Managed s (coreOf s.cur) ∧ (me s).mode = .supervisor)) : Completes i s fun t =>
      WroteCore s t d old { myCore s with lanepart := BitVec.ofNat 16 (fieldOf (rx s a) 0 16) } := by
  refine h.completes_of_ok ((writeSr_lanepart s d _).trans ?_) (retireX_wroteCore s d old fun c => { c with
    lanepart := BitVec.ofNat 16 (fieldOf (rx s a) 0 16) })
  rw [(lanepartOk_iff _).2 hl, Bool.not_true, if_neg Bool.false_ne_true, if_neg (mt (managedWrite_iff s).1 hg)]

/-- The split that a field holds is the core's own. -/
theorem split_eq_iff (c : Core) (v : Word) : c.split = BitVec.ofNat 3 (fieldOf v 0 3) ↔ c.split.toNat = fieldOf v 0 3 := by
  rw [← BitVec.toNat_inj, BitVec.toNat_ofNat, Nat.mod_eq_of_lt (show fieldOf v 0 3 < 2 ^ 3 from Nat.mod_lt _ (by decide))]

theorem localsplit_illegal (h : MayWrite s i 0x40A a d old) (hn : 4 < fieldOf (rx s a) 0 3) :
    Completes i s fun t => Trapped s t 0x65 (leadWord i) := by
  refine h.completes_of_trap ?_
  exact if_pos hn

theorem localsplit_ignored (h : MayWrite s i 0x40A a d old) (hn : fieldOf (rx s a) 0 3 ≤ 4)
    (hg : (Managed s (coreOf s.cur) ∧ (me s).mode = .supervisor) ∨ (myCore s).split.toNat = fieldOf (rx s a) 0 3) :
    Completes i s fun t => WroteHart s t d old (me s) := by
  refine h.wroteHart_of_ok ?_
  exact (if_neg (Nat.not_lt.2 hn)).trans (if_pos (hg.imp (managedWrite_iff s).2 (split_eq_iff _ _).2))

/-- A write of another split goes by whether the core is free for it. -/
theorem writeSr_localsplit (d : Reg) {v : Word} (hn : fieldOf v 0 3 ≤ 4)
    (hg : ¬(Managed s (coreOf s.cur) ∧ (me s).mode = .supervisor)) (hd : (myCore s).split.toNat ≠ fieldOf v 0 3) :
    writeSr s 0x40A d v = if splitFree s (coreOf s.cur) = true then
      .ok (setSplit s (coreOf s.cur) (BitVec.ofNat 3 (fieldOf v 0 3))) else .wait (.localsplit d v) :=
  (if_neg (Nat.not_lt.2 hn)).trans
    (if_neg (not_or.2 ⟨mt (managedWrite_iff s).1 hg, mt (split_eq_iff _ _).1 hd⟩))

theorem localsplit_waits (h : MayWrite s i 0x40A a d old) (hn : fieldOf (rx s a) 0 3 ≤ 4)
    (hg : ¬(Managed s (coreOf s.cur) ∧ (me s).mode = .supervisor)) (hd : (myCore s).split.toNat ≠ fieldOf (rx s a) 0 3)
    (hf : ¬splitFree s (coreOf s.cur) = true) : Completes i s fun t => Waits s t (.localsplit d (rx s a)) :=
  h.completes_of_wait ((writeSr_localsplit d hn hg hd).trans (if_neg hf))

theorem localsplit_written (h : MayWrite s i 0x40A a d old) (hn : fieldOf (rx s a) 0 3 ≤ 4)
    (hg : ¬(Managed s (coreOf s.cur) ∧ (me s).mode = .supervisor)) (hd : (myCore s).split.toNat ≠ fieldOf (rx s a) 0 3)
    (hf : splitFree s (coreOf s.cur) = true) : Completes i s fun t => t = retireX d old
      (onCore (splitCleared s (coreOf s.cur)) (coreOf s.cur) fun k => { k with
        split := BitVec.ofNat 3 (fieldOf (rx s a) 0 3) }) :=
  h.completes_of_ok ((writeSr_localsplit d hn hg hd).trans (if_pos hf)) rfl

end

/-- Settles O28: each register's write by the rule it keeps or breaks. -/
theorem coreRegisterWrites : Obligations.CoreRegisterWrites := by
  intro s i n0 a d old hs hw v c kb n m legal ignored
  refine ⟨?_, ?_, ?_, ?_, ?_, ?_, ?_⟩
  · rintro rfl ho
    exact tshape_ignored ⟨hs, hw, Nat.zero_le _, rfl, by decide, by decide⟩ ho
  · rintro rfl ho hl
    exact tshape_illegal ⟨hs, hw, Nat.zero_le _, rfl, by decide, by decide⟩ ho (mt (tshapeLegal_iff v).1 hl)
  · rintro rfl ho hl
    obtain ⟨t, ht, hcore⟩ := tshape_written ⟨hs, hw, Nat.zero_le _, rfl, by decide, by decide⟩ ho ((tshapeLegal_iff v).2 hl)
    exact ⟨t, ht, dirtyMatrix s, hcore, rfl⟩
  · rintro rfl ho hb
    obtain ⟨t, ht, hcore⟩ := tstat_cleared ⟨hs, hw, Nat.zero_le _, rfl, by decide, by decide⟩ ho hb
    exact ⟨t, ht, dirtyMatrix s, hcore, rfl⟩
  · rintro rfl hk
    exact tstat_kept ⟨hs, hw, Nat.zero_le _, rfl, by decide, by decide⟩ hk
  · rintro rfl hmode
    have h : MayWrite s i 0x409 a d old := ⟨hs, hw, supervisor_le hmode, rfl, by decide, by decide⟩
    exact ⟨lanepart_illegal h, lanepart_ignored h, lanepart_written h⟩
  · rintro rfl hmode
    have h : MayWrite s i 0x40A a d old := ⟨hs, hw, supervisor_le hmode, rfl, by decide, by decide⟩
    refine ⟨localsplit_illegal h, localsplit_ignored h, ?_⟩
    intro hn hg hd inPad free
    refine ⟨fun hf => ?_, fun hf hm => ?_⟩
    · exact localsplit_waits h hn hg hd (mt (splitFree_iff s _).1 hf)
    · obtain ⟨t, ht, rfl⟩ := localsplit_written h hn hg hd ((splitFree_iff s _).2 hf)
      have hflushed : coreCache (splitCleared s (coreOf s.cur)) (coreOf s.cur) = { l1d := [], l2 := [] } :=
        coreCache_flushCore s _
      have hcore := retireX_wroteCore (splitCleared s (coreOf s.cur)) d old fun k =>
        { k with split := BitVec.ofNat 3 (fieldOf v 0 3) }
      have hkept := splitCleared_eq s (coreOf s.cur)
      have hcur : (splitCleared s (coreOf s.cur)).cur = s.cur := by rw [hkept]
      refine ⟨_, ht, splitCleared s (coreOf s.cur), ?_, hkept, congrArg CoreCache.l1d hflushed,
        congrArg CoreCache.l2 hflushed, mem_splitCleared_poison s _, memRead_splitCleared _ hm⟩
      rw [hcur] at hcore
      have hk : Machine.core (splitCleared s (coreOf s.cur)) (coreOf s.cur) = c := by
        rw [hkept]
        rfl
      rwa [hk] at hcore

end Sys2Proof.Machine

/-!
SUPPORT. The fields of a word, the monitor's registers, and the start and stop of harts (02_state.md R36, R63; 12_traps.md
R256, R257; 13_edges.md R266, R274).
-/
namespace Sys2Proof.Machine
open Sys2Proof.Claim

/-! ### Fields of a word -/

theorem testBit_putBits (v : Word) (lo n x i : Nat) : (putBits v lo n x).toNat.testBit i =
    if lo ≤ i ∧ i < lo + n ∧ i < 64 then x.testBit (i - lo) else v.toNat.testBit i := by
  simp only [putBits, BitVec.testBit_toNat, BitVec.getLsbD_or, BitVec.getLsbD_and,
    BitVec.getLsbD_not, BitVec.getLsbD_ofNat, Nat.testBit_mul_two_pow, Nat.testBit_two_pow_sub_one, Nat.testBit_mod_two_pow]
  by_cases hi : i < 64
  · by_cases hlo : lo ≤ i
    · by_cases hn : i < lo + n
      · have : i - lo < n := by omega
        simp [hi, hlo, hn, this]
      · have : ¬i - lo < n := by omega
        simp [hi, hlo, hn, this]
    · simp [hi, hlo]
  · simp [hi, BitVec.getLsbD_of_ge v i (Nat.le_of_not_lt hi)]

theorem testBit_fieldOf (v : Word) (lo n i : Nat) :
    (fieldOf v lo n).testBit i = (decide (i < n) && v.toNat.testBit (lo + i)) := by
  rw [fieldOf, Nat.testBit_mod_two_pow, Nat.testBit_div_two_pow, Nat.add_comm]

/-- A field that is put reads as it was put. -/
theorem fieldOf_putBits_same (v : Word) {lo n x : Nat} (h : lo + n ≤ 64) (hx : x < 2 ^ n) :
    fieldOf (putBits v lo n x) lo n = x := by
  refine Nat.eq_of_testBit_eq fun i => ?_
  rw [testBit_fieldOf, testBit_putBits]
  by_cases hi : i < n
  · rw [decide_eq_true hi, Bool.true_and, if_pos (by omega), Nat.add_sub_cancel_left]
  · rw [decide_eq_false hi, Bool.false_and,
      Nat.testBit_lt_two_pow (lt_of_lt_of_le hx (Nat.pow_le_pow_right (by decide) (Nat.le_of_not_lt hi)))]

/-- A field beside the one that is put keeps its value. -/
theorem fieldOf_putBits_other (v : Word) {lo n a k : Nat} (x : Nat) (h : a + k ≤ lo ∨ lo + n ≤ a) :
    fieldOf (putBits v lo n x) a k = fieldOf v a k := by
  refine Nat.eq_of_testBit_eq fun i => ?_
  rw [testBit_fieldOf, testBit_fieldOf, testBit_putBits]
  by_cases hi : i < k
  · rw [if_neg (by omega)]
  · rw [decide_eq_false hi, Bool.false_and, Bool.false_and]

/-- Putting what a field holds changes nothing. -/
theorem putBits_fieldOf (v : Word) (lo n : Nat) : putBits v lo n (fieldOf v lo n) = v := by
  refine BitVec.eq_of_toNat_eq (Nat.eq_of_testBit_eq fun i => ?_)
  rw [testBit_putBits, testBit_fieldOf]
  split
  · next h =>
    rw [Nat.add_sub_cancel' h.1, decide_eq_true (by omega), Bool.true_and]
  · rfl

theorem bit_putBits_other (v : Word) {lo n a : Nat} (x : Nat) (h : a < lo ∨ lo + n ≤ a) :
    bit (putBits v lo n x) a = v.toNat.testBit a := by
  rw [bit, testBit_putBits, if_neg (by omega)]

/-! ### HARTCTL (R63, R36) -/

/-- The hart that a write of HARTCTL names. -/
def hartctlHart (v : Word) : Nat := if v.toNat.testBit 15 = true then 5120 + fieldOf v 0 13 else fieldOf v 0 13

/-- A write of HARTCTL with a start or a stop that R63 allows. -/
def HartctlLegal (s : State) (v : Word) (start : Bool) : Prop :=
  (if v.toNat.testBit 15 = true then fieldOf v 0 13 < 40 else fieldOf v 0 13 < 5120) ∧ fieldOf v 16 2 ≠ 3 ∧
    (start = true → (hart s (hartctlHart v)).started = false) ∧ (start = false → hartctlHart v ≠ monitorHart s)

/-- The register as a write of HARTCTL leaves it. -/
def hartctlStored (s : State) (v : Word) : State :=
  { s with hartctlMode := BitVec.ofNat 2 (fieldOf v 16 2), hartctlSteward := v.toNat.testBit 15
           hartctlNum := BitVec.ofNat 13 (fieldOf v 0 13) }

/-- What a write of HARTCTL with a start or a stop leaves where R63 allows it. -/
def hartctlDone (s : State) (v : Word) (start : Bool) : State :=
  if start = true then startHart (hartctlStored s v) (hartctlHart v) (BitVec.ofNat 2 (fieldOf v 16 2))
  else if (hart s (hartctlHart v)).started = true then
    onHart (hartctlStored s v) (hartctlHart v) fun x => { x with stopReq := true }
  else hartctlStored s v

theorem namedBy_eq (v : Word) : namedBy (v.toNat.testBit 15) (fieldOf v 0 13) =
    if (if v.toNat.testBit 15 = true then fieldOf v 0 13 < 40 else fieldOf v 0 13 < 5120) then some (hartctlHart v)
    else none := by
  unfold namedBy hartctlHart
  split <;> rfl

theorem ofNat_fieldOf_eq_three (v : Word) (lo : Nat) : BitVec.ofNat 2 (fieldOf v lo 2) = 3 ↔ fieldOf v lo 2 = 3 := by
  rw [← BitVec.toNat_inj, BitVec.toNat_ofNat, fieldOf, Nat.mod_mod]
  rfl

/-- A write of HARTCTL with a start or a stop, by whether R63 allows it. -/
theorem writeHartctl_eq {s : State} {v : Word} {start : Bool} (hop : fieldOf v 62 2 = if start = true then 1 else 2) :
    (HartctlLegal s v start → writeHartctl s v = some (hartctlDone s v start)) ∧
      (¬HartctlLegal s v start → writeHartctl s v = none) := by
  unfold writeHartctl HartctlLegal hartctlDone hartctlStored
  simp only [bits_eq_fieldOf, bit, Nat.reduceSub, Nat.reduceAdd, namedBy_eq, hop, ofNat_fieldOf_eq_three]
  by_cases hnamed : if v.toNat.testBit 15 = true then fieldOf v 0 13 < 40 else fieldOf v 0 13 < 5120
  · rw [if_pos hnamed]
    cases start with
    | true => simp [hnamed]
    | false => simp [hnamed]
  · rw [if_neg hnamed]
    exact ⟨fun h => absurd h.1 hnamed, fun _ => rfl⟩

/-- The event of a start or a stop writes HARTCTL with its OP. -/
def hartctlWord (v : Word) (start : Bool) : Word := putBits v 62 2 (if start = true then 1 else 2)

theorem fieldOf_hartctlWord (v : Word) (start : Bool) : fieldOf (hartctlWord v start) 62 2 = if start = true then 1 else 2 :=
  fieldOf_putBits_same v (by decide) (by cases start <;> decide)

theorem hartctlHart_hartctlWord (v : Word) (start : Bool) : hartctlHart (hartctlWord v start) = hartctlHart v := by
  unfold hartctlHart hartctlWord
  rw [fieldOf_putBits_other v _ (by decide), ← bit, bit_putBits_other v _ (by decide)]

theorem hartctlStored_hartctlWord (s : State) (v : Word) (start : Bool) :
    hartctlStored s (hartctlWord v start) = hartctlStored s v := by
  unfold hartctlStored hartctlWord
  rw [fieldOf_putBits_other v _ (by decide), fieldOf_putBits_other v _ (by decide), ← bit,
    bit_putBits_other v _ (by decide)]

theorem hartctlLegal_hartctlWord (s : State) (v : Word) (start : Bool) :
    HartctlLegal s (hartctlWord v start) start ↔ HartctlLegal s v start := by
  unfold HartctlLegal
  rw [hartctlHart_hartctlWord]
  unfold hartctlWord
  rw [fieldOf_putBits_other v _ (by decide), fieldOf_putBits_other v _ (by decide), ← bit,
    bit_putBits_other v _ (by decide)]

theorem hartctlDone_hartctlWord (s : State) (v : Word) (start : Bool) :
    hartctlDone s (hartctlWord v start) start = hartctlDone s v start := by
  unfold hartctlDone
  rw [hartctlStored_hartctlWord, hartctlHart_hartctlWord]
  unfold hartctlWord
  rw [fieldOf_putBits_other v _ (by decide)]

/-- The event of a start or a stop. -/
def hartctlEvent (v : Word) (start : Bool) : Instr := if start = true then .hartctlStart v else .hartctlStop v

theorem exec_hartctlEvent (s : State) (v : Word) (start : Bool) :
    exec (hartctlEvent v start) s = .next ((writeHartctl s (hartctlWord v start)).getD s) := by
  cases start <;> rfl

theorem hartctlEvent_illegal {s : State} {v : Word} {start : Bool} (h : ¬HartctlLegal s v start) :
    Becomes (hartctlEvent v start) s s := by
  rw [Becomes, exec_hartctlEvent,
    (writeHartctl_eq (fieldOf_hartctlWord v start)).2 (mt (hartctlLegal_hartctlWord s v start).1 h)]
  rfl

theorem hartctlEvent_legal {s : State} {v : Word} {start : Bool} (h : HartctlLegal s v start) :
    Becomes (hartctlEvent v start) s (hartctlDone s v start) := by
  rw [Becomes, exec_hartctlEvent,
    (writeHartctl_eq (fieldOf_hartctlWord v start)).1 ((hartctlLegal_hartctlWord s v start).2 h), hartctlDone_hartctlWord]
  rfl

/-- The hart that a start leaves at HARTPC (R36, R398). -/
def startedHart (s : State) (m : BitVec 2) (x : Hart) : Hart :=
  { x with started := true, stopped := false, stopReq := false, wait := none
           pc := s.hartpc, mode := modeOfCode m, mon := { x.mon with traps := [] }, loops := [], body := none }

/-- Settling a number that waits changes nothing but it and the register. -/
theorem settleMonhart_eq (s : State) (h : Nat) : settleMonhart s h = { s with
    monhart := (settleMonhart s h).monhart, newMonhart := (settleMonhart s h).newMonhart } := by
  unfold settleMonhart
  split
  · split <;> rfl
  · rfl

/-- A number that waits takes effect at a hart that handles no monitor trap any more (log 114). -/
theorem settleMonhart_numbers {s : State} {h : Nat} (hx : (hart s h).mon.traps = []) :
    ((settleMonhart s h).monhart, (settleMonhart s h).newMonhart) = (match s.newMonhart with
      | some (w, depth, m) => if w = h ∧ 0 < depth then (m, none) else (s.monhart, s.newMonhart)
      | none => (s.monhart, none)) := by
  unfold settleMonhart
  cases hnew : s.newMonhart with
  | none => simp only [hnew]
  | some p =>
    obtain ⟨w, depth, m⟩ := p
    simp only [hx, List.length_nil]
    split
    · rfl
    · exact congrArg (Prod.mk s.monhart) hnew

/-- A start of a hart of an island of a function. -/
theorem startHart_assigned {s : State} {h : Nat} (m : BitVec 2) (hp : partOf s h ≠ none) :
    startHart s h m = settleMonhart (onHart s h (startedHart s m)) h :=
  if_neg (by simpa using hp)

theorem startHart_unassigned {s : State} {h : Nat} (m : BitVec 2) (hp : partOf s h = none) : startHart s h m = s :=
  if_pos (by simp [hp])

theorem modeOfCode_eq {v : Word} (h3 : fieldOf v 16 2 ≠ 3) : modeOfCode (BitVec.ofNat 2 (fieldOf v 16 2)) =
    if fieldOf v 16 2 = 0 then .user else if fieldOf v 16 2 = 1 then .supervisor else .monitor := by
  have hlt : fieldOf v 16 2 < 4 := Nat.mod_lt _ (by decide)
  generalize fieldOf v 16 2 = n at h3 hlt
  obtain rfl | rfl | rfl : n = 0 ∨ n = 1 ∨ n = 2 := by omega
  · rfl
  · rfl
  · rfl

/-- A number waits on where nothing settles it. -/
theorem monhart_kept (s : State) {P : Nat → Nat → Prop} [∀ w d, Decidable (P w d)] (hP : ∀ w d, ¬P w d) :
    (s.monhart, s.newMonhart) = (match s.newMonhart with
      | some (w, depth, m) => if P w depth then (m, none) else (s.monhart, s.newMonhart)
      | none => (s.monhart, none)) := by
  cases s.newMonhart with
  | none => rfl
  | some p => exact (if_neg (hP p.1 p.2.1)).symm

/-- What the write of a start or a stop leaves, field by field. -/
theorem hartctlDone_leaves {s : State} {v : Word} {start : Bool} (hl : HartctlLegal s v start) :
    let t := hartctlDone s v start
    let h := hartctlHart v
    t = { s with harts := t.harts, hartctlMode := BitVec.ofNat 2 (fieldOf v 16 2), hartctlSteward := v.toNat.testBit 15
                 hartctlNum := BitVec.ofNat 13 (fieldOf v 0 13), monhart := t.monhart, newMonhart := t.newMonhart } ∧
    (t.monhart, t.newMonhart) = (match s.newMonhart with
      | some (w, depth, m) => if start = true ∧ partOf s h ≠ none ∧ w = h ∧ 0 < depth then (m, none)
        else (s.monhart, s.newMonhart)
      | none => (s.monhart, none)) ∧ (∀ k, k ≠ h → hart t k = hart s k) ∧
    hart t h = (if start = true then
        (if partOf s h = none then hart s h
        else { hart s h with started := true, stopped := false, stopReq := false, wait := none, pc := s.hartpc
                             mon := { (hart s h).mon with traps := [] }, loops := [], body := none
                             mode := if fieldOf v 16 2 = 0 then .user else if fieldOf v 16 2 = 1 then .supervisor else .monitor })
      else if (hart s h).started = true then { hart s h with stopReq := true } else hart s h) := by
  intro t h
  cases start with
  | false =>
    by_cases hst : (hart s h).started = true
    · have ht : t = onHart (hartctlStored s v) h fun x => { x with stopReq := true } := by
        exact (if_neg Bool.false_ne_true).trans (if_pos hst)
      rw [ht]
      refine ⟨rfl, monhart_kept s fun w d hw => absurd hw.1 Bool.false_ne_true, fun k hk => hart_onHart_other _ h k _ hk, ?_⟩
      · rw [hart_onHart_same, if_neg Bool.false_ne_true, if_pos hst]
        rfl
    · have ht : t = hartctlStored s v := (if_neg Bool.false_ne_true).trans (if_neg hst)
      rw [ht]
      refine ⟨rfl, monhart_kept s fun w d hw => absurd hw.1 Bool.false_ne_true, fun k hk => rfl, ?_⟩
      · rw [if_neg Bool.false_ne_true, if_neg hst]
        rfl
  | true =>
    by_cases hp : partOf s h = none
    · have ht : t = hartctlStored s v := (if_pos rfl).trans (startHart_unassigned _ hp)
      rw [ht]
      refine ⟨rfl, monhart_kept s fun w d hw => absurd hp hw.2.1, fun k hk => rfl, ?_⟩
      · rw [if_pos rfl, if_pos hp]
        rfl
    · let u := onHart (hartctlStored s v) h (startedHart s (BitVec.ofNat 2 (fieldOf v 16 2)))
      have ht : t = settleMonhart u h := (if_pos rfl).trans (startHart_assigned _ hp)
      have hx : (hart u h).mon.traps = [] := by rw [hart_onHart_same]; rfl
      have hharts : (settleMonhart u h).harts = u.harts := by rw [settleMonhart_eq]
      rw [ht]
      refine ⟨?_, ?_, fun k hk => ?_, ?_⟩
      · rw [hharts]
        exact settleMonhart_eq u h
      · rw [settleMonhart_numbers hx]
        simp only [true_and, ne_eq, hp, not_false_eq_true]
        rfl
      · rw [settleMonhart_eq]
        exact hart_onHart_other _ h k _ hk
      · rw [if_pos rfl, if_neg hp, ← modeOfCode_eq hl.2.1, settleMonhart_eq]
        exact hart_onHart_same _ h _

/-- SETSR and SWAPSR of HARTCTL do what the event does. -/
theorem hartctl_written {s : State} {j : Instr} {a d : Reg} {old : Word} (h : MayWrite s j 0x805 a d old) {start : Bool}
    (hop : fieldOf (rx s a) 62 2 = if start = true then 1 else 2) :
    (¬HartctlLegal s (rx s a) start → Completes j s fun t => Trapped s t 0x65 (leadWord j)) ∧
      (HartctlLegal s (rx s a) start → Completes j s fun t =>
        WroteHart (hartctlDone s (rx s a) start) t d old (me (hartctlDone s (rx s a) start))) := by
  obtain ⟨hlegal, hillegal⟩ := writeHartctl_eq (s := s) hop
  exact ⟨fun hl => h.completes_of_trap (congrArg orIllegal (hillegal hl)),
    fun hl => h.wroteHart_of_ok (congrArg orIllegal (hlegal hl))⟩

/-- A hart that is asked to stop does so once its queues are empty. -/
theorem drained_iff (x : Hart) : drained x = true ↔
    x.vq = [] ∧ x.flight = none ∧ x.sdest = none ∧ x.mq = [] ∧ x.castMask = none := by
  simp only [drained, Bool.and_eq_true, List.isEmpty_iff, Option.isNone_iff_eq_none, and_assoc]

theorem hartStop_eq (s : State) (h : Nat) : exec (.hartStop h) s = .next
    (if (hart s h).started = true ∧ (hart s h).stopReq = true ∧ (hart s h).vq = [] ∧ (hart s h).flight = none ∧
        (hart s h).sdest = none ∧ (hart s h).mq = [] ∧ (hart s h).castMask = none
      then onHart s h fun x => { x with started := false, stopped := true, stopReq := false, wait := none } else s) := by
  change execHartStop h s = _
  simp only [execHartStop, Bool.and_eq_true, drained_iff, and_assoc]
  split <;> rfl

/-! ### MONHART (R63, log 83) -/

theorem handling_iff (m : MonTrap) : m.handling = true ↔ m.traps ≠ [] := by
  simp [MonTrap.handling]

theorem writeMonhart_illegal (s : State) (writer : Nat) {v : Word} (h : 40 ≤ fieldOf v 0 6) :
    writeMonhart s writer v = none := if_pos h

/-- The number that waits until hart h has returned from the monitor trap it handles. -/
def monhartLater (s : State) (h : Nat) (v : Word) : State :=
  { s with newMonhart := some (h, (hart s h).mon.traps.length, BitVec.ofNat 6 (fieldOf v 0 6)) }

/-- The number in the place of MONHART. -/
def monhartNow (s : State) (v : Word) : State :=
  { s with monhart := BitVec.ofNat 6 (fieldOf v 0 6), newMonhart := none }

theorem writeMonhart_monitorHandles {s : State} (writer : Nat) {v : Word} (hn : fieldOf v 0 6 < 40)
    (hm : (hart s (monitorHart s)).mon.traps ≠ []) :
    writeMonhart s writer v = some (monhartLater s (monitorHart s) v) := by
  have hh : handlingHart s writer = some (monitorHart s) := if_pos ((handling_iff _).2 hm)
  refine (if_neg (Nat.not_le.2 hn)).trans ?_
  rw [hh]
  rfl

theorem writeMonhart_writerHandles {s : State} {writer : Nat} {v : Word} (hn : fieldOf v 0 6 < 40)
    (hm : (hart s (monitorHart s)).mon.traps = []) (hw : (hart s writer).mon.traps ≠ []) :
    writeMonhart s writer v = some (monhartLater s writer v) := by
  have hh : handlingHart s writer = some writer :=
    (if_neg (mt (handling_iff _).1 (not_not.2 hm))).trans (if_pos ((handling_iff _).2 hw))
  refine (if_neg (Nat.not_le.2 hn)).trans ?_
  rw [hh]
  rfl

theorem writeMonhart_noneHandles {s : State} {writer : Nat} {v : Word} (hn : fieldOf v 0 6 < 40)
    (hm : (hart s (monitorHart s)).mon.traps = []) (hw : (hart s writer).mon.traps = []) :
    writeMonhart s writer v = some (monhartNow s v) := by
  have hh : handlingHart s writer = none :=
    (if_neg (mt (handling_iff _).1 (not_not.2 hm))).trans (if_neg (mt (handling_iff _).1 (not_not.2 hw)))
  refine (if_neg (Nat.not_le.2 hn)).trans ?_
  rw [hh]
  rfl

theorem exec_monhartWrite (s : State) (v : Word) :
    exec (.monhartWrite v) s = .next ((writeMonhart s (monitorHart s) v).getD s) := rfl

/-- Settles O31: a start or stop by event and by SETSR or SWAPSR, the stop at the hart's boundary, and MONHART. -/
theorem hartControl : Obligations.HartControl := by
  refine ⟨fun s v start => ?_, fun s h => ?_, fun s v => ?_⟩
  · intro num steward h i legal
    refine ⟨hartctlEvent_illegal, fun hl => ⟨_, hartctlEvent_legal hl, hartctlDone_leaves hl⟩, ?_⟩
    rintro j a d old hw hmode htask rfl hop
    have hm : MayWrite s j 0x805 a d old :=
      ⟨settled_of_noTask htask, hw, by rw [hmode]; decide, rfl, by decide, by decide⟩
    obtain ⟨hbad, hgood⟩ := hartctl_written hm hop
    refine ⟨hbad, fun hl u hu => ?_⟩
    obtain rfl : hartctlDone s (rx s a) start = u := by
      simpa [Becomes] using (hartctlEvent_legal hl).symm.trans hu
    exact hgood hl
  · intro x empty
    refine ⟨fun hc => ⟨_, (hartStop_eq s h).trans (by rw [if_pos hc]), rfl, hart_onHart_same s h _,
      fun k hk => hart_onHart_other s h k _ hk⟩, fun hc => (hartStop_eq s h).trans (by rw [if_neg hc])⟩
  · intro later
    refine ⟨fun hn => ?_, fun hn hm => ?_, fun hn hm => ?_⟩
    · rw [Becomes, exec_monhartWrite, writeMonhart_illegal s _ hn]
      rfl
    · rw [Becomes, exec_monhartWrite, writeMonhart_noneHandles hn hm hm]
      rfl
    · rw [Becomes, exec_monhartWrite, writeMonhart_monitorHandles _ hn hm]
      rfl

/-! ### PARTTAG, HARTPC, KEYCTL and FWCTL (R63, R266, R274) -/

/-- Another hart of the island runs while PARTTAG is written. -/
theorem parttagBusy_iff (s : State) (writer n : Nat) :
    (((List.range 256).map (256 * n + ·)).any fun h => h != writer && (hart s h).started) = true ↔
      ∃ h, h / 256 = n ∧ h ≠ writer ∧ (hart s h).started = true := by
  simp only [List.any_map, List.any_eq_true, List.mem_range, Function.comp_apply, Bool.and_eq_true, bne_iff_ne]
  constructor
  · rintro ⟨k, hk, hne, hs⟩
    exact ⟨_, by omega, hne, hs⟩
  · rintro ⟨h, hn, hne, hs⟩
    have hh : 256 * n + h % 256 = h := by omega
    exact ⟨h % 256, Nat.mod_lt _ (by decide), hh.symm ▸ hne, hh.symm ▸ hs⟩

theorem parttagReserved_iff (n : Nat) : 4 ≤ n ∧ n ≤ 6 ↔ n ∈ [4, 5, 6] := by
  simp only [List.mem_cons, List.not_mem_nil, or_false]
  omega

theorem writeParttag_refused {s : State} {writer n : Nat} {v : Word}
    (h : fieldOf v 0 3 ∈ [4, 5, 6] ∨ ∃ k, k / 256 = n ∧ k ≠ writer ∧ (hart s k).started = true) :
    writeParttag s writer n v = none :=
  if_pos (h.imp (parttagReserved_iff _).2 (parttagBusy_iff s writer n).2)

theorem writeParttag_written {s : State} {writer n : Nat} {v : Word} (hn : n < 20) (ht : fieldOf v 0 3 ∉ [4, 5, 6])
    (hb : ¬∃ k, k / 256 = n ∧ k ≠ writer ∧ (hart s k).started = true) :
    writeParttag s writer n v = some { s with tags := s.tags.set n (BitVec.ofNat 3 (fieldOf v 0 3)) hn } :=
  (if_neg (not_or.2 ⟨mt (parttagReserved_iff _).1 ht, mt (parttagBusy_iff s writer n).1 hb⟩)).trans (dif_pos hn)

/-- What KEYCTL's write leaves where its OP suits the key's state. -/
theorem writeKeyctl_suits {s : State} {v : Word} (h : fieldOf v 2 2 = 0 ∨ fieldOf v 2 2 = 3 ∨
      (fieldOf v 2 2 = 1 ∧ s.keyState = 0) ∨ (fieldOf v 2 2 = 2 ∧ s.keyState = 1)) :
    writeKeyctl s v = { s with
      keyAddr := BitVec.ofNat 40 (fieldOf v 12 40)
      keyState := if fieldOf v 2 2 = 1 then 1 else if fieldOf v 2 2 = 2 then 2 else s.keyState
      keyHash := if fieldOf v 2 2 = 1 then Config.keyHash (memReadBytes s.mem (fieldOf v 12 40 * 4096) 4096)
        else s.keyHash } := by
  simp only [writeKeyctl, bits_eq_fieldOf, Nat.reduceSub, Nat.reduceAdd]
  obtain h0 | h3 | ⟨h1, hk⟩ | ⟨h2, hk⟩ := h
  · simp [h0]
  · simp [h3]
  · simp [h1, hk]
  · simp [h2, hk]

theorem writeKeyctl_ignored {s : State} {v : Word} (h : (fieldOf v 2 2 = 1 ∧ s.keyState ≠ 0) ∨
    (fieldOf v 2 2 = 2 ∧ s.keyState ≠ 1)) : writeKeyctl s v = s := by
  obtain ⟨h1, hk⟩ | ⟨h2, hk⟩ := h
  · exact (if_pos h1).trans (if_neg hk)
  · have h1 : fieldOf v 2 2 ≠ 1 := by omega
    exact (if_neg h1).trans ((if_pos h2).trans (if_neg hk))

theorem writeFwctl_ignored {s : State} {v : Word} (h : fieldOf v 2 2 ≠ 0) (hf : s.fwState = 1) :
    writeFwctl s v = s := if_pos ⟨h, hf⟩

theorem writeFwctl_written {s : State} {v : Word} (h : fieldOf v 2 2 = 0 ∨ s.fwState ≠ 1) : writeFwctl s v = { s with
    fwAddr := BitVec.ofNat 40 (fieldOf v 12 40), fwState := if fieldOf v 2 2 = 1 ∨ fieldOf v 2 2 = 2 then 1 else s.fwState
    fwOp := if fieldOf v 2 2 = 1 ∨ fieldOf v 2 2 = 2 then fieldOf v 2 2 else s.fwOp } := by
  have hno : ¬(fieldOf v 2 2 ≠ 0 ∧ s.fwState = 1) := by tauto
  refine (if_neg hno).trans ?_
  by_cases hop : fieldOf v 2 2 = 1 ∨ fieldOf v 2 2 = 2
  · rw [if_pos hop, if_pos hop]
    exact if_pos hop
  · rw [if_neg hop, if_neg hop]
    exact if_neg hop

/-! ### The return that settles a MONHART write (R63, R398) -/

/-- Leaving what an interrupt set aside changes no register of the monitor's place, in a hart that runs no task. -/
theorem leaveAside_numbers {s : State} (ht : (me s).task = none) :
    (leaveAside s).monhart = s.monhart ∧ (leaveAside s).newMonhart = s.newMonhart := by
  have hnone : taskAt s s.cur = none := by rw [taskAt, show (hart s s.cur).task = none from ht]
  unfold leaveAside
  split
  · rw [hnone]
    split <;> exact ⟨rfl, rfl⟩
  · exact ⟨rfl, rfl⟩

theorem resumeConvoy_task (now : Nat) (h : Hart) : (resumeConvoy now h).task = h.task := by
  unfold resumeConvoy
  split <;> rfl

theorem resumeConvoy_mon (now : Nat) (h : Hart) : (resumeConvoy now h).mon = h.mon := by
  unfold resumeConvoy
  split <;> rfl

theorem resumeConvoy_mode (now : Nat) (h : Hart) : (resumeConvoy now h).mode = h.mode := by
  unfold resumeConvoy
  split <;> rfl

/-- The hart that a TRET from monitor mode returns, with the convoy that a late fault holds going on (R398). -/
def resumedHart (now : Nat) (h : Hart) : Hart :=
  if h.late = true then { resumeConvoy now h with late := false, vepc := 0 } else h

theorem resumedHart_keeps (now : Nat) (h : Hart) : (resumedHart now h).task = h.task ∧
    (resumedHart now h).mon = h.mon ∧ (resumedHart now h).mode = h.mode := by
  unfold resumedHart
  split
  · exact ⟨resumeConvoy_task now h, resumeConvoy_mon now h, resumeConvoy_mode now h⟩
  · exact ⟨rfl, rfl, rfl⟩

/-- A return from a monitor trap pops it. -/
theorem returnHart_ofMonitor {h : Hart} (hm : h.mode = .monitor) :
    (returnHart h).task = h.task ∧ (returnHart h).mon.traps = h.mon.traps.tail := by
  rw [returnHart, if_pos (by rw [hm]; rfl)]
  exact ⟨rfl, rfl⟩

/-- TRET from a monitor trap, in a hart that runs no task, settles the number that waits for it. -/
theorem execTret_settles {s : State} {m : BitVec 6} (ht : (me s).task = none) (hm : (me s).mode = .monitor)
    (hmon : (me s).mon.traps ≠ []) (hlate : (me s).late = true → (me s).heldConvoy ≠ none)
    (hnew : s.newMonhart = some (s.cur, (me s).mon.traps.length, m)) :
    Completes .tret s fun u => u.monhart = m ∧ u.newMonhart = none := by
  have hs : Settled s := settled_of_noTask ht
  let s1 := onMe s fun h => returnHart (resumedHart s.time h)
  obtain ⟨ktask, kmon, kmode⟩ := resumedHart_keeps s.time (me s)
  obtain ⟨rtask, rtraps⟩ := returnHart_ofMonitor (kmode.trans hm)
  have hme : me s1 = returnHart (resumedHart s.time (me s)) := me_onMe s _
  have hpop : (hart s1 s.cur).mon.traps.length < (me s).mon.traps.length := by
    rw [show hart s1 s.cur = _ from hme, rtraps, kmon, List.length_tail]
    exact Nat.sub_lt (List.length_pos_iff.2 hmon) Nat.one_pos
  have hsettled : settleMonhart s1 s.cur = { s1 with monhart := m, newMonhart := none } := by
    unfold settleMonhart
    rw [show s1.newMonhart = _ from hnew]
    exact if_pos ⟨rfl, hpop⟩
  have hrun : exec .tret s = .next (leaveAside (settleMonhart s1 s.cur)) := by
    change execTret s = _
    have hlate' : ¬((me s).late = true ∧ (me s).heldConvoy.isNone = true) := fun h =>
      hlate h.1 (Option.isNone_iff_eq_none.1 h.2)
    have hhandles : ¬((me s).mode = .monitor ∧ (!(me s).mon.handling) = true) := fun h => by
      rw [(handling_iff _).2 hmon] at h
      exact absurd h.2 Bool.false_ne_true
    simp only [execTret, irrevocably_settled hs]
    rw [if_neg (by rw [hm]; decide), if_neg hhandles, if_neg hlate', if_pos hm]
    rfl
  have htask : (me (settleMonhart s1 s.cur)).task = none := by
    rw [hsettled]
    exact (congrArg Hart.task hme).trans (rtask.trans (ktask.trans ht))
  obtain ⟨k1, k2⟩ := leaveAside_numbers htask
  refine ⟨_, hrun, k1.trans ?_, k2.trans ?_⟩
  · rw [hsettled]
  · rw [hsettled]

/-- Settles O29: each register's write by the value it has. -/
theorem monitorRegisters : Obligations.MonitorRegisters := by
  intro s i n0 a d old hmode htask hw v n done refused op busy later
  have hs : Settled s := settled_of_noTask htask
  have hm (n : BitVec 12) (h : n.toNat / 1024 = 2) : n.toNat / 1024 ≤ (me s).mode.code.toNat := by
    rw [hmode, h]
    decide
  refine ⟨?_, ?_, ?_, ?_, ?_, ?_, ?_, ?_, ?_, ?_⟩
  · rintro rfl hn
    have h : MayWrite s i 0x800 a d old := ⟨hs, hw, hm _ rfl, rfl, by decide, by decide⟩
    exact ⟨fun hr => h.completes_of_trap (congrArg orIllegal (writeParttag_refused hr)),
      fun ht hb => h.wroteHart_of_ok (congrArg orIllegal (writeParttag_written hn ht hb))⟩
  · rintro rfl hn
    have h : MayWrite s i 0x804 a d old := ⟨hs, hw, hm _ rfl, rfl, by decide, by decide⟩
    exact h.completes_of_trap (congrArg orIllegal (writeMonhart_illegal s _ hn))
  · rintro rfl hn hwriter hmonitor
    have h : MayWrite s i 0x804 a d old := ⟨hs, hw, hm _ rfl, rfl, by decide, by decide⟩
    exact h.wroteHart_of_ok (congrArg orIllegal (writeMonhart_noneHandles hn hmonitor hwriter))
  · rintro rfl hn hmonitor
    have h : MayWrite s i 0x804 a d old := ⟨hs, hw, hm _ rfl, rfl, by decide, by decide⟩
    exact h.wroteHart_of_ok (congrArg orIllegal (writeMonhart_monitorHandles _ hn hmonitor))
  · rintro rfl hn hwriter hplace hlate
    have h : MayWrite s i 0x804 a d old := ⟨hs, hw, hm _ rfl, rfl, by decide, by decide⟩
    have hwrite : writeMonhart s s.cur v = some (monhartLater s s.cur v) := by
      by_cases hmonitor : (hart s (monitorHart s)).mon.traps = []
      · exact writeMonhart_writerHandles hn hmonitor hwriter
      · have hcur : s.cur = monitorHart s := hplace.resolve_right hmonitor
        rw [writeMonhart_monitorHandles _ hn hmonitor, ← hcur]
    refine h.completes_of_ok (congrArg orIllegal hwrite) ⟨rfl, ?_⟩
    obtain ⟨-, -, hme⟩ := retireX_goesOn (monhartLater s s.cur v) d old
    refine execTret_settles ?_ ?_ ?_ ?_ ?_
    · rw [hme]
      exact htask
    · rw [hme]
      exact hmode
    · rw [hme]
      exact hwriter
    · rw [hme]
      exact hlate
    · rw [hme]
      rfl
  · rintro rfl
    have h : MayWrite s i 0x806 a d old := ⟨hs, hw, hm _ rfl, rfl, by decide, by decide⟩
    refine h.wroteHart_of_ok ?_
    rw [← alignedWord_eq]
    rfl
  · rintro rfl hop
    have h : MayWrite s i 0x802 a d old := ⟨hs, hw, hm _ rfl, rfl, by decide, by decide⟩
    exact h.wroteHart_of_ok (congrArg SrWrite.ok (writeKeyctl_suits hop))
  · rintro rfl hop
    have h : MayWrite s i 0x802 a d old := ⟨hs, hw, hm _ rfl, rfl, by decide, by decide⟩
    exact h.wroteHart_of_ok (congrArg SrWrite.ok (writeKeyctl_ignored hop))
  · rintro rfl hop hf
    have h : MayWrite s i 0x803 a d old := ⟨hs, hw, hm _ rfl, rfl, by decide, by decide⟩
    exact h.wroteHart_of_ok (congrArg SrWrite.ok (writeFwctl_ignored hop hf))
  · rintro rfl hop
    have h : MayWrite s i 0x803 a d old := ⟨hs, hw, hm _ rfl, rfl, by decide, by decide⟩
    exact h.wroteHart_of_ok (congrArg SrWrite.ok (writeFwctl_written hop))

end Sys2Proof.Machine

/-!
SUPPORT. STATUS: who owns the engine, what the moves of VS and MS wait for, and what they leave (02_state.md R54 to R56, R59;
08_translation.md R180).
-/
namespace Sys2Proof.Machine
open Sys2Proof.Claim

/-- The write clears a LATE that is set, which drops the held convoy (R180). -/
def dropsHeld (h : Hart) (v : Word) : Prop := h.late = true ∧ v.toNat.testBit 10 = false

/-- The hart that a write of STATUS begins with. -/
def statusBase (h : Hart) (v : Word) : Hart := if (h.late && !bit v 10) = true then dropHeld h else h

/-- The VS that is written. -/
def statusVs (v : Word) : BitVec 2 := BitVec.ofNat 2 (fieldOf v 4 2)
/-- The MS that is written; a steward hart's stays off. -/
def statusMs (s : State) (v : Word) : BitVec 2 := if 5120 ≤ s.cur then 0 else BitVec.ofNat 2 (fieldOf v 6 2)

theorem dropsHeld_iff (h : Hart) (v : Word) : (h.late && !bit v 10) = true ↔ dropsHeld h v := by
  simp [bit, dropsHeld]

theorem statusBase_of_drops {h : Hart} {v : Word} (hd : dropsHeld h v) : statusBase h v = dropHeld h :=
  if_pos ((dropsHeld_iff h v).2 hd)

theorem statusBase_of_keeps {h : Hart} {v : Word} (hd : ¬dropsHeld h v) : statusBase h v = h :=
  if_neg (mt (dropsHeld_iff h v).1 hd)

/-- Dropping a held convoy leaves the queues, the engine and whose it is. -/
theorem statusBase_keeps (h : Hart) (v : Word) : (statusBase h v).ms = h.ms ∧ (statusBase h v).vq = h.vq ∧
    (statusBase h v).flight = h.flight ∧ (statusBase h v).sdest = h.sdest ∧ (statusBase h v).mq = h.mq ∧
    (statusBase h v).castMask = h.castMask := by
  unfold statusBase
  split <;> exact ⟨rfl, rfl, rfl, rfl, rfl, rfl⟩

theorem statusBase_heldConvoy (h : Hart) (v : Word) :
    (statusBase h v).heldConvoy = none ↔ dropsHeld h v ∨ h.heldConvoy = none := by
  by_cases hd : dropsHeld h v
  · rw [statusBase_of_drops hd]
    exact ⟨fun _ => .inl hd, fun _ => rfl⟩
  · rw [statusBase_of_keeps hd]
    exact ⟨.inr, fun h => h.resolve_left hd⟩

/-- Another hart of the core owns the engine. -/
theorem engineTaken_iff (s : State) (h : Nat) : engineTaken s h = true ↔
    ∃ o ∈ hartsOn (coreOf h), o ≠ h ∧ (hart s o).ms ≠ 0 := by
  simp only [engineTaken, List.any_eq_true, Bool.and_eq_true, bne_iff_ne]

/-- A move between vector and matrix registers is queued. -/
theorem movesPending_iff (h : Hart) : movesPending h = true ↔
    ∃ e ∈ h.mq, (∃ d c r k, e.act = .toVector d c r k) ∨ ∃ c r o k, e.act = .toTile c r o k := by
  simp only [movesPending, List.any_eq_true]
  refine exists_congr fun e => and_congr_right fun _ => ?_
  split <;> simp_all

theorem vectorEmpty_statusBase (h : Hart) (v : Word) : vectorEmpty (statusBase h v) = true ↔
    h.vq = [] ∧ h.flight = none ∧ h.sdest = none ∧ (dropsHeld h v ∨ h.heldConvoy = none) := by
  obtain ⟨-, hvq, hflight, hsdest, -, -⟩ := statusBase_keeps h v
  simp only [vectorEmpty, Bool.and_eq_true, List.isEmpty_iff, Option.isNone_iff_eq_none, hvq, hflight, hsdest,
    statusBase_heldConvoy, and_assoc]

theorem movesPending_statusBase (h : Hart) (v : Word) : movesPending (statusBase h v) = movesPending h := by
  obtain ⟨-, -, -, -, hmq, -⟩ := statusBase_keeps h v
  simp only [movesPending, hmq]

theorem matrixEmpty_statusBase (h : Hart) (v : Word) :
    matrixEmpty (statusBase h v) = true ↔ h.mq = [] ∧ h.castMask = none := by
  obtain ⟨-, -, -, -, hmq, hcast⟩ := statusBase_keeps h v
  simp only [matrixEmpty, hmq, hcast, Bool.and_eq_true, List.isEmpty_iff, Option.isNone_iff_eq_none]

/-- The hart with the fields of STATUS written. -/
def statusHart (s : State) (v : Word) : Hart :=
  setVs (statusVs v) { statusBase (me s) v with
    late := v.toNat.testBit 10, ms := statusMs s v, pmode := pmodeOf (BitVec.ofNat 2 (fieldOf v 2 2))
    pie := v.toNat.testBit 1, ie := v.toNat.testBit 0 }

/-- What a write of STATUS leaves (R54 to R56). -/
def statusWritten (s : State) (v : Word) : State :=
  if statusMs s v = 1 then onCore (onMe s fun _ => statusHart s v) (coreOf s.cur) zeroMatrix
  else onMe s fun _ => statusHart s v

/-- A write of STATUS by what it takes and waits for. -/
theorem writeStatus_eq (s : State) (v : Word) : writeStatus s v =
    if (me s).ms = 0 ∧ statusMs s v ≠ 0 ∧ engineTaken s s.cur = true then .trap 0x66
    else if (statusVs v = 0 ∨ statusVs v = 1) ∧ (!vectorEmpty (statusBase (me s) v) ∨ movesPending (statusBase (me s) v)) then
      .wait .vqEmpty
    else if (statusMs s v = 0 ∨ statusMs s v = 1) ∧ !matrixEmpty (statusBase (me s) v) then .wait .mqEmpty
    else .ok (statusWritten s v) := by
  obtain ⟨hms, -⟩ := statusBase_keeps (me s) v
  have hmsv : statusMs s v = if isSteward s.cur = true then 0 else BitVec.ofNat 2 (bits v 7 6) := by
    simp only [isSteward, decide_eq_true_eq]
    rfl
  rw [← hms]
  unfold statusWritten statusHart
  rw [hmsv]
  rfl

theorem lt_two_iff (b : BitVec 2) : b.toNat < 2 ↔ b = 0 ∨ b = 1 := by
  revert b
  decide

/-! ### What the write leaves -/

theorem me_statusWritten (s : State) (v : Word) : me (statusWritten s v) = statusHart s v := by
  unfold statusWritten
  split
  · exact me_onMe s fun _ => statusHart s v
  · exact me_onMe s fun _ => statusHart s v

theorem hart_statusWritten_other (s : State) (v : Word) : HartsKeptBut s.cur s (statusWritten s v) := by
  intro k hk
  unfold statusWritten
  split
  · exact hart_onMe_other s k (fun _ => statusHart s v) hk
  · exact hart_onMe_other s k (fun _ => statusHart s v) hk

theorem statusWritten_eq (s : State) (v : Word) :
    statusWritten s v = { s with harts := (statusWritten s v).harts, cores := (statusWritten s v).cores } := by
  unfold statusWritten
  split <;> rfl

theorem core_statusWritten_initial {s : State} {v : Word} (hms : statusMs s v = 1) :
    Machine.core (statusWritten s v) (coreOf s.cur) = zeroMatrix (myCore s) := by
  rw [statusWritten, if_pos hms]
  exact core_onCore_same _ _ _

theorem core_statusWritten_kept {s : State} {v : Word} {k : Nat} (h : k ≠ coreOf s.cur ∨ statusMs s v ≠ 1) :
    Machine.core (statusWritten s v) k = Machine.core s k := by
  unfold statusWritten
  by_cases hms : statusMs s v = 1
  · rw [if_pos hms]
    exact core_onCore_other _ _ k _ (h.resolve_right (not_not.2 hms))
  · rw [if_neg hms]
    rfl

theorem pmodeOf_eq (v : Word) : pmodeOf (BitVec.ofNat 2 (fieldOf v 2 2)) =
    if fieldOf v 2 2 = 3 then 1 else BitVec.ofNat 2 (fieldOf v 2 2) := by
  unfold pmodeOf
  simp only [ofNat_fieldOf_eq_three]

/-- The fields of the hart that a write of STATUS leaves. -/
theorem statusHart_eq (s : State) (v : Word) (dropped : Prop) [Decidable dropped] (hd : dropped ↔ dropsHeld (me s) v) :
    let vs := statusVs v
    statusHart s v = { me s with
      ie := v.toNat.testBit 0, pie := v.toNat.testBit 1, vs := vs, ms := statusMs s v, late := v.toNat.testBit 10
      pmode := if fieldOf v 2 2 = 3 then 1 else BitVec.ofNat 2 (fieldOf v 2 2)
      badV := if vs = 1 then 0 else (me s).badV
      v := if vs = 1 then Vector.replicate 32 0 else (me s).v, k := if vs = 1 then Vector.replicate 8 0 else (me s).k
      groups := if vs = 0 then 0 else (me s).groups, lanes := if vs = 0 then 0 else (me s).lanes
      regs := if vs = 0 then 0 else (me s).regs, ew := if vs = 0 then 0 else (me s).ew
      vl := if vs = 0 then 0 else (me s).vl, vlmax := if vs = 0 then 0 else (me s).vlmax
      vlSeq := if vs = 0 then (me s).vlSeq + 1 else (me s).vlSeq
      heldAdvance := if dropped then 0 else (me s).heldAdvance
      heldConvoy := if dropped then none else (me s).heldConvoy, vstart := if dropped then 0 else (me s).vstart
      vepc := if dropped then 0 else (me s).vepc
      instret := (me s).instret - BitVec.ofNat 64 (if dropped then (me s).heldConvoy.elim 0 (·.members.length) else 0) } := by
  intro vs
  unfold statusHart setVs
  rw [pmodeOf_eq]
  change (if vs = 0 then _ else if vs = 1 then _ else _) = _
  by_cases hdrop : dropped
  · rw [statusBase_of_drops (hd.1 hdrop)]
    simp only [if_pos hdrop]
    by_cases h0 : vs = 0
    · simp only [h0, if_true]
      rfl
    · by_cases h1 : vs = 1
      · simp only [h1, if_true]
        rfl
      · simp only [h0, h1, if_false]
        rfl
  · rw [statusBase_of_keeps (mt hd.2 hdrop)]
    simp only [if_neg hdrop]
    have hsub : (me s).instret - BitVec.ofNat 64 0 = (me s).instret := BitVec.sub_zero _
    rw [hsub]
    by_cases h0 : vs = 0
    · simp only [h0, if_true]
      rfl
    · by_cases h1 : vs = 1
      · simp only [h1, if_true]
        rfl
      · simp only [h0, h1, if_false]
        rfl

/-- Settles O27: the write takes the engine, waits, or leaves the fields and what their moves change. -/
theorem statusWrites : Obligations.StatusWrites := by
  intro s i a d old hs hmode hw v vs ms taken moving dropped vEmpty mEmpty
  have h : MayWrite s i 0x400 a d old := ⟨hs, hw, supervisor_le hmode, rfl, by decide, by decide⟩
  have htaken : (me s).ms = 0 ∧ statusMs s v ≠ 0 ∧ engineTaken s s.cur = true ↔ taken := by
    rw [engineTaken_iff]
    exact Iff.rfl
  have hvector : (statusVs v = 0 ∨ statusVs v = 1) ∧
      ((!vectorEmpty (statusBase (me s) v)) = true ∨ movesPending (statusBase (me s) v) = true) ↔ vs.toNat < 2 ∧ ¬vEmpty := by
    rw [movesPending_statusBase, movesPending_iff, Bool.not_eq_true', Bool.eq_false_iff, ne_eq, vectorEmpty_statusBase,
      lt_two_iff]
    refine and_congr_right fun _ => ⟨fun hb he => hb.elim (fun hq => hq he.1) he.2, fun hb => ?_⟩
    by_cases hmove : moving
    · exact .inr hmove
    · exact .inl fun hq => hb ⟨hq, hmove⟩
  have hmatrix : (statusMs s v = 0 ∨ statusMs s v = 1) ∧ (!matrixEmpty (statusBase (me s) v)) = true ↔
      ms.toNat < 2 ∧ ¬mEmpty := by
    rw [Bool.not_eq_true', Bool.eq_false_iff, ne_eq, matrixEmpty_statusBase, lt_two_iff]
    exact Iff.rfl
  have hwrite : writeSr s (0x400#12).toNat d (rx s a) = _ := writeStatus_eq s v
  refine ⟨fun ht => ?_, fun ht hv he => ?_, fun ht hv hm he => ?_, fun ht hv hm => ?_⟩
  · exact h.completes_of_trap (hwrite.trans (if_pos (htaken.2 ht)))
  · exact h.completes_of_wait (hwrite.trans ((if_neg (mt htaken.1 ht)).trans (if_pos (hvector.2 ⟨hv, he⟩))))
  · exact h.completes_of_wait (hwrite.trans ((if_neg (mt htaken.1 ht)).trans
      ((if_neg fun hb => (hvector.1 hb).2 (hv (hvector.1 hb).1)).trans (if_pos (hmatrix.2 ⟨hm, he⟩)))))
  · have hok : writeSr s (0x400#12).toNat d (rx s a) = .ok (statusWritten s v) :=
      hwrite.trans ((if_neg (mt htaken.1 ht)).trans
        ((if_neg fun hb => (hvector.1 hb).2 (hv (hvector.1 hb).1)).trans
          (if_neg fun hb => (hmatrix.1 hb).2 (hm (hmatrix.1 hb).1))))
    obtain ⟨⟨-, hharts, -⟩, hx, hme⟩ := retireX_goesOn (statusWritten s v) d old
    have hcur : (statusWritten s v).cur = s.cur := by rw [statusWritten_eq]
    have hregs (r : Reg) : getX (statusHart s v) r = getX (me s) r := by rw [statusHart_eq s v dropped Iff.rfl]; rfl
    refine h.completes_of_ok hok ⟨?_, fun k hk => ?_, fun k hk => core_statusWritten_kept hk,
      fun h1 => core_statusWritten_initial h1, fun r => ?_, ?_⟩
    · exact congrArg (fun u : State => { u with harts := (retireX d old (statusWritten s v)).harts }) (statusWritten_eq s v)
    · exact (hharts k (hcur ▸ hk)).trans (hart_statusWritten_other s v k hk)
    · rw [hx, me_statusWritten, hregs]
    · rw [hme, me_statusWritten, statusHart_eq s v dropped Iff.rfl]
      rfl

end Sys2Proof.Machine

/-!
SUPPORT. Power-on, the key's and the firmware's registers, signed images and the election (02_state.md R36; 13_edges.md R272
to R276).
-/
namespace Sys2Proof.Machine
open Sys2Proof.Claim

/-! ### Keys and verifications begun (R273, R274) -/

theorem keyctlEnrol_eq (s : State) (v : Word) : exec (.keyctlEnrol v) s = .next (if s.keyState = 0 then
    { s with keyState := 1, keyAddr := BitVec.ofNat 40 (fieldOf v 12 40)
             keyHash := Config.keyHash (memReadBytes s.mem (fieldOf v 12 40 * 4096) 4096) } else s) := by
  have hop : fieldOf (putBits v 2 2 1) 2 2 = 1 := fieldOf_putBits_same v (by decide) (by decide)
  have haddr : fieldOf (putBits v 2 2 1) 12 40 = fieldOf v 12 40 := fieldOf_putBits_other v 1 (by decide)
  change (.next (writeKeyctl s (putBits v 2 2 1)) : Out) = _
  by_cases hk : s.keyState = 0
  · rw [if_pos hk, writeKeyctl_suits (.inr (.inr (.inl ⟨hop, hk⟩))), hop, haddr]
    rfl
  · rw [if_neg hk, writeKeyctl_ignored (.inl ⟨hop, hk⟩)]

theorem keyctlRevoke_eq (s : State) (v : Word) : exec (.keyctlRevoke v) s = .next (if s.keyState = 1 then
    { s with keyState := 2, keyAddr := BitVec.ofNat 40 (fieldOf v 12 40) } else s) := by
  have hop : fieldOf (putBits v 2 2 2) 2 2 = 2 := fieldOf_putBits_same v (by decide) (by decide)
  have haddr : fieldOf (putBits v 2 2 2) 12 40 = fieldOf v 12 40 := fieldOf_putBits_other v 2 (by decide)
  change (.next (writeKeyctl s (putBits v 2 2 2)) : Out) = _
  by_cases hk : s.keyState = 1
  · rw [if_pos hk, writeKeyctl_suits (.inr (.inr (.inr ⟨hop, hk⟩))), hop, haddr]
    rfl
  · rw [if_neg hk, writeKeyctl_ignored (.inr ⟨hop, hk⟩)]

/-- A FWCTL write with an operation begins a verification, unless one is under way. -/
theorem writeFwctl_begins (s : State) (v : Word) {op : Nat} (hop : op = 1 ∨ op = 2) :
    writeFwctl s (putBits v 2 2 op) = if s.fwState = 1 then s else
      { s with fwState := 1, fwOp := op, fwAddr := BitVec.ofNat 40 (fieldOf v 12 40) } := by
  have hput : fieldOf (putBits v 2 2 op) 2 2 = op := fieldOf_putBits_same v (by decide) (by omega)
  have haddr : fieldOf (putBits v 2 2 op) 12 40 = fieldOf v 12 40 := fieldOf_putBits_other v op (by decide)
  by_cases hf : s.fwState = 1
  · rw [if_pos hf, writeFwctl_ignored (by omega) hf]
  · rw [if_neg hf, writeFwctl_written (.inr hf), hput, haddr, if_pos hop, if_pos hop]

/-! ### Verifications that end (R272, R273) -/

theorem imageOk_iff (s : State) (signer : Signer) (security : Word32) : imageOk s signer security = true ↔
    signer = .brynkan ∧ max s.securityCounter.toNat ((Config.fwVer 0).toNat % 2 ^ 32) ≤ security.toNat := by
  simp only [imageOk, Bool.and_eq_true, beq_iff_eq, decide_eq_true_eq]
  rfl

theorem placementOk_iff (s : State) (signer : Signer) (security : Word32) : placementOk s signer security = true ↔
    (signer = .brynkan ∨ (s.keyState = 1 ∧ signer = .owner s.keyHash)) ∧
      max s.securityCounter.toNat ((Config.fwVer 0).toNat % 2 ^ 32) ≤ security.toNat := by
  simp only [placementOk, Bool.and_eq_true, Bool.or_eq_true, beq_iff_eq, decide_eq_true_eq]
  rfl

section
variable {s : State} {signer : Signer} {version security : Word32}

theorem imageVerifyDone_image (hf : s.fwState = 1) (hop : s.fwOp = 1) (hok : imageOk s signer security = true) :
    Becomes (.imageVerifyDone signer version security) s
      { s with fwState := 2, fwOp := 0, firmware := .image version security, flash := .image version security
               securityCounter := security } :=
  (if_pos hf).trans (if_pos ⟨hop, hok⟩)

theorem imageVerifyDone_placement (hf : s.fwState = 1) (hop : s.fwOp = 2) (hok : placementOk s signer security = true) :
    Becomes (.imageVerifyDone signer version security) s
      { s with fwState := 2, fwOp := 0, placements := s.placements + 1, securityCounter := security } := by
  have h1 : s.fwOp ≠ 1 := by omega
  exact (if_pos hf).trans ((if_neg fun h => h1 h.1).trans (if_pos ⟨h1, hok⟩))

theorem imageVerifyDone_rejected (hf : s.fwState = 1) (hno : (s.fwOp = 1 ∧ ¬imageOk s signer security = true) ∨
    (s.fwOp = 2 ∧ ¬placementOk s signer security = true)) :
    Becomes (.imageVerifyDone signer version security) s { s with fwState := 3, fwOp := 0 } := by
  refine (if_pos hf).trans ?_
  obtain ⟨hop, hno⟩ | ⟨hop, hno⟩ := hno
  · exact (if_neg fun h => hno h.2).trans (if_neg fun h => h.1 hop)
  · have h1 : s.fwOp ≠ 1 := by omega
    exact (if_neg fun h => h1 h.1).trans (if_neg fun h => hno h.2)

theorem imageVerifyDone_streamed (hf : s.fwState ≠ 1) (hfollows : s.election = .follower) (hgot : s.gotBlock = true) :
    exec (.imageVerifyDone signer version security) s = .next (streamedImage s signer version security) :=
  (if_neg hf).trans (if_pos ⟨hfollows, hgot⟩)

theorem imageVerifyDone_nothing (hf : s.fwState ≠ 1) (hno : s.election ≠ .follower ∨ s.gotBlock = false) :
    Becomes (.imageVerifyDone signer version security) s s := by
  refine (if_neg hf).trans (if_neg fun h => ?_)
  obtain hel | hgot := hno
  · exact hel h.1
  · rw [hgot] at h
    exact absurd h.2 Bool.false_ne_true

theorem streamedImage_ok (hok : imageOk s signer security = true) : streamedImage s signer version security =
    { s with firmware := .image version security, securityCounter := security, imageWhole := true } := if_pos hok

theorem streamedImage_rejected (hno : ¬imageOk s signer security = true) :
    streamedImage s signer version security = s := if_neg hno

end

/-! ### The best of the modules heard (R276) -/

/-- One module heard has a strictly better claim to lead than another. -/
def betterClaim (x y : Word × Nat × Bool) : Prop :=
  (x.2.2 = true ∧ y.2.2 = false) ∨ (x.2.2 = y.2.2 ∧ (y.2.1 < x.2.1 ∨ (x.2.1 = y.2.1 ∧ x.1.toNat < y.1.toNat)))

theorem betterClaim_irrefl (x : Word × Nat × Bool) : ¬betterClaim x x := by
  rintro (⟨h1, h2⟩ | ⟨-, h | ⟨-, h⟩⟩)
  · rw [h1] at h2
    cases h2
  · exact Nat.lt_irrefl _ h
  · exact Nat.lt_irrefl _ h

/-- What does not beat a module that does not beat another does not beat that other. -/
theorem not_betterClaim_trans {x y z : Word × Nat × Bool} (h1 : ¬betterClaim x y) (h2 : ¬betterClaim y z) :
    ¬betterClaim x z := by
  obtain ⟨xs, xt, xc⟩ := x
  obtain ⟨ys, yt, yc⟩ := y
  obtain ⟨zs, zt, zc⟩ := z
  simp only [betterClaim] at *
  cases xc <;> cases yc <;> cases zc <;> simp at * <;> omega

/-- The better of two is one that the other does not beat. -/
theorem betterLeader_cases (x y : Word × Nat × Bool) :
    (betterLeader x y = x ∧ ¬betterClaim y x) ∨ (betterLeader x y = y ∧ ¬betterClaim x y) := by
  obtain ⟨xs, xt, xc⟩ := x
  obtain ⟨ys, yt, yc⟩ := y
  simp only [betterLeader, betterClaim]
  by_cases hc : xc = yc
  · subst hc
    by_cases ht : xt = yt
    · subst ht
      by_cases hs : xs.toNat ≤ ys.toNat
      · left
        simp [hs]
      · right
        simp [hs]
        omega
    · rcases Nat.lt_or_gt_of_ne ht with hlt | hgt
      · right
        simp [ht, Nat.not_lt_of_gt hlt]
      · left
        simp [ht, hgt, Nat.not_lt_of_gt hgt, Ne.symm ht]
  · cases xc with
    | true =>
      obtain rfl : yc = false := by simpa using hc
      left
      simp
    | false =>
      obtain rfl : yc = true := by simpa using hc
      right
      simp

/-- The best of a list is of it, and nothing of it has a better claim. -/
theorem foldl_betterLeader (xs : List (Word × Nat × Bool)) (x : Word × Nat × Bool) :
    xs.foldl betterLeader x ∈ x :: xs ∧ ∀ y ∈ x :: xs, ¬betterClaim y (xs.foldl betterLeader x) := by
  induction xs generalizing x with
  | nil =>
    refine ⟨.head _, fun y hy => ?_⟩
    obtain rfl : y = x := by simpa using hy
    exact betterClaim_irrefl y
  | cons z xs ih =>
    obtain ⟨hmem, hbest⟩ := ih (betterLeader x z)
    rw [List.foldl_cons]
    have hhead : ¬betterClaim (betterLeader x z) (xs.foldl betterLeader (betterLeader x z)) := hbest _ (.head _)
    have hrest : ∀ y ∈ xs, ¬betterClaim y (xs.foldl betterLeader (betterLeader x z)) := fun y hy => hbest y (.tail _ hy)
    obtain ⟨heq, hz⟩ | ⟨heq, hx⟩ := betterLeader_cases x z
    · rw [heq] at hmem hhead hrest ⊢
      refine ⟨?_, ?_⟩
      · rcases List.mem_cons.1 hmem with h | h
        · exact List.mem_cons.2 (.inl h)
        · exact .tail _ (.tail _ h)
      · intro y hy
        rcases List.mem_cons.1 hy with rfl | hy
        · exact hhead
        · rcases List.mem_cons.1 hy with rfl | hy
          · exact not_betterClaim_trans hz hhead
          · exact hrest y hy
    · rw [heq] at hmem hhead hrest ⊢
      refine ⟨.tail _ hmem, ?_⟩
      intro y hy
      rcases List.mem_cons.1 hy with rfl | hy
      · exact not_betterClaim_trans hx hhead
      · rcases List.mem_cons.1 hy with rfl | hy
        · exact hhead
        · exact hrest y hy

/-- Whether the sender of a HELLO is the best leader heard goes by whether any module heard has a better claim. -/
theorem leaderOf_heard {s : State} {x : Word × Nat × Bool} {xs : List (Word × Nat × Bool)} (hs : s.heard = x :: xs)
    (hxs : ∀ y ∈ xs, y.1 ≠ x.1) :
    ((∀ y ∈ s.heard, y ≠ x → betterClaim x y) → (leaderOf s).any (·.1 == x.1) = true) ∧
      ((∃ y ∈ s.heard, betterClaim y x) → (leaderOf s).any (·.1 == x.1) = false) := by
  have hleader : leaderOf s = some (xs.foldl betterLeader x) := by rw [leaderOf, hs]
  obtain ⟨hmem, hbest⟩ := foldl_betterLeader xs x
  rw [hleader, Option.any_some, hs]
  constructor
  · intro hall
    by_cases hx : xs.foldl betterLeader x = x
    · rw [hx, beq_self_eq_true]
    · exact absurd (hall _ hmem hx) (hbest x (.head _))
  · rintro ⟨y, hy, hbetter⟩
    rcases List.mem_cons.1 hmem with hx | hx
    · exact absurd (hx.symm ▸ hbetter) (hbest y hy)
    · exact beq_eq_false_iff_ne.2 (hxs _ hx)

theorem outranks_iff (s : State) (x : Word × Nat × Bool) : outranks s x = true ↔
    s.term < x.2.1 ∨ (x.2.1 = s.term ∧ x.1.toNat < Config.serial.toNat) := by
  simp only [outranks, Bool.or_eq_true, Bool.and_eq_true, decide_eq_true_eq, beq_iff_eq]

/-! ### HELLO and the timeouts (R276) -/

/-- The modules heard, with the sender of a HELLO. -/
def helloHeard (s : State) (x : Word × Nat × Bool) : State := { s with heard := x :: s.heard.filter (·.1 != x.1) }

/-- A HELLO of the best leader heard puts off a re-election. -/
def helloPutsOff (s : State) (x : Word × Nat × Bool) : State :=
  if (leaderOf (helloHeard s x)).any (·.1 == x.1) = true then { helloHeard s x with lastHello := s.time }
  else helloHeard s x

theorem execHelloReceive_eq {s : State} {serial : Word} (term : Nat) (claims : Bool) (hself : serial ≠ Config.serial)
    (hroom : (∃ x ∈ s.heard, x.1 = serial) ∨ s.heard.length < 7) : exec (.helloReceive serial term claims) s =
      .next (let x := (serial, term, claims)
        if s.election = .leader ∧ claims = true ∧ outranks s x = true then
          { helloPutsOff s x with election := .follower, streamTo := [] }
        else if s.election = .leader then
          { helloPutsOff s x with streamTo := addNew (helloPutsOff s x).streamTo [serial] }
        else helloPutsOff s x) := by
  refine if_neg fun h => ?_
  obtain h | h := h
  · exact hself h
  · simp only [Bool.and_eq_true, Bool.not_eq_true', decide_eq_true_eq, List.any_eq_false, beq_iff_eq] at h
    obtain ⟨x, hx, rfl⟩ | hlen := hroom
    · exact h.1 x hx rfl
    · omega

/-- What a HELLO that puts off a re-election, or does not, leaves as it was. -/
theorem helloPutsOff_keeps (s : State) (x : Word × Nat × Bool) : (helloPutsOff s x).election = s.election ∧
    (helloPutsOff s x).streamTo = s.streamTo ∧ (helloPutsOff s x).heard = x :: s.heard.filter (·.1 != x.1) ∧
    helloPutsOff s x = { s with
      heard := x :: s.heard.filter (·.1 != x.1), lastHello := (helloPutsOff s x).lastHello } := by
  unfold helloPutsOff
  split <;> exact ⟨rfl, rfl, rfl, rfl⟩

theorem helloPutsOff_lastHello (s : State) (x : Word × Nat × Bool) :
    ((∀ y ∈ (helloHeard s x).heard, y ≠ x → betterClaim x y) → (helloPutsOff s x).lastHello = s.time) ∧
      ((∃ y ∈ (helloHeard s x).heard, betterClaim y x) → (helloPutsOff s x).lastHello = s.lastHello) := by
  have hothers : ∀ y ∈ s.heard.filter (·.1 != x.1), y.1 ≠ x.1 := fun y hy => by
    simpa using (List.mem_filter.1 hy).2
  obtain ⟨hbest, hnot⟩ := leaderOf_heard (s := helloHeard s x) rfl hothers
  unfold helloPutsOff
  constructor
  · intro h
    rw [if_pos (hbest h)]
  · intro h
    rw [hnot h, if_neg Bool.false_ne_true]
    rfl

/-- What a HELLO of another module leaves, by whether this module leads and whether it yields. -/
theorem helloReceive_leaves {s : State} {serial : Word} (term : Nat) (claims : Bool) (hself : serial ≠ Config.serial)
    (hroom : (∃ x ∈ s.heard, x.1 = serial) ∨ s.heard.length < 7) :
    let x := (serial, term, claims)
    let outranked := s.term < x.2.1 ∨ (x.2.1 = s.term ∧ x.1.toNat < Config.serial.toNat)
    Completes (.helloReceive serial term claims) s fun t =>
      t = { s with heard := x :: s.heard.filter (·.1 != serial), lastHello := t.lastHello, election := t.election
                   streamTo := t.streamTo } ∧
      ((∀ y ∈ t.heard, y ≠ x → betterClaim x y) → t.lastHello = s.time) ∧
      ((∃ y ∈ t.heard, betterClaim y x) → t.lastHello = s.lastHello) ∧
      (s.election = .leader ∧ claims = true ∧ outranked → t.election = .follower ∧ t.streamTo = []) ∧
      (s.election = .leader → ¬(claims = true ∧ outranked) → t.election = .leader ∧
        t.streamTo = if serial ∈ s.streamTo then s.streamTo else s.streamTo ++ [serial]) ∧
      (s.election ≠ .leader → t.election = s.election ∧ t.streamTo = s.streamTo) := by
  intro x outranked
  obtain ⟨kel, kstream, kheard, keq⟩ := helloPutsOff_keeps s x
  have htimes := helloPutsOff_lastHello s x
  rw [show (helloHeard s x).heard = (helloPutsOff s x).heard from kheard.symm] at htimes
  obtain ⟨hbest, hworse⟩ := htimes
  have hrun := execHelloReceive_eq term claims hself hroom
  have hout := outranks_iff s x
  by_cases hl : s.election = .leader
  · by_cases hy : claims = true ∧ outranked
    · have hyields : s.election = .leader ∧ claims = true ∧ outranks s x = true := ⟨hl, hy.1, hout.2 hy.2⟩
      refine ⟨_, hrun.trans (congrArg Host.Outcome.next (if_pos hyields)), ?_, hbest, hworse, fun _ => ⟨rfl, rfl⟩,
        fun _ h => absurd hy h, fun h => absurd hl h⟩
      exact congrArg (fun u : State => { u with election := .follower, streamTo := [] }) keq
    · have hstays : ¬(s.election = .leader ∧ claims = true ∧ outranks s x = true) := fun h => hy ⟨h.2.1, hout.1 h.2.2⟩
      refine ⟨_, hrun.trans (congrArg Host.Outcome.next ((if_neg hstays).trans (if_pos hl))), ?_, hbest, hworse,
        fun h => absurd h.2 hy, fun _ _ => ⟨kel.trans hl, ?_⟩, fun h => absurd hl h⟩
      · exact congrArg (fun u : State => { u with
          election := (helloPutsOff s x).election, streamTo := addNew (helloPutsOff s x).streamTo [serial] }) keq
      · rw [← kstream]
        rfl
  · have hstays : ¬(s.election = .leader ∧ claims = true ∧ outranks s x = true) := fun h => hl h.1
    refine ⟨_, hrun.trans (congrArg Host.Outcome.next ((if_neg hstays).trans (if_neg hl))), ?_, hbest, hworse,
      fun h => absurd h.1 hl, fun h => absurd h hl, fun _ => ⟨kel, kstream⟩⟩
    exact congrArg (fun u : State => { u with
      election := (helloPutsOff s x).election, streamTo := (helloPutsOff s x).streamTo }) keq

theorem powerOnReset_eq (s : State) : exec .powerOnReset s = .next { State.reset with
    keyState := s.keyState, keyHash := s.keyHash, securityCounter := s.securityCounter, flash := s.flash
    firmware := if max s.securityCounter.toNat ((Config.fwVer 0).toNat % 2 ^ 32) ≤ (match s.flash with
      | .factory => (Config.fwVer 0).toNat % 2 ^ 32
      | .image _ x => x.toNat
      | .none => 0) then s.flash else .none
    failedStacks := s.failedStacks, inputs := s.inputs, free := s.free } := by
  have hsecurity : s.flash.security = (match s.flash with
      | .factory => (Config.fwVer 0).toNat % 2 ^ 32
      | .image _ x => x.toNat
      | .none => 0) := by
    cases s.flash <;> rfl
  rw [← hsecurity]
  rfl

/-- Settles O33: each event by the branch its conditions choose. -/
theorem powerAndImages : Obligations.PowerAndImages := by
  constructor
  · intro s signer version security v made counter inFlash ok okPlacement streams
    have hok : imageOk s signer security = true ↔ ok := imageOk_iff s signer security
    have hokp : placementOk s signer security = true ↔ okPlacement := placementOk_iff s signer security
    have hstreams {i : Instr} (h : exec i s = .next (streamedImage s signer version security)) : streams i := by
      refine ⟨fun hi => h.trans ?_, fun hi => h.trans ?_⟩
      · rw [streamedImage_ok (hok.2 hi)]
      · rw [streamedImage_rejected (mt hok.1 hi)]
    refine ⟨?_, keyctlEnrol_eq s v, keyctlRevoke_eq s v, ?_, ?_, fun hf hi hop => imageVerifyDone_image hf hop (hok.2 hi),
      fun hf hi hop => imageVerifyDone_placement hf hop (hokp.2 hi), fun hf hno => ?_,
      fun hf hfollows hgot => hstreams (imageVerifyDone_streamed hf hfollows hgot),
      fun hf hno => imageVerifyDone_nothing hf hno, hstreams rfl⟩
    · exact powerOnReset_eq s
    · exact congrArg (fun t => (.next t : Out)) (writeFwctl_begins s v (.inl rfl))
    · exact congrArg (fun t => (.next t : Out)) (writeFwctl_begins s v (.inr rfl))
    · exact imageVerifyDone_rejected hf (hno.imp (And.imp_right (mt hok.1)) (And.imp_right (mt hokp.1)))
  · intro s ms outranked better
    have hnext {i : Instr} {c : Prop} [Decidable c] {t : State} (hi : exec i s = .next (if c then t else s)) :
        (c → Becomes i s t) ∧ (¬c → Becomes i s s) :=
      ⟨fun hc => hi.trans (by rw [if_pos hc]), fun hc => hi.trans (by rw [if_neg hc])⟩
    obtain ⟨hsends, hsilent⟩ := hnext (i := .helloSend) rfl
    obtain ⟨hends, hgoes⟩ := hnext (i := .electionTimeout) rfl
    obtain ⟨htimes, hhears⟩ := hnext (i := .leaderSilenceTimeout) rfl
    obtain ⟨hgets, hleads⟩ := hnext (i := .imageBlockReceive) rfl
    obtain ⟨hstalls, hstreams⟩ := hnext (i := .imageBlockTimeout) rfl
    refine ⟨fun hp ht => ?_, fun hno => hsilent ?_, ?_, fun he ht => ⟨fun ho => ?_, fun ho => ?_⟩, fun hno => hgoes ?_,
      fun he hg ht h3 => ?_, fun l he hg ht h3 hl => ?_, fun hno => hhears ?_, hgets, hleads,
      fun he hg hw ht => hstalls ⟨he, hg, by rw [hw]; rfl, ht⟩, fun hno => hstreams ?_⟩
    · obtain ⟨p, hp, htrained⟩ := hp
      have hc : s.peers.any (·.2) = true ∧ s.hellosSent * ms ≤ s.time := ⟨List.any_eq_true.2 ⟨p, hp, htrained⟩, ht⟩
      exact hsends hc
    · rintro ⟨hany, ht⟩
      obtain ⟨p, hp, htrained⟩ := List.any_eq_true.1 hany
      obtain hnone | hlt := hno
      · exact absurd (htrained.symm.trans (hnone p hp)) (by decide)
      · exact absurd hlt (Nat.not_lt.2 ht)
    · intro serial term claims x hself hroom
      exact helloReceive_leaves term claims hself hroom
    · obtain ⟨x, hx, hout⟩ := ho
      refine (hends ⟨he, ht⟩).trans ?_
      rw [if_pos (List.any_eq_true.2 ⟨x, hx, (outranks_iff s x).2 hout⟩)]
    · refine (hends ⟨he, ht⟩).trans ?_
      rw [if_neg fun h => ?_]
      obtain ⟨x, hx, hout⟩ := List.any_eq_true.1 h
      exact ho x hx ((outranks_iff s x).1 hout)
    · rintro ⟨he, ht⟩
      exact hno.elim (fun h => h he) fun h => absurd h (Nat.not_lt.2 ht)
    · refine (htimes ⟨he, by rw [hg]; rfl, ht⟩).trans ?_
      rw [if_pos h3]
    · refine (htimes ⟨he, by rw [hg]; rfl, ht⟩).trans ?_
      have hleader : leaderOf s = some l := by rw [leaderOf, hl]; rfl
      have hothers : s.heard.filter (·.1 != l.1) = [] := by simp [hl]
      rw [if_neg (Nat.not_le.2 h3), hleader]
      simp only [hothers]
    · rintro ⟨he, hg, ht⟩
      rcases hno with h | h | h
      · exact h he
      · rw [h] at hg
        cases hg
      · exact absurd h (Nat.not_lt.2 ht)
    · rintro ⟨he, hg, hw, ht⟩
      rcases hno with h | h | h | h
      · exact h he
      · rw [h] at hg
        cases hg
      · rw [h] at hw
        cases hw
      · exact absurd h (Nat.not_lt.2 ht)

end Sys2Proof.Machine

/-!
SUPPORT. SETVL, the grant of lane groups and the resize of the scratchpad (02_state.md R59, R60; 05_vectors.md R100, R101;
18_reference_l_to_s.md R386).
-/
namespace Sys2Proof.Machine
open Sys2Proof.Claim

/-! ### The grant (R59, log 86) -/

/-- What SETVL asks for is the hart's LANEPART field, of the groups its core has. -/
theorem grantOf_eq (s : State) (h : Nat) : grantOf (Machine.core s (coreOf h)).lanepart h = laneFieldOf s h := by
  have hgroups : coreGroups (coreOf h) = if h < 5120 then 15 else 1 := by
    unfold coreGroups coreOf
    by_cases hh : h < 5120
    · rw [if_pos hh, if_pos hh, if_pos (by omega)]
    · rw [if_neg hh, if_neg hh, if_neg (by omega)]
  rw [grantOf, hgroups]
  rfl

theorem groupsFree_iff (s : State) (h : Nat) (g : BitVec 4) :
    groupsFree s h g = true ↔ ∀ o ∈ hartsOn (coreOf h), o ≠ h → (hart s o).groups &&& g = 0 := by
  simp only [groupsFree, List.all_eq_true, Bool.or_eq_true, beq_iff_eq]
  exact forall₂_congr fun o _ => Decidable.or_iff_not_imp_left

theorem vectorEmpty_iff (x : Hart) :
    vectorEmpty x = true ↔ x.vq = [] ∧ x.flight = none ∧ x.sdest = none ∧ x.heldConvoy = none := by
  simp only [vectorEmpty, Bool.and_eq_true, List.isEmpty_iff, Option.isNone_iff_eq_none, and_assoc]

/-- Nothing that a declaration changes is still in use. -/
theorem grantReady_iff (s : State) (h : Nat) (regs : BitVec 2) (g : BitVec 4) : grantReady s h regs g = true ↔
    (g ≠ (hart s h).groups ∨ regs ≠ (hart s h).regs → (hart s h).vq = [] ∧ (hart s h).flight = none ∧
      (hart s h).sdest = none ∧ (hart s h).heldConvoy = none ∧ movesPending (hart s h) = false) ∧
    (g ≠ (hart s h).groups → ∀ o ∈ hartsOn (coreOf h), o ≠ h → (hart s o).groups &&& g = 0) := by
  have hempty : (vectorEmpty (hart s h) && !movesPending (hart s h)) = true ↔ (hart s h).vq = [] ∧
      (hart s h).flight = none ∧ (hart s h).sdest = none ∧ (hart s h).heldConvoy = none ∧
      movesPending (hart s h) = false := by
    rw [Bool.and_eq_true, vectorEmpty_iff, Bool.not_eq_true']
    tauto
  simp only [grantReady, Bool.and_eq_true (_ || _), Bool.or_eq_true, hempty, groupsFree_iff, beq_iff_eq, Bool.and_eq_true (_ == _)]
  refine and_congr ?_ Decidable.or_iff_not_imp_left
  rw [Decidable.or_iff_not_imp_left, Decidable.not_and_iff_or_not]

/-! ### The declaration (R100, R101, R386) -/

theorem accBytes_eq (ew : Size) : accBytes ew = 2 ^ ew.code := by cases ew <;> rfl

/-- What becomes of the vector state at a declaration. -/
theorem redeclare_eq (g : BitVec 4) (regs : BitVec 2) (h : Hart) : redeclare g regs h = { h with
    v := if g ≠ h.groups ∨ regs ≠ h.regs then Vector.replicate 32 0 else h.v
    badV := if g ≠ h.groups ∨ regs ≠ h.regs then 0 else h.badV
    k := if g ≠ h.groups then Vector.replicate 8 0 else h.k
    vs := if g ≠ h.groups then 1 else if regs ≠ h.regs ∧ h.vs = 3 then 2 else h.vs, groups := g } := by
  unfold redeclare
  by_cases hg : g = h.groups
  · subst hg
    by_cases hr : regs = h.regs
    · simp [hr]
    · simp [hr]
  · simp [hg, zeroVector]

/-- What SETVL leaves of its hart. -/
theorem declare_eq (d : Reg) (avl : Word) (regs : BitVec 2) (ew : Size) (g : BitVec 4) (h : Hart) :
    retireHart 4 (declare d avl regs ew g h) = declared h d avl.toNat regs ew g := by
  unfold declare declared
  rw [redeclare_eq, accBytes_eq]
  by_cases hd : d = 0
  · simp only [setX, if_pos hd]
    rfl
  · simp only [setX, if_neg hd]
    rfl

/-! ### SETVL and the events -/

theorem onHart_changed (s : State) (h : Nat) (f : Hart → Hart) : ChangedHart s (onHart s h f) h (f (hart s h)) :=
  ⟨rfl, hart_onHart_same s h f, fun k hk => hart_onHart_other s h k f hk⟩

/-- A change of the acting hart that keeps its task leaves it as settled as it was. -/
theorem settled_onMe {s : State} {f : Hart → Hart} (hf : ∀ h, (f h).task = h.task) (hs : Settled s) : Settled (onMe s f) := by
  have htask : taskAt (onMe s f) (onMe s f).cur = taskAt s s.cur := by
    change (match (me (onMe s f)).task with | some u => taskOf s u | none => none) = _
    rw [me_onMe, hf]
    rfl
  rw [Settled, speculative, htask]
  exact hs

theorem exec_setvl (d a : Reg) (regs : BitVec 2) (ew : Size) (s : State) : exec (.setvl d a regs ew) s =
    if laneFieldOf s s.cur = 0 then .next (raise 0x0C (leadWord (.setvl d a regs ew)) (onMe s releaseGroups))
    else if (me s).vs = 0 then outTrap 0x61 (leadWord (.setvl d a regs ew)) s
    else if regs = 3 then outTrap 0x68 (leadWord (.setvl d a regs ew)) s
    else if grantReady s s.cur regs (laneFieldOf s s.cur) then
      .next (retire (onMe s (declare d (rx s a) regs ew (laneFieldOf s s.cur))))
    else .next (waitOn (.lane d (rx s a) regs ew (laneFieldOf s s.cur)) s) := by
  rw [← grantOf_eq]
  rfl

theorem retire_onMe_changed (s : State) (f : Hart → Hart) :
    ChangedHart s (retire (onMe s f)) s.cur (retireHart 4 (f (me s))) := by
  refine ⟨rfl, ?_, fun k hk => ?_⟩
  · change hart (onHart (onHart s s.cur f) s.cur (retireHart 4)) s.cur = _
    rw [hart_onHart_same, hart_onHart_same]
    rfl
  · change hart (onHart (onHart s s.cur f) s.cur (retireHart 4)) k = _
    rw [hart_onHart_other _ _ _ _ hk, hart_onHart_other _ _ _ _ hk]

theorem exec_laneGrant {s : State} {h : Nat} {d : Reg} {avl : Word} {regs : BitVec 2} {ew : Size} {g : BitVec 4}
    (hw : (hart s h).wait = some (.lane d avl regs ew g)) : exec (.laneGrant h) s =
    if grantReady s h regs g then .next (onHart s h fun x => retireHart 4 (declare d avl regs ew g x)) else .next s := by
  change execLaneGrant h s = _
  rw [execLaneGrant, hw]

/-- The write of LOCALSPLIT that hart h waits with is a supervisor's, of a managed core (R234). -/
def WaitsManaged (s : State) (h : Nat) : Prop :=
  (hart s h).mode = .supervisor ∧ Managed s (coreOf h)

theorem managedWrite_of_cur (s : State) (h : Nat) : managedWrite { s with cur := h } = true ↔ WaitsManaged s h :=
  (managedWrite_iff { s with cur := h }).trans and_comm

/-- The state in which hart h has written its core's LOCALSPLIT. -/
def resized (s : State) (h : Nat) (v : Word) : State :=
  onCore (splitCleared { s with cur := h } (coreOf h)) (coreOf h) fun k => { k with split := BitVec.ofNat 3 (fieldOf v 0 3) }

theorem splitCleared_harts (s : State) (c : Nat) : (splitCleared s c).harts = s.harts := by rw [splitCleared_eq]

theorem splitCleared_cur (s : State) (c : Nat) : (splitCleared s c).cur = s.cur := by rw [splitCleared_eq]

theorem hart_resized (s : State) (h : Nat) (v : Word) (k : Nat) : hart (resized s h v) k = hart s k := by
  change (tabGet (splitCleared { s with cur := h } (coreOf h)).harts k).getD {} = _
  rw [splitCleared_harts]
  rfl

theorem cur_resized (s : State) (h : Nat) (v : Word) : (resized s h v).cur = h :=
  splitCleared_cur { s with cur := h } (coreOf h)

theorem me_resized (s : State) (h : Nat) (v : Word) : me (resized s h v) = hart s h := by
  rw [me, cur_resized, hart_resized]

theorem exec_localsplitResize {s : State} {h : Nat} {d : Reg} {v : Word} (hw : (hart s h).wait = some (.localsplit d v)) :
    exec (.localsplitResize h) s =
    if managedWrite { s with cur := h } then
      .next (retireX d ((Machine.core s (coreOf h)).split.setWidth 64) { s with cur := h })
    else if splitFree s (coreOf h) then
      .next (retireX d ((Machine.core s (coreOf h)).split.setWidth 64) (resized s h v))
    else .next s := by
  change execLocalsplitResize h s = _
  rw [execLocalsplitResize, hw]
  rfl

/-- Hart h goes on after its write of LOCALSPLIT, and no other hart has changed. -/
theorem resized_goesOn (s : State) (h : Nat) (d : Reg) (old v : Word) :
    let t := retireX d old (resized s h v)
    (Machine.core t (coreOf h)).split = BitVec.ofNat 3 (fieldOf v 0 3) ∧ (hart t h).wait = none ∧
    (hart t h).pc = (hart s h).pc + 4 ∧ (∀ r, getX (hart t h) r = if r = d ∧ d ≠ 0 then old else getX (hart s h) r) ∧
    ∀ k, k ≠ h → (hart s k).vq = [] → (hart s k).flight = none → hart t k = hart s k := by
  intro t
  obtain ⟨⟨ht, hothers, -⟩, hx, hme⟩ := retireX_goesOn (resized s h v) d old
  have hcur : me t = hart t h := congrArg (hart t) (cur_resized s h v)
  rw [me_resized] at hme
  simp only [me_resized] at hx
  refine ⟨?_, ?_, ?_, ?_, fun k hk _ _ => ?_⟩
  · change (Machine.core (resized s h v) (coreOf h)).split = _
    rw [resized, core_onCore_same]
  · rw [← hcur, hme]
  · rw [← hcur, hme]
  · rw [← hcur]; exact hx
  · rw [hothers k (by rw [cur_resized]; exact hk), hart_resized]

/-- A page of the core's scratchpad, named by the pages it has or by the byte it begins at. -/
theorem spadPage_iff (p c : Nat) :
    (0x10000000 + 256 * c ≤ p ∧ p < 0x10000000 + 256 * (c + 1)) ↔ p * 4096 / 0x100000 = 0x100000 + c := by
  omega

/-- Settles O43: SETVL's checks in their order, and the two events that do for a hart that waits what it would have done. -/
theorem vectorDeclaration : Obligations.VectorDeclaration := by
  refine ⟨fun s d a regs ew hs => ⟨fun hg => ?_, fun hg hv => ?_, fun hg hv hr => ?_, fun hg hv hr hn => ?_,
    fun hg hv hr hn => ?_⟩, fun s h d avl v regs ew g => ⟨fun hw _ => ⟨fun hn => ?_, fun hn => ?_⟩, fun hw => ?_⟩⟩
  · exact ⟨_, (exec_setvl ..).trans (if_pos hg), onMe s releaseGroups, onHart_changed s s.cur releaseGroups,
      raise_trapped (settled_onMe (f := releaseGroups) (fun _ => rfl) hs) _ _⟩
  · obtain ⟨t, ht, htrap⟩ := outTrap_next hs 0x61 (leadWord (.setvl d a regs ew))
    exact ⟨t, ((exec_setvl ..).trans ((if_neg hg).trans (if_pos hv))).trans ht, htrap⟩
  · obtain ⟨t, ht, htrap⟩ := outTrap_next hs 0x68 (leadWord (.setvl d a regs ew))
    exact ⟨t, ((exec_setvl ..).trans ((if_neg hg).trans ((if_neg hv).trans (if_pos hr)))).trans ht, htrap⟩
  · exact ⟨_, (exec_setvl ..).trans ((if_neg hg).trans ((if_neg hv).trans ((if_neg hr).trans
      (if_neg (mt (grantReady_iff ..).1 hn))))), waitOn_waits _ s⟩
  · refine ⟨_, (exec_setvl ..).trans ((if_neg hg).trans ((if_neg hv).trans ((if_neg hr).trans
      (if_pos ((grantReady_iff ..).2 hn))))), ?_⟩
    rw [← declare_eq]
    exact retire_onMe_changed s _
  · refine ⟨_, (exec_laneGrant hw).trans (if_pos ((grantReady_iff ..).2 hn)), ?_⟩
    rw [← declare_eq]
    exact onHart_changed s h _
  · exact (exec_laneGrant hw).trans (if_neg (mt (grantReady_iff ..).1 hn))
  · dsimp only
    simp only [spadPage_iff, ← splitFree_iff]
    refine ⟨fun hm => ?_, fun hm hf => ?_, fun hm hf => ?_⟩
    · exact ⟨_, (exec_localsplitResize hw).trans (if_pos ((managedWrite_of_cur s h).2 hm)), retireX_goesOn _ d _⟩
    · refine ⟨_, (exec_localsplitResize hw).trans ((if_neg (mt (managedWrite_of_cur s h).1 hm)).trans (if_pos hf)), ?_⟩
      exact resized_goesOn s h d _ v
    · exact (exec_localsplitResize hw).trans ((if_neg (mt (managedWrite_of_cur s h).1 hm)).trans (if_neg hf))

end Sys2Proof.Machine

/-!
SUPPORT. The walk of the tables (08_translation.md R169 to R173): which entries it takes for pointers and leaves, what a
walk sets in memory, and which cached translations it leaves (R171, R175; logs 10 and 14).
-/
namespace Sys2Proof.Machine
open Sys2Proof.Claim

/-! ### Numbers in memory (R4) -/

theorem natOfBytes_eq_leNat (bs : List Byte) : natOfBytes bs = leNat bs := by
  induction bs with
  | nil => rfl
  | cons b bs ih => rw [natOfBytes, ih]; rfl

theorem memReadNat_eq_memNat (s : State) (a n : Nat) : memReadNat s.mem a n = memNat s a n := natOfBytes_eq_leNat _

theorem length_bytesOfNat (n v : Nat) : (bytesOfNat n v).length = n := by
  induction n generalizing v with
  | zero => rfl
  | succ n ih => rw [bytesOfNat, List.length_cons, ih]

theorem natOfBytes_bytesOfNat (n v : Nat) : natOfBytes (bytesOfNat n v) = v % 256 ^ n := by
  induction n generalizing v with
  | zero => rw [Nat.pow_zero, Nat.mod_one]; rfl
  | succ n ih =>
    rw [bytesOfNat, natOfBytes, ih, BitVec.toNat_ofNat, Nat.pow_succ' (n := n), Nat.mod_mul (x := v)]
    exact congrArg (· + _) (Nat.mod_mod v 256)

theorem memReadBytes_memWriteBytes (bs : List Byte) {m : List Host.Cell} (a : Nat) (hm : Memory.wf m = true) :
    memReadBytes (memWriteBytes m a bs) a bs.length = bs := by
  refine List.ext_getElem (by simp [memReadBytes]) fun i h1 h2 => ?_
  simp only [memReadBytes, List.getElem_map, List.getElem_range]
  rw [memRead_memWriteBytes bs m a (a + i) hm, if_pos (by omega), Nat.add_sub_cancel_left, List.getD_eq_getElem _ _ h2]

theorem memReadNat_memWriteNat {m : List Host.Cell} (a n v : Nat) (hm : Memory.wf m = true) :
    memReadNat (memWriteNat m a n v) a n = v % 256 ^ n := by
  have hbytes := memReadBytes_memWriteBytes (bytesOfNat n v) a hm
  rw [length_bytesOfNat] at hbytes
  rw [memReadNat, memWriteNat, hbytes, natOfBytes_bytesOfNat]

theorem natOfBytes_lt (bs : List Byte) : natOfBytes bs < 256 ^ bs.length := by
  induction bs with
  | nil => exact Nat.one_pos
  | cons b bs ih =>
    have hb := b.isLt
    rw [natOfBytes, List.length_cons, Nat.pow_succ']
    omega

theorem memNat_lt (s : State) (a n : Nat) : memNat s a n < 256 ^ n := by
  rw [← memReadNat_eq_memNat]
  simpa [memReadNat, memReadBytes] using natOfBytes_lt (memReadBytes s.mem a n)

/-! ### Entries (R170 to R172) -/

theorem access_bits_iff (e : Nat) :
    (e.testBit 1 || e.testBit 2 || e.testBit 3) = true ↔ entryField e 1 3 ≠ 0 := by
  simp only [entryField, Nat.testBit_eq_decide_div_mod_eq, Bool.or_eq_true, decide_eq_true_eq]
  omega

theorem fld_eq_entryField (e lo n : Nat) : fld e lo n = entryField e lo n := rfl

/-- The walker takes an entry for what R170 and R171 make it, at a level that exists. -/
theorem entry_leaf_iff {e lvl : Nat} (hr : entryField e 1 3 ≠ 0) (hl : lvl ≤ 4) :
    (!e.testBit 0 || malformed lvl e) = false ↔ IsLeaf e lvl := by
  have hbits := (access_bits_iff e).2 hr
  unfold malformed IsLeaf
  dsimp only
  rw [hbits]
  simp only [Bool.or_eq_false_iff, Bool.and_eq_false_iff, Bool.not_eq_false', bne_eq_false_iff_eq, fld_eq_entryField,
    Bool.not_true, Bool.true_and, Bool.false_and, beq_eq_false_iff_ne, beq_iff_eq]
  have hlevel : lvl ≠ 4 ↔ lvl ≤ 3 := by omega
  grind

theorem entry_pointer_iff {e lvl : Nat} (hr : entryField e 1 3 = 0) (hl : 1 ≤ lvl) :
    (!e.testBit 0 || malformed lvl e) = false ↔ IsPointer e lvl := by
  have hbits : (e.testBit 1 || e.testBit 2 || e.testBit 3) = false :=
    Bool.eq_false_iff.2 (mt (access_bits_iff e).1 (not_not.2 hr))
  unfold malformed IsPointer
  dsimp only
  rw [hbits]
  simp only [Bool.or_eq_false_iff, Bool.and_eq_false_iff, Bool.not_eq_false', bne_eq_false_iff_eq, fld_eq_entryField,
    Bool.not_false, Bool.true_and, Bool.false_and, Bool.and_true, beq_eq_false_iff_ne]
  have hlevel : lvl ≠ 1 ↔ 2 ≤ lvl := by omega
  grind

/-- The permission bits of a leaf, as the walker asks for them below monitor mode (R172). -/
theorem permitted_iff {m : Mode} (hm : m ≠ .monitor) (e : Nat) (k : AccKind) :
    permitted m k (e.testBit 1) (e.testBit 2) (e.testBit 3) (e.testBit 4) = true ↔ Allows e m k := by
  cases m with
  | monitor => exact absurd rfl hm
  | user => cases k <;> simp [permitted, Allows, and_assoc]
  | supervisor => cases k <;> simp [permitted, Allows]

/-! ### The walk (R169) -/

/-- The tables stand in backed memory without uncorrectable data, and no task has read or written there. -/
structure TablesPlain (s : State) : Prop where
  noneFailed : s.failedStacks = 0
  poison : s.poison = []
  lines : s.lostLines = []
  tasks : ∀ e ∈ s.tasks, e.homeLines = [] ∧ e.reads = []

theorem TablesPlain.lineHeld {s : State} (hs : TablesPlain s) (h pa : Nat) : lineHeld s h pa = false := by
  refine List.any_eq_false.2 fun e he => ?_
  rw [(hs.tasks e he).1]
  simp

theorem TablesPlain.poisonAt {s : State} (hs : TablesPlain s) (pa n : Nat) : poisonAt s pa n = none := by
  rw [Machine.poisonAt, hs.poison, hs.lines]
  rfl

theorem TablesPlain.hbmBacked {s : State} (hs : TablesPlain s) {pa : Nat} (ha : pa ≤ 0xEE6B27FFFF) : hbmBacked s pa = true := by
  rw [Machine.hbmBacked, hs.noneFailed, decide_eq_true ha]
  simp

theorem TablesPlain.reachedBy {s : State} (hs : TablesPlain s) (us : List TUnit) : Machine.reachedBy s {} us = [] := by
  refine List.filter_eq_nil_iff.2 fun e he => ?_
  rw [(hs.tasks e he).2]
  simp [meetsAny]

/-- What a walk makes of the entry it has read at a level. -/
theorem walk_entry {s : State} (hs : TablesPlain s) {h va n table : Nat} (ha : entryAddr va table (n + 1) ≤ 0xEE6B27FFFF) :
    walk s h va (n + 1) table =
      let a := entryAddr va table (n + 1)
      let e := memNat s a 8
      if (!e.testBit 0 || malformed (n + 1) e) = true then .fail .notPresent
      else if (e.testBit 1 || e.testBit 2 || e.testBit 3) = true then
        .leaf ⟨leafLog2 (n + 1) e, entryField e 12 40 / 2 ^ (leafLog2 (n + 1) e - 12), a, e⟩
      else walk s h va n (entryField e 12 40) := by
  have haddr : table * 4096 + 8 * (va / 2 ^ (12 + 9 * n) % 512) = entryAddr va table (n + 1) := by
    rw [entryAddr, Nat.mul_comm, show 3 + 9 * (n + 1) = 12 + 9 * n by omega]
  have hnear : entryAddr va table (n + 1) < 0x10000000000 := by omega
  rw [walk, haddr]
  dsimp only
  rw [hs.hbmBacked ha, hs.lineHeld, hs.poisonAt, decide_eq_true hnear, memReadNat_eq_memNat]
  simp only [Bool.and_self, Bool.not_true, Option.isSome_none, Bool.false_eq_true, if_false]
  refine if_congr Iff.rfl rfl (if_congr Iff.rfl ?_ rfl)
  rw [leafLog2]
  split
  · rfl
  · rw [show 3 + 9 * (n + 1) = 12 + 9 * n by omega, Nat.add_sub_cancel_left]
    rfl

theorem walk_leaf {s : State} (hs : TablesPlain s) {h va n table : Nat} (hn : n + 1 ≤ 4)
    (ha : entryAddr va table (n + 1) ≤ 0xEE6B27FFFF) (hl : IsLeaf (memNat s (entryAddr va table (n + 1)) 8) (n + 1)) :
    walk s h va (n + 1) table =
      let a := entryAddr va table (n + 1)
      let e := memNat s a 8
      .leaf ⟨leafLog2 (n + 1) e, entryField e 12 40 / 2 ^ (leafLog2 (n + 1) e - 12), a, e⟩ := by
  rw [walk_entry hs ha]
  dsimp only
  rw [(entry_leaf_iff hl.2.1 hn).2 hl, (access_bits_iff _).2 hl.2.1]
  rfl

theorem walk_pointer {s : State} (hs : TablesPlain s) {h va n table : Nat}
    (ha : entryAddr va table (n + 1) ≤ 0xEE6B27FFFF) (hp : IsPointer (memNat s (entryAddr va table (n + 1)) 8) (n + 1)) :
    walk s h va (n + 1) table = walk s h va n (entryField (memNat s (entryAddr va table (n + 1)) 8) 12 40) := by
  rw [walk_entry hs ha]
  dsimp only
  rw [(entry_pointer_iff hp.2.1 (Nat.le_add_left 1 n)).2 hp, Bool.eq_false_iff.2 (mt (access_bits_iff _).1 (not_not.2 hp.2.1))]
  rfl

theorem walk_neither {s : State} (hs : TablesPlain s) {h va n table : Nat} (hn : n + 1 ≤ 4)
    (ha : entryAddr va table (n + 1) ≤ 0xEE6B27FFFF) (hl : ¬IsLeaf (memNat s (entryAddr va table (n + 1)) 8) (n + 1))
    (hp : ¬IsPointer (memNat s (entryAddr va table (n + 1)) 8) (n + 1)) :
    walk s h va (n + 1) table = .fail .notPresent := by
  rw [walk_entry hs ha]
  refine if_pos (Bool.of_not_eq_false ?_)
  by_cases hr : entryField (memNat s (entryAddr va table (n + 1)) 8) 1 3 = 0
  · exact mt (entry_pointer_iff hr (Nat.le_add_left 1 n)).1 hp
  · exact mt (entry_leaf_iff hr hn).1 hl

theorem walk_of_walkTo {s : State} (hs : TablesPlain s) {h va n table lvl a e : Nat} (hn : n ≤ 4)
    (hw : WalkTo s va n table (lvl, a, e)) :
    walk s h va n table = .leaf ⟨leafLog2 lvl e, entryField e 12 40 / 2 ^ (leafLog2 lvl e - 12), a, e⟩ := by
  induction n generalizing table with
  | zero => exact hw.elim
  | succ n ih =>
    obtain ⟨ha, ⟨hl, heq⟩ | ⟨hp, hw⟩⟩ := hw
    · cases heq
      exact walk_leaf hs hn ha hl
    · exact (walk_pointer hs ha hp).trans (ih (Nat.le_of_succ_le hn) hw)

theorem walk_of_walkFails {s : State} (hs : TablesPlain s) {h va n table : Nat} (hn : n ≤ 4) (hw : WalkFails s va n table) :
    walk s h va n table = .fail .notPresent := by
  induction n generalizing table with
  | zero => exact hw.elim
  | succ n ih =>
    obtain ⟨ha, ⟨hl, hp⟩ | ⟨hp, hw⟩⟩ := hw
    · exact walk_neither hs hn ha hl hp
    · exact (walk_pointer hs ha hp).trans (ih (Nat.le_of_succ_le hn) hw)

/-- The entry that a walk comes to stands in memory as it says. -/
theorem memNat_of_walkTo {s : State} {va n table lvl a e : Nat} (hw : WalkTo s va n table (lvl, a, e)) : e = memNat s a 8 := by
  induction n generalizing table with
  | zero => exact hw.elim
  | succ n ih =>
    obtain ⟨-, ⟨-, heq⟩ | ⟨-, hw⟩⟩ := hw
    · cases heq
      rfl
    · exact ih hw

/-! ### Cached translations (R171, R175) -/

theorem same_iff (a b : TlbEntry) : a.same b = true ↔ Overlaps a b := by
  have hspace : (a.global || b.global || a.asid == b.asid) = true ↔ a.global = true ∨ b.global = true ∨ a.asid = b.asid := by
    simp [or_assoc]
  rw [TlbEntry.same, Bool.and_eq_true, hspace, Overlaps, beq_iff_eq]
  refine and_congr_right fun _ => ?_
  have hdiv (v m k : Nat) (hk : m ≤ k) : v / 2 ^ m / 2 ^ (k - m) = v / 2 ^ k := by
    rw [Nat.div_div_eq_div_mul, ← Nat.pow_add, Nat.add_sub_cancel' hk]
  constructor
  · intro h
    rcases Nat.le_total a.log2 b.log2 with hab | hab
    · rw [Nat.max_eq_right hab, Nat.sub_self, Nat.pow_zero, Nat.div_one] at h
      have hpage : a.vpage * 2 ^ a.log2 / 2 ^ a.log2 = a.vpage := Nat.mul_div_cancel _ (Nat.two_pow_pos _)
      exact ⟨a.vpage * 2 ^ a.log2, hpage, by rw [← hdiv _ _ _ hab, hpage, h]⟩
    · rw [Nat.max_eq_left hab, Nat.sub_self, Nat.pow_zero, Nat.div_one] at h
      have hpage : b.vpage * 2 ^ b.log2 / 2 ^ b.log2 = b.vpage := Nat.mul_div_cancel _ (Nat.two_pow_pos _)
      exact ⟨b.vpage * 2 ^ b.log2, by rw [← hdiv _ _ _ hab, hpage, h], hpage⟩
  · rintro ⟨v, ha, hb⟩
    rw [← ha, ← hb, hdiv _ _ _ (Nat.le_max_left ..), hdiv _ _ _ (Nat.le_max_right ..)]

theorem not_same_iff (a b : TlbEntry) : (!a.same b) = true ↔ ¬Overlaps a b := by
  rw [Bool.not_eq_true', Bool.eq_false_iff, ne_eq, same_iff]

/-- What is left of a set that has to take one more entry. -/
def roomFor {α : Type} [BEq α] (s : State) (line ways : Nat) (inSet : α → Bool) (l : List α) : List α :=
  (victimOf s line ways inSet l).elim l l.erase

theorem roomFor_sublist {α : Type} [BEq α] (s : State) (line ways : Nat) (inSet : α → Bool) (l : List α) :
    (roomFor s line ways inSet l).Sublist l := by
  rw [roomFor]
  cases victimOf s line ways inSet l with
  | none => exact List.Sublist.refl l
  | some v => exact List.erase_sublist

/-- The set has room: where it was full, one of its entries is gone. -/
theorem length_roomFor_lt {α : Type} [BEq α] [LawfulBEq α] (s : State) (line : Nat) {ways : Nat} (hways : 0 < ways)
    {inSet : α → Bool} {l : List α} (hl : (l.filter inSet).length ≤ ways) :
    ((roomFor s line ways inSet l).filter inSet).length < ways := by
  rw [roomFor, victimOf]
  split
  · next h => exact h
  · next h =>
    have hpos : 0 < (l.filter inSet).length := by omega
    have hidx := Nat.mod_lt (Config.victim s.time line) hpos
    rw [List.getElem?_eq_getElem hidx]
    have hv := List.mem_filter.1 (List.getElem_mem hidx)
    generalize (l.filter inSet)[Config.victim s.time line % (l.filter inSet).length] = v at hv
    change ((l.erase v).filter inSet).length < ways
    have herase : ((l.erase v).filter inSet).length = (l.filter inSet).length - 1 := by
      have hperm := ((List.perm_cons_erase hv.1).filter inSet).length_eq
      rw [List.filter_cons_of_pos hv.2, List.length_cons] at hperm
      omega
    omega

theorem dropSame_spec (s : State) (c : Nat) (e : TlbEntry) :
    dropSame s c e = { s with cores := (dropSame s c e).cores } ∧
    (∀ o, o ≠ c → Machine.core (dropSame s c e) o = Machine.core s o) ∧
    Machine.core (dropSame s c e) c = { Machine.core s c with
      tlb := (Machine.core s c).tlb.filter fun o => !o.same e, small := (Machine.core s c).small.filter fun o => !o.2.same e } := by
  rw [dropSame]
  split
  · next h =>
    rw [Bool.not_eq_true', Bool.or_eq_false_iff, List.any_eq_false, List.any_eq_false] at h
    refine ⟨rfl, fun _ _ => rfl, ?_⟩
    rw [List.filter_eq_self.2 fun o ho => by simpa using h.1 o ho, List.filter_eq_self.2 fun o ho => by simpa using h.2 o ho]
  · exact ⟨rfl, fun o ho => core_onCore_other s c o _ ho, core_onCore_same s c _⟩

/-- The shared TLB of a core takes a translation. -/
theorem core_fillTlb (s : State) (c : Nat) (e : TlbEntry) : Machine.core (fillTlb s c e) c = { Machine.core s c with
    tlb := e :: roomFor s e.vpage 8 (fun o => o.vpage % 256 == e.vpage % 256) ((Machine.core s c).tlb.filter fun o => !o.same e)
    small := (Machine.core s c).small.filter fun o => !o.2.same e } := by
  rw [fillTlb, roomFor, core_onCore_same]
  dsimp only
  cases victimOf s e.vpage 8 (fun o => o.vpage % 256 == e.vpage % 256)
    ((Machine.core s c).tlb.filter fun o => !o.same e) <;> rfl

/-- A structure in front of it takes a translation. -/
theorem core_fillPlace (s : State) (c : Nat) (e : TlbEntry) (p : TlbPort) :
    Machine.core (fillPlace c e s p) c = { Machine.core s c with
      small := (p, e) :: roomFor s e.vpage p.entries (·.1 == p)
        ((Machine.core s c).small.filter fun o => !(o.1 == p && o.2.same e)) } := by
  rw [fillPlace, roomFor, core_onCore_same]
  dsimp only
  cases victimOf s e.vpage p.entries (·.1 == p)
    ((Machine.core s c).small.filter fun o => !(o.1 == p && o.2.same e)) <;> rfl

/-- A hart's core takes a translation that a walk has read. -/
def installed (s : State) (c slot : Nat) (e : TlbEntry) : State := fillPort (fillTlb s c e) c (.slot slot) e

theorem installed_eq (s : State) (c slot : Nat) (e : TlbEntry) :
    installed s c slot e = { s with cores := (installed s c slot e).cores } := rfl

theorem core_fillTlb_other (s : State) {c o : Nat} (e : TlbEntry) (ho : o ≠ c) :
    Machine.core (fillTlb s c e) o = Machine.core s o := core_onCore_other s c o _ ho

theorem core_fillPlace_other (s : State) {c o : Nat} (e : TlbEntry) (p : TlbPort) (ho : o ≠ c) :
    Machine.core (fillPlace c e s p) o = Machine.core s o := core_onCore_other s c o _ ho

theorem core_installed_other (s : State) {c o : Nat} (slot : Nat) (e : TlbEntry) (ho : o ≠ c) :
    Machine.core (installed s c slot e) o = Machine.core s o :=
  (core_fillPlace_other (fillTlb s c e) e (.slot slot) ho).trans (core_fillTlb_other s e ho)

theorem core_installed (s : State) (c slot : Nat) (e : TlbEntry) :
    Machine.core (installed s c slot e) c = { Machine.core s c with
      tlb := (Machine.core (installed s c slot e) c).tlb, small := (Machine.core (installed s c slot e) c).small } := by
  change Machine.core (fillPlace c e (fillTlb s c e) (.slot slot)) c = { Machine.core s c with
    tlb := (Machine.core (fillPlace c e (fillTlb s c e) (.slot slot)) c).tlb
    small := (Machine.core (fillPlace c e (fillTlb s c e) (.slot slot)) c).small }
  rw [core_fillPlace, core_fillTlb]

theorem installed_tlb (s : State) (c slot : Nat) (e : TlbEntry) : (Machine.core (installed s c slot e) c).tlb =
    e :: roomFor s e.vpage 8 (fun o => o.vpage % 256 == e.vpage % 256) ((Machine.core s c).tlb.filter fun o => !o.same e) := by
  change (Machine.core (fillPlace c e (fillTlb s c e) (.slot slot)) c).tlb = _
  rw [core_fillPlace, core_fillTlb]

theorem installed_small (s : State) (c slot : Nat) (e : TlbEntry) : (Machine.core (installed s c slot e) c).small =
    (.slot slot, e) :: roomFor (fillTlb s c e) e.vpage 16 (·.1 == .slot slot)
      (((Machine.core s c).small.filter fun o => !o.2.same e).filter fun o => !(o.1 == .slot slot && o.2.same e)) := by
  change (Machine.core (fillPlace c e (fillTlb s c e) (.slot slot)) c).small = _
  rw [core_fillPlace, core_fillTlb]
  rfl

/-- Every entry that stays in the shared TLB stood there, and serves no address that the new one serves. -/
theorem kept_of_installed_tlb {s : State} {c slot : Nat} {e o : TlbEntry} (ho : o ∈ (Machine.core (installed s c slot e) c).tlb.tail) :
    o ∈ (Machine.core s c).tlb ∧ ¬Overlaps o e := by
  rw [installed_tlb, List.tail_cons] at ho
  have hrest := List.mem_filter.1 ((roomFor_sublist ..).mem ho)
  exact ⟨hrest.1, (not_same_iff o e).1 hrest.2⟩

theorem kept_of_installed_small {s : State} {c slot : Nat} {e : TlbEntry} {o : TlbPort × TlbEntry}
    (ho : o ∈ (Machine.core (installed s c slot e) c).small) : o.2 = e ∨ (o ∈ (Machine.core s c).small ∧ ¬Overlaps o.2 e) := by
  rw [installed_small] at ho
  rcases List.mem_cons.1 ho with rfl | ho
  · exact .inl rfl
  · have hrest := List.mem_filter.1 (List.mem_filter.1 ((roomFor_sublist ..).mem ho)).1
    exact .inr ⟨hrest.1, (not_same_iff o.2 e).1 hrest.2⟩

theorem installed_tlb_sets {s : State} {c slot : Nat} {e : TlbEntry} (hs : SetsWithin 8 (·.vpage % 256) (Machine.core s c).tlb) :
    SetsWithin 8 (·.vpage % 256) (Machine.core (installed s c slot e) c).tlb := by
  intro n
  have hrest (m : Nat) : (((Machine.core s c).tlb.filter fun o => !o.same e).filter fun o => o.vpage % 256 == m).length ≤ 8 :=
    ((List.filter_sublist.filter _).length_le).trans (hs m)
  rw [installed_tlb, List.filter_cons]
  split
  · next h =>
    have hn : e.vpage % 256 = n := by simpa using h
    subst hn
    exact length_roomFor_lt s e.vpage (by decide) (hrest _)
  · exact (((roomFor_sublist ..).filter _).length_le).trans (hrest n)

theorem installed_small_slot {s : State} {c slot : Nat} {e : TlbEntry}
    (hs : ((Machine.core s c).small.filter fun o => o.1 == .slot slot).length ≤ 16) :
    ((Machine.core (installed s c slot e) c).small.filter fun o => o.1 == .slot slot).length ≤ 16 := by
  rw [installed_small, List.filter_cons_of_pos (by simp)]
  exact length_roomFor_lt _ e.vpage (by decide) ((((List.filter_sublist.trans List.filter_sublist).filter _).length_le).trans hs)

/-! ### What a walk that ends at a leaf does -/

/-- The translation that a walk for a kind of access makes of a leaf. -/
def leafEntry (k : AccKind) (asid : BitVec 12) (va lvl e : Nat) : TlbEntry :=
  { vpage := va / 2 ^ leafLog2 lvl e, log2 := leafLog2 lvl e, ppage := entryField e 12 40 / 2 ^ (leafLog2 lvl e - 12)
    asid := asid, global := e.testBit 10, r := e.testBit 1, w := e.testBit 2, x := e.testBit 3, u := e.testBit 4
    d := (e ||| if k = .store then 192 else 64).testBit 7, fg := e.testBit 59 }

/-- A and D, as the walker sets them for a store (R173). -/
theorem marks_store (e : Nat) : e ||| 64 ||| 128 = e ||| 192 := Nat.or_assoc e 64 128

theorem canonical_iff (va : Word) : canonical va = true ↔ IsCanonical va.toNat := by
  have hva := va.isLt
  simp only [canonical, IsCanonical, Bool.or_eq_true, beq_iff_eq]
  omega

theorem tlbFind_none {l : List TlbEntry} {asid : BitVec 12} {va : Nat} (hl : ∀ e ∈ l, ¬Serves e asid va) :
    tlbFind l asid va = none := by
  refine List.find?_eq_none.2 fun e he => ?_
  have h := hl e he
  simpa [Serves] using h

theorem cached_none {c : Core} {slot : Nat} {asid : BitVec 12} {va : Nat} (hl : ∀ e ∈ c.tlb, ¬Serves e asid va)
    (hsmall : ∀ o ∈ c.small.filter (fun o => o.1 == .slot slot), ¬Serves o.2 asid va) :
    cached c (.slot slot) asid va = none := by
  have hport : tlbFind (portEntries c (.slot slot)) asid va = none := by
    refine tlbFind_none fun e he => ?_
    obtain ⟨o, ho, hoe⟩ := List.mem_filterMap.1 he
    split at hoe
    · next hslot =>
      cases hoe
      exact hsmall o (List.mem_filter.2 ⟨ho, by simpa using hslot⟩)
    · cases hoe
  rw [cached, hport, tlbFind_none hl]
  rfl

/-- A walk sets A and D where the entry lacks them, and changes beside that only where copies of lines stand. -/
theorem setEntryBits_eq {s : State} (hs : TablesPlain s) (x : Access) (a e : Nat) : setEntryBits s x a e =
    some (storeVectorLine (coreOf x.hart) { s with mem := memWriteNat s.mem a 8 e } (a / 64)) := by
  have hreach := hs.reachedBy [⟨a, true⟩]
  have hblocked : writeBlocked s {} [⟨a, true⟩] = false := by rw [writeBlocked, hreach]; rfl
  have habort : abortReaders s {} [⟨a, true⟩] = s := by rw [abortReaders, hreach]; rfl
  rw [setEntryBits]
  dsimp only
  rw [hblocked, habort, Bool.and_false, if_neg Bool.false_ne_true, ite_self]

/-- What a state has of another in which a table entry was marked. -/
def Marked (s t : State) (a e : Nat) : Prop :=
  t = { s with mem := t.mem, caches := t.caches } ∧ memNat t a 8 = e ∧
  (∀ b, b < a ∨ a + 8 ≤ b → memRead t.mem b = memRead s.mem b) ∧ Memory.wf t.mem = true

theorem marked_of_write {s t : State} {a e : Nat} (hwf : Memory.wf s.mem = true) (he : e < 256 ^ 8)
    (ht : CachesOnly { s with mem := memWriteNat s.mem a 8 e } t) : Marked s t a e := by
  have hmem : t.mem = memWriteNat s.mem a 8 e := ht.mem
  refine ⟨?_, ?_, fun b hb => ?_, ?_⟩
  · rw [hmem]; exact ht
  · rw [← memReadNat_eq_memNat, hmem, memReadNat_memWriteNat a 8 e hwf, Nat.mod_eq_of_lt he]
  · rw [hmem, memWriteNat, memRead_memWriteBytes _ _ _ _ hwf, length_bytesOfNat, if_neg (by omega)]
  · rw [hmem]; exact memWriteNat_wf a 8 e hwf

theorem marked_of_same {s t : State} {a : Nat} (hwf : Memory.wf s.mem = true) (ht : CachesOnly s t) :
    Marked s t a (memNat s a 8) := by
  refine ⟨?_, ?_, fun b _ => ?_, ?_⟩
  · rw [ht.mem]; exact ht
  · rw [← memReadNat_eq_memNat, ht.mem, memReadNat_eq_memNat]
  · rw [ht.mem]
  · rw [ht.mem]; exact hwf

/-- Where the marks of the entry stand after a walk. -/
theorem marks_done {s u : State} (hs : TablesPlain s) (hwf : Memory.wf s.mem = true) (hu : CachesOnly s u) (x : Access)
    (a : Nat) {b : Nat} (hb : b < 256) : ∃ t, (if memNat s a 8 ||| b = memNat s a 8 then some u
      else setEntryBits u x a (memNat s a 8 ||| b)) = some t ∧ Marked s t a (memNat s a 8 ||| b) := by
  by_cases h : memNat s a 8 ||| b = memNat s a 8
  · refine ⟨u, if_pos h, ?_⟩
    rw [h]
    exact marked_of_same hwf hu
  · have hplain : TablesPlain u := by
      rw [hu]; exact ⟨hs.noneFailed, hs.poison, hs.lines, hs.tasks⟩
    have hlt : memNat s a 8 ||| b < 2 ^ 64 :=
      Nat.or_lt_two_pow (memNat_lt s a 8) (by omega)
    refine ⟨_, (if_neg h).trans (setEntryBits_eq hplain x a _), marked_of_write hwf hlt ?_⟩
    have hmem : { u with mem := memWriteNat u.mem a 8 (memNat s a 8 ||| b) } =
        { s with mem := memWriteNat s.mem a 8 (memNat s a 8 ||| b), caches := u.caches } := by rw [hu]
    exact CachesOnly.trans hmem (storeVectorLine_cachesOnly ..)

/-! ### The event -/

section
variable {s : State} {h lvl a e : Nat} {va : Word} {k : AccKind}

/-- The address space, the root and the address of a walk for a hart. -/
def walkAsid (s : State) (h : Nat) : BitVec 12 := asidOf (hart s h).ptbase
theorem walkAsid_eq (s : State) (h : Nat) : walkAsid s h = BitVec.ofNat 12 (fieldOf (hart s h).ptbase 52 12) := by
  refine BitVec.eq_of_toNat_eq ?_
  rw [walkAsid, asidOf, fieldOf, BitVec.extractLsb'_toNat, BitVec.toNat_ofNat, Nat.shiftRight_eq_div_pow, Nat.mod_mod]

/-- The level-4 table of a hart's address space. -/
def walkRoot (s : State) (h : Nat) : Nat := fieldOf (hart s h).ptbase 12 40

/-- A walk is made for the hart at the address: no cached translation serves it (R167, R175). -/
structure Walks (s : State) (h : Nat) (va : Word) : Prop where
  plain : TablesPlain s
  below : (hart s h).mode ≠ .monitor
  enabled : (hart s h).ptbase.toNat.testBit 0 = true
  canonical : IsCanonical va.toNat
  missed : cached (Machine.core s (coreOf h)) (.slot (slotOf h)) (asidOf (hart s h).ptbase) (va.toNat % 2 ^ 48) = none

theorem translated_of_enabled (hm : (hart s h).mode ≠ .monitor) (he : (hart s h).ptbase.toNat.testBit 0 = true) :
    translated (hart s h).mode (hart s h).ptbase = true := by
  have hbit : bit (hart s h).ptbase 0 = true := he
  rw [translated, hbit, Bool.and_true]
  exact bne_iff_ne.2 hm

theorem translate_notCanonical (hm : (hart s h).mode ≠ .monitor) (he : (hart s h).ptbase.toNat.testBit 0 = true)
    (hc : ¬IsCanonical va.toNat) : translate s (hartAccess s h k) va = .fail s .nonCanonical := by
  have ht : translated (hartAccess s h k).mode (hartAccess s h k).ptbase = true := translated_of_enabled hm he
  have hv : Machine.canonical va = false := Bool.eq_false_iff.2 (mt (canonical_iff va).1 hc)
  rw [translate, ht, hv]
  rfl

theorem Walks.translated (w : Walks s h va) : translated (hart s h).mode (hart s h).ptbase = true :=
  translated_of_enabled w.below w.enabled

theorem Walks.canonicalVa (w : Walks s h va) : Machine.canonical va = true := (canonical_iff va).2 w.canonical

theorem Walks.fails (w : Walks s h va) {f : Failure} (k : AccKind)
    (hw : walk s h (va.toNat % 2 ^ 48) 4 (walkRoot s h) = .fail f) : translate s (hartAccess s h k) va = .fail s f := by
  have hroot : walk s h (va.toNat % 2 ^ 48) 4 (rootOf (hart s h).ptbase) = .fail f := hw
  simp only [translate, hartAccess, w.translated, w.canonicalVa, w.missed, hroot, Bool.not_true, Bool.false_eq_true, if_false]

/-- The leaf a walk hands to the translation. -/
def leafOf (lvl a e : Nat) : Leaf := ⟨leafLog2 lvl e, entryField e 12 40 / 2 ^ (leafLog2 lvl e - 12), a, e⟩

theorem Walks.refused (w : Walks s h va) (hw : walk s h (va.toNat % 2 ^ 48) 4 (walkRoot s h) = .leaf (leafOf lvl a e))
    (hp : ¬Allows e (hart s h).mode k) : translate s (hartAccess s h k) va =
      .fail (dropSame s (coreOf h) (leafEntry k (walkAsid s h) (va.toNat % 2 ^ 48) lvl e)) .permission := by
  have hroot : walk s h (va.toNat % 2 ^ 48) 4 (rootOf (hart s h).ptbase) = .leaf (leafOf lvl a e) := hw
  have hperm := Bool.eq_false_iff.2 (mt (permitted_iff w.below e k).1 hp)
  cases k <;> simp only [translate, hartAccess, w.translated, w.canonicalVa, w.missed, hroot, Bool.not_true,
    Bool.false_eq_true, if_false, leafOf, Leaf.bit, hperm, Bool.not_false, if_true, beq_iff_eq, reduceCtorEq, Nat.or_zero,
    marks_store, leafEntry, walkAsid]

theorem Walks.migrates (w : Walks s h va) (hw : walk s h (va.toNat % 2 ^ 48) 4 (walkRoot s h) = .leaf (leafOf lvl a e))
    (hp : Allows e (hart s h).mode k) (hk : k = .store ∧ e.testBit 58 = true) : translate s (hartAccess s h k) va =
      .migrating (dropSame s (coreOf h) (leafEntry k (walkAsid s h) (va.toNat % 2 ^ 48) lvl e)) := by
  have hroot : walk s h (va.toNat % 2 ^ 48) 4 (rootOf (hart s h).ptbase) = .leaf (leafOf lvl a e) := hw
  have hperm := (permitted_iff w.below e k).2 hp
  obtain ⟨rfl, hmig⟩ := hk
  simp only [translate, hartAccess, w.translated, w.canonicalVa, w.missed, hroot, Bool.not_true, Bool.false_eq_true, if_false,
    leafOf, Leaf.bit, hperm, hmig, Bool.true_and, beq_self_eq_true, Bool.true_or, if_true, marks_store, leafEntry, walkAsid]

theorem Walks.done (w : Walks s h va) (hwf : Memory.wf s.mem = true) (he : e = memNat s a 8)
    (hw : walk s h (va.toNat % 2 ^ 48) 4 (walkRoot s h) = .leaf (leafOf lvl a e))
    (hp : Allows e (hart s h).mode k) (hk : ¬(k = .store ∧ e.testBit 58 = true)) :
    ∃ u, Marked s u a (e ||| if k = .store then 192 else 64) ∧ ∃ tr, translate s (hartAccess s h k) va =
      .ok (if e.testBit 58 = true then dropSame u (coreOf h) (leafEntry k (walkAsid s h) (va.toNat % 2 ^ 48) lvl e)
        else installed u (coreOf h) (slotOf h) (leafEntry k (walkAsid s h) (va.toNat % 2 ^ 48) lvl e)) tr := by
  have hroot : walk s h (va.toNat % 2 ^ 48) 4 (rootOf (hart s h).ptbase) = .leaf (leafOf lvl a e) := hw
  have hperm := (permitted_iff w.below e k).2 hp
  have hmig : (e.testBit 58 && (k == AccKind.store || false)) = false := by
    rw [Bool.or_false, Bool.and_comm, Bool.and_eq_false_iff]
    exact (not_and_or.1 hk).imp (by simp) (by simp)
  have htouch := touch_cachesOnly (loadVectorLine (coreOf h)) (loadVectorLine_cachesOnly (coreOf h)) s
    ((walkReads s (va.toNat % 2 ^ 48) 4 (rootOf (hart s h).ptbase)).map fun p => (p, 8))
  obtain ⟨u, hu, hmark⟩ := marks_done w.plain hwf htouch (hartAccess s h k) a
    (show (if k = .store then 192 else 64) < 256 by split <;> decide)
  rw [← he] at hu hmark
  refine ⟨u, hmark, ?_⟩
  cases k <;> simp only [reduceCtorEq, if_true, if_false] at hu ⊢
  all_goals
    simp only [translate, hartAccess, w.translated, w.canonicalVa, w.missed, hroot, Bool.not_true, Bool.false_eq_true,
      if_false, leafOf, Leaf.bit, hperm, hmig, beq_iff_eq, reduceCtorEq, Nat.or_zero, if_true, marks_store, leafEntry, walkAsid]
    simp only [hartAccess] at hu
    rw [hu]
    exact ⟨_, rfl⟩

theorem exec_pageWalk_of_fail {t : State} {f : Failure} (ht : translate s (hartAccess s h k) va = .fail t f) :
    exec (.pageWalk h va k) s = .next t := by
  change execPageWalk h va k s = _
  rw [execPageWalk, ht]

theorem exec_pageWalk_of_migrating {t : State} (ht : translate s (hartAccess s h k) va = .migrating t) :
    exec (.pageWalk h va k) s = .next t := by
  change execPageWalk h va k s = _
  rw [execPageWalk, ht]

theorem exec_pageWalk_of_ok {t : State} {tr : Trans} (ht : translate s (hartAccess s h k) va = .ok t tr) :
    exec (.pageWalk h va k) s = .next t := by
  change execPageWalk h va k s = _
  rw [execPageWalk, ht]

end

/-- A core has lost the translations that serve an address with one of them. -/
def LostOverlaps (c c1 : Core) (entry : TlbEntry) : Prop :=
  c1.tlb.Sublist c.tlb ∧ c1.small.Sublist c.small ∧
  (∀ o, o ∈ c1.tlb ↔ o ∈ c.tlb ∧ ¬Overlaps o entry) ∧ ∀ o, o ∈ c1.small ↔ o ∈ c.small ∧ ¬Overlaps o.2 entry

theorem dropSame_lost (s : State) (c : Nat) (e : TlbEntry) :
    LostOverlaps (Machine.core s c) (Machine.core (dropSame s c e) c) e := by
  obtain ⟨-, -, hcore⟩ := dropSame_spec s c e
  rw [hcore]
  refine ⟨List.filter_sublist, List.filter_sublist, fun o => ?_, fun o => ?_⟩
  · exact List.mem_filter.trans (and_congr_right fun _ => not_same_iff o e)
  · exact List.mem_filter.trans (and_congr_right fun _ => not_same_iff o.2 e)

theorem dropSame_core (s : State) (c : Nat) (e : TlbEntry) : Machine.core (dropSame s c e) c = { Machine.core s c with
    tlb := (Machine.core (dropSame s c e) c).tlb, small := (Machine.core (dropSame s c e) c).small } := by
  obtain ⟨-, -, hcore⟩ := dropSame_spec s c e
  rw [hcore]

/-- A change of the cores alone keeps what the marks of the entry have changed. -/
theorem Marked.onCores {s u t : State} {a e : Nat} (hu : Marked s u a e) (ht : t = { u with cores := t.cores }) :
    t = { s with mem := t.mem, cores := t.cores, caches := t.caches } ∧ memNat t a 8 = e ∧
    (∀ b, b < a ∨ a + 8 ≤ b → memRead t.mem b = memRead s.mem b) ∧ Memory.wf t.mem = true := by
  obtain ⟨h1, h2, h3, h4⟩ := hu
  generalize t.cores = cs at ht
  subst ht
  exact ⟨congrArg (fun v : State => { v with cores := cs }) h1, h2, h3, h4⟩

theorem Marked.core {s u : State} {a e : Nat} (hu : Marked s u a e) (c : Nat) : Machine.core u c = Machine.core s c := by
  rw [hu.1]
  rfl

/-- Settles O44: the walk comes to the leaf that R170 and R171 lead to, and what it does there is one of four things. -/
theorem pageWalks : Obligations.PageWalks := by
  intro s h va k
  dsimp only
  intro hm hen hstacks hpoison hlost htasks hwf
  have hplain : TablesPlain s := ⟨hstacks, hpoison, hlost, htasks⟩
  refine ⟨fun hc => exec_pageWalk_of_fail (translate_notCanonical hm hen hc), fun hc htlb hsmall => ?_⟩
  rw [← walkAsid_eq] at htlb hsmall
  have w : Walks s h va := ⟨hplain, hm, hen, hc, cached_none htlb hsmall⟩
  refine ⟨fun hf => exec_pageWalk_of_fail (w.fails k (walk_of_walkFails hplain (Nat.le_refl 4) hf)), fun lvl a e hw => ?_⟩
  have hleaf := walk_of_walkTo (h := h) hplain (Nat.le_refl 4) hw
  have he := memNat_of_walkTo hw
  rw [← walkAsid_eq]
  generalize hentry : leafEntry k (walkAsid s h) (va.toNat % 2 ^ 48) lvl e = entry
  refine ⟨fun hno => ?_, fun hp hk => ?_⟩
  · have hexec : exec (.pageWalk h va k) s = .next (dropSame s (coreOf h) entry) := by
      rw [← hentry]
      by_cases hp : Allows e (hart s h).mode k
      · exact exec_pageWalk_of_migrating (w.migrates hleaf hp (hno.resolve_left (not_not.2 hp)))
      · exact exec_pageWalk_of_fail (w.refused hleaf hp)
    obtain ⟨ht, hother, -⟩ := dropSame_spec s (coreOf h) entry
    subst hentry
    exact ⟨_, hexec, ht, hother, dropSame_core s (coreOf h) _, dropSame_lost s (coreOf h) _⟩
  · obtain ⟨u, hmark, tr, htr⟩ := w.done hwf he hleaf hp hk
    have hexec := exec_pageWalk_of_ok htr
    rw [hentry] at hexec
    have hcore := hmark.core
    by_cases hmig : e.testBit 58 = true
    · rw [if_pos hmig] at hexec
      obtain ⟨ht, hother, -⟩ := dropSame_spec u (coreOf h) entry
      obtain ⟨h1, h2, h3, h4⟩ := hmark.onCores ht
      have hkept := dropSame_core u (coreOf h) entry
      have hlost := dropSame_lost u (coreOf h) entry
      rw [hcore] at hkept hlost
      subst hentry
      refine ⟨_, hexec, h1, h2, h3, h4, fun o ho => (hother o ho).trans (hcore o), hkept, fun _ => hlost, fun hn => ?_⟩
      exact absurd (hn.symm.trans hmig) Bool.false_ne_true
    · rw [if_neg hmig] at hexec
      obtain ⟨h1, h2, h3, h4⟩ := hmark.onCores (installed_eq u (coreOf h) (slotOf h) entry)
      have hkept := core_installed u (coreOf h) (slotOf h) entry
      have htail (o : TlbEntry) := kept_of_installed_tlb (s := u) (c := coreOf h) (slot := slotOf h) (e := entry) (o := o)
      have hsmall1 (o : TlbPort × TlbEntry) := kept_of_installed_small (s := u) (c := coreOf h) (slot := slotOf h) (e := entry) (o := o)
      have hsets := installed_tlb_sets (s := u) (c := coreOf h) (slot := slotOf h) (e := entry)
      have hslot := installed_small_slot (s := u) (c := coreOf h) (slot := slotOf h) (e := entry)
      rw [hcore] at hkept hsets hslot
      simp only [hcore] at htail hsmall1
      have hhead := congrArg List.head? (installed_tlb u (coreOf h) (slotOf h) entry)
      have hport := installed_small u (coreOf h) (slotOf h) entry
      subst hentry
      refine ⟨_, hexec, h1, h2, h3, h4, fun o ho => (core_installed_other u _ _ ho).trans (hcore o), hkept,
        fun hn => absurd hn hmig, fun _ => ⟨hhead, ?_, htail, hsmall1, hsets, hslot⟩⟩
      rw [hport, List.filter_cons_of_pos (by simp)]
      rfl

end Sys2Proof.Machine

/-!
SUPPORT. How a vector instruction alone in its convoy comes to the vector queue: its waits, the checks of R399, the probe of
accesses to plain memory, and the convoy it becomes (05_vectors.md R110, R114; 08_translation.md R177, R178;
19_reference_t_to_z.md R399 to R401, R405, R406).
-/
namespace Sys2Proof.Machine
open Sys2Proof.Claim

/-! ### Vector instructions as members of a convoy (R110, R399) -/

/-- The image that a member saves or restores: whether it restores, and where the image stands (R406). -/
def VAct.image : VAct → Option (Bool × Word)
  | .save b => some (false, b)
  | .restore b => some (true, b)
  | _ => none

/-- A queued instruction, by its place, is still to write the index or mask register that a probe needs (R114). -/
def AwaitsRegs (h : Hart) (p : Option Reg × BitVec 3) (n : Nat) : Prop :=
  (∃ c ∈ convoysIn h, c.seq = n ∧ ∃ m ∈ c.members,
    ((∃ b, m.act = .restore b) ∧ p ≠ (none, 0)) ∨ (∃ b, p.1 = some b ∧ b.toNat ∈ m.act.writesV) ∨
    (p.2 ≠ 0 ∧ p.2.toNat ∈ m.act.writesK)) ∨
  ∃ e ∈ h.mq, e.seq = n ∧ ∃ d c r k, e.act = .toVector d c r k ∧ p.1 = some d

/-- What the model keeps of a vector instruction in its member: how it executes, which checks of R399 it takes, whether
it draws, whether it accesses memory, the registers its probe needs (R114), and the image it saves or restores (R406). -/
structure EntersAs (s : State) (i : Instr) (hd : VHdr) (a : VAct) : Prop where
  exec_eq : exec i s = enterVector i hd a s
  isFp : a.isFp = isVectorFloat i
  rounds : a.rounds = roundsVector i
  draws : (a.draws && (me s).rm == 5) = drawsSeed (me s) i
  isMem : a.isMem = (vectorBytes (me s) i).isSome
  addrRegs : a.addrRegs = ((probeRegs i).1.map (·.toNat)).toList
  member : memberOf (me s) i = some (hd, a)
  mask : (bif a.isMem then hd.km else 0) = (probeRegs i).2
  piped : (a.pipe != .none) = true
  image : a.image.elim True fun p => ∃ x, i = (bif p.1 then .vrest x else .vsave x) ∧ p.2 = getX (me s) x
  awaits : a.image.any (·.1) = false → ∀ n, ProbeAwaits (me s) i n ↔ AwaitsRegs (me s) (probeRegs i) n

theorem entersAs (s : State) (i : Instr) :
    (memberOf (me s) i).elim True fun p => EntersAs s i p.1 p.2 := by
  cases i
  case vsave => exact ⟨rfl, rfl, rfl, rfl, rfl, rfl, rfl, rfl, rfl, ⟨_, rfl, rfl⟩, fun _ _ => Iff.rfl⟩
  case vrest => exact ⟨rfl, rfl, rfl, rfl, rfl, rfl, rfl, rfl, rfl, ⟨_, rfl, rfl⟩, nofun⟩
  all_goals first
    | exact True.intro -- no vector instruction
    | exact ⟨rfl, rfl, rfl, rfl, rfl, rfl, rfl, rfl, rfl, True.intro, fun _ _ => Iff.rfl⟩

theorem entersAs_of_memberOf {s : State} {i : Instr} {hd : VHdr} {a : VAct} (h : memberOf (me s) i = some (hd, a)) :
    EntersAs s i hd a := by
  have := entersAs s i
  rwa [h] at this

/-! ### The checks of R399 -/

theorem fails_cons {p : Prop} {c0 c : Byte} {l : List (Prop × Byte)} :
    Fails ((p, c0) :: l) c ↔ (p ∧ c0 = c) ∨ (¬p ∧ Fails l c) := by
  constructor
  · rintro ⟨pre, q, post, heq, hq, hpre⟩
    cases pre with
    | nil => cases heq; exact .inl ⟨hq, rfl⟩
    | cons x pre =>
      cases heq
      exact .inr ⟨hpre _ (List.mem_cons_self ..), pre, q, post, rfl, hq, fun y hy => hpre y (List.mem_cons_of_mem _ hy)⟩
  · rintro (⟨hp, rfl⟩ | ⟨hp, pre, q, post, rfl, hq, hpre⟩)
    · exact ⟨[], p, l, rfl, hp, nofun⟩
    · exact ⟨(p, c0) :: pre, q, post, rfl, hq, List.forall_mem_cons.2 ⟨hp, hpre⟩⟩

theorem not_fails_nil (c : Byte) : ¬Fails [] c := by
  rintro ⟨pre, q, post, heq, -⟩
  cases pre <;> cases heq

theorem badNbv_iff (n : BitVec 8) : (n == 0 || decide (3 < n.toNat)) = true ↔ n.toNat ∉ [1, 2, 3] := by
  rw [Bool.or_eq_true, beq_iff_eq, decide_eq_true_iff, ← BitVec.toNat_inj]
  have h0 : (0 : BitVec 8).toNat = 0 := rfl
  simp only [List.mem_cons, List.not_mem_nil, or_false, h0]
  omega

theorem ite_some_eq_some {p : Prop} [Decidable p] {c0 c : Byte} {o : Option Byte} :
    (if p then some c0 else o) = some c ↔ (p ∧ c0 = c) ∨ (¬p ∧ o = some c) := by
  by_cases h : p <;> simp [h]

theorem not_setwm {s : State} {i : Instr} {hd : VHdr} {a : VAct} (w : EntersAs s i hd a) (b v : Word) (sc : Scope) :
    a ≠ .setwm b v sc := by
  rintro rfl
  exact absurd w.piped Bool.false_ne_true

/-- The model's checks of a member are those of R399, in their order. -/
theorem memberCheck_iff {s : State} {i : Instr} {hd : VHdr} {a : VAct} (w : EntersAs s i hd a) (m : Member)
    (hm : m.act = some a) (c : Byte) : memberCheck (me s) m = some c ↔ Fails (vectorChecks (me s) i a) c := by
  have hregs : ((a.readsV ++ a.writesV).any fun r => decide (regCount (me s).regs ≤ r)) = true ↔
      ∃ r ∈ a.readsV ++ a.writesV, 8 * 2 ^ (me s).regs.toNat ≤ r := by
    simp only [List.any_eq_true, decide_eq_true_eq]
    rfl
  have hrm : 5 < (me s).rm.toNat ↔ 6 ≤ (me s).rm.toNat := Iff.rfl
  unfold memberCheck
  rw [hm]
  split
  · next h => cases h
  · next h => cases h; exact absurd rfl (not_setwm w _ _ _)
  · next b _ h =>
    cases h
    simp only [vectorChecks, fails_cons, not_fails_nil, ite_some_eq_some, ← w.isFp, ← w.rounds, ← hregs, ← badNbv_iff, ← hrm,
      Bool.and_eq_true, decide_eq_true_iff, and_false, or_false, reduceCtorEq]

/-- Where every check passes the member has no cause. -/
theorem memberCheck_of_passes {s : State} {i : Instr} {hd : VHdr} {a : VAct} (w : EntersAs s i hd a) (m : Member)
    (hm : m.act = some a) (hp : Passes (vectorChecks (me s) i a)) : memberCheck (me s) m = none := by
  refine Option.eq_none_iff_forall_ne_some.2 fun c hc => ?_
  obtain ⟨pre, p, post, heq, hq, -⟩ := (memberCheck_iff w m hm c).1 hc
  exact hp (p, c) (heq ▸ List.mem_append_right _ (List.mem_cons_self ..)) hq

/-! ### Room, order and the registers a probe needs (R19, R114, R178, R192) -/

theorem vqCount_eq (h : Hart) : vqCount h = queuedVector h := by
  have key (l : List Convoy) (n : Nat) :
      l.foldl (fun n c => n + c.members.length) n = (l.map fun c => c.members.length).sum + n := by
    induction l generalizing n with
    | nil => simp
    | cons c l ih => rw [List.foldl_cons, ih, List.map_cons, List.sum_cons]; omega
  exact key _ _

theorem exposedPending_iff (s : State) : exposedPending s s.cur = true ↔ ¬Unexposed s := by
  unfold exposedPending Unexposed me
  cases hf : (hart s s.cur).flight <;> cases hh : (hart s s.cur).heldConvoy <;> simp [hf, hh, or_iff_not_imp_left]

theorem vvPending_iff (h : Hart) : vvPending h = true ↔ FencedOff h := by
  unfold vvPending FencedOff
  simp only [Bool.or_eq_true, List.any_eq_true, Option.any_eq_true, Bool.and_eq_true, decide_eq_true_iff, or_assoc]

/-- A queued member writes one of these v and k registers; VREST, which writes all, where there is one (R114). -/
def WritesNeed (a : VAct) (need : List Nat × List Nat) : Prop :=
  ((∃ p, a = .restore p) ∧ need ≠ ([], [])) ∨ (∃ r ∈ a.writesV, r ∈ need.1) ∨ ∃ r ∈ a.writesK, r ∈ need.2

/-- A queued instruction of a hart, by its place, is still to write one of these registers. -/
def StillWrites (h : Hart) (need : List Nat × List Nat) (n : Nat) : Prop :=
  (∃ c ∈ convoysOf h, c.seq = n ∧ ∃ m ∈ c.members, WritesNeed m.act need) ∨
    ∃ e ∈ h.mq, e.seq = n ∧ ∃ d c r k, e.act = .toVector d c r k ∧ d.toNat ∈ need.1

theorem option_or_find_some {α β : Type} {l : List α} {m : List β} {p : α → Bool} {q : β → Bool} {f : α → Nat} {g : β → Nat}
    {n : Nat} (h : ((l.find? p).map f).or ((m.find? q).map g) = some n) :
    (∃ x ∈ l, p x = true ∧ f x = n) ∨ ∃ y ∈ m, q y = true ∧ g y = n := by
  rcases Option.or_eq_some_iff.1 h with h | ⟨-, h⟩ <;> obtain ⟨x, hx, rfl⟩ := Option.map_eq_some_iff.1 h
  · exact .inl ⟨x, List.mem_of_find?_eq_some hx, List.find?_some hx, rfl⟩
  · exact .inr ⟨x, List.mem_of_find?_eq_some hx, List.find?_some hx, rfl⟩

theorem option_or_find_none {α β : Type} {l : List α} {m : List β} {p : α → Bool} {q : β → Bool} {f : α → Nat} {g : β → Nat}
    (h : ((l.find? p).map f).or ((m.find? q).map g) = none) : (∀ x ∈ l, ¬p x = true) ∧ ∀ y ∈ m, ¬q y = true := by
  obtain ⟨h1, h2⟩ := Option.or_eq_none_iff.1 h
  exact ⟨List.find?_eq_none.1 (Option.map_eq_none_iff.1 h1), List.find?_eq_none.1 (Option.map_eq_none_iff.1 h2)⟩

theorem probeBlocker_some {h : Hart} {need : List Nat × List Nat} {n : Nat} (hb : probeBlocker h need = some n) :
    StillWrites h need n := by
  unfold probeBlocker at hb
  rcases option_or_find_some hb with ⟨c, hc, hw, hn⟩ | ⟨e, he, hw, hn⟩
  · obtain ⟨m, hm, hw⟩ := List.any_eq_true.1 hw
    refine .inl ⟨c, hc, hn, m, hm, ?_⟩
    split at hw
    · next p hp => exact .inl ⟨⟨p, hp⟩, by rintro rfl; cases hw⟩
    · exact .inr (by simpa using hw)
  · refine .inr ⟨e, he, hn, ?_⟩
    split at hw
    · next d c r k hact => exact ⟨d, c, r, k, hact, of_decide_eq_true hw⟩
    · cases hw

theorem probeBlocker_none {h : Hart} {need : List Nat × List Nat} (hb : probeBlocker h need = none) (n : Nat) :
    ¬StillWrites h need n := by
  unfold probeBlocker at hb
  obtain ⟨h1, h2⟩ := option_or_find_none hb
  rintro (⟨c, hc, -, m, hm, hw⟩ | ⟨e, he, -, d, x, r, k, hact, hd⟩)
  · refine h1 c hc (List.any_eq_true.2 ⟨m, hm, ?_⟩)
    split
    · next p hp =>
      obtain ⟨v, k⟩ := need
      rcases hw with ⟨-, hne⟩ | ⟨r, hr, -⟩ | ⟨r, hr, -⟩
      · cases v with
        | nil => cases k with
          | nil => exact absurd rfl hne
          | cons => rfl
        | cons => rfl
      · rw [hp] at hr; cases hr
      · rw [hp] at hr; cases hr
    · next hp =>
      rcases hw with ⟨⟨p, hq⟩, -⟩ | hw
      · exact absurd hq (hp p)
      · simpa using hw
  · exact h2 e he (by rw [hact]; exact decide_eq_true hd)

/-- The member that a vector instruction alone in its convoy becomes in the queue. -/
def aloneMember (s : State) (a : VAct) (km : BitVec 3) : VMember := ⟨a, km, captureOf s⟩

@[simp] theorem aloneMember_act (s : State) (a : VAct) (km : BitVec 3) : (aloneMember s a km).act = a := rfl

/-- What the probe of a member alone in its convoy waits for: VREST for every older convoy, others for what is still to
write their index and mask (R114, R119). -/
def soleBlocker (h : Hart) (m : VMember) : Option Nat :=
  match m.act with
  | .restore _ => (convoysOf h).head?.map (·.seq)
  | _ => probeBlocker h (probeNeeds [] m)

theorem writesNeed_iff (a : VAct) (r : Option Reg) (k : BitVec 3) :
    WritesNeed a ((r.map (·.toNat)).toList, if k = 0 then [] else [k.toNat]) ↔
      ((∃ p, a = .restore p) ∧ (r, k) ≠ (none, 0)) ∨ (∃ b, r = some b ∧ b.toNat ∈ a.writesV) ∨ (k ≠ 0 ∧ k.toNat ∈ a.writesK) := by
  unfold WritesNeed
  by_cases hk : k = 0 <;> cases r <;> simp [hk, and_comm]

theorem not_restore {a : VAct} (h : ∀ b, a ≠ .restore b) : a.image.any (·.1) = false := by
  unfold VAct.image
  split
  · rfl
  · exact absurd rfl (h _)
  · rfl

/-- The registers that the probe of a member alone needs are those the instruction names. -/
theorem stillWrites_iff {s : State} {i : Instr} {hd : VHdr} {a : VAct} (w : EntersAs s i hd a) (hmem : a.isMem = true)
    (hr : ∀ b, a ≠ .restore b) (n : Nat) :
    StillWrites (me s) (probeNeeds [] (aloneMember s a hd.km)) n ↔ ProbeAwaits (me s) i n := by
  have hneed : probeNeeds [] (aloneMember s a hd.km) =
      (((probeRegs i).1.map (·.toNat)).toList, if (probeRegs i).2 = 0 then [] else [(probeRegs i).2.toNat]) := by
    rw [← w.addrRegs, ← w.mask, hmem]; rfl
  have hmove (d : Reg) : d.toNat ∈ ((probeRegs i).1.map (·.toNat)).toList ↔ (probeRegs i).1 = some d := by
    cases (probeRegs i).1 <;> simp [BitVec.toNat_inj, eq_comm]
  rw [w.awaits (not_restore hr) n, hneed]
  simp only [StillWrites, writesNeed_iff, hmove, Prod.mk.eta]
  rfl

/-- A member that restores is VREST's. -/
theorem vrest_of_restore {s : State} {i : Instr} {hd : VHdr} {b : Word} (w : EntersAs s i hd (.restore b)) :
    ∃ x, i = .vrest x ∧ b = getX (me s) x := w.image

/-- A member alone waits for the queued instruction that R114 and R119 name, and for none where there is none. -/
theorem soleBlocker_some {s : State} {i : Instr} {hd : VHdr} {a : VAct} (w : EntersAs s i hd a) (hmem : a.isMem = true)
    {n : Nat} (hb : soleBlocker (me s) (aloneMember s a hd.km) = some n) : ProbeAwaits (me s) i n := by
  unfold soleBlocker at hb
  split at hb
  · next b h =>
    cases h
    obtain ⟨x, rfl, -⟩ := vrest_of_restore w
    exact hb
  · next h => exact (stillWrites_iff w hmem h n).1 (probeBlocker_some hb)

theorem soleBlocker_none {s : State} {i : Instr} {hd : VHdr} {a : VAct} (w : EntersAs s i hd a) (hmem : a.isMem = true)
    (hn : ∀ n, ¬ProbeAwaits (me s) i n) : soleBlocker (me s) (aloneMember s a hd.km) = none :=
  Option.eq_none_iff_forall_ne_some.2 fun n hb => hn n (soleBlocker_some w hmem hb)

theorem soleBlocker_isSome {s : State} {i : Instr} {hd : VHdr} {a : VAct} (w : EntersAs s i hd a) (hmem : a.isMem = true)
    (he : ∃ n, ProbeAwaits (me s) i n) : ∃ n, soleBlocker (me s) (aloneMember s a hd.km) = some n := by
  obtain ⟨n, hn⟩ := he
  refine Option.ne_none_iff_exists'.1 fun hb => ?_
  unfold soleBlocker at hb
  split at hb
  · next b h =>
    cases h
    obtain ⟨x, rfl, -⟩ := vrest_of_restore w
    exact nomatch hn.symm.trans hb
  · next h => exact probeBlocker_none hb n ((stillWrites_iff w hmem h n).2 hn)

/-! ### A member alone enters the queue (R110, R399) -/

/-- A hart has room for one more vector instruction, which waits for no MCAST's mask and reads no bad register. -/
structure Admits (s : State) (i : Instr) : Prop where
  cast : castHolds (me s) i = false
  bad : consumesBad (me s) i = false
  room : queuedVector (me s) + 1 ≤ 64
  unexposed : Unexposed s

/-- The head that a vector instruction alone in its convoy is. -/
def aloneHead (i : Instr) (a : VAct) (km : BitVec 3) : Member := ⟨(leadWord i).toNat, false, km, some a, 0⟩

/-- SRSEED behind it (R76). -/
def seedBehind (s : State) (a : VAct) : Word :=
  if a.draws && (me s).rm == 5 then (me s).srseed + w64 (me s).vl.toNat else (me s).srseed

section
variable (s : State) (i : Instr) (a : VAct) (km : BitVec 3)

@[simp] theorem aloneHead_act : (aloneHead i a km).act = some a := rfl
@[simp] theorem w64_aloneHead_word : w64 (aloneHead i a km).word = leadWord i :=
  (BitVec.ofNat_toNat 64 (leadWord i)).trans (BitVec.setWidth_eq _)

theorem captureMembers_alone :
    captureMembers (captureOf s) [aloneHead i a km] = ([aloneMember s a km], seedBehind s a) := rfl

theorem failing_alone (h : Hart) :
    failing h [aloneHead i a km] = (memberCheck h (aloneHead i a km)).map fun c => (c, aloneHead i a km) := by
  unfold failing
  rw [List.findSome?_cons, List.findSome?_nil]
  split <;> simp [*]

@[simp] theorem failing_nil (h : Hart) : failing h [] = none := rfl
@[simp] theorem runActs_nil (lo hi : Nat) (e : VEnv) : runActs lo hi [] e = e := rfl

theorem splitAtMem_mem (h : a.isMem = true) : splitAtMem [aloneMember s a km] = ([], some (aloneMember s a km), []) := by
  simp [splitAtMem, h]

theorem splitAtMem_other (h : a.isMem = false) : splitAtMem [aloneMember s a km] = ([aloneMember s a km], none, []) := by
  simp [splitAtMem, h]
end

/-- The probe of a memory member alone, behind its checks, and what follows it (R114, R177). -/
def probeAlone (s : State) (i : Instr) (a : VAct) (km : BitVec 3) (after : Word) : State :=
  match soleBlocker (me s) (aloneMember s a km) with
  | some n => waitOn (.older n) s
  | none =>
    if vvPending (me s) = true then waitOn .vvFence s
    else match probeMember s { h := me s } (aloneMember s a km) (leadWord i) with
      | .stop s1 => s1
      | .pinned s1 pins vl => placeConvoy [aloneMember s a km] (seedBehind s a) after pins vl s1

/-- What an instruction whose member this is does in place of entering the queue, or as it enters. -/
def enterAlone (s : State) (i : Instr) (a : VAct) (km : BitVec 3) (after : Word) : State :=
  enterMembers [aloneHead i a km] [i] after s

section
variable {s : State} {i : Instr} {a : VAct} {km : BitVec 3} {after : Word}

theorem enterAlone_cast (h : castHolds (me s) i = true) : enterAlone s i a km after = waitOn .castMask s := by
  simp [enterAlone, enterMembers, h]

theorem enterAlone_bad (h : castHolds (me s) i = false) (hb : consumesBad (me s) i = true) :
    enterAlone s i a km after = uncorrectable 0xC6 0 s := by
  simp [enterAlone, enterMembers, h, hb]

theorem enterAlone_room (h : castHolds (me s) i = false) (hb : consumesBad (me s) i = false)
    (hr : 64 < queuedVector (me s) + 1) : enterAlone s i a km after = waitOn .vqRoom s := by
  simp [enterAlone, enterMembers, h, hb, vqCount_eq, hr]

theorem enterAlone_exposed (h : castHolds (me s) i = false) (hb : consumesBad (me s) i = false)
    (hr : queuedVector (me s) + 1 ≤ 64) (he : ¬Unexposed s) : enterAlone s i a km after = waitOn .exposed s := by
  simp [enterAlone, enterMembers, h, hb, vqCount_eq, Nat.not_lt.2 hr, (exposedPending_iff s).2 he]

variable (ha : Admits s i)
include ha

theorem enterAlone_fails {c : Byte} (hc : memberCheck (me s) (aloneHead i a km) = some c) :
    enterAlone s i a km after = raise c (leadWord i) s := by
  simp [enterAlone, enterMembers, ha.cast, ha.bad, vqCount_eq, Nat.not_lt.2 ha.room, exposedPending_iff, ha.unexposed,
    captureMembers_alone, failing_alone, hc]

variable (hc : memberCheck (me s) (aloneHead i a km) = none)
include hc

theorem enterAlone_plain (hm : a.isMem = false) :
    enterAlone s i a km after = placeConvoy [aloneMember s a km] (seedBehind s a) after [] none s := by
  simp [enterAlone, enterMembers, ha.cast, ha.bad, vqCount_eq, Nat.not_lt.2 ha.room, exposedPending_iff, ha.unexposed,
    captureMembers_alone, failing_alone, hc, splitAtMem_other, hm]

variable (hm : a.isMem = true)
include hm

theorem enterAlone_misaligned {c : Byte} {x : Word} (hal : alignCheck a = some (c, x)) :
    enterAlone s i a km after = raise c x s := by
  simp [enterAlone, enterMembers, ha.cast, ha.bad, vqCount_eq, Nat.not_lt.2 ha.room, exposedPending_iff, ha.unexposed,
    captureMembers_alone, failing_alone, hc, splitAtMem_mem, hm, hal]

variable (hal : alignCheck a = none)
include hal

theorem enterAlone_mem : enterAlone s i a km after = probeAlone s i a km after := by
  have hchecks : (exposedPending s s.cur) = false := Bool.eq_false_iff.2 fun h => (exposedPending_iff s).1 h ha.unexposed
  by_cases hr : ∃ b, a = .restore b
  · obtain ⟨b, rfl⟩ := hr
    simp [enterAlone, enterMembers, ha.cast, ha.bad, vqCount_eq, Nat.not_lt.2 ha.room, hchecks,
      captureMembers_alone, failing_alone, hc, splitAtMem_mem, hm, hal, probeAlone, soleBlocker]
    cases (convoysOf (me s)).head? <;> rfl
  · have hr : ∀ b, a = .restore b → False := fun b h => hr ⟨b, h⟩
    have hs : soleBlocker (me s) (aloneMember s a km) = probeBlocker (me s) (probeNeeds [] (aloneMember s a km)) := by
      unfold soleBlocker
      split
      · next b h => exact (hr b h).elim
      · rfl
    simp [enterAlone, enterMembers, ha.cast, ha.bad, vqCount_eq, Nat.not_lt.2 ha.room, hchecks,
      captureMembers_alone, failing_alone, hc, splitAtMem_mem, hm, hal, probeAlone, hs]
    cases probeBlocker (me s) (probeNeeds [] (aloneMember s a km)) <;> rfl

end

/-! ### Accesses to plain memory (R175, R177) -/

/-- A piece of an untranslated access. -/
def plainPiece (va : Word) (len : Nat) : Piece := ⟨va, va.toNat, len, false, 12, none, false⟩

/-- The pieces of an untranslated access, page by page. -/
def plainPieces : Nat → Word → Nat → List Piece
  | 0, _, _ => []
  | fuel + 1, va, n =>
    if n = 0 then []
    else
      let len := min n (4096 - va.toNat % 4096)
      plainPiece va len :: plainPieces fuel (va + w64 len) (n - len)

/-- The pieces of untranslated accesses. -/
def plainRun (xs : List VAccess) : List Piece := xs.flatMap fun x => plainPieces (x.len / 4096 + 2) x.va x.len

theorem regionOf_hbm {pa : Nat} (h : pa < 0x10000000000) : regionOf pa = .hbm := by
  unfold regionOf
  rw [if_pos h]

theorem checkPiece_monitor {s : State} {a : Access} {va : Word} (len : Nat) (hm : a.mode = .monitor) (hva : va.toNat < 0x10000000000) :
    checkPiece s a va len = match physCheck s a.hart a.mode a.side a.kind a.amo a.whole va.toNat with
      | some f => .error (s, .trap (failCause a.side a.kind f) va)
      | none => .ok (s, plainPiece va len) := by
  have ht : translate s { a with port := a.port.bankOf va.toNat } va = .ok s { pa := va.toNat } := by
    unfold translate
    rw [if_pos (by simp [translated, hm]), if_pos (Nat.lt_trans hva (by decide))]
  have hb : heldAtBank s a va.toNat = false := by
    unfold heldAtBank
    rw [regionOf_hbm hva]
  have hg : grantOk s a.hart a.mode va.toNat = true := by simp [grantOk, hm]
  unfold checkPiece
  rw [ht]
  simp only [hb, hg, Bool.false_eq_true, Bool.not_true, if_false]
  rfl

theorem checkPiece_plain {s : State} {a : Access} {va : Word} (len : Nat) (hm : a.mode = .monitor)
    (hf : s.failedStacks = 0) (hva : va.toNat < 0xEE6B280000) : checkPiece s a va len = .ok (s, plainPiece va len) := by
  have hlt : va.toNat < 0x10000000000 := Nat.lt_trans hva (by decide)
  rw [checkPiece_monitor len hm hlt]
  unfold physCheck
  rw [regionOf_hbm hlt]
  have hb : hbmBacked s va.toNat = true := by
    unfold hbmBacked
    rw [hf]
    simpa using Nat.le_of_lt_succ hva
  simp only [hb, if_true]

/-- Beyond the last backed byte of HBM an access traps (R168, R402). -/
theorem checkPiece_unbacked {s : State} {a : Access} {va : Word} (len : Nat) (hm : a.mode = .monitor) (hside : a.side = .vector)
    (hk : a.kind = .load) (hlo : 0xEE6B280000 ≤ va.toNat) (hva : va.toNat < 0x10000000000) :
    checkPiece s a va len = .error (s, .trap 0x45 va) := by
  rw [checkPiece_monitor len hm hva]
  unfold physCheck
  rw [regionOf_hbm hva]
  have hb : hbmBacked s va.toNat = false := by
    unfold hbmBacked
    simp only [Bool.and_eq_false_imp, decide_eq_true_iff]
    exact fun h => absurd (Nat.lt_of_lt_of_le (Nat.lt_succ_of_le h) hlo) (Nat.lt_irrefl _)
  simp only [hb, hside, hk]
  rfl

theorem checkRun_plain {s : State} {a : Access} (hm : a.mode = .monitor) (hf : s.failedStacks = 0) (fuel : Nat) (va : Word) (n : Nat)
    (hva : va.toNat + n ≤ 0xEE6B280000) : checkRun s a fuel va n = .ok (s, plainPieces fuel va n) := by
  induction fuel generalizing va n with
  | zero => rfl
  | succ fuel ih =>
    unfold checkRun plainPieces
    by_cases hn : n = 0
    · rw [if_pos hn, if_pos hn]
    · rw [if_neg hn, if_neg hn]
      have hnext : (va + w64 (min n (4096 - va.toNat % 4096))).toNat + (n - min n (4096 - va.toNat % 4096)) ≤ 0xEE6B280000 := by
        rw [BitVec.toNat_add, w64, BitVec.toNat_ofNat]
        omega
      simp only [checkPiece_plain _ hm hf (show va.toNat < 0xEE6B280000 by omega), ih _ _ hnext]

theorem probeAll_plain {s : State} {a : VAccess → Access} (ha : ∀ x, (a x).mode = (me s).mode) {xs : List VAccess}
    (h : ∀ x ∈ xs, PlainAt s x.va x.len) : probeAll a s xs = .ok (s, plainRun xs) := by
  induction xs with
  | nil => rfl
  | cons x xs ih =>
    obtain ⟨hx, hxs⟩ := List.forall_mem_cons.1 h
    obtain ⟨hmon, -, -, -, hf, -, -, hend, -⟩ := hx
    unfold probeAll
    rw [checkRun_plain ((ha x).trans hmon) hf _ _ _ hend]
    simp only [ih hxs]
    rfl

/-- An access beyond HBM behind plain ones is the one that fails. -/
theorem probeAll_unbacked {s : State} {a : VAccess → Access} (ha : ∀ x, (a x).mode = (me s).mode) {pre post : List VAccess}
    {x : VAccess} (h : ∀ y ∈ pre, PlainAt s y.va y.len) (hmon : (me s).mode = .monitor) (hside : (a x).side = .vector)
    (hk : (a x).kind = .load) (hlo : 0xEE6B280000 ≤ x.va.toNat) (hva : x.va.toNat < 0x10000000000) (hlen : x.len ≠ 0) :
    probeAll a s (pre ++ x :: post) = .error (s, x.idx, .trap 0x45 x.va) := by
  induction pre with
  | nil =>
    have hrun : checkRun s (a x) (x.len / 4096 + 2) x.va x.len = .error (s, .trap 0x45 x.va) := by
      unfold checkRun
      rw [if_neg hlen]
      simp only [checkPiece_unbacked _ ((ha x).trans hmon) hside hk hlo hva]
    rw [List.nil_append]
    unfold probeAll
    rw [hrun]
  | cons y pre ih =>
    obtain ⟨hy, hpre⟩ := List.forall_mem_cons.1 h
    obtain ⟨-, -, -, -, hf, -, -, hend, -⟩ := hy
    rw [List.cons_append]
    unfold probeAll
    rw [checkRun_plain ((ha y).trans hmon) hf _ _ _ hend]
    simp only [ih hpre]

theorem mem_plainPieces {p : Piece} {fuel : Nat} {va : Word} {n : Nat} (hva : va.toNat + n ≤ 0xEE6B280000)
    (h : p ∈ plainPieces fuel va n) : p = plainPiece p.va p.len ∧ p.pa < 0xEE6B280000 := by
  induction fuel generalizing va n with
  | zero => cases h
  | succ fuel ih =>
    unfold plainPieces at h
    by_cases hn : n = 0
    · rw [if_pos hn] at h; cases h
    · rw [if_neg hn] at h
      rcases List.mem_cons.1 h with rfl | h
      · exact ⟨rfl, by simp only [plainPiece]; omega⟩
      · refine ih ?_ h
        rw [BitVec.toNat_add, w64, BitVec.toNat_ofNat]
        omega

/-- The pieces of an untranslated access stand in the pages of its bytes. -/
theorem plainPieces_page {fuel : Nat} {va : Word} {n : Nat} (hva : va.toNat + n ≤ 0xEE6B280000)
    (hfuel : n = 0 ∨ va.toNat % 4096 + n ≤ 4096 * fuel) (k : Nat) :
    (∃ p ∈ plainPieces fuel va n, p.va.toNat / 4096 = k) ↔ ∃ j, j < n ∧ k = (va.toNat + j) / 4096 := by
  induction fuel generalizing va n with
  | zero =>
    have hn : n = 0 := by omega
    simp [plainPieces, hn]
  | succ fuel ih =>
    unfold plainPieces
    by_cases hn : n = 0
    · simp [hn]
    · rw [if_neg hn]
      have hnext : (va + w64 (min n (4096 - va.toNat % 4096))).toNat = va.toNat + min n (4096 - va.toNat % 4096) := by
        rw [BitVec.toNat_add, w64, BitVec.toNat_ofNat]
        omega
      have hrest := ih (va := va + w64 (min n (4096 - va.toNat % 4096))) (n := n - min n (4096 - va.toNat % 4096))
        (by omega) (by rw [hnext]; omega)
      rw [List.exists_mem_cons_iff, hrest, hnext]
      simp only [plainPiece]
      generalize hl : min n (4096 - va.toNat % 4096) = l
      constructor
      · rintro (h | ⟨j, hj, h⟩)
        · exact ⟨0, by omega, by omega⟩
        · exact ⟨l + j, by omega, by omega⟩
      · rintro ⟨j, hj, h⟩
        by_cases hlj : j < l
        · exact .inl (by omega)
        · exact .inr ⟨j - l, by omega, by omega⟩

theorem mem_addNew {α : Type} [DecidableEq α] (l m : List α) (x : α) : x ∈ addNew l m ↔ x ∈ l ∨ x ∈ m := by
  unfold addNew
  induction m generalizing l with
  | nil => simp
  | cons y m ih =>
    rw [List.foldl_cons, ih]
    split <;> simp <;> grind

/-- An access as the statement lists it: element, address, bytes. -/
def accessOf (p : Nat × Word × Nat) : VAccess := ⟨p.1, p.2.1, p.2.2⟩

/-- The pages of plain accesses are pinned, each to itself. -/
theorem pinnedThere_plainRun {s : State} {bs : List (Nat × Word × Nat)} (h : ∀ p ∈ bs, PlainAt s p.2.1 p.2.2) :
    PinnedThere (pinsOf (plainRun (bs.map accessOf))) bs := by
  have hend (p) (hp : p ∈ bs) : p.2.1.toNat + p.2.2 ≤ 0xEE6B280000 := by
    obtain ⟨-, -, -, -, -, -, -, hend, -⟩ := h p hp
    exact hend
  intro q
  have hmem : q ∈ pinsOf (plainRun (bs.map accessOf)) ↔ ∃ p ∈ bs, ∃ c ∈ plainPieces (p.2.2 / 4096 + 2) p.2.1 p.2.2,
      (⟨c.va.toNat / 4096, c.pa / 4096, c.fg, c.log2, c.asid, c.global⟩ : Pin) = q := by
    simp only [pinsOf, plainRun, mem_addNew, List.not_mem_nil, false_or, List.mem_map, List.mem_flatMap]
    constructor
    · rintro ⟨c, ⟨x, ⟨p, hp, rfl⟩, hc⟩, rfl⟩
      exact ⟨p, hp, c, hc, rfl⟩
    · rintro ⟨p, hp, c, hc, rfl⟩
      exact ⟨c, ⟨_, ⟨p, hp, rfl⟩, hc⟩, rfl⟩
  have hpage (p) (hp : p ∈ bs) (k : Nat) := plainPieces_page (fuel := p.2.2 / 4096 + 2) (hend p hp) (by omega) k
  rw [hmem]
  constructor
  · rintro ⟨p, hp, c, hc, rfl⟩
    obtain ⟨hplain, -⟩ := mem_plainPieces (hend p hp) hc
    obtain ⟨j, hj, hk⟩ := (hpage p hp _).1 ⟨c, hc, rfl⟩
    refine ⟨?_, p, hp, j, hj, hk⟩
    rw [hplain]
    rfl
  · rintro ⟨hq, p, hp, j, hj, hk⟩
    obtain ⟨c, hc, hck⟩ := (hpage p hp q.vpage).2 ⟨j, hj, hk⟩
    obtain ⟨hplain, -⟩ := mem_plainPieces (hend p hp) hc
    refine ⟨p, hp, c, hc, ?_⟩
    rw [hq, ← hck, hplain]
    rfl

/-! ### The probe of accesses to plain memory (R177, R222, R278) -/

theorem isIrrevocable_plainRun {s : State} {xs : List VAccess} (h : ∀ x ∈ xs, PlainAt s x.va x.len) :
    isIrrevocable true (plainRun xs) = false := by
  refine List.any_eq_false.2 fun p hp => ?_
  obtain ⟨x, hx, hp⟩ := List.mem_flatMap.1 hp
  obtain ⟨-, -, -, -, -, -, -, hend, -⟩ := h x hx
  rw [regionOf_hbm (Nat.lt_trans (mem_plainPieces hend hp).2 (by decide))]
  exact Bool.false_ne_true

theorem vectorHits_none {s : State} {xs : List VAccess} (store : Bool)
    (h : (island s (islandOf s.cur)).triggers = [] ∨ xs = []) : vectorHits s store xs = [] := by
  unfold vectorHits
  rcases h with h | rfl
  · rw [h]; rfl
  · split <;> rfl

theorem triggersAct_nil (base : Byte) (s : State) : triggersAct base [] s = .go s := rfl

/-- Checked accesses to plain memory pin their pages, and nothing else happens. -/
theorem admitAccess_plain {s : State} {xs ys : List VAccess} (store : Bool) (vl : Option Nat)
    (ht : (island s (islandOf s.cur)).triggers = [] ∨ ys = []) (h : ∀ x ∈ xs, PlainAt s x.va x.len) :
    admitAccess s store ys (plainRun xs) vl = .pinned s (pinsOf (plainRun xs)) vl := by
  unfold admitAccess
  rw [vectorHits_none store ht, triggersAct_nil, isIrrevocable_plainRun h]
  rfl

theorem plainAt_triggers {s : State} {va : Word} {n : Nat} (h : PlainAt s va n) : (island s (islandOf s.cur)).triggers = [] := by
  obtain ⟨-, -, -, ht, -⟩ := h
  exact ht

/-- No trigger acts on plain accesses: none is set, or there is no access. -/
theorem untriggered {s : State} {xs : List VAccess} (h : ∀ x ∈ xs, PlainAt s x.va x.len) (f : VAccess → VAccess) :
    (island s (islandOf s.cur)).triggers = [] ∨ xs.map f = [] := by
  cases xs with
  | nil => exact .inr rfl
  | cons x xs => exact .inl (plainAt_triggers (h x (List.mem_cons_self ..)))

theorem memberAccess_mode {s : State} {m : VMember} (hcap : m.cap.mode = (me s).mode) (x : VAccess) :
    (memberAccess s m x).mode = (me s).mode := hcap

theorem probe_plain {s : State} {e : VEnv} {m : VMember} (seen : Nat) (hcap : m.cap.mode = (me s).mode) {xs : List VAccess}
    (hxs : probesOf e m m.cap.vstart = xs) (h : ∀ x ∈ xs, PlainAt s x.va x.len) :
    probe s e m seen = .pinned s (pinsOf (plainRun xs)) none := by
  unfold probe
  simp only [hxs, probeAll_plain (memberAccess_mode hcap) h]
  exact admitAccess_plain _ none (untriggered h _) h

/-! ### A convoy placed in the queue (R39, R51, R400) -/

theorem queuedConvoy_placeConvoy (s : State) (a : VAct) (km : BitVec 3) (seed : Word) (size : Nat) {pins : List Pin}
    (limit : Option Nat) {bs : List (Nat × Word × Nat)} (hp : PinnedThere pins bs) (hset : ∀ b v sc, a ≠ .setwm b v sc) :
    QueuedConvoy s (placeConvoy [aloneMember s a km] seed ((me s).pc + w64 size) pins limit s) [⟨a, km, captured s⟩] size
      seed 0 limit bs := by
  refine ⟨pins, hp, onlyActing_onMe s _, ?_⟩
  unfold placeConvoy
  rw [me_onMe]
  have hset : ∀ b v sc, a = .setwm b v sc → False := hset
  simp only [List.any_cons, List.any_nil, Bool.or_false, aloneMember_act]
  cases limit <;> rfl

theorem seedBehind_eq {s : State} {i : Instr} {hd : VHdr} {a : VAct} (w : EntersAs s i hd a) :
    seedBehind s a = if drawsSeed (me s) i = true then (me s).srseed + (me s).vl.setWidth 64 else (me s).srseed := by
  have hvl : w64 (me s).vl.toNat = (me s).vl.setWidth 64 := BitVec.ofNat_toNat 64 _
  unfold seedBehind
  rw [w.draws, hvl]

/-! ### The elements a memory instruction accesses (R403, R406, R408) -/

theorem masked_eq (h : Hart) (km : BitVec 3) (i : Nat) : VEnv.masked { h := h } km i = selects h km i := by
  unfold VEnv.masked maskBit getK selects
  by_cases hk : km = 0
  · rw [if_pos hk, if_pos hk]
    exact BitVec.getLsbD_allOnes
  · rw [if_neg hk, if_neg hk]

theorem elements_eq {s : State} (hd : VHdr) (t : Ty) (ad : VAddr) (at_ : Nat → Word)
    (h : ∀ i, elemAccess { h := me s } t ad i = ⟨i, at_ i, if elemBits t = 4 then 1 else elemBits t / 8⟩) :
    ((List.range (min (me s).vl.toNat (me s).vl.toNat)).filter fun i =>
        decide ((me s).vstart.toNat ≤ i) && VEnv.masked { h := me s } hd.km i).map (elemAccess { h := me s } t ad) =
      (vectorBytes.each (me s) hd t at_).map accessOf := by
  unfold vectorBytes.each
  simp only [Nat.min_self, masked_eq, List.map_map]
  exact List.map_congr_left fun i _ => h i

theorem elemAccess_unit (e : VEnv) (t : Ty) (base : Word) (i : Nat) : elemAccess e t (.unit base) i =
    ⟨i, base + BitVec.ofNat 64 (if elemBits t = 4 then i / 2 else i * (elemBits t / 8)),
      if elemBits t = 4 then 1 else elemBits t / 8⟩ := by
  unfold elemAccess
  by_cases h : elemBits t = 4 <;> simp [h, w64]

theorem elemBits_of_whole {t : Ty} (h : t.isWhole = true) : elemBits t ≠ 4 := by
  cases t <;> first | decide | cases h

theorem elemAccess_strided {t : Ty} (h : t.isWhole = true) (e : VEnv) (base stride : Word) (i : Nat) :
    elemAccess e t (.strided base stride) i =
      ⟨i, base + BitVec.ofNat 64 i * stride, if elemBits t = 4 then 1 else elemBits t / 8⟩ := by
  rw [if_neg (elemBits_of_whole h)]
  rfl

theorem elemAccess_indexed {t : Ty} (h : t.isWhole = true) (x : Hart) (base : Word) (r : Reg) (iw : Size) (i : Nat) :
    elemAccess { h := x } t (.indexed base r iw) i =
      ⟨i, base + BitVec.ofNat 64 (elementAt x r (8 * accBytes iw) i), if elemBits t = 4 then 1 else elemBits t / 8⟩ := by
  have hv : vElem (getV x r) (8 * 2 ^ iw.code) i = elementAt x r (8 * accBytes iw) i := by cases iw <;> rfl
  rw [if_neg (elemBits_of_whole h), ← hv]
  rfl

/-- The accesses of a member alone are those of the instruction on the hart's registers. -/
theorem probesOf_alone (s : State) {i : Instr} (hwf : i.wf = true) :
    (memberOf (me s) i).elim True fun p => (vectorBytes (me s) i).elim True fun bs =>
      probesOf { h := me s } (aloneMember s p.2 p.1.km) (me s).vstart.toNat = bs.map accessOf := by
  cases i
  case vld | vst | vldff => exact elements_eq _ _ _ _ (elemAccess_unit _ _ _)
  case vlds hd _ _ b t | vsts hd _ _ b t =>
    cases b <;> exact elements_eq hd t _ _ (elemAccess_strided hwf _ _ _)
  case vldx hd _ _ _ t _ | vstx hd _ _ _ t _ => exact elements_eq hd t _ _ (elemAccess_indexed hwf _ _ _ _)
  case vbpld | vbpst | vsave | vrest => rfl
  all_goals exact True.intro

theorem probesOf_eq {s : State} {i : Instr} {hd : VHdr} {a : VAct} (hwf : i.wf = true) (hm : memberOf (me s) i = some (hd, a))
    {bs : List (Nat × Word × Nat)} (hbs : vectorBytes (me s) i = some bs) :
    probesOf { h := me s } (aloneMember s a hd.km) (aloneMember s a hd.km).cap.vstart = bs.map accessOf := by
  have := probesOf_alone s hwf
  rwa [hm, hbs] at this

/-! ### VREST's header (R119, R278) -/

theorem natOfBytes_memNat (s : State) (base o n : Nat) {l : List Byte} (hl : l = (List.range 64).map fun i => memRead s.mem (base + i))
    (ho : o + n ≤ 64) : natOfBytes (sliceOf l o n) = memNat s (base + o) n := by
  have hslice : sliceOf l o n = (List.range n).map fun i => memRead s.mem (base + o + i) := by
    subst hl
    refine List.ext_getElem (by simp [sliceOf]; omega) fun k h1 h2 => ?_
    simp [sliceOf, Nat.add_assoc]
  rw [hslice]
  exact natOfBytes_eq_leNat _

/-- The pages of VREST's header: it stands on one. -/
theorem plainPieces_header {base : Word} (h : base.toNat % 64 = 0) :
    plainPieces (64 / 4096 + 2) base 64 = [plainPiece base 64] := by
  have hlen : min 64 (4096 - base.toNat % 4096) = 64 := by omega
  simp [plainPieces, hlen]

theorem storeBefore_some {h : Hart} {pins : List Pin} {n : Nat} (hb : storeBefore h pins = some n) :
    (∃ c ∈ convoysIn h, c.seq = n ∧ (∃ m ∈ c.members, m.act.isStore = true) ∧ ∃ q ∈ c.pins, ∃ p ∈ pins, q.ppage = p.ppage) ∨
      ∃ e ∈ h.mq, e.seq = n ∧ e.act.isStore = true ∧ ∃ q ∈ e.pins, ∃ p ∈ pins, q.ppage = p.ppage := by
  rcases option_or_find_some hb with ⟨c, hc, hw, hn⟩ | ⟨e, he, hw, hn⟩
  all_goals
    simp only [pinsMeet, Bool.and_eq_true, List.any_eq_true, beq_iff_eq] at hw
  · exact .inl ⟨c, hc, hn, hw⟩
  · exact .inr ⟨e, he, hn, hw⟩

theorem storeBefore_none {h : Hart} {pins : List Pin} (hb : storeBefore h pins = none) (n : Nat) :
    ¬((∃ c ∈ convoysIn h, c.seq = n ∧ (∃ m ∈ c.members, m.act.isStore = true) ∧ ∃ q ∈ c.pins, ∃ p ∈ pins, q.ppage = p.ppage) ∨
      ∃ e ∈ h.mq, e.seq = n ∧ e.act.isStore = true ∧ ∃ q ∈ e.pins, ∃ p ∈ pins, q.ppage = p.ppage) := by
  obtain ⟨h1, h2⟩ := option_or_find_none hb
  simp only [pinsMeet, Bool.and_eq_true, List.any_eq_true, beq_iff_eq] at h1 h2
  rintro (⟨c, hc, -, hw⟩ | ⟨e, he, -, hw⟩)
  · exact h1 c hc hw
  · exact h2 e he hw

/-- A queued store to the page of VREST's header. -/
theorem storeAhead_iff {h : Hart} {base : Word} (hal : base.toNat % 64 = 0) (n : Nat) :
    StoreAhead h base.toNat 64 n ↔
      (∃ c ∈ convoysIn h, c.seq = n ∧ (∃ m ∈ c.members, m.act.isStore = true) ∧
        ∃ q ∈ c.pins, ∃ p ∈ pinsOf [plainPiece base 64], q.ppage = p.ppage) ∨
      ∃ e ∈ h.mq, e.seq = n ∧ e.act.isStore = true ∧ ∃ q ∈ e.pins, ∃ p ∈ pinsOf [plainPiece base 64], q.ppage = p.ppage := by
  have hpage (q : Pin) : (∃ j, j < 64 ∧ q.ppage = (base.toNat + j) / 4096) ↔
      ∃ p ∈ pinsOf [plainPiece base 64], q.ppage = p.ppage := by
    have hp : pinsOf [plainPiece base 64] = [⟨base.toNat / 4096, base.toNat / 4096, false, 12, none, false⟩] := rfl
    simp only [hp, List.mem_singleton, exists_eq_left]
    constructor
    · rintro ⟨j, hj, hq⟩
      omega
    · exact fun hq => ⟨0, by omega, by omega⟩
  simp only [StoreAhead, hpage]

theorem cachesOnly_touch (s : State) (l : List (Nat × Nat)) (c : Nat) :
    CachesOnly s (touch (loadVectorLine c) s l) := touch_cachesOnly _ (loadVectorLine_cachesOnly c) s l

/-- The header of VREST's image fits the hart's registers (R119, R406). -/
def HeaderFits (s : State) (base : Word) : Prop :=
  memNat s base.toNat 2 = 3 ∧
    memNat s (base.toNat + 2) 2 = (me s).lanes.toNat * 32768 / (8 * 2 ^ (me s).regs.toNat) / 64 ∧
    memNat s (base.toNat + 4) 1 = (me s).regs.toNat

/-- The header of an image in plain memory is read there; one that fits lets VREST go on, and only caches have changed. -/
theorem restoreHeader_plain {s : State} {base : Word} (w : Word) (hp : PlainAt s base 64) :
    (HeaderFits s base → restoreHeader s w [plainPiece base 64] =
      .ok (touch (loadVectorLine (coreOf s.cur)) s [(base.toNat, 64)])) ∧
    (¬HeaderFits s base → restoreHeader s w [plainPiece base 64] = .error (raise 0x69 w s)) := by
  obtain ⟨hmon, htask, htasks, -, -, hpoison, hlost, hend, -⟩ := hp
  have hat : taskAt s s.cur = none := by
    unfold taskAt
    rw [show (hart s s.cur).task = none from htask]
  have hirr : isIrrevocable true [plainPiece base 64] = false := by
    simp [isIrrevocable, plainPiece, regionOf_hbm (Nat.lt_of_le_of_lt (Nat.le_trans (Nat.le_add_right _ _) hend) (by decide : 0xEE6B280000 < 0x10000000000))]
  have htrack (ps : List Piece) : trackRead s ps = .go s := by
    unfold trackRead readWaits
    rw [hat]
    simp [homeHeld, htasks]
  have hpois (as : List Nat) : poisonIn s as = none := by simp [poisonIn, hpoison, hlost]
  have hcells : readCells s (pieceBytes [plainPiece base 64]) = (List.range 64).map fun i => memRead s.mem (base.toNat + i) := by
    unfold readCells
    rw [hat]
    simp [pieceBytes, plainPiece]
  have hok : vectorHeaderOk (me s) ((List.range 64).map fun i => memRead s.mem (base.toNat + i)) = true ↔ HeaderFits s base := by
    unfold vectorHeaderOk
    rw [natOfBytes_memNat s base.toNat 0 2 rfl (by decide), natOfBytes_memNat s base.toNat 2 2 rfl (by decide),
      natOfBytes_memNat s base.toNat 4 1 rfl (by decide)]
    simp only [Bool.and_eq_true, beq_iff_eq, and_assoc]
    rfl
  unfold restoreHeader
  simp only [hirr, htrack, hpois, Bool.false_eq_true, if_false]
  exact ⟨fun h => if_pos (hcells ▸ hok.2 h), fun h => if_neg (hcells ▸ mt hok.1 h)⟩

section
variable {s : State} {base : Word} (km : BitVec 3) (w : Word) (hp : PlainAt s base 64) (hal : base.toNat % 64 = 0)
include hp hal

theorem probeAll_header : probeAll (memberAccess s (aloneMember s (.restore base) km)) s [⟨0, base, 64⟩] =
    .ok (s, [plainPiece base 64]) := by
  rw [probeAll_plain (fun _ => rfl) (List.forall_mem_singleton.2 hp)]
  simp only [plainRun, List.flatMap_cons, List.flatMap_nil, plainPieces_header hal, List.append_nil]

/-- A queued store to the page of VREST's header holds it. -/
theorem probeMember_held {n : Nat} (hb : storeBefore (me s) (pinsOf [plainPiece base 64]) = some n) :
    probeMember s { h := me s } (aloneMember s (.restore base) km) w = .stop (waitOn (.older n) s) := by
  unfold probeMember
  simp only [aloneMember_act, probeAll_header km hp hal, hb]

variable (hb : storeBefore (me s) (pinsOf [plainPiece base 64]) = none)
include hb

theorem probeMember_badHeader {t : State} (hh : restoreHeader s w [plainPiece base 64] = .error t) :
    probeMember s { h := me s } (aloneMember s (.restore base) km) w = .stop t := by
  unfold probeMember
  simp only [aloneMember_act, probeAll_header km hp hal, hb, vectorHits_none false (.inl (plainAt_triggers hp)), triggersAct_nil, hh]

theorem probeMember_header {t : State} (hh : restoreHeader s w [plainPiece base 64] = .ok t) :
    probeMember s { h := me s } (aloneMember s (.restore base) km) w =
      probe t { h := me s } (aloneMember s (.restore base) km) 64 := by
  unfold probeMember
  simp only [aloneMember_act, probeAll_header km hp hal, hb, vectorHits_none false (.inl (plainAt_triggers hp)), triggersAct_nil, hh]

end

theorem probeMember_other {s : State} {e : VEnv} {m : VMember} (w : Word) (h : ∀ b, m.act ≠ .restore b) :
    probeMember s e m w = probe s e m := by
  unfold probeMember
  split
  · next b hb => exact absurd hb (h b)
  · rfl

/-! ### The first-fault load (R108, R177, R405) -/

/-- A first-fault load whose element beyond HBM stands behind others is cut there; one whose first element it is traps. -/
theorem probe_firstFault {s : State} {e : VEnv} {m : VMember} {d : Reg} {t : Ty} {ad : VAddr} {pre post : List VAccess}
    {x : VAccess} (hact : m.act = .loadFF d t ad) (hcap : m.cap.mode = (me s).mode)
    (hxs : probesOf e m m.cap.vstart = pre ++ x :: post) (hsorted : (pre ++ x :: post).Pairwise fun y z => y.idx < z.idx)
    (h : ∀ y ∈ pre, PlainAt s y.va y.len) (hmon : (me s).mode = .monitor)
    (ht : (island s (islandOf s.cur)).triggers = []) (hlo : 0xEE6B280000 ≤ x.va.toNat) (hva : x.va.toNat < 0x10000000000)
    (hlen : x.len ≠ 0) :
    probe s e m = if pre = [] then .stop (raise 0x45 x.va s) else .pinned s (pinsOf (plainRun pre)) (some x.idx) := by
  have hstore : m.act.isStore = false := by rw [hact]; rfl
  have hfail : probeAll (memberAccess s m) s (pre ++ x :: post) = .error (s, x.idx, .trap 0x45 x.va) := by
    refine probeAll_unbacked (memberAccess_mode hcap) h hmon rfl ?_ hlo hva hlen
    simp [memberAccess, vectorAccess, hstore]
  have hcut : (pre ++ x :: post).filter (fun y => decide (y.idx < x.idx)) = pre := by
    obtain ⟨hpre, hpost, hlt⟩ := List.pairwise_append.1 hsorted
    rw [List.filter_append, List.filter_eq_self.2 fun y hy => decide_eq_true (hlt y hy x (List.mem_cons_self ..)),
      List.filter_eq_nil_iff.2, List.append_nil]
    intro y hy
    rcases List.mem_cons.1 hy with rfl | hy
    · simp
    · simpa using Nat.le_of_lt (List.rel_of_pairwise_cons hpost hy)
  unfold probe
  simp only [hxs, hfail, hact, hcut]
  cases pre with
  | nil => simp [badFirst]
  | cons y pre =>
    have hne : x.idx ≠ y.idx := (Nat.ne_of_lt (List.rel_of_pairwise_cons hsorted (by simp))).symm
    simp only [List.cons_append, List.head?_cons, Option.map_some, Option.getD_some, hne, reduceCtorEq, or_self, if_false,
      probeAll_plain (memberAccess_mode hcap) h]
    exact admitAccess_plain _ _ (.inl ht) h

/-! ### How a vector instruction alone in its convoy ends (R399 to R401) -/

section
variable {s : State} {i : Instr} {a : VAct} {km : BitVec 3} {after : Word}
  (he : exec i s = .next (enterAlone s i a km after))
include he

theorem alone_cast (h : castHolds (me s) i = true) : Completes i s fun t => Waits s t .castMask :=
  ⟨_, he, enterAlone_cast h ▸ waitOn_waits _ s⟩

theorem alone_bad (h : castHolds (me s) i = false) (hb : consumesBad (me s) i = true) :
    Completes i s fun t => TookBad s t := by
  refine ⟨_, he, ?_⟩
  rw [enterAlone_bad h hb]
  unfold uncorrectable
  rw [raise_taken (by decide)]
  exact takeTrap_trapped _ _ _

theorem alone_room (h : castHolds (me s) i = false) (hb : consumesBad (me s) i = false) (hr : 64 < queuedVector (me s) + 1) :
    Completes i s fun t => Waits s t .vqRoom :=
  ⟨_, he, enterAlone_room h hb hr ▸ waitOn_waits _ s⟩

theorem alone_exposed (h : castHolds (me s) i = false) (hb : consumesBad (me s) i = false)
    (hr : queuedVector (me s) + 1 ≤ 64) (hu : ¬Unexposed s) : Completes i s fun t => Waits s t .exposed :=
  ⟨_, he, enterAlone_exposed h hb hr hu ▸ waitOn_waits _ s⟩

end

theorem exec_alone {s : State} {i : Instr} {hd : VHdr} {a : VAct} (w : EntersAs s i hd a) (hcv : hd.cv = false) :
    exec i s = .next (enterAlone s i a hd.km ((me s).pc + w64 i.length)) := by
  rw [w.exec_eq]
  unfold enterVector enterConvoy
  rw [hcv]
  rfl

/-- No alignment cause where an image's address is a multiple of 64 (R406). -/
theorem alignCheck_none {s : State} {i : Instr} {hd : VHdr} {a : VAct} (w : EntersAs s i hd a)
    (hal : ∀ x, i = .vsave x ∨ i = .vrest x → (rx s x).toNat % 64 = 0) : alignCheck a = none := by
  unfold alignCheck
  split
  · obtain ⟨x, rfl, rfl⟩ := w.image
    exact if_pos (hal x (.inl rfl))
  · obtain ⟨x, rfl, rfl⟩ := w.image
    exact if_pos (hal x (.inr rfl))
  · exact absurd rfl (not_setwm w _ _ _)
  · rfl

section
variable {s : State} {i : Instr} {a : VAct} {km : BitVec 3} {after : Word}

theorem probeAlone_blocked {n : Nat} (h : soleBlocker (me s) (aloneMember s a km) = some n) :
    probeAlone s i a km after = waitOn (.older n) s := by
  unfold probeAlone
  rw [h]

theorem probeAlone_fenced (h : soleBlocker (me s) (aloneMember s a km) = none) (hf : FencedOff (me s)) :
    probeAlone s i a km after = waitOn .vvFence s := by
  unfold probeAlone
  rw [h]
  exact if_pos ((vvPending_iff _).2 hf)

variable (h : soleBlocker (me s) (aloneMember s a km) = none) (hf : ¬FencedOff (me s))
include h hf

theorem probeAlone_stop {t : State} (hp : probeMember s { h := me s } (aloneMember s a km) (leadWord i) = .stop t) :
    probeAlone s i a km after = t := by
  unfold probeAlone
  rw [h, hp]
  exact if_neg (mt (vvPending_iff _).1 hf)

theorem probeAlone_pinned {t : State} {pins : List Pin} {vl : Option Nat}
    (hp : probeMember s { h := me s } (aloneMember s a km) (leadWord i) = .pinned t pins vl) :
    probeAlone s i a km after = placeConvoy [aloneMember s a km] (seedBehind s a) after pins vl t := by
  unfold probeAlone
  rw [h, hp]
  exact if_neg (mt (vvPending_iff _).1 hf)

end

/-! ### The accesses of a first-fault load -/

theorem each_sorted (h : Hart) (hd : VHdr) (t : Ty) (f : Nat → Word) :
    ((vectorBytes.each h hd t f).map accessOf).Pairwise fun y z => y.idx < z.idx := by
  unfold vectorBytes.each
  rw [List.map_map, List.pairwise_map]
  exact (List.pairwise_lt_range).filter _

theorem each_bytes {h : Hart} {hd : VHdr} {t : Ty} {f : Nat → Word} {p : Nat × Word × Nat}
    (hp : p ∈ vectorBytes.each h hd t f) : p.2.2 ≠ 0 := by
  obtain ⟨i, -, rfl⟩ := List.mem_map.1 hp
  show (if elemBits t = 4 then 1 else elemBits t / 8) ≠ 0
  cases t <;> decide

/-! ### A vector instruction whose checks pass (R399 to R401) -/

section
variable {s : State} {i : Instr} {hd : VHdr} {a : VAct} (hm : memberOf (me s) i = some (hd, a)) (hcv : hd.cv = false)
include hm hcv

theorem exec_member : exec i s = .next (enterAlone s i a hd.km ((me s).pc + w64 i.length)) :=
  exec_alone (entersAs_of_memberOf hm) hcv

variable (ha : Admits s i)
include ha

theorem member_fails (hs : Settled s) {c : Byte} (hc : Fails (vectorChecks (me s) i a) c) :
    Completes i s fun t => Trapped s t c (leadWord i) := by
  refine ⟨_, exec_member hm hcv, ?_⟩
  rw [enterAlone_fails ha ((memberCheck_iff (entersAs_of_memberOf hm) _ rfl c).2 hc)]
  exact raise_trapped hs _ _

variable (hp : Passes (vectorChecks (me s) i a))
include hp

/-- One that accesses no memory enters the queue. -/
theorem member_queued (hb : vectorBytes (me s) i = none) :
    Completes i s fun t => QueuedConvoy s t [⟨a, hd.km, captured s⟩] i.length
      (if drawsSeed (me s) i = true then (me s).srseed + (me s).vl.setWidth 64 else (me s).srseed) 0 none [] := by
  have w := entersAs_of_memberOf hm
  have hmem : a.isMem = false := by rw [w.isMem, hb]; rfl
  refine ⟨_, exec_member hm hcv, ?_⟩
  rw [enterAlone_plain ha (memberCheck_of_passes w _ rfl hp) hmem, ← seedBehind_eq w]
  exact queuedConvoy_placeConvoy s a hd.km _ _ none (bs := []) (fun q => by simp) (not_setwm w)

end

theorem member_isMem {s : State} {i : Instr} {hd : VHdr} {a : VAct} (hm : memberOf (me s) i = some (hd, a))
    {bs : List (Nat × Word × Nat)} (hbs : vectorBytes (me s) i = some bs) : a.isMem = true := by
  rw [(entersAs_of_memberOf hm).isMem, hbs]; rfl

/-- A memory instruction alone in its convoy whose state checks pass, with its accesses. -/
structure Checked (s : State) (i : Instr) (hd : VHdr) (a : VAct) (bs : List (Nat × Word × Nat)) : Prop where
  member : memberOf (me s) i = some (hd, a)
  alone : hd.cv = false
  admits : Admits s i
  passes : Passes (vectorChecks (me s) i a)
  bytes : vectorBytes (me s) i = some bs

theorem checked_misaligned {s : State} {i : Instr} {hd : VHdr} {a : VAct} {bs : List (Nat × Word × Nat)}
    (k : Checked s i hd a bs) (hs : Settled s) {x : Word} (hal : alignCheck a = some (0x46, x)) :
    Completes i s fun t => Trapped s t 0x46 x := by
  refine ⟨_, exec_member k.member k.alone, ?_⟩
  rw [enterAlone_misaligned k.admits (memberCheck_of_passes (entersAs_of_memberOf k.member) _ rfl k.passes)
    (member_isMem k.member k.bytes) hal]
  exact raise_trapped hs _ _

section
variable {s : State} {i : Instr} {hd : VHdr} {a : VAct} {bs : List (Nat × Word × Nat)} (k : Checked s i hd a bs)
  (hal : ∀ x, i = .vsave x ∨ i = .vrest x → (rx s x).toNat % 64 = 0)
include k hal

theorem exec_probe : exec i s = .next (probeAlone s i a hd.km ((me s).pc + w64 i.length)) := by
  have w := entersAs_of_memberOf k.member
  rw [exec_member k.member k.alone, enterAlone_mem k.admits (memberCheck_of_passes w _ rfl k.passes)
    (member_isMem k.member k.bytes) (alignCheck_none w hal)]

theorem probe_blocked (hn : ∃ n, ProbeAwaits (me s) i n) :
    Completes i s fun t => ∃ n, ProbeAwaits (me s) i n ∧ Waits s t (.older n) := by
  have w := entersAs_of_memberOf k.member
  have hmem := member_isMem k.member k.bytes
  obtain ⟨n, hb⟩ := soleBlocker_isSome w hmem hn
  refine ⟨_, exec_probe k hal, n, soleBlocker_some w hmem hb, ?_⟩
  rw [probeAlone_blocked hb]
  exact waitOn_waits _ s

variable (hn : ∀ n, ¬ProbeAwaits (me s) i n)
include hn

omit hal in
theorem checked_unblocked : soleBlocker (me s) (aloneMember s a hd.km) = none :=
  soleBlocker_none (entersAs_of_memberOf k.member) (member_isMem k.member k.bytes) hn

theorem probe_fenced (hf : FencedOff (me s)) : Completes i s fun t => Waits s t .vvFence := by
  refine ⟨_, exec_probe k hal, ?_⟩
  rw [probeAlone_fenced (checked_unblocked k hn) hf]
  exact waitOn_waits _ s

variable (hf : ¬FencedOff (me s))
include hf

/-- The probe stops the instruction. -/
theorem probe_stops {t : State}
    (hpr : probeMember s { h := me s } (aloneMember s a hd.km) (leadWord i) = .stop t) : exec i s = .next t := by
  rw [exec_probe k hal, probeAlone_stop (checked_unblocked k hn) hf hpr]

/-- The probe pins the pages of its accesses, with only caches changed. -/
theorem probe_pins {c : Caches} {pins : List Pin} {limit : Option Nat} {qs : List (Nat × Word × Nat)}
    (hpr : probeMember s { h := me s } (aloneMember s a hd.km) (leadWord i) = .pinned { s with caches := c } pins limit)
    (hq : PinnedThere pins qs) : Completes i s fun t => QueuedConvoy { s with caches := c } t [⟨a, hd.km, captured s⟩] i.length
      (if drawsSeed (me s) i = true then (me s).srseed + (me s).vl.setWidth 64 else (me s).srseed) 0 limit qs := by
  have w := entersAs_of_memberOf k.member
  refine ⟨_, exec_probe k hal, ?_⟩
  rw [probeAlone_pinned (checked_unblocked k hn) hf hpr, ← seedBehind_eq w]
  exact queuedConvoy_placeConvoy { s with caches := c } a hd.km _ _ limit hq (not_setwm w)

/-- One over plain memory that restores nothing enters the queue. -/
theorem probe_plain_queues (hwf : i.wf = true) (hi : ∀ x, i ≠ .vrest x) (hpl : ∀ p ∈ bs, PlainAt s p.2.1 p.2.2) :
    Completes i s fun t => QueuedConvoy s t [⟨a, hd.km, captured s⟩] i.length
      (if drawsSeed (me s) i = true then (me s).srseed + (me s).vl.setWidth 64 else (me s).srseed) 0 none bs := by
  have hr : ∀ b, (aloneMember s a hd.km).act ≠ .restore b := by
    intro b hb
    have w := entersAs_of_memberOf k.member
    rw [show a = .restore b from hb] at w
    obtain ⟨x, rfl, -⟩ := vrest_of_restore w
    exact hi x rfl
  refine probe_pins k hal hn hf (c := s.caches) ?_ (pinnedThere_plainRun hpl)
  rw [probeMember_other _ hr]
  exact probe_plain 0 rfl (probesOf_eq hwf k.member k.bytes) (List.forall_mem_map.2 hpl)

end

/-- A first-fault load whose accesses reach beyond HBM: the first of them traps, a later one cuts VL (R108, R405). -/
theorem firstFault_ends {s : State} {hd : VHdr} {d x : Reg} {ty : Ty} {pre post : List (Nat × Word × Nat)} {e n : Nat} {va : Word}
    (hm : memberOf (me s) (.vldff hd d x ty) = some (hd, actVldff d x ty (me s))) (hcv : hd.cv = false)
    (ha : Admits s (.vldff hd d x ty)) (hp : Passes (vectorChecks (me s) (.vldff hd d x ty) (actVldff d x ty (me s))))
    (hwf : (Instr.vldff hd d x ty).wf = true) (hs : Settled s)
    (hbs : vectorBytes (me s) (.vldff hd d x ty) = some (pre ++ (e, va, n) :: post))
    (hn : ∀ n, ¬ProbeAwaits (me s) (.vldff hd d x ty) n) (hf : ¬FencedOff (me s))
    (hpre : ∀ p ∈ pre, PlainAt s p.2.1 p.2.2) (hmon : (me s).mode = .monitor)
    (ht : (island s (islandOf s.cur)).triggers = []) (hlo : 0xEE6B280000 ≤ va.toNat) (hhi : va.toNat + n ≤ 0x10000000000) :
    (pre = [] → Completes (.vldff hd d x ty) s fun t => Trapped s t 0x45 va) ∧
      (pre ≠ [] → Completes (.vldff hd d x ty) s fun t =>
        QueuedConvoy s t [⟨actVldff d x ty (me s), hd.km, captured s⟩] (Instr.vldff hd d x ty).length
          (me s).srseed 0 (some e) pre) := by
  have k : Checked s (.vldff hd d x ty) hd (actVldff d x ty (me s)) _ := ⟨hm, hcv, ha, hp, hbs⟩
  have hal : ∀ y, Instr.vldff hd d x ty = .vsave y ∨ Instr.vldff hd d x ty = .vrest y → (rx s y).toNat % 64 = 0 := by
    rintro y (h | h) <;> cases h
  have hr : ∀ b, (aloneMember s (actVldff d x ty (me s)) hd.km).act ≠ .restore b := by
    intro b h
    cases h
  have heach := Option.some.inj hbs
  have hlen : n ≠ 0 := each_bytes (heach ▸ List.mem_append_right pre (List.mem_cons_self ..))
  have hsorted := heach ▸ each_sorted (me s) hd ty _
  rw [List.map_append, List.map_cons] at hsorted
  have hprobe := probe_firstFault (s := s) (e := { h := me s }) (m := aloneMember s (actVldff d x ty (me s)) hd.km) rfl rfl
    ((probesOf_eq hwf hm hbs).trans (List.map_append ..)) hsorted (List.forall_mem_map.2 hpre) hmon ht hlo
    (show va.toNat < _ by omega) hlen
  constructor
  · rintro rfl
    refine ⟨_, probe_stops k hal hn hf ((probeMember_other _ hr).trans hprobe), ?_⟩
    exact raise_trapped hs _ _
  · intro hne
    rw [if_neg (by simpa using hne)] at hprobe
    exact probe_pins k hal hn hf (c := s.caches) ((probeMember_other _ hr).trans hprobe) (pinnedThere_plainRun hpre)

/-- VREST over plain memory: a queued store to the page of its header holds it, a header that does not fit raises 0x69, and
else it enters the queue. -/
theorem restore_ends {s : State} {hd : VHdr} {a : VAct} {x : Reg} {bs : List (Nat × Word × Nat)} (k : Checked s (.vrest x) hd a bs)
    (hal : ∀ y, Instr.vrest x = .vsave y ∨ Instr.vrest x = .vrest y → (rx s y).toNat % 64 = 0) (hs : Settled s)
    (hn : ∀ n, ¬ProbeAwaits (me s) (.vrest x) n) (hf : ¬FencedOff (me s)) (hpl : ∀ p ∈ bs, PlainAt s p.2.1 p.2.2) :
    ((∃ n, StoreAhead (me s) (rx s x).toNat 64 n) → Completes (.vrest x) s fun t =>
      ∃ n, StoreAhead (me s) (rx s x).toNat 64 n ∧ Waits s t (.older n)) ∧
    ((∀ n, ¬StoreAhead (me s) (rx s x).toNat 64 n) → HeaderFits s (rx s x) → Completes (.vrest x) s fun t => UpToCaches s fun u =>
      QueuedConvoy u t [⟨a, hd.km, captured s⟩] (Instr.vrest x).length (me s).srseed 0 none bs) ∧
    ((∀ n, ¬StoreAhead (me s) (rx s x).toNat 64 n) → ¬HeaderFits s (rx s x) → Completes (.vrest x) s fun t =>
      Trapped s t 0x69 (leadWord (.vrest x))) := by
  have hx := hal x (.inr rfl)
  have hm := k.member
  cases hm
  have hsize := probesOf_eq (i := .vrest x) rfl k.member k.bytes
  obtain rfl := Option.some.inj k.bytes
  have hp64 : PlainAt s (rx s x) 64 := by
    obtain ⟨h1, h2, h3, h4, h5, h6, h7, hend, h9⟩ := List.forall_mem_singleton.1 hpl
    exact ⟨h1, h2, h3, h4, h5, h6, h7, by simp only [rx] at *; omega, h9⟩
  have hhead := restoreHeader_plain (leadWord (.vrest x)) hp64
  have hnone (h : ∀ n, ¬StoreAhead (me s) (rx s x).toNat 64 n) : storeBefore (me s) (pinsOf [plainPiece (rx s x) 64]) = none :=
    Option.eq_none_iff_forall_ne_some.2 fun n hb => h n ((storeAhead_iff hx n).2 (storeBefore_some hb))
  refine ⟨fun hahead => ?_, fun h hfit => ?_, fun h hfit => ?_⟩
  · obtain ⟨n, hb⟩ : ∃ n, storeBefore (me s) (pinsOf [plainPiece (rx s x) 64]) = some n := by
      obtain ⟨n, hn⟩ := hahead
      exact Option.ne_none_iff_exists'.1 fun hb => storeBefore_none hb n ((storeAhead_iff hx n).1 hn)
    exact ⟨_, probe_stops k hal hn hf (probeMember_held 0 _ hp64 hx hb), n, (storeAhead_iff hx n).2 (storeBefore_some hb),
      waitOn_waits _ s⟩
  · have hprobe := probeMember_header (km := 0) _ hp64 hx (hnone h) (hhead.1 hfit)
    rw [cachesOnly_touch s [((rx s x).toNat, 64)] (coreOf s.cur)] at hprobe
    have hpin := probe_plain (s := { s with caches := (touch (loadVectorLine (coreOf s.cur)) s [((rx s x).toNat, 64)]).caches })
      64 rfl hsize (List.forall_mem_map.2 hpl)
    obtain ⟨t, ht, hq⟩ := probe_pins k hal hn hf (hprobe.trans hpin) (pinnedThere_plainRun hpl)
    exact ⟨t, ht, _, hq⟩
  · exact ⟨_, probe_stops k hal hn hf (probeMember_badHeader 0 _ hp64 hx (hnone h) (hhead.2 hfit)), raise_trapped hs _ _⟩

/-! ### SETWM (R199) -/

section
variable {s : State} {a b : Reg} {sc : Scope} (hs : Settled s)
include hs

theorem exec_setwm : exec (.setwm a b sc) s =
    .next (enterAlone s (.setwm a b sc) (.setwm (rx s a) (rx s b) sc) 0 ((me s).pc + w64 4)) := by
  show execSetwm a b sc s = _
  unfold execSetwm
  rw [irrevocably_settled hs]
  rfl

variable (ha : Admits s (.setwm a b sc))
include ha

theorem setwm_misaligned (hal : (rx s a).toNat % 8 ≠ 0) : Completes (.setwm a b sc) s fun t => Trapped s t 0x26 (rx s a) := by
  have hcheck : alignCheck (.setwm (rx s a) (rx s b) sc) = some (0x26, rx s a) := if_neg hal
  refine ⟨_, exec_setwm hs, ?_⟩
  rw [enterAlone_misaligned ha rfl rfl hcheck]
  exact raise_trapped hs _ _

variable (hal : (rx s a).toNat % 8 = 0)
include hal

theorem setwm_probes : exec (.setwm a b sc) s =
    .next (probeAlone s (.setwm a b sc) (.setwm (rx s a) (rx s b) sc) 0 ((me s).pc + w64 4)) := by
  have hcheck : alignCheck (.setwm (rx s a) (rx s b) sc) = none := if_pos hal
  rw [exec_setwm hs, enterAlone_mem ha rfl rfl hcheck]

omit hs ha hal in
theorem setwm_unblocked : soleBlocker (me s) (aloneMember s (.setwm (rx s a) (rx s b) sc) 0) = none := by
  refine Option.eq_none_iff_forall_ne_some.2 fun n hb => ?_
  have hw : StillWrites (me s) ([], []) n := probeBlocker_some hb
  simp [StillWrites, WritesNeed] at hw

theorem setwm_fenced (hf : FencedOff (me s)) : Completes (.setwm a b sc) s fun t => Waits s t .vvFence := by
  refine ⟨_, setwm_probes hs ha hal, ?_⟩
  rw [probeAlone_fenced setwm_unblocked hf]
  exact waitOn_waits _ s

theorem setwm_queues (hf : ¬FencedOff (me s)) (hp : PlainAt s (rx s a) 8) : Completes (.setwm a b sc) s fun t =>
    QueuedConvoy s t [⟨.setwm (rx s a) (rx s b) sc, 0, captured s⟩] 4 (me s).srseed (me s).vstart none [(0, rx s a, 8)] := by
  have hpl : ∀ p ∈ [(0, rx s a, 8)], PlainAt s p.2.1 p.2.2 := List.forall_mem_singleton.2 hp
  have hprobe : probeMember s { h := me s } (aloneMember s (.setwm (rx s a) (rx s b) sc) 0) (leadWord (.setwm a b sc)) =
      .pinned s (pinsOf (plainRun ([(0, rx s a, 8)].map accessOf))) none :=
    (probeMember_other _ fun _ h => by cases h).trans (probe_plain 0 rfl rfl (List.forall_mem_map.2 hpl))
  refine ⟨_, setwm_probes hs ha hal, ?_⟩
  rw [probeAlone_pinned setwm_unblocked hf hprobe]
  exact ⟨_, pinnedThere_plainRun hpl, onlyActing_onMe s _, me_onMe s _⟩

end

/-- Settles O53: a vector instruction alone in its convoy meets its waits, its checks in the order of R399 and its probe,
and enters the queue as one member. -/
theorem vectorQueue : Obligations.VectorQueue := by
  unfold Obligations.VectorQueue
  intro s i hwf hs
  refine ⟨fun hd a hm hcv => ?_, fun a b sc hi => ?_⟩
  · have he := exec_member hm hcv
    refine ⟨alone_cast he, alone_bad he, fun hc hb => ⟨alone_room he hc hb, alone_exposed he hc hb, fun hroom => ?_⟩⟩
    have ha : Admits s i := ⟨hc, hb, hroom.1, hroom.2⟩
    refine ⟨fun c => member_fails hm hcv ha hs, fun hp => ⟨member_queued hm hcv ha hp, fun bs hbs => ?_⟩⟩
    have k : Checked s i hd a bs := ⟨hm, hcv, ha, hp, hbs⟩
    refine ⟨?_, fun hal => ⟨probe_blocked k hal, probe_fenced k hal, fun hn hf => ⟨fun hpl => ⟨?_, ?_⟩, ?_⟩⟩⟩
    · rintro x (rfl | rfl) hne
      · cases hm; exact checked_misaligned k hs (if_neg hne)
      · cases hm; exact checked_misaligned k hs (if_neg hne)
    · exact fun hi => probe_plain_queues k hal hn hf hwf hi hpl
    · rintro x rfl
      have hend := restore_ends k hal hs hn hf hpl
      exact hend
    · rintro hd' d x ty pre e va n post rfl rfl hpre hmon - - ht hlo hhi
      obtain ⟨rfl, rfl⟩ := Prod.mk.inj (Option.some.inj hm)
      exact firstFault_ends hm hcv ha hp hwf hs hbs hn hf hpre hmon ht hlo hhi
  · subst hi
    have he := exec_setwm (a := a) (b := b) (sc := sc) hs
    refine ⟨alone_cast he, alone_bad he, fun hc hb => ⟨alone_room he hc hb, alone_exposed he hc hb, fun hroom => ?_⟩⟩
    have ha : Admits s (.setwm a b sc) := ⟨hc, hb, hroom.1, hroom.2⟩
    exact ⟨setwm_misaligned hs ha, setwm_fenced hs ha, setwm_queues hs ha⟩

end Sys2Proof.Machine

/-! SUPPORT. No operation leaves a reserved value in a system register's field (spec/02_state.md R54, R57, R60;
spec/13_edges.md R266): one lemma for each operation that changes a state, in the order of the model, each from the
lemmas of the operations it calls. `FieldsLegal` has a counterpart here for a hart, for a core and for each type an
operation answers with. -/
namespace Sys2Proof.Machine

/-- No field of the hart holds a value that its register's rule reserves (R54, R57), nor would a write of LOCALSPLIT it
waits with leave one (R60). -/
def HartLegal (h : Hart) : Prop :=
  h.pmode ≠ 3 ∧ h.epc.toNat % 4 = 0 ∧ h.tvec.toNat % 4 ≤ 1 ∧ ∀ d v, h.wait = some (.localsplit d v) → v.toNat % 8 ≤ 4

/-- The core's LOCALSPLIT is at most 4 (R60). -/
def CoreLegal (c : Core) : Prop := c.split.toNat ≤ 4
/-- Every hart of a table is legal. -/
def HartsLegal (l : List (Nat × Hart)) : Prop := ∀ h, HartLegal ((tabGet l h).getD {})
/-- Every core of a table is legal. -/
def CoresLegal (l : List (Nat × Core)) : Prop := ∀ c, CoreLegal ((tabGet l c).getD {})
/-- Every island's tag names a partition or none (R266). -/
def TagsLegal (l : Vector (BitVec 3) 20) : Prop := ∀ n, (hn : n < 20) → l[n].toNat < 4 ∨ l[n].toNat = 7

theorem fieldsLegal_iff (s : State) : FieldsLegal s ↔ HartsLegal s.harts ∧ CoresLegal s.cores ∧ TagsLegal s.tags := Iff.rfl

theorem onHart_legal {s : State} {k : Nat} {f : Hart → Hart} (h : FieldsLegal s) (hf : ∀ x, HartLegal x → HartLegal (f x)) :
    FieldsLegal (onHart s k f) := by
  obtain ⟨a, b, c⟩ := h
  refine ⟨fun j => ?_, b, c⟩
  by_cases hj : j = k
  · subst hj; rw [hart_onHart_same]; exact hf _ (a j)
  · rw [hart_onHart_other _ _ _ _ hj]; exact a j

theorem onCore_legal {s : State} {k : Nat} {f : Core → Core} (h : FieldsLegal s) (hf : ∀ x, CoreLegal x → CoreLegal (f x)) :
    FieldsLegal (onCore s k f) := by
  obtain ⟨a, b, c⟩ := h
  refine ⟨a, fun j => ?_, c⟩
  by_cases hj : j = k
  · subst hj; rw [core_onCore_same]; exact hf _ (b j)
  · rw [core_onCore_other _ _ _ _ hj]; exact b j

theorem onMe_legal {s : State} {f : Hart → Hart} (h : FieldsLegal s) (hf : ∀ x, HartLegal x → HartLegal (f x)) :
    FieldsLegal (onMe s f) := onHart_legal h hf
theorem onIsland_legal {s : State} {n f} (h : FieldsLegal s) : FieldsLegal (onIsland s n f) := h
theorem onPart_legal {s : State} {n f} (h : FieldsLegal s) : FieldsLegal (onPart s n f) := h
theorem onDomain_legal {s : State} {n d f} (h : FieldsLegal s) : FieldsLegal (onDomain s n d f) := h
theorem onSlot_legal {s : State} {n d f} (h : FieldsLegal s) : FieldsLegal (onSlot s n d f) := h
theorem onTask_legal {s : State} {u f} (h : FieldsLegal s) : FieldsLegal (onTask s u f) := h
theorem withCur_legal {s : State} (c : Nat) (h : FieldsLegal s) : FieldsLegal { s with cur := c } := h
theorem hart_legal {s : State} (h : FieldsLegal s) (k : Nat) : HartLegal (hart s k) := h.1 k
theorem me_legal {s : State} (h : FieldsLegal s) : HartLegal (me s) := h.1 _
theorem core_legal {s : State} (h : FieldsLegal s) (k : Nat) : CoreLegal (core s k) := h.2.1 k
theorem defaultHart_legal : HartLegal {} := ⟨by decide, by decide, by decide, nofun⟩
theorem defaultCore_legal : CoreLegal {} := (by decide : (0 : BitVec 3).toNat ≤ 4)

theorem foldl_legal {α : Type} {f : State → α → State} {l : List α} {s : State} (hs : FieldsLegal s)
    (hf : ∀ s a, FieldsLegal s → FieldsLegal (f s a)) : FieldsLegal (l.foldl f s) := by
  induction l generalizing s with
  | nil => exact hs
  | cons a l ih => exact ih (hf s a hs)

theorem CachesOnly.legal {s t : State} (h : CachesOnly s t) (hs : FieldsLegal s) : FieldsLegal t := by
  rw [h]; exact hs

theorem HartLegal.noWait {x : Hart} (h : HartLegal x) : HartLegal { x with wait := none } :=
  ⟨h.1, h.2.1, h.2.2.1, nofun⟩

theorem bv_and_not3 (w : Word) : (w &&& ~~~3#64).toNat % 4 = 0 := by rw [alignedWord_eq, BitVec.toNat_ofNat]; omega

/-- Where the step goes on, the state it goes on to is legal. -/
def OutLegal : Out → Prop
  | .next s => FieldsLegal s
  | _ => True
/-- What an operation found, if it found anything, is legal. -/
def OptionLegal {α : Type} (p : α → Prop) : Option α → Prop
  | some s => p s
  | none => True
/-- What a failing and what a succeeding operation carry is legal. -/
def ExceptLegal {ε α : Type} (p : ε → Prop) (q : α → Prop) : Except ε α → Prop
  | .error e => p e
  | .ok a => q a
theorem ExceptLegal.of_error {ε α : Type} {p : ε → Prop} {q : α → Prop} {x : Except ε α} {e : ε} (h : ExceptLegal p q x)
    (he : x = .error e) : p e := by
  rw [he] at h
  exact h
theorem ExceptLegal.of_ok {ε α : Type} {p : ε → Prop} {q : α → Prop} {x : Except ε α} {a : α} (h : ExceptLegal p q x)
    (he : x = .ok a) : q a := by
  rw [he] at h
  exact h
/-- What an access of the steward that goes through yields is legal. -/
def StwLegal {α : Type} (p : α → Prop) : Stw α → Prop
  | .ok a => p a
  | _ => True
/-- The state is legal whether the tracked access goes on or stops. -/
def TrackedLegal : Tracked → Prop
  | .go s | .stop s => FieldsLegal s
/-- The state is legal whether the access goes on or stops. -/
def AccLegal : Acc → Prop
  | .go s _ | .stop s => FieldsLegal s
/-- The state is legal whether the probe stops or pins its pages. -/
def ProbedLegal : Probed → Prop
  | .stop s | .pinned s _ _ => FieldsLegal s
/-- The state is legal however far a convoy was performed. -/
def PerformedLegal : Performed → Prop
  | .wait s _ | .halt s _ _ | .done s _ => FieldsLegal s
/-- The state is legal however a translation ends. -/
def TransResultLegal : TransResult → Prop
  | .fail s _ | .migrating s | .ok s _ => FieldsLegal s
  | .held => True
/-- The state is legal whether the second probe passes or faults. -/
def ReprobedLegal : Reprobed → Prop
  | .pass s _ | .fault s _ _ _ => FieldsLegal s
  | .stall => True
/-- The write of a system register leaves a legal state, and a wait of LOCALSPLIT keeps a value it may take. -/
def SrWriteLegal : SrWrite → Prop
  | .ok s => FieldsLegal s
  | .trap _ => True
  | .wait w => ∀ d v, w = .localsplit d v → v.toNat % 8 ≤ 4

theorem foldl_fst_legal {α β : Type} {f : State × β → α → State × β} {l : List α} {x : State × β} (hx : FieldsLegal x.1)
    (hf : ∀ x a, FieldsLegal x.1 → FieldsLegal (f x a).1) : FieldsLegal (l.foldl f x).1 := by
  induction l generalizing x with
  | nil => exact hx
  | cons a l ih => exact ih (hf x a hx)

theorem thenStw_legal {α β : Type} {p : α → Prop} {q : β → Prop} {x : Stw α} {k : α → Stw β} (hx : StwLegal p x)
    (hk : ∀ a, p a → StwLegal q (k a)) : StwLegal q (thenStw x k) := by
  cases x with
  | ok a => exact hk a hx
  | fault b => trivial
  | stall m => trivial
theorem foldlStw_legal {α : Type} {f : Stw State → α → Stw State} {l : List α} {x : Stw State} (hx : StwLegal FieldsLegal x)
    (hf : ∀ x a, StwLegal FieldsLegal x → StwLegal FieldsLegal (f x a)) : StwLegal FieldsLegal (l.foldl f x) := by
  induction l generalizing x with
  | nil => exact hx
  | cons a l ih => exact ih (hf x a hx)
theorem stwTrue {α : Type} (x : Stw α) : StwLegal (fun _ => True) x := by cases x <;> trivial
theorem tvecOf_legal (v : Word) : (tvecOf v).toNat % 4 ≤ 1 := by
  rw [tvecOf_eq, BitVec.toNat_ofNat]; split <;> omega
theorem pmodeOf_ne (v : BitVec 2) : pmodeOf v ≠ 3 := by
  unfold pmodeOf; split
  · decide
  · assumption

/-! ### Registers -/

theorem setX_legal {h : Hart} (r : Reg) (v : Word) (hh : HartLegal h) :
    HartLegal (setX h r v) := by
  unfold setX
  split
  · exact hh
  exact hh

theorem setF_legal {h : Hart} (r : Reg) (v : Word) (hh : HartLegal h) :
    HartLegal (setF h r v) :=
  hh

theorem setV_legal {h : Hart} (r : Reg) (v : BitVec 65536) (hh : HartLegal h) :
    HartLegal (setV h r v) :=
  hh

theorem setK_legal {h : Hart} (r : BitVec 3) (v : BitVec 8192) (hh : HartLegal h) :
    HartLegal (setK h r v) := by
  unfold setK
  split
  · exact hh
  exact hh

theorem wx_legal {s : State} (r : Reg) (v : Word) (hs : FieldsLegal s) :
    FieldsLegal (wx s r v) :=
  onMe_legal hs fun _ h => setX_legal _ _ h

theorem wf_legal {s : State} (r : Reg) (v : Word) (hs : FieldsLegal s) :
    FieldsLegal (wf s r v) :=
  onMe_legal hs fun _ h => h

theorem retireHart_legal (len : Nat) {h : Hart} (hh : HartLegal h) :
    HartLegal (retireHart len h) := by
  unfold retireHart
  exact hh.noWait

theorem retire_legal {s : State} (hs : FieldsLegal s) :
    FieldsLegal (retire s) :=
  onMe_legal hs fun _ h => retireHart_legal _ h

theorem retireTo_legal (pc : Word) {s : State} (hs : FieldsLegal s) :
    FieldsLegal (retireTo pc s) := by
  unfold retireTo
  exact onMe_legal hs fun _ h => h.noWait

theorem retireX_legal (d : Reg) (v : Word) {s : State} (hs : FieldsLegal s) :
    FieldsLegal (retireX d v s) :=
  retire_legal (wx_legal _ _ hs)

theorem outX_legal (d : Reg) (v : Word) {s : State} (hs : FieldsLegal s) :
    OutLegal (outX d v s) :=
  retireX_legal _ _ hs

theorem waitOn_legal {w : Wait} {s : State} (hs : FieldsLegal s) (hw : ∀ d v, w = .localsplit d v → v.toNat % 8 ≤ 4) :
    FieldsLegal (waitOn w s) :=
  onMe_legal hs fun _ ⟨hp, he, ht, _⟩ => ⟨hp, he, ht, fun d v h => hw d v (Option.some.inj h)⟩
theorem Option.getD_legal {o : Option State} {s : State} (ho : OptionLegal FieldsLegal o) (hs : FieldsLegal s) :
    FieldsLegal (o.getD s) := by
  cases o with
  | none => exact hs
  | some t => exact ho

theorem dropHeld_legal {h : Hart} (hh : HartLegal h) :
    HartLegal (dropHeld h) :=
  hh

/-! ### Traps -/

theorem leaveEnter_legal {h : Hart} (hh : HartLegal h) :
    HartLegal (leaveEnter h) := by
  unfold leaveEnter
  split
  · exact hh
  exact hh

theorem leaveEnter_keeps (x : Hart) : (leaveEnter x).pmode = x.pmode ∧ (leaveEnter x).epc = x.epc ∧ (leaveEnter x).tvec = x.tvec := by
  unfold leaveEnter; split <;> exact ⟨rfl, rfl, rfl⟩
theorem Mode.code_ne (m : Mode) : m.code ≠ 3 := by cases m <;> decide
theorem trapHart_legal {x : Hart} (code orig : Byte) (tval epc : Word) (hx : HartLegal x) :
    HartLegal (trapHart code orig tval epc x) := by
  obtain ⟨hp, he, ht, -⟩ := hx
  obtain ⟨ep, ee, et⟩ := leaveEnter_keeps x
  rw [trapHart]
  split
  · exact ⟨by rw [ep]; exact hp, by rw [ee]; exact he, by rw [et]; exact ht, nofun⟩
  · exact ⟨Mode.code_ne _, bv_and_not3 epc, by rw [et]; exact ht, nofun⟩

theorem takeTrap_legal (code : Byte) (orig : Byte) (tval : Word) {s : State} (hs : FieldsLegal s) :
    FieldsLegal (takeTrap code orig tval s) :=
  onMe_legal hs fun _ h => trapHart_legal _ _ _ _ h

theorem raise_legal (code : Byte) (tval : Word) {s : State} (hs : FieldsLegal s) :
    FieldsLegal (raise code tval s) := by
  unfold raise
  dsimp only
  split
  · split
    · exact onTask_legal (onMe_legal hs fun _ h => h)
    exact takeTrap_legal _ _ _ hs
  exact takeTrap_legal _ _ _ hs

theorem outTrap_legal (code : Byte) (tval : Word) {s : State} (hs : FieldsLegal s) :
    OutLegal (outTrap code tval s) :=
  raise_legal _ _ hs

theorem returnHart_legal {h : Hart} (hh : HartLegal h) :
    HartLegal (returnHart h) := by
  obtain ⟨hp, he, ht, -⟩ := hh
  unfold returnHart
  split
  · exact ⟨hp, he, ht, nofun⟩
  exact ⟨(by decide : (0 : BitVec 2) ≠ 3), he, ht, nofun⟩

/-! ### The arithmetic flags of FPCTL -/

theorem mergeFlags_legal (f : BitVec 6) {h : Hart} (hh : HartLegal h) :
    HartLegal (mergeFlags f h) :=
  hh

theorem raiseFlags_legal (f : BitVec 6) {s : State} (hs : FieldsLegal s) :
    FieldsLegal (raiseFlags f s) :=
  onMe_legal hs fun _ h => h

/-! ### Places -/

theorem onCoreCache_legal {s : State} (c : Nat) (f : CoreCache → CoreCache) (hs : FieldsLegal s) :
    FieldsLegal (onCoreCache s c f) :=
  CachesOnly.legal (onCoreCache_cachesOnly ..) hs

theorem onHome_legal {s : State} (line : Nat) (f : HomeCache → HomeCache) (hs : FieldsLegal s) :
    FieldsLegal (onHome s line f) :=
  CachesOnly.legal (onHome_cachesOnly ..) hs

/-! ### The home of a line (R25, R148) -/

theorem fillLlc_legal {s : State} (line : Nat) (dirty : Bool) (hs : FieldsLegal s) :
    FieldsLegal (fillLlc s line dirty) :=
  CachesOnly.legal (fillLlc_cachesOnly ..) hs

theorem setEntry_legal {s : State} (e : DirEntry) (hs : FieldsLegal s) :
    FieldsLegal (setEntry s e) :=
  CachesOnly.legal (setEntry_cachesOnly ..) hs

theorem dropCopy_legal (line : Nat) {s : State} (a0 : Sharer) (hs : FieldsLegal s) :
    FieldsLegal (dropCopy line s a0) :=
  CachesOnly.legal (dropCopy_cachesOnly ..) hs

theorem invalidateLine_legal {s : State} (line : Nat) (keep : Option Sharer) (hs : FieldsLegal s) :
    FieldsLegal (invalidateLine s line keep) :=
  CachesOnly.legal (invalidateLine_cachesOnly ..) hs

theorem directoryRoom_legal {s : State} (line : Nat) (hs : FieldsLegal s) :
    FieldsLegal (directoryRoom s line) :=
  CachesOnly.legal (directoryRoom_cachesOnly ..) hs

theorem shareLine_legal {s : State} (who : Sharer) (line : Nat) (hs : FieldsLegal s) :
    FieldsLegal (shareLine s who line) :=
  CachesOnly.legal (shareLine_cachesOnly ..) hs

theorem ownLine_legal {s : State} (who : Sharer) (line : Nat) (hs : FieldsLegal s) :
    FieldsLegal (ownLine s who line) :=
  CachesOnly.legal (ownLine_cachesOnly ..) hs

theorem leaveLine_legal {s : State} (who : Sharer) (line : Nat) (hs : FieldsLegal s) :
    FieldsLegal (leaveLine s who line) :=
  CachesOnly.legal (leaveLine_cachesOnly ..) hs

theorem readHome_legal {s : State} (line : Nat) (hs : FieldsLegal s) :
    FieldsLegal (readHome s line) :=
  CachesOnly.legal (readHome_cachesOnly ..) hs

theorem writeHome_legal {s : State} (line : Nat) (keep : Option Sharer) (hs : FieldsLegal s) :
    FieldsLegal (writeHome s line keep) :=
  CachesOnly.legal (writeHome_cachesOnly ..) hs

theorem cleanLine_legal {s : State} (line : Nat) (hs : FieldsLegal s) :
    FieldsLegal (cleanLine s line) :=
  CachesOnly.legal (cleanLine_cachesOnly ..) hs

theorem purgeLine_legal {s : State} (line : Nat) (hs : FieldsLegal s) :
    FieldsLegal (purgeLine s line) :=
  CachesOnly.legal (purgeLine_cachesOnly ..) hs

/-! ### The caches of a core (R145) -/

theorem dropL2_legal {s : State} (c : Nat) (line : Nat) (hs : FieldsLegal s) :
    FieldsLegal (dropL2 s c line) :=
  CachesOnly.legal (dropL2_cachesOnly ..) hs

theorem fillL2_legal {s : State} (c : Nat) (line : Nat) (hs : FieldsLegal s) :
    FieldsLegal (fillL2 s c line) :=
  CachesOnly.legal (fillL2_cachesOnly ..) hs

theorem loadL2_legal {s : State} (c : Nat) (line : Nat) (hs : FieldsLegal s) :
    FieldsLegal (loadL2 s c line) :=
  CachesOnly.legal (loadL2_cachesOnly ..) hs

theorem storeL2_legal {s : State} (c : Nat) (line : Nat) (hs : FieldsLegal s) :
    FieldsLegal (storeL2 s c line) :=
  CachesOnly.legal (storeL2_cachesOnly ..) hs

theorem trimL2_legal {s : State} (c : Nat) (line : Nat) (hs : FieldsLegal s) :
    FieldsLegal (trimL2 s c line) :=
  CachesOnly.legal (trimL2_cachesOnly ..) hs

theorem fillL1d_legal {s : State} (c : Nat) (line : Nat) (hs : FieldsLegal s) :
    FieldsLegal (fillL1d s c line) :=
  CachesOnly.legal (fillL1d_cachesOnly ..) hs

theorem loadScalarLine_legal (c : Nat) {s : State} (line : Nat) (hs : FieldsLegal s) :
    FieldsLegal (loadScalarLine c s line) :=
  CachesOnly.legal (loadScalarLine_cachesOnly ..) hs

theorem storeScalarLine_legal (c : Nat) {s : State} (line : Nat) (hs : FieldsLegal s) :
    FieldsLegal (storeScalarLine c s line) :=
  CachesOnly.legal (storeScalarLine_cachesOnly ..) hs

theorem loadVectorLine_legal (c : Nat) {s : State} (line : Nat) (hs : FieldsLegal s) :
    FieldsLegal (loadVectorLine c s line) :=
  CachesOnly.legal (loadVectorLine_cachesOnly ..) hs

theorem storeVectorLine_legal (c : Nat) {s : State} (line : Nat) (hs : FieldsLegal s) :
    FieldsLegal (storeVectorLine c s line) :=
  CachesOnly.legal (storeVectorLine_cachesOnly ..) hs

theorem prefetchLine_legal (c : Nat) {s : State} (line : Nat) (hs : FieldsLegal s) :
    FieldsLegal (prefetchLine c s line) :=
  CachesOnly.legal (prefetchLine_cachesOnly ..) hs

theorem flushCore_legal {s : State} (c : Nat) (hs : FieldsLegal s) :
    FieldsLegal (flushCore s c) :=
  CachesOnly.legal (flushCore_cachesOnly ..) hs

theorem touch_legal {f : State → Nat → State} {s : State} (l : List (Nat × Nat)) (hs : FieldsLegal s)
    (hf : ∀ s l, FieldsLegal s → FieldsLegal (f s l)) : FieldsLegal (touch f s l) := foldl_legal hs hf

/-! ### Aborts (R218) -/

theorem idleHart_legal {h : Hart} (hh : HartLegal h) :
    HartLegal (idleHart h) := by
  unfold idleHart
  exact hh.noWait

theorem tabGet_map {α : Type} (f : Nat → α → α) (l : List (Nat × α)) (n : Nat) :
    tabGet (l.map fun p => (p.1, f p.1 p.2)) n = (tabGet l n).map (f n) := by
  induction l with
  | nil => rfl
  | cons p t ih =>
    rw [List.map_cons, tabGet, tabGet]
    split
    · next h => rw [← h]; rfl
    · exact ih
theorem HartsLegal.map {l : List (Nat × Hart)} {f : Nat → Hart → Hart} (hl : HartsLegal l)
    (hf : ∀ n x, HartLegal x → HartLegal (f n x)) : HartsLegal (l.map fun p => (p.1, f p.1 p.2)) := by
  intro h
  have := hl h
  rw [tabGet_map]
  cases he : tabGet l h with
  | none => exact defaultHart_legal
  | some x => rw [he] at this; exact hf h x this
theorem CoresLegal.map {l : List (Nat × Core)} {f : Nat → Core → Core} (hl : CoresLegal l)
    (hf : ∀ n x, CoreLegal x → CoreLegal (f n x)) : CoresLegal (l.map fun p => (p.1, f p.1 p.2)) := by
  intro h
  have := hl h
  rw [tabGet_map]
  cases he : tabGet l h with
  | none => exact defaultCore_legal
  | some x => rw [he] at this; exact hf h x this
theorem wakeConflicts_legal {s : State} (hs : FieldsLegal s) : FieldsLegal (wakeConflicts s) := by
  refine ⟨HartsLegal.map (f := fun _ x => if x.wait == some .conflict then { x with wait := none } else x) hs.1 fun n x hx => ?_, hs.2⟩
  split
  · exact hx.noWait
  · exact hx

theorem dropSaved_legal (uid : Nat) {s : State} (hs : FieldsLegal s) :
    FieldsLegal (dropSaved uid s) :=
  hs

theorem dropTasks_legal {s : State} (uids : List Nat) (hs : FieldsLegal s) :
    FieldsLegal (dropTasks s uids) := by
  unfold dropTasks
  dsimp only
  refine foldl_legal hs (fun x x2 h => ?_)
  split
  · exact onHart_legal (onDomain_legal h) fun _ h2 => idleHart_legal h2
  exact dropSaved_legal _ (onDomain_legal h)

theorem abortTask_legal {s : State} (uid : Nat) (hs : FieldsLegal s) :
    FieldsLegal (abortTask s uid) :=
  wakeConflicts_legal (dropTasks_legal _ hs)

theorem discardTask_legal {s : State} (uid : Nat) (hs : FieldsLegal s) :
    FieldsLegal (discardTask s uid) :=
  wakeConflicts_legal (dropTasks_legal _ hs)

theorem abortAll_legal {s : State} (uids : List Nat) (hs : FieldsLegal s) :
    FieldsLegal (abortAll s uids) := by
  unfold abortAll
  refine foldl_legal hs (fun x x2 h => ?_)
  split
  · split
    · exact h
    exact abortTask_legal _ h
  exact h

/-! ### Foreign writes (R217) -/

theorem abortReaders_legal {s : State} (w : Writer) (us : List TUnit) (hs : FieldsLegal s) :
    FieldsLegal (abortReaders s w us) :=
  abortAll_legal _ hs

theorem storeBytes_legal {s : State} (cells : List Host.Cell) (hs : FieldsLegal s) :
    FieldsLegal (storeBytes s cells) :=
  hs

theorem foreignStore_legal {s : State} (w : Writer) (cells : List Host.Cell) (hs : FieldsLegal s) :
    FieldsLegal (foreignStore s w cells) :=
  storeBytes_legal _ (abortReaders_legal _ _ hs)

theorem homeStore_legal {s : State} (w : Writer) (cells : List Host.Cell) (hs : FieldsLegal s) :
    FieldsLegal (homeStore s w cells) := by
  exact touch_legal _ (foreignStore_legal _ _ hs) fun _ _ h => writeHome_legal _ _ h

theorem pendIrq_legal {s : State} (h : Nat) (k : Nat) (hs : FieldsLegal s) :
    FieldsLegal (pendIrq s h k) :=
  onHart_legal hs fun _ h => h

theorem pendNamed_legal {s : State} (h : Nat) (k : Nat) (hs : FieldsLegal s) :
    FieldsLegal (pendNamed s h k) := by
  unfold pendNamed
  split
  · exact pendIrq_legal _ _ hs
  exact hs

theorem applyBump_legal {s : State} (a0 : Option Bump) (hs : FieldsLegal s) :
    FieldsLegal (applyBump s a0) := by
  unfold applyBump
  split
  · exact hs
  · dsimp only
    split
    · exact pendNamed_legal _ _ hs
    · exact hs
  · exact hs
  · exact onCore_legal hs fun _ h => h

theorem agentStore_legal {s : State} (ag : Agent) (pa : Nat) (bs : List Byte) (bump : Option Bump) (last : Bool) (pins : List Pin) (hs : FieldsLegal s) :
    FieldsLegal (agentStore s ag pa bs bump last pins) := by
  unfold agentStore
  dsimp only
  split
  · exact hs
  split
  · exact homeStore_legal _ _ hs
  exact applyBump_legal _ (homeStore_legal _ _ hs)

theorem flushPending_legal {s : State} (hs : FieldsLegal s) :
    FieldsLegal (flushPending s) := by
  exact foldl_legal hs fun s p h => agentStore_legal _ _ _ _ _ _ h

/-! ### The walk (R169 to R173) -/

theorem clearRange_legal {s : State} (a : Nat) (n : Nat) (hs : FieldsLegal s) :
    FieldsLegal (clearRange s a n) :=
  hs

theorem fillPlace_legal (c : Nat) (e : TlbEntry) {s : State} (p : TlbPort) (hs : FieldsLegal s) :
    FieldsLegal (fillPlace c e s p) :=
  onCore_legal hs fun _ h => h

theorem fillPort_legal {s : State} (c : Nat) (p : TlbPort) (e : TlbEntry) (hs : FieldsLegal s) :
    FieldsLegal (fillPort s c p e) :=
  foldl_legal hs fun _ _ h => fillPlace_legal _ _ _ h

theorem fillTlb_legal {s : State} (c : Nat) (e : TlbEntry) (hs : FieldsLegal s) :
    FieldsLegal (fillTlb s c e) :=
  onCore_legal hs fun _ h => h

theorem dropSame_legal {s : State} (c : Nat) (e : TlbEntry) (hs : FieldsLegal s) :
    FieldsLegal (dropSame s c e) := by
  unfold dropSame
  split
  · exact hs
  exact onCore_legal hs fun _ h => h

theorem setEntryBits_legal {s : State} (a : Access) (at_ : Nat) (e : Nat) (hs : FieldsLegal s) :
    OptionLegal FieldsLegal (setEntryBits s a at_ e) := by
  unfold setEntryBits
  dsimp only
  split
  · exact trivial
  refine storeVectorLine_legal _ _ ?_
  split
  · exact hs
  exact abortReaders_legal _ _ hs

theorem translate_legal {s : State} (a : Access) (va : Word) (hs : FieldsLegal s) :
    TransResultLegal (translate s a va) := by
  unfold translate
  split
  · split <;> exact hs
  · split
    · exact hs
    · dsimp only
      split
      · split
        · exact fillPort_legal _ _ _ hs
        · exact hs
      · split
        · exact hs
        · trivial
        · next l _ =>
          split
          · exact dropSame_legal _ _ hs
          · split
            · exact dropSame_legal _ _ hs
            · have h0 : FieldsLegal (touch (loadVectorLine (coreOf a.hart)) s
                  ((walkReads s (va.toNat % 2 ^ 48) 4 (rootOf a.ptbase)).map fun p => (p, 8))) :=
                touch_legal _ hs fun _ _ h => loadVectorLine_legal _ _ h
              split
              · trivial
              · next s1 he =>
                have h1 : FieldsLegal s1 := by
                  generalize l.entry ||| 64 ||| (if (a.kind == AccKind.store) = true then 128 else 0) = e' at he
                  split at he
                  · exact Option.some.inj he ▸ h0
                  · have hset := setEntryBits_legal a l.entryAt e' h0
                    rw [he] at hset
                    exact hset
                split
                · exact dropSame_legal _ _ h1
                · exact fillPort_legal _ _ _ (fillTlb_legal _ _ h1)

/-! ### The check of an access -/

theorem checkPiece_legal {s : State} (a : Access) (va : Word) (len : Nat) (hs : FieldsLegal s) :
    ExceptLegal (FieldsLegal ·.1) (FieldsLegal ·.1) (checkPiece s a va len) := by
  unfold checkPiece
  dsimp only
  split
  · next he =>
      have hk := Eq.subst (motive := TransResultLegal) he (translate_legal _ _ hs)
      exact hk
  · next he2 =>
      have hk2 := Eq.subst (motive := TransResultLegal) he2 (translate_legal _ _ hs)
      exact hk2
  · exact hs
  · next he3 =>
      have hk3 := Eq.subst (motive := TransResultLegal) he3 (translate_legal _ _ hs)
      split
      · exact hk3
      repeat' split
      all_goals exact hk3

theorem checkAccess_legal {s : State} (a : Access) (va : Word) (n : Nat) (hs : FieldsLegal s) :
    ExceptLegal (FieldsLegal ·.1) (FieldsLegal ·.1) (checkAccess s a va n) := by
  unfold checkAccess
  dsimp only
  split
  · split
    · next he =>
        have hk := Eq.subst (motive := ExceptLegal _ _) he (checkPiece_legal _ _ _ hs)
        exact hk
    · next he2 =>
        have hk2 := Eq.subst (motive := ExceptLegal _ _) he2 (checkPiece_legal _ _ _ hs)
        exact hk2
  split
  · next he3 =>
      have hk3 := Eq.subst (motive := ExceptLegal _ _) he3 (checkPiece_legal _ _ _ hs)
      exact hk3
  · next he4 =>
      have hk4 := Eq.subst (motive := ExceptLegal _ _) he4 (checkPiece_legal _ _ _ hs)
      split
      · next he5 =>
          have hk5 := Eq.subst (motive := ExceptLegal _ _) he5 (checkPiece_legal _ _ _ hk4)
          exact hk5
      · next he6 =>
          have hk6 := Eq.subst (motive := ExceptLegal _ _) he6 (checkPiece_legal _ _ _ hk4)
          exact hk6

theorem checkRun_legal {s : State} (a : Access) (a0 : Nat) (a1 : Word) (a2 : Nat) (hs : FieldsLegal s) :
    ExceptLegal (FieldsLegal ·.1) (FieldsLegal ·.1) (checkRun s a a0 a1 a2) := by
  induction a0 generalizing s a1 a2 <;> grind [checkRun, checkPiece_legal, ExceptLegal]

/-! ### Fetch (R282, R284) -/

theorem fillCode_legal {s : State} (c : Nat) (pa : Nat) (hs : FieldsLegal s) :
    FieldsLegal (fillCode s c pa) := by
  unfold fillCode
  dsimp only
  split
  · exact hs
  exact onCore_legal (touch_legal _ hs fun _ _ h => loadVectorLine_legal _ _ h) fun _ h2 => h2

theorem fetchWord_legal {s : State} (h : Nat) (va : Word) (hs : FieldsLegal s) :
    ExceptLegal (FieldsLegal ·.1) (FieldsLegal ·.1) (fetchWord s h va) := by
  unfold fetchWord
  dsimp only
  split
  · next he =>
      have hk := Eq.subst (motive := ExceptLegal _ _) he (checkAccess_legal _ _ _ hs)
      exact hk
  · next he2 =>
      have hk2 := Eq.subst (motive := ExceptLegal _ _) he2 (checkAccess_legal _ _ _ hs)
      split
      · exact hk2
      split
      · exact hk2
      exact foldl_legal hk2 fun _ _ h2 => fillCode_legal _ _ h2

theorem leadingWord_legal {s : State} (h : Nat) (va : Word) (hs : FieldsLegal s) :
    ExceptLegal (FieldsLegal ·.1) (FieldsLegal ·.1) (leadingWord s h va) := by
  unfold leadingWord
  split
  · exact hs
  exact fetchWord_legal _ _ hs

theorem fetchInstr_legal {s : State} (h : Nat) (va : Word) (hs : FieldsLegal s) :
    ExceptLegal (FieldsLegal ·.1) (FieldsLegal ·.1) (fetchInstr s h va) := by
  unfold fetchInstr
  split
  · exact hs
  · have h1 := fetchWord_legal h va hs
    split
    · next he => rw [he] at h1; exact h1
    · next s1 w0 he =>
      rw [he] at h1
      split
      · exact h1
      · have h2 := fetchWord_legal h (va + 4) (s := s1) h1
        split
        · next he => rw [he] at h2; exact h2
        · next s2 w1 he =>
          rw [he] at h2
          split
          · exact h2
          · have h3 := fetchWord_legal h (va + 8) (s := s2) h2
            split
            · next he => rw [he] at h3; exact h3
            · next he => rw [he] at h3; exact h3

/-! ### Accesses of the acting hart (R215, R216, R222) -/

theorem makeIrrev_legal {s : State} (e : TaskEntry) (hs : FieldsLegal s) :
    FieldsLegal (makeIrrev s e) := by
  unfold makeIrrev
  dsimp only
  split
  · split
    · exact onTask_legal (onTask_legal hs)
    exact onHart_legal (onTask_legal hs) fun _ h => trapHart_legal _ _ _ _ h
  exact onTask_legal hs

theorem irrevocable_legal {s : State} (hs : FieldsLegal s) :
    TrackedLegal (irrevocable s) := by
  unfold irrevocable
  split
  · exact hs
  split
  · exact hs
  split
  · exact makeIrrev_legal _ hs
  exact onTask_legal hs

/-- Where a condition asks for it, the task first becomes irrevocable. -/
theorem irrevocableIf_legal {s : State} (c : Prop) [Decidable c] (hs : FieldsLegal s) :
    TrackedLegal (if c then irrevocable s else .go s) := by
  split
  · exact irrevocable_legal hs
  exact hs

theorem stallTask_legal {s : State} (e : TaskEntry) (hs : FieldsLegal s) :
    FieldsLegal (stallTask s e) := by
  unfold stallTask
  split
  · exact waitOn_legal hs nofun
  exact onTask_legal hs

theorem freeMarks_legal (v : Nat) (n : Nat) (need : Nat) (a0 : Nat) {s : State} (hs : FieldsLegal s) :
    FieldsLegal (freeMarks v n need a0 s) := by
  induction a0 generalizing s <;> grind [freeMarks, abortTask_legal]

theorem markRoom_legal {s : State} (e : TaskEntry) (us : List TUnit) (hs : FieldsLegal s) :
    TrackedLegal (markRoom s e us) := by
  unfold markRoom
  dsimp only
  split
  · split
    · exact stallTask_legal _ (foldl_legal hs fun _ _ h => freeMarks_legal _ _ _ _ h)
    exact foldl_legal hs fun _ _ h2 => freeMarks_legal _ _ _ _ h2
  split
  · exact irrevocable_legal hs
  exact hs

theorem readWaits_legal {s : State} (ps : List Piece) (hs : FieldsLegal s) :
    OptionLegal FieldsLegal (readWaits s ps) := by
  unfold readWaits
  split
  · split
    · exact waitOn_legal hs nofun
    exact trivial
  split
  · exact stallTask_legal _ hs
  exact trivial

theorem trackRead_legal {s : State} (ps : List Piece) (hs : FieldsLegal s) :
    TrackedLegal (trackRead s ps) := by
  unfold trackRead
  split
  · next he =>
      have hk := Eq.subst (motive := OptionLegal _) he (readWaits_legal _ hs)
      exact hk
  · exact hs
  split
  · next he2 =>
      have hk2 := Eq.subst (motive := TrackedLegal) he2 (markRoom_legal _ _ hs)
      exact hk2
  · next he3 =>
      have hk3 := Eq.subst (motive := TrackedLegal) he3 (markRoom_legal _ _ hs)
      exact onTask_legal hk3

theorem trackWrite_legal {s : State} (ps : List Piece) (cells : List Host.Cell) (hs : FieldsLegal s) :
    TrackedLegal (trackWrite s ps cells) := by
  unfold trackWrite
  dsimp only
  split
  · split
    · exact waitOn_legal hs nofun
    exact foreignStore_legal _ _ hs
  split
  · next he => exact Eq.subst (motive := TrackedLegal) he (irrevocableIf_legal _ hs)
  · next s0 he =>
      have h0 : FieldsLegal s0 := Eq.subst (motive := TrackedLegal) he (irrevocableIf_legal _ hs)
      split
      · next he => exact Eq.subst (motive := TrackedLegal) he (markRoom_legal _ _ h0)
      · next s1 he =>
          have h1 : FieldsLegal s1 := Eq.subst (motive := TrackedLegal) he (markRoom_legal _ _ h0)
          split
          · split
            · exact stallTask_legal _ h1
            exact onTask_legal (homeStore_legal _ _ (onTask_legal (abortAll_legal _ h1)))
          · split
            · exact stallTask_legal _ h1
            exact foldl_legal (onTask_legal (onTask_legal (abortAll_legal _ h1))) fun _ _ h => trimL2_legal _ _ h

/-! ### The frontier and commit (R219, R220) -/

theorem renameKey_legal {s : State} (v : Nat) (d : Nat) (old : Key) (new : Key) (hs : FieldsLegal s) :
    FieldsLegal (renameKey s v d old new) :=
  hs

theorem commitTask_legal {s : State} (uid : Nat) (hs : FieldsLegal s) :
    FieldsLegal (commitTask s uid) := by
  grind [commitTask, renameKey_legal, homeStore_legal, onDomain_legal, foldl_legal, fieldsLegal_iff]

/-! ### Interrupts and codes -/

theorem raiseCode_legal {s : State} (c : Byte) (hs : FieldsLegal s) :
    FieldsLegal (raiseCode s c) := by
  unfold raiseCode
  split
  · exact hs
  exact hs

/-! ### Error records (R261) -/

theorem errorRecord_legal {s : State} (f : Option Nat) (isl : Nat) (r : ErrRec) (hs : FieldsLegal s) :
    FieldsLegal (errorRecord s f isl r) := by
  cases f with grind [errorRecord, agentStore_legal, onPart_legal]

theorem freezeHart_legal {s : State} (h : Nat) (master : Nat) (code : Byte) (tval : Word) (pa : Nat) (hs : FieldsLegal s) :
    FieldsLegal (freezeHart s h master code tval pa) := by
  unfold freezeHart
  dsimp only
  exact raiseCode_legal _ (errorRecord_legal _ _ _ (onHart_legal hs fun _ h2 => h2))

theorem uncorrectable_legal (code : Byte) (pa : Nat) {s : State} (hs : FieldsLegal s) :
    FieldsLegal (uncorrectable code pa s) :=
  raise_legal _ _ (errorRecord_legal _ _ _ hs)

theorem haltHart_legal {s : State} (h : Nat) (master : Nat) (progress : Nat) (pa : Nat) (pc : Word) (hs : FieldsLegal s) :
    FieldsLegal (haltHart s h master progress pa pc) := by
  unfold haltHart
  dsimp only
  refine raiseCode_legal _ ?_
  refine errorRecord_legal _ _ _ ?_
  split
  · exact hs
  exact onHart_legal hs fun _ h2 => h2

/-! ### Decision records (R247) -/

theorem decisionRecord_legal {s : State} (n : Nat) (r : Decision) (hs : FieldsLegal s) :
    FieldsLegal (decisionRecord s n r) := by
  unfold decisionRecord
  dsimp only
  split
  · exact hs
  split
  · exact onIsland_legal hs
  exact onIsland_legal (agentStore_legal _ _ _ _ _ _ hs)

/-! ### Trace (R280, R281) -/

theorem tracePut_legal {s : State} (c : Nat) (ws : List Nat) (hs : FieldsLegal s) :
    FieldsLegal (tracePut s c ws) := by
  exact foldl_legal hs fun s p h => agentStore_legal _ _ _ _ _ _ h

theorem traceFit_legal {s : State} (c : Nat) (w : Nat) (hs : FieldsLegal s) :
    OptionLegal FieldsLegal (traceFit s c w) := by
  unfold traceFit
  dsimp only
  split
  · split
    · exact onCore_legal (tracePut_legal _ _ hs) fun _ h => h
    exact trivial
  split
  · exact onCore_legal (tracePut_legal _ _ hs) fun _ h2 => h2
  exact trivial

theorem traceGaps_legal (c : Nat) (a0 : List Nat) {s : State} (a2 : Nat) (hs : FieldsLegal s) :
    FieldsLegal (traceGaps c a0 s a2).1 := by
  induction a0 generalizing s a2 <;> grind [traceGaps, traceFit_legal, OptionLegal]

theorem traceTruncate_legal {s : State} (c : Nat) (slot : Nat) (pipe : Nat) (member : Nat) (tag : Nat) (left : Nat) (hs : FieldsLegal s) :
    FieldsLegal (traceTruncate s c slot pipe member tag left) := by
  unfold traceTruncate
  dsimp only
  exact pendNamed_legal _ _ (onCore_legal (tracePut_legal _ _ hs) fun _ h => h)

theorem traceRecord_legal {s : State} (c : Nat) (kind : Nat) (slot : Nat) (pipe : Nat) (member : Nat) (tag : Nat) (hs : FieldsLegal s) :
    FieldsLegal (traceRecord s c kind slot pipe member tag) := by
  unfold traceRecord
  dsimp only
  generalize gapWords _ _ = g
  split
  · exact hs
  · split
    · exact onCore_legal hs fun _ h => h
    · have h1 := traceGaps_legal c g.1 (s.time - (core s c).trace.lastAt) hs
      refine Option.getD_legal ?_ (traceTruncate_legal _ _ _ _ _ _ h1)
      generalize traceGaps _ _ _ _ = r at h1 ⊢
      rw [apply_ite (OptionLegal FieldsLegal)]
      split
      · exact traceFit_legal _ _ h1
      · trivial

theorem traceResume_legal {s : State} (c : Nat) (hs : FieldsLegal s) :
    FieldsLegal (traceResume s c) := by
  unfold traceResume
  dsimp only
  split
  · exact onCore_legal (tracePut_legal _ _ hs) fun _ h => h
  exact hs

theorem traceAt_legal {s : State} (h : Nat) (e : TraceEvent) (hs : FieldsLegal s) :
    FieldsLegal (traceAt s h e) := by
  unfold traceAt
  dsimp only
  split
  · exact onCore_legal hs fun _ h2 => h2
  exact hs

theorem traceFlights_legal {s : State} (hs : FieldsLegal s) :
    FieldsLegal (traceFlights s) := by
  unfold traceFlights
  refine foldl_legal hs (fun x x2 h => ?_)
  split
  · exact h
  split
  · exact h
  exact onHart_legal (foldl_legal h fun _ _ h2 => traceAt_legal _ _ h2) fun _ h3 => h3

theorem traceFlush_legal {s : State} (hs : FieldsLegal s) :
    FieldsLegal (traceFlush s) := by
  unfold traceFlush
  dsimp only
  refine foldl_legal hs (fun x x2 h => ?_)
  split
  · exact h
  exact foldl_legal (onCore_legal h fun _ h2 => h2) fun _ _ h3 => traceRecord_legal _ _ _ _ _ _ h3

/-! ### Data triggers (R278) -/

theorem triggersAct_legal (base : Byte) (hits : List (Nat × Nat × Word)) {s : State} (hs : FieldsLegal s) :
    TrackedLegal (triggersAct base hits s) := by
  unfold triggersAct
  dsimp only
  split
  · exact onMe_legal (onIsland_legal hs) fun _ h => h
  split
  · exact raise_legal _ _ (foldl_legal hs fun _ _ h2 => traceAt_legal _ _ h2)
  exact foldl_legal hs fun _ _ h3 => traceAt_legal _ _ h3

theorem pcTriggers_legal (vas : List Word) {s : State} (hs : FieldsLegal s) :
    TrackedLegal (pcTriggers vas s) :=
  triggersAct_legal _ _ hs

/-! ### Checked accesses -/

theorem badAccess_legal (kind : AccKind) (b : Bad) {s : State} (hs : FieldsLegal s) :
    FieldsLegal (badAccess kind b s) := by
  cases b with grind [badAccess, uncorrectable_legal, raise_legal, freezeHart_legal, waitOn_legal]

theorem openScalar_legal (loads : Bool) (stores : Bool) (amo : Bool) (va : Word) (n : Nat) {s : State} (hs : FieldsLegal s) :
    AccLegal (openScalar loads stores amo va n s) := by
  unfold openScalar
  dsimp only
  split
  · next he =>
      have hk := Eq.subst (motive := ExceptLegal _ _) he (checkAccess_legal _ _ _ hs)
      exact badAccess_legal _ _ hk
  · next he2 =>
      have hk2 := Eq.subst (motive := ExceptLegal _ _) he2 (checkAccess_legal _ _ _ hs)
      split
      · next he3 =>
          have hk3 := Eq.subst (motive := TrackedLegal) he3 (triggersAct_legal _ _ hk2)
          exact hk3
      · next he4 =>
          have hk4 := Eq.subst (motive := TrackedLegal) he4 (triggersAct_legal _ _ hk2)
          split
          · split
            · next he5 =>
                have hk5 := Eq.subst (motive := TrackedLegal) he5 (irrevocable_legal hk4)
                exact hk5
            · next he6 =>
                have hk6 := Eq.subst (motive := TrackedLegal) he6 (irrevocable_legal hk4)
                exact hk6
          exact hk4

theorem takeBytes_legal {before : State} {s : State} (ps : List Piece) (hbefore : FieldsLegal before) (hs : FieldsLegal s) :
    ExceptLegal FieldsLegal (FieldsLegal ·.1) (takeBytes before s ps) := by
  unfold takeBytes
  split
  · exact uncorrectable_legal _ _ hbefore
  exact touch_legal _ hs fun _ _ h => loadScalarLine_legal _ _ h

theorem readScalar_legal {s : State} (ps : List Piece) (hs : FieldsLegal s) :
    ExceptLegal FieldsLegal (FieldsLegal ·.1) (readScalar s ps) := by
  unfold readScalar
  split
  · next he =>
      have hk := Eq.subst (motive := TrackedLegal) he (trackRead_legal _ hs)
      exact hk
  · next he2 =>
      have hk2 := Eq.subst (motive := TrackedLegal) he2 (trackRead_legal _ hs)
      exact takeBytes_legal _ hs hk2

theorem writeCells_legal {line : Nat → State → Nat → State} {s : State} (ps : List Piece) (cells : List Host.Cell)
    (hline : ∀ c s l, FieldsLegal s → FieldsLegal (line c s l)) (hs : FieldsLegal s) :
    ExceptLegal FieldsLegal FieldsLegal (writeCells line s ps cells) := by
  have h1 := trackWrite_legal (ps.filter fun p => tracked p.pa) (cells.filter fun c => tracked c.1) hs
  unfold writeCells
  split
  · next s1 he => rw [he] at h1; exact h1
  · next s1 he =>
    rw [he] at h1
    have h2 := storeBytes_legal (cells.filter fun c => !tracked c.1) h1
    dsimp only
    split
    · exact h2
    · exact touch_legal _ h2 (hline _)

theorem writeScalar_legal {s : State} (ps : List Piece) (bs : List Byte) (hs : FieldsLegal s) :
    ExceptLegal FieldsLegal FieldsLegal (writeScalar s ps bs) := by
  exact writeCells_legal _ _ (fun c _ l h => storeScalarLine_legal c l h) hs

theorem writeVector_legal {s : State} (ps : List Piece) (bs : List Byte) (hs : FieldsLegal s) :
    ExceptLegal FieldsLegal FieldsLegal (writeVector s ps bs) := by
  exact writeCells_legal _ _ (fun c _ l h => storeVectorLine_legal c l h) hs

/-! ### Lanes and engine (R55, R56, R59) -/

theorem releaseGroups_legal {h : Hart} (hh : HartLegal h) :
    HartLegal (releaseGroups h) :=
  hh

theorem zeroVector_legal {h : Hart} (hh : HartLegal h) :
    HartLegal (zeroVector h) :=
  hh

theorem zeroMatrix_legal {c : Core} (hc : CoreLegal c) :
    CoreLegal (zeroMatrix c) :=
  hc

theorem setSplit_legal {s : State} (c : Nat) {v : BitVec 3} (hs : FieldsLegal s) (hv : v.toNat ≤ 4) : FieldsLegal (setSplit s c v) :=
  clearRange_legal _ _ (onCore_legal (flushCore_legal c hs) fun _ _ => hv)
theorem splitOf_le (n : Nat) : (splitOf n).toNat ≤ 4 := by
  unfold splitOf; split_ifs <;> decide

/-! ### Images -/

theorem loadVector_legal (bs : List Byte) {h : Hart} (hh : HartLegal h) :
    HartLegal (loadVector bs h) := by
  grind [loadVector, HartLegal]

theorem loadMatrix_legal (bs : List Byte) {c : Core} (hc : CoreLegal c) :
    CoreLegal (loadMatrix bs c) :=
  hc

/-! ### Messages, the gang barrier, the waits on TIME and on a watermark, fences, and the events that end a wait -/

theorem irrevocably_legal {s : State} {k : State → State} (hs : FieldsLegal s) (hk : ∀ s, FieldsLegal s → FieldsLegal (k s)) :
    FieldsLegal (irrevocably s k) := by
  grind [irrevocably, irrevocable_legal, TrackedLegal]

theorem checkBytes_legal (kind : AccKind) (va : Word) (n : Nat) {s : State} (hs : FieldsLegal s) :
    ExceptLegal FieldsLegal (FieldsLegal ·.1) (checkBytes kind va n s) := by
  unfold checkBytes
  split
  · next he =>
      have hk := Eq.subst (motive := ExceptLegal _ _) he (checkRun_legal _ _ _ _ hs)
      exact badAccess_legal _ _ hk
  · next he2 =>
      have hk2 := Eq.subst (motive := ExceptLegal _ _) he2 (checkRun_legal _ _ _ _ hs)
      split
      · next he3 =>
          have hk3 := Eq.subst (motive := TrackedLegal) he3 (triggersAct_legal _ _ hk2)
          exact hk3
      · next he4 =>
          have hk4 := Eq.subst (motive := TrackedLegal) he4 (triggersAct_legal _ _ hk2)
          exact hk4

/-! ### Messages (R241 to R243) -/

theorem setInbox_legal (cls : Bool) (l : List Message) {h : Hart} (hh : HartLegal h) :
    HartLegal (setInbox cls l h) := by
  unfold setInbox
  split
  · exact hh
  exact hh

theorem sendWaits_legal (dest : Nat) (cls : Bool) (va : Word) (n : Nat) {s : State} (hs : FieldsLegal s) :
    FieldsLegal (sendWaits dest cls va n s) := by
  unfold sendWaits
  split
  · exact waitOn_legal hs nofun
  exact hs

theorem sendFrom_legal (dest : Nat) (cls : Bool) (va : Word) (n : Nat) {s : State} (hs : FieldsLegal s) :
    FieldsLegal (sendFrom dest cls va n s) := by
  unfold sendFrom
  split
  · next he =>
      have hk := Eq.subst (motive := ExceptLegal _ _) he (checkBytes_legal _ _ _ hs)
      exact sendWaits_legal _ _ _ _ hk
  · next he2 =>
      have hk2 := Eq.subst (motive := ExceptLegal _ _) he2 (checkBytes_legal _ _ _ hs)
      split
      · exact waitOn_legal hs nofun
      split
      · next he3 =>
          have hk3 := Eq.subst (motive := ExceptLegal _ _) he3 (readScalar_legal _ hk2)
          exact sendWaits_legal _ _ _ _ hk3
      · next he4 =>
          have hk4 := Eq.subst (motive := ExceptLegal _ _) he4 (readScalar_legal _ hk2)
          exact retire_legal (onHart_legal hk4 fun _ h => setInbox_legal _ _ h)

theorem execSend_legal (d : Reg) (a : Reg) (b : Reg) (u : Bool) {s : State} (hs : FieldsLegal s) :
    OutLegal (execSend d a b u s) := by
  unfold execSend
  dsimp only
  refine irrevocably_legal hs (fun x h => ?_)
  split
  · exact raise_legal _ _ h
  split
  · exact raise_legal _ _ h
  split
  · exact raise_legal _ _ h
  exact sendFrom_legal _ _ _ _ h

theorem beginBlocked_legal {s : State} (hs : FieldsLegal s) :
    FieldsLegal (beginBlocked s) := by
  unfold beginBlocked
  dsimp only
  split
  · exact onIsland_legal hs
  exact hs

theorem recvInto_legal (d : Reg) (va : Word) (filter : Word) (cls : Bool) (w : Word) {s : State} (hs : FieldsLegal s) :
    FieldsLegal (recvInto d va filter cls w s) := by
  have h1 := checkBytes_legal .store va (bits filter 12 0) hs
  unfold recvInto
  dsimp only
  split
  · next he => rw [he] at h1; exact h1
  · next s1 ps he =>
    rw [he] at h1
    split
    · exact waitOn_legal (beginBlocked_legal hs) nofun
    · next m rest _ =>
      have h2 := writeCells_legal ps ((pieceBytes ps).zip (m.bytes.take (bits filter 12 0))) (fun c _ l h => storeScalarLine_legal c l h) h1
      split
      · next he => rw [he] at h2; exact h2
      · next he => rw [he] at h2; exact retireX_legal _ _ (onMe_legal h2 fun _ h => setInbox_legal _ _ h)

theorem execRecv_legal (d : Reg) (a : Reg) (b : Reg) (u : Bool) {s : State} (hs : FieldsLegal s) :
    OutLegal (execRecv d a b u s) := by
  unfold execRecv
  dsimp only
  refine irrevocably_legal hs (fun x h => ?_)
  split
  · exact raise_legal _ _ h
  split
  · exact raise_legal _ _ h
  exact recvInto_legal _ _ _ _ _ h

theorem execSendDeposit_legal (h : Nat) {s : State} (hs : FieldsLegal s) :
    OutLegal (execSendDeposit h s) := by
  unfold execSendDeposit
  split
  · split
    · exact sendFrom_legal _ _ _ _ hs
    exact hs
  exact hs

theorem execRecvTake_legal (h : Nat) {s : State} (hs : FieldsLegal s) :
    OutLegal (execRecvTake h s) := by
  unfold execRecvTake
  split
  · split
    · exact recvInto_legal _ _ _ _ _ hs
    exact hs
  exact hs

/-! ### The gang barrier (R245) -/

theorem releaseMember_legal (count : Word) {h : Hart} (hh : HartLegal h) :
    HartLegal (releaseMember count h) := by
  unfold releaseMember
  dsimp only
  split
  · exact retireHart_legal _ (setX_legal _ _ hh)
  exact hh

theorem releaseBarrier_legal (own : Nat → Bool) (n : Nat) (e : Nat) {s : State} (hs : FieldsLegal s) :
    FieldsLegal (releaseBarrier own n e s) := by
  unfold releaseBarrier
  dsimp only
  split
  · exact hs
  split
  · refine onIsland_legal ?_
    refine foldl_legal hs (fun x x2 h => ?_)
    split
    · exact onHart_legal h fun _ h2 => releaseMember_legal _ h2
    exact h
  exact hs

theorem execGbar_legal (d : Reg) {s : State} (hs : FieldsLegal s) :
    OutLegal (execGbar d s) := by
  unfold execGbar
  refine irrevocably_legal hs fun x h => ?_
  split
  · exact raise_legal _ _ h
  split
  · exact retireX_legal _ _ (onMe_legal h fun _ h => h)
  split
  · exact raise_legal _ _ h
  split
  · exact waitOn_legal h nofun
  refine releaseBarrier_legal _ _ _ (onMe_legal h fun x hx => ?_)
  obtain ⟨hp, he, ht, -⟩ := hx
  exact ⟨hp, he, ht, nofun⟩

theorem execGbarRelease_legal (n : Nat) (e : Nat) {s : State} (hs : FieldsLegal s) :
    OutLegal (execGbarRelease n e s) :=
  releaseBarrier_legal _ _ _ hs

/-! ### Waits on TIME -/

theorem execWaitt_legal (a : Reg) {s : State} (hs : FieldsLegal s) :
    OutLegal (execWaitt a s) := by
  refine irrevocably_legal hs fun s hs => ?_
  dsimp only
  split
  · exact raise_legal _ _ hs
  · split
    · exact retire_legal hs
    · exact waitOn_legal hs nofun

theorem execWaittExpire_legal (h : Nat) {s : State} (hs : FieldsLegal s) :
    OutLegal (execWaittExpire h s) := by
  unfold execWaittExpire
  split
  · split
    · exact retire_legal hs
    exact hs
  exact hs

/-! ### Fences (R196, R359) -/

theorem execFence_legal (dir : Dir) (_sc : Scope) {s : State} (hs : FieldsLegal s) :
    OutLegal (execFence dir _sc s) := by
  cases dir with grind [execFence, OutLegal, retire_legal, waitOn_legal, onMe_legal, HartLegal]

theorem execFenceComplete_legal (h : Nat) {s : State} (hs : FieldsLegal s) :
    OutLegal (execFenceComplete h s) := by
  unfold execFenceComplete
  split
  · split
    · exact hs
    exact retire_legal hs
  exact hs

/-! ### Translations (R173, R184) -/

theorem execPageWalk_legal (h : Nat) (va : Word) (k : AccKind) {s : State} (hs : FieldsLegal s) :
    OutLegal (execPageWalk h va k s) := by
  unfold execPageWalk
  split
  · next he =>
      have hk := Eq.subst (motive := TransResultLegal) he (translate_legal _ _ hs)
      exact hk
  · next he2 =>
      have hk2 := Eq.subst (motive := TransResultLegal) he2 (translate_legal _ _ hs)
      exact hk2
  · next he3 =>
      have hk3 := Eq.subst (motive := TransResultLegal) he3 (translate_legal _ _ hs)
      exact hk3
  exact hs

theorem execMigrationRecheck_legal (h : Nat) {s : State} (hs : FieldsLegal s) :
    OutLegal (execMigrationRecheck h s) := by
  unfold execMigrationRecheck
  split
  · split
    · exact hs
    split
    · next he =>
        refine onHart_legal (Eq.subst (motive := TransResultLegal) he (translate_legal _ _ hs)) fun x hx => ?_
        obtain ⟨hp, he, ht, -⟩ := hx
        exact ⟨hp, he, ht, nofun⟩
    exact onHart_legal hs fun _ h => h.noWait
  exact hs

/-! ### The probe (R177) -/

theorem probeAll_legal (a : VAccess → Access) {s : State} (a1 : List VAccess) (hs : FieldsLegal s) :
    ExceptLegal (FieldsLegal ·.1) (FieldsLegal ·.1) (probeAll a s a1) := by
  induction a1 generalizing s <;> grind [probeAll, checkRun_legal, ExceptLegal]

theorem badVector_legal (side : Nat) (kind : AccKind) (b : Bad) {s : State} (hs : FieldsLegal s) :
    FieldsLegal (badVector side kind b s) := by
  cases b with grind [badVector, uncorrectable_legal, raise_legal, freezeHart_legal, waitOn_legal, onMe_legal, HartLegal]

theorem badFirst_legal (b : Bad) {s : State} (hs : FieldsLegal s) :
    FieldsLegal (badFirst b s) := by
  cases b with grind [badFirst, badVector_legal, uncorrectable_legal, raise_legal]

theorem admitAccess_legal {s : State} (store : Bool) (xs : List VAccess) (ps : List Piece) (vl : Option Nat) (hs : FieldsLegal s) :
    ProbedLegal (admitAccess s store xs ps vl) := by
  unfold admitAccess
  split
  · next he =>
      have hk := Eq.subst (motive := TrackedLegal) he (triggersAct_legal _ _ hs)
      exact hk
  · next he2 =>
      have hk2 := Eq.subst (motive := TrackedLegal) he2 (triggersAct_legal _ _ hs)
      split
      · split
        · next he3 =>
            have hk3 := Eq.subst (motive := TrackedLegal) he3 (irrevocable_legal hk2)
            exact hk3
        · next he4 =>
            have hk4 := Eq.subst (motive := TrackedLegal) he4 (irrevocable_legal hk2)
            exact hk4
      exact hk2

theorem probe_legal {s : State} (e : VEnv) (m : VMember) (seen : Nat) (hs : FieldsLegal s) :
    ProbedLegal (probe s e m seen) := by
  unfold probe
  dsimp only
  split
  · next he =>
      have hk := Eq.subst (motive := ExceptLegal _ _) he (probeAll_legal _ _ hs)
      exact admitAccess_legal _ _ _ _ hk
  · next he2 =>
      have hk2 := Eq.subst (motive := ExceptLegal _ _) he2 (probeAll_legal _ _ hs)
      split
      · split
        · exact badFirst_legal _ hk2
        split
        · next he3 =>
            have hk3 := Eq.subst (motive := ExceptLegal _ _) he3 (probeAll_legal _ _ hs)
            exact admitAccess_legal _ _ _ _ hk3
        · next he4 =>
            have hk4 := Eq.subst (motive := ExceptLegal _ _) he4 (probeAll_legal _ _ hs)
            exact badVector_legal _ _ _ hk4
      exact badVector_legal _ _ _ hk2

/-! ### Performing a convoy -/

theorem loadedLines_legal {s : State} (pins : List Pin) (xs : List VAccess) (hs : FieldsLegal s) :
    FieldsLegal (loadedLines s pins xs) := by
  exact touch_legal _ hs fun s l h => loadVectorLine_legal _ l h

theorem storeAccesses_legal (value : Nat → Nat → Nat) (merges : Bool) (pins : List Pin) (a0 : List VAccess) {s : State} (a2 : List VAccess) (hs : FieldsLegal s) :
    FieldsLegal (storeAccesses value merges pins a0 s a2).1 := by
  induction a2 generalizing s a0 with
  | nil => exact hs
  | cons x xs ih =>
    have later {t : State} (ht : FieldsLegal t) : FieldsLegal
        (if taskHeld t then (t, (a0 ++ x :: xs).map (·.idx)) else storeAccesses value merges pins (a0 ++ [x]) t xs).1 := by
      split
      · exact ht
      · exact ih _ ht
    have read : TrackedLegal (if merges then trackRead s ((accessPieces pins x).filter fun p => tracked p.pa) else .go s) := by
      split
      · exact trackRead_legal _ hs
      · exact hs
    have write (t : State) (v : List Byte) (ht : FieldsLegal t) := writeVector_legal (accessPieces pins x) v ht
    unfold storeAccesses
    grind [TrackedLegal, ExceptLegal]

/-! ### A convoy performed in part (R114, R179, R328) -/

theorem clearConvoy_legal (c : Convoy) {h : Hart} (hh : HartLegal h) :
    HartLegal (clearConvoy c h) := by
  unfold clearConvoy
  split
  · exact hh
  exact hh

theorem commitConvoy_legal (c : Convoy) (e : VEnv) {s : State} (hs : FieldsLegal s) :
    FieldsLegal (commitConvoy c e s) := by
  unfold commitConvoy
  dsimp only
  refine onMe_legal hs (fun x h => ?_)
  refine mergeFlags_legal _ ?_
  split
  · exact h
  exact h

theorem storeUpTo_legal {stop : Option (Nat × Nat)} {ys : List VAccess} {store : List VAccess → State × List Nat}
    {finish : State → State} {halt : Nat → State → State} (hstore : ∀ l, FieldsLegal (store l).1)
    (hf : ∀ s, FieldsLegal s → FieldsLegal (finish s)) (hh : ∀ i s, FieldsLegal s → FieldsLegal (halt i s)) :
    PerformedLegal (storeUpTo stop ys store finish halt) := by
  unfold storeUpTo
  dsimp only
  split
  · exact hstore _
  · split
    · exact hh _ _ (hstore _)
    · exact hf _ (hstore _)

theorem performConvoy_legal {s : State} (c : Convoy) (hi : Nat) (todo : Option (List Nat)) (hs : FieldsLegal s) :
    PerformedLegal (performConvoy s c hi todo) := by
  unfold performConvoy
  extract_lets top parts bad clear
  have hclear {t : State} (ht : FieldsLegal t) : FieldsLegal (clear t) := by
    show FieldsLegal (if _ then _ else _)
    split
    · exact onCore_legal ht fun _ h => h
    · exact ht
  split
  · split
    · exact hclear hs
    · exact commitConvoy_legal _ _ hs
  · next m _ =>
    dsimp only
    split
    · exact storeUpTo_legal (fun l => storeAccesses_legal _ _ _ _ _ hs) (fun _ h => commitConvoy_legal _ _ h)
        fun _ _ h => hclear (commitConvoy_legal _ _ h)
    · split
      · exact hclear hs
      · have h1 := trackRead_legal (((accessesOf (runActs c.low top parts.1 (c.env (me s))) m c.first top).flatMap (accessPieces c.pins)).filter fun p => tracked p.pa) hs
        split
        · next he =>
          rw [he] at h1
          show FieldsLegal _
          split
          · exact h1
          · exact hs
        · next s1 he =>
          rw [he] at h1
          split
          · split
            · exact h1
            · exact commitConvoy_legal _ _ h1
          · exact commitConvoy_legal _ _ (loadedLines_legal _ _ h1)

/-! ### Places -/

theorem putA_legal (d : BitVec 2) (t : BitVec 32768) {c : Core} (hc : CoreLegal c) :
    CoreLegal (putA d t c) :=
  hc

theorem putSideA_legal (d : BitVec 2) (t : BitVec 2048) {c : Core} (hc : CoreLegal c) :
    CoreLegal (putSideA d t c) :=
  hc

theorem putC_legal (d : BitVec 3) (t : BitVec 32768) {c : Core} (hc : CoreLegal c) :
    CoreLegal (putC d t c) :=
  hc

theorem putTm_legal (d : BitVec 2) (t : BitVec 512) {c : Core} (hc : CoreLegal c) :
    CoreLegal (putTm d t c) :=
  hc

/-! ### The accesses (R129 to R132, R136, R378, R381) -/

theorem mappedCore_split (q : List MEntry) (c : Core) : (mappedCore q c).split = c.split := by
  unfold mappedCore
  induction q generalizing c with
  | nil => rfl
  | cons e q ih => rw [List.foldl_cons, ih]; cases e.act <;> rfl
theorem mappedCore_legal {c : Core} (q : List MEntry) (hc : CoreLegal c) : CoreLegal (mappedCore q c) := by
  rw [CoreLegal, mappedCore_split]; exact hc

/-! ### The arithmetic (R133, R136) -/

theorem withShape_legal (cap : Captured) {k : Core} (hk : CoreLegal k) :
    CoreLegal (withShape cap k) :=
  hk

theorem moveToVector_legal {h : Hart} {k : Core} (cap : Captured) (c : BitVec 3) (row0 : Nat) (km : BitVec 3) (d : Reg) (hh : HartLegal h) :
    HartLegal (moveToVector h k cap c row0 km d) := by
  unfold moveToVector
  split
  · exact hh
  exact setV_legal _ _ hh

theorem moveToTile_legal {h : Hart} {k : Core} (cap : Captured) (c : BitVec 3) (row0 : Nat) (km : BitVec 3) (v : Reg) (hk : CoreLegal k) :
    CoreLegal (moveToTile h k cap c row0 km v) :=
  hk

/-! ### Which x and f registers an instruction reads and which x registers it writes, as its operands name them -/

theorem clearWritten_legal (i : Instr) {h : Hart} (hh : HartLegal h) :
    HartLegal (clearWritten i h) :=
  hh

/-! ### The steward's accesses -/

theorem stewardStall_legal {s : State} (n : Nat) (migrating : Bool) (hs : FieldsLegal s) :
    FieldsLegal (stewardStall s n migrating) := by
  unfold stewardStall
  split
  · exact onIsland_legal hs
  exact hs

theorem stewardBad_legal {s : State} (n : Nat) (bad : Option StwBad) (hs : FieldsLegal s) :
    FieldsLegal (stewardBad s n bad) := by
  unfold stewardBad
  split
  · exact errorRecord_legal _ _ _ hs
  · exact freezeHart_legal _ _ _ _ _ hs
  · exact hs

theorem stewardCheck_legal {s : State} (n : Nat) (pt : Word) (kind : AccKind) (va : Word) (len : Nat) (hs : FieldsLegal s) :
    StwLegal (FieldsLegal ·.1) (stewardCheck s n pt kind va len) := by
  unfold stewardCheck
  dsimp only
  split
  · next he =>
      have hk := Eq.subst (motive := ExceptLegal _ _) he (checkRun_legal _ _ _ _ hs)
      exact hk
  · exact trivial
  · exact trivial
  · exact trivial
  exact trivial

theorem stewardRead_legal {s : State} (n : Nat) (pt : Word) (va : Word) (len : Nat) (hs : FieldsLegal s) :
    StwLegal (FieldsLegal ·.1) (stewardRead s n pt va len) := by
  refine thenStw_legal (stewardCheck_legal _ _ _ _ _ hs) fun r hr => ?_
  dsimp only
  split
  · trivial
  · split
    · trivial
    · exact touch_legal _ hr fun _ _ h => readHome_legal _ h

theorem stewardWrite_legal {s : State} (n : Nat) (pt : Word) (va : Word) (bs : List Byte) (hs : FieldsLegal s) :
    StwLegal FieldsLegal (stewardWrite s n pt va bs) := by
  refine thenStw_legal (stewardCheck_legal _ _ _ _ _ hs) fun r hr => ?_
  exact foldl_fst_legal hr fun p x hp => agentStore_legal _ _ _ _ _ _ hp

/-! ### Queue control blocks (R228) -/

theorem blockFault_legal {s : State} (n : Nat) (q : Nat) (bad : Option StwBad) (hs : FieldsLegal s) :
    FieldsLegal (blockFault s n q bad) :=
  decisionRecord_legal _ _ (stewardBad_legal _ _ hs)

theorem writeCompletion_legal {s : State} (n : Nat) (r : Completion) (hs : FieldsLegal s) :
    StwLegal FieldsLegal (writeCompletion s n r) := by
  refine thenStw_legal (stwTrue _) fun c _ => ?_
  dsimp only
  exact thenStw_legal (stewardWrite_legal _ _ _ _ hs) fun s1 h => agentStore_legal _ _ _ _ _ _ h

theorem completionFault_legal {s : State} (n : Nat) (r : Completion) (bad : Option StwBad) (hs : FieldsLegal s) :
    FieldsLegal (completionFault s n r bad) := by
  unfold completionFault
  dsimp only
  split
  · exact blockFault_legal _ _ _ hs
  exact stewardBad_legal _ _ hs

theorem completionRecord_legal {s : State} (n : Nat) (r : Completion) (hs : FieldsLegal s) :
    FieldsLegal (completionRecord s n r) := by
  unfold completionRecord
  dsimp only
  split
  · exact onIsland_legal hs
  split
  · next he =>
      have hk := Eq.subst (motive := StwLegal _) he (writeCompletion_legal _ _ hs)
      exact hk
  · exact completionFault_legal _ _ _ hs
  exact stewardStall_legal _ _ (onIsland_legal hs)

theorem flushCompletion_legal {s : State} (n : Nat) (hs : FieldsLegal s) :
    FieldsLegal (flushCompletion s n) := by
  unfold flushCompletion
  dsimp only
  split
  · exact hs
  split
  · next he =>
      have hk := Eq.subst (motive := StwLegal _) he (writeCompletion_legal _ _ (onIsland_legal hs))
      exact hk
  · exact completionFault_legal _ _ _ (onIsland_legal hs)
  exact stewardStall_legal _ _ hs

/-! ### Launch packets (R229, R233) -/

theorem rejectPacket_legal {s : State} (n : Nat) (q : Nat) (qcb : Nat) (code : Nat) (cookie : Word) (hs : FieldsLegal s) :
    FieldsLegal (rejectPacket s n q qcb code cookie) :=
  decisionRecord_legal _ _ (completionRecord_legal _ _ hs)

theorem admitPacket_legal {s : State} (n : Nat) (q : Nat) (qcb : Nat) (c : Qcb) (p : Packet) (hs : FieldsLegal s) :
    FieldsLegal (admitPacket s n q qcb c p) := by
  unfold admitPacket
  dsimp only
  split
  · exact hs
  exact onIsland_legal hs

theorem parseOne_legal {s : State} (n : Nat) (q : Nat) (qcb : Nat) (c : Qcb) (retire : Bool) (hs : FieldsLegal s) :
    StwLegal FieldsLegal (parseOne s n q qcb c retire) := by
  refine thenStw_legal (stewardRead_legal _ _ _ _ hs) fun r hr => ?_
  refine agentStore_legal _ _ _ _ _ _ ?_
  split
  · exact rejectPacket_legal _ _ _ _ _ hr
  · exact admitPacket_legal _ _ _ _ _ hr

theorem execPacketParse_legal (n : Nat) (q : Nat) {s : State} (hs : FieldsLegal s) :
    OutLegal (execPacketParse n q s) := by
  unfold execPacketParse
  dsimp only
  split
  · exact hs
  · have h1 : StwLegal FieldsLegal (thenStw (useQcb s n (slot s n q).qcbpa.toNat) fun c =>
        if !c.enabled || c.rdIdx = c.wrIdx then .ok (onSlot s n q fun x => { x with look := false, pend := false })
        else parseOne s n q (slot s n q).qcbpa.toNat c false) := by
      refine thenStw_legal (stwTrue _) fun c _ => ?_
      split
      · exact onSlot_legal hs
      · exact parseOne_legal _ _ _ _ _ hs
    split
    · next he => rw [he] at h1; exact h1
    · exact blockFault_legal _ _ _ hs
    · exact stewardStall_legal _ _ hs

theorem notifySlot_legal {s : State} (n : Nat) (q : Nat) (hs : FieldsLegal s) :
    FieldsLegal (notifySlot s n q) :=
  hs

theorem mapSlot_legal {s : State} (n : Nat) (q : Nat) (hs : FieldsLegal s) :
    FieldsLegal (mapSlot s n q) := by
  unfold mapSlot
  dsimp only
  split
  · exact blockFault_legal _ _ _ (onSlot_legal hs)
  exact onSlot_legal hs

theorem closePackets_legal (n : Nat) (q : Nat) (k : Closing) (upTo : Nat) (a0 : Nat) {s : State} (hs : FieldsLegal s) :
    FieldsLegal (closePackets n q k upTo a0 s).1 := by
  induction a0 generalizing s <;> grind [closePackets, parseOne_legal, StwLegal]

theorem closeSlot_legal {s : State} (n : Nat) (q : Nat) (hs : FieldsLegal s) :
    FieldsLegal (closeSlot s n q) := by
  have h1 := fun k u f => closePackets_legal n q k u f hs
  grind [closeSlot, onSlot_legal, blockFault_legal, stewardStall_legal, decisionRecord_legal]

theorem unmapSlot_legal {s : State} (n : Nat) (q : Nat) (retire : Bool) (hs : FieldsLegal s) :
    FieldsLegal (unmapSlot s n q retire) :=
  closeSlot_legal _ _ hs

/-! ### Loading and unloading -/

theorem keepSlot_legal {old : Hart} {h : Hart} (hh : HartLegal h) :
    HartLegal (keepSlot old h) :=
  hh

theorem unloaded_legal {x : Hart} (hx : HartLegal x) :
    HartLegal (unloaded x) := by
  grind [unloaded, keepSlot_legal, HartLegal]

theorem unloadHart_legal {s : State} (h : Nat) (hs : FieldsLegal s) :
    FieldsLegal (unloadHart s h) := by
  unfold unloadHart
  exact onCore_legal (onHart_legal hs fun _ h2 => unloaded_legal h2) fun _ h3 => h3

theorem freshHart_legal (g : Gang) (n : Nat) (e : Nat) (p : Nat) (c : Nat) (tvec : Word) (scratch : Word) (old : Hart) :
    HartLegal (freshHart g n e p c tvec scratch old) := by
  unfold freshHart
  refine ⟨?_, ?_, tvecOf_legal _, nofun⟩
  · simp only [setX_pmode, keepSlot]; decide
  · simp only [setX_epc, keepSlot]; decide

theorem placementRegs_legal {s : State} (n : Nat) (g : Gang) (a0 : List (Nat × Nat × Nat × Nat)) (hs : FieldsLegal s) :
    StwLegal (FieldsLegal ·.1) (placementRegs s n g a0) := by
  induction a0 generalizing s with
  | nil => exact hs
  | cons x xs ih =>
    exact thenStw_legal (stewardRead_legal _ _ _ _ hs) fun r hr => thenStw_legal (ih hr) fun l hl => hl

theorem endGang_legal {s : State} (n : Nat) (e : Nat) (status : Nat) (hs : FieldsLegal s) :
    FieldsLegal (endGang s n e status) := by
  unfold endGang
  dsimp only
  split
  · exact hs
  exact completionRecord_legal _ _ (onIsland_legal (foldl_legal hs fun _ _ h => unloadHart_legal _ h))

/-! ### The save area (R238, R239) -/

theorem hartOfBlock_legal (bs : List Byte) (old : Hart) :
    HartLegal (hartOfBlock bs old) := by
  exact ⟨pmodeOf_ne _, bv_and_not3 _, tvecOf_legal _, nofun⟩

theorem savedShell_legal {h : Hart} (hh : HartLegal h) :
    HartLegal (savedShell h) := by
  grind [savedShell, HartLegal]

theorem saveHart_legal {s : State} (n : Nat) (g : Gang) (p : Nat) (c : Nat) (h : Nat) (hs : FieldsLegal s) :
    StwLegal FieldsLegal (saveHart s n g p c h) := by
  unfold saveHart
  dsimp only
  split
  · trivial
  · refine thenStw_legal (stewardWrite_legal _ _ _ _ hs) fun s1 h1 => thenStw_legal (p := FieldsLegal) ?_ fun s2 h2 =>
      thenStw_legal (p := FieldsLegal) ?_ fun s3 h3 => stewardWrite_legal _ _ _ _ h3
    · split
      · exact stewardWrite_legal _ _ _ _ h1
      · exact h1
    · split
      · exact stewardWrite_legal _ _ _ _ h2
      · exact h2

theorem saveCore_legal {s : State} (n : Nat) (g : Gang) (p : Nat) (c : Nat) (hs : FieldsLegal s) :
    StwLegal FieldsLegal (saveCore s n g p c) := by
  have put {t : State} (a : Word) (bs : List Byte) (ht : FieldsLegal t) :
      StwLegal FieldsLegal (if bs.isEmpty then .ok t else stewardWrite t n g.ptroot a bs) := by
    split
    · exact ht
    · exact stewardWrite_legal _ _ _ _ ht
  unfold saveCore
  dsimp only
  split
  · trivial
  · refine thenStw_legal (put _ _ hs) fun s1 h1 => foldlStw_legal h1 fun x j hx => thenStw_legal hx fun s2 h2 =>
      thenStw_legal (put _ _ h2) fun s3 h3 => put _ _ h3

theorem restoreHart_legal {s : State} (n : Nat) (g : Gang) (p : Nat) (c : Nat) (h : Nat) (field : Nat) (shell : Hart) (hs : FieldsLegal s) :
    StwLegal FieldsLegal (restoreHart s n g p c h field shell) := by
  unfold restoreHart
  extract_lets at_ get
  have hget {t : State} (ht : FieldsLegal t) (o : Word) (k : Nat) : StwLegal (FieldsLegal ·.1) (get t o k) :=
    stewardRead_legal _ _ _ _ ht
  have hgetIf {t : State} (ht : FieldsLegal t) (b : Bool) (o : Word) (k : Nat) :
      StwLegal (FieldsLegal ·.1) (if b = true then get t o k else .ok (t, [])) := by
    split
    · exact hget ht o k
    · exact ht
  refine thenStw_legal (hget hs _ _) fun r1 h1 => thenStw_legal (hget h1 _ _) fun r2 h2 => ?_
  have h0 : HartLegal (hartOfBlock r1.2 (hart s h)) := hartOfBlock_legal _ (hart s h)
  extract_lets x0 x1
  have hx1 : HartLegal x1 := h0
  clear_value x1 x0
  refine thenStw_legal (hgetIf h2 _ _ _) fun r3 h3 => thenStw_legal (hgetIf h3 _ _ _) fun r4 h4 => ?_
  extract_lets y2 x2 x3 s1
  have hy2 : HartLegal y2 := loadVector_legal r3.2 hx1
  clear_value y2
  have hx2 : HartLegal x2 := by
    unfold x2
    split
    · exact hy2
    · exact hx1
  clear_value x2
  have hx3 : HartLegal x3 := by
    unfold x3
    split <;> exact hx2
  have h5 : FieldsLegal s1 := onHart_legal h4 fun _ _ => hx3
  show FieldsLegal (if _ then _ else _)
  split
  · exact onCore_legal h5 fun _ hc => loadMatrix_legal _ hc
  · split
    · exact onCore_legal h5 fun _ hc => zeroMatrix_legal hc
    · exact h5

theorem restoreCore_legal {s : State} (n : Nat) (g : Gang) (p : Nat) (c : Nat) (hs : FieldsLegal s) :
    StwLegal FieldsLegal (restoreCore s n g p c) := by
  have get {t : State} (a : Word) (len : Nat) (ht : FieldsLegal t) :
      StwLegal (FieldsLegal ·.1) (if len = 0 then .ok (t, []) else stewardRead t n g.ptroot a len) := by
    split
    · exact ht
    · exact stewardRead_legal _ _ _ _ ht
  unfold restoreCore
  dsimp only
  refine thenStw_legal (get _ _ (onCore_legal (clearRange_legal _ _ (clearRange_legal _ _ hs)) fun _ h => h)) fun r hr =>
    foldlStw_legal hr fun x j hx => thenStw_legal hx fun s1 h1 => thenStw_legal (get _ _ h1) fun r1 h2 =>
      thenStw_legal (get _ _ h2) fun r2 h3 => ?_
  exact onCore_legal (s := { r2.1 with mem := _ }) h3 fun _ h => h

/-! ### Harts that cannot be stopped or moved -/

theorem pendCore_legal {s : State} (c : Nat) (k : Nat) (hs : FieldsLegal s) :
    FieldsLegal (pendCore s c k) := by
  unfold pendCore
  refine foldl_legal hs (fun x x2 h => ?_)
  split
  · exact pendIrq_legal _ _ h
  exact h

/-! ### Exits (R235, R245) -/

theorem breakBarrier_legal {s : State} (g : Gang) (hs : FieldsLegal s) :
    FieldsLegal (breakBarrier s g) := by
  unfold breakBarrier
  dsimp only
  refine foldl_legal hs (fun x x2 h => ?_)
  split
  · split
    · exact raise_legal _ _ h
    exact onHart_legal h fun _ h2 => h2.noWait
  exact h

theorem exitHart_legal {s : State} (h : Nat) (hs : FieldsLegal s) :
    FieldsLegal (exitHart s h) := by
  unfold exitHart
  dsimp only
  split
  · exact hs
  split
  · refine endGang_legal _ _ _ ?_
    split
    · exact breakBarrier_legal _ (onIsland_legal (unloadHart_legal _ hs))
    exact onIsland_legal (unloadHart_legal _ hs)
  split
  · exact breakBarrier_legal _ (onIsland_legal (unloadHart_legal _ hs))
  exact onIsland_legal (unloadHart_legal _ hs)

theorem gexitWrite_legal {s : State} (who : Who) (v : Word) (hs : FieldsLegal s) :
    FieldsLegal (gexitWrite s who v) := by
  cases who with grind [gexitWrite, onHart_legal, HartLegal]

theorem execIdle_legal {s : State} (hs : FieldsLegal s) :
    OutLegal (execIdle s) := by
  unfold execIdle
  refine irrevocably_legal hs (fun x h => ?_)
  split
  · split
    · exact exitHart_legal _ h
    exact waitOn_legal h nofun
  split
  · exact retire_legal h
  exact waitOn_legal h nofun

theorem execIdleWake_legal (h : Nat) {s : State} (hs : FieldsLegal s) :
    OutLegal (execIdleWake h s) := by
  unfold execIdleWake
  split
  · split
    · exact retire_legal hs
    exact hs
  exact hs

/-! ### The waiting order (R236) -/

theorem onGang_legal {s : State} (n : Nat) (e : Nat) (f : Gang → Gang) (hs : FieldsLegal s) :
    FieldsLegal (onGang s n e f) := by
  unfold onGang
  split
  · exact onIsland_legal hs
  exact hs

/-! ### Placement and resumption (R234, R239, R252) -/

theorem loadOne_legal {s : State} (n : Nat) (e : Nat) (g : Gang) (x : Nat × Nat × Nat × Nat) (regs : Word × Word) (hs : FieldsLegal s) :
    StwLegal FieldsLegal (loadOne s n e g x regs) := by
  unfold loadOne
  extract_lets pl c hn k s1 load
  have h1 : FieldsLegal s1 := onCore_legal hs fun _ h => h
  have hload {t : State} (ht : FieldsLegal t) : FieldsLegal (load t) := onGang_legal _ _ _ ht
  split
  · split
    · exact hs
    · next shell _ =>
      have h2 := restoreHart_legal n g pl c hn x.2.2.2 shell h1
      split
      · next s2 he =>
        rw [he] at h2
        refine hload ?_
        split
        · exact onTask_legal h2
        · split
          · exact onHart_legal h2 fun _ h => idleHart_legal h
          · exact h2
      · next r _ => exact h2
  · have h2 := onHart_legal (k := hn) h1 fun x _ => freshHart_legal g n e pl c regs.1 regs.2 x
    apply hload
    split
    · exact onCore_legal h2 fun _ h => zeroMatrix_legal h
    · exact h2

theorem loadAll_legal (n : Nat) (e : Nat) (g : Gang) (a0 : List ((Nat × Nat × Nat × Nat) × (Word × Word))) {s : State} (hs : FieldsLegal s) :
    StwLegal FieldsLegal (loadAll n e g a0 s) := by
  induction a0 generalizing s <;> grind [loadAll, loadOne_legal, StwLegal]

theorem restoreCores_legal (n : Nat) (g : Gang) (a0 : List (Nat × Nat)) {s : State} (hs : FieldsLegal s) :
    StwLegal FieldsLegal (restoreCores n g a0 s) := by
  induction a0 generalizing s <;> grind [restoreCores, restoreCore_legal, StwLegal]

theorem placeAt_legal {s : State} (n : Nat) (e : Nat) (g : Gang) (places : List (Nat × Nat × Nat × Nat)) (hs : FieldsLegal s) :
    FieldsLegal (placeAt s n e g places) := by
  have hset {t : State} (c : Nat) (ht : FieldsLegal t) : FieldsLegal (setSplit t c (splitOf g.packet.srows)) :=
    setSplit_legal c ht (splitOf_le _)
  unfold placeAt
  extract_lets cs record counted stall
  have hrecord {t : State} (kind place waited : Nat) (ht : FieldsLegal t) : FieldsLegal (record kind place waited t) :=
    decisionRecord_legal _ _ ht
  have hcounted {t : State} (ht : FieldsLegal t) : FieldsLegal (counted t) := by
    unfold counted
    split <;> exact ht
  have hstall (m : Bool) : FieldsLegal (stall m) := stewardStall_legal _ _ (onGang_legal _ _ _ hs)
  clear_value record counted stall
  split
  · exact hstall false
  · have hregs := placementRegs_legal n g places hs
    split
    · exact hstall _
    · exact hrecord _ _ _ (endGang_legal _ _ _ (stewardBad_legal _ _ hs))
    · next s0 regs he =>
      rw [he] at hregs
      have h1 : FieldsLegal (cs.foldl (fun s c =>
          if spadRows (core s c).split = g.packet.srows then s else setSplit s c (splitOf g.packet.srows)) s0) := by
        refine foldl_legal hregs fun t c ht => ?_
        split
        · exact ht
        · exact hset c ht
      extract_lets s1 s2 loaded
      have h2 : FieldsLegal s2 := onGang_legal _ _ _ h1
      have hloaded : StwLegal FieldsLegal loaded := by
        unfold loaded
        have hall := loadAll_legal n e g (places.zip regs) h2
        split
        · next he2 =>
          rw [he2] at hall
          split
          · exact restoreCores_legal _ _ _ hall
          · exact hall
        · exact hall
      clear_value loaded s2
      split
      · exact hrecord _ _ _ (hcounted (onGang_legal _ _ _ hloaded))
      · exact hstall _
      · exact endGang_legal _ _ _ (stewardBad_legal _ _ hs)

theorem placeGang_legal {s : State} (n : Nat) (e : Nat) (g : Gang) (cs : List Nat) (hs : FieldsLegal s) :
    FieldsLegal (placeGang s n e g cs) :=
  placeAt_legal _ _ _ _ hs

theorem retryPlacement_legal (n : Nat) (e : Nat) {s : State} (hs : FieldsLegal s) :
    FieldsLegal (retryPlacement n e s) := by
  unfold retryPlacement
  split
  · split
    · exact hs
    split
    · exact placeAt_legal _ _ _ _ hs
    exact onGang_legal _ _ _ hs
  exact hs

theorem placeAll_legal (n : Nat) (a0 : List (Nat × Gang)) {s : State} (hs : FieldsLegal s) :
    FieldsLegal (placeAll n a0 s).1 := by
  induction a0 generalizing s <;> grind [placeAll, placeGang_legal]

/-! ### Pre-emption (R236, R238) -/

theorem requestPreempt_legal {s : State} (n : Nat) (e : Nat) (reason : Nat) (hs : FieldsLegal s) :
    FieldsLegal (requestPreempt s n e reason) := by
  unfold requestPreempt
  dsimp only
  split
  · exact hs
  exact onGang_legal _ _ _ (foldl_legal hs fun _ _ h => onHart_legal h fun _ h2 => h2)

theorem cancelPreempt_legal {s : State} (n : Nat) (e : Nat) (g : Gang) (hs : FieldsLegal s) :
    FieldsLegal (cancelPreempt s n e g) := by
  unfold cancelPreempt
  dsimp only
  exact decisionRecord_legal _ _ (onGang_legal _ _ _ (foldl_legal hs fun _ _ h => onHart_legal h fun _ h2 => h2))

theorem saveHarts_legal (n : Nat) (g : Gang) (a0 : List (Nat × Nat × Nat)) {s : State} (hs : FieldsLegal s) :
    StwLegal FieldsLegal (saveHarts n g a0 s) := by
  induction a0 generalizing s <;> grind [saveHarts, saveHart_legal, StwLegal]

theorem saveCores_legal (n : Nat) (g : Gang) (a0 : List (Nat × Nat)) {s : State} (hs : FieldsLegal s) :
    StwLegal FieldsLegal (saveCores n g a0 s) := by
  induction a0 generalizing s <;> grind [saveCores, saveCore_legal, StwLegal]

theorem saveGang_legal {s : State} (n : Nat) (e : Nat) (g : Gang) (hs : FieldsLegal s) :
    FieldsLegal (saveGang s n e g) := by
  grind [saveGang, saveHarts_legal, saveCores_legal, stewardStall_legal, endGang_legal, stewardBad_legal, savedShell_legal, unloadHart_legal, onGang_legal, decisionRecord_legal, onIsland_legal, foldl_legal, hart_legal, StwLegal, fieldsLegal_iff]

theorem execGangPreemptSave_legal (n : Nat) (e : Nat) {s : State} (hs : FieldsLegal s) :
    OutLegal (execGangPreemptSave n e s) := by
  unfold execGangPreemptSave
  split
  · split
    · exact saveGang_legal _ _ _ hs
    exact hs
  exact hs

theorem settlePreemptions_legal {s : State} (n : Nat) (hs : FieldsLegal s) :
    FieldsLegal (settlePreemptions s n) := by
  unfold settlePreemptions
  refine foldl_legal hs (fun x x2 h => ?_)
  split
  · exact saveGang_legal _ _ _ h
  exact cancelPreempt_legal _ _ _ h

theorem without_legal {s : State} (n : Nat) (e : Nat) (hs : FieldsLegal s) :
    FieldsLegal (without s n e) := by
  unfold without
  split
  · exact foldl_legal hs fun _ _ h => unloadHart_legal _ h
  exact hs

theorem makeRoom_legal (n : Nat) (p : Packet) (l : List (Nat × Nat)) (hyp : State) {s : State} (hs : FieldsLegal s) :
    FieldsLegal (makeRoom n p l hyp s) := by
  induction l generalizing hyp s with
  | nil => exact hs
  | cons v l ih =>
    rw [makeRoom]
    split
    · exact hs
    · exact ih _ (requestPreempt_legal _ _ _ hs)

theorem keepHead_legal (n : Nat) (e : Nat) {s : State} (hs : FieldsLegal s) :
    FieldsLegal (keepHead n e s) :=
  hs

/-! ### Thermal control (R240) -/

theorem moveHart_legal {s : State} (n : Nat) (e : Nat) (g : Gang) (h : Nat) (c : Nat) (hs : FieldsLegal s) :
    FieldsLegal (moveHart s n e g h c) := by
  unfold moveHart
  extract_lets k old field dest s0 wait s1 s2 s3 s4 redirect moved s5 s6 s7 s8
  have h0 : FieldsLegal s0 := by
    unfold s0
    split
    · exact hs
    · exact setSplit_legal c hs (splitOf_le _)
  have hwait (x : Hart) : HartLegal (keepSlot x { old with
      wait := wait, failed := [], groups := if old.groups = 0 then 0 else BitVec.ofNat 4 field }) := by
    obtain ⟨hp, he, ht, -⟩ := hart_legal hs h
    refine ⟨hp, he, ht, fun d v hw => ?_⟩
    change wait = some (.localsplit d v) at hw
    unfold wait at hw
    split at hw
    · next hdest => rw [hdest] at hw; cases hw
    · cases hw
  have h1 : FieldsLegal s1 := onHart_legal h0 fun x _ => hwait x
  have h2 : FieldsLegal s2 := onCore_legal h1 fun _ hc => hc
  have h3 : FieldsLegal s3 := unloadHart_legal h h2
  have h4 : FieldsLegal s4 := onCore_legal h3 fun _ hc => hc
  have hredirect (x : Hart) (hx : HartLegal x) : HartLegal (redirect x) := by
    obtain ⟨hp, he, ht, hw⟩ := hx
    unfold redirect
    split
    · split
      · exact ⟨hp, he, ht, nofun⟩
      · exact ⟨hp, he, ht, hw⟩
    · exact ⟨hp, he, ht, hw⟩
  have h5 : FieldsLegal s5 := ⟨HartsLegal.map (f := fun _ => redirect) h4.1 fun _ => hredirect, h4.2⟩
  have h6 : FieldsLegal s6 := onGang_legal _ _ _ h5
  exact pendCore_legal _ _ (decisionRecord_legal _ _ h6)

theorem coolCore_legal (ranking : List Nat) (cool : List Nat) (n : Nat) {s : State} (c : Nat) (hs : FieldsLegal s) :
    FieldsLegal (coolCore ranking cool n s c) := by
  unfold coolCore
  dsimp only
  split
  · exact moveHart_legal _ _ _ _ _ hs
  exact onCore_legal hs fun _ h => h

theorem thermal_legal {s : State} (n : Nat) (ranking : List Nat) (hot : List Nat) (cool : List Nat) (hs : FieldsLegal s) :
    FieldsLegal (thermal s n ranking hot cool) := by
  unfold thermal
  refine foldl_legal hs (fun x x2 h => ?_)
  split
  · exact coolCore_legal _ _ _ _ h
  split
  · exact onCore_legal h fun _ h2 => h2
  exact h

/-! ### Receive cycles (R244) -/

theorem receiveCycles_legal {s : State} (n : Nat) (hs : FieldsLegal s) :
    FieldsLegal (receiveCycles s n) := by
  unfold receiveCycles
  dsimp only
  refine onIsland_legal ?_
  split
  · refine foldl_legal hs (fun x x2 h => ?_)
    split
    · exact raise_legal _ _ h
    exact h
  refine decisionRecord_legal _ _ ?_
  refine foldl_legal hs (fun x3 x4 h2 => ?_)
  split
  · exact raise_legal _ _ h2
  exact h2

/-! ### The boundary (R232, R236, R237) -/

theorem nextBoundary_legal {s : State} (n : Nat) (hs : FieldsLegal s) :
    FieldsLegal (nextBoundary s n) :=
  hs

theorem takeOver_legal {s : State} (n : Nat) (hs : FieldsLegal s) :
    FieldsLegal (takeOver s n) := by
  unfold takeOver
  split
  · exact hs
  exact decisionRecord_legal _ _ (onIsland_legal hs)

theorem ageGangs_legal {s : State} (n : Nat) (hs : FieldsLegal s) :
    FieldsLegal (ageGangs s n) :=
  hs

theorem execRoundBoundary_legal (n : Nat) (ranking : List Nat) (hot : List Nat) (cool : List Nat) {s : State} (hs : FieldsLegal s) :
    OutLegal (execRoundBoundary n ranking hot cool s) := by
  grind [execRoundBoundary, settlePreemptions_legal, takeOver_legal, nextBoundary_legal, placeAll_legal, keepHead_legal, makeRoom_legal, onIsland_legal, ageGangs_legal, receiveCycles_legal, thermal_legal, OutLegal, fieldsLegal_iff]

/-! ### Function-level reset begins (R263) -/

theorem onCores_legal {s : State} (cs : List Nat) {f : Core → Core} (hs : FieldsLegal s) (hf : ∀ x, CoreLegal x → CoreLegal (f x)) :
    FieldsLegal (onCores s cs f) := by
  grind [onCores, onCore_legal, foldl_legal, CoreLegal]

theorem onHarts_legal {s : State} (l : List Nat) {f : Hart → Hart} (hs : FieldsLegal s) (hf : ∀ x, HartLegal x → HartLegal (f x)) :
    FieldsLegal (onHarts s l f) := foldl_legal hs fun _ _ h => onHart_legal h hf

theorem startFlr_legal {s : State} (v : Nat) (hs : FieldsLegal s) :
    FieldsLegal (startFlr s v) := by
  unfold startFlr
  dsimp only
  split
  · exact hs
  exact onPart_legal (onCores_legal _ (onHarts_legal _ hs fun _ h => h) fun _ h2 => h2)

/-! ### Reads -/

theorem readModule_legal {s : State} (off : Nat) (hs : FieldsLegal s) :
    FieldsLegal (readModule s off).1 := by
  unfold readModule
  split <;> exact hs

theorem readBlock_legal {s : State} (b : Block) (off : Nat) (hs : FieldsLegal s) :
    FieldsLegal (readBlock s b off).1 := by
  cases b with
  | module => exact readModule_legal _ hs
  | _ => exact hs

theorem mmioRead_legal {s : State} (pa : Nat) (hs : FieldsLegal s) :
    FieldsLegal (mmioRead s pa).1 := by
  unfold mmioRead
  split
  · exact readBlock_legal _ _ hs
  exact hs

/-! ### Writes -/

theorem writeSchedcfg_legal {s : State} (n : Nat) (v : Word) (hs : FieldsLegal s) :
    OptionLegal FieldsLegal (writeSchedcfg s n v) := by
  unfold writeSchedcfg
  dsimp only
  split
  · exact trivial
  exact onIsland_legal hs

theorem writeSlotctl_legal {s : State} (n : Nat) (q : Nat) (v : Word) (hs : FieldsLegal s) :
    FieldsLegal (writeSlotctl s n q v) := by
  unfold writeSlotctl
  dsimp only
  split
  · exact mapSlot_legal _ _ (onSlot_legal hs)
  split
  · exact unmapSlot_legal _ _ _ (onSlot_legal hs)
  exact onSlot_legal hs

theorem writeSlot_legal {s : State} (n : Nat) (off : Nat) (v : Word) (hs : FieldsLegal s) :
    FieldsLegal (writeSlot s n off v) := by
  unfold writeSlot
  dsimp only
  split
  · split
    · exact hs
    · exact hs
  · exact notifySlot_legal _ _ hs
  · exact writeSlotctl_legal _ _ _ hs
  · exact hs

theorem writeSteward_legal {s : State} (who : Who) (n : Nat) (off : Nat) (v : Word) (hs : FieldsLegal s) :
    OptionLegal FieldsLegal (writeSteward s who n off v) := by
  unfold writeSteward
  split
  · exact writeSchedcfg_legal _ _ hs
  split
  · split
    · exact onIsland_legal hs
    exact hs
  split
  · split
    · exact onIsland_legal hs
    exact hs
  split
  · exact onIsland_legal hs
  split
  · exact gexitWrite_legal _ _ hs
  split
  · exact writeSlot_legal _ _ _ hs
  exact hs

theorem writeContain_legal {s : State} (monitor : Bool) (v : Nat) (off : Nat) (x : Word) (hs : FieldsLegal s) :
    FieldsLegal (writeContain s monitor v off x) := by
  unfold writeContain
  split
  · split
    · exact onPart_legal hs
    exact hs
  split
  · split
    · exact onPart_legal hs
    exact hs
  split
  · exact onPart_legal hs
  split
  · exact onPart_legal hs
  split
  · exact onPart_legal hs
  split
  · split
    · exact startFlr_legal _ hs
    exact hs
  exact hs

theorem writeGrant_legal {s : State} (v : Nat) (base : Word) (size : Word) (hs : FieldsLegal s) :
    OptionLegal FieldsLegal (writeGrant s v base size) := by
  unfold writeGrant
  split
  · exact trivial
  exact onPart_legal hs

theorem writePartition_legal {s : State} (monitor : Bool) (v : Nat) (off : Nat) (x : Word) (hs : FieldsLegal s) :
    OptionLegal FieldsLegal (writePartition s monitor v off x) := by
  unfold writePartition
  extract_lets p
  have named (f : Nat → State) (hf : ∀ h, FieldsLegal (f h)) : OptionLegal FieldsLegal ((namedCompute x).map f) := by
    cases namedCompute x with
    | none => trivial
    | some h => exact hf h
  split
  · split
    · exact writeGrant_legal _ _ _ hs
    · exact hs
  · split
    · split
      · exact writeGrant_legal _ _ _ hs
      · exact hs
    · split
      · show FieldsLegal _
        split
        · exact onPart_legal hs
        · exact hs
      · split
        · exact named _ fun h => pendIrq_legal _ _ hs
        · split
          · exact onPart_legal hs
          · split
            · exact named _ fun _ => onPart_legal hs
            · exact hs

theorem writeDbgctl_legal {s : State} (n : Nat) (v : Word) (hs : FieldsLegal s) :
    FieldsLegal (writeDbgctl s n v) := by
  unfold writeDbgctl
  dsimp only
  split
  · exact onHarts_legal _ (onIsland_legal hs) fun _ h => h
  exact onIsland_legal hs

theorem writeSwiset_legal {s : State} (n : Nat) (v : Word) (hs : FieldsLegal s) :
    FieldsLegal (writeSwiset s n v) := by
  unfold writeSwiset
  split
  · exact pendIrq_legal _ _ hs
  exact hs

theorem writeIrq_legal {s : State} (n : Nat) (off : Nat) (v : Word) (hs : FieldsLegal s) :
    FieldsLegal (writeIrq s n off v) := by
  unfold writeIrq
  dsimp only
  split
  · exact onHart_legal hs fun _ h => h
  · exact onHart_legal hs fun _ h => h
  · exact onHart_legal hs fun _ h => h
  · exact hs

theorem writeTrigger_legal {s : State} (n : Nat) (off : Nat) (v : Word) (hs : FieldsLegal s) :
    FieldsLegal (writeTrigger s n off v) := by
  unfold writeTrigger
  extract_lets t set
  split
  · exact onIsland_legal hs
  · exact onIsland_legal hs
  · split
    · exact onIsland_legal hs
    · exact hs
  · exact hs

theorem writeTrace_legal {s : State} (n : Nat) (off : Nat) (v : Word) (hs : FieldsLegal s) :
    FieldsLegal (writeTrace s n off v) := by
  unfold writeTrace
  extract_lets c set
  split
  · exact onCore_legal hs fun _ h => h
  · split
    · exact onCore_legal hs fun _ h => h
    · exact hs
  · split
    · exact onCore_legal hs fun _ h => h
    · exact hs
  · split
    · exact traceResume_legal _ (onCore_legal hs fun _ h => h)
    · exact hs
  · exact hs

theorem writeDebug_legal {s : State} (n : Nat) (off : Nat) (v : Word) (hs : FieldsLegal s) :
    FieldsLegal (writeDebug s n off v) := by
  unfold writeDebug
  split
  · exact writeDbgctl_legal _ _ hs
  split
  · exact writeSwiset_legal _ _ hs
  split
  · exact writeIrq_legal _ _ _ hs
  split
  · exact writeTrigger_legal _ _ _ hs
  split
  · exact writeTrace_legal _ _ _ hs
  exact hs

theorem writeNetwork_legal {s : State} (v : Nat) (off : Nat) (x : Word) (hs : FieldsLegal s) :
    FieldsLegal (writeNetwork s v off x) := by
  unfold writeNetwork
  dsimp only
  split
  · split
    · exact onPart_legal hs
    exact hs
  split
  · split
    · exact onPart_legal hs
    exact hs
  split
  · exact onPart_legal hs
  exact hs

theorem writeBlock_legal {s : State} (who : Who) (monitor : Bool) (b : Block) (off : Nat) (v : Word) (hs : FieldsLegal s) :
    OptionLegal FieldsLegal (writeBlock s who monitor b off v) := by
  cases b with
  | module => exact hs
  | steward n => exact writeSteward_legal _ _ _ _ hs
  | contain f => exact writeContain_legal _ _ _ _ hs
  | partition f => exact writePartition_legal _ _ _ _ hs
  | debug n => exact writeDebug_legal _ _ _ hs
  | network f => exact writeNetwork_legal _ _ _ hs

/-! ### The acting hart's accesses -/

theorem mmioWrite_legal {s : State} (pa : Nat) (v : Word) (hs : FieldsLegal s) :
    OptionLegal FieldsLegal (mmioWrite s pa v) := by
  unfold mmioWrite
  split
  · exact writeBlock_legal _ _ _ _ _ hs
  exact hs

theorem readAny_legal {s : State} (ps : List Piece) (hs : FieldsLegal s) :
    ExceptLegal FieldsLegal (FieldsLegal ·.1) (readAny s ps) := by
  unfold readAny
  dsimp only
  split
  · exact mmioRead_legal _ hs
  exact readScalar_legal _ hs

theorem writeAny_legal {s : State} (ps : List Piece) (bs : List Byte) (w : Word) (hs : FieldsLegal s) :
    ExceptLegal FieldsLegal FieldsLegal (writeAny s ps bs w) := by
  unfold writeAny
  split
  · split
    · next he =>
        have hk := Eq.subst (motive := OptionLegal _) he (mmioWrite_legal _ _ hs)
        exact hk
    exact raise_legal _ _ hs
  exact writeScalar_legal _ _ hs

/-! ### Register writes as events (R265) -/

theorem registerStore_legal {s : State} (who : Who) (pa : Nat) (v : Word) (hs : FieldsLegal s) :
    FieldsLegal (registerStore s who pa v) := by
  unfold registerStore
  split
  · dsimp only
    split
    · exact Option.getD_legal (writeBlock_legal _ _ _ _ _ hs) hs
    · exact hs
  · exact hs

theorem execSlotUnmap_legal (who : Who) (n : Nat) (q : Nat) (retire : Bool) {s : State} (hs : FieldsLegal s) :
    OutLegal (execSlotUnmap who n q retire s) := by
  unfold execSlotUnmap
  split
  · exact unmapSlot_legal _ _ _ hs
  exact hs

/-! ### The stream engines -/

theorem onEngine_legal {s : State} (c : Nat) (f : Engine → Engine) (hs : FieldsLegal s) :
    FieldsLegal (onEngine s c f) :=
  onCore_legal hs fun _ h => h

/-! ### Promises (R161) -/

theorem queueCommand_legal (d : Reg) (k : StreamCmd) (w : Word) {s : State} (hs : FieldsLegal s) :
    FieldsLegal (queueCommand d k w s) := by
  unfold queueCommand
  dsimp only
  split
  · exact raise_legal _ _ hs
  split
  · exact waitOn_legal hs nofun
  exact retireX_legal _ _ (onEngine_legal _ _ hs)

theorem kickRoom_legal (h : Nat) {s : State} (hs : FieldsLegal s) :
    FieldsLegal (kickRoom h s) := by
  unfold kickRoom
  dsimp only
  split
  · split
    · exact queueCommand_legal _ _ _ hs
    exact hs
  exact hs

theorem kick_legal (op : Nat) (d : Reg) (a : Reg) (w : Word) {s : State} (hs : FieldsLegal s) :
    FieldsLegal (kick op d a w s) := by
  refine irrevocably_legal hs fun s hs => ?_
  grind [openScalar_legal, readScalar_legal, queueCommand_legal, AccLegal, ExceptLegal, raise_legal, waitOn_legal]

/-! ### SWAIT (R163, R385) -/

theorem swaitEnds_legal (t : Word) {s : State} (hs : FieldsLegal s) :
    FieldsLegal (swaitEnds t s) := by
  unfold swaitEnds
  dsimp only
  split
  · exact raise_legal _ _ (onMe_legal hs fun _ h => h)
  split
  · exact raise_legal _ _ hs
  exact retire_legal hs

theorem execSwait_legal (a : Reg) {s : State} (hs : FieldsLegal s) :
    OutLegal (execSwait a s) := by
  unfold execSwait
  split
  · exact swaitEnds_legal _ hs
  exact waitOn_legal hs nofun

theorem execSwaitCheck_legal (h : Nat) {s : State} (hs : FieldsLegal s) :
    OutLegal (execSwaitCheck h s) := by
  unfold execSwaitCheck
  dsimp only
  split
  · split
    · exact swaitEnds_legal _ (onHart_legal hs fun _ h2 => h2.noWait)
    exact hs
  exact hs

/-! ### A command's accesses -/

theorem engineRead_legal {s : State} (k : StreamCmd) (va : Word) (n : Nat) (hs : FieldsLegal s) :
    ExceptLegal (FieldsLegal ·.1) (FieldsLegal ·.1) (engineRead s k va n) := by
  unfold engineRead
  dsimp only
  split
  · next he =>
      have hk := Eq.subst (motive := ExceptLegal _ _) he (checkRun_legal _ _ _ _ hs)
      exact hk
  · next he2 =>
      have hk2 := Eq.subst (motive := ExceptLegal _ _) he2 (checkRun_legal _ _ _ _ hs)
      split
      · exact hk2
      split
      · exact hk2
      exact touch_legal _ hk2 fun _ _ h => readHome_legal _ h

theorem engineWord_legal {s : State} (k : StreamCmd) (va : Word) (hs : FieldsLegal s) :
    ExceptLegal (FieldsLegal ·.1) (FieldsLegal ·.1) (engineWord s k va) := by
  unfold engineWord
  split
  · next he =>
      have hk := Eq.subst (motive := ExceptLegal _ _) he (checkPiece_legal _ _ _ hs)
      exact hk
  · next he2 =>
      have hk2 := Eq.subst (motive := ExceptLegal _ _) he2 (checkPiece_legal _ _ _ hs)
      exact hk2

theorem rowBytes_legal {s : State} (k : StreamCmd) (r : Word × Word) (hs : FieldsLegal s) :
    ExceptLegal (FieldsLegal ·.1) (FieldsLegal ·.1) (rowBytes s k r) := by
  unfold rowBytes
  split
  · exact hs
  exact engineRead_legal _ _ _ hs

/-! ### Freezing, halting and ending -/

theorem freezeEngine_legal {s : State} (c : Nat) (pa : Nat) (run : StreamRun) (hs : FieldsLegal s) :
    FieldsLegal (freezeEngine s c pa run) := by
  unfold freezeEngine
  dsimp only
  exact raiseCode_legal _ (errorRecord_legal _ _ _ (onEngine_legal _ _ hs))

theorem markFailed_legal {s : State} (k : StreamCmd) (hs : FieldsLegal s) :
    FieldsLegal (markFailed s k) :=
  onHart_legal hs fun _ h => h

theorem writeMailbox_legal {s : State} (run : StreamRun) (hs : FieldsLegal s) :
    ExceptLegal (FieldsLegal ·.1) FieldsLegal (writeMailbox s run) := by
  unfold writeMailbox
  dsimp only
  split
  · exact hs
  split
  · next he =>
      have hk := Eq.subst (motive := ExceptLegal _ _) he (engineWord_legal _ _ hs)
      exact hk
  · next he2 =>
      have hk2 := Eq.subst (motive := ExceptLegal _ _) he2 (engineWord_legal _ _ hs)
      exact hk2
  · next he3 =>
      have hk3 := Eq.subst (motive := ExceptLegal _ _) he3 (engineWord_legal _ _ hs)
      split
      · exact hk3
      exact homeStore_legal _ _ hk3

theorem haltEngine_legal {s : State} (c : Nat) (pa : Nat) (run : StreamRun) (hs : FieldsLegal s) :
    FieldsLegal (haltEngine s c pa run) := by
  unfold haltEngine
  dsimp only
  exact raiseCode_legal _ (errorRecord_legal _ _ _ (onEngine_legal _ _ (markFailed_legal _ hs)))

theorem engineStall_legal {s : State} (c : Nat) (migrating : Bool) (hs : FieldsLegal s) :
    FieldsLegal (engineStall s c migrating) := by
  unfold engineStall
  split
  · exact onEngine_legal _ _ hs
  exact hs

theorem endCommand_legal {s : State} (c : Nat) (run : StreamRun) (hs : FieldsLegal s) :
    FieldsLegal (endCommand s c run) := by
  unfold endCommand
  dsimp only
  split
  · next he =>
      have hk := Eq.subst (motive := ExceptLegal _ _) he (writeMailbox_legal _ hs)
      exact engineStall_legal _ _ hk
  · next he2 =>
      have hk2 := Eq.subst (motive := ExceptLegal _ _) he2 (writeMailbox_legal _ hs)
      exact freezeEngine_legal _ _ _ hk2
  · next he3 =>
      have hk3 := Eq.subst (motive := ExceptLegal _ _) he3 (writeMailbox_legal _ hs)
      exact freezeEngine_legal _ _ _ hk3
  · next he4 =>
      have hk4 := Eq.subst (motive := ExceptLegal _ _) he4 (writeMailbox_legal _ hs)
      exact haltEngine_legal _ _ _ hk4
  · next he5 =>
      have hk5 := Eq.subst (motive := ExceptLegal _ _) he5 (writeMailbox_legal _ hs)
      split
      · exact onEngine_legal _ _ hk5
      · exact haltEngine_legal _ _ _ (onEngine_legal _ _ hk5)
      exact markFailed_legal _ (onEngine_legal _ _ hk5)

theorem writeRow_legal (k : StreamCmd) (fuel : Nat) (d : Word) (bs : List Byte) {p : Progress} (hp : FieldsLegal p.st) :
    FieldsLegal (writeRow k fuel d bs p).1.st := by
  induction fuel generalizing d bs p with
  | zero => exact hp
  | succ n ih =>
    rw [writeRow]
    split
    · exact hp
    · have hword := engineWord_legal k (d &&& ~~~7#64) hp
      dsimp only
      split
      · next he => rw [he] at hword; exact hword
      · next he => rw [he] at hword; exact ih _ _ hword
theorem runRows_legal (k : StreamCmd) (rs : List (Word × Word)) {p : Progress} (hp : FieldsLegal p.st) :
    FieldsLegal (runRows k rs p).1.st := by
  induction rs generalizing p with
  | nil => exact hp
  | cons r rs ih =>
    rw [runRows]
    have hbytes := rowBytes_legal k r hp
    split
    · next he => rw [he] at hbytes; exact hbytes
    · next s1 bs he =>
      rw [he] at hbytes
      have hrow := writeRow_legal k (k.len / 8 + 2) r.2 bs (p := { p with st := s1 }) hbytes
      split
      · next he2 => rw [he2] at hrow; exact ih hrow
      · exact hrow
theorem landWords_legal (s : State) (c : Nat) {p : Progress} (hp : FieldsLegal p.st) : FieldsLegal (landWords s c p) :=
  homeStore_legal _ _ hp

theorem execStreamCommandStart_legal (c : Nat) {s : State} (hs : FieldsLegal s) :
    OutLegal (execStreamCommandStart c s) := by
  unfold execStreamCommandStart
  extract_lets e
  split
  · exact hs
  · next k rest _ =>
    split
    · exact hs
    · have hrun : FieldsLegal (if e.badBuffer = true then (⟨s, [], 0⟩, some (EngFail.poison 0))
          else runRows k (rowsOf k) { st := s, written := [], words := 0 }).1.st := by
        split
        · exact hs
        · exact runRows_legal k _ hs
      split
      next p fail he =>
      rw [he] at hrun
      have h4 : FieldsLegal (onEngine (landWords s c p) c fun e => { e with queue := rest, badBuffer := false }) :=
        onEngine_legal _ _ (landWords_legal s c hrun)
      dsimp only
      split
      · exact engineStall_legal _ _ hs
      · exact freezeEngine_legal _ _ _ h4
      all_goals exact onEngine_legal _ _ h4

theorem execStreamCommandEnd_legal (c : Nat) {s : State} (hs : FieldsLegal s) :
    OutLegal (execStreamCommandEnd c s) := by
  unfold execStreamCommandEnd
  dsimp only
  split
  · exact hs
  split
  · split
    · exact hs
    exact endCommand_legal _ _ hs
  exact hs

theorem releaseEngine_legal {s : State} (c : Nat) (hs : FieldsLegal s) :
    FieldsLegal (releaseEngine s c) := by
  unfold releaseEngine
  dsimp only
  split
  · split
    · exact onEngine_legal _ _ hs
    exact endCommand_legal _ _ (onEngine_legal _ _ hs)
  exact onEngine_legal _ _ hs

/-! ### FREEZE (R255, R256) -/

theorem freezeOne_legal {s : State} (h : Nat) (hs : FieldsLegal s) :
    FieldsLegal (freezeOne s h) := by
  unfold freezeOne
  dsimp only
  split
  · exact hs
  exact onHart_legal hs fun _ h2 => h2

theorem freezeEngineBy_legal {s : State} (c : Nat) (hs : FieldsLegal s) :
    FieldsLegal (freezeEngineBy s c) :=
  onCore_legal hs fun _ h => h

theorem releaseHart_legal {s : State} (h : Nat) (hs : FieldsLegal s) :
    FieldsLegal (releaseHart s h) := by
  unfold releaseHart
  extract_lets f s1
  split
  · exact hs
  have hx : FieldsLegal s1 := onHart_legal hs fun _ h => h
  split
  · exact withCur_legal _ (raise_legal _ _ (withCur_legal _ hx))
  exact hx

theorem freezeAct_legal {s : State} (release : Bool) (kind : Nat) (target : Nat) (hs : FieldsLegal s) :
    FieldsLegal (freezeAct s release kind target) := by
  unfold freezeAct
  dsimp only
  split
  · split
    · exact releaseHart_legal _ hs
    exact freezeOne_legal _ hs
  split
  · split
    · split
      · exact hs
      exact releaseEngine_legal _ hs
    exact freezeEngineBy_legal _ hs
  split
  · split
    · exact hs
    exact onPart_legal hs
  split
  · split
    · refine foldl_legal (foldl_legal hs fun _ _ h => releaseHart_legal _ h) (fun x x2 h2 => ?_)
      split
      · exact h2
      exact releaseEngine_legal _ h2
    refine onPart_legal ?_
    refine foldl_legal (foldl_legal hs fun _ _ h3 => releaseHart_legal _ h3) (fun x3 x4 h4 => ?_)
    split
    · exact h4
    exact releaseEngine_legal _ h4
  split
  · exact foldl_legal (foldl_legal hs fun _ _ h5 => freezeOne_legal _ h5) fun _ _ h6 => freezeEngineBy_legal _ h6
  exact onPart_legal (foldl_legal (foldl_legal hs fun _ _ h7 => freezeOne_legal _ h7) fun _ _ h8 => freezeEngineBy_legal _ h8)

theorem writeFreeze_legal {s : State} (v : Word) (hs : FieldsLegal s) :
    OptionLegal FieldsLegal (writeFreeze s v) := by
  unfold writeFreeze
  dsimp only
  split
  · exact trivial
  split
  · exact freezeAct_legal _ _ _ hs
  exact hs

theorem execFreezeMaster_legal (v : Word) {s : State} (hs : FieldsLegal s) :
    OutLegal (execFreezeMaster v s) := by
  exact Option.getD_legal (writeFreeze_legal _ hs) hs

theorem execFreezeRelease_legal (v : Word) {s : State} (hs : FieldsLegal s) :
    OutLegal (execFreezeRelease v s) := by
  exact Option.getD_legal (writeFreeze_legal _ hs) hs

/-! ### HARTCTL and MONHART (R63) -/

theorem settleMonhart_legal {s : State} (h : Nat) (hs : FieldsLegal s) :
    FieldsLegal (settleMonhart s h) := by
  unfold settleMonhart
  split
  · split <;> exact hs
  exact hs

theorem startHart_legal {s : State} (h : Nat) (m : BitVec 2) (hs : FieldsLegal s) :
    FieldsLegal (startHart s h m) := by
  unfold startHart
  dsimp only
  split
  · exact hs
  exact settleMonhart_legal _ (onHart_legal hs fun _ h2 => h2.noWait)

theorem writeHartctl_legal {s : State} (v : Word) (hs : FieldsLegal s) :
    OptionLegal FieldsLegal (writeHartctl s v) := by
  unfold writeHartctl
  dsimp only
  split
  · exact trivial
  split
  · exact trivial
  split
  · exact startHart_legal _ _ hs
  split
  · exact onHart_legal hs fun _ h => h
  exact hs

theorem execHartctlStart_legal (v : Word) {s : State} (hs : FieldsLegal s) :
    OutLegal (execHartctlStart v s) := by
  exact Option.getD_legal (writeHartctl_legal _ hs) hs

theorem execHartctlStop_legal (v : Word) {s : State} (hs : FieldsLegal s) :
    OutLegal (execHartctlStop v s) := by
  exact Option.getD_legal (writeHartctl_legal _ hs) hs

theorem execHartStop_legal (h : Nat) {s : State} (hs : FieldsLegal s) :
    OutLegal (execHartStop h s) := by
  unfold execHartStop
  dsimp only
  split
  · exact onHart_legal hs fun _ h2 => h2.noWait
  exact hs

theorem writeMonhart_legal {s : State} (writer : Nat) (v : Word) (hs : FieldsLegal s) :
    OptionLegal FieldsLegal (writeMonhart s writer v) := by
  unfold writeMonhart
  dsimp only
  split
  · exact trivial
  split <;> exact hs

theorem execMonhartWrite_legal (v : Word) {s : State} (hs : FieldsLegal s) :
    OutLegal (execMonhartWrite v s) := by
  exact Option.getD_legal (writeMonhart_legal _ _ hs) hs

/-! ### Firmware and keys (R274) -/

theorem writeKeyctl_legal {s : State} (v : Word) (hs : FieldsLegal s) :
    FieldsLegal (writeKeyctl s v) := by
  unfold writeKeyctl
  dsimp only
  split
  · split <;> exact hs
  repeat' split
  all_goals exact hs

theorem writeFwctl_legal {s : State} (v : Word) (hs : FieldsLegal s) :
    FieldsLegal (writeFwctl s v) := by
  unfold writeFwctl
  dsimp only
  split
  · exact hs
  split <;> exact hs

/-! ### PARTTAG (R266) -/

theorem writeParttag_legal {s : State} (writer : Nat) (n : Nat) (v : Word) (hs : FieldsLegal s) :
    OptionLegal FieldsLegal (writeParttag s writer n v) := by
  unfold writeParttag
  dsimp only
  split
  · trivial
  · next hw =>
    split
    · next hn =>
      refine ⟨hs.1, hs.2.1, fun k hk => ?_⟩
      have hb : bits v 2 0 < 8 := Nat.mod_lt _ (by decide)
      simp only [Vector.getElem_set]
      split
      · rw [BitVec.toNat_ofNat]; omega
      · exact hs.2.2 k hk
    · exact hs

/-! ### Reads -/

theorem readSr_legal {s : State} (sr : Nat) (hs : FieldsLegal s) :
    OptionLegal (FieldsLegal ·.1) (readSr s sr) := by
  unfold readSr
  split
  all_goals first | exact hs | exact onMe_legal hs fun _ h => h | trivial

/-! ### Writes -/

theorem orIllegal_legal {o : Option State} (ho : OptionLegal FieldsLegal o) : SrWriteLegal (orIllegal o) := by
  cases o with
  | none => trivial
  | some s => exact ho

theorem setVs_legal (new : BitVec 2) {h : Hart} (hh : HartLegal h) :
    HartLegal (setVs new h) := by
  unfold setVs
  dsimp only
  split
  · exact hh
  split <;> exact hh

theorem writeStatus_legal {s : State} (v : Word) (hs : FieldsLegal s) :
    SrWriteLegal (writeStatus s v) := by
  have drop (x : Hart) (hx : HartLegal x) (y : Hart) (hy : HartLegal y) (c : Bool) : HartLegal (if c then x else y) := by
    split <;> assumption
  unfold writeStatus
  extract_lets h vs ms h1 s1
  have hh : HartLegal h := by
    show HartLegal (if _ then _ else _)
    split
    · exact dropHeld_legal (me_legal hs)
    · exact me_legal hs
  have hh1 : HartLegal h1 := setVs_legal _ ⟨pmodeOf_ne _, hh.2.1, hh.2.2.1, hh.2.2.2⟩
  have hs1 : FieldsLegal s1 := onMe_legal hs fun _ _ => hh1
  split
  · trivial
  · split
    · exact nofun
    · split
      · exact nofun
      · show FieldsLegal _
        split
        · exact onCore_legal hs1 fun _ h => zeroMatrix_legal h
        · exact hs1

theorem dirtyMatrix_legal {s : State} (hs : FieldsLegal s) :
    FieldsLegal (dirtyMatrix s) :=
  onMe_legal hs fun _ h => h

theorem writeTshape_legal {s : State} (v : Word) (hs : FieldsLegal s) :
    SrWriteLegal (writeTshape s v) := by
  unfold writeTshape
  split
  · exact hs
  split
  · exact trivial
  exact dirtyMatrix_legal (onCore_legal hs fun _ h => h)

theorem writeSplit_legal {s : State} (d : Reg) (v : Word) (hs : FieldsLegal s) :
    SrWriteLegal (writeSplit s d v) := by
  unfold writeSplit
  extract_lets c n
  split
  · trivial
  · next hn =>
    split
    · exact hs
    · split
      · refine setSplit_legal c hs ?_
        rw [BitVec.toNat_ofNat]; omega
      · intro d' v' he
        cases he
        simpa [n, bits] using hn

theorem writeSr_legal {s : State} (sr : Nat) (d : Reg) (v : Word) (hs : FieldsLegal s) :
    SrWriteLegal (writeSr s sr d v) := by
  unfold writeSr
  extract_lets put
  have hput (f : Hart → Hart) (hf : ∀ x, HartLegal x → HartLegal (f x)) : SrWriteLegal (put f) := onMe_legal hs hf
  split
  · exact hput _ fun _ h => h
  · exact hput _ fun _ h => h
  · exact hput _ fun _ h => h
  · exact hput _ fun _ h => h
  · exact writeTshape_legal _ hs
  · split
    · exact dirtyMatrix_legal (onCore_legal hs fun _ h => h)
    · exact hs
  · exact hput _ fun _ h => h
  · exact hput _ fun _ h => h
  · exact writeStatus_legal _ hs
  · exact hput _ fun _ ⟨hp, he, _, hw⟩ => ⟨hp, he, tvecOf_legal v, hw⟩
  · exact hput _ fun _ ⟨hp, _, ht, hw⟩ => ⟨hp, bv_and_not3 v, ht, hw⟩
  · exact hput _ fun _ h => h
  · exact hput _ fun _ h => h
  · exact hput _ fun _ h => h
  · exact hput _ fun _ h => h
  · exact hput _ fun _ h => h
  · split
    · trivial
    · split
      · exact hs
      · exact onCore_legal hs fun _ h => h
  · exact writeSplit_legal _ _ hs
  · exact hput _ fun _ h => h
  · exact orIllegal_legal (writeParttag_legal _ _ _ hs)
  · exact orIllegal_legal (writeFreeze_legal _ hs)
  · exact writeKeyctl_legal _ hs
  · exact writeFwctl_legal _ hs
  · exact orIllegal_legal (writeMonhart_legal _ _ hs)
  · exact orIllegal_legal (writeHartctl_legal _ hs)
  · exact hs
  · exact hs

/-! ### GETSR, SETSR, SWAPSR -/

theorem execGetsr_legal (d : Reg) (sr : BitVec 12) {s : State} (hs : FieldsLegal s) :
    OutLegal (execGetsr d sr s) := by
  unfold execGetsr
  split
  · exact outTrap_legal _ _ hs
  split
  · exact waitOn_legal hs nofun
  split
  · exact waitOn_legal hs nofun
  split
  · next he =>
      have hk := Eq.subst (motive := OptionLegal _) he (readSr_legal _ hs)
      exact outX_legal _ _ hk
  exact outTrap_legal _ _ hs

theorem srStore_legal (d : Reg) (old : Word) (sr : Nat) (v : Word) (w : Word) {s : State} (hs : FieldsLegal s) :
    FieldsLegal (srStore d old sr v w s) := by
  grind [srStore, writeSr_legal, retireX_legal, raise_legal, waitOn_legal, SrWriteLegal]

theorem execSetsr_legal (a : Reg) (sr : BitVec 12) {s : State} (hs : FieldsLegal s) :
    OutLegal (execSetsr a sr s) := by
  unfold execSetsr
  refine irrevocably_legal hs (fun x h => ?_)
  split
  · exact raise_legal _ _ h
  split
  · exact waitOn_legal h nofun
  exact srStore_legal _ _ _ _ _ h

theorem execSwapsr_legal (d : Reg) (a : Reg) (sr : BitVec 12) {s : State} (hs : FieldsLegal s) :
    OutLegal (execSwapsr d a sr s) := by
  unfold execSwapsr
  refine irrevocably_legal hs (fun x h => ?_)
  split
  · exact raise_legal _ _ h
  split
  · exact waitOn_legal h nofun
  split
  · exact waitOn_legal h nofun
  split
  · next he =>
      have hk := Eq.subst (motive := OptionLegal _) he (readSr_legal _ h)
      exact srStore_legal _ _ _ _ _ hk
  exact raise_legal _ _ h

theorem execLocalsplitResize_legal (h : Nat) {s : State} (hs : FieldsLegal s) :
    OutLegal (execLocalsplitResize h s) := by
  unfold execLocalsplitResize
  split
  · next d v hw =>
    have hv : v.toNat % 8 ≤ 4 := (hs.1 h).2.2.2 d v hw
    extract_lets s1 old
    have hs1 : FieldsLegal s1 := hs
    split
    · exact retireX_legal _ _ hs1
    · split
      · refine retireX_legal _ _ (setSplit_legal _ hs1 ?_)
        rw [BitVec.toNat_ofNat, bits]
        omega
      · exact hs
  · exact hs

theorem execRegisterWrite_legal (who : Who) (r : RegAddr) (v : Word) {s : State} (hs : FieldsLegal s) :
    OutLegal (execRegisterWrite who r v s) := by
  cases r with
  | mmio pa => exact registerStore_legal _ _ _ hs
  | sr n =>
    cases who with
    | vf _ => exact hs
    | hart h =>
      have h1 := writeSr_legal (s := { s with cur := h }) n.toNat 0 v hs
      unfold execRegisterWrite
      dsimp only
      split
      · exact hs
      · split
        · next he => rw [he] at h1; exact h1
        · exact hs

/-! ### The words of a convoy (R110, R112, R114, R284) -/

theorem fetchRest_legal (h : Nat) (a0 : Nat) {s : State} (a2 : Word) (hs : FieldsLegal s) :
    ExceptLegal (FieldsLegal ·.1) (FieldsLegal ·.1) (fetchRest h a0 s a2) := by
  induction a0 generalizing s a2 with
  | zero =>
    have h1 := leadingWord_legal h a2 hs
    rw [fetchRest]
    split
    · next he => rw [he] at h1; exact h1
    · next he => rw [he] at h1; split <;> exact h1
  | succ k ih =>
    have h1 := leadingWord_legal h a2 hs
    rw [fetchRest]
    split
    · next he => rw [he] at h1; exact h1
    · next s1 w0 he =>
      rw [he] at h1
      split
      · exact h1
      · have h2 := fetchInstr_legal h a2 (s := s1) h1
        dsimp only
        split
        · next he => rw [he] at h2; exact h2
        · next s2 ws he =>
          rw [he] at h2
          split
          · have h3 := ih (a2 + w64 (4 * ws.length)) (s := s2) h2
            cases hr : fetchRest h k s2 (a2 + w64 (4 * ws.length)) with
            | error e => rw [hr] at h3; exact h3
            | ok r => rw [hr] at h3; exact h3
          · exact h2

/-! ### The checks at queue entry (R399) -/

theorem restoreHeader_legal {s : State} (w : Word) (ps : List Piece) (hs : FieldsLegal s) :
    ExceptLegal FieldsLegal FieldsLegal (restoreHeader s w ps) := by
  grind [restoreHeader, irrevocable_legal, trackRead_legal, haltHart_legal, touch_legal, loadVectorLine_legal, raise_legal, me_legal, ExceptLegal, TrackedLegal]

theorem placeConvoy_legal (ms : List VMember) (seed : Word) (after : Word) (pins : List Pin) (vl : Option Nat) {s : State} (hs : FieldsLegal s) :
    FieldsLegal (placeConvoy ms seed after pins vl s) := by
  grind [placeConvoy, onMe_legal, HartLegal, fieldsLegal_iff]

theorem probeMember_legal {s : State} (e : VEnv) (m : VMember) (word : Word) (hs : FieldsLegal s) :
    ProbedLegal (probeMember s e m word) := by
  unfold probeMember
  split
  · have h1 := probeAll_legal (memberAccess s m) [⟨0, ‹Word›, 64⟩] hs
    grind [ExceptLegal, ProbedLegal, badVector_legal, waitOn_legal, triggersAct_legal, TrackedLegal, restoreHeader_legal, probe_legal]
  · exact probe_legal _ _ _ hs

theorem enterMembers_legal (ms : List Member) (is : List Instr) (after : Word) {s : State} (hs : FieldsLegal s) :
    FieldsLegal (enterMembers ms is after s) := by
  unfold enterMembers
  extract_lets h r parts upTo
  split
  · exact raise_legal _ _ hs
  · split
    · exact waitOn_legal hs nofun
    · split
      · exact uncorrectable_legal _ _ hs
      · split
        · exact waitOn_legal hs nofun
        · split
          · exact waitOn_legal hs nofun
          · split
            · exact raise_legal _ _ hs
            · split
              · exact placeConvoy_legal _ _ _ _ _ hs
              · next m _ =>
                split
                · exact raise_legal _ _ hs
                · dsimp only
                  split
                  · exact waitOn_legal hs nofun
                  · split
                    · exact waitOn_legal hs nofun
                    · have h1 := probeMember_legal (runActs m.cap.vstart m.cap.vl parts.1 { h := h }) m
                        (w64 ((ms.headD ⟨0, false, 0, none, 0⟩).word)) hs
                      split
                      · next he => rw [he] at h1; exact h1
                      · next he =>
                        rw [he] at h1
                        split
                        · exact raise_legal _ _ h1
                        · exact placeConvoy_legal _ _ _ _ _ h1

theorem enterConvoy_legal (head : Member) (is : List Instr) (len : Nat) {s : State} (hs : FieldsLegal s) :
    FieldsLegal (enterConvoy head is len s) := by
  unfold enterConvoy
  extract_lets after
  split
  · have h1 := fetchRest_legal s.cur 3 after hs
    split
    · next he => rw [he] at h1; exact badAccess_legal _ _ h1
    · next s1 r he =>
      rw [he] at h1
      have h2 := pcTriggers_legal r.places h1
      split
      · next he => rw [he] at h2; exact h2
      · next he =>
        rw [he] at h2
        dsimp only
        split
        · exact raise_legal _ _ h2
        · split
          · exact raise_legal _ _ h2
          · exact enterMembers_legal _ _ _ h2
  · exact enterMembers_legal _ _ _ hs

theorem enterVector_legal (i : Instr) (h : VHdr) (a : VAct) {s : State} (hs : FieldsLegal s) :
    OutLegal (enterVector i h a s) :=
  enterConvoy_legal _ _ _ hs

/-! ### The instructions -/

theorem execSetwm_legal (a : Reg) (b : Reg) (sc : Scope) {s : State} (hs : FieldsLegal s) :
    OutLegal (execSetwm a b sc s) := by
  unfold execSetwm
  dsimp only
  exact irrevocably_legal hs fun _ h => enterConvoy_legal _ _ _ h

/-! ### Issue and drain (R113) -/

theorem reprobeFrom_legal {s : State} (h : Nat) (c : Convoy) (e : Nat) (hi : Nat) (hs : FieldsLegal s) :
    ReprobedLegal (reprobeFrom s h c e hi) := by
  unfold reprobeFrom
  extract_lets r s1
  have hs1 : FieldsLegal s1 := hs
  clear_value s1
  split
  · exact hs
  · next m _ =>
    have hprobed := probeAll_legal (fun x => { memberAccess s1 m x with queued := c.firstFault })
      (accessesOf (runActs c.low m.cap.vl r.1 (c.env (hart s h))) m e (min hi c.limit)) hs1
    dsimp only at hprobed ⊢
    generalize probeAll _ s1 _ = probed at hprobed ⊢
    obtain ⟨s2, i, b⟩ | ⟨s2, ps⟩ := probed
    · cases b with
      | migrating _ => trivial
      | held => trivial
      | trap _ _ => exact hprobed
      | violation _ _ _ => exact hprobed
    · exact hprobed

theorem setConvoy_legal {s : State} (h : Nat) (c : Convoy) (hs : FieldsLegal s) :
    FieldsLegal (setConvoy s h c) :=
  onHart_legal hs fun _ h => h

theorem cutConvoy_legal {s : State} (h : Nat) (c : Convoy) (i : Nat) (hs : FieldsLegal s) :
    FieldsLegal (cutConvoy s h c i) :=
  onHart_legal (setConvoy_legal _ _ hs) fun _ h => h

theorem shortenLoad_legal {s : State} (h : Nat) (c : Convoy) (e : Nat) (i : Nat) (hs : FieldsLegal s) :
    FieldsLegal (shortenLoad s h c e i) := by
  unfold shortenLoad
  split
  · next he =>
      have hk := Eq.subst (motive := ReprobedLegal) he (reprobeFrom_legal _ _ _ _ hs)
      exact cutConvoy_legal _ _ _ hk
  exact cutConvoy_legal _ _ _ hs

theorem Hart.without_legal (now : Nat) (seq : Nat) {x : Hart} (hx : HartLegal x) :
    HartLegal (Hart.without now seq x) := by
  unfold Hart.without
  dsimp only
  split
  · exact hx
  exact hx

theorem Hart.upTo_legal (seq : Nat) {x : Hart} (hx : HartLegal x) :
    HartLegal (Hart.upTo seq x) := by
  unfold Hart.upTo
  dsimp only
  split
  · split
    · exact hx.noWait
    exact hx
  exact hx

theorem haltConvoy_legal {s : State} (h : Nat) (c : Convoy) (progress : Nat) (pa : Nat) (hs : FieldsLegal s) :
    FieldsLegal (haltConvoy s h c progress pa) := by
  unfold haltConvoy
  exact haltHart_legal _ _ _ _ _ (onHart_legal hs fun _ h2 => Hart.upTo_legal _ h2)

theorem holdConvoy_legal {s : State} (h : Nat) (c : Convoy) (b : Bad) (hs : FieldsLegal s) :
    FieldsLegal (holdConvoy s h c b) := by
  have hold (code : Byte) (tval : Word) {t : State} (ht : FieldsLegal t) : FieldsLegal (onHart t h fun x =>
      { x.without t.time c.seq with
        heldConvoy := some { c with reprobe := none }, lateFault := some ⟨code, tval, c.start, c.pc⟩ }) :=
    onHart_legal ht fun x hx =>
      have hx' : HartLegal (Hart.without t.time c.seq x) := Hart.without_legal t.time c.seq hx
      hx'
  cases b with
  | trap code tval => exact hold code tval hs
  | violation code tval pa =>
    exact hold code tval (onHart_legal (freezeHart_legal _ _ _ _ _ hs) fun _ hx => hx)
  | migrating _ => exact hs
  | held => exact hs

theorem failLate_legal {s : State} (h : Nat) {k : State → State} (hs : FieldsLegal s) (hk : ∀ s, FieldsLegal s → FieldsLegal (k s)) :
    FieldsLegal (failLate s h k) := by
  grind [failLate, makeIrrev_legal, abortAll_legal]

theorem failReprobe_legal {s : State} (h : Nat) (c : Convoy) (lo : Nat) (e : Nat) (i : Nat) (b : Bad) (hs : FieldsLegal s) :
    FieldsLegal (failReprobe s h c lo e i b) := by
  unfold failReprobe
  dsimp only
  split
  · exact haltConvoy_legal _ _ _ _ hs
  split
  · exact shortenLoad_legal _ _ _ _ hs
  exact failLate_legal _ hs fun _ h2 => holdConvoy_legal _ _ _ h2

theorem issueConvoy_legal {s : State} (h : Nat) (c : Convoy) (hs : FieldsLegal s) :
    FieldsLegal (issueConvoy s h c) :=
  onHart_legal hs fun _ h => h

theorem execConvoyIssue_legal (h : Nat) {s : State} (hs : FieldsLegal s) :
    OutLegal (execConvoyIssue h s) := by
  unfold execConvoyIssue
  dsimp only
  split
  · exact hs
  split
  · exact hs
  split
  · exact issueConvoy_legal _ _ hs
  split
  · exact hs
  split
  · next he =>
      have hk := Eq.subst (motive := ReprobedLegal) he (reprobeFrom_legal _ _ _ _ hs)
      exact issueConvoy_legal _ _ hk
  · next he2 =>
      have hk2 := Eq.subst (motive := ReprobedLegal) he2 (reprobeFrom_legal _ _ _ _ hs)
      exact failReprobe_legal _ _ _ _ _ _ hk2
  exact setConvoy_legal _ _ hs

theorem drainConvoy_legal (h : Nat) {s : State} (hs : FieldsLegal s) :
    FieldsLegal (drainConvoy h s) := by
  unfold drainConvoy
  split
  · exact hs
  split
  · exact hs
  refine withCur_legal _ ?_
  split
  · next he => exact onHart_legal (Eq.subst (motive := PerformedLegal) he (performConvoy_legal _ _ _ hs)) fun _ h => h
  · next he => exact haltConvoy_legal _ _ _ _ (Eq.subst (motive := PerformedLegal) he (performConvoy_legal _ _ _ hs))
  · next he =>
      have hk := Eq.subst (motive := PerformedLegal) he (performConvoy_legal _ _ _ hs)
      exact foldl_legal (onHart_legal hk fun _ h => clearConvoy_legal _ h) fun _ _ h => traceAt_legal _ _ h

theorem execConvoyDrain_legal (h : Nat) {s : State} (hs : FieldsLegal s) :
    OutLegal (execConvoyDrain h s) := by
  unfold execConvoyDrain
  split
  · exact hs
  exact drainConvoy_legal _ hs

theorem execWatermarkStore_legal (h : Nat) {s : State} (hs : FieldsLegal s) :
    OutLegal (execWatermarkStore h s) := by
  unfold execWatermarkStore
  split
  · exact drainConvoy_legal _ hs
  exact hs

theorem execScalarDestinationWrite_legal (h : Nat) {s : State} (hs : FieldsLegal s) :
    OutLegal (execScalarDestinationWrite h s) := by
  unfold execScalarDestinationWrite
  split
  · exact hs
  next d _ =>
    split
    · exact hs
    show FieldsLegal _
    refine onHart_legal hs fun x h => ?_
    extract_lets y
    have hy : HartLegal y := by
      unfold y
      cases d.value with
      | none => exact h
      | some v =>
        dsimp only
        split
        · exact setF_legal d.reg v h
        exact setX_legal d.reg v h
    obtain ⟨hp, he, ht, -⟩ := hy
    refine ⟨hp, he, ht, fun b v hw => ?_⟩
    obtain ⟨-, -, -, hx⟩ := h
    dsimp only at hw
    split at hw
    · cases hw
    exact hx b v hw

/-! ### Queue entry (R139) -/

theorem placeMatrix_legal (a : MAct) (cap : Captured) (pins : List Pin) {s : State} (hs : FieldsLegal s) :
    FieldsLegal (placeMatrix a cap pins s) := by
  unfold placeMatrix
  refine onMe_legal hs fun x h => ?_
  exact (retireHart_legal 4 h : HartLegal (retireHart 4 x))

theorem probeMatrix_legal {s : State} (store : Bool) (xs : List VAccess) (hs : FieldsLegal s) :
    ProbedLegal (probeMatrix s store xs) := by
  unfold probeMatrix
  dsimp only
  split
  · next he =>
      have hk := Eq.subst (motive := ExceptLegal _ _) he (probeAll_legal _ _ hs)
      exact admitAccess_legal _ _ _ _ hk
  · next he2 =>
      have hk2 := Eq.subst (motive := ExceptLegal _ _) he2 (probeAll_legal _ _ hs)
      exact badVector_legal _ _ _ hk2

theorem matrixRoom_legal {s : State} (mem : Bool) {k : State → State} (hs : FieldsLegal s) (hk : ∀ s, FieldsLegal s → FieldsLegal (k s)) :
    FieldsLegal (matrixRoom s mem k) := by
  grind [matrixRoom, waitOn_legal, me_legal]

theorem probeEntry_legal {s : State} (xs : List VAccess) (hs : FieldsLegal s) :
    ProbedLegal (probeEntry s xs) := by
  unfold probeEntry
  split
  · next he =>
      have hk := Eq.subst (motive := ExceptLegal _ _) he (probeAll_legal _ _ hs)
      split
      · exact waitOn_legal hs nofun
      exact admitAccess_legal _ _ _ _ hk
  · next he2 =>
      have hk2 := Eq.subst (motive := ExceptLegal _ _) he2 (probeAll_legal _ _ hs)
      exact badVector_legal _ _ _ hk2

theorem entryCore_legal {s : State} (hs : FieldsLegal s) :
    CoreLegal (entryCore s) := by
  exact mappedCore_legal _ (core_legal hs _)

theorem enterMatrix_legal {s : State} (w : Word) (checks : State → List (Bool × Byte)) (a : State → MAct) (hs : FieldsLegal s) :
    OutLegal (enterMatrix w checks a s) := by
  refine irrevocably_legal hs fun s hs => ?_
  split
  · exact raise_legal _ _ hs
  · refine matrixRoom_legal _ hs fun s hs => ?_
    have h1 := fun b xs => probeMatrix_legal b xs hs
    grind [ProbedLegal, placeMatrix_legal]

/-! ### The instructions -/

theorem execMshape_legal (d : Reg) (a : Reg) (b : Reg) {s : State} (hs : FieldsLegal s) :
    OutLegal (execMshape d a b s) := by
  unfold execMshape
  dsimp only
  refine irrevocably_legal hs (fun x h => ?_)
  split
  · exact raise_legal _ _ h
  exact retireX_legal _ _ (dirtyMatrix_legal (onCore_legal h fun _ h2 => h2))

theorem execMzero_legal (c : BitVec 3) {s : State} (hs : FieldsLegal s) :
    OutLegal (execMzero c s) := by
  exact enterMatrix_legal _ _ _ hs

theorem execMlda_legal (d : BitVec 2) (a : Reg) (b : Reg) {s : State} (hs : FieldsLegal s) :
    OutLegal (execMlda d a b s) := by
  exact enterMatrix_legal _ _ _ hs

theorem execMldaScale_legal (d : BitVec 2) (a : Reg) (b : Reg) (q : Ty) {s : State} (hs : FieldsLegal s) :
    OutLegal (execMldaScale d a b q s) := by
  exact enterMatrix_legal _ _ _ hs

theorem execMldaff_legal (d : BitVec 2) (a : Reg) (b : Reg) {s : State} (hs : FieldsLegal s) :
    OutLegal (execMldaff d a b s) := by
  refine irrevocably_legal hs fun s hs => ?_
  split
  · exact raise_legal _ _ hs
  · refine matrixRoom_legal _ hs fun s hs => ?_
    grind [ProbedLegal, probeAll_legal, admitAccess_legal, probeMatrix_legal, badVector_legal, ExceptLegal, placeMatrix_legal, raise_legal, dirtyMatrix_legal, onCore_legal, CoreLegal]

theorem execMldb_legal (d : Reg) (a : Reg) (b : Reg) {s : State} (hs : FieldsLegal s) :
    OutLegal (execMldb d a b s) := by
  exact enterMatrix_legal _ _ _ hs

theorem execMldbScale_legal (d : Reg) (a : Reg) (b : Reg) (q : Ty) {s : State} (hs : FieldsLegal s) :
    OutLegal (execMldbScale d a b q s) := by
  exact enterMatrix_legal _ _ _ hs

theorem execMldw_legal (d : BitVec 2) (a : Reg) (b : Reg) (m : BitVec 2) {s : State} (hs : FieldsLegal s) :
    OutLegal (execMldw d a b m s) := by
  exact enterMatrix_legal _ _ _ hs

theorem entryBytes_legal {s : State} (pins : List Pin) (xs : List VAccess) (hs : FieldsLegal s) :
    ExceptLegal FieldsLegal (FieldsLegal ·.1) (entryBytes s pins xs) := by
  unfold entryBytes
  dsimp only
  split
  · next he =>
      have hk := Eq.subst (motive := TrackedLegal) he (trackRead_legal _ hs)
      exact hk
  · next he2 =>
      have hk2 := Eq.subst (motive := TrackedLegal) he2 (trackRead_legal _ hs)
      split
      · exact haltHart_legal _ _ _ _ _ hk2
      exact loadedLines_legal _ _ hk2

theorem execMtmap_legal (d : BitVec 2) (a : Reg) {s : State} (hs : FieldsLegal s) :
    OutLegal (execMtmap d a s) := by
  refine irrevocably_legal hs fun s hs => ?_
  split
  · exact raise_legal _ _ hs
  · refine matrixRoom_legal _ hs fun s hs => ?_
    grind [ProbedLegal, probeEntry_legal, entryBytes_legal, ExceptLegal, placeMatrix_legal, raise_legal]

theorem execMma_legal (c : BitVec 3) (a : BitVec 2) (b : Reg) (f : Ty) {s : State} (hs : FieldsLegal s) :
    OutLegal (execMma c a b f s) := by
  exact enterMatrix_legal _ _ _ hs

theorem execMstc_legal (c : BitVec 3) (a : Reg) (b : Reg) (f : Ty) {s : State} (hs : FieldsLegal s) :
    OutLegal (execMstc c a b f s) := by
  exact enterMatrix_legal _ _ _ hs

theorem execMmovcToVector_legal (d : Reg) (c : BitVec 3) (b : Reg) (k : BitVec 3) {s : State} (hs : FieldsLegal s) :
    OutLegal (execMmovcToVector d c b k s) := by
  exact enterMatrix_legal _ _ _ hs

theorem execMmovcToTile_legal (c : BitVec 3) (a : Reg) (b : Reg) (k : BitVec 3) {s : State} (hs : FieldsLegal s) :
    OutLegal (execMmovcToTile c a b k s) := by
  exact enterMatrix_legal _ _ _ hs

theorem execMcastTile_legal (d : Reg) (a : BitVec 2) {s : State} (hs : FieldsLegal s) :
    OutLegal (execMcastTile d a s) := by
  exact enterMatrix_legal _ _ _ hs

theorem execMcastRows_legal (d : Reg) (a : Reg) {s : State} (hs : FieldsLegal s) :
    OutLegal (execMcastRows d a s) := by
  exact enterMatrix_legal _ _ _ hs

theorem execMwait_legal {s : State} (hs : FieldsLegal s) :
    OutLegal (execMwait s) := by
  unfold execMwait
  refine irrevocably_legal hs (fun x h => ?_)
  split
  · exact raise_legal _ _ h
  split
  · exact retire_legal h
  exact waitOn_legal h nofun

theorem execMwaitComplete_legal (h : Nat) {s : State} (hs : FieldsLegal s) :
    OutLegal (execMwaitComplete h s) := by
  unfold execMwaitComplete
  split
  · split
    · exact onHart_legal hs fun _ h2 => retireHart_legal _ h2
    exact hs
  exact hs

theorem execMsave_legal (a : Reg) {s : State} (hs : FieldsLegal s) :
    OutLegal (execMsave a s) := by
  refine irrevocably_legal hs fun s hs => ?_
  split
  · exact raise_legal _ _ hs
  · refine matrixRoom_legal true hs fun s hs => ?_
    split
    · exact raise_legal _ _ hs
    · have hprobed := probeMatrix_legal true ((MAct.save (rx s a)).probes (myCore s) (captureOf s)) hs
      dsimp only
      split
      · next he => rw [he] at hprobed; exact hprobed
      · next he => rw [he] at hprobed; exact placeMatrix_legal _ _ _ hprobed

theorem restoreShape_legal (bs : List Byte) {c : Core} (hc : CoreLegal c) :
    CoreLegal (restoreShape bs c) :=
  hc

theorem execMrest_legal (a : Reg) {s : State} (hs : FieldsLegal s) :
    OutLegal (execMrest a s) := by
  refine irrevocably_legal hs fun s hs => ?_
  split
  · exact raise_legal _ _ hs
  · refine matrixRoom_legal _ hs fun s hs => ?_
    grind [ProbedLegal, probeEntry_legal, entryBytes_legal, probeMatrix_legal, ExceptLegal, placeMatrix_legal, raise_legal, waitOn_legal, dirtyMatrix_legal, onCore_legal, restoreShape_legal]

/-! ### Performing an entry (R138) -/

theorem storeRows_legal {s : State} (c : Nat) (cells : List Host.Cell) (hs : FieldsLegal s) :
    FieldsLegal (storeRows s c cells) :=
  hs

theorem putSides_legal (cells : List Host.Cell) {k : Core} (hk : CoreLegal k) :
    CoreLegal (putSides cells k) :=
  hk

theorem loadMatrixAct_legal (c : Nat) (cap : Captured) (a : MAct) (got : List (Nat × List Byte)) {s : State} (hs : FieldsLegal s) :
    FieldsLegal (loadMatrixAct c cap a got s) := by
  unfold loadMatrixAct
  split
  all_goals first | exact onCore_legal hs fun _ h => h | exact storeRows_legal _ _ hs | exact hs

theorem castOf_legal {s : State} (c : Nat) (tile : Option (BitVec 2 × BitVec 32768 × BitVec 2048)) (cells : List Host.Cell) (sides : List Host.Cell) (hs : FieldsLegal s) :
    FieldsLegal (castOf s c tile cells sides) := by
  grind [castOf, onCore_legal, foldl_legal, CoreLegal, fieldsLegal_iff]

theorem settleCast_legal {s : State} (h : Nat) (hs : FieldsLegal s) :
    FieldsLegal (settleCast s h) := by
  unfold settleCast
  dsimp only
  split
  · exact hs
  split
  · exact hs
  exact onHart_legal hs fun _ h2 => setX_legal _ _ h2

theorem runMatrixAct_legal {s : State} (c : Nat) (cap : Captured) (a : MAct) (hs : FieldsLegal s) :
    FieldsLegal (runMatrixAct s c cap a) := by
  unfold runMatrixAct
  extract_lets own
  cases a with
  | castRows d row =>
    dsimp only
    split
    · exact onMe_legal hs fun _ h => h
    · exact castOf_legal _ _ _ _ (onMe_legal hs fun _ h => h)
  | toTile d x row0 k =>
    dsimp only
    split
    · exact hs
    · exact dirtyMatrix_legal (onCore_legal hs fun _ h => moveToTile_legal _ _ _ _ _ h)
  | castTile d x => exact castOf_legal _ _ _ _ (onMe_legal hs fun _ h => h)
  | toVector d x row0 k => exact onMe_legal hs fun _ h => moveToVector_legal _ _ _ _ _ h
  | mma d x row f => exact raiseFlags_legal _ (dirtyMatrix_legal (onCore_legal hs fun _ h => h))
  | zero d => exact dirtyMatrix_legal (onCore_legal hs fun _ h => h)
  | tmap d t => exact dirtyMatrix_legal (onCore_legal hs fun _ h => h)
  | _ => exact hs

theorem clearTiles_legal (e : MEntry) (c : Nat) {s : State} (hs : FieldsLegal s) :
    FieldsLegal (clearTiles e c s) := by
  unfold clearTiles
  split
  · exact hs
  exact onCore_legal hs fun _ h => h

theorem performMatrix_legal {s : State} (e : MEntry) (hs : FieldsLegal s) :
    PerformedLegal (performMatrix s e) := by
  unfold performMatrix
  extract_lets c k clear
  have hclear {t : State} (ht : FieldsLegal t) : FieldsLegal (clear t) := onCore_legal ht fun _ h => h
  clear_value clear
  refine iteInduction (motive := PerformedLegal) (fun _ => hs) fun _ => ?_
  · split
    · exact storeUpTo_legal (fun l => storeAccesses_legal _ _ _ _ _ hs) (fun _ h => raiseFlags_legal _ h)
        fun _ _ h => hclear (raiseFlags_legal _ h)
    · split
      · exact hclear hs
      · split
        · exact settleCast_legal _ (runMatrixAct_legal _ _ _ hs)
        · have h1 := trackRead_legal
            (((e.act.accesses k e.cap).flatMap (accessPieces e.pins)).filter fun p => tracked p.pa) hs
          dsimp only
          split
          · next he =>
            rw [he] at h1
            show FieldsLegal (if _ then _ else _)
            split
            · exact h1
            · exact hs
          · next s1 he =>
            rw [he] at h1
            split
            · exact h1
            · have h2 := loadMatrixAct_legal c e.cap e.act (readAccesses s1 e.pins (e.act.accesses k e.cap))
                (loadedLines_legal e.pins (e.act.accesses k e.cap) h1)
              show FieldsLegal (if _ then _ else _)
              split
              · exact dirtyMatrix_legal h2
              · exact h2

/-! ### The engine (R135, R138) -/

theorem takeUnit_legal (u : MUnit) (t : Nat) {k : Core} (hk : CoreLegal k) :
    CoreLegal (takeUnit u t k) := by
  cases u <;> exact hk

theorem onEntry_legal (h : Nat) (seq : Nat) (f : MEntry → MEntry) {s : State} (hs : FieldsLegal s) :
    FieldsLegal (onEntry h seq f s) :=
  onHart_legal hs fun _ h => h

theorem traceEntry_legal (h : Nat) (e : MEntry) (kind : Nat) {s : State} (hs : FieldsLegal s) :
    FieldsLegal (traceEntry h e kind s) := by
  unfold traceEntry
  split
  · exact hs
  · exact traceAt_legal _ _ hs
  exact traceAt_legal _ _ hs

theorem startEntry_legal {s : State} (h : Nat) (e : MEntry) (hs : FieldsLegal s) :
    FieldsLegal (startEntry s h e) := by
  unfold startEntry
  dsimp only
  refine traceEntry_legal _ _ _ ?_
  refine onCore_legal (onEntry_legal _ _ _ hs) (fun x h2 => ?_)
  refine takeUnit_legal _ _ ?_
  split
  · exact h2
  exact h2

theorem haltEntry_legal {s : State} (h : Nat) (e : MEntry) (progress : Nat) (pa : Nat) (hs : FieldsLegal s) :
    FieldsLegal (haltEntry s h e progress pa) := by
  unfold haltEntry
  exact haltHart_legal _ _ _ _ _ (onHart_legal hs fun _ h2 => Hart.upTo_legal _ h2)

theorem cutRows_legal {s : State} (h : Nat) (e : MEntry) (rows : Nat) (pins : List Pin) (hs : FieldsLegal s) :
    FieldsLegal (cutRows s h e rows pins) := by
  unfold cutRows
  dsimp only
  split
  · exact onCore_legal (onHart_legal hs fun _ h2 => h2) fun _ h3 => h3
  exact onHart_legal hs fun _ h4 => h4

theorem shortenRows_legal {s : State} (h : Nat) (e : MEntry) (hs : FieldsLegal s) :
    FieldsLegal (shortenRows s h e) := by
  unfold shortenRows
  split
  · next d base pitch rows _ =>
    extract_lets acc probe later cut r
    have hprobe {t : State} (n : Nat) (ht : FieldsLegal t) : ExceptLegal (FieldsLegal ·.1) (FieldsLegal ·.1) (probe t n) :=
      probeAll_legal _ _ ht
    have hlater {t : State} (ht : FieldsLegal t) : FieldsLegal (later t) := onEntry_legal _ _ _ ht
    have hcut {t : State} (i : Nat) (ht : FieldsLegal t) : FieldsLegal (cut t i) := by
      have h1 := hprobe i ht
      show FieldsLegal (match probe t i with | .ok (s1, ps) => _ | .error (s1, _, _) => _)
      split
      · next he => rw [he] at h1; exact onEntry_legal _ _ _ (cutRows_legal _ _ _ _ h1)
      · next he => rw [he] at h1; exact hlater h1
    have hr : FieldsLegal r := by
      have h1 := hprobe (t := { s with cur := h }) rows hs
      show FieldsLegal (match probe { s with cur := h } rows with | .ok (s2, ps) => _ | .error (s2, i, b) => _)
      split
      · next he => rw [he] at h1; exact onEntry_legal _ _ _ h1
      · next he =>
        rw [he] at h1
        split
        · split
          · exact haltEntry_legal _ _ _ _ h1
          · exact hcut _ h1
        · exact hcut _ (freezeHart_legal _ _ _ _ _ h1)
        · exact hlater h1
        · exact hlater h1
    exact hr
  · exact hs

theorem finishEntry_legal {s : State} (h : Nat) (e : MEntry) (hs : FieldsLegal s) :
    FieldsLegal (finishEntry s h e) := by
  unfold finishEntry
  refine withCur_legal _ ?_
  split
  · next he => exact onEntry_legal _ _ _ (Eq.subst (motive := PerformedLegal) he (performMatrix_legal _ hs))
  · next he => exact haltEntry_legal _ _ _ _ (Eq.subst (motive := PerformedLegal) he (performMatrix_legal _ hs))
  · next he =>
      have hk := Eq.subst (motive := PerformedLegal) he (performMatrix_legal _ hs)
      refine traceEntry_legal _ _ _ ?_
      split
      · exact onHart_legal hk fun _ h => h
      exact clearTiles_legal _ _ (onHart_legal hk fun _ h => h)

theorem execMatrixExecute_legal (h : Nat) {s : State} (hs : FieldsLegal s) :
    OutLegal (execMatrixExecute h s) := by
  unfold execMatrixExecute
  split
  · split
    · exact hs
    exact finishEntry_legal _ _ hs
  split
  · split
    · exact shortenRows_legal _ _ hs
    split
    · exact startEntry_legal _ _ hs
    exact hs
  exact hs

theorem execMcastDelivery_legal (c : Nat) {s : State} (hs : FieldsLegal s) :
    OutLegal (execMcastDelivery c s) := by
  unfold execMcastDelivery
  dsimp only
  split
  · exact hs
  split
  · exact hs
  refine settleCast_legal _ ?_
  split
  · refine onHart_legal ?_ (fun _ h => h)
    split
    · exact onCore_legal hs fun _ h2 => h2
    split
    · exact onHart_legal (onCore_legal (onCore_legal hs fun _ h3 => h3) fun _ h4 => h4) fun _ h5 => h5
    exact storeRows_legal _ _ (onCore_legal (onCore_legal hs fun _ h6 => h6) fun _ h7 => putSides_legal _ h7)
  split
  · exact onCore_legal hs fun _ h8 => h8
  split
  · exact onHart_legal (onCore_legal (onCore_legal hs fun _ h9 => h9) fun _ h10 => h10) fun _ h11 => h11
  exact storeRows_legal _ _ (onCore_legal (onCore_legal hs fun _ h12 => h12) fun _ h13 => putSides_legal _ h13)

/-! ### Instructions in flight (R179, R181) -/

theorem performBelow_legal {s : State} (h : Nat) (c : Convoy) (e : Nat) (hs : FieldsLegal s) :
    OptionLegal FieldsLegal (performBelow s h c e) := by
  unfold performBelow
  dsimp only
  split
  · exact hs
  split
  · next he =>
      have hk := Eq.subst (motive := PerformedLegal) he (performConvoy_legal _ _ _ hs)
      exact setConvoy_legal _ _ (onHart_legal hk fun _ h2 => h2)
  · exact trivial
  · next he2 =>
      have hk2 := Eq.subst (motive := PerformedLegal) he2 (performConvoy_legal _ _ _ hs)
      exact haltConvoy_legal _ _ _ _ hk2

theorem reprobeLater_legal {s : State} (h : Nat) (c : Convoy) (hs : FieldsLegal s) :
    FieldsLegal (reprobeLater s h c) := by
  unfold reprobeLater
  dsimp only
  refine onHart_legal hs (fun x h2 => ?_)
  split
  · exact Hart.without_legal _ _ h2
  exact h2

theorem retranslate_legal {s : State} (h : Nat) (c : Convoy) (e : Nat) (hs : FieldsLegal s) :
    FieldsLegal (retranslate s h c e) := by
  unfold retranslate
  dsimp only
  split
  · next he =>
      have hk := Eq.subst (motive := ReprobedLegal) he (reprobeFrom_legal _ _ _ _ hs)
      exact setConvoy_legal _ _ hk
  · exact reprobeLater_legal _ _ hs
  · next he2 =>
      have hk2 := Eq.subst (motive := ReprobedLegal) he2 (reprobeFrom_legal _ _ _ _ hs)
      exact failReprobe_legal _ _ _ _ _ _ hk2

theorem bindFold_legal {α : Type} {f : State → α → Option State} {l : List α} {o : Option State} (ho : OptionLegal FieldsLegal o)
    (hf : ∀ s a, FieldsLegal s → OptionLegal FieldsLegal (f s a)) : OptionLegal FieldsLegal (l.foldl (fun acc p => acc.bind fun s => f s p) o) := by
  induction l generalizing o with
  | nil => exact ho
  | cons a l ih =>
    refine ih ?_
    cases o with
    | none => trivial
    | some s => exact hf s a ho
theorem performStruck_legal {s : State} (l : List (Nat × Convoy × Nat)) (hs : FieldsLegal s) :
    OptionLegal FieldsLegal (performStruck s l) :=
  bindFold_legal (f := fun s (p : Nat × Convoy × Nat) => performBelow s p.1 p.2.1 p.2.2) (o := some s) hs fun s p h => performBelow_legal _ _ _ h

theorem dropTlb_legal {s : State} (k : InvKind) (cs : List Nat) (hs : FieldsLegal s) :
    FieldsLegal (dropTlb s k cs) := by
  unfold dropTlb
  exact foldl_legal hs fun _ _ h => onCore_legal h fun _ h2 => h2

theorem invalidate_legal (w : Word) (k : InvKind) (sc : Scope) {s : State} (hs : FieldsLegal s) :
    OutLegal (invalidate w k sc s) := by
  unfold invalidate
  dsimp only
  refine irrevocably_legal hs (fun x h => ?_)
  split
  · exact raise_legal _ _ h
  split
  · exact waitOn_legal h nofun
  split
  · exact waitOn_legal h nofun
  split
  · exact waitOn_legal h nofun
  · next he =>
      have hk := Eq.subst (motive := OptionLegal _) he (performStruck_legal _ h)
      refine retire_legal ?_
      refine abortAll_legal _ ?_
      refine foldl_legal ?_ (fun x2 x3 h2 => ?_)
      · refine foldl_legal (dropTlb_legal _ _ hk) (fun x4 x5 h3 => ?_)
        split
        · exact retranslate_legal _ _ _ h3
        exact h3
      split
      · exact shortenRows_legal _ _ h2
      exact h2

/-! ### Late vector faults (R179) and TRET (R398) -/

theorem execLateVectorFault_legal (h : Nat) {s : State} (hs : FieldsLegal s) :
    OutLegal (execLateVectorFault h s) := by
  unfold execLateVectorFault
  split
  · exact hs
  show FieldsLegal _
  refine withCur_legal _ (raise_legal _ _ (withCur_legal _ ?_))
  refine onHart_legal hs fun x h => ?_
  exact h.noWait

theorem resumeConvoy_legal (now : Nat) {h : Hart} (hh : HartLegal h) :
    HartLegal (resumeConvoy now h) := by
  unfold resumeConvoy
  dsimp only
  split
  · exact hh
  exact hh

theorem leaveAside_legal {s : State} (hs : FieldsLegal s) :
    FieldsLegal (leaveAside s) := by
  unfold leaveAside
  dsimp only
  split
  · split
    · split
      · split
        · exact makeIrrev_legal _ (onMe_legal hs fun _ h => h)
        exact onMe_legal hs fun _ h2 => h2
      exact onMe_legal hs fun _ h3 => h3
    exact hs
  exact hs

theorem execTret_legal {s : State} (hs : FieldsLegal s) :
    OutLegal (execTret s) := by
  unfold execTret
  dsimp only
  refine irrevocably_legal hs (fun x h => ?_)
  split
  · exact raise_legal _ _ h
  split
  · exact raise_legal _ _ h
  split
  · exact raise_legal _ _ h
  refine leaveAside_legal ?_
  split
  · refine settleMonhart_legal _ ?_
    refine onMe_legal h (fun x2 h2 => ?_)
    refine returnHart_legal ?_
    split
    · exact resumeConvoy_legal _ h2
    exact h2
  refine onMe_legal h (fun x3 h3 => ?_)
  refine returnHart_legal ?_
  split
  · exact resumeConvoy_legal _ h3
  exact h3

/-! ### Loads and stores (R368) -/

theorem loadTo_legal (d : Reg) (va : Word) (n : Nat) (f : Nat → Word) {s : State} (hs : FieldsLegal s) :
    FieldsLegal (loadTo d va n f s) := by
  unfold loadTo
  split
  · next he =>
      have hk := Eq.subst (motive := AccLegal) he (openScalar_legal _ _ _ _ _ hs)
      exact hk
  · next he2 =>
      have hk2 := Eq.subst (motive := AccLegal) he2 (openScalar_legal _ _ _ _ _ hs)
      split
      · next he3 =>
          have hk3 := Eq.subst (motive := ExceptLegal _ _) he3 (readAny_legal _ hk2)
          exact hk3
      · next he4 =>
          have hk4 := Eq.subst (motive := ExceptLegal _ _) he4 (readAny_legal _ hk2)
          exact retireX_legal _ _ hk4

theorem storeFrom_legal (va : Word) (n : Nat) (v : Word) (w : Word) {s : State} (hs : FieldsLegal s) :
    FieldsLegal (storeFrom va n v w s) := by
  unfold storeFrom
  split
  · next he =>
      have hk := Eq.subst (motive := AccLegal) he (openScalar_legal _ _ _ _ _ hs)
      exact hk
  · next he2 =>
      have hk2 := Eq.subst (motive := AccLegal) he2 (openScalar_legal _ _ _ _ _ hs)
      split
      · next he3 =>
          have hk3 := Eq.subst (motive := ExceptLegal _ _) he3 (writeAny_legal _ _ _ hk2)
          exact hk3
      · next he4 =>
          have hk4 := Eq.subst (motive := ExceptLegal _ _) he4 (writeAny_legal _ _ _ hk2)
          exact retire_legal hk4

theorem execPref_legal (a : Reg) (off : BitVec 13) {s : State} (hs : FieldsLegal s) :
    OutLegal (execPref a off s) := by
  unfold execPref
  dsimp only
  split
  · refine retire_legal ?_
    split
    · exact prefetchLine_legal _ _ hs
    exact hs
  exact retire_legal hs

theorem execLdAq_legal (d : Reg) (a : Reg) (wd : Size) (_sc : Scope) {s : State} (hs : FieldsLegal s) :
    OutLegal (execLdAq d a wd _sc s) := by
  unfold execLdAq
  dsimp only
  split
  · exact outTrap_legal _ _ hs
  exact loadTo_legal _ _ _ _ hs

theorem execStRl_legal (a : Reg) (b : Reg) (wd : Size) (sc : Scope) {s : State} (hs : FieldsLegal s) :
    OutLegal (execStRl a b wd sc s) := by
  unfold execStRl
  dsimp only
  split
  · exact outTrap_legal _ _ hs
  exact storeFrom_legal _ _ _ _ hs

/-! ### Atomic operations (R349, R350) -/

theorem atomicOp_legal (d : Reg) (a : Reg) (dw : Bool) (f : Nat → Option Nat) {s : State} (hs : FieldsLegal s) :
    OutLegal (atomicOp d a dw f s) := by
  unfold atomicOp
  extract_lets n va
  split
  · exact outTrap_legal _ _ hs
  · have h1 := openScalar_legal true true true va n hs
    split
    · next he => rw [he] at h1; exact h1
    · next s1 ps he =>
      rw [he] at h1
      have h2 := readScalar_legal ps (s := s1) h1
      split
      · next he => rw [he] at h2; exact h2
      · next s2 bs he =>
        rw [he] at h2
        dsimp only
        split
        · refine retireX_legal _ _ ?_
          split
          · exact h2
          · exact touch_legal _ h2 fun _ _ h => storeScalarLine_legal _ _ h
        · next new _ =>
          have h3 := writeScalar_legal ps (bytesOfNat n new) (s := s2) h2
          split
          · next he => rw [he] at h3; exact h3
          · next he => rw [he] at h3; exact retireX_legal _ _ h3

theorem amoOp_legal (d : Reg) (a : Reg) (b : Reg) (dw : Bool) (f : Nat → Nat → Nat) {s : State} (hs : FieldsLegal s) :
    OutLegal (amoOp d a b dw f s) := by
  unfold amoOp
  dsimp only
  exact atomicOp_legal _ _ _ _ hs

theorem execCas_legal (d : Reg) (a : Reg) (b : Reg) (_aq : Bool) (_rl : Bool) (dw : Bool) (_sc : Scope) {s : State} (hs : FieldsLegal s) :
    OutLegal (execCas d a b _aq _rl dw _sc s) := by
  unfold execCas
  dsimp only
  exact atomicOp_legal _ _ _ _ hs

/-! ### Bit fields (R154, R372) -/

theorem execStb_legal (a : Reg) (b : Reg) (wm1 : BitVec 4) {s : State} (hs : FieldsLegal s) :
    OutLegal (execStb a b wm1 s) := by
  unfold execStb
  dsimp only
  split
  · next he =>
      have hk := Eq.subst (motive := AccLegal) he (openScalar_legal _ _ _ _ _ hs)
      exact hk
  · next he2 =>
      have hk2 := Eq.subst (motive := AccLegal) he2 (openScalar_legal _ _ _ _ _ hs)
      split
      · next he3 =>
          have hk3 := Eq.subst (motive := ExceptLegal _ _) he3 (readScalar_legal _ hk2)
          exact hk3
      · next he4 =>
          have hk4 := Eq.subst (motive := ExceptLegal _ _) he4 (readScalar_legal _ hk2)
          split
          · next he5 =>
              have hk5 := Eq.subst (motive := ExceptLegal _ _) he5 (writeScalar_legal _ _ hk4)
              exact hk5
          · next he6 =>
              have hk6 := Eq.subst (motive := ExceptLegal _ _) he6 (writeScalar_legal _ _ hk4)
              exact retire_legal hk6

/-! ### Watermarks (R200, R428) -/

theorem watchMark_legal (va : Word) (bound : Word) {s : State} (hs : FieldsLegal s) :
    FieldsLegal (watchMark va bound s) := by
  unfold watchMark
  dsimp only
  split
  · next he =>
      have hk := Eq.subst (motive := AccLegal) he (openScalar_legal _ _ _ _ _ hs)
      exact hk
  · next he2 =>
      have hk2 := Eq.subst (motive := AccLegal) he2 (openScalar_legal _ _ _ _ _ hs)
      split
      · split
        · exact retire_legal (mmioRead_legal _ hk2)
        exact waitOn_legal (mmioRead_legal _ hk2) nofun
      split
      · exact waitOn_legal hk2 nofun
      split
      · next he3 =>
          have hk3 := Eq.subst (motive := OptionLegal _) he3 (readWaits_legal _ hk2)
          exact hk3
      split
      · next he4 =>
          have hk4 := Eq.subst (motive := ExceptLegal _ _) he4 (takeBytes_legal _ hk2 hk2)
          exact hk4
      · next he5 =>
          have hk5 := Eq.subst (motive := ExceptLegal _ _) he5 (takeBytes_legal _ hk2 hk2)
          split
          · exact retire_legal hk5
          exact waitOn_legal hk5 nofun

theorem execWaitwm_legal (a : Reg) (b : Reg) (_sc : Scope) {s : State} (hs : FieldsLegal s) :
    OutLegal (execWaitwm a b _sc s) := by
  unfold execWaitwm
  refine irrevocably_legal hs (fun x h => ?_)
  split
  · exact raise_legal _ _ h
  exact watchMark_legal _ _ h

theorem execWaitwmSatisfied_legal (h : Nat) {s : State} (hs : FieldsLegal s) :
    OutLegal (execWaitwmSatisfied h s) := by
  unfold execWaitwmSatisfied
  split
  · exact watchMark_legal _ _ hs
  exact hs

/-! ### CACHEOP (R357, R358) -/

theorem cacheLine_legal {done : Nat → State → State} {s : State} (a : Reg) (hd : ∀ n s, FieldsLegal s → FieldsLegal (done n s))
    (hs : FieldsLegal s) : FieldsLegal (cacheLine a done s) := by
  refine irrevocably_legal hs fun s hs => ?_
  have h1 := translate_legal (scalarAccess s .load) (rx s a) hs
  have h2 := checkAccess_legal (scalarAccess s .load) (rx s a) 1 hs
  grind [TransResultLegal, ExceptLegal, retire_legal, badAccess_legal]

theorem dropLoops_legal {s : State} (record : Word × Word → Bool) (line : Nat → Bool) (hs : FieldsLegal s) :
    FieldsLegal (dropLoops s record line) := by
  unfold dropLoops
  refine foldl_legal hs (fun x x2 h => ?_)
  split
  · exact onHart_legal h fun _ h2 => h2
  exact h

theorem dropCode_legal {s : State} (line : Nat → Bool) (hs : FieldsLegal s) :
    FieldsLegal (dropCode s line) :=
  onCore_legal hs fun _ h => h

theorem execCacheopIl_legal (a : Reg) {s : State} (hs : FieldsLegal s) :
    OutLegal (execCacheopIl a s) := by
  unfold execCacheopIl
  dsimp only
  exact cacheLine_legal _ (fun _ _ h => dropLoops_legal _ _ (dropCode_legal _ h)) hs

theorem execCacheopIa_legal {s : State} (hs : FieldsLegal s) :
    OutLegal (execCacheopIa s) := by
  unfold execCacheopIa
  refine irrevocably_legal hs (fun x h => ?_)
  split
  · exact raise_legal _ _ h
  exact dropLoops_legal _ _ (dropCode_legal _ (retire_legal h))

theorem execCacheopWb_legal (a : Reg) {s : State} (hs : FieldsLegal s) :
    OutLegal (execCacheopWb a s) := by
  unfold execCacheopWb
  refine cacheLine_legal _ (fun x x2 h => ?_) hs
  split
  · exact cleanLine_legal _ h
  exact h

theorem execCacheopWbi_legal (a : Reg) {s : State} (hs : FieldsLegal s) :
    OutLegal (execCacheopWbi a s) := by
  unfold execCacheopWbi
  refine cacheLine_legal _ (fun x x2 h => ?_) hs
  split
  · exact purgeLine_legal _ h
  exact h

/-! ### Branches and jumps (R353) -/

theorem execJalr_legal (d : Reg) (a : Reg) (i : BitVec 16) {s : State} (hs : FieldsLegal s) :
    OutLegal (execJalr d a i s) := by
  unfold execJalr
  dsimp only
  split
  · exact outTrap_legal _ _ hs
  exact retireTo_legal _ (wx_legal _ _ hs)

/-! ### Hardware loops (R374) -/

theorem capture_legal (start : Word) (end_ : Word) {s : State} (hs : FieldsLegal s) :
    FieldsLegal (capture start end_ s) := by
  unfold capture
  split
  · split
    · exact onMe_legal hs fun _ h => h
    exact hs
  exact onMe_legal hs fun _ h2 => h2

theorem execLoop_legal (a : Reg) (i : BitVec 16) {s : State} (hs : FieldsLegal s) :
    OutLegal (execLoop a i s) := by
  unfold execLoop
  dsimp only
  split
  · exact retireTo_legal _ (onMe_legal hs fun _ h => h)
  exact capture_legal _ _ (retireTo_legal _ (onMe_legal hs fun _ h2 => h2))

theorem searchLoop_legal {s : State} (pc : Word) (a0 : Nat) (a1 : Nat) (hs : FieldsLegal s) :
    ExceptLegal (FieldsLegal ·.1) (FieldsLegal ·.1) (searchLoop s pc a0 a1) := by
  induction a0 generalizing s a1 <;> grind [searchLoop, fetchWord_legal, ExceptLegal]

theorem loopBack_legal (start : Word) {s : State} (hs : FieldsLegal s) :
    FieldsLegal (loopBack start s) := by
  unfold loopBack
  dsimp only
  split
  · exact retireTo_legal _ (onMe_legal hs fun _ h => h)
  exact capture_legal _ _ (retireTo_legal _ (onMe_legal hs fun _ h2 => h2))

theorem execLend_legal {s : State} (hs : FieldsLegal s) :
    OutLegal (execLend s) := by
  unfold execLend
  dsimp only
  split
  · exact outTrap_legal _ _ hs
  · next he =>
      split
      · exact loopBack_legal _ hs
      split
      · next he2 =>
          have hk := Eq.subst (motive := ExceptLegal _ _) he2 (searchLoop_legal _ _ _ hs)
          exact loopBack_legal _ hk
      · next he3 =>
          have hk2 := Eq.subst (motive := ExceptLegal _ _) he3 (searchLoop_legal _ _ _ hs)
          exact outTrap_legal _ _ hk2
      · next he4 =>
          have hk3 := Eq.subst (motive := ExceptLegal _ _) he4 (searchLoop_legal _ _ _ hs)
          exact badAccess_legal _ _ hk3

/-! ### SYSCALL and BREAK -/

theorem execSyscall_legal (i : BitVec 12) {s : State} (hs : FieldsLegal s) :
    OutLegal (execSyscall i s) := by
  unfold execSyscall
  dsimp only
  refine irrevocably_legal hs (fun x h => ?_)
  split
  · exact raise_legal _ _ h
  · exact raise_legal _ _ h
  exact raise_legal _ _ h

/-! ### Domains (R203 to R205) -/

theorem returnFromEnter_legal (commits : Word) {h : Hart} (hh : HartLegal h) :
    HartLegal (returnFromEnter commits h) := by
  unfold returnFromEnter
  dsimp only
  split
  · exact retireHart_legal _ (setX_legal _ _ hh)
  exact hh

theorem settleDomain_legal {s : State} (v : Nat) (d : Nat) (hs : FieldsLegal s) :
    FieldsLegal (settleDomain s v d) := by
  unfold settleDomain
  dsimp only
  split
  · refine onDomain_legal ?_
    refine foldl_legal (foldl_legal hs fun _ _ h => onHart_legal h fun _ h2 => returnFromEnter_legal _ h2) (fun x x2 h3 => ?_)
    split
    · exact onHart_legal h3 fun _ h4 => h4
    exact h3
  exact hs

theorem armExchange_legal {s : State} (v : Nat) (hs : FieldsLegal s) :
    FieldsLegal (armExchange s v) := by
  unfold armExchange
  split
  · exact hs
  exact onPart_legal hs

theorem execTdomainOpen_legal (d : Reg) (a : Reg) {s : State} (hs : FieldsLegal s) :
    OutLegal (execTdomainOpen d a s) := by
  unfold execTdomainOpen
  extract_lets w va
  split
  · exact outTrap_legal _ _ hs
  · split
    · exact outTrap_legal _ _ hs
    · have h1 := openScalar_legal true false false va 64 hs
      split
      · next he => rw [he] at h1; exact h1
      · next s1 ps he =>
        rw [he] at h1
        have h2 := readScalar_legal ps (s := s1) h1
        split
        · next he => rw [he] at h2; exact h2
        · next s2 bs he =>
          rw [he] at h2
          split
          · exact outTrap_legal _ _ h2
          · split
            · exact outTrap_legal _ _ h2
            · exact outX_legal _ _ (onMe_legal (onDomain_legal (armExchange_legal _ h2)) fun _ h => h)

theorem execTdomainEnter_legal (d : Reg) {s : State} (hs : FieldsLegal s) :
    OutLegal (execTdomainEnter d s) := by
  unfold execTdomainEnter
  dsimp only
  split
  · exact outTrap_legal _ _ hs
  split
  · exact outTrap_legal _ _ hs
  split
  · exact outX_legal _ _ hs
  exact onMe_legal hs fun _ h => h

theorem execTdomainClose_legal (d : Reg) {s : State} (hs : FieldsLegal s) :
    OutLegal (execTdomainClose d s) := by
  unfold execTdomainClose
  dsimp only
  split
  · exact outTrap_legal _ _ hs
  split
  · exact outTrap_legal _ _ hs
  split
  · exact waitOn_legal hs nofun
  split
  · next he =>
      have hk := Eq.subst (motive := AccLegal) he (openScalar_legal _ _ _ _ _ hs)
      exact hk
  · next he2 =>
      have hk2 := Eq.subst (motive := AccLegal) he2 (openScalar_legal _ _ _ _ _ hs)
      split
      · next he3 =>
          have hk3 := Eq.subst (motive := ExceptLegal _ _) he3 (writeScalar_legal _ _ hk2)
          exact hk3
      · next he4 =>
          have hk4 := Eq.subst (motive := ExceptLegal _ _) he4 (writeScalar_legal _ _ hk2)
          exact outX_legal _ _ (onDomain_legal hk4)

/-! ### TSPAWN (R206, R207, R210, R395) -/

theorem reclaimRoom_legal (n : Nat) (v : Nat) (d : Nat) (a0 : List TaskEntry) {s : State} (hs : FieldsLegal s) :
    FieldsLegal (reclaimRoom n v d a0 s) := by
  induction a0 generalizing s <;> grind [reclaimRoom, abortAll_legal]

theorem spillError_legal {s : State} (n : Nat) (v : Nat) (d : Nat) (hs : FieldsLegal s) :
    FieldsLegal (spillError s n v d) :=
  decisionRecord_legal _ _ hs

theorem spillAccess_legal {s : State} (n : Nat) (v : Nat) (d : Nat) (kind : AccKind) (i : Nat) (hs : FieldsLegal s) :
    StwLegal FieldsLegal (spillAccess s n v d kind i) := by
  exact thenStw_legal (stewardCheck_legal _ _ _ _ _ hs) fun r hr => hr

theorem spillDown_legal (n : Nat) (limit : Nat) (a0 : List TaskEntry) {s : State} (hs : FieldsLegal s) :
    FieldsLegal (spillDown n limit a0 s) := by
  induction a0 generalizing s <;> grind [spillDown, spillAccess_legal, stewardBad_legal, spillError_legal, stewardStall_legal, onTask_legal, StwLegal]

theorem addEntry_legal {s : State} (n : Nat) (e : TaskEntry) (hs : FieldsLegal s) :
    FieldsLegal (addEntry s n e) :=
  spillDown_legal _ _ _ hs

theorem roomLost_legal {s : State} {s1 : State} (n : Nat) (hs1 : FieldsLegal s1) :
    FieldsLegal (roomLost s s1 n) :=
  hs1

theorem spawnInTask_legal (e : TaskEntry) (fn : Word) (ts : Word) (w : Word) (cnt : Nat) {s : State} (hs : FieldsLegal s) :
    FieldsLegal (spawnInTask e fn ts w cnt s) := by
  unfold spawnInTask
  extract_lets n full children
  split
  · exact raise_legal _ _ hs
  split
  · exact raise_legal _ _ hs
  split
  · exact raise_legal _ _ hs
  split
  · next he => exact Eq.subst (motive := TrackedLegal) he (irrevocableIf_legal _ hs)
  · next s1 he =>
      have h1 : FieldsLegal s1 := Eq.subst (motive := TrackedLegal) he (irrevocableIf_legal _ hs)
      split
      · exact waitOn_legal h1 nofun
      extract_lets s2 new s3
      have h2 : FieldsLegal s2 := by
        unfold s2
        split
        · exact reclaimRoom_legal _ _ _ _ h1
        exact h1
      split
      · exact raise_legal _ _ h2
      split
      · exact waitOn_legal (onTask_legal (roomLost_legal _ (addEntry_legal _ _ (onTask_legal h2)))) nofun
      exact retire_legal (addEntry_legal _ _ (onTask_legal h2))

theorem spawnRoot_legal (fn : Word) (ts : Word) (w : Word) (cnt : Nat) {s : State} (hs : FieldsLegal s) :
    FieldsLegal (spawnRoot fn ts w cnt s) := by
  unfold spawnRoot
  dsimp only
  split
  · exact raise_legal _ _ hs
  split
  · exact raise_legal _ _ hs
  split
  · exact raise_legal _ _ hs
  split
  · exact raise_legal _ _ hs
  split
  · exact raise_legal _ _ hs
  split
  · exact raise_legal _ _ hs
  split
  · exact waitOn_legal hs nofun
  split
  · exact waitOn_legal (roomLost_legal _ (addEntry_legal _ _ hs)) nofun
  exact retire_legal (onMe_legal (onDomain_legal (addEntry_legal _ _ hs)) fun _ h => h)

theorem execTspawn_legal (a : Reg) (b : Reg) (n : BitVec 2) {s : State} (hs : FieldsLegal s) :
    OutLegal (execTspawn a b n s) := by
  unfold execTspawn
  dsimp only
  split
  · exact outTrap_legal _ _ hs
  split
  · exact outTrap_legal _ _ hs
  split
  · exact spawnInTask_legal _ _ _ _ _ hs
  exact spawnRoot_legal _ _ _ _ hs

/-! ### TDONE, TIRREV, TABORT (R214, R221, R393) -/

theorem finishTask_legal (e : TaskEntry) {s : State} (hs : FieldsLegal s) :
    FieldsLegal (finishTask e s) := by
  unfold finishTask
  dsimp only
  exact onMe_legal (retire_legal (onTask_legal hs)) fun _ h => idleHart_legal h

theorem execTdone_legal {s : State} (hs : FieldsLegal s) :
    OutLegal (execTdone s) := by
  unfold execTdone
  split
  · exact outTrap_legal _ _ hs
  split
  · exact finishTask_legal _ hs
  exact waitOn_legal hs nofun

theorem execTaskFinish_legal (h : Nat) {s : State} (hs : FieldsLegal s) :
    OutLegal (execTaskFinish h s) := by
  unfold execTaskFinish
  split
  · split
    · exact finishTask_legal _ hs
    exact hs
  exact hs

theorem execTirrev_legal {s : State} (hs : FieldsLegal s) :
    OutLegal (execTirrev s) := by
  unfold execTirrev
  split
  · exact outTrap_legal _ _ hs
  exact irrevocably_legal hs fun _ h => retire_legal h

theorem execTabort_legal {s : State} (hs : FieldsLegal s) :
    OutLegal (execTabort s) := by
  unfold execTabort
  split
  · exact outTrap_legal _ _ hs
  split
  · exact waitOn_legal hs nofun
  exact settleDomain_legal _ _ (discardTask_legal _ (retire_legal hs))

/-! ### Dispatch and reclaim (R212, R213) -/

theorem dispatchHart_legal (e : TaskEntry) {h : Hart} (hh : HartLegal h) :
    HartLegal (dispatchHart e h) := by
  unfold dispatchHart
  dsimp only
  split
  · exact hh
  exact hh.noWait

theorem execTaskDispatch_legal (n : Nat) {s : State} (hs : FieldsLegal s) :
    OutLegal (execTaskDispatch n s) := by
  unfold execTaskDispatch
  dsimp only
  split
  · exact hs
  split
  · exact hs
  split
  · exact onIsland_legal (onDomain_legal (onTask_legal (onHart_legal hs fun _ h => dispatchHart_legal _ h)))
  exact hs

theorem execHartReclaim_legal (v : Nat) (d : Nat) {s : State} (hs : FieldsLegal s) :
    OutLegal (execHartReclaim v d s) := by
  unfold execHartReclaim
  dsimp only
  split
  · exact hs
  split
  · exact hs
  split
  · exact onDomain_legal (abortTask_legal _ hs)
  exact hs

/-! ### Spill and refill (R210, R205) -/

theorem execTaskSpill_legal (n : Nat) {s : State} (hs : FieldsLegal s) :
    OutLegal (execTaskSpill n s) := by
  unfold execTaskSpill
  split
  · exact hs
  exact spillDown_legal _ _ _ hs

theorem execTaskRefill_legal (n : Nat) (d : Nat) {s : State} (hs : FieldsLegal s) :
    OutLegal (execTaskRefill n d s) := by
  unfold execTaskRefill
  split
  · exact hs
  split
  · exact hs
  split
  · exact hs
  split
  · next he =>
      have hk := Eq.subst (motive := StwLegal _) he (spillAccess_legal _ _ _ _ _ hs)
      exact onTask_legal hk
  · exact spillError_legal _ _ _ (stewardBad_legal _ _ hs)
  exact stewardStall_legal _ _ hs

/-! ### The frontier and commit (R219 to R221, R224) -/

theorem execFrontierExchange_legal (v : Nat) {s : State} (hs : FieldsLegal s) :
    OutLegal (execFrontierExchange v s) := by
  unfold execFrontierExchange
  dsimp only
  split
  · exact hs
  refine onPart_legal ?_
  refine foldl_legal hs (fun x x2 h => ?_)
  split
  · exact onDomain_legal h
  exact h

theorem releaseHeld_legal {s : State} (e : TaskEntry) (hs : FieldsLegal s) :
    FieldsLegal (releaseHeld s e) := by
  unfold releaseHeld
  split
  · exact hs
  split
  · exact hs
  exact makeIrrev_legal _ hs

theorem applyFrontier_legal {s : State} (v : Nat) (d : Nat) (hs : FieldsLegal s) :
    FieldsLegal (applyFrontier s v d) := by
  unfold applyFrontier
  dsimp only
  split
  · split
    · exact hs
    exact foldl_legal (onDomain_legal hs) fun _ _ h => releaseHeld_legal _ h
  exact hs

theorem execFrontierApply_legal (v : Nat) {s : State} (hs : FieldsLegal s) :
    OutLegal (execFrontierApply v s) := by
  unfold execFrontierApply
  refine foldl_legal hs (fun x x2 h => ?_)
  split
  · exact applyFrontier_legal _ _ h
  exact h

theorem execCommitBatch_legal (v : Nat) (d : Nat) {s : State} (hs : FieldsLegal s) :
    OutLegal (execCommitBatch v d s) := by
  unfold execCommitBatch
  dsimp only
  split
  · exact hs
  refine settleDomain_legal _ _ ?_
  split
  · exact onDomain_legal (foldl_legal hs fun _ _ h => commitTask_legal _ h)
  exact wakeConflicts_legal (flushPending_legal (onDomain_legal (foldl_legal hs fun _ _ h2 => commitTask_legal _ h2)))

/-! ### A hart whose task stands (R214, R223) -/

theorem trapAside_legal {s : State} {f : Hart → Hart} (h : Nat) (hs : FieldsLegal s) (hf : ∀ x, HartLegal x → HartLegal (f x)) :
    FieldsLegal (trapAside s h f) := by
  refine onHart_legal hs fun x hx => ?_
  split
  · exact hf x hx
  · exact hf x hx

/-! ### Interrupts (R248, R251, R277) -/

theorem execInterruptTake_legal (h : Nat) {s : State} (hs : FieldsLegal s) :
    OutLegal (execInterruptTake h s) := by
  unfold execInterruptTake
  dsimp only
  split
  · exact hs
  refine trapAside_legal _ hs (fun x h2 => ?_)
  refine trapHart_legal _ _ _ _ ?_
  split
  · exact retireHart_legal _ h2
  exact h2

theorem takeBoundaryTrap_legal (h : Nat) {s : State} (hs : FieldsLegal s) :
    OutLegal (takeBoundaryTrap h s) := by
  unfold takeBoundaryTrap
  dsimp only
  split
  · split
    · exact trapAside_legal _ hs fun _ h => trapHart_legal _ _ _ _ h
    · exact hs
  · exact hs

theorem execTimecmpMatch_legal (h : Nat) {s : State} (hs : FieldsLegal s) :
    OutLegal (execTimecmpMatch h s) := by
  unfold execTimecmpMatch
  split
  · exact pendIrq_legal _ _ hs
  exact hs

theorem execExternalInterrupt_legal (f : Nat) (line : BitVec 3) {s : State} (hs : FieldsLegal s) :
    OutLegal (execExternalInterrupt f line s) := by
  unfold execExternalInterrupt
  dsimp only
  split
  · exact pendIrq_legal _ _ hs
  exact hs

/-! ### Pre-emption (R31, R254) -/

theorem rollBack_legal {h : Hart} (hh : HartLegal h) :
    HartLegal (rollBack h) := by
  unfold rollBack
  exact hh.noWait

theorem stopForPreemption_legal {x : Hart} (hx : HartLegal x) :
    HartLegal (stopForPreemption x) := by
  unfold stopForPreemption
  dsimp only
  exact (leaveEnter_legal hx).noWait

theorem execPreemptionTake_legal (h : Nat) {s : State} (hs : FieldsLegal s) :
    OutLegal (execPreemptionTake h s) := by
  unfold execPreemptionTake
  dsimp only
  split
  · split
    · exact onHart_legal hs fun _ h2 => rollBack_legal h2
    split
    · exact onHart_legal hs fun _ h3 => stopForPreemption_legal h3
    exact hs
  exact hs

/-! ### Containment codes (R257) -/

theorem execMonitorCodeTake_legal {s : State} (hs : FieldsLegal s) :
    OutLegal (execMonitorCodeTake s) := by
  unfold execMonitorCodeTake
  dsimp only
  split
  · exact hs
  · split
    · exact onHart_legal hs fun _ h => trapHart_legal _ _ _ _ h
    · exact hs

/-! ### No instruction (R2, R253, R286) -/

theorem execNotAnInstruction_legal (w : Word32) (cause : Byte) {s : State} (hs : FieldsLegal s) :
    OutLegal (execNotAnInstruction w cause s) := by
  unfold execNotAnInstruction
  dsimp only
  split
  · next he =>
      split
      · next he2 =>
          have hk := Eq.subst (motive := ExceptLegal _ _) he2 (fetchInstr_legal _ _ hs)
          exact badAccess_legal _ _ hk
      · next he3 =>
          have hk2 := Eq.subst (motive := ExceptLegal _ _) he3 (fetchInstr_legal _ _ hs)
          split
          · exact enterConvoy_legal _ _ _ hk2
          exact outTrap_legal _ _ hs
  exact outTrap_legal _ _ hs

theorem execInstructionFetchFault_legal (cause : Byte) (addr : Word) {s : State} (hs : FieldsLegal s) :
    OutLegal (execInstructionFetchFault cause addr s) :=
  badAccess_legal _ _ hs

/-! ### Errors (R255, R257, R258) -/

theorem openNat_legal {s : State} (hs : FieldsLegal s) :
    FieldsLegal (openNat s).1 :=
  hs

theorem functionEvent_legal {s : State} (v : Nat) (r : ErrRec) (hs : FieldsLegal s) :
    FieldsLegal (functionEvent s v r) :=
  raiseCode_legal _ (errorRecord_legal _ _ _ hs)

theorem moduleEvent_legal {s : State} (vs : List Nat) (r : Nat → ErrRec) (code : Byte) (hs : FieldsLegal s) :
    FieldsLegal (moduleEvent s vs r code) := by
  unfold moduleEvent
  exact raiseCode_legal _ (foldl_legal hs fun _ _ h => errorRecord_legal _ _ _ h)

theorem execMeshWriteLost_legal (h : Nat) (engine : Bool) {s : State} (hs : FieldsLegal s) :
    OutLegal (execMeshWriteLost h engine s) := by
  unfold execMeshWriteLost
  dsimp only
  split
  · exact raiseCode_legal _ (errorRecord_legal _ _ _ (onEngine_legal _ _ hs))
  refine raiseCode_legal _ ?_
  refine errorRecord_legal _ _ _ ?_
  split
  · exact hs
  exact onHart_legal hs fun _ h2 => h2

theorem execDirectoryError_legal (pa : Nat) {s : State} (hs : FieldsLegal s) :
    OutLegal (execDirectoryError pa s) := by
  unfold execDirectoryError
  dsimp only
  split
  · exact raiseCode_legal _ (errorRecord_legal _ _ _ hs)
  exact hs

theorem execTaskUnitError_legal (f : Nat) (dom : Nat) {s : State} (hs : FieldsLegal s) :
    OutLegal (execTaskUnitError f dom s) := by
  unfold execTaskUnitError
  dsimp only
  split
  · exact functionEvent_legal _ _ (onDomain_legal hs)
  exact hs

theorem execCorrectedError_legal (f : Nat) {s : State} (hs : FieldsLegal s) :
    OutLegal (execCorrectedError f s) := by
  unfold execCorrectedError
  dsimp only
  split
  · exact functionEvent_legal _ _ (onPart_legal hs)
  exact onPart_legal hs

/-! ### Links and stacks (R258, R269, R270, R272) -/

theorem execLinkDown_legal (l : Link) {s : State} (hs : FieldsLegal s) :
    OutLegal (execLinkDown l s) := by
  cases l <;> exact moduleEvent_legal _ _ _ hs

theorem execLinkTrained_legal (l : Link) {s : State} (hs : FieldsLegal s) :
    OutLegal (execLinkTrained l s) := by
  cases l with
  | cxl => exact hs
  | peer m =>
    unfold execLinkTrained
    dsimp only
    split <;> exact hs

theorem stopClock_legal {s : State} (code : Byte) (hs : FieldsLegal s) :
    FieldsLegal (stopClock s code) := by
  have h1 := moduleEvent_legal [0, 1, 2, 3] (fun v => { code := code, master := 9, place := v }) code hs
  grind [stopClock, fieldsLegal_iff]

/-! ### Function-level reset after its request (R263) -/

theorem execFlrDrainDone_legal (f : Nat) {s : State} (hs : FieldsLegal s) :
    OutLegal (execFlrDrainDone f s) := by
  unfold execFlrDrainDone
  split
  · exact onPart_legal hs
  exact hs

theorem execFlrDrainTimeout_legal (f : Nat) {s : State} (hs : FieldsLegal s) :
    OutLegal (execFlrDrainTimeout f s) := by
  unfold execFlrDrainTimeout
  split
  · exact functionEvent_legal _ _ (onPart_legal hs)
  exact hs

theorem scrubHart_legal {h : Hart} (hh : HartLegal h) :
    HartLegal (scrubHart h) := by
  grind [scrubHart, keepSlot_legal, HartLegal]

theorem scrubCore_legal (now : Nat) {c : Core} :
    CoreLegal (scrubCore now c) := by
  grind [scrubCore, CoreLegal]

theorem clearWindows_legal {s : State} (cs : List Nat) (hs : FieldsLegal s) :
    FieldsLegal (clearWindows s cs) :=
  hs

theorem domainRecord_legal {s : State} (v : Nat) (d : Nat) (hs : FieldsLegal s) :
    FieldsLegal (domainRecord s v d) :=
  errorRecord_legal _ _ _ hs

theorem emptyDomains_legal {s : State} (v : Nat) (hs : FieldsLegal s) :
    FieldsLegal (emptyDomains s v) := by
  grind [emptyDomains, domainRecord_legal, settleDomain_legal, flushPending_legal, wakeConflicts_legal, onPart_legal, foldl_legal, fieldsLegal_iff]

theorem execFlrScrubDone_legal (f : Nat) {s : State} (hs : FieldsLegal s) :
    OutLegal (execFlrScrubDone f s) := by
  grind [execFlrScrubDone, onHarts_legal, emptyDomains_legal, scrubHart_legal, onCores_legal, scrubCore_legal, onIsland_legal, onPart_legal, clearWindows_legal, flushCore_legal, foldl_legal, OutLegal, HartLegal, CoreLegal, fieldsLegal_iff]

theorem resetQueues_legal {s : State} (n : Nat) (hs : FieldsLegal s) :
    FieldsLegal (resetQueues s n) := by
  unfold resetQueues
  dsimp only
  exact onCores_legal _ (onIsland_legal (foldl_legal (foldl_legal hs fun _ _ h => endGang_legal _ _ _ h) fun _ _ h2 => decisionRecord_legal _ _ h2)) fun _ h3 => h3

theorem restartSteward_legal {s : State} (n : Nat) (h : Nat) (hs : FieldsLegal s) :
    FieldsLegal (restartSteward s n h) := by
  unfold restartSteward
  dsimp only
  split
  · exact hs
  exact onHart_legal hs fun _ h2 => h2

theorem unfreezeHart_legal {h : Hart} (hh : HartLegal h) :
    HartLegal (unfreezeHart h) :=
  hh

theorem execFlrQueuesDone_legal (f : Nat) {s : State} (hs : FieldsLegal s) :
    OutLegal (execFlrQueuesDone f s) := by
  grind [execFlrQueuesDone, resetQueues_legal, onHarts_legal, unfreezeHart_legal, onCores_legal, restartSteward_legal, functionEvent_legal, onPart_legal, foldl_legal, OutLegal, HartLegal, CoreLegal, fieldsLegal_iff]

/-! ### Power-on and images (R36, R273 to R275) -/

theorem resetFields_legal : FieldsLegal State.reset := by
  have hharts : HartsLegal [(bootHart, Hart.boot)] := by
    intro h
    rw [tabGet]
    split
    · exact ⟨by decide, by decide, by decide, nofun⟩
    · exact defaultHart_legal
  have htags : TagsLegal State.reset.tags := by unfold TagsLegal; decide
  exact ⟨hharts, fun _ => defaultCore_legal, htags⟩
theorem execPowerOnReset_legal (s : State) : OutLegal (execPowerOnReset s) := resetFields_legal

theorem acceptImage_legal {s : State} (version : Word32) (security : Word32) (hs : FieldsLegal s) :
    FieldsLegal (acceptImage s version security) :=
  hs

theorem streamedImage_legal {s : State} (signer : Signer) (version : Word32) (security : Word32) (hs : FieldsLegal s) :
    FieldsLegal (streamedImage s signer version security) := by
  unfold streamedImage
  split
  · exact acceptImage_legal version security hs
  · exact hs

theorem execImageVerifyDone_legal (signer : Signer) (version : Word32) (security : Word32) {s : State} (hs : FieldsLegal s) :
    OutLegal (execImageVerifyDone signer version security s) := by
  unfold execImageVerifyDone
  dsimp only
  split
  · repeat' split
    all_goals exact hs
  split
  · exact streamedImage_legal _ _ _ hs
  exact hs

/-! ### Requests from outside (R255, R265, R268 to R270) -/

theorem freezeTraffic_legal {s : State} (f : Nat) (pa : Nat) (hs : FieldsLegal s) :
    FieldsLegal (freezeTraffic s f pa) :=
  functionEvent_legal _ _ hs

theorem readPoison_legal {s : State} (f : Nat) (isl : Nat) (master : Nat) (place : Nat) (p : Nat × Nat) (hs : FieldsLegal s) :
    FieldsLegal (readPoison s f isl master place p) :=
  errorRecord_legal _ _ _ hs

theorem hostRegister_legal {s : State} (f : Nat) (r : ExtReq) (hs : FieldsLegal s) :
    FieldsLegal (hostRegister s f r) := by
  unfold hostRegister
  split
  · exact freezeTraffic_legal _ _ hs
  · split
    · exact registerStore_legal _ _ _ hs
    · exact hs
  · split
    · exact mmioRead_legal _ hs
    · exact hs

theorem execHostRequest_legal (f : Nat) (r : ExtReq) {s : State} (hs : FieldsLegal s) :
    OutLegal (execHostRequest f r s) := by
  unfold execHostRequest
  split
  split
  · exact hs
  · split
    · exact hostRegister_legal _ _ hs
    · split
      · split
        · exact agentStore_legal _ _ _ _ _ _ hs
        · cases poisonAt s _ _ with
          | none => exact touch_legal (f := (shareLine · .gateway ·)) _ hs fun _ l h => shareLine_legal _ l h
          | some p => exact readPoison_legal _ _ _ _ _ hs
      · exact freezeTraffic_legal _ _ hs

theorem execPeerModuleRequest_legal (m : Nat) (r : ExtReq) {s : State} (hs : FieldsLegal s) :
    OutLegal (execPeerModuleRequest m r s) := by
  unfold execPeerModuleRequest
  dsimp only
  split
  · split
    · exact agentStore_legal _ _ _ _ _ _ hs
    split
    · exact readPoison_legal _ _ _ _ _ hs
    · exact hs
    exact touch_legal _ hs fun _ _ h => shareLine_legal _ _ h
  exact hs

/-! ### The network engine (R271) -/

theorem runEntry_legal {go : NetEntry → State → State × Nat} {s : State} (f op : Nat) (ans : NetAnswer)
    (hgo : ∀ e s, FieldsLegal s → FieldsLegal (go e s).1) (hs : FieldsLegal s) : FieldsLegal (runEntry f op ans go s) := by
  have h1 := fun isl a b p => readPoison_legal (s := s) f isl a b p hs
  have h2 := fun e => hgo e s hs
  grind [runEntry, onPart_legal]

theorem execNetworkStore_legal (f : Nat) (ans : NetAnswer) {s : State} (hs : FieldsLegal s) :
    OutLegal (execNetworkStore f ans s) := by
  unfold execNetworkStore
  refine runEntry_legal _ _ _ (fun x x2 h => ?_) hs
  split
  · exact h
  · exact h
  exact openNat_legal h

theorem execNetworkRetrieve_legal (f : Nat) (ans : NetAnswer) (value : List Byte) {s : State} (hs : FieldsLegal s) :
    OutLegal (execNetworkRetrieve f ans value s) := by
  unfold execNetworkRetrieve
  refine runEntry_legal _ _ _ (fun x x2 h => ?_) hs
  split
  · exact agentStore_legal _ _ _ _ _ _ h
  · exact h
  exact agentStore_legal _ _ _ _ _ _ h

theorem execNetworkDelete_legal (f : Nat) (ans : NetAnswer) {s : State} (hs : FieldsLegal s) :
    OutLegal (execNetworkDelete f ans s) := by
  unfold execNetworkDelete
  exact runEntry_legal _ _ _ (fun _ _ h => h) hs

theorem execNetworkExist_legal (f : Nat) (ans : NetAnswer) {s : State} (hs : FieldsLegal s) :
    OutLegal (execNetworkExist f ans s) := by
  unfold execNetworkExist
  exact runEntry_legal _ _ _ (fun _ _ h => h) hs

theorem execNetworkCompletion_legal (f : Nat) {s : State} (hs : FieldsLegal s) :
    OutLegal (execNetworkCompletion f s) := by
  unfold execNetworkCompletion
  dsimp only
  split
  · exact hs
  refine onPart_legal ?_
  split
  · exact agentStore_legal _ _ _ _ _ _ hs
  exact hs

/-! ### The election (R276) -/

theorem execHelloSend_legal {s : State} (hs : FieldsLegal s) :
    OutLegal (execHelloSend s) := by
  unfold execHelloSend
  split
  · exact hs
  exact hs

theorem execHelloReceive_legal (serial : Word) (term : Nat) (claims : Bool) {s : State} (hs : FieldsLegal s) :
    OutLegal (execHelloReceive serial term claims s) := by
  unfold execHelloReceive
  dsimp only
  split
  · exact hs
  repeat' split
  all_goals exact hs

theorem execElectionTimeout_legal {s : State} (hs : FieldsLegal s) :
    OutLegal (execElectionTimeout s) := by
  unfold execElectionTimeout
  split
  · split <;> exact hs
  exact hs

theorem execLeaderSilenceTimeout_legal {s : State} (hs : FieldsLegal s) :
    OutLegal (execLeaderSilenceTimeout s) := by
  unfold execLeaderSilenceTimeout
  split
  · repeat' split
    all_goals exact hs
  exact hs

theorem execImageBlockReceive_legal {s : State} (hs : FieldsLegal s) :
    OutLegal (execImageBlockReceive s) := by
  unfold execImageBlockReceive
  split
  · exact hs
  exact hs

theorem execImageBlockTimeout_legal {s : State} (hs : FieldsLegal s) :
    OutLegal (execImageBlockTimeout s) := by
  unfold execImageBlockTimeout
  split
  · exact hs
  exact hs

/-! ### The scalar floating-point instructions -/

theorem fpGuard_legal {s : State} {k : Out} (i : Instr) (rounds : Bool) (hs : FieldsLegal s) (hk : OutLegal k) :
    OutLegal (fpGuard i rounds s k) := by
  unfold fpGuard
  split
  · exact raise_legal _ _ hs
  · split
    · exact raise_legal _ _ hs
    · exact hk

theorem outF_legal (t : Ty) (d : Reg) (r : FRes) {s : State} (hs : FieldsLegal s) :
    OutLegal (outF t d r s) := by
  unfold outF
  exact retire_legal (raiseFlags_legal _ (wf_legal _ _ hs))

theorem outXF_legal (d : Reg) (v : Word) (fl : BitVec 6) {s : State} (hs : FieldsLegal s) :
    OutLegal (outXF d v fl s) := by
  unfold outXF
  exact retire_legal (raiseFlags_legal _ (wx_legal _ _ hs))

theorem fpBinary_legal (i : Instr) (d : Reg) (a : Reg) (b : Reg) (t : Ty) (f : Fmt → BitVec 3 → Nat → Nat → FRes) {s : State} (hs : FieldsLegal s) :
    OutLegal (fpBinary i d a b t f s) := by
  unfold fpBinary
  exact fpGuard_legal _ _ hs (outF_legal _ _ _ hs)

theorem fpSelect_legal (i : Instr) (isMax : Bool) (d : Reg) (a : Reg) (b : Reg) (t : Ty) {s : State} (hs : FieldsLegal s) :
    OutLegal (fpSelect i isMax d a b t s) := by
  unfold fpSelect
  exact fpGuard_legal _ _ hs (outF_legal _ _ _ hs)

theorem fpCompare_legal (i : Instr) (c : FCond) (d : Reg) (a : Reg) (b : Reg) (t : Ty) {s : State} (hs : FieldsLegal s) :
    OutLegal (fpCompare i c d a b t s) := by
  unfold fpCompare
  dsimp only
  exact fpGuard_legal _ _ hs (outXF_legal _ _ _ hs)

theorem fpSign_legal (i : Instr) (d : Reg) (a : Reg) (b : Reg) (t : Ty) (f : Bool → Bool → Bool) {s : State} (hs : FieldsLegal s) :
    OutLegal (fpSign i d a b t f s) := by
  unfold fpSign
  dsimp only
  exact fpGuard_legal _ _ hs (outF_legal _ _ _ hs)

theorem fpMulAdd_legal (i : Instr) (form : FmaForm) (d : Reg) (a : Reg) (b : Reg) (c : Reg) (t : Ty) {s : State} (hs : FieldsLegal s) :
    OutLegal (fpMulAdd i form d a b c t s) := by
  unfold fpMulAdd
  exact fpGuard_legal _ _ hs (outF_legal _ _ _ hs)

theorem execFsqrt_legal (d : Reg) (a : Reg) (t : Ty) {s : State} (hs : FieldsLegal s) :
    OutLegal (execFsqrt d a t s) := by
  unfold execFsqrt
  exact fpGuard_legal _ _ hs (outF_legal _ _ _ hs)

theorem execFclass_legal (d : Reg) (a : Reg) (t : Ty) {s : State} (hs : FieldsLegal s) :
    OutLegal (execFclass d a t s) := by
  unfold execFclass
  exact fpGuard_legal _ _ hs (outX_legal _ _ hs)

theorem execFmovxToX_legal (d : Reg) (a : Reg) {s : State} (hs : FieldsLegal s) :
    OutLegal (execFmovxToX d a s) := by
  unfold execFmovxToX
  exact fpGuard_legal _ _ hs (outX_legal _ _ hs)

theorem execFmovxToF_legal (d : Reg) (a : Reg) {s : State} (hs : FieldsLegal s) :
    OutLegal (execFmovxToF d a s) := by
  unfold execFmovxToF
  exact fpGuard_legal _ _ hs (retire_legal (wf_legal _ _ hs))

theorem execFcvtToFloat_legal (d : Reg) (a : Reg) (dst : Ty) (src : Ty) {s : State} (hs : FieldsLegal s) :
    OutLegal (execFcvtToFloat d a dst src s) := by
  unfold execFcvtToFloat
  dsimp only
  refine fpGuard_legal _ _ hs ?_
  refine outF_legal _ _ _ ?_
  split
  · exact onMe_legal hs fun _ h => h
  exact hs

theorem execFcvtToInteger_legal (d : Reg) (a : Reg) (dst : Ty) (src : Ty) {s : State} (hs : FieldsLegal s) :
    OutLegal (execFcvtToInteger d a dst src s) := by
  unfold execFcvtToInteger
  dsimp only
  exact fpGuard_legal _ _ hs (outXF_legal _ _ _ hs)

/-! ### The operations -/

theorem regOp_legal (d : Reg) (a : Reg) (b : Reg) (f : Word → Word → Word) {s : State} (hs : FieldsLegal s) :
    OutLegal (regOp d a b f s) :=
  outX_legal _ _ hs

theorem immOp_legal (d : Reg) (a : Reg) (i : Word) (f : Word → Word → Word) {s : State} (hs : FieldsLegal s) :
    OutLegal (immOp d a i f s) :=
  outX_legal _ _ hs

/-! ### SETVL and the grant of lane groups -/

theorem redeclare_legal (g : BitVec 4) (regs : BitVec 2) {h : Hart} (hh : HartLegal h) :
    HartLegal (redeclare g regs h) := by
  unfold redeclare
  dsimp only
  split
  · exact hh
  split <;> exact hh

theorem declare_legal (d : Reg) (avl : Word) (regs : BitVec 2) (ew : Size) (g : BitVec 4) {h : Hart} (hh : HartLegal h) :
    HartLegal (declare d avl regs ew g h) :=
  setX_legal _ _ (redeclare_legal _ _ hh)

theorem execSetvl_legal (d : Reg) (a : Reg) (regs : BitVec 2) (ew : Size) {s : State} (hs : FieldsLegal s) :
    OutLegal (execSetvl d a regs ew s) := by
  unfold execSetvl
  dsimp only
  split
  · exact raise_legal _ _ (onMe_legal hs fun _ h => releaseGroups_legal h)
  split
  · exact outTrap_legal _ _ hs
  split
  · exact outTrap_legal _ _ hs
  split
  · exact retire_legal (onMe_legal hs fun _ h2 => declare_legal _ _ _ _ _ h2)
  exact waitOn_legal hs nofun

theorem execLaneGrant_legal (h : Nat) {s : State} (hs : FieldsLegal s) :
    OutLegal (execLaneGrant h s) := by
  unfold execLaneGrant
  split
  · split
    · exact onHart_legal hs fun _ h2 => retireHart_legal _ (declare_legal _ _ _ _ _ h2)
    exact hs
  exact hs

/-! ### Events that are due -/

theorem pendingDue_legal {s : State} (hs : FieldsLegal s) :
    OptionLegal FieldsLegal (pendingDue s) := by
  unfold pendingDue
  dsimp only
  split
  · exact trivial
  split
  · exact trivial
  exact flushPending_legal hs

/-! ### A debug freeze (R279) -/

theorem shiftHart_legal {h : Hart} (hh : HartLegal h) :
    HartLegal (shiftHart h) :=
  hh

theorem shiftCore_legal {k : Core} (hk : CoreLegal k) :
    CoreLegal (shiftCore k) :=
  hk

theorem shiftFrozen_legal {s : State} (hs : FieldsLegal s) :
    FieldsLegal (shiftFrozen s) := by
  unfold shiftFrozen
  split
  · exact hs
  · extract_lets frozen
    have hkeyed {α : Type} (f : α → α) (b : Nat → Bool) (p : Nat × α) :
        (if b p.1 = true then (p.1, f p.2) else p) = (p.1, if b p.1 = true then f p.2 else p.2) := by split <;> rfl
    have hhart (n : Nat) (x : Hart) (hx : HartLegal x) :
        HartLegal (if frozen (islandOf n) = true then shiftHart x else x) := by
      split
      · exact shiftHart_legal hx
      · exact hx
    have hcore (n : Nat) (x : Core) (hx : CoreLegal x) :
        CoreLegal (if frozen (islandOfCore n) = true then shiftCore x else x) := by
      split
      · exact shiftCore_legal hx
      · exact hx
    refine (fieldsLegal_iff _).2 ⟨?_, ?_, hs.2.2⟩
    · have h1 := HartsLegal.map (f := fun n x => if frozen (islandOf n) = true then shiftHart x else x) hs.1 hhart
      simpa only [← hkeyed shiftHart fun n => frozen (islandOf n)] using h1
    · have h1 := CoresLegal.map (f := fun n x => if frozen (islandOfCore n) = true then shiftCore x else x) hs.2.1 hcore
      simpa only [← hkeyed shiftCore fun n => frozen (islandOfCore n)] using h1

/-! ### The end of a cycle -/

theorem nextCycle_legal {s : State} (hs : FieldsLegal s) :
    FieldsLegal (nextCycle s) := by
  unfold nextCycle
  dsimp only
  exact shiftFrozen_legal (traceFlush_legal (traceFlights_legal hs))

/-! ### One step of the machine -/

theorem State.withFetchWord_legal {s : State} (nbits : Nat) (w : Nat) (hs : FieldsLegal s) :
    FieldsLegal (State.withFetchWord s nbits w) := by
  unfold State.withFetchWord
  extract_lets pc held s0 s1
  have h0 : FieldsLegal s0 := by
    unfold s0
    split
    · exact hs
    exact onHart_legal hs fun _ h => h
  have h1 : FieldsLegal s1 := by
    unfold s1
    split
    · exact onCore_legal h0 fun _ h => h
    exact h0
  exact h1

/-! ### Events -/

/-- An event keeps the fields legal. -/
def EventLegal (e : Event) : Prop := ∀ s, FieldsLegal s → OutLegal (e s)
/-- Every event of a list keeps the fields legal. -/
def EventsLegal (l : List Event) : Prop := ∀ e ∈ l, EventLegal e

theorem EventsLegal.nil : EventsLegal [] := nofun
theorem EventsLegal.single {e : Event} (h : EventLegal e) : EventsLegal [e] := List.forall_mem_singleton.2 h
theorem EventsLegal.append {l m : List Event} (hl : EventsLegal l) (hm : EventsLegal m) : EventsLegal (l ++ m) :=
  List.forall_mem_append.2 ⟨hl, hm⟩
theorem EventsLegal.flatMap {α : Type} {f : α → List Event} (l : List α) (h : ∀ a, EventsLegal (f a)) : EventsLegal (l.flatMap f) := by
  intro e he
  obtain ⟨a, -, ha⟩ := List.mem_flatMap.1 he
  exact h a e ha
theorem EventsLegal.map {α : Type} {f : α → Event} (l : List α) (h : ∀ a, EventLegal (f a)) : EventsLegal (l.map f) := by
  intro e he
  obtain ⟨a, -, rfl⟩ := List.mem_map.1 he
  exact h a
theorem EventsLegal.ite {c : Prop} [Decidable c] {l m : List Event} (hl : EventsLegal l) (hm : EventsLegal m) :
    EventsLegal (if c then l else m) := by
  split
  · exact hl
  · exact hm
theorem dueIf_legal (c : Bool) {e : Event} (h : EventLegal e) : EventsLegal (dueIf c e) := .ite (.single h) .nil

theorem queueEvents_legal (s : State) (h : Nat) (x : Hart) : EventsLegal (queueEvents s h x) := by
  refine .ite .nil (.append (.append (.append (dueIf_legal _ ?_) ?_) ?_) ?_)
  · intro s hs
    split
    · exact execWatermarkStore_legal h hs
    · exact execConvoyDrain_legal h hs
  · exact dueIf_legal _ fun _ => execScalarDestinationWrite_legal h
  · exact dueIf_legal _ fun _ => execMatrixExecute_legal h
  · exact dueIf_legal _ fun _ => execConvoyIssue_legal h

theorem coreEvents_legal (s : State) (c : Nat) (k : Core) : EventsLegal (coreEvents s c k) :=
  .ite .nil (.append (.append
    (dueIf_legal _ fun _ => execMcastDelivery_legal c) (dueIf_legal _ fun _ => execStreamCommandEnd_legal c))
    (dueIf_legal _ fun _ => execStreamCommandStart_legal c))

theorem partEvents_legal (s : State) (v : Nat) (p : Part) : EventsLegal (partEvents s v p) := by
  refine .append (.append (.append (.append (.append (.append (.append (.append ?_ ?_) ?_) ?_) ?_) ?_) ?_) ?_) ?_
  · exact .flatMap _ fun d => .append (dueIf_legal _ fun _ => execCommitBatch_legal v d.1)
      (dueIf_legal _ fun _ => execHartReclaim_legal v d.1)
  · exact dueIf_legal _ fun _ => execFrontierApply_legal v
  · exact dueIf_legal _ fun _ => execFrontierExchange_legal v
  · exact dueIf_legal _ fun s hs => runEntry_legal (go := fun _ s => (s, 0)) v 0 .done (fun _ _ h => h) hs
  · exact dueIf_legal _ fun _ => execNetworkCompletion_legal v
  · exact dueIf_legal _ fun _ => execFlrDrainDone_legal v
  · exact dueIf_legal _ fun _ => execFlrDrainTimeout_legal v
  · exact dueIf_legal _ fun _ => execFlrScrubDone_legal v
  · exact dueIf_legal _ fun _ => execFlrQueuesDone_legal v

theorem taskEvents_legal (s : State) : EventsLegal (taskEvents s) := by
  refine .ite .nil (.append (.flatMap _ fun n => ?_) (.flatMap _ fun e => .map _ fun n _ => execTaskRefill_legal n e.dom))
  exact List.forall_mem_cons.2 ⟨fun _ => execTaskDispatch_legal n, EventsLegal.single fun _ => execTaskSpill_legal n⟩

theorem waitEvent_legal (h : Nat) (x : Hart) : EventsLegal (waitEvent h x) := by
  unfold waitEvent
  generalize x.wait = w
  cases w with
  | none => exact .nil
  | some w =>
    cases w with
    | engineRoom _ _ _ => exact .single fun _ => kickRoom_legal h
    | swait _ => exact .single fun _ => execSwaitCheck_legal h
    | send _ _ _ _ => exact .single fun _ => execSendDeposit_legal h
    | recv _ _ _ _ _ => exact .single fun _ => execRecvTake_legal h
    | gbar _ => exact .single fun _ => execGbarRelease_legal _ _
    | idle => exact .single fun _ => execIdleWake_legal h
    | waitt _ => exact .single fun _ => execWaittExpire_legal h
    | waitwm _ _ => exact .single fun _ => execWaitwmSatisfied_legal h
    | fence _ => exact .single fun _ => execFenceComplete_legal h
    | mwait => exact .single fun _ => execMwaitComplete_legal h
    | lane _ _ _ _ _ => exact .single fun _ => execLaneGrant_legal h
    | localsplit _ _ => exact .single fun _ => execLocalsplitResize_legal h
    | tdone => exact .single fun _ => execTaskFinish_legal h
    | migration _ _ _ => exact .single fun _ => execMigrationRecheck_legal h
    | _ => exact .nil

theorem islandEvents_legal (n : Nat) (i : Island) : EventsLegal (islandEvents n i) :=
  .append (.append (.append (.append
    (dueIf_legal _ fun _ => flushCompletion_legal n) (.map _ fun q _ => execPacketParse_legal n q.1))
    (.map _ fun q _ => closeSlot_legal n q.1)) (.map _ fun g _ => retryPlacement_legal n g.1))
    (.map _ fun g _ => execGangPreemptSave_legal n g.1)

theorem stewardEvents_legal (s : State) : EventsLegal (stewardEvents s) :=
  .append (.flatMap _ fun n => dueIf_legal _ fun _ => execRoundBoundary_legal n [] [] [])
    (.flatMap _ fun p => .ite (islandEvents_legal p.1 p.2) .nil)

theorem moduleEvents_legal (s : State) : EventsLegal (moduleEvents s) :=
  .append (.append (.append (.append
    (dueIf_legal _ fun _ => execMonitorCodeTake_legal) (dueIf_legal _ fun _ => execHelloSend_legal))
    (dueIf_legal _ fun _ => execElectionTimeout_legal)) (dueIf_legal _ fun _ => execLeaderSilenceTimeout_legal))
    (dueIf_legal _ fun _ => execImageBlockTimeout_legal)

theorem boundaryEvents_legal (s : State) (h : Nat) (x : Hart) : EventsLegal (boundaryEvents s h x) :=
  .append (.append (.append (.append (.append
    (dueIf_legal _ fun _ => execTimecmpMatch_legal h) (dueIf_legal _ fun _ => execLateVectorFault_legal h))
    (dueIf_legal _ fun _ => execPreemptionTake_legal h)) (dueIf_legal _ fun _ => execHartStop_legal h))
    (dueIf_legal _ fun _ => execInterruptTake_legal h)) (dueIf_legal _ fun _ => takeBoundaryTrap_legal h)

/-! ### What is due -/

theorem findSome?_legal {α : Type} {f : α → Option State} (l : List α) (h : ∀ a ∈ l, OptionLegal FieldsLegal (f a)) :
    OptionLegal FieldsLegal (l.findSome? f) := by
  cases hf : l.findSome? f with
  | none => trivial
  | some t =>
    obtain ⟨a, ha, he⟩ := List.exists_of_findSome?_eq_some hf
    have ht := h a ha
    rw [he] at ht
    exact ht

theorem or_legal {x y : Option State} (hx : OptionLegal FieldsLegal x) (hy : OptionLegal FieldsLegal y) :
    OptionLegal FieldsLegal (x.or y) := by
  cases x with
  | none => exact hy
  | some s => exact hx

theorem takesEffect_legal {s : State} {e : Event} (hs : FieldsLegal s) (he : EventLegal e) :
    OptionLegal FieldsLegal (takesEffect s e) := by
  have ht := he s hs
  unfold takesEffect
  split
  · next heq =>
    rw [heq] at ht
    split
    · trivial
    · exact ht
  · trivial

theorem endsWait_legal {s : State} (h : Nat) {e : Event} (hs : FieldsLegal s) (he : EventLegal e) :
    OptionLegal FieldsLegal (endsWait s h e) := by
  have ht := he s hs
  unfold endsWait
  split
  · next heq =>
    rw [heq] at ht
    split
    · trivial
    · exact ht
  · trivial

theorem firstEffect_legal {s : State} {l : List Event} (hs : FieldsLegal s) (hl : EventsLegal l) :
    OptionLegal FieldsLegal (l.findSome? (takesEffect s)) := findSome?_legal l fun e he => takesEffect_legal hs (hl e he)

theorem waitEnds_legal {s : State} (hs : FieldsLegal s) : OptionLegal FieldsLegal (waitEnds s) := by
  refine findSome?_legal _ fun p _ => ?_
  split
  · trivial
  · split
    · exact onHart_legal hs fun _ hx => hx.noWait
    · exact findSome?_legal _ fun e he => endsWait_legal p.1 hs (waitEvent_legal p.1 p.2 e he)

theorem nextInternal_legal {s : State} (hs : FieldsLegal s) : OptionLegal FieldsLegal (nextInternal s) :=
  or_legal (pendingDue_legal hs) <|
  or_legal (findSome?_legal _ fun p _ => firstEffect_legal hs (queueEvents_legal s p.1 p.2)) <|
  or_legal (findSome?_legal _ fun p _ => firstEffect_legal hs (coreEvents_legal s p.1 p.2)) <|
  or_legal (findSome?_legal _ fun p _ => firstEffect_legal hs (partEvents_legal s p.1 p.2)) <|
  or_legal (firstEffect_legal hs (taskEvents_legal s)) <|
  or_legal (waitEnds_legal hs) <|
  or_legal (firstEffect_legal hs (stewardEvents_legal s)) <|
  or_legal (firstEffect_legal hs (moduleEvents_legal s)) <|
  findSome?_legal _ fun p _ => firstEffect_legal hs (boundaryEvents_legal s p.1 p.2)

theorem lateIssue_legal {s : State} (hs : FieldsLegal s) : OptionLegal FieldsLegal (lateIssue s) := by
  refine findSome?_legal _ fun p _ => ?_
  split
  · trivial
  · exact takesEffect_legal hs fun _ => execConvoyIssue_legal p.1

/-! ### Instructions and steps -/

theorem exec_legal (i : Instr) {s : State} (hs : FieldsLegal s) : OutLegal (exec i s) := by
  cases i with
  | addImm | andImm | orImm | xorImm | minuImm | maxuImm => exact immOp_legal _ _ _ _ hs
  | sltImm d a imm => exact (immOp_legal _ _ _ _ hs : OutLegal (execSltImm d a imm s))
  | sltuImm d a imm => exact (immOp_legal _ _ _ _ hs : OutLegal (execSltuImm d a imm s))
  | shlImm d a imm => exact (immOp_legal _ _ _ _ hs : OutLegal (execShlImm d a imm s))
  | shrImm d a imm => exact (immOp_legal _ _ _ _ hs : OutLegal (execShrImm d a imm s))
  | sarImm d a imm => exact (immOp_legal _ _ _ _ hs : OutLegal (execSarImm d a imm s))
  | rolImm d a imm => exact (immOp_legal _ _ _ _ hs : OutLegal (execRolImm d a imm s))
  | rorImm d a imm => exact (immOp_legal _ _ _ _ hs : OutLegal (execRorImm d a imm s))
  | minImm d a imm => exact (immOp_legal _ _ _ _ hs : OutLegal (execMinImm d a imm s))
  | maxImm d a imm => exact (immOp_legal _ _ _ _ hs : OutLegal (execMaxImm d a imm s))
  | add | sub | and | or | xor | minu | maxu | mul | div | divu | rem | remu => exact regOp_legal _ _ _ _ hs
  | shl d a b => exact (regOp_legal _ _ _ _ hs : OutLegal (execShl d a b s))
  | shr d a b => exact (regOp_legal _ _ _ _ hs : OutLegal (execShr d a b s))
  | sar d a b => exact (regOp_legal _ _ _ _ hs : OutLegal (execSar d a b s))
  | rol d a b => exact (regOp_legal _ _ _ _ hs : OutLegal (execRol d a b s))
  | ror d a b => exact (regOp_legal _ _ _ _ hs : OutLegal (execRor d a b s))
  | slt d a b => exact (regOp_legal _ _ _ _ hs : OutLegal (execSlt d a b s))
  | sltu d a b => exact (regOp_legal _ _ _ _ hs : OutLegal (execSltu d a b s))
  | min d a b => exact (regOp_legal _ _ _ _ hs : OutLegal (execMin d a b s))
  | max d a b => exact (regOp_legal _ _ _ _ hs : OutLegal (execMax d a b s))
  | mulh d a b => exact (regOp_legal _ _ _ _ hs : OutLegal (execMulh d a b s))
  | mulhu d a b => exact (regOp_legal _ _ _ _ hs : OutLegal (execMulhu d a b s))
  | clz | ctz | popc | exts | extz | select | bswap | ldhi | addpc => exact outX_legal _ _ hs
  | fadd | fsub | fmul | fdiv => exact fpBinary_legal _ _ _ _ _ _ hs
  | fmin | fmax => exact fpSelect_legal _ _ _ _ _ _ hs
  | fcmpEq | fcmpLt | fcmpLe => exact fpCompare_legal _ _ _ _ _ _ hs
  | fsgnJ d a b t => exact (fpSign_legal _ _ _ _ _ _ hs : OutLegal (execFsgnJ d a b t s))
  | fsgnN d a b t => exact (fpSign_legal _ _ _ _ _ _ hs : OutLegal (execFsgnN d a b t s))
  | fsgnX => exact fpSign_legal _ _ _ _ _ _ hs
  | fma | fmaS | fmaN | fmaNs => exact fpMulAdd_legal _ _ _ _ _ _ _ hs
  | ld | ldb => exact loadTo_legal _ _ _ _ hs
  | st => exact storeFrom_legal _ _ _ _ hs
  | amoSwap d a b aq rl dw sc => exact (amoOp_legal _ _ _ _ _ hs : OutLegal (execAmoSwap d a b aq rl dw sc s))
  | amoAdd | amoAnd | amoOr | amoXor | amoMinu | amoMaxu => exact amoOp_legal _ _ _ _ _ hs
  | amoMin d a b aq rl dw sc => exact (amoOp_legal _ _ _ _ _ hs : OutLegal (execAmoMin d a b aq rl dw sc s))
  | amoMax d a b aq rl dw sc => exact (amoOp_legal _ _ _ _ _ hs : OutLegal (execAmoMax d a b aq rl dw sc s))
  | br => exact retireTo_legal _ hs
  | jal => exact retireTo_legal _ (wx_legal _ _ hs)
  | scopy | smap | sput => exact kick_legal _ _ _ _ hs
  | brk => exact outTrap_legal _ _ hs
  | tlbinvPage | tlbinvAsid | tlbinvAll => exact invalidate_legal _ _ _ hs
  | kand | kor | kxor | knot | kpopc | kfirst | kset | vsave | vrest | vld | vlds | vldx | vldff
  | vst | vsts | vstx | vbpld | vbpst | vbpdot | vbpcvtToplanes | vbpcvtTopacked | vadd | vsub
  | vmul | vmulh | vmadd | vmin | vmax | vand | vor | vxor | vshl | vshr | vsar | vadds | vsubs
  | vabsd | vwiden | vnarrow | vcmp | vfadd | vfsub | vfmul | vfma | vfdiv | vfsqrt | vfmin
  | vfmax | vfcmp | vfcvt | vsf | vredsum | vredmin | vredmax | vfredsum | vfredmin | vfredmax
  | vscan | vslideup | vslidedn | vgather | vcompress | vexpand | vmerge | vbcast | vmvx | vmvs
  | vmov | viota | vbq | vbdq =>
    exact enterVector_legal _ _ _ hs
  | fwctlWriteImage | fwctlReloadPlacement => exact writeFwctl_legal _ hs
  | keyctlEnrol | keyctlRevoke => exact writeKeyctl_legal _ hs
  | swisetWrite | doorbellWrite | hostirqWrite | notifyWrite | slotMap | schedcfgWrite | gexit
  | flrctlWrite | nqwrDoorbell | debugFreeze | debugRelease | trtailWrite =>
    exact registerStore_legal _ _ _ hs
  | hbmStackFailure => exact moduleEvent_legal _ _ _ hs
  | thermalTrip | powerRailFault => exact stopClock_legal _ hs
  | functionLevelReset => exact startFlr_legal _ hs
  | recoveryImage => exact streamedImage_legal _ _ _ hs
  | performanceCounterOverflow => exact onHart_legal hs fun _ h => h
  | fsqrt d a t => exact execFsqrt_legal d a t hs
  | fclass d a t => exact execFclass_legal d a t hs
  | fmovxToX d a => exact execFmovxToX_legal d a hs
  | fmovxToF d a => exact execFmovxToF_legal d a hs
  | fcvtToFloat d a dst src => exact execFcvtToFloat_legal d a dst src hs
  | fcvtToInteger d a dst src => exact execFcvtToInteger_legal d a dst src hs
  | pref a off => exact execPref_legal a off hs
  | ldAq d a wd sc => exact execLdAq_legal d a wd sc hs
  | stRl a b wd sc => exact execStRl_legal a b wd sc hs
  | cas d a b aq rl dw sc => exact execCas_legal d a b aq rl dw sc hs
  | fence dir sc => exact execFence_legal dir sc hs
  | stb a b wm1 => exact execStb_legal a b wm1 hs
  | jalr d a imm => exact execJalr_legal d a imm hs
  | loop a imm => exact execLoop_legal a imm hs
  | lend => exact execLend_legal hs
  | send d a b u => exact execSend_legal d a b u hs
  | recv d a b u => exact execRecv_legal d a b u hs
  | gbar d => exact execGbar_legal d hs
  | setwm a b sc => exact execSetwm_legal a b sc hs
  | waitwm a b sc => exact execWaitwm_legal a b sc hs
  | waitt a => exact execWaitt_legal a hs
  | tspawn a b n => exact execTspawn_legal a b n hs
  | tdone => exact execTdone_legal hs
  | tirrev => exact execTirrev_legal hs
  | tabort => exact execTabort_legal hs
  | tdomainOpen d a => exact execTdomainOpen_legal d a hs
  | tdomainEnter d => exact execTdomainEnter_legal d hs
  | tdomainClose d => exact execTdomainClose_legal d hs
  | swait a => exact execSwait_legal a hs
  | syscall imm => exact execSyscall_legal imm hs
  | getsr d sr => exact execGetsr_legal d sr hs
  | setsr a sr => exact execSetsr_legal a sr hs
  | swapsr d a sr => exact execSwapsr_legal d a sr hs
  | tret => exact execTret_legal hs
  | idle => exact execIdle_legal hs
  | cacheopIl a => exact execCacheopIl_legal a hs
  | cacheopIa => exact execCacheopIa_legal hs
  | cacheopWb a => exact execCacheopWb_legal a hs
  | cacheopWbi a => exact execCacheopWbi_legal a hs
  | setvl d a regs ew => exact execSetvl_legal d a regs ew hs
  | mshape d a b => exact execMshape_legal d a b hs
  | mzero c => exact execMzero_legal c hs
  | mlda d a b => exact execMlda_legal d a b hs
  | mldaScale d a b q => exact execMldaScale_legal d a b q hs
  | mldaff d a b => exact execMldaff_legal d a b hs
  | mldb d a b => exact execMldb_legal d a b hs
  | mldbScale d a b q => exact execMldbScale_legal d a b q hs
  | mldw d a b m => exact execMldw_legal d a b m hs
  | mtmap d a => exact execMtmap_legal d a hs
  | mma c a b f => exact execMma_legal c a b f hs
  | mstc c a b f => exact execMstc_legal c a b f hs
  | mmovcToVector d c b k => exact execMmovcToVector_legal d c b k hs
  | mmovcToTile c a b k => exact execMmovcToTile_legal c a b k hs
  | mcastTile d a => exact execMcastTile_legal d a hs
  | mcastRows d a => exact execMcastRows_legal d a hs
  | mwait => exact execMwait_legal hs
  | msave a => exact execMsave_legal a hs
  | mrest a => exact execMrest_legal a hs
  | powerOnReset => exact execPowerOnReset_legal s
  | hartctlStart v => exact execHartctlStart_legal v hs
  | hartctlStop v => exact execHartctlStop_legal v hs
  | hartStop h => exact execHartStop_legal h hs
  | monhartWrite v => exact execMonhartWrite_legal v hs
  | freezeMaster v => exact execFreezeMaster_legal v hs
  | freezeRelease v => exact execFreezeRelease_legal v hs
  | imageVerifyDone signer version security => exact execImageVerifyDone_legal signer version security hs
  | registerWrite who r v => exact execRegisterWrite_legal who r v hs
  | localsplitResize h => exact execLocalsplitResize_legal h hs
  | laneGrant h => exact execLaneGrant_legal h hs
  | interruptTake h => exact execInterruptTake_legal h hs
  | timecmpMatch h => exact execTimecmpMatch_legal h hs
  | externalInterrupt f line => exact execExternalInterrupt_legal f line hs
  | preemptionTake h => exact execPreemptionTake_legal h hs
  | lateVectorFault h => exact execLateVectorFault_legal h hs
  | convoyIssue h => exact execConvoyIssue_legal h hs
  | convoyDrain h => exact execConvoyDrain_legal h hs
  | scalarDestinationWrite h => exact execScalarDestinationWrite_legal h hs
  | matrixExecute h => exact execMatrixExecute_legal h hs
  | mcastDelivery core => exact execMcastDelivery_legal core hs
  | mwaitComplete h => exact execMwaitComplete_legal h hs
  | streamCommandStart core => exact execStreamCommandStart_legal core hs
  | streamCommandEnd core => exact execStreamCommandEnd_legal core hs
  | swaitCheck h => exact execSwaitCheck_legal h hs
  | pageWalk h va k => exact execPageWalk_legal h va k hs
  | migrationRecheck h => exact execMigrationRecheck_legal h hs
  | sendDeposit h => exact execSendDeposit_legal h hs
  | recvTake h => exact execRecvTake_legal h hs
  | gbarRelease island entry => exact execGbarRelease_legal island entry hs
  | idleWake h => exact execIdleWake_legal h hs
  | waittExpire h => exact execWaittExpire_legal h hs
  | waitwmSatisfied h => exact execWaitwmSatisfied_legal h hs
  | watermarkStore h => exact execWatermarkStore_legal h hs
  | fenceComplete h => exact execFenceComplete_legal h hs
  | taskFinish h => exact execTaskFinish_legal h hs
  | taskDispatch island => exact execTaskDispatch_legal island hs
  | frontierExchange f => exact execFrontierExchange_legal f hs
  | frontierApply f => exact execFrontierApply_legal f hs
  | commitBatch f dom => exact execCommitBatch_legal f dom hs
  | taskSpill island => exact execTaskSpill_legal island hs
  | taskRefill island dom => exact execTaskRefill_legal island dom hs
  | hartReclaim f dom => exact execHartReclaim_legal f dom hs
  | slotUnmap who island slot retire => exact execSlotUnmap_legal who island slot retire hs
  | packetParse island slot => exact execPacketParse_legal island slot hs
  | roundBoundary island ranking hot cool => exact execRoundBoundary_legal island ranking hot cool hs
  | gangPreemptSave island entry => exact execGangPreemptSave_legal island entry hs
  | monitorCodeTake => exact execMonitorCodeTake_legal hs
  | meshWriteLost h engine => exact execMeshWriteLost_legal h engine hs
  | directoryError pa => exact execDirectoryError_legal pa hs
  | taskUnitError f dom => exact execTaskUnitError_legal f dom hs
  | correctedError f => exact execCorrectedError_legal f hs
  | linkDown l => exact execLinkDown_legal l hs
  | flrDrainDone f => exact execFlrDrainDone_legal f hs
  | flrDrainTimeout f => exact execFlrDrainTimeout_legal f hs
  | flrScrubDone f => exact execFlrScrubDone_legal f hs
  | flrQueuesDone f => exact execFlrQueuesDone_legal f hs
  | hostRequest f r => exact execHostRequest_legal f r hs
  | networkStore f ans => exact execNetworkStore_legal f ans hs
  | networkRetrieve f ans value => exact execNetworkRetrieve_legal f ans value hs
  | networkDelete f ans => exact execNetworkDelete_legal f ans hs
  | networkExist f ans => exact execNetworkExist_legal f ans hs
  | networkCompletion f => exact execNetworkCompletion_legal f hs
  | helloSend => exact execHelloSend_legal hs
  | helloReceive serial term claims => exact execHelloReceive_legal serial term claims hs
  | electionTimeout => exact execElectionTimeout_legal hs
  | leaderSilenceTimeout => exact execLeaderSilenceTimeout_legal hs
  | imageBlockReceive => exact execImageBlockReceive_legal hs
  | imageBlockTimeout => exact execImageBlockTimeout_legal hs
  | notAnInstruction w cause => exact execNotAnInstruction_legal w cause hs
  | instructionFetchFault cause addr => exact execInstructionFetchFault_legal cause addr hs
  | linkTrained l => exact execLinkTrained_legal l hs
  | peerModuleRequest m r => exact execPeerModuleRequest_legal m r hs

theorem runInstr_legal (i : Instr) {s : State} (hs : FieldsLegal s) : OutLegal (runInstr i s) := by
  have hexec := exec_legal i hs
  unfold runInstr
  extract_lets head
  split
  · exact waitOn_legal hs nofun
  · split
    · exact hexec
    · split
      · exact uncorrectable_legal _ _ hs
      · split
        · next t he =>
          rw [he] at hexec
          show FieldsLegal (if _ then _ else _)
          split
          · exact hexec
          · exact onHart_legal hexec fun _ h => clearWritten_legal i h
        · exact hexec

theorem runWords_legal (ws : List Nat) {s : State} (hs : FieldsLegal s) : OutLegal (runWords ws s) := by
  unfold runWords
  split
  · exact runInstr_legal _ hs
  · exact execNotAnInstruction_legal _ _ hs

theorem runHart_legal {s : State} (hs : FieldsLegal s) : OutLegal (runHart s) := by
  unfold runHart
  split
  · exact raise_legal _ _ (onMe_legal hs fun _ h => h)
  · have hfetch := fetchInstr_legal s.cur (me s).pc hs
    split
    · next he => exact execInstructionFetchFault_legal _ _ (hfetch.of_error he)
    · next he => exact badAccess_legal _ _ (hfetch.of_error he)
    · next s1 ws he =>
      have htriggers := pcTriggers_legal [(me s).pc] (s := s1) (hfetch.of_ok he)
      split
      · next he => rw [he] at htriggers; exact htriggers
      · next he => rw [he] at htriggers; exact runWords_legal ws htriggers

theorem issueSlot_legal (c h : Nat) {s : State} (hs : FieldsLegal s) : FieldsLegal (issueSlot c h s) :=
  onCore_legal (k := c) (f := fun k => { k with lastSlot := some (slotOf h) }) hs fun _ hc => hc
theorem earlySlot_legal (c h : Nat) {s : State} (hs : FieldsLegal s) : FieldsLegal (earlySlot c h s) :=
  onCore_legal (k := c) (f := fun k => { k with lastSlot := some (slotOf h) }) hs fun _ hc => hc

theorem issueNext_legal {s : State} (hs : FieldsLegal s) : OutLegal (issueNext s) := by
  unfold issueNext
  split
  · exact runHart_legal (issueSlot_legal _ _ hs)
  · have hissue := lateIssue_legal hs
    cases hl : lateIssue s with
    | none => exact nextCycle_legal hs
    | some t => rw [hl] at hissue; exact hissue

theorem advance_legal {s : State} (hs : FieldsLegal s) : OutLegal (advance s) := by
  unfold advance
  split
  · split
    · exact runHart_legal (earlySlot_legal _ _ hs)
    · have hdue := nextInternal_legal hs
      split
      · next he => rw [he] at hdue; exact hdue
      · exact issueNext_legal hs
  · exact issueNext_legal hs

theorem takeInput_legal (i : Instr) (rest : List Instr) {s : State} (hs : FieldsLegal s) : OutLegal (takeInput i rest s) := by
  have hwaits := waitEnds_legal hs
  unfold takeInput
  split
  · next he =>
    split at he
    · rw [he] at hwaits; exact hwaits
    · cases he
  · split
    · exact exec_legal i (s := { s with inputs := rest }) hs
    · exact hs

theorem step_legal {s : State} (hs : FieldsLegal s) : OutLegal (step s) := by
  unfold step
  split
  · split
    · trivial
    · exact advance_legal hs
  · split
    · trivial
    · exact takeInput_legal _ _ hs

/-- Settles O7: each operation of the model keeps the fields legal, and a step is made of them. -/
theorem stepKeepsFields : Obligations.StepKeepsFields := by
  intro s t hs hstep
  have hout := step_legal hs
  rw [hstep] at hout
  exact hout

/-- Every hart but the boot hart stands at its default. -/
theorem hart_reset (h : Nat) : hart State.reset h = if bootHart = h then Hart.boot else {} := by
  change (tabGet [(bootHart, Hart.boot)] h).getD {} = _
  rw [tabGet]
  split <;> rfl

theorem started_reset_iff (h : Nat) : (hart State.reset h).started = true ↔ h = bootHart := by
  rw [hart_reset]
  split
  · next hb => exact iff_of_true rfl hb.symm
  · next hb => exact iff_of_false Bool.false_ne_true (Ne.symm hb)

/-- Settles O8: what the reset state holds, and that it is legal and in the canonical form. -/
theorem resetState : Obligations.ResetState :=
  ⟨started_reset_iff, rfl, rfl, rfl, rfl, rfl, rfl, ⟨rfl, fun _ => rfl⟩, resetFields_legal⟩

end Sys2Proof.Machine
/-! SUPPORT. A convoy behind an MCAST in the matrix queue, and the refutation of O54. -/
namespace Sys2Proof.Machine
open Sys2Proof.Claim

/-- MCAST of A tile 3, whose mask x5 will receive, not yet started in the matrix queue. -/
def queuedCast : MEntry :=
  { pc := 0xFFC, act := .castTile 5 3, cap := {}, pins := [], seq := 0, after := 0, mem := false, ends := none, todo := none }
/-- A hart behind it, at a VMVX from x5 that another member follows. -/
def castHart : Hart :=
  { mode := .monitor, started := true, pc := 0x1000, vs := 2, ms := 2, lanes := 8, regs := 1, ew := 2, vl := 12, mq := [queuedCast] }
/-- The machine with it, VMUL standing behind the VMVX in memory. -/
def castState : State :=
  { State.reset with harts := [(0, castHart)], cur := 0, mem := [(0x1008, 0x82), (0x1009, 0x40), (0x100A, 0xA6), (0x100B, 0xE8)] }
/-- The first member, which reads x5. -/
def castFirst : Instr := .vmvx ⟨true, 0⟩ 4 5 .w
/-- The second member. -/
def castSecond : Instr := .vmul ⟨false, 0⟩ 5 6 (.reg 8) .w

theorem castHart_passes_first : Passes (vectorChecks castHart castFirst (.moveX 4 0 .w)) := by
  intro p hp
  simp only [vectorChecks, List.mem_cons, List.not_mem_nil, or_false] at hp
  rcases hp with rfl | rfl | rfl | rfl | rfl | rfl <;> dsimp only <;> decide

theorem castHart_passes_second : Passes (vectorChecks castHart castSecond (.int .mul 5 6 (.vreg 8) .w)) := by
  intro p hp
  simp only [vectorChecks, List.mem_cons, List.not_mem_nil, or_false] at hp
  rcases hp with rfl | rfl | rfl | rfl | rfl | rfl <;> dsimp only <;> decide

theorem castState_fetchesPlain : FetchesPlain castState 0x1008 :=
  ⟨rfl, rfl, by decide, by decide, rfl, rfl, rfl, rfl, rfl⟩

theorem castState_second : decodeWords (wordsAt castState 0x1008) = .ok castSecond := rfl

theorem not_clash_cast : ¬Clash (.moveX 4 0 .w) (.int .mul 5 6 (.vreg 8) .w) := by
  rintro (⟨h, -⟩ | ⟨h, -⟩ | ⟨h, -⟩ | ⟨h, -⟩ | ⟨h, -⟩ | ⟨_, _, _, h⟩ | ⟨_, _, _, h⟩) <;> cases h

/-- The VMVX waits for the mask (R140). -/
theorem exec_castFirst : ∃ t, exec castFirst castState = .next t ∧ (me t).wait = some .castMask := ⟨_, rfl, rfl⟩

theorem unexposed_castState : Unexposed castState := ⟨(fun _ hc => nomatch hc), rfl, fun _ hf => nomatch hf⟩

/-- Refutes O54: of the MCASTs whose mask is still to come the statement excludes only one that has been performed
(`castMask`), and not one that stands in the matrix queue, whose mask the convoy awaits too (R140, `castRegs`). -/
theorem not_convoyPairs : ¬Obligations.ConvoyPairs := by
  intro hall
  obtain ⟨-, hpair⟩ := hall castState castFirst ⟨true, 0⟩ (.moveX 4 0 .w) rfl rfl rfl castState_fetchesPlain
  obtain ⟨-, henters⟩ := hpair castSecond ⟨false, 0⟩ (.int .mul 5 6 (.vreg 8) .w) (by decide) castState_second rfl rfl
  have hclash : ¬(Clash (.moveX 4 0 .w) (.int .mul 5 6 (.vreg 8) .w) ∨
      ((VAct.int .mul 5 6 (.vreg 8) .w).isCross = true ∧ (0 : BitVec 3).toNat ∈ (VAct.moveX 4 0 .w).writesK)) := by
    rintro (h | ⟨h, -⟩)
    · exact not_clash_cast h
    · cases h
  obtain ⟨-, -, hqueued⟩ := henters hclash rfl rfl rfl rfl rfl (by decide) unexposed_castState
  obtain ⟨t, ht, u, -, -, -, pins, -, -, hme⟩ := hqueued castHart_passes_first castHart_passes_second
  obtain ⟨t', ht', hwait⟩ := exec_castFirst
  cases ht.symm.trans ht'
  rw [hme] at hwait
  cases hwait

end Sys2Proof.Machine
/-! SUPPORT. Window sums of zeros under NB3 (R89, R93), and the refutation of O56 that rests on them. -/
namespace Sys2Proof.Machine
open Sys2Proof.Claim

theorem reading_zero (f : Fmt) : reading f 0 = .num 0 false := by
  simp [reading, realOf]

/-- The window sum of zeros is zero (R89): no binade holds the largest term. -/
theorem isWindowSum_zeros {frac : Nat} {ts : List ℝ} {s : ℝ} (hts : ∀ t ∈ ts, t = 0) (hs : IsWindowSum frac ts s) : s = 0 := by
  rcases hs with ⟨-, hs⟩ | ⟨m, ⟨t, ht, hm⟩, -⟩
  · exact hs
  · rw [hts t ht, abs_zero] at hm
    exact absurd hm (not_le.mpr (zpow_pos two_pos m))

/-- Under NB3 `Block` asks for every sign `neg` that `neg = true` hold exactly if "the sum of zeros is negative" IMPLIES the
result; for `neg = false` and zeros that sum to +0 the implication holds and `neg = true` does not. -/
theorem not_block_of_zeros {f : Fmt} {rm : BitVec 3} {xs : Nat → Option Reading} {r : FRes} (hrm : rm ≠ 2)
    (hpresent : ∃ j, j < 8 ∧ xs j ≠ none) (hzero : ∀ j x, xs j = some x → x = .num 0 false) : ¬Claim.Block 3 f rm 0 xs r := by
  rintro ⟨-, hsum⟩
  have hl : ∀ x ∈ reading f 0 :: (List.range 8).filterMap xs, x = .num 0 false := by
    intro x hx
    rcases List.mem_cons.1 hx with rfl | hx
    · exact reading_zero f
    · obtain ⟨j, -, hj⟩ := List.mem_filterMap.1 hx
      exact hzero j x hj
  obtain ⟨-, -, hnumbers⟩ := hsum hpresent
  obtain ⟨s, hs, hsign, -⟩ := hnumbers fun x hx => ⟨0, false, hl x hx⟩
  have hs0 : s = 0 := isWindowSum_zeros (fun t ht => by
    obtain ⟨x, hx, rfl⟩ := List.mem_map.1 ht
    rw [hl x hx]; rfl) hs
  obtain ⟨hneg, -⟩ := hsign hs0
  refine Bool.false_ne_true ((hneg false).2 fun h => ?_)
  rcases h with h | h
  · have h0 := h _ List.mem_cons_self
    rw [reading_zero] at h0
    cases h0
  · exact absurd h hrm

theorem not_folds_of_zeros {f : Fmt} {rm : BitVec 3} {n : Nat} {el : Nat → Option Reading} {r : FRes} (hrm : rm ≠ 2)
    (hpresent : ∃ j, j < 8 ∧ el j ≠ none) (hn : 0 < n) (hzero : ∀ j x, el j = some x → x = .num 0 false) :
    ¬Folds 3 f rm 0 n el r := by
  rintro ⟨a, ha, -, hblocks⟩
  obtain ⟨z, hz, -⟩ := hblocks 0 (by omega)
  rw [ha] at hz
  exact not_block_of_zeros hrm (by simpa using hpresent) (fun j x hj => hzero _ x hj) hz

/-- What the refuting VFREDSUM captured: one element, NBV 3, round to nearest even. -/
def oneZero : Captured := { vl := 1, lanes := 16, nbv := 3, rm := 0 }
/-- VFREDSUM of that element of v2, an FP64 +0, into f1, which holds FP64 +0. -/
def sumOfZeros : VMember := ⟨.fred .sum 1 2 .df .df 0, 0, oneZero⟩
/-- Its convoy. -/
def zerosConvoy : Convoy :=
  { pc := 0, members := [sumOfZeros], pins := [], seq := 0, after := 0, mem := false, exposed := false, start := 0, reprobe := none }
/-- The hart in whose queue the convoy is the first. -/
def zerosHart : Hart := { vq := [zerosConvoy] }
/-- The machine in a cycle in which it issues. -/
def zerosState : State := { State.reset with harts := [(0, zerosHart)], time := 1 }

theorem elementAt_zerosHart (r : Reg) (w j : Nat) : elementAt zerosHart r w j = 0 := by
  have hz : (getV zerosHart r).toNat = 0 := by
    simp only [getV, zerosHart, Vector.getElem_replicate]
    exact BitVec.toNat_zero
  rw [elementAt, hz, Nat.zero_div, Nat.zero_mod]

theorem presentIn_zeros (j : Nat) (x : Reading) (h : presentIn zerosHart oneZero 0 2 .df j = some x) : x = .num 0 false := by
  unfold presentIn at h
  split at h
  · rw [elementAt_zerosHart, reading_zero] at h
    exact (Option.some.inj h).symm
  · cases h

theorem presentIn_zeros_first : presentIn zerosHart oneZero 0 2 .df 0 ≠ none := by
  unfold presentIn
  rw [if_pos (by decide)]
  exact Option.some_ne_none _

/-- Refutes O56: what issues is to take a result that `ScalarResult` allows, and it allows VFREDSUM of an FP64 +0 into a +0
under NBV 3 none: `Block` does not read as "the sign is negative exactly if …, and the result is that zero", the arrow
binding tighter than the equivalence (`not_block_of_zeros`). -/
theorem not_vectorDrains : ¬Obligations.VectorDrains := by
  rintro ⟨-, hissue, -⟩
  obtain ⟨-, hfree⟩ := hissue zerosState 0 zerosConvoy sumOfZeros rfl rfl
  obtain ⟨t, -, f, -, -, -, -, -, hdest, -⟩ := hfree ⟨rfl, (fun o ho => nomatch ho), by decide⟩ rfl rfl rfl
  obtain ⟨v, -, fl, hresult⟩ := hdest (.vfredsum ⟨false, 0⟩ 1 2 .df .df) {} ⟨false, 0⟩ (true, 1) rfl rfl rfl rfl rfl
    (fun _ => by decide) (fun _ => by decide) rfl (by decide)
  rcases hresult with ⟨hvl, -⟩ | ⟨-, r, hfolds, -⟩
  · cases hvl
  · refine not_folds_of_zeros (by decide) ⟨0, by decide, presentIn_zeros_first⟩ one_pos presentIn_zeros (r := r) (f := fmtOf .df) (rm := 0) ?_
    exact hfolds

end Sys2Proof.Machine
/-! SUPPORT. A store of no element over a memory that is not canonical, and the refutation of O58. -/
namespace Sys2Proof.Machine
open Sys2Proof.Claim

/-- What the refuting VST captured: no element. -/
def noElement : Captured := { vl := 0, lanes := 16 }
/-- VST of no byte element, about to drain. -/
def emptyStore : Flight :=
  { convoy := { pc := 0, members := [⟨.store 0 .b (.unit 0), 0, noElement⟩], pins := [], seq := 0, after := 0, mem := true
                exposed := false, start := 0, reprobe := none }
    issued := 0, lsStart := 0, lsBeats := 1, drains := 0, todo := none, dest := none }
/-- The hart it drains in. -/
def emptyStoreHart : Hart := { flight := some emptyStore }
/-- A machine whose memory lists a byte that reads as an unlisted one: it is not in the canonical form. -/
def emptyStoreState : State := { State.reset with harts := [(0, emptyStoreHart)], mem := [(0, 0)] }

theorem hart_emptyStoreState (k : Nat) : hart emptyStoreState k = emptyStoreHart ∨ hart emptyStoreState k = {} := by
  change (tabGet [(0, emptyStoreHart)] k).getD {} = _ ∨ (tabGet [(0, emptyStoreHart)] k).getD {} = _
  rw [tabGet]
  split
  · exact .inl rfl
  · exact .inr rfl

theorem emptyStore_inFlight : InFlight emptyStoreState 0 (.vst ⟨false, 0⟩ 0 0 .b) {} noElement emptyStore := by
  refine ⟨rfl, rfl, rfl, rfl, Nat.le_refl 0, rfl, ⟨rfl, rfl, by decide, fun k d v => ?_⟩, (fun e he => nomatch he), Nat.zero_le _, by decide, by decide,
    (fun hf => nomatch hf), (fun hf => nomatch hf), ⟨false, 0⟩, _, rfl, rfl⟩
  rcases hart_emptyStoreState k with hk | hk <;> rw [hk] <;> exact fun hw => nomatch hw

/-- The drain of that store. -/
def afterEmptyStore : State := drainConvoy 0 emptyStoreState

theorem exec_emptyStore : exec (.convoyDrain 0) emptyStoreState = .next afterEmptyStore := rfl

theorem mem_afterEmptyStore : afterEmptyStore.mem = [(0, 0)] := rfl

/-- Refutes O58: a store is to end with memory in its canonical form, which is supposed only where an active element is
stored to; a VST with VL 0 stores nothing and leaves a memory that was not canonical as it was. Reset has no such memory
(O8) and steps are to keep the form (O6), but the statement is about every state. -/
theorem not_vectorMemory : ¬Obligations.VectorMemory := by
  rintro ⟨haccess, -⟩
  have hnone : ∀ e, ¬(noElement.vstart ≤ e ∧ e < min noElement.vl emptyStore.convoy.limit ∧ selects (hart emptyStoreState 0) 0 e = true) :=
    fun e he => absurd he.2.1 (by simp [noElement])
  obtain ⟨-, hstore⟩ := haccess emptyStoreState 0 _ {} noElement emptyStore .b ⟨false, 0⟩ 0 0 _ emptyStore_inFlight
    (fun e he => absurd he (hnone e)) rfl (by decide)
  obtain ⟨u, hu, v, -, -, hwf, -⟩ := hstore (.inl ⟨rfl, fun e => rfl⟩)
  rw [exec_emptyStore] at hu
  cases hu
  rw [mem_afterEmptyStore] at hwf
  cases hwf

end Sys2Proof.Machine
/-! SUPPORT. An MCAST in a gang of one hart on a core that the table of cores does not list, and the refutation of O59. -/
namespace Sys2Proof.Machine
open Sys2Proof.Claim

/-- MCAST of A tile 3, whose mask x5 will receive, its last cycle over. -/
def soleCast : MEntry :=
  { pc := 0xFFC, act := .castTile 5 3, cap := { kb := 128, n := 32, m := 32 }, pins := [], seq := 0, after := 0, mem := false
    ends := some 8, todo := none }
/-- The gang of its hart alone, which receives nothing from itself (R140). -/
def soleGang : Gang :=
  { packet := ⟨0, 1, 0, 1, 0, 0, 0, 0x4000, 0, 0, 0x100000, 0, 0⟩, slot := 0, qcb := 0, ringIndex := 0, ptroot := 0, phase := .running
    admitted := 0, waited := 0, ran := 0, harts := [(0, 0)], saved := false, budget := 0, reason := 0, barriers := 0
    broken := false, preempts := 0, migrates := 0 }
/-- The hart it stands in, the only member of gang 3. -/
def soleHart : Hart := { ms := 2, gang := { valid := true, gang := 3, size := 1, member := 0 }, mq := [soleCast] }
/-- The machine with it: every core as reset leaves it, so that the table of cores lists none. -/
def soleState : State :=
  { State.reset with harts := [(0, soleHart)], islands := [(0, { gangs := [(3, soleGang)] })], time := 9 }

theorem wait_soleState (k : Nat) : (hart soleState k).wait = none := by
  cases k <;> rfl

theorem soleCast_lastCycle : LastCycle soleState 0 soleCast :=
  ⟨rfl, ⟨rfl, rfl, rfl, fun k _ _ => ne_of_eq_of_ne (wait_soleState k) (Option.some_ne_none _).symm⟩, rfl, rfl, rfl, rfl,
    ⟨8, rfl, Nat.le_refl 9⟩, rfl, fun _ hk => (Option.some_ne_none _ hk.symm).elim, Nat.le_refl 128, Nat.le_refl 32, Nat.le_refl 32,
    Nat.zero_le 2048, Nat.zero_lt_succ 5119⟩

/-- The machine once the MCAST has taken effect. -/
def afterSoleCast : State := finishEntry soleState 0 soleCast

theorem exec_soleCast : exec (.matrixExecute 0) soleState = .next afterSoleCast := rfl

/-- The MCAST sends to the other members one after another, from a state in which its own core is written as it was
(`castOf`); the table lists that core from then on. -/
theorem cores_afterSoleCast : afterSoleCast.cores.isEmpty = false := rfl

theorem mem_soleGang {p : Nat × Nat} (hp : p ∈ soleGang.harts) : p = (0, 0) := List.mem_singleton.1 hp

theorem gang_soleState :
    tabGet (island soleState (islandOf 0)).gangs ((hart soleState 0).gang.gang.toNat % 256) = some soleGang := rfl

/-- Refutes O59: an MCAST without another member is to change its hart and nothing else, the table of cores included; the
model writes the sender's core back as it was, which lists a core that was not listed. The statement's abbreviations stay
in place on the way to its clause about MCAST: unfolded, its other clauses would be most of the proof's term. -/
theorem not_matrixExecutes : ¬Obligations.MatrixExecutes := by
  intro hO
  let s := soleState
  let h := 0
  let e := soleCast
  have hlast : LastCycle s h e := soleCast_lastCycle
  refine (?_ : _ → False) (hO.1 s h e hlast)
  lift_lets -underBinder
  intro x n c cap ev dirty full tile granted
  refine Function.comp (Function.comp ?_ And.right) (Function.comp And.right (Function.comp And.right
    (Function.comp And.right (Function.comp And.right And.right))))
  intro hcast
  refine (?_ : _ → False) (hcast 5 soleGang rfl gang_soleState (List.nodup_singleton _)
    (fun _ hp _ hq _ => (mem_soleGang hp).trans (mem_soleGang hq).symm)
    (fun _ hp => mem_soleGang hp ▸ ⟨rfl, Nat.zero_lt_succ _, Nat.zero_lt_succ _⟩) (fun _ => List.forall_mem_nil _))
  lift_lets -underBinder
  intro own sent others
  refine Function.comp (fun halone => ?_) And.left
  refine (halone (.inl ⟨3, rfl⟩) (.inl (by decide))).elim fun t ht => ?_
  have hsame := (Host.Outcome.next.inj (exec_soleCast.symm.trans ht.1)).trans ht.2.1
  exact Bool.false_ne_true (cores_afterSoleCast.symm.trans (congrArg (·.cores.isEmpty) hsame))

end Sys2Proof.Machine
